-- ==== Sys2Proof/Word.lean ====
section
/-! DEFINITION. Words of the machine and the small types that instruction fields are read into:
scopes (R1), operand bytes (R60), predicate selectors (R59), memory orders and scopes (R57),
parties of the ragged frontier (R113). -/

namespace Sys2Proof

/-- A byte of memory (R2). -/
abbrev Byte := BitVec 8
/-- A lane register, an instruction word (R45, R123). -/
abbrev W32 := BitVec 32
/-- A scope scalar, a virtual address (R60, R221). -/
abbrev W64 := BitVec 64
/-- The hierarchical mask of a team: bit l is lane l (R68). The summary word is computed from it. -/
abbrev Mask := BitVec 1024

/-- The five scopes (R1). -/
inductive Scope where
  | lane | team | block | cluster | grid
deriving DecidableEq, Repr

/-- Scope code of R1. -/
def Scope.code : Scope → BitVec 3
  | .lane => 0 | .team => 1 | .block => 2 | .cluster => 3 | .grid => 4

/-- Codes 5 to 7 are reserved (R1). -/
def Scope.ofCode (c : BitVec 3) : Option Scope :=
  if c = 0 then some .lane else if c = 1 then some .team else if c = 2 then some .block
  else if c = 3 then some .cluster else if c = 4 then some .grid else none

/-- Width order of scopes: LANE is the narrowest (R1). -/
def Scope.rank (s : Scope) : Nat := s.code.toNat

/-- The operand byte map of R60, one constructor per row. -/
inductive Operand where
  | v (n : BitVec 7) | s (n : BitVec 5) | b (n : BitVec 3) | c (n : BitVec 2) | g (n : BitVec 2)
  | vz | lane | team | blk | nlane | nteam | nblk | clu
  | lcT | lcB | lcC | lcG | depth | rsvBD | rsvBE | rsvBF
  | frame (level : BitVec 2) (slot : BitVec 4)
deriving DecidableEq, Repr

/-- The operand byte of an operand (R60). -/
def Operand.toByte : Operand → Byte
  | .v n => (0#1 ++ n : BitVec 8)
  | .s n => (4#3 ++ n : BitVec 8)
  | .b n => (0x14#5 ++ n : BitVec 8)
  | .c n => (0x2A#6 ++ n : BitVec 8)
  | .g n => (0x2B#6 ++ n : BitVec 8)
  | .vz => 0xB0 | .lane => 0xB1 | .team => 0xB2 | .blk => 0xB3 | .nlane => 0xB4 | .nteam => 0xB5
  | .nblk => 0xB6 | .clu => 0xB7 | .lcT => 0xB8 | .lcB => 0xB9 | .lcC => 0xBA | .lcG => 0xBB
  | .depth => 0xBC | .rsvBD => 0xBD | .rsvBE => 0xBE | .rsvBF => 0xBF
  | .frame l k => (3#2 ++ l ++ k : BitVec 8)

/-- The operand that a byte names (R60); total, because the reserved bytes are operands that fail
at step 4 of R66. -/
def Operand.ofByte (x : Byte) : Operand :=
  let n := x.toNat
  if n < 0x80 then .v (BitVec.ofNat 7 n)
  else if n < 0xA0 then .s (BitVec.ofNat 5 n)
  else if n < 0xA8 then .b (BitVec.ofNat 3 n)
  else if n < 0xAC then .c (BitVec.ofNat 2 n)
  else if n < 0xB0 then .g (BitVec.ofNat 2 n)
  else if n < 0xC0 then
    match n with
    | 0xB0 => .vz | 0xB1 => .lane | 0xB2 => .team | 0xB3 => .blk | 0xB4 => .nlane | 0xB5 => .nteam
    | 0xB6 => .nblk | 0xB7 => .clu | 0xB8 => .lcT | 0xB9 => .lcB | 0xBA => .lcC | 0xBB => .lcG
    | 0xBC => .depth | 0xBD => .rsvBD | 0xBE => .rsvBE | _ => .rsvBF
  else .frame (BitVec.ofNat 2 (n / 16)) (BitVec.ofNat 4 n)

/-- A 6-bit predicate selector: 0-47 lane predicates, 48-63 scope predicates (R59). -/
inductive PredSel where
  | p (n : Fin 48) | q (n : BitVec 4)
deriving DecidableEq, Repr

/-- Selector code (R59). -/
def PredSel.code : PredSel → BitVec 6
  | .p n => BitVec.ofNat 6 n.val
  | .q n => (3#2 ++ n : BitVec 6)

/-- Every 6-bit code is a selector (R59). -/
def PredSel.ofCode (c : BitVec 6) : PredSel :=
  if h : c.toNat < 48 then .p ⟨c.toNat, h⟩ else .q (BitVec.ofNat 4 c.toNat)

/-- Access size (R59). -/
inductive Size where
  | b | h | w | d
deriving DecidableEq, Repr

/-- Size code (R59). -/
def Size.code : Size → BitVec 2
  | .b => 0 | .h => 1 | .w => 2 | .d => 3

/-- Size of a code (R59). -/
def Size.ofCode (c : BitVec 2) : Size :=
  if c = 0 then .b else if c = 1 then .h else if c = 2 then .w else .d

/-- Bytes of a size (R59). -/
def Size.bytes : Size → Nat
  | .b => 1 | .h => 2 | .w => 4 | .d => 8

/-- Memory order (R57). -/
inductive Order where
  | relaxed | acquire | release | acqRel
deriving DecidableEq, Repr

/-- Order code (R57). -/
def Order.code : Order → BitVec 2
  | .relaxed => 0 | .acquire => 1 | .release => 2 | .acqRel => 3

/-- Order of a code (R57). -/
def Order.ofCode (c : BitVec 2) : Order :=
  if c = 0 then .relaxed else if c = 1 then .acquire else if c = 2 then .release else .acqRel

/-- Memory scope (R57, R252). -/
inductive MScope where
  | team | block | cluster | device | domain | system
deriving DecidableEq, Repr

/-- Memory-scope code (R57). -/
def MScope.code : MScope → BitVec 3
  | .team => 0 | .block => 1 | .cluster => 2 | .device => 3 | .domain => 4 | .system => 5

/-- Codes 6 and 7 raise 0x01 (R57). -/
def MScope.ofCode (c : BitVec 3) : Option MScope :=
  if c = 0 then some .team else if c = 1 then some .block else if c = 2 then some .cluster
  else if c = 3 then some .device else if c = 4 then some .domain else if c = 5 then some .system
  else none

/-- The common part of a memory member's EXT payload (R57). The policy changes time only (R249). -/
structure MemExt where
  order : Order
  ms : MScope
  policy : BitVec 2
deriving DecidableEq, Repr

/-- The defaults of a form without EXT word: relaxed, device, normal (R239). -/
def MemExt.plain : MemExt := ⟨.relaxed, .device, 0⟩

/-- A party of a grid's ragged frontier (R113): a team, or a sequencer level instance. Grids are
named by the model's grid number, blocks by blk, cluster instances by clu. -/
inductive Party where
  | team (g b t : Nat)
  | block (g b : Nat)
  | cluster (g k : Nat)
  | grid (g : Nat)
deriving DecidableEq, Repr

/-- The grid of a party. -/
def Party.gridNo : Party → Nat
  | .team g _ _ => g | .block g _ => g | .cluster g _ => g | .grid g => g

/-- The scope level of a party (R93). -/
def Party.scope : Party → Scope
  | .team _ _ _ => .team | .block _ _ => .block | .cluster _ _ => .cluster | .grid _ => .grid

/-- One request of a peer device to this one (R398): an atomic names its operation of R261, 12 for CAS with its comparand; or a
message of it to a partition of this device (R280, R399). -/
inductive PeerOp where
  | load (n : Nat) | store (data : List Byte) | atomic (op : BitVec 4) (n : Nat) (x cmp : W64)
  | msg (target blk entry size timeout : Nat) (words : List W32)
deriving DecidableEq, Repr

end Sys2Proof
end

