-- ==== Sys2Proof/Machine/Float.lean ====
section
/-! DEFINITION. Floating values (R142 to R149): exact decoding, one rounding to a format with its flags,
and the value of every float operation. Values are computed exactly on integers and rationals. -/

namespace Sys2Proof.Machine

/-- A floating format: exponent and fraction bits (R142). -/
structure FFmt where
  eb : Nat
  fb : Nat
deriving DecidableEq, Repr

def fp32 : FFmt := ⟨8, 23⟩
def fp16 : FFmt := ⟨5, 10⟩
def bf16 : FFmt := ⟨8, 7⟩

/-- The bias of a format (R142). -/
def FFmt.bias (f : FFmt) : Nat := 2 ^ (f.eb - 1) - 1
/-- The bits of +∞ (R142). -/
def FFmt.inf (f : FFmt) : Nat := (2 ^ f.eb - 1) * 2 ^ f.fb
/-- The canonical NaN (R142). -/
def FFmt.nan (f : FFmt) : Nat := f.inf + 2 ^ (f.fb - 1)
/-- The sign bit. -/
def FFmt.sgn (f : FFmt) : Nat := 2 ^ (f.eb + f.fb)
/-- The exponent of the lowest bit of a subnormal. -/
def FFmt.qmin (f : FFmt) : Int := 1 - (f.bias : Int) - (f.fb : Int)

/-- What a format's bits stand for: a finite value is ± m · 2^e. -/
inductive FV where
  | nan (signalling : Bool)
  | inf (neg : Bool)
  | fin (neg : Bool) (m : Nat) (e : Int)
deriving DecidableEq, Repr

/-- Rounding mode, daz and ftz (R129). -/
structure FEnv where
  rm : BitVec 2
  daz : Bool
  ftz : Bool
deriving DecidableEq, Repr

/-- The environment of fpc (R129). -/
def FEnv.ofFpc (x : W32) : FEnv := ⟨x.extractLsb' 0 2, x.getLsbD 3, x.getLsbD 2⟩
/-- Nearest even, subnormals kept: REDUCE, matrix members, bank ALUs, sequencers (R90, R130, R149). -/
def FEnv.plain : FEnv := ⟨0, false, false⟩

/-- The flag bits at their places in fpc (R129). -/
def flNv : W32 := 0x10
def flDz : W32 := 0x20
def flOf : W32 := 0x40
def flUf : W32 := 0x80
def flNx : W32 := 0x100

/-- A result's bits with the flags it sets. -/
abbrev FRes := Nat × W32

/-- The value of a format's bits (R142); daz reads a subnormal as zero of its own sign (R148). -/
def decodeF (f : FFmt) (daz : Bool) (x : Nat) : FV :=
  let neg := decide (x / f.sgn % 2 = 1)
  let e := x / 2 ^ f.fb % 2 ^ f.eb
  let m := x % 2 ^ f.fb
  if e = 2 ^ f.eb - 1 then
    if m = 0 then .inf neg else .nan (decide (m < 2 ^ (f.fb - 1)))
  else if e = 0 then
    if daz then .fin neg 0 0 else .fin neg m f.qmin
  else .fin neg (m + 2 ^ f.fb) (f.qmin + e - 1)

/-- Whether rounding moves the magnitude up: mode, sign, whether the kept part is odd, twice the
remainder against the divisor (R147). -/
def roundsUp (rm : BitVec 2) (neg odd : Bool) (rem2 d : Nat) : Bool :=
  if rem2 = 0 then false
  else if rm = 0 then decide (d < rem2) || (decide (rem2 = d) && odd)
  else if rm = 1 then false
  else if rm = 2 then neg
  else !neg

/-- num / den · 2^e at the unit 2^q, rounded to an integer, and whether it was exact. -/
def roundAt (rm : BitVec 2) (neg : Bool) (num den : Nat) (e q : Int) : Nat × Bool :=
  let n := if q ≤ e then num * 2 ^ (e - q).toNat else num
  let d := if q ≤ e then den else den * 2 ^ (q - e).toNat
  let k := n / d
  let r := n % d
  (if roundsUp rm neg (decide (k % 2 = 1)) (2 * r) d then k + 1 else k, decide (r = 0))

/-- The floor of log2 of num / den. -/
def ratLog2 (num den : Nat) : Int :=
  let l : Int := (Nat.log2 num : Int) - Nat.log2 den
  let ge : Bool := if 0 ≤ l then decide (den * 2 ^ l.toNat ≤ num) else decide (den ≤ num * 2 ^ (-l).toNat)
  if ge then l else l - 1

/-- What overflow writes (R147). -/
def overflowBits (f : FFmt) (rm : BitVec 2) (neg : Bool) : Nat :=
  let big := if rm = 0 then f.inf
    else if rm = 1 then f.inf - 1
    else if rm = 2 then (if neg then f.inf else f.inf - 1)
    else (if neg then f.inf - 1 else f.inf)
  (if neg then f.sgn else 0) + big

/-- The non-zero value ± num / den · 2^e rounded once to a format (R147, R148). -/
def roundF (f : FFmt) (v : FEnv) (neg : Bool) (num den : Nat) (e : Int) : FRes :=
  let sg := if neg then f.sgn else 0
  let E := ratLog2 num den + e
  let emin := f.qmin + f.fb
  let q0 := E - f.fb
  let (n0, _) := roundAt v.rm neg num den e q0
  let tiny : Bool := decide (E < emin) && !(decide (E = emin - 1) && decide (n0 = 2 ^ (f.fb + 1)))
  if tiny && v.ftz then (sg, flUf ||| flNx)
  else
    let q := if E < emin then f.qmin else q0
    let (n, exact) := roundAt v.rm neg num den e q
    let bits := (q - f.qmin).toNat * 2 ^ f.fb + n
    if f.inf ≤ bits then (overflowBits f v.rm neg, flOf ||| flNx)
    else (sg + bits, if exact then 0 else if tiny then flUf ||| flNx else flNx)

/-- Whether a value is a signalling NaN: nv (R143). -/
def FV.snan : FV → W32
  | .nan true => flNv
  | _ => 0

def FV.isNan : FV → Bool
  | .nan _ => true
  | _ => false

def FV.isZero : FV → Bool
  | .fin _ m _ => decide (m = 0)
  | _ => false

def FV.neg : FV → FV
  | .nan s => .nan s
  | .inf n => .inf (!n)
  | .fin n m e => .fin (!n) m e

def FV.sign : FV → Bool
  | .nan _ => false
  | .inf n => n
  | .fin n _ _ => n

/-- The bits of a signed zero. -/
def zeroBits (f : FFmt) (neg : Bool) : Nat := if neg then f.sgn else 0
/-- The bits of a signed infinity. -/
def infBits (f : FFmt) (neg : Bool) : Nat := (if neg then f.sgn else 0) + f.inf

/-- The signed integer of a finite value at the unit 2^q, q at most e. -/
def scaledInt (neg : Bool) (m : Nat) (e q : Int) : Int :=
  let x : Int := (m * 2 ^ (e - q).toNat : Nat)
  if neg then -x else x

/-- A finite value rounded to a format. A zero keeps its sign. -/
def roundFV (f : FFmt) (v : FEnv) : FV → FRes
  | .nan s => (f.nan, if s then flNv else 0)
  | .inf n => (infBits f n, 0)
  | .fin n m e => if m = 0 then (zeroBits f n, 0) else roundF f v n m 1 e

/-- A sum, rounded once. An exact zero is +0, or −0 toward −∞; two zeros of one sign keep it (R147). -/
def addF (f : FFmt) (v : FEnv) (x y : FV) : FRes :=
  let fl := x.snan ||| y.snan
  match x, y with
  | .nan _, _ => (f.nan, fl)
  | _, .nan _ => (f.nan, fl)
  | .inf a, .inf b => if a = b then (infBits f a, fl) else (f.nan, flNv)
  | .inf a, _ => (infBits f a, fl)
  | _, .inf b => (infBits f b, fl)
  | .fin a m e, .fin b n g =>
    let q := min e g
    let s := scaledInt a m e q + scaledInt b n g q
    if s = 0 then
      if m = 0 ∧ n = 0 ∧ a = b then (zeroBits f a, fl) else (zeroBits f (decide (v.rm = 2)), fl)
    else roundF f v (decide (s < 0)) s.natAbs 1 q

/-- A product as an exact value, with nv for 0 · ∞. -/
def mulExact (x y : FV) : FV × W32 :=
  let sg := x.sign != y.sign
  match x, y with
  | .nan _, _ => (.nan false, 0)
  | _, .nan _ => (.nan false, 0)
  | .inf _, y => if y.isZero then (.nan false, flNv) else (.inf sg, 0)
  | x, .inf _ => if x.isZero then (.nan false, flNv) else (.inf sg, 0)
  | .fin _ m e, .fin _ n g => (.fin sg (m * n) (e + g), 0)

/-- A product, rounded once. -/
def mulF (f : FFmt) (v : FEnv) (x y : FV) : FRes :=
  let (p, fl) := mulExact x y
  let (r, fl') := roundFV f v p
  (r, fl ||| fl' ||| x.snan ||| y.snan)

/-- A product and a sum with one rounding (R154). 0 · ∞ is NaN and nv whatever C holds. -/
def fmaF (f : FFmt) (v : FEnv) (np nc : Bool) (a b c : FV) : FRes :=
  let fl := a.snan ||| b.snan ||| c.snan
  let (p, fl') := mulExact a b
  if fl' ≠ 0 then (f.nan, fl ||| fl')
  else
    let (r, fl2) := addF f v (if np then p.neg else p) (if nc then c.neg else c)
    (r, fl ||| fl2)

/-- Order of two values that are no NaN: less, and equal (R155). Zeros are equal. -/
def cmpF (x y : FV) : Ordering :=
  match x, y with
  | .inf a, .inf b => if a = b then .eq else if a then .lt else .gt
  | .inf a, _ => if a then .lt else .gt
  | _, .inf b => if b then .gt else .lt
  | .fin a m e, .fin b n g =>
    let q := min e g
    compare (scaledInt a m e q) (scaledInt b n g q)
  | _, _ => .eq

/-- FMIN and FMAX (R153): the bits of the operand chosen, −0 below +0, canonical NaN for two NaNs. -/
def minmaxF (f : FFmt) (isMax : Bool) (x y : FV) (bx bz : Nat) : FRes :=
  let fl := x.snan ||| y.snan
  if x.isNan && y.isNan then (f.nan, fl)
  else if x.isNan then (bz, fl)
  else if y.isNan then (bx, fl)
  else
    let xLess := match cmpF x y with
      | .lt => true
      | .gt => false
      | .eq => x.sign
    (if xLess != isMax then bx else bz, fl)

/-- The bits of a value read with daz: a subnormal source is zero of its own sign (R148). -/
def dazBits (f : FFmt) (daz : Bool) (x : Nat) : Nat :=
  if daz && decide (x / 2 ^ f.fb % 2 ^ f.eb = 0) then (x / f.sgn % 2) * f.sgn else x

/-- FCMP (R155): the relation's value and the flags. -/
def fcmpF (cc : BitVec 2) (x y : FV) : Bool × W32 :=
  let un := x.isNan || y.isNan
  let fl := x.snan ||| y.snan
  let flAny := if un then flNv else 0
  if cc = 0 then (!un && decide (cmpF x y = .eq), fl)
  else if cc = 1 then (!un && decide (cmpF x y = .lt), flAny)
  else if cc = 2 then (!un && decide (cmpF x y ≠ .gt), flAny)
  else (un || decide (cmpF x y ≠ .eq), fl)

/-- FSCL (R153): A · 2^B. -/
def fsclF (v : FEnv) (x : FV) (b : Int) : FRes :=
  match x with
  | .fin n m e => if m = 0 then (zeroBits fp32 n, 0)
      else
        -- an exponent past every result of the format rounds as the nearest such exponent does
        let c := max (-1000) (min 1000 b)
        roundF fp32 v n m 1 (e + c)
  | y => roundFV fp32 v y

/-- The integer square root, one result bit per step from bit k − 1 down. -/
def isqrtAux (n : Nat) : Nat → Nat → Nat
  | 0, r => r
  | k + 1, r => if (r + 2 ^ k) * (r + 2 ^ k) ≤ n then isqrtAux n k (r + 2 ^ k) else isqrtAux n k r

/-- The floor of a square root. -/
def isqrt (n : Nat) : Nat := isqrtAux n (Nat.log2 n / 2 + 1) 0

/-- FRCP (R156). -/
def frcpF (v : FEnv) (x : FV) : FRes :=
  match x with
  | .nan s => (fp32.nan, if s then flNv else 0)
  | .inf n => (zeroBits fp32 n, 0)
  | .fin n m e => if m = 0 then (infBits fp32 n, flDz) else roundF fp32 v n 1 m (-e)

/-- FSQRT (R156): the root to 96 further bits with a sticky bit below them. -/
def fsqrtF (v : FEnv) (x : FV) : FRes :=
  match x with
  | .nan s => (fp32.nan, if s then flNv else 0)
  | .inf n => if n then (fp32.nan, flNv) else (fp32.inf, 0)
  | .fin n m e =>
    if m = 0 then (zeroBits fp32 n, 0)
    else if n then (fp32.nan, flNv)
    else
      let k : Nat := if e % 2 = 0 then 96 else 97
      let y := m * 2 ^ k
      let r := isqrt y
      roundF fp32 v false (2 * r + if r * r = y then 0 else 1) 1 ((e - k) / 2 - 1)

/-- FRSQ (R156). -/
def frsqF (v : FEnv) (x : FV) : FRes :=
  match x with
  | .nan s => (fp32.nan, if s then flNv else 0)
  | .inf n => if n then (fp32.nan, flNv) else (0, 0)
  | .fin n m e =>
    if m = 0 then (infBits fp32 n, flDz)
    else if n then (fp32.nan, flNv)
    else
      let k : Nat := if e % 2 = 0 then 160 else 161
      let r := isqrt (2 ^ k / m)
      let (rz, fl) := roundF fp32 v false (2 * r + if r * r * m = 2 ^ k then 0 else 1) 1 (-(e + k) / 2 - 1)
      (rz, fl &&& flNx)

/-- ln 2 at 2^-200, from the series Σ 1 / (n 2^n). -/
def ln2Sum : Nat → Nat
  | 0 => 0
  | n + 1 => 2 ^ 200 / ((n + 1) * 2 ^ (n + 1)) + ln2Sum n

/-- 2^200 · Σ_{k ≤ n} t^k / k! with t = x / 2^200, by Horner's rule from the top. -/
def expSum (x : Nat) : Nat → Nat → Nat
  | 0, acc => acc
  | k + 1, acc => expSum x k (2 ^ 200 + x * acc / ((k + 1) * 2 ^ 200))

/-- FEX2 (R156). An integer gives a power of two exactly; any other value is irrational, and is rounded
from its first 190 bits with a sticky bit (log entry 17). Under ftz a power of two below the normal range is flushed with R148's
flags. DEDUCED, log entry 114. -/
def fex2F (v : FEnv) (x : FV) : FRes :=
  match x with
  | .nan s => (fp32.nan, if s then flNv else 0)
  | .inf n => if n then (0, 0) else (fp32.inf, 0)
  | .fin n m e =>
    if m = 0 then (0x3F800000, 0)
    else
      let i : Int := if 0 ≤ e then scaledInt n (m * 2 ^ (min e 64).toNat) 0 0
        else (scaledInt n m 0 0) / (2 ^ (-e).toNat : Nat)
      let fr : Nat := if 0 ≤ e then 0 else ((scaledInt n m 0 0) % (2 ^ (-e).toNat : Nat)).toNat
      if 200 ≤ i then roundF fp32 v false 1 1 200
      else if i < -200 then roundF fp32 v false 1 1 (-200)
      else if fr = 0 then roundF fp32 v false 1 1 i
      else
        let f200 := fr * 2 ^ 200 / 2 ^ (-e).toNat
        let t := f200 * ln2Sum 210 / 2 ^ 200
        let y := expSum t 60 (2 ^ 200)
        roundF fp32 v false (2 * (y / 2 ^ 10) + 1) 1 (i - 191)

/-- Bits of log2 of x / 2^255 for x from 2^255 below 2^256, n of them, most significant first. -/
def log2Bits : Nat → Nat → Nat → Nat
  | 0, _, acc => acc
  | n + 1, x, acc =>
    let y := x * x / 2 ^ 255
    if 2 ^ 256 ≤ y then log2Bits n (y / 2) (2 * acc + 1) else log2Bits n y (2 * acc)

/-- FLG2 (R156). A power of two gives its exponent exactly; any other value is irrational, and is rounded
from 100 fraction bits with a sticky bit (log entry 17). -/
def flg2F (v : FEnv) (x : FV) : FRes :=
  match x with
  | .nan s => (fp32.nan, if s then flNv else 0)
  | .inf n => if n then (fp32.nan, flNv) else (fp32.inf, 0)
  | .fin n m e =>
    if m = 0 then (infBits fp32 true, flDz)
    else if n then (fp32.nan, flNv)
    else
      let l := Nat.log2 m
      let k : Int := l + e
      let r : FRes := if m = 2 ^ l then
          if k = 0 then (0, 0) else roundF fp32 v (decide (k < 0)) k.natAbs 1 0
        else
          let f := log2Bits 100 (m * 2 ^ (255 - l)) 0
          if 0 ≤ k then roundF fp32 v false (2 * (k.toNat * 2 ^ 100 + f) + 1) 1 (-101)
          else roundF fp32 v true (2 * (k.natAbs * 2 ^ 100 - f - 1) + 1) 1 (-101)
      (r.1, r.2 &&& flNx)

/-- A finite value rounded to an integer under a mode, and whether it was exact. -/
def toInt (rm : BitVec 2) (neg : Bool) (m : Nat) (e : Int) : Int × Bool :=
  let (k, ex) := roundAt rm neg m 1 e 0
  (if neg then -(k : Int) else k, ex)

/-- FRND (R159). -/
def frndF (rm : BitVec 2) (x : FV) (bits : Nat) : FRes :=
  match x with
  | .nan s => (fp32.nan, if s then flNv else 0)
  | .inf _ => (bits, 0)
  | .fin n m e =>
    if m = 0 then (zeroBits fp32 n, 0)
    else
      let (k, _) := toInt rm n m e
      if k = 0 then (zeroBits fp32 n, 0) else ((roundF fp32 FEnv.plain n k.natAbs 1 0).1, 0)

/-- The FCLS class bit (R160). -/
def fclsF (f : FFmt) (x : Nat) : Nat :=
  match decodeF f false x with
  | .nan s => if s then 256 else 512
  | .inf n => if n then 1 else 128
  | .fin n m e =>
    if m = 0 then (if n then 8 else 16)
    else if m < 2 ^ f.fb ∧ e = f.qmin then (if n then 4 else 32)
    else (if n then 2 else 64)

/-- A conversion to an integer within [lo, hi] (R158). -/
def cvtInt (v : FEnv) (x : FV) (lo hi : Int) : Int × W32 :=
  match x with
  | .nan _ => (0, flNv)
  | .inf n => (if n then lo else hi, flNv)
  | .fin n m e =>
    let (k, ex) := toInt v.rm n m e
    if k < lo then (lo, flNv) else if hi < k then (hi, flNv) else (k, if ex then 0 else flNx)

end Sys2Proof.Machine
end

