-- ==== Sys2Proof/Config.lean ====
section
/-! DEFINITION. What the manual leaves open, as constants without a body: no proof sees a value of them.
Numbers that an implementation fixes and the manual gives stand in the files that use them. -/

namespace Sys2Proof.Config

/-- The free value with a number (log entry 2): loads whose value no rule gives, samples, choices. -/
opaque freeNat : Nat → Nat

/-- A free word. -/
opaque freeWord : Nat → W64

/-- How many clk pass before step number n of the model acts (log entry 5): timing is left out. -/
opaque ticks : Nat → Nat

/-- Which of n enabled actors moves at choice s (log entry 1). -/
opaque pick : Nat → Nat → Nat

/-- The CSM slice that is the home of a word (R249, R250): the hash is not for programs to see. DESIGN CHOICE, log entry
32. -/
opaque homeSlice : Nat → Nat

/-- What the memories' own condition does at a step: an uncorrectable error in the granule with a number (kind 0), or in a tile
element of the block with a table key (R184, R246). DESIGN CHOICE, log entry 107. -/
opaque upset : Nat → Option (Nat × Nat)

/-- What health monitor n counts (R346): the management path sets it by a request the manual does not lay out. -/
opaque monitorSource : Nat → Nat

/-- Whether the fields of a configuration record are in range, and the lowest firmware version in it (R405). -/
opaque configOk : List Byte → Bool
opaque configVersion : List Byte → Nat

/-- Fields of a firmware image's header, whose places are the firmware's own (R406): 0 version, 1 adoption entry,
2 + n the load address of CPC core n, 10 the body's length. -/
opaque firmwareField : Nat → List Byte → Nat

/-- Whether the scheduler cores' firmware serves its queues by the loop of R370. DESIGN CHOICE, log entry 49. -/
opaque firmwareLoops : List Byte → Bool

/-- SHA-256 of bytes (R405, R407). DESIGN CHOICE, log entry 76. -/
opaque digest : List Byte → BitVec 256

/-- Whether the RSASSA-PSS signature over a configuration record or firmware image verifies against the
vendor key (R405, R406). -/
opaque signatureOk : List Byte → Bool

/-- Whether the named start-up step or exam test succeeds (R403, R410): the device's own condition. -/
opaque stepOk : Nat → Bool

/-- The responder's bytes for an SPDM request, given what it measures and holds (R407): RSASSA-3072,
ffdhe3072 and AES-256-GCM are not computed here. -/
opaque spdmBytes : Nat → List Byte → List Byte

/-- Whether the requester's FINISH verifies (R407). -/
opaque finishOk : List Byte → Bool

/-- Unwraps a tenant key that came inside the secure session with a number (R383). -/
opaque unwrapKey : Nat → List Byte → List Byte

/-- The identity key that the SRAM PUF's response gives with a record's helper data (R407). -/
opaque identityKey : List Byte → List Byte

/-- The boot ROM's bytes, which measurement 1 measures (R407). -/
opaque bootRom : List Byte

/-- Whether a lane's error counter crosses its limit at a frame error (R397): the device's own condition. -/
opaque laneOver : Nat → Bool

/-- How many clk what ends at a clk took, of a health monitor's source (R346): 0 an access to memory, 1 a command in its queue. -/
opaque waited : Nat → Nat → Nat

/-- The answer of the management path to a request that names a number (R383); its layout is the firmware's. DESIGN
CHOICE, log entry 75. -/
opaque mgmtBytes : Nat → List Byte → List Byte

end Sys2Proof.Config
end

