-- ==== Sys2Proof/Syntax.lean ====
section
/-! DEFINITION. The instruction set: one constructor per row of the operation table, in the table's
order (the rows that carry no operand stand last). Members of the Dinil instruction set carry their decoded fields (R45 to R65); device events,
queue commands (R359), control operations (R369), Xnov instructions (R371) and management requests
carry what names the event. -/

namespace Sys2Proof

/-- Every operation and event of the part, one constructor per table row. -/
inductive Instr where
  -- control (R63, R115 to R119, R177 to R180)
  | bt (sc : Scope) (p : PredSel) (disp : BitVec 14)
  | bf (sc : Scope) (p : PredSel) (disp : BitVec 14)
  | jmp (sc : Scope) (disp : BitVec 18)
  | loop (sc : Scope) (n : Operand) (disp : BitVec 13)
  | endl (sc : Scope) (disp : BitVec 13)
  | call (sc : Scope) (disp : BitVec 18)
  | callFrame (sc : Scope) (lvl : BitVec 2) (disp : BitVec 18)
  | ret (sc : Scope)
  | frdef (sc : Scope) (lvl : BitVec 2) (half : BitVec 1) (mask : BitVec 8) (modes : BitVec 24)
  | frfence (sc : Scope) (lvl : BitVec 2)
  | spawn (entry pay : Operand) (n1 : BitVec 2) (size1 : BitVec 5) (timeout : BitVec 11)
  | launch (d r p sg : BitVec 5)
  | waitf (mask : BitVec 12)
  | bar (k : BitVec 7) (cnt : BitVec 5)
  | barArr (k : BitVec 7) (cnt : BitVec 5)
  | waitm (a : Operand) (base : BitVec 5) (idx : Operand) (sz : Size) (scale : Bool) (x : MemExt)
      (cond : BitVec 3)
  | swi (a : Operand) (vec : BitVec 11)
  | trap (code : BitVec 8)
  | brk (code : BitVec 8)
  | wmark (sc : Scope) (tag : BitVec 16)
  | pushm (first : Operand) (cnt1 : BitVec 7)
  | popm (first : Operand) (cnt1 : BitVec 7)
  -- lane integer (R135 to R141)
  | iadd (d a b : Operand) | isub (d a b : Operand) | imul (d a b : Operand)
  | imulhs (d a b : Operand) | imulhu (d a b : Operand)
  | imad (d a b c : Operand) (mode : BitVec 2)
  | imin (d a b : Operand) | imax (d a b : Operand) | umin (d a b : Operand) | umax (d a b : Operand)
  | iabs (d a : Operand) | iadds (d a b : Operand)
  | and (d a b : Operand) | or (d a b : Operand) | xor (d a b : Operand)
  | shl (d a b : Operand) | shr (d a b : Operand) | sar (d a b : Operand)
  | popc (d a : Operand) | clz (d a : Operand)
  | bfx (d a b : Operand) (imm : Bool) (pos : BitVec 5) (sgn : Bool) (w1 : BitVec 5)
  | bfi (d a b : Operand) (imm : Bool) (pos : BitVec 5) (w1 : BitVec 5)
  | sel (d a b : Operand) (p : PredSel)
  | mov (d a : Operand)
  | movil (d : Operand) (imm : BitVec 16) | movih (d : Operand) (imm : BitVec 16)
  | icmp (pd : PredSel) (cc : BitVec 2) (a b : Operand)
  | ucmp (pd : PredSel) (cc : BitVec 2) (a b : Operand)
  -- lane float (R152 to R162)
  | fadd (d a b : Operand) | fsub (d a b : Operand) | fmul (d a b : Operand)
  | ffma (d a b c : Operand) (np nc : Bool)
  | fmin (d a b : Operand) | fmax (d a b : Operand)
  | fcmp (pd : PredSel) (cc : BitVec 2) (a b : Operand)
  | frcp (d a : Operand) | frsq (d a : Operand) | fsqrt (d a : Operand)
  | fex2 (d a : Operand) | flg2 (d a : Operand)
  | hadd2 (d a b : Operand) | hmul2 (d a b : Operand)
  | hfma2 (d a b c : Operand) (np nc : Bool)
  | cvt (d a : Operand) (src dst : BitVec 4)
  | cvtq (d a b : Operand) (fmt : BitVec 3) (mode : BitVec 2) (elem : BitVec 3)
  | frnd (d a : Operand) (m : BitVec 8)
  | fscl (d a b : Operand)
  | fcls (d a : Operand) (t : BitVec 8)
  -- lifts and lane crossing (R84 to R92)
  | vote (d k : Operand) (kind : BitVec 2) (p : PredSel)
  | pfxc (d a : Operand) (mode : BitVec 2) (p : PredSel)
  | shfl (d a b : Operand)
  | rdfirst (d a : Operand) | rdlane (d a b : Operand)
  | reduce (d a : Operand) (op : BitVec 8)
  | plog (op : BitVec 2) (pd : PredSel) (qs : BitVec 2) (pa pb : PredSel)
  | actm (d k : Operand) (sel : BitVec 8)
  -- scope scalars (R120 to R122)
  | sadd (d a b : Operand) | ssub (d a b : Operand) | smul (d a b : Operand)
  | sand (d a b : Operand) | sor (d a b : Operand) | sxor (d a b : Operand)
  | sshl (d a b : Operand) | sshr (d a b : Operand)
  | smov (d a : Operand) | smovi (d : Operand) (imm : BitVec 16)
  | smovx (d a : Operand) (k : BitVec 2) (imm : BitVec 24)
  | scmp (pd : PredSel) (cc : BitVec 2) (a b : Operand)
  -- memory (R239 to R245, R264 to R269, R213 to R219, R281)
  | ld (d : Operand) (base : BitVec 5) (idx : Operand) (sz : Size) (scale : Bool)
  | ldExt (d : Operand) (base : BitVec 5) (idx : Operand) (sz : Size) (scale : Bool) (x : MemExt)
      (sx : Bool)
  | st (d : Operand) (base : BitVec 5) (idx : Operand) (sz : Size) (scale : Bool)
  | stExt (d : Operand) (base : BitVec 5) (idx : Operand) (sz : Size) (scale : Bool) (x : MemExt)
  | lds (d : Operand) (base : BitVec 5) (idx : Operand) (sz : Size) (scale : Bool)
  | ldsExt (d : Operand) (base : BitVec 5) (idx : Operand) (sz : Size) (scale : Bool) (x : MemExt)
      (sx : Bool)
  | sts (d : Operand) (base : BitVec 5) (idx : Operand) (sz : Size) (scale : Bool)
  | stsExt (d : Operand) (base : BitVec 5) (idx : Operand) (sz : Size) (scale : Bool) (x : MemExt)
  | ldstr (d : Operand) (base : BitVec 5) (idx : Operand) (sz : Size) (scale : Bool) (x : MemExt)
      (n1 : BitVec 3)
  | ststr (d : Operand) (base : BitVec 5) (idx : Operand) (sz : Size) (scale : Bool) (x : MemExt)
      (n1 : BitVec 3)
  | cpst (d : Operand) (base : BitVec 5) (idx : Operand) (sz : Size) (scale : Bool) (x : MemExt)
      (p : PredSel)
  | pmov (dir : Bool) (p : PredSel) (base : BitVec 5)
  | pmovExt (dir : Bool) (p : PredSel) (base : BitVec 5) (x : MemExt)
  | pref (base : BitVec 5) (idx : Operand) (sz : Size) (scale : Bool)
  | prefExt (base : BitVec 5) (idx : Operand) (sz : Size) (scale : Bool) (x : MemExt)
  | atom (d : Operand) (base : BitVec 5) (idx : Operand) (sz : Size) (scale : Bool) (x : MemExt)
      (tag : Bool) (a : Operand) (op : BitVec 4)
  | cas (d : Operand) (base : BitVec 5) (idx : Operand) (sz : Size) (scale : Bool) (x : MemExt)
      (tag : Bool) (c n : Operand)
  | atoms (d : Operand) (base : BitVec 5) (idx : Operand) (sz : Size) (scale : Bool) (x : MemExt)
      (tag : Bool) (a : Operand) (op : BitVec 4)
  | fence (kind : BitVec 2) (ms : MScope)
  | bop (base : BitVec 5) (n a : Operand) (wide : Bool) (x : MemExt) (op : BitVec 4)
  | copy (dst src : BitVec 5) (len : Operand) (flag : BitVec 4) (x : MemExt)
  | copyt (dst src rec : BitVec 5) (flag : BitVec 4) (x : MemExt)
  | amsg (target entry pay : Operand) (x : MemExt) (size1 : BitVec 5) (timeout : BitVec 10)
      (n1 : BitVec 2)
  -- matrix (R195 to R201)
  | mma (t : BitVec 5) (fmt : BitVec 3) (a b : Operand)
  | mmaq (t : BitVec 5) (a b : Operand) (fa fb : BitVec 3) (ga gb : Operand)
  | mmasp (t : BitVec 5) (fmt : BitVec 3) (a b m : Operand)
  | aclr (t n1 : BitVec 5)
  | ard (t : BitVec 5) (cvt : BitVec 2) (cblk : BitVec 3) (n1 : BitVec 4) (v : Operand)
  | awr (t : BitVec 5) (cvt : BitVec 2) (cblk : BitVec 3) (n1 : BitVec 4) (v : Operand)
  | ascl (t : BitVec 5) (o : Operand)
  -- system (R288, R347)
  | csrr (d : Operand) (csr : BitVec 12) | csrw (a : Operand) (csr : BitVec 12)
  | clkr (d : Operand) (sel : BitVec 2)
  | mark (a : Operand) (tag : BitVec 16)
  | pcnt (d : Operand) (n : BitVec 8)
  -- device events
  | packetFetch (p : Party) | tokenReceive (p : Party) | settleWaitEnd (p : Party)
  | binTimerExpiry (core bin : Nat) | binFormOnSlotFree (core bin : Nat)
  | spawnRetry (p : Party) | teamRetire (p : Party)
  | blockPlacement (g core : Nat) | gridLaunchAccept (id : Nat)
  | forwardProgressSave (g blk : Nat) | savedBlockRestore (img core : Nat)
  | waitmWake (p : Party) | waitmPeriodicRead (p : Party)
  | messageDeposit (id : Nat) | tileOperation (core ctx : Nat)
  | copyStart (id : Nat) | copyComplete (id : Nat) | copyFail (id : Nat)
  | parkedAccessResume (p : Party) | loadDataReturn (p : Party)
  | storePerform (p : Party) | bankAluOperation (p : Party)
  | tlbMissComplete (engine g : Nat) (va : W64)
  | regenFillComplete (id : Nat) | migrationPage (id : Nat)
  | preemption (g : Nat) | csmPartCopyComplete (img : Nat)
  | pcSample (core : Nat) | coalescingTimerExpiry (fn vec : Nat)
  | queueWaitWake (q : Nat) | queueWaitPeriodic (q : Nat)
  | portalKick (q : Nat) (cmds : List W64)
  | queueStateResume (q : Nat) | queueStateStop (q : Nat) | queueStateReset (q : Nat)
  | portalWriteDiscarded (q : Nat)
  -- queue commands (R359); registers ka, kb, kc and immediates
  | ldi (a : BitVec 4) (imm : BitVec 44) | ldhi (a : BitVec 4) (imm : BitVec 20)
  | add (a b c : BitVec 4) | addi (a b : BitVec 4) (imm : BitVec 44)
  | cmdLd (a b : BitVec 4) (imm : BitVec 44) | cmdSt (a b : BitVec 4) (imm : BitVec 44)
  | br (a b c : BitVec 4) (imm : BitVec 44) | dloop (a : BitVec 4) (imm : BitVec 44)
  | calli (a b : BitVec 4)
  | wait (a b c : BitVec 4)
  | signalWrite (a b : BitVec 4) | signalAdd (a b : BitVec 4)
  | cmdCopy (a b c : BitVec 4) | cmdMigrate (a b c : BitVec 4) (tier : BitVec 2)
  | cmdLaunch (a b c d : BitVec 4) (prio : BitVec 2) | launchg (a b d : BitVec 4)
  | ctrlPreempt (a d : BitVec 4)
  | ctrlDisposeResume (a d : BitVec 4) | ctrlDisposeStep (a d : BitVec 4)
  | ctrlDisposeAbort (a d : BitVec 4)
  | ctrlFreeze (a d : BitVec 4) | ctrlThaw (a d : BitVec 4)
  | ctrlSetBreakpoint (a d : BitVec 4) | ctrlRestoreImage (a d : BitVec 4)
  | ctrlInvalidateTlb (a d : BitVec 4) | ctrlTrimLog (a d : BitVec 4)
  | ctrlRewind (a d : BitVec 4)
  | ctrlReplay (a d : BitVec 4) | ctrlReplayToWindow (a d : BitVec 4)
  | ctrlReplayPerturb (a d : BitVec 4)
  | ctrlDebugRead (a d : BitVec 4) | ctrlReleaseRetained (a d : BitVec 4)
  | ctrlHostMarker (a d : BitVec 4) | ctrlReverseStep (a d : BitVec 4)
  -- Xnov (R371): rs2, rs1, rd
  | kfetch (rs2 rs1 rd : BitVec 5) | kbfx (rs2 rs1 rd : BitVec 5) | kwait (rs2 rs1 rd : BitVec 5)
  | kdisp (rs2 rs1 rd : BitVec 5) | kjrnl (rs2 rs1 : BitVec 5) | kjrnlR (rs2 rs1 rd : BitVec 5)
  | khold (rs2 rs1 rd : BitVec 5) | krel (rs2 rs1 rd : BitVec 5) | kroll (rs2 rs1 rd : BitVec 5)
  -- device, link and management events
  | cpcImemUncorrectable (core : Nat)
  | railSample (current power temp volt : Nat)
  | linkFrameError (link : Nat)
  | deadlockTimeout (flow : Nat) | escapeReturn (flow : Nat)
  | peerAccess (dev part : Nat) (addr : W64) (op : PeerOp)
  | peerErrorResponse (p : Party) (addr : W64)
  | clusterLend (cl : Nat) | clusterRevoke (cl : Nat) | revocationReturn (cl : Nat)
  | configurationLoad (bytes : List Byte) | firmwareLoad (bytes : List Byte)
  | partitionCreate (p : Nat) (rec : BitVec 512) | partitionChange (p : Nat) (rec : BitVec 512)
  | partitionDestroy (p : Nat)
  | queueCreate (q fn part space m core vec : Nat) (ring : W64)
  | regenerationTableWrite (p e : Nat) (ent : BitVec 256)
  | messageEndpointBind (p e : Nat) (inbound : Bool) (dev part q : Nat) (csn : W64)
  | importTableWrite (p e dev part : Nat) (first last : W64) (key : BitVec 8)
  | deviceNumberAssign (n : BitVec 10)
  | deadlockTimeoutSet (us : Nat)
  | tenantKeyLoad (p : Nat) (key : BitVec 8) (wrapped : List Byte)
  | turnover (p : Nat) (images full : Bool) (fw : List Byte)
  | hostRevoke (cl : Nat)
  | queueExport (q : Nat) | queueImport (q part : Nat) (img : List Byte)
  | examRequest (p : Nat) (full : Bool)
  | healthMonitorReadClear (m : Nat) (clear : Bool)
  | eccInjection (core addr : Nat)
  | negotiateAlgorithms (req : List Byte)
  | getCertificate (off len : Nat)
  | challenge (nonce : List Byte) | getMeasurements (p idx : Nat) (nonce : List Byte)
  | keyExchange (p : Nat) (share : List Byte) | finish (mac : List Byte)
  | cpcCoreInstruction (w : BitVec 32)
  | hostWrite (tier : BitVec 2) (pa : Nat) (bytes : List Byte)
  | mailboxRead (fn vec : Nat)
  | msiXUnmask (fn vec : Nat)
  | linkRetrainComplete (link : Nat) (ok : Bool)
  -- the rows that carry no operand (R64, R63, R82, R219, R359, R403, R412, R407)
  | illegalInstruction | nop | exit | rcfence | cmdNop | reti | powerOnReset | healthLogRead
  | getVersion | getCapabilities | getDigests
deriving DecidableEq, Repr

end Sys2Proof
end

