-- ==== Sys2Proof/Decode.lean ====
section
/-! DEFINITION. Decoding: instruction words to members (R45, R55 to R65), queue commands (R358, R359),
CPC words (R371), and the encoder that writes a member's words back from the same layouts. -/

namespace Sys2Proof

/-- A field of a word: `len` bits from bit `lo` (R2). -/
abbrev fld {n : Nat} (w : BitVec n) (lo len : Nat) : BitVec len := w.extractLsb' lo len

/-- An operand byte field (R58, R60). -/
abbrev opnd {n : Nat} (w : BitVec n) (lo : Nat) : Operand := Operand.ofByte (fld w lo 8)

/-- One flag bit of a word. -/
abbrev flag {n : Nat} (w : BitVec n) (i : Nat) : Bool := w.getLsbD i

/-- One bit as a field. -/
def bit1 (b : Bool) : BitVec 1 := if b then 1 else 0

/-- The major opcode of a word (R45). -/
abbrev majorOf (w : W32) : BitVec 7 := fld w 24 7

/-- The chain bit of a word (R45). -/
abbrev chainBit (w : W32) : Bool := w.getLsbD 31

/-- How a major takes an EXT word (R56). -/
inductive ExtUse where
  | never | optional | always
deriving DecidableEq, Repr

/-- R56, R64: the majors marked "+" and the six memory majors whose EXT word is optional. -/
def extUse (m : BitVec 7) : ExtUse :=
  if m ∈ [0x58#7, 0x59#7, 0x5A#7, 0x5B#7, 0x5F#7, 0x60#7] then .optional
  else if m ∈ [0x07#7, 0x0A#7, 0x0E#7, 0x19#7, 0x28#7, 0x29#7, 0x2A#7, 0x33#7, 0x3E#7, 0x40#7, 0x56#7,
      0x5C#7, 0x5D#7, 0x5E#7, 0x61#7, 0x62#7, 0x63#7, 0x65#7, 0x66#7, 0x67#7, 0x69#7, 0x71#7, 0x72#7]
    then .always
  else .never

/-- Order, memory scope and policy of an EXT payload (R57); memory-scope codes 6 and 7 are refused. -/
def memExt (x : BitVec 24) : Option MemExt :=
  (MScope.ofCode (fld x 19 3)).map fun ms => ⟨Order.ofCode (fld x 22 2), ms, fld x 17 2⟩

/-- Control majors 0x00 to 0x13 without EXT word, and 0x64, 0x68, 0x78 to 0x7C. -/
def decodeControl (w : W32) : Option Instr :=
  let sc := Scope.ofCode (fld w 21 3)
  match majorOf w with
  | 0x00#7 => if fld w 0 24 = 0 then some .nop else none
  | 0x01#7 => sc.map fun s =>
      if flag w 14 then .bt s (PredSel.ofCode (fld w 15 6)) (fld w 0 14)
      else .bf s (PredSel.ofCode (fld w 15 6)) (fld w 0 14)
  | 0x02#7 => if fld w 18 3 = 0 then sc.map fun s => .jmp s (fld w 0 18) else none
  | 0x03#7 => sc.map fun s => .loop s (opnd w 13) (fld w 0 13)
  | 0x04#7 => if fld w 13 8 = 0 then sc.map fun s => .endl s (fld w 0 13) else none
  | 0x05#7 =>
      if flag w 20 then sc.map fun s => .callFrame s (fld w 18 2) (fld w 0 18)
      else if fld w 18 2 = 0 then sc.map fun s => .call s (fld w 0 18) else none
  | 0x06#7 => if fld w 0 21 = 0 then sc.map fun s => .ret s else none
  | 0x08#7 => if fld w 0 19 = 0 then sc.map fun s => .frfence s (fld w 19 2) else none
  | 0x09#7 => if fld w 0 24 = 0 then some .exit else none
  | 0x0B#7 => if fld w 0 4 = 0 then
      some (.launch (fld w 19 5) (fld w 14 5) (fld w 9 5) (fld w 4 5)) else none
  | 0x0C#7 => if fld w 12 12 = 0 then some (.waitf (fld w 0 12)) else none
  | 0x0D#7 => if fld w 0 11 = 0 then
      some (if flag w 23 then .barArr (fld w 16 7) (fld w 11 5) else .bar (fld w 16 7) (fld w 11 5))
      else none
  | 0x0F#7 => if fld w 11 5 = 0 then some (.swi (opnd w 16) (fld w 0 11)) else none
  | 0x10#7 => if fld w 0 16 = 0 then some (.trap (fld w 16 8)) else none
  | 0x11#7 => if fld w 0 16 = 0 then some (.brk (fld w 16 8)) else none
  | 0x12#7 => if fld w 16 5 = 0 then sc.map fun s => .wmark s (fld w 0 16) else none
  | 0x13#7 => if fld w 16 7 = 0 ∧ fld w 7 1 = 0 then
      some (if flag w 23 then .popm (opnd w 8) (fld w 0 7) else .pushm (opnd w 8) (fld w 0 7))
      else none
  | 0x64#7 => if fld w 0 19 = 0 then
      (MScope.ofCode (fld w 19 3)).map fun ms => .fence (fld w 22 2) ms else none
  | 0x68#7 => if fld w 0 24 = 0 then some .rcfence else none
  | 0x78#7 => if fld w 0 4 = 0 then some (.csrr (opnd w 16) (fld w 4 12)) else none
  | 0x79#7 => if fld w 0 4 = 0 then some (.csrw (opnd w 16) (fld w 4 12)) else none
  | 0x7A#7 => if fld w 2 14 = 0 then some (.clkr (opnd w 16) (fld w 0 2)) else none
  | 0x7B#7 => some (.mark (opnd w 16) (fld w 0 16))
  | 0x7C#7 => if fld w 8 8 = 0 then some (.pcnt (opnd w 16) (fld w 0 8)) else none
  | _ => none

/-- The F3, FI and FP majors of pipes V and S that take no EXT word (R135 to R160, R84 to R92, R120). -/
def decodeAlu (w : W32) : Option Instr :=
  let d := opnd w 16
  let a := opnd w 8
  let b := opnd w 0
  let b0 := fld w 0 8 = 0
  let pd := PredSel.ofCode (fld w 18 6)
  let cc := fld w 16 2
  match majorOf w with
  | 0x14#7 => some (.iadd d a b) | 0x15#7 => some (.isub d a b) | 0x16#7 => some (.imul d a b)
  | 0x17#7 => some (.imulhs d a b) | 0x18#7 => some (.imulhu d a b)
  | 0x1A#7 => some (.imin d a b) | 0x1B#7 => some (.imax d a b)
  | 0x1C#7 => some (.umin d a b) | 0x1D#7 => some (.umax d a b)
  | 0x1E#7 => if b0 then some (.iabs d a) else none
  | 0x1F#7 => some (.iadds d a b)
  | 0x20#7 => some (.and d a b) | 0x21#7 => some (.or d a b) | 0x22#7 => some (.xor d a b)
  | 0x23#7 => some (.shl d a b) | 0x24#7 => some (.shr d a b) | 0x25#7 => some (.sar d a b)
  | 0x26#7 => if b0 then some (.popc d a) else none
  | 0x27#7 => if b0 then some (.clz d a) else none
  | 0x2B#7 => if b0 then some (.mov d a) else none
  | 0x2C#7 => some (.movil d (fld w 0 16)) | 0x2D#7 => some (.movih d (fld w 0 16))
  | 0x2E#7 => some (.icmp pd cc a b) | 0x2F#7 => some (.ucmp pd cc a b)
  | 0x30#7 => some (.fadd d a b) | 0x31#7 => some (.fsub d a b) | 0x32#7 => some (.fmul d a b)
  | 0x34#7 => some (.fmin d a b) | 0x35#7 => some (.fmax d a b)
  | 0x36#7 => some (.fcmp pd cc a b)
  | 0x37#7 => if b0 then some (.frcp d a) else none
  | 0x38#7 => if b0 then some (.frsq d a) else none
  | 0x39#7 => if b0 then some (.fsqrt d a) else none
  | 0x3A#7 => if b0 then some (.fex2 d a) else none
  | 0x3B#7 => if b0 then some (.flg2 d a) else none
  | 0x3C#7 => some (.hadd2 d a b) | 0x3D#7 => some (.hmul2 d a b)
  | 0x3F#7 => some (.cvt d a (fld w 4 4) (fld w 0 4))
  | 0x41#7 => some (.frnd d a (fld w 0 8))
  | 0x42#7 => some (.fscl d a b)
  | 0x43#7 => some (.fcls d a (fld w 0 8))
  | 0x44#7 => some (.vote d a (fld w 6 2) (PredSel.ofCode (fld w 0 6)))
  | 0x45#7 => some (.pfxc d a (fld w 6 2) (PredSel.ofCode (fld w 0 6)))
  | 0x46#7 => some (.shfl d a b)
  | 0x47#7 => if b0 then some (.rdfirst d a) else none
  | 0x48#7 => some (.rdlane d a b)
  | 0x49#7 => some (.reduce d a (fld w 0 8))
  | 0x4A#7 => if fld w 6 2 = 0 then
      some (.plog (fld w 22 2) (PredSel.ofCode (fld w 16 6)) (fld w 14 2) (PredSel.ofCode (fld w 8 6))
        (PredSel.ofCode (fld w 0 6))) else none
  | 0x4B#7 => some (.actm d a (fld w 0 8))
  | 0x4C#7 => some (.sadd d a b) | 0x4D#7 => some (.ssub d a b) | 0x4E#7 => some (.smul d a b)
  | 0x4F#7 => some (.sand d a b) | 0x50#7 => some (.sor d a b) | 0x51#7 => some (.sxor d a b)
  | 0x52#7 => some (.sshl d a b) | 0x53#7 => some (.sshr d a b)
  | 0x54#7 => if b0 then some (.smov d a) else none
  | 0x55#7 => some (.smovi d (fld w 0 16))
  | 0x57#7 => some (.scmp pd cc a b)
  | _ => none

/-- Memory majors in their form without EXT word (R239 to R245). -/
def decodeMem (w : W32) : Option Instr :=
  let d := opnd w 16
  let base := fld w 11 5
  let idx := opnd w 3
  let sz := Size.ofCode (fld w 1 2)
  let sc := flag w 0
  match majorOf w with
  | 0x58#7 => some (.ld d base idx sz sc)
  | 0x59#7 => some (.st d base idx sz sc)
  | 0x5A#7 => some (.lds d base idx sz sc)
  | 0x5B#7 => some (.sts d base idx sz sc)
  | 0x5F#7 => if fld w 22 1 = 0 ∧ fld w 0 11 = 0 then
      some (.pmov (flag w 23) (PredSel.ofCode (fld w 16 6)) base) else none
  | 0x60#7 => if fld w 16 8 = 0 then some (.pref base idx sz sc) else none
  | _ => none

/-- Matrix majors without EXT word (R195 to R201). -/
def decodeMatrix (w : W32) : Option Instr :=
  let t := fld w 19 5
  let a := opnd w 8
  let b := opnd w 0
  match majorOf w with
  | 0x70#7 => some (.mma t (fld w 16 3) a b)
  | 0x73#7 => if fld w 0 14 = 0 then some (.aclr t (fld w 14 5)) else none
  | 0x74#7 => if fld w 8 2 = 0 then some (.ard t (fld w 17 2) (fld w 14 3) (fld w 10 4) b) else none
  | 0x75#7 => if fld w 8 2 = 0 then some (.awr t (fld w 17 2) (fld w 14 3) (fld w 10 4) b) else none
  | 0x76#7 => if fld w 16 3 = 0 ∧ fld w 0 8 = 0 then some (.ascl t a) else none
  | _ => none

/-- Members with an EXT word that access memory (R57, R239 to R245, R264 to R268, R213, R218, R281). -/
def decodeMemExt (w : W32) (x : BitVec 24) : Option Instr :=
  let d := opnd w 16
  let base := fld w 11 5
  let idx := opnd w 3
  let sz := Size.ofCode (fld w 1 2)
  let sc := flag w 0
  (memExt x).bind fun m =>
  match majorOf w with
  | 0x0E#7 => if fld x 3 14 = 0 then some (.waitm d base idx sz sc m (fld x 0 3)) else none
  | 0x58#7 => if fld x 1 16 = 0 then some (.ldExt d base idx sz sc m (flag x 0)) else none
  | 0x59#7 => if fld x 0 17 = 0 then some (.stExt d base idx sz sc m) else none
  | 0x5A#7 => if fld x 1 16 = 0 then some (.ldsExt d base idx sz sc m (flag x 0)) else none
  | 0x5B#7 => if fld x 0 17 = 0 then some (.stsExt d base idx sz sc m) else none
  | 0x5C#7 => if fld x 3 14 = 0 then some (.ldstr d base idx sz sc m (fld x 0 3)) else none
  | 0x5D#7 => if fld x 3 14 = 0 then some (.ststr d base idx sz sc m (fld x 0 3)) else none
  | 0x5E#7 => if fld x 6 11 = 0 then
      some (.cpst d base idx sz sc m (PredSel.ofCode (fld x 0 6))) else none
  | 0x5F#7 => if fld w 22 1 = 0 ∧ fld w 0 11 = 0 ∧ fld x 0 17 = 0 then
      some (.pmovExt (flag w 23) (PredSel.ofCode (fld w 16 6)) base m) else none
  | 0x60#7 => if fld w 16 8 = 0 ∧ fld x 0 17 = 0 then some (.prefExt base idx sz sc m) else none
  | 0x61#7 => if fld x 4 4 = 0 then
      some (.atom d base idx sz sc m (flag x 16) (opnd x 8) (fld x 0 4)) else none
  | 0x62#7 => some (.cas d base idx sz sc m (flag x 16) (opnd x 8) (opnd x 0))
  | 0x63#7 => if fld x 4 4 = 0 then
      some (.atoms d base idx sz sc m (flag x 16) (opnd x 8) (fld x 0 4)) else none
  | 0x65#7 => if fld w 1 2 = 0 ∧ fld x 4 13 = 0 then
      some (.bop (fld w 19 5) (opnd w 11) (opnd w 3) (flag w 0) m (fld x 0 4)) else none
  | 0x66#7 => if fld w 0 2 = 0 ∧ fld x 0 17 = 0 then
      some (.copy (fld w 19 5) (fld w 14 5) (opnd w 6) (fld w 2 4) m) else none
  | 0x67#7 => if fld w 0 5 = 0 ∧ fld x 0 17 = 0 then
      some (.copyt (fld w 19 5) (fld w 14 5) (fld w 9 5) (fld w 5 4) m) else none
  | 0x69#7 => some (.amsg d (opnd w 8) (opnd w 0) m (fld x 12 5) (fld x 2 10) (fld x 0 2))
  | _ => none

/-- Members with an EXT word that the member's own entry lays out. -/
def decodeOwnExt (w : W32) (x : BitVec 24) : Option Instr :=
  let d := opnd w 16
  let a := opnd w 8
  let b := opnd w 0
  match majorOf w with
  | 0x07#7 => if fld w 0 10 = 0 then
      (Scope.ofCode (fld w 21 3)).map fun s => .frdef s (fld w 19 2) (fld w 18 1) (fld w 10 8) x
      else none
  | 0x0A#7 => if fld w 0 6 = 0 ∧ fld x 0 8 = 0 then
      some (.spawn d a (fld w 6 2) (fld x 19 5) (fld x 8 11)) else none
  | 0x19#7 => if fld x 0 14 = 0 then some (.imad d a b (opnd x 16) (fld x 14 2)) else none
  | 0x28#7 => if fld x 12 12 = 0 then
      some (.bfx d a b (flag x 11) (fld x 6 5) (flag x 5) (fld x 0 5)) else none
  | 0x29#7 => if fld x 12 12 = 0 ∧ fld x 5 1 = 0 then
      some (.bfi d a b (flag x 11) (fld x 6 5) (fld x 0 5)) else none
  | 0x2A#7 => if fld x 6 18 = 0 then some (.sel d a b (PredSel.ofCode (fld x 0 6))) else none
  | 0x33#7 => if fld x 0 14 = 0 then
      some (.ffma d a b (opnd x 16) (flag x 15) (flag x 14)) else none
  | 0x3E#7 => if fld x 0 14 = 0 then
      some (.hfma2 d a b (opnd x 16) (flag x 15) (flag x 14)) else none
  | 0x40#7 => if fld x 0 16 = 0 then
      some (.cvtq d a b (fld x 21 3) (fld x 19 2) (fld x 16 3)) else none
  | 0x56#7 => if fld w 2 6 = 0 then some (.smovx d a (fld w 0 2) x) else none
  | 0x71#7 => if fld w 16 3 = 0 ∧ fld x 16 2 = 0 then
      some (.mmaq (fld w 19 5) a b (fld x 21 3) (fld x 18 3) (opnd x 8) (opnd x 0)) else none
  | 0x72#7 => if fld x 0 16 = 0 then
      some (.mmasp (fld w 19 5) (fld w 16 3) a b (opnd x 16)) else none
  | _ => none

/-- The member that a word and its EXT payload (when one follows) make, or none where R55 to R58 and
R64 raise 0x01 on the layout alone. What an entry forbids beyond the layout is `Instr.wf`. -/
def decodeMember (w : W32) : Option (BitVec 24) → Option Instr
  | none => (decodeControl w).or ((decodeAlu w).or ((decodeMem w).or (decodeMatrix w)))
  | some x => (decodeOwnExt w x).or (decodeMemExt w x)

/-- A member's place in its packet: first slot, words it takes, instruction, and whether a chain bit of
its words breaks R51 (found at step 3 of R66). -/
structure Member where
  slot : Nat
  len : Nat
  ins : Instr
  badChain : Bool := false
deriving DecidableEq, Repr

/-- What a chain of a packet decodes to (R51, R55, R56): its members, or the slot of the word that
raises 0x01 (step 2 of R66) with that word. -/
inductive ChainDec where
  | ok (ms : List Member)
  | illegal (slot : Nat) (w : W32)
deriving DecidableEq, Repr

/-- The member at the front of the words from slot `s` on and whether the chain goes on after it; or the
slot and word that raise 0x01. -/
inductive HeadDec where
  | illegal (slot : Nat) (w : W32)
  | mem (m : Member) (more : Bool)
deriving DecidableEq, Repr

/-- One member of one word. C = 1 in slot 2 breaks R51. -/
def headSingle (s : Nat) (w : W32) : HeadDec :=
  match decodeMember w none with
  | none => .illegal s w
  | some i => .mem ⟨s, 1, i, chainBit w && decide (s = 2)⟩ (chainBit w && decide (s < 2))

/-- One member with its EXT word `x`. C = 1 before the own EXT word, or in slot 2, breaks R51. -/
def headExt (s : Nat) (w x : W32) : HeadDec :=
  match decodeMember w (some (fld x 0 24)) with
  | none => .illegal s w
  | some i => .mem ⟨s, 2, i, chainBit w || (chainBit x && decide (s = 1))⟩ (chainBit x && decide (s = 0))

/-- The member at slot `s` whose first word is `w`; `rest` holds the later words of the packet. An EXT
word after a major that takes none raises 0x01 as a member of its own (R55, R56). -/
def decodeHead (s : Nat) (w : W32) (rest : List W32) : HeadDec :=
  match extUse (majorOf w), rest with
  | .always, [] => .illegal s w
  | .always, x :: _ => if majorOf x = 0x7F#7 then headExt s w x else .illegal s w
  | .optional, x :: _ => if majorOf x = 0x7F#7 then headExt s w x else headSingle s w
  | _, _ => headSingle s w

/-- The words of the packet from slot `s` on: the chain starting there (fuel 3 covers a packet). -/
def decodeChain : Nat → Nat → List W32 → ChainDec
  | 0, _, _ => .ok []
  | _, _, [] => .ok []
  | f + 1, s, w :: rest =>
    match decodeHead s w rest with
    | .illegal k x => .illegal k x
    | .mem m more =>
      if more then
        match decodeChain f (s + m.len) (rest.drop (m.len - 1)) with
        | .ok ms => .ok (m :: ms)
        | e => e
      else .ok [m]

/-- The chain that starts at slot `s` of a packet of three words (R46, R51). -/
def decodePacket (s : Nat) (ws : List W32) : ChainDec := decodeChain 3 s (ws.drop s)

/-- The Xnov instructions (R371): custom-0, R-type. -/
def decodeXnov (w : W32) : Option Instr :=
  if fld w 0 7 = 0x0B#7 then
    let t := fld w 20 5
    let s := fld w 15 5
    let d := fld w 7 5
    match fld w 12 3, fld w 25 7 with
    | 0#3, 0#7 => some (.kfetch t s d)
    | 1#3, 0#7 => some (.kbfx t s d)
    | 2#3, 0#7 => some (.kwait t s d)
    | 3#3, 0#7 => some (.kdisp t s d)
    | 4#3, 0#7 => if d = 0 then some (.kjrnl t s) else none
    | 4#3, 1#7 => some (.kjrnlR t s d)
    | 5#3, 0#7 => some (.khold t s d)
    | 5#3, 1#7 => some (.krel t s d)
    | 6#3, 0#7 => some (.kroll t s d)
    | _, _ => none
  else none

/-- What a CPC core executes at a word: an Xnov instruction or an ordinary RV64IMAC one (R13). A word
of the custom-0 opcode that R371 does not list is left to the core, which raises illegal instruction. -/
def decodeCpc (w : W32) : Instr := (decodeXnov w).getD (.cpcCoreInstruction w)

/-- A queue command (R358, R359). `mode` is the argument of the control block that tells the rows of ctrl 1 (arg1) and
ctrl 9 (arg0) apart (R369). None is QILL (R362). DEDUCED, log entry 71. -/
def decodeCmd (w : W64) (mode : W64) : Option Instr :=
  let op := fld w 56 8
  let a := fld w 52 4
  let b := fld w 48 4
  let c := fld w 44 4
  let imm := fld w 0 44
  let a0 := a = 0
  let b0 := b = 0
  let c0 := c = 0
  let i0 := imm = 0
  match op with
  | 0x00#8 => if a0 ∧ b0 ∧ c0 ∧ i0 then some .cmdNop else none
  | 0x01#8 => if b0 ∧ c0 then some (.ldi a imm) else none
  | 0x02#8 => if b0 ∧ c0 ∧ fld w 20 24 = 0 then some (.ldhi a (fld w 0 20)) else none
  | 0x03#8 => if i0 then some (.add a b c) else none
  | 0x04#8 => if c0 then some (.addi a b imm) else none
  | 0x05#8 => if c0 then some (.cmdLd a b imm) else none
  | 0x06#8 => if c0 then some (.cmdSt a b imm) else none
  | 0x08#8 => if c.toNat ≤ 6 then some (.br a b c imm) else none
  | 0x09#8 => if b0 ∧ c0 then some (.dloop a imm) else none
  | 0x0A#8 => if c0 ∧ i0 then some (.calli a b) else none
  | 0x0B#8 => if a0 ∧ b0 ∧ c0 ∧ i0 then some .reti else none
  | 0x10#8 => if i0 ∧ c.toNat ≤ 6 then some (.wait a b c) else none
  | 0x11#8 => if c0 ∧ fld w 1 43 = 0 then
      some (if flag w 0 then .signalAdd a b else .signalWrite a b) else none
  | 0x12#8 =>
      if fld w 0 2 = 0 ∧ i0 then some (.cmdCopy a b c)
      else if fld w 0 2 = 1 ∧ fld w 4 40 = 0 then some (.cmdMigrate a b c (fld w 2 2)) else none
  | 0x13#8 => if fld w 6 38 = 0 then some (.cmdLaunch a b c (fld w 0 4) (fld w 4 2)) else none
  | 0x14#8 => if c0 ∧ fld w 4 40 = 0 then some (.launchg a b (fld w 0 4)) else none
  | 0x18#8 =>
      let d := fld w 8 4
      if b0 ∧ c0 ∧ fld w 12 32 = 0 then
        match fld w 0 8 with
        | 0#8 => some (.ctrlPreempt a d)
        | 1#8 => if mode = 0 then some (.ctrlDisposeResume a d)
                 else if mode = 1 then some (.ctrlDisposeStep a d)
                 else if mode = 2 then some (.ctrlDisposeAbort a d) else none
        | 2#8 => some (.ctrlFreeze a d) | 3#8 => some (.ctrlThaw a d)
        | 4#8 => some (.ctrlSetBreakpoint a d) | 5#8 => some (.ctrlRestoreImage a d)
        | 6#8 => some (.ctrlInvalidateTlb a d) | 7#8 => some (.ctrlTrimLog a d)
        | 8#8 => some (.ctrlRewind a d)
        | 9#8 => if mode = 0 then some (.ctrlReplay a d)
                 else if mode = 1 then some (.ctrlReplayToWindow a d)
                 else if mode = 2 then some (.ctrlReplayPerturb a d) else none
        | 10#8 => some (.ctrlDebugRead a d) | 11#8 => some (.ctrlReleaseRetained a d)
        | 12#8 => some (.ctrlHostMarker a d) | 13#8 => some (.ctrlReverseStep a d)
        | _ => none
      else none
  | _ => none

/-! ### The encoder -/

/-- A word with chain bit 0 (R45). -/
abbrev wordOf (m : BitVec 7) (p : BitVec 24) : W32 := (0#1 ++ m ++ p : BitVec 32)
/-- An EXT word (R55). -/
abbrev extWord (p : BitVec 24) : W32 := wordOf 0x7F p
/-- Format F3 (R58). -/
abbrev encF3 (m : BitVec 7) (d a b : Operand) : W32 :=
  wordOf m (d.toByte ++ a.toByte ++ b.toByte : BitVec 24)
/-- F3 with a selector byte or zero in field b. -/
abbrev encF3s (m : BitVec 7) (d a : Operand) (b : BitVec 8) : W32 :=
  wordOf m (d.toByte ++ a.toByte ++ b : BitVec 24)
/-- Format FP (R58). -/
abbrev encFP (m : BitVec 7) (p : PredSel) (cc : BitVec 2) (a b : Operand) : W32 :=
  wordOf m (p.code ++ cc ++ a.toByte ++ b.toByte : BitVec 24)
/-- Format FM (R58). -/
abbrev encFM (m : BitVec 7) (d : BitVec 8) (base : BitVec 5) (idx : Operand) (sz : Size) (sc : Bool) :
    W32 := wordOf m (d ++ base ++ idx.toByte ++ sz.code ++ bit1 sc : BitVec 24)
/-- The EXT payload of a memory member with its own bits (R57). -/
abbrev encX (x : MemExt) (own : BitVec 17) : W32 :=
  extWord (x.order.code ++ x.ms.code ++ x.policy ++ own : BitVec 24)

/-- The words of a member or of a CPC instruction; device events and queue commands have none. -/
def encode : Instr → List W32
  | .nop => [wordOf 0x00 0]
  | .bt s p d => [wordOf 0x01 (s.code ++ p.code ++ 1#1 ++ d : BitVec 24)]
  | .bf s p d => [wordOf 0x01 (s.code ++ p.code ++ 0#1 ++ d : BitVec 24)]
  | .jmp s d => [wordOf 0x02 (s.code ++ 0#3 ++ d : BitVec 24)]
  | .loop s n d => [wordOf 0x03 (s.code ++ n.toByte ++ d : BitVec 24)]
  | .endl s d => [wordOf 0x04 (s.code ++ 0#8 ++ d : BitVec 24)]
  | .call s d => [wordOf 0x05 (s.code ++ 0#3 ++ d : BitVec 24)]
  | .callFrame s l d => [wordOf 0x05 (s.code ++ 1#1 ++ l ++ d : BitVec 24)]
  | .ret s => [wordOf 0x06 (s.code ++ 0#21 : BitVec 24)]
  | .frdef s l h m x => [wordOf 0x07 (s.code ++ l ++ h ++ m ++ 0#10 : BitVec 24), extWord x]
  | .frfence s l => [wordOf 0x08 (s.code ++ l ++ 0#19 : BitVec 24)]
  | .exit => [wordOf 0x09 0]
  | .spawn e p n z t => [wordOf 0x0A (e.toByte ++ p.toByte ++ n ++ 0#6 : BitVec 24),
      extWord (z ++ t ++ 0#8 : BitVec 24)]
  | .launch d r p g => [wordOf 0x0B (d ++ r ++ p ++ g ++ 0#4 : BitVec 24)]
  | .waitf m => [wordOf 0x0C (0#12 ++ m : BitVec 24)]
  | .bar k n => [wordOf 0x0D (0#1 ++ k ++ n ++ 0#11 : BitVec 24)]
  | .barArr k n => [wordOf 0x0D (1#1 ++ k ++ n ++ 0#11 : BitVec 24)]
  | .waitm a b i z c x cc => [encFM 0x0E a.toByte b i z c, encX x (0#14 ++ cc : BitVec 17)]
  | .swi a v => [wordOf 0x0F (a.toByte ++ 0#5 ++ v : BitVec 24)]
  | .trap c => [wordOf 0x10 (c ++ 0#16 : BitVec 24)]
  | .brk c => [wordOf 0x11 (c ++ 0#16 : BitVec 24)]
  | .wmark s t => [wordOf 0x12 (s.code ++ 0#5 ++ t : BitVec 24)]
  | .pushm f n => [wordOf 0x13 (0#8 ++ f.toByte ++ 0#1 ++ n : BitVec 24)]
  | .popm f n => [wordOf 0x13 (1#1 ++ 0#7 ++ f.toByte ++ 0#1 ++ n : BitVec 24)]
  | .iadd d a b => [encF3 0x14 d a b] | .isub d a b => [encF3 0x15 d a b]
  | .imul d a b => [encF3 0x16 d a b] | .imulhs d a b => [encF3 0x17 d a b]
  | .imulhu d a b => [encF3 0x18 d a b]
  | .imad d a b c m => [encF3 0x19 d a b, extWord (c.toByte ++ m ++ 0#14 : BitVec 24)]
  | .imin d a b => [encF3 0x1A d a b] | .imax d a b => [encF3 0x1B d a b]
  | .umin d a b => [encF3 0x1C d a b] | .umax d a b => [encF3 0x1D d a b]
  | .iabs d a => [encF3s 0x1E d a 0] | .iadds d a b => [encF3 0x1F d a b]
  | .and d a b => [encF3 0x20 d a b] | .or d a b => [encF3 0x21 d a b]
  | .xor d a b => [encF3 0x22 d a b] | .shl d a b => [encF3 0x23 d a b]
  | .shr d a b => [encF3 0x24 d a b] | .sar d a b => [encF3 0x25 d a b]
  | .popc d a => [encF3s 0x26 d a 0] | .clz d a => [encF3s 0x27 d a 0]
  | .bfx d a b i p s w =>
      [encF3 0x28 d a b, extWord (0#12 ++ bit1 i ++ p ++ bit1 s ++ w : BitVec 24)]
  | .bfi d a b i p w => [encF3 0x29 d a b, extWord (0#12 ++ bit1 i ++ p ++ 0#1 ++ w : BitVec 24)]
  | .sel d a b p => [encF3 0x2A d a b, extWord (0#18 ++ p.code : BitVec 24)]
  | .mov d a => [encF3s 0x2B d a 0]
  | .movil d i => [wordOf 0x2C (d.toByte ++ i : BitVec 24)]
  | .movih d i => [wordOf 0x2D (d.toByte ++ i : BitVec 24)]
  | .icmp p c a b => [encFP 0x2E p c a b] | .ucmp p c a b => [encFP 0x2F p c a b]
  | .fadd d a b => [encF3 0x30 d a b] | .fsub d a b => [encF3 0x31 d a b]
  | .fmul d a b => [encF3 0x32 d a b]
  | .ffma d a b c np nc =>
      [encF3 0x33 d a b, extWord (c.toByte ++ bit1 np ++ bit1 nc ++ 0#14 : BitVec 24)]
  | .fmin d a b => [encF3 0x34 d a b] | .fmax d a b => [encF3 0x35 d a b]
  | .fcmp p c a b => [encFP 0x36 p c a b]
  | .frcp d a => [encF3s 0x37 d a 0] | .frsq d a => [encF3s 0x38 d a 0]
  | .fsqrt d a => [encF3s 0x39 d a 0] | .fex2 d a => [encF3s 0x3A d a 0]
  | .flg2 d a => [encF3s 0x3B d a 0]
  | .hadd2 d a b => [encF3 0x3C d a b] | .hmul2 d a b => [encF3 0x3D d a b]
  | .hfma2 d a b c np nc =>
      [encF3 0x3E d a b, extWord (c.toByte ++ bit1 np ++ bit1 nc ++ 0#14 : BitVec 24)]
  | .cvt d a s t => [encF3s 0x3F d a (s ++ t : BitVec 8)]
  | .cvtq d a b f m e => [encF3 0x40 d a b, extWord (f ++ m ++ e ++ 0#16 : BitVec 24)]
  | .frnd d a m => [encF3s 0x41 d a m]
  | .fscl d a b => [encF3 0x42 d a b]
  | .fcls d a t => [encF3s 0x43 d a t]
  | .vote d k n p => [encF3s 0x44 d k (n ++ p.code : BitVec 8)]
  | .pfxc d a m p => [encF3s 0x45 d a (m ++ p.code : BitVec 8)]
  | .shfl d a b => [encF3 0x46 d a b]
  | .rdfirst d a => [encF3s 0x47 d a 0] | .rdlane d a b => [encF3 0x48 d a b]
  | .reduce d a o => [encF3s 0x49 d a o]
  | .plog o p q a b =>
      [wordOf 0x4A (o ++ p.code ++ q ++ a.code ++ 0#2 ++ b.code : BitVec 24)]
  | .actm d k s => [encF3s 0x4B d k s]
  | .sadd d a b => [encF3 0x4C d a b] | .ssub d a b => [encF3 0x4D d a b]
  | .smul d a b => [encF3 0x4E d a b] | .sand d a b => [encF3 0x4F d a b]
  | .sor d a b => [encF3 0x50 d a b] | .sxor d a b => [encF3 0x51 d a b]
  | .sshl d a b => [encF3 0x52 d a b] | .sshr d a b => [encF3 0x53 d a b]
  | .smov d a => [encF3s 0x54 d a 0]
  | .smovi d i => [wordOf 0x55 (d.toByte ++ i : BitVec 24)]
  | .smovx d a k i => [encF3s 0x56 d a (0#6 ++ k : BitVec 8), extWord i]
  | .scmp p c a b => [encFP 0x57 p c a b]
  | .ld d b i z c => [encFM 0x58 d.toByte b i z c]
  | .ldExt d b i z c x s => [encFM 0x58 d.toByte b i z c, encX x (0#16 ++ bit1 s : BitVec 17)]
  | .st d b i z c => [encFM 0x59 d.toByte b i z c]
  | .stExt d b i z c x => [encFM 0x59 d.toByte b i z c, encX x 0]
  | .lds d b i z c => [encFM 0x5A d.toByte b i z c]
  | .ldsExt d b i z c x s => [encFM 0x5A d.toByte b i z c, encX x (0#16 ++ bit1 s : BitVec 17)]
  | .sts d b i z c => [encFM 0x5B d.toByte b i z c]
  | .stsExt d b i z c x => [encFM 0x5B d.toByte b i z c, encX x 0]
  | .ldstr d b i z c x n => [encFM 0x5C d.toByte b i z c, encX x (0#14 ++ n : BitVec 17)]
  | .ststr d b i z c x n => [encFM 0x5D d.toByte b i z c, encX x (0#14 ++ n : BitVec 17)]
  | .cpst d b i z c x p => [encFM 0x5E d.toByte b i z c, encX x (0#11 ++ p.code : BitVec 17)]
  | .pmov r p b => [wordOf 0x5F (bit1 r ++ 0#1 ++ p.code ++ b ++ 0#11 : BitVec 24)]
  | .pmovExt r p b x => [wordOf 0x5F (bit1 r ++ 0#1 ++ p.code ++ b ++ 0#11 : BitVec 24), encX x 0]
  | .pref b i z c => [encFM 0x60 0 b i z c]
  | .prefExt b i z c x => [encFM 0x60 0 b i z c, encX x 0]
  | .atom d b i z c x t a o =>
      [encFM 0x61 d.toByte b i z c, encX x (bit1 t ++ a.toByte ++ 0#4 ++ o : BitVec 17)]
  | .cas d b i z c x t m n =>
      [encFM 0x62 d.toByte b i z c, encX x (bit1 t ++ m.toByte ++ n.toByte : BitVec 17)]
  | .atoms d b i z c x t a o =>
      [encFM 0x63 d.toByte b i z c, encX x (bit1 t ++ a.toByte ++ 0#4 ++ o : BitVec 17)]
  | .fence k m => [wordOf 0x64 (k ++ m.code ++ 0#19 : BitVec 24)]
  | .bop b n a z x o =>
      [wordOf 0x65 (b ++ n.toByte ++ a.toByte ++ 0#2 ++ bit1 z : BitVec 24),
        encX x (0#13 ++ o : BitVec 17)]
  | .copy d s l f x => [wordOf 0x66 (d ++ s ++ l.toByte ++ f ++ 0#2 : BitVec 24), encX x 0]
  | .copyt d s r f x => [wordOf 0x67 (d ++ s ++ r ++ f ++ 0#5 : BitVec 24), encX x 0]
  | .rcfence => [wordOf 0x68 0]
  | .amsg g e p x z t n => [encF3 0x69 g e p, encX x (z ++ t ++ n : BitVec 17)]
  | .mma t f a b => [wordOf 0x70 (t ++ f ++ a.toByte ++ b.toByte : BitVec 24)]
  | .mmaq t a b fa fb ga gb => [wordOf 0x71 (t ++ 0#3 ++ a.toByte ++ b.toByte : BitVec 24),
      extWord (fa ++ fb ++ 0#2 ++ ga.toByte ++ gb.toByte : BitVec 24)]
  | .mmasp t f a b m => [wordOf 0x72 (t ++ f ++ a.toByte ++ b.toByte : BitVec 24),
      extWord (m.toByte ++ 0#16 : BitVec 24)]
  | .aclr t n => [wordOf 0x73 (t ++ n ++ 0#14 : BitVec 24)]
  | .ard t c k n v => [wordOf 0x74 (t ++ c ++ k ++ n ++ 0#2 ++ v.toByte : BitVec 24)]
  | .awr t c k n v => [wordOf 0x75 (t ++ c ++ k ++ n ++ 0#2 ++ v.toByte : BitVec 24)]
  | .ascl t s => [wordOf 0x76 (t ++ 0#3 ++ s.toByte ++ 0#8 : BitVec 24)]
  | .csrr d r => [wordOf 0x78 (d.toByte ++ r ++ 0#4 : BitVec 24)]
  | .csrw a r => [wordOf 0x79 (a.toByte ++ r ++ 0#4 : BitVec 24)]
  | .clkr d s => [wordOf 0x7A (d.toByte ++ 0#14 ++ s : BitVec 24)]
  | .mark a t => [wordOf 0x7B (a.toByte ++ t : BitVec 24)]
  | .pcnt d n => [wordOf 0x7C (d.toByte ++ 0#8 ++ n : BitVec 24)]
  | .kfetch t s d => [xnov 0 t s 0 d] | .kbfx t s d => [xnov 0 t s 1 d]
  | .kwait t s d => [xnov 0 t s 2 d] | .kdisp t s d => [xnov 0 t s 3 d]
  | .kjrnl t s => [xnov 0 t s 4 0] | .kjrnlR t s d => [xnov 1 t s 4 d]
  | .khold t s d => [xnov 0 t s 5 d] | .krel t s d => [xnov 1 t s 5 d]
  | .kroll t s d => [xnov 0 t s 6 d]
  | .cpcCoreInstruction w => [w]
  | _ => []
where
  /-- R-type word of an Xnov instruction (R371). -/
  xnov (f7 : BitVec 7) (t s : BitVec 5) (f3 : BitVec 3) (d : BitVec 5) : W32 :=
    (f7 ++ t ++ s ++ f3 ++ d ++ 0x0B#7 : BitVec 32)

/-- The member that the words of one member decode to: the first word and, when there is a second,
its EXT payload. -/
def decodeWords : List W32 → Option Instr
  | [w] => if extUse (majorOf w) = .always then none else decodeMember w none
  | [w, x] => if majorOf x = 0x7F#7 ∧ extUse (majorOf w) ≠ .never then
      decodeMember w (some (fld x 0 24)) else none
  | _ => none

/-- A queue command's word (R358). -/
abbrev cmdWord (op : BitVec 8) (a b c : BitVec 4) (imm : BitVec 44) : W64 :=
  (op ++ a ++ b ++ c ++ imm : BitVec 64)

/-- The command word of a queue command (R359, R369); none for everything else. -/
def encodeCmd : Instr → Option W64
  | .cmdNop => some (cmdWord 0 0 0 0 0)
  | .ldi a i => some (cmdWord 1 a 0 0 i)
  | .ldhi a i => some (cmdWord 2 a 0 0 (0#24 ++ i : BitVec 44))
  | .add a b c => some (cmdWord 3 a b c 0)
  | .addi a b i => some (cmdWord 4 a b 0 i)
  | .cmdLd a b i => some (cmdWord 5 a b 0 i)
  | .cmdSt a b i => some (cmdWord 6 a b 0 i)
  | .br a b c i => some (cmdWord 8 a b c i)
  | .dloop a i => some (cmdWord 9 a 0 0 i)
  | .calli a b => some (cmdWord 0x0A a b 0 0)
  | .reti => some (cmdWord 0x0B 0 0 0 0)
  | .wait a b c => some (cmdWord 0x10 a b c 0)
  | .signalWrite a b => some (cmdWord 0x11 a b 0 0)
  | .signalAdd a b => some (cmdWord 0x11 a b 0 1)
  | .cmdCopy a b c => some (cmdWord 0x12 a b c 0)
  | .cmdMigrate a b c t => some (cmdWord 0x12 a b c (0#40 ++ t ++ 1#2 : BitVec 44))
  | .cmdLaunch a b c d p => some (cmdWord 0x13 a b c (0#38 ++ p ++ d : BitVec 44))
  | .launchg a b d => some (cmdWord 0x14 a b 0 (0#40 ++ d : BitVec 44))
  | .ctrlPreempt a d => some (ctrl a d 0)
  | .ctrlDisposeResume a d | .ctrlDisposeStep a d | .ctrlDisposeAbort a d => some (ctrl a d 1)
  | .ctrlFreeze a d => some (ctrl a d 2) | .ctrlThaw a d => some (ctrl a d 3)
  | .ctrlSetBreakpoint a d => some (ctrl a d 4) | .ctrlRestoreImage a d => some (ctrl a d 5)
  | .ctrlInvalidateTlb a d => some (ctrl a d 6) | .ctrlTrimLog a d => some (ctrl a d 7)
  | .ctrlRewind a d => some (ctrl a d 8)
  | .ctrlReplay a d | .ctrlReplayToWindow a d | .ctrlReplayPerturb a d => some (ctrl a d 9)
  | .ctrlDebugRead a d => some (ctrl a d 10) | .ctrlReleaseRetained a d => some (ctrl a d 11)
  | .ctrlHostMarker a d => some (ctrl a d 12) | .ctrlReverseStep a d => some (ctrl a d 13)
  | _ => none
where
  /-- A ctrl command (R369). -/
  ctrl (a d : BitVec 4) (k : BitVec 8) : W64 := cmdWord 0x18 a 0 0 (0#32 ++ d ++ k : BitVec 44)

/-- The instruction that the decoders read from the low bits of `w`, numbered as the operation table
numbers them. A word that R371 lists as an Xnov instruction is read as a CPC word, any other as a
member of a packet whose further words are the bits above; see log entry 3. -/
def decodeTableWord (nbits w : Nat) : Option Instr :=
  let w0 := BitVec.ofNat 32 w
  let w1 := BitVec.ofNat 32 (w / 2 ^ 32)
  if nbits = 32 then
    match decodeXnov w0 with
    | some i => some i
    | none => decodeWords [w0]
  else if nbits = 64 then decodeWords [w0, w1]
  else none

end Sys2Proof
end

