-- ==== Sys2Proof/Machine/Info.lean ====
section
/-! DEFINITION. What a member is before it executes: its pipe (R51, R65), its operand fields and their
roles (R58, R60), its scope (R94), what it writes (R51), whether it closes a segment (R97) and whether
lane groups merge first (R72). -/

namespace Sys2Proof.Machine

/-- The five pipes (R51). -/
inductive Pipe where
  | C | V | S | M | X
deriving DecidableEq, Repr

/-- The class of an operand (R60); none is class "any" or a frame slot. -/
def opClass : Operand → Option Scope
  | .v _ | .lane => some .lane
  | .s _ | .team | .nlane | .lcT | .depth => some .team
  | .b _ | .blk | .nteam | .lcB => some .block
  | .c _ | .clu | .lcC => some .cluster
  | .g _ | .nblk | .lcG => some .grid
  | _ => none

/-- A read-only special (R60). -/
def opReadOnly : Operand → Bool
  | .lane | .team | .blk | .nlane | .nteam | .nblk | .clu | .lcT | .lcB | .lcC | .lcG | .depth => true
  | _ => false

/-- A reserved operand byte (R60). -/
def opReserved : Operand → Bool
  | .rsvBD | .rsvBE | .rsvBF => true
  | _ => false

def opIsV : Operand → Bool
  | .v _ => true
  | _ => false

def opIsVz : Operand → Bool
  | .vz => true
  | _ => false

def opIsS : Operand → Bool
  | .s _ => true
  | _ => false

def opIsFrame : Operand → Bool
  | .frame _ _ => true
  | _ => false

/-- s, b, c and g registers. -/
def opIsScalar : Operand → Bool
  | .s _ | .b _ | .c _ | .g _ => true
  | _ => false

/-- The operand byte fields of a member: those read, those written, and those both read and written. -/
structure Fields where
  srcs : List Operand
  dsts : List Operand
  /-- v operands here are even registers of pairs, read or written (R61, R125). -/
  pairs : List Operand
  /-- Fields of the FM index (R59). -/
  idx : List Operand
deriving DecidableEq, Repr

/-- A destination and two sources. -/
def f3 (d : Operand) (s : List Operand) : Fields := ⟨s, [d], [], []⟩
/-- Sources alone. -/
def fs (s : List Operand) : Fields := ⟨s, [], [], []⟩
/-- An FM member's fields; size double makes the data a pair. -/
def fmF (dst : Bool) (d idx : Operand) (sz : Size) : Fields :=
  ⟨if dst then [] else [d], if dst then [d] else [], if sz = .d then [d] else [], [idx]⟩

/-- The operand fields of a member (R58). SPAWN, STKM and matrix register fields are sources here; what
their entries restrict further is a step-5 check (R66). -/
def fieldsOf : Instr → Fields
  | .loop _ n _ => fs [n]
  | .spawn e p _ _ _ => fs [e, p]
  | .waitm a _ i _ _ _ _ => ⟨[a], [], [], [i]⟩
  | .swi a _ => fs [a]
  | .pushm f _ => fs [f] | .popm f _ => fs [f]
  | .iadd d a b | .isub d a b | .imul d a b | .imulhs d a b | .imulhu d a b | .imin d a b
  | .imax d a b | .umin d a b | .umax d a b | .iadds d a b | .and d a b | .or d a b | .xor d a b
  | .shl d a b | .shr d a b | .sar d a b => f3 d [a, b]
  | .iabs d a | .popc d a | .clz d a | .mov d a => f3 d [a]
  | .imad d a b c m => if m = 0 then f3 d [a, b, c] else ⟨[a, b, c], [d], [d, c], []⟩
  | .bfx d a b i _ _ _ => f3 d (if i then [a] else [a, b])
  | .bfi d a b i _ _ => f3 d (if i then [a, d] else [a, b, d])
  | .sel d a b _ => f3 d [a, b]
  | .movil d _ => f3 d []
  | .movih d _ => f3 d [d]
  | .icmp _ _ a b | .ucmp _ _ a b | .fcmp _ _ a b | .scmp _ _ a b => fs [a, b]
  | .fadd d a b | .fsub d a b | .fmul d a b | .fmin d a b | .fmax d a b | .fscl d a b
  | .hadd2 d a b | .hmul2 d a b => f3 d [a, b]
  | .ffma d a b c _ _ | .hfma2 d a b c _ _ => f3 d [a, b, c]
  | .frcp d a | .frsq d a | .fsqrt d a | .fex2 d a | .flg2 d a => f3 d [a]
  | .frnd d a _ | .fcls d a _ => f3 d [a]
  | .cvt d a _ t => f3 d (if 1 ≤ t.toNat ∧ t.toNat ≤ 4 then [a, d] else [a])
  | .cvtq d a b _ m _ => f3 d (if m = 2 then [a, b, d] else [a, b])
  | .vote d k n _ => f3 d (if n = 2 then [k] else [])
  | .pfxc d a _ _ => f3 d [a]
  | .shfl d a j => f3 d [a, j]
  | .rdfirst d a => f3 d [a] | .rdlane d a j => f3 d [a, j]
  | .reduce d a _ => f3 d [a]
  | .actm d k s => f3 d (if s = 0 then [k] else [])
  | .sadd d a b | .ssub d a b | .smul d a b | .sand d a b | .sor d a b | .sxor d a b
  | .sshl d a b | .sshr d a b => f3 d [a, b]
  | .smov d a => f3 d [a] | .smovi d _ => f3 d [] | .smovx d a _ _ => f3 d [a]
  | .ld d _ i z _ | .ldExt d _ i z _ _ _ => fmF true d i z
  | .st d _ i z _ | .stExt d _ i z _ _ => fmF false d i z
  | .lds d _ i _ _ | .ldsExt d _ i _ _ _ _ => ⟨[], [d], [], [i]⟩
  | .sts d _ i _ _ | .stsExt d _ i _ _ _ => ⟨[d], [], [], [i]⟩
  | .ldstr d _ i z _ _ _ => fmF true d i z
  | .ststr d _ i z _ _ _ => fmF false d i z
  | .cpst d _ i z _ _ _ => fmF false d i z
  | .pref _ i _ _ | .prefExt _ i _ _ _ => ⟨[], [], [], [i]⟩
  | .atom d _ i z _ _ _ a _ => ⟨[a], [d], if z = .d then [d, a] else [], [i]⟩
  | .cas d _ i z _ _ _ c n => ⟨[c, n], [d], if z = .d then [d, c, n] else [], [i]⟩
  | .atoms d _ i _ _ _ _ a op => ⟨if op = 12 then [a, d] else [a], [d], [], [i]⟩
  | .bop _ n a _ _ _ => fs [n, a]
  | .copy _ _ l _ _ => fs [l]
  | .amsg t e p _ _ _ _ => ⟨[t, e, p], [], [t], []⟩
  | .mma _ _ a b => fs [a, b]
  | .mmaq _ a b _ _ ga gb => fs [a, b, ga, gb]
  | .mmasp _ _ a b m => ⟨[a, b, m], [], [m], []⟩
  | .ard _ _ _ _ v => fs [v] | .awr _ _ _ _ v => fs [v]
  | .ascl _ s => fs [s]
  | .csrr d _ => f3 d [] | .csrw a _ => fs [a]
  | .clkr d _ => f3 d [] | .mark a _ => fs [a] | .pcnt d _ => f3 d []
  | _ => fs []

/-- The pipe of a member (R65); none for what is no member. -/
def pipeOf : Instr → Option Pipe
  | .nop | .bt .. | .bf .. | .jmp .. | .loop .. | .endl .. | .call .. | .callFrame .. | .ret ..
  | .frdef .. | .frfence .. | .exit | .spawn .. | .launch .. | .waitf .. | .bar .. | .barArr ..
  | .waitm .. | .swi .. | .trap .. | .brk .. | .wmark .. | .pushm .. | .popm .. | .csrr .. | .csrw ..
  | .clkr .. | .mark .. | .pcnt .. => some .C
  | .iadd .. | .isub .. | .imul .. | .imulhs .. | .imulhu .. | .imad .. | .imin .. | .imax ..
  | .umin .. | .umax .. | .iabs .. | .iadds .. | .and .. | .or .. | .xor .. | .shl .. | .shr ..
  | .sar .. | .popc .. | .clz .. | .bfx .. | .bfi .. | .sel .. | .mov .. | .movil .. | .movih ..
  | .icmp .. | .ucmp .. | .fadd .. | .fsub .. | .fmul .. | .ffma .. | .fmin .. | .fmax .. | .fcmp ..
  | .frcp .. | .frsq .. | .fsqrt .. | .fex2 .. | .flg2 .. | .hadd2 .. | .hmul2 .. | .hfma2 ..
  | .cvt .. | .cvtq .. | .frnd .. | .fscl .. | .fcls .. | .vote .. | .pfxc .. | .shfl ..
  | .rdfirst .. | .rdlane .. | .reduce .. | .plog .. | .actm .. => some .V
  | .sadd .. | .ssub .. | .smul .. | .sand .. | .sor .. | .sxor .. | .sshl .. | .sshr .. | .smov ..
  | .smovi .. | .smovx .. | .scmp .. => some .S
  | .ld .. | .ldExt .. | .st .. | .stExt .. | .lds .. | .ldsExt .. | .sts .. | .stsExt .. | .ldstr ..
  | .ststr .. | .cpst .. | .pmov .. | .pmovExt .. | .pref .. | .prefExt .. | .atom .. | .cas ..
  | .atoms .. | .fence .. | .bop .. | .copy .. | .copyt .. | .rcfence | .amsg .. => some .M
  | .mma .. | .mmaq .. | .mmasp .. | .aclr .. | .ard .. | .awr .. | .ascl .. => some .X
  | _ => none

/-- A rendezvous branch (R108). -/
def isRendezvous : Instr → Bool
  | .bt sc (.p _) _ | .bf sc (.p _) _ => decide (sc ≠ .lane ∧ sc ≠ .team)
  | _ => false

/-- A lift (R84). -/
def isLift : Instr → Bool
  | .vote .. | .reduce .. | .rdfirst .. | .rdlane .. => true
  | _ => false

/-- The narrowest class among operands, ignoring "any" and frame slots, at least TEAM (R94). -/
def narrowest (os : List Operand) : Scope :=
  match (os.filterMap opClass).foldl (fun (m : Option Scope) c =>
      match m with
      | none => some c
      | some x => some (if c.rank < x.rank then c else x)) none with
  | some .lane => .team
  | some c => c
  | none => .team

/-- The scope of qs (R91). -/
def qsScope (qs : BitVec 2) : Scope :=
  if qs = 0 then .team else if qs = 1 then .block else if qs = 2 then .cluster else .grid

/-- The predicate a member writes, with the scope of a q predicate (R59, R91, R122, R141). -/
def predDst : Instr → Option (PredSel × Scope)
  | .icmp p _ a b | .ucmp p _ a b | .fcmp p _ a b | .scmp p _ a b => some (p, narrowest [a, b])
  | .plog _ p qs _ _ => some (p, qsScope qs)
  | .pmov false p _ | .pmovExt false p _ _ => some (p, .team)
  | _ => none

/-- The scope of a scalar destination; frame slots take the narrowest source class (R94). -/
def dstScope (d : Operand) (srcs : List Operand) : Scope :=
  match d with
  | .s _ => .team | .b _ => .block | .c _ => .cluster | .g _ => .grid
  | .frame _ _ => narrowest srcs
  | _ => .team

/-- The scope of a member (R94). For a lift it is the scope of the destination; teams take part in it
besides. -/
def scopeOf : Instr → Scope
  | .bt s _ _ | .bf s _ _ | .jmp s _ | .loop s _ _ | .endl s _ | .call s _ | .callFrame s _ _ | .ret s
  | .frdef s _ _ _ _ | .frfence s _ | .wmark s _ => s
  | .launch .. | .waitf .. | .bar .. | .barArr .. | .waitm .. | .swi .. | .trap .. | .brk ..
  | .pushm .. | .popm .. | .csrr .. | .csrw .. | .clkr .. | .mark .. | .pcnt .. => .team
  | .icmp p _ a b | .ucmp p _ a b | .fcmp p _ a b => match p with
      | .p _ => .lane
      | .q _ => narrowest [a, b]
  | .plog _ p qs _ _ => match p with
      | .p _ => .lane
      | .q _ => qsScope qs
  | .scmp _ _ a b => narrowest [a, b]
  | .vote d .. | .reduce d .. | .rdfirst d .. | .rdlane d .. => dstScope d []
  | .actm .. => .team
  | .sadd d a b | .ssub d a b | .smul d a b | .sand d a b | .sor d a b | .sxor d a b | .sshl d a b
  | .sshr d a b => dstScope d [a, b]
  | .smov d a => dstScope d [a]
  | .smovi d _ => dstScope d []
  | .smovx d a _ _ => dstScope d [a]
  | .lds .. | .ldsExt .. | .sts .. | .stsExt .. | .pmov .. | .pmovExt .. | .atoms .. | .fence ..
  | .bop .. | .copy .. | .copyt .. | .rcfence => .team
  | .mma .. | .mmaq .. | .mmasp .. | .aclr .. | .ard .. | .awr .. | .ascl .. => .team
  | _ => .lane

/-- A control member (R97, R115 to R119). -/
def isControl : Instr → Bool
  | .bt .. | .bf .. | .jmp .. | .loop .. | .endl .. | .call .. | .callFrame .. | .ret .. => true
  | _ => false

/-- Whether a member writes a b, c or g register (R97). -/
def writesVersion : Instr → Option Operand
  | .vote d .. | .reduce d .. | .rdfirst d .. | .rdlane d ..
  | .sadd d .. | .ssub d .. | .smul d .. | .sand d .. | .sor d .. | .sxor d .. | .sshl d .. | .sshr d ..
  | .smov d .. | .smovi d .. | .smovx d .. => match d with
      | .b _ | .c _ | .g _ => some d
      | _ => none
  | _ => none

/-- Whether a member writes a q predicate. -/
def writesQ (i : Instr) : Bool :=
  match predDst i with
  | some (.q _, _) => true
  | _ => false

/-- The scope that a member closes a segment of: control, version writes, q writes, lifts (R97). LANE and
TEAM close none. -/
def closes (i : Instr) : Option Scope :=
  let s := scopeOf i
  if s.rank ≤ 1 then none
  else if isControl i || (writesVersion i).isSome || writesQ i then some s else none

/-- Whether lane groups merge first (R72): control of TEAM scope or wider, and the members whose entries
say so. -/
def mergesFirst (i : Instr) : Bool :=
  match i with
  | .lds .. | .ldsExt .. | .sts .. | .stsExt .. | .atoms .. | .pmov .. | .pmovExt .. | .copy ..
  | .copyt .. | .waitf .. | .waitm .. | .bar .. | .barArr .. | .pushm .. | .popm .. | .launch ..
  | .bop .. | .swi .. => true
  | .wmark s _ => decide (s = .team)
  | i => isControl i && decide (1 ≤ (scopeOf i).rank)

/-- What a member writes, for the conflict rule of R51: a register class and number. -/
inductive WKey where
  | v (n : Nat) | sc (o : Operand) | p (n : Nat) | q (s : Scope) (n : Nat)
deriving DecidableEq, Repr

/-- The lane registers of a destination of n registers. -/
def vRange (d : Operand) (n : Nat) : List WKey :=
  match d with
  | .v k => (List.range n).map fun i => .v (k.toNat + i)
  | .vz => []
  | o => [.sc o]

/-- What a member writes (R51). Writes to vz and pt name no storage. -/
def writesOf (i : Instr) : List WKey :=
  let preds := match predDst i with
    | some (.p n, _) => if n.val = 47 then [] else [.p n.val]
    | some (.q n, s) => [.q s n.toNat]
    | none => []
  let regs := match i with
    | .imad d _ _ _ m => vRange d (if m = 0 then 1 else 2)
    | .ld d _ _ z _ | .ldExt d _ _ z _ _ _ | .atom d _ _ z _ _ _ _ _ | .cas d _ _ z _ _ _ _ _ =>
        vRange d (if z = .d then 2 else 1)
    | .ldstr d _ _ z _ _ n => vRange d ((n.toNat + 1) * (if z = .d then 2 else 1))
    | .popm f c => match f with
        | .s k => ((List.range (c.toNat + 1)).filter fun i => decide (k.toNat + i < 32)).map fun i =>
            .sc (.s (BitVec.ofNat 5 (k.toNat + i)))
        | f => vRange f (c.toNat + 1)
    | .ard _ _ _ n v => vRange v (n.toNat + 1)
    | .launch d .. => [.sc (.s d)]
    | i => (fieldsOf i).dsts.flatMap fun d => vRange d 1
  preds ++ regs

/-- Whether two members of one chain break R51: one pipe, or one destination. -/
def conflict (i j : Instr) : Bool :=
  decide (pipeOf i = pipeOf j) || (writesOf i).any fun k => decide (k ∈ writesOf j)

/-- The slot of the first member that breaks R51 (step 3 of R66). -/
def chainBad : List Member → Option Nat
  | [] => none
  | m :: ms => if m.badChain || ms.any (fun n => conflict m.ins n.ins) then some m.slot else chainBad ms

/-- Operand check of R60 and R61 that needs only the kernel's `.regs` and mode, at step 4 of R66: reserved
bytes, registers past `.regs`, c operands in free mode (R95), read-only destinations. -/
def byteBad (regs : Nat) (cmode : Bool) (o : Operand) : Bool :=
  opReserved o || (match o with
    | .v n => decide (regs ≤ n.toNat)
    | .c _ | .lcC => !cmode
    | _ => false)

/-- A pair operand of an odd register or whose second register is at or above `.regs` (R61). -/
def pairBad (regs : Nat) : Operand → Bool
  | .v n => decide (n.toNat % 2 = 1 ∨ regs ≤ n.toNat + 1)
  | _ => false

/-- The destination rules of R61 by pipe. What the entries of lifts and ACTM accept is a step-5 check. A lane destination may
be vz, whose write is discarded. DEDUCED, log entry 87. -/
def dstBad (i : Instr) (d : Operand) : Bool :=
  opReadOnly d || (match pipeOf i with
    | some .V => !(isLift i) && (match i with
        | .actm .. => false
        | _ => !(opIsV d || opIsVz d))
    | some .S => !(opIsScalar d || opIsFrame d)
    | _ => false)

/-- Destinations that stand in fields which are sources elsewhere: those of ARD and POPM. -/
def hiddenDst : Instr → Option Operand
  | .ard _ _ _ _ v => some v
  | .popm f _ => some f
  | _ => none

/-- Whether a member executes above LANE as far as the source rule of R61 goes. A lift reads lane
registers although its destination is a scalar. -/
def srcScope (i : Instr) : Scope := if isLift i then .lane else scopeOf i

/-- A source of class LANE, or of a class narrower than the scope that executes (R61). The register
fields of matrix members, SPAWN and STKM are lane registers by their entries. -/
def srcBad (i : Instr) (o : Operand) : Bool :=
  match i with
  | .spawn .. | .pushm .. | .popm .. => false
  | i => if pipeOf i = some .X then false
    else match opClass o with
      | some c => decide (1 ≤ (srcScope i).rank ∧ c.rank < (srcScope i).rank)
      | none => false

def predIsQ : PredSel → Bool
  | .q _ => true
  | .p _ => false

/-- A compare with a q destination and a lane-class source (R61). -/
def compareBad : Instr → Bool
  | .icmp p _ a b | .ucmp p _ a b | .fcmp p _ a b =>
      predIsQ p && ([a, b].any fun o => decide (opClass o = some .lane))
  | _ => false

/-- What the entries say of predicate selectors, checked at step 5: an SCMP to p, a selector beyond p47 where only p is
accepted, PLOG mixes, a CLUSTER scope in free mode (R85, R91, R115, R122, R139, R141, R322). -/
def predBad (cmode : Bool) (i : Instr) : Bool :=
  match i with
  | .scmp p _ _ _ => !(predIsQ p)
  | .plog _ p qs a b => (predIsQ p && !(predIsQ a && predIsQ b)) ||
      (decide (qs = 2) && !cmode && (predIsQ p || predIsQ a || predIsQ b))
  | .sel _ _ _ p | .vote _ _ _ p | .pfxc _ _ _ p | .cpst _ _ _ _ _ _ p | .pmov _ p _
  | .pmovExt _ p _ _ => predIsQ p
  | .bt s p _ | .bf s p _ => decide (s = .lane) && predIsQ p
  | .wmark s _ => decide (s = .cluster) && !cmode
  | _ => false

/-- A member of CLUSTER scope in a free-mode grid: no level executes it, and the first level that walks it raises 0x02
(R91, R95, R322). DEDUCED, log entry 88. -/
def clusterBad (cmode : Bool) (i : Instr) : Bool := !cmode && decide (scopeOf i = .cluster)

/-- K, J and the index selectors of lifts must be of class TEAM or wider (R61, R86, R89, R92). -/
def selBad : Instr → Bool
  | .vote _ k n _ => decide (n = 2) && decide (opClass k = some .lane)
  | .rdlane d _ j => match opClass j with
      | some .lane => true
      | some k => decide (k.rank < (dstScope d []).rank)
      | none => false
  | .actm _ k s => decide (s = 0) && decide (opClass k = some .lane)
  | _ => false

/-- Step 4 of R66 but for frame slots whose lex names no frame: true where the member raises 0x02. The check of an FM index
(R59) is made here too. DEDUCED, log entry 89. -/
def step4Bad (regs : Nat) (cmode : Bool) (i : Instr) : Bool :=
  let f := fieldsOf i
  (f.srcs ++ f.dsts ++ f.idx).any (byteBad regs cmode) || f.pairs.any (pairBad regs) ||
    f.dsts.any (dstBad i) || ((hiddenDst i).map opReadOnly).getD false || (f.srcs ++ f.idx).any (srcBad i) ||
    compareBad i || selBad i || f.idx.any fun o => !(opIsV o || opIsVz o)

/-- The lane registers that a register run of n from o passes `.regs` with. -/
def rangeBad (regs : Nat) (o : Operand) (n : Nat) : Bool :=
  match o with
  | .v k => decide (regs < k.toNat + n)
  | _ => true

/-- A destination that the entry of a lift or ACTM does not accept (R85, R92). -/
def liftDstBad (i : Instr) : Bool :=
  (isLift i && (fieldsOf i).dsts.any fun d => !(opIsScalar d)) || (match i with
    | .actm d _ _ => !(opIsS d)
    | _ => false)

/-- What the entries restrict beyond R60 and R61 in single operands, with class 0x02. -/
def entryBad (regs : Nat) : Instr → Bool
  | .spawn _ p n _ _ => rangeBad regs p (n.toNat + 1)
  | .waitm a _ i _ _ _ _ => !(opIsVz i) || decide (opClass a = some .lane)
  | .swi a _ => decide (opClass a = some .lane)
  | .pushm f c | .popm f c => match f with
      | .v _ => rangeBad regs f (c.toNat + 1)
      | .s k => decide (32 < k.toNat + c.toNat + 1)
      | _ => true
  | .vote d _ n _ => if n = 2 then !(opIsS d) else false
  | .shfl _ a _ => !(opIsV a)
  | .rdfirst _ a | .reduce _ a _ => !(opIsV a)
  | .rdlane d a _ => !(opIsV a) || (match d with
      | .s _ | .b _ => false
      | _ => true)
  | .ld d _ _ _ _ | .ldExt d _ _ _ _ _ _ => !(opIsV d || opIsVz d)
  | .st d _ _ _ _ | .stExt d _ _ _ _ _ => !(opIsV d)
  | .lds d _ i _ _ | .ldsExt d _ i _ _ _ _ => !(opIsS d) || !(opIsVz i)
  | .sts _ _ i _ _ | .stsExt _ _ i _ _ _ => !(opIsVz i)
  | .ldstr d _ _ z _ _ n | .ststr d _ _ z _ _ n =>
      !(opIsV d) || rangeBad regs d ((n.toNat + 1) * (if z = .d then 2 else 1))
  | .cpst d _ i _ _ _ _ => !(opIsV d) || !(opIsVz i)
  | .atom d _ _ _ _ _ _ a _ => !(opIsV d || opIsVz d) || decide (a = .lane)
  | .cas d _ _ _ _ _ _ c n => !(opIsV d || opIsVz d) || decide (c = .lane ∨ n = .lane)
  | .atoms d _ i _ _ _ _ _ op => !(opIsVz i) || !(opIsS d || (opIsVz d && decide (op ≠ 12)))
  | .amsg t _ p _ _ _ n => rangeBad regs p (n.toNat + 1) || decide (t = .lane)
  | .csrr d _ => !(opIsS d)
  | .csrw a _ => decide (opClass a = some .lane)
  | .clkr d _ | .pcnt d _ => !(opIsS d)
  | .mark a _ => decide (opClass a = some .lane)
  | _ => false

/-- A member's operand checks of class 0x02 at step 5 of R66, first among its own. Matrix members and CVTQ have checks before
theirs, in their meanings. -/
def ownOperandBad (regs : Nat) (cmode : Bool) (i : Instr) : Bool := entryBad regs i || liftDstBad i || predBad cmode i

end Sys2Proof.Machine
end

