-- ==== Sys2Proof/Machine/Map.lean ====
section
/-! DEFINITION. Sparse tables: lists of key and value with strictly rising keys, and memory on top of
them in one canonical form (an entry equal to what an unlisted address reads as is never listed). -/

namespace Sys2Proof.Machine

/-- A sparse table keyed by Nat, in rising order of its keys. -/
abbrev AMap (α : Type) := List (Nat × α)

/-- The value at a key. -/
def mget {α : Type} : AMap α → Nat → Option α
  | [], _ => none
  | (k, v) :: t, n => if k = n then some v else mget t n

/-- Sets a key. -/
def mset {α : Type} : AMap α → Nat → α → AMap α
  | [], n, x => [(n, x)]
  | (k, v) :: t, n, x =>
    if k = n then (n, x) :: t else if n < k then (n, x) :: (k, v) :: t else (k, v) :: mset t n x

/-- Removes a key. -/
def mdel {α : Type} (m : AMap α) (n : Nat) : AMap α := m.filter fun e => decide (e.1 ≠ n)

/-- Sets or removes a key. -/
def mput {α : Type} (m : AMap α) (n : Nat) : Option α → AMap α
  | some x => mset m n x
  | none => mdel m n

/-- Changes the value at a key; nothing where the key is not listed. -/
def mmod {α : Type} (m : AMap α) (n : Nat) (f : α → α) : AMap α :=
  match mget m n with
  | some x => mset m n (f x)
  | none => m

/-- The keys rise strictly. -/
def risingKeys {α : Type} : AMap α → Bool
  | [] => true
  | [_] => true
  | (k, _) :: (k', v) :: t => decide (k < k') && risingKeys ((k', v) :: t)

/-- A table of words in which an unlisted key reads zero. -/
abbrev ZMap (w : Nat) := AMap (BitVec w)

/-- Reads a word; zero where unlisted. -/
def zget {w : Nat} (m : ZMap w) (n : Nat) : BitVec w := (mget m n).getD 0

/-- Writes a word; writing zero removes the entry, so equal tables are equal lists. -/
def zset {w : Nat} (m : ZMap w) (n : Nat) (x : BitVec w) : ZMap w :=
  if x = 0 then mdel m n else mset m n x

/-- No listed word is zero. -/
def noZero {w : Nat} (m : ZMap w) : Bool := m.all fun e => decide (e.2 ≠ 0)

/-- The bytes of every memory of the device (see `memKey`). -/
abbrev Memory := List Host.Cell

/-- What an unlisted byte reads as: zero, as every memory is scrubbed before use (R202, R248, R403); for host and peer
memory log entry 4 chooses it. DESIGN CHOICE, log entry 6. -/
def emptyByte : Byte := 0

/-- The canonical form of memory. DESIGN CHOICE, log entry 30. -/
def Memory.wf (m : Memory) : Bool := risingKeys m && noZero m

/-- One byte. -/
def byteAt (m : Memory) (a : Nat) : Byte := (mget m a).getD emptyByte

/-- Writes one byte. -/
def putByte (m : Memory) (a : Nat) (x : Byte) : Memory := zset m a x

/-- `n` bytes from `a` on, as the number they hold, least significant byte lowest (R2). -/
def readNat (m : Memory) (a : Nat) : Nat → Nat
  | 0 => 0
  | n + 1 => (byteAt m a).toNat + 256 * readNat m (a + 1) n

/-- `n` bytes from `a` on. -/
def readBytes (m : Memory) (a : Nat) : Nat → List Byte
  | 0 => []
  | n + 1 => byteAt m a :: readBytes m (a + 1) n

/-- Writes bytes from `a` on. -/
def writeBytes (m : Memory) (a : Nat) : List Byte → Memory
  | [] => m
  | x :: t => writeBytes (putByte m a x) (a + 1) t

/-- The `n` bytes of a number, least significant first (R2). -/
def natBytes : Nat → Nat → List Byte
  | 0, _ => []
  | n + 1, x => BitVec.ofNat 8 x :: natBytes n (x / 256)

/-- The number that bytes hold. -/
def bytesNat : List Byte → Nat
  | [] => 0
  | x :: t => x.toNat + 256 * bytesNat t

/-- Writes the low `n` bytes of a number. -/
def writeNat (m : Memory) (a n x : Nat) : Memory := writeBytes m a (natBytes n x)

/-- Keeps the bytes outside `[a, a + n)`. -/
def scrubRange (m : Memory) (a n : Nat) : Memory := m.filter fun e => decide (e.1 < a ∨ a + n ≤ e.1)

/-- A set of Nat as a rising list. -/
abbrev NSet := List Nat

/-- Adds a member. -/
def sadd1 : NSet → Nat → NSet
  | [], n => [n]
  | k :: t, n => if k = n then k :: t else if n < k then n :: k :: t else k :: sadd1 t n

/-- Removes a member. -/
def sdel1 (s : NSet) (n : Nat) : NSet := s.filter (· ≠ n)

end Sys2Proof.Machine
end

