-- ==== Sys2Proof/Machine/Types.lean ====
section
/-! DEFINITION. The records that the state of the compute side is made of: tokens, sequencer positions,
teams, blocks, cluster instances, grids, frames, copies, matrix members. All of it is plain data. -/

namespace Sys2Proof.Machine

/-- A segment token (R99) with its display record (R169). -/
structure Token where
  start : W32
  close : W32
  lcg : W32
  lcc : W32
  lcb : W32
  qg : BitVec 16
  qc : BitVec 16
  qb : BitVec 16
  gver : BitVec 8
  cver : BitVec 8
  bver : BitVec 16
  seq : BitVec 16
  disp : List W32
deriving DecidableEq, Repr

/-- The handle that names no frame (R166). -/
def noFrame : W32 := 0xC0000000
/-- The handle of the level-0 frame, cell 0 of the grid store (R166, R169). -/
def frame0 : W32 := 0x80000000
/-- The close field of a final token (R99). -/
def finalClose : W32 := 0xFFFFFFFF

/-- The token that stands before any segment: every field zero, the display of R169. -/
def Token.zero : Token :=
  ⟨0, 0, 0, 0, 0, 0, 0, 0, 0, 0, 0, 0, [frame0, noFrame, noFrame, noFrame]⟩

/-- An entry of a loop-counter stack (R117). -/
structure LoopEnt where
  lc : W32
  count : W32
deriving DecidableEq, Repr

/-- An entry of a call stack: return PC, the frame its CALL created with its level, and the display
entries it saved (R118, R177). -/
structure CallEnt where
  ret : W32
  frame : Option W32
  lvl : Nat
  saved : List (Option W32)
deriving DecidableEq, Repr

/-- What a party waits on (R274), and the waits in which a party is only not ready. -/
inductive Wait where
  /-- Not ready: a pending version, a full queue, a busy register, a free version slot (R75, R103, R105); `why` is the
  stall reason (R343). DEDUCED, log entry 97. -/
  | notReady (why : Nat)
  /-- BAR sync: barrier, phase, the slot of the BAR (R276). -/
  | bar (k : Nat) (phase : W32) (slot : Nat)
  /-- WAITM: address, bytes, comparand, condition, the 64-byte granule of the word (its memory key / 64), and when the next
  periodic read falls due (R278, R279). -/
  | mem (addr : W64) (n : Nat) (x : W64) (cond : BitVec 3) (gran : Nat) (due : Nat)
  /-- WAITF (R220). -/
  | flags (mask : BitVec 12)
  /-- A parked access: scratch lines, global pages, and base and size of the pages whose fill ended as failed while it was parked
  on them (R204, R231 to R233). -/
  | parked (ls : List Nat) (pages : List W64) (failed : List (Nat × Nat))
  /-- The settle wait of a frame (R175). -/
  | settle (h : W32)
  /-- The waits of EXIT (R82). -/
  | exit
  /-- SPAWN without a bin (R79). -/
  | bin
  /-- LAUNCH: the launch, the s register that receives the status (R284). -/
  | launch (id : Nat) (d : Nat)
  /-- A LAUNCH that has been judged: its status, which its chain writes when it commits. -/
  | launched (d : Nat) (status : W64)
  /-- Held by the hall monitor at points of a kind, with the slot of the member that is held (R335, R337). -/
  | hall (kind : Nat) (keys : List W64) (slot : Nat)
deriving DecidableEq, Repr

/-- Why a party stands stopped: what resumption does (R295). -/
inductive StopKind where
  /-- Issue the faulting chain again. -/
  | reissue
  /-- Continue at the party's PC (0x50, 0x51, single step). -/
  | goOn
  /-- Issue the member at this slot alone: EXIT with a deferred copy fault (R53). -/
  | alone (slot : Nat)
deriving DecidableEq, Repr

/-- The stop of a party: its record and serial (R291, R294). -/
structure Stop where
  record : BitVec 512
  serial : Nat
  kind : StopKind
deriving DecidableEq, Repr

/-- What every party's position holds (R113): the PC of a level, its current token and the tokens it
holds, q predicates, stacks, display (none: inherited), views and contributions (R173, R174), the packets that it has
begun to execute, as it fetched them (R50), and what the BAR or LAUNCH of its chain has begun: an arrival, a launch on its way, a
launch that has been judged; the member does not begin anew when its chain issues again (R53, R276, R284). -/
structure Seq where
  pc : W32
  tok : Option Token
  queue : List Token
  rd : Nat
  q : BitVec 16
  loops : List LoopEnt
  calls : List CallEnt
  disp : List (Option W32)
  views : AMap (List W64)
  pend : AMap W64
  loop0 : Nat
  call0 : Nat
  wait : Option Wait
  stop : Option Stop
  passBrk : Option W32
  stepping : Bool
  alone : Option Nat
  chains : Nat
  packets : AMap (List W32)
  began : Option Wait
deriving DecidableEq, Repr

/-- A position at the entry of a kernel: nothing held, everything inherited (R74, R95, R169). -/
def Seq.start (entry : W32) : Seq :=
  ⟨entry, none, [], 0, 0, [], [], [none, none, none, none], [], [], 0, 0, none, none, none, false,
    none, 0, [], none⟩

/-- A versioned register: four slots (none: pending) and the newest (R103). -/
structure VReg where
  slots : List (Option W64)
  newest : Nat
deriving DecidableEq, Repr

/-- Version 0 with value 0; the other slots are free and hold 0 (R95). -/
def VReg.start : VReg := ⟨[some 0, some 0, some 0, some 0], 0⟩

/-- One team's contribution to a lift: blk, team, partial result (R84). -/
structure Contrib where
  blk : Nat
  team : Nat
  val : Option W64
deriving DecidableEq, Repr

/-- A lift whose pending version is not filled yet (R103, R110). -/
structure Lift where
  reg : Nat
  slot : Nat
  ins : Instr
  lane : Nat
  got : List Contrib
deriving DecidableEq, Repr

/-- A team's arrival at a rendezvous branch, with the predicates of its lanes there (R108). -/
structure Arrival where
  blk : Nat
  team : Nat
  vals : List (Nat × Bool)
deriving DecidableEq, Repr

/-- A sequencer level above TEAM: its position, the segment it is building, versions, lifts, arrivals. -/
structure Lvl where
  seq : Seq
  vregs : List VReg
  sent : Nat
  seg : Token
  segHas : Bool
  emitted : Bool
  lifts : List Lift
  arr : List Arrival
  walkDone : Bool
deriving DecidableEq, Repr

/-- A level at its kernel's entry with `n` versioned registers (R95). -/
def Lvl.start (entry : W32) (n : Nat) : Lvl :=
  ⟨Seq.start entry, List.replicate n VReg.start, 0, { Token.zero with start := entry }, false, false,
    [], [], false⟩

/-- A completion flag (R205): outstanding count and retained faults, oldest first: class, address and
the failed lines. The failed bit is set while the list is not empty. -/
structure CFlag where
  count : Nat
  faults : List (Byte × W64 × List Nat)
deriving DecidableEq, Repr

/-- What a store-queue entry does when it is performed. -/
inductive StoreKind where
  | store
  /-- A BOP element: operation, operand (R268). -/
  | bop (op : BitVec 4) (x : W64)
  /-- A team's write of a slot of a frame it owns (R176): the frame's table key. -/
  | frame (cell slot : Nat)
deriving DecidableEq, Repr

/-- An entry of a team's store queue (R253): memory key and bytes of one lane or element, its virtual
address, tier (9: a window), memory scope, the granules its member first touches with it (R332), the PC of its member,
and the granules that its member writes whole together with it (R237). -/
structure StoreEnt where
  kind : StoreKind
  va : W64
  tier : Nat
  key : Nat
  bytes : List Byte
  ms : MScope
  grans : List W64
  pc : W32
  heals : List Nat
deriving DecidableEq, Repr

/-- What one register of a load receives: a lane register key, or an s register's number, with the memory key, the
address of its lane's access and the bytes. -/
structure LoadPart where
  dst : Nat
  key : Nat
  va : W64
  n : Nat
deriving DecidableEq, Repr

/-- A load whose data has not returned (R300): everything one member reads, which returns at once (R239, R254), how many
requests it has sent, the granules of CSM and tier memory that it touches, whose turns are performed then (R332), and its
member's PC. -/
structure LoadEnt where
  sreg : Bool
  sx : Bool
  reqs : Nat
  parts : List LoadPart
  grans : List W64
  pc : W32
deriving DecidableEq, Repr

/-- A team (R67 to R74). `resume` is the slot of the member that carries the resume mask, and the mask
(R236). Lane register r of lane l is `v` at r · 1024 + l; tags carry the load's address. `gran` is its first register granule
(R124), `line` a detached team's first spill line (R164). `since` is when it became ready, `aged` how many issue cycles of
its group have gone by since (R75). -/
structure Team where
  seq : Seq
  groups : List (W32 × Mask)
  mergeAt : Option W32
  awaiting : Option W32
  core : Nat
  slot : Nat
  detached : Bool
  nlane : Nat
  v : ZMap 32
  s : ZMap 64
  p : ZMap 1024
  vtag : AMap W64
  stag : AMap W64
  fpc : W32
  hsp : Nat
  flags : List CFlag
  storeQ : List StoreEnt
  loads : List LoadEnt
  ardBusy : NSet
  resume : Option (Nat × Mask)
  exiting : Bool
  shash : W64
  gran : Nat
  line : Nat
  since : Option Nat
  aged : Nat
deriving DecidableEq, Repr

/-- A named barrier (R271). -/
structure Barrier where
  phase : W32
  count : Nat
  arrived : NSet
deriving DecidableEq, Repr

/-- A block (R93, R182, R202, R270); `grans` are the first register granules of its launched teams' sets, `line` the first
line of its allocation (R124, R202). `carry` are the counts of its grid that a saved block brings along to its next core
(R344). -/
structure Blk where
  lvl : Lvl
  core : Nat
  slot : Nat
  inst : Nat
  mctx : Option Nat
  bars : AMap Barrier
  absent : NSet
  held : NSet
  failed : NSet
  tiles : ZMap 32
  tbad : NSet
  stall : AMap Nat
  grans : List Nat
  line : Nat
  carry : AMap Nat
deriving DecidableEq, Repr

/-- A cluster instance (R93, R165). -/
structure Clus where
  lvl : Lvl
  cluster : Nat
  slot : Nat
deriving DecidableEq, Repr

/-- A frame cell (R163, R168). -/
structure Frame where
  serial : W32
  refcount : Nat
  state : BitVec 2
  sealed : Bool
  level : Nat
  modes : List (BitVec 3)
  parent : W32
  oscope : Scope
  oteam : Nat
  slots : List W64
deriving DecidableEq, Repr

/-- A launch record (R363): header, parameters, format slots. -/
structure LaunchRec where
  csm : Nat
  scratch : Nat
  cctl : Bool
  gctl : Bool
  record : Bool
  undo : Bool
  cmode : Bool
  nbar : Nat
  tiles : Nat
  nteam : Nat
  regs : Nat
  team : Nat
  grid : Nat
  endpkt : W32
  entry : W32
  base : W64
  params : List W64
  fmts : List (BitVec 128)
deriving DecidableEq, Repr

/-- A breakpoint entry (R296). -/
structure Brkpt where
  pc : W32
  levels : BitVec 5
  enable : Bool
deriving DecidableEq, Repr

/-- Where a grid stands (R297, R326). -/
inductive GStatus where
  | running | retained | saving | aborted
deriving DecidableEq, Repr

/-- Who launched a grid: a queue's launch, a timetable node, a LAUNCH, or the device for a page fill. -/
inductive Launcher where
  | queue (q : Nat) | node (t n : Nat) | parent (g : Nat) | fill (id : Nat)
deriving DecidableEq, Repr

/-- A grid (R93, R95, R102, R112, R283, R364). `ctx` names its context; `owed` is the block that waiting blocks have been
saved to make room for (R275); `aborted` says that it has been aborted and keeps its sequencer until the FIFO has room for its
completion (R295, R375). -/
structure Grid where
  lrec : LaunchRec
  lvl : Lvl
  ring : List Token
  ringBase : Nat
  part : Nat
  space : Nat
  queue : Nat
  csn : W64
  prio : Nat
  depth : Nat
  launcher : Launcher
  gseq : Nat
  signal : W64
  ctx : Nat
  brks : List Brkpt
  allstop : Bool
  nextBlk : Nat
  doneBlk : NSet
  status : GStatus
  frozen : Bool
  msgdrop : W64
  counters : AMap Nat
  signalled : Bool
  completing : Bool
  owed : Option Nat
  aborted : Bool
deriving DecidableEq, Repr

/-- A spawn bin (R77): key, formation size, timeout and deadline, deposits (payload words of one lane)
in order, the token of the opening SPAWN, the opening order. -/
structure Bin where
  grid : Nat
  blk : Nat
  entry : W32
  size : Nat
  timeout : Nat
  deadline : Nat
  lanes : List (List W32)
  tok : Option Token
  order : Nat
  forced : Bool
deriving DecidableEq, Repr

/-- A tensor shape record (R215): element bytes, rank, pad, pad value, and per dimension extent, sbound,
sstride, dstride. -/
structure Shape where
  esize : Nat
  pad : Bool
  padval : W64
  dims : List (Nat × Nat × Int × Int)
deriving DecidableEq, Repr

/-- An outstanding copy (R205 to R212). `next` is the index of its next granule (COPY) or element; `after`
counts the team's earlier stores that must be performed first (R214); `bads` (the destination granules) and `badAt` are
what R211 reports; `parkedOn` is the page on whose fill it is parked, `failedFill` base and size of one whose fill ended as failed
then (R232); `pc` is its member's, and
`stop` the serial of the record of a copy that the full log has stopped (R324). -/
structure Copy where
  party : Party
  dst : W64
  src : W64
  len : Nat
  shape : Option Shape
  flag : Nat
  ms : MScope
  next : Nat
  started : Bool
  engine : Nat
  after : Nat
  locks : List (Nat × Nat × Nat × Bool)
  dlines : NSet
  slines : NSet
  bads : NSet
  badAt : W64 × W64
  parkedOn : Option Nat
  failedFill : Option (Nat × Nat)
  pc : W32
  stop : Option Nat
deriving DecidableEq, Repr

/-- A matrix member in a matrix queue (R185): the member, the team's lanes and mask, captured registers (as
`Team.v`), the scalar that ASCL captured, the next tile operation and their count. -/
structure MatEnt where
  party : Party
  ins : Instr
  nlane : Nat
  act : Mask
  cap : ZMap 32
  scal : W32
  next : Nat
  count : Nat
deriving DecidableEq, Repr

/-- A cached translation (R228): engine (core, or 96 + die), partition, space, page, its size, leaf. -/
structure TlbEnt where
  engine : Nat
  part : Nat
  space : Nat
  base : Nat
  size : Nat
  leaf : W64
deriving DecidableEq, Repr

/-- A miss of a core or die TLB that is under way (R9, R228): engine, address space, the 64 KiB page that is translated, the grid it is for. -/
structure Miss where
  engine : Nat
  part : Nat
  space : Nat
  page : Nat
  grid : Nat
deriving DecidableEq, Repr

/-- A page fill under way (R231, R232); `ended` says how its filler ended: completed, or not; `front` that an access of the front end
waits for it. -/
structure Fill where
  part : Nat
  space : Nat
  base : Nat
  size : Nat
  grid : Nat
  chain : Nat
  ended : Option Bool
  front : Bool
deriving DecidableEq, Repr

/-- A migration request (R233): its range, target tier, next page, its page under way with the frames it moves
to; the queue command that waits for it and the register that receives its status (16: the queue's core has asked
for it itself by kdisp). -/
structure Migr where
  part : Nat
  space : Nat
  next : Nat
  last : Nat
  tier : Nat
  marked : Option (Nat × Nat)
  dest : Nat
  queue : Nat
  reg : Nat
  csn : W64
deriving DecidableEq, Repr

/-- A message on its way (R280), with the clock it carries (R329); `pc` is its AMSG's, `engine` its sender's core, or a number past
every engine's for a partition of the device `dev` that it came from (R394); `part` is the partition it goes to. -/
structure Msg where
  src : Party
  lane : Nat
  pc : W32
  grid : Nat
  blk : Nat
  entry : W32
  size : Nat
  timeout : Nat
  words : List W32
  stamp : W64
  dev : Option Nat
  engine : Nat
  part : Nat
deriving DecidableEq, Repr

end Sys2Proof.Machine
end

