-- ==== Sys2Proof/Machine/Types2.lean ====
section
/-! DEFINITION. The records that the state outside the cores is made of: contexts with their undo log,
arbitration record and trace buffer, queues and journal, timetables, CPC cores, partitions, interrupts,
links, images, and the registrar's state. -/

namespace Sys2Proof.Machine

/-- A context image (R301), held under the keys its parts had; `bytes` are scratch, spill and CSM bytes.
`hdr` is its header (R302), `addr` the address space and address it was saved at by command; `auto` says that the
scheduler restores it (R275), `csmWanted` that its CSM part is still to be copied (R306). -/
structure Image where
  gid : Nat
  hdr : BitVec 512
  grid : Option Grid
  clusters : AMap Clus
  blocks : AMap Blk
  teams : AMap Team
  frames : AMap Frame
  bins : List Bin
  mats : AMap (List MatEnt)
  copies : List Copy
  bytes : Memory
  poison : NSet
  csmPart : Bool
  csmWanted : Bool
  addr : Option (Nat × W64)
  auto : Bool
deriving DecidableEq, Repr

/-- A launch that waits to be judged, or for a grid sequencer or CSM (R364). The grid takes its number.
`raw` is the record that a LAUNCH has read; `params` replace the first level-0 slots. -/
structure PLaunch where
  launcher : Launcher
  party : Option Party
  part : Nat
  space : Nat
  queue : Nat
  csn : W64
  prio : Nat
  depth : Nat
  recAt : W64
  raw : Option (List Byte)
  params : List W64
  ctxAt : W64
  ctx : Option Nat
  sig : W64
  dreg : Nat
deriving DecidableEq, Repr

/-- A checkpoint slot (R320, R334): window, start, record bytes at its start, the images with the launches that
wait and the messages under way, and how many chains each party had committed in the window that ended there
(R327). -/
structure Ckpt where
  slot : Nat
  window : W32
  start : Nat
  recAt : Nat
  images : List Image
  launches : AMap PLaunch
  msgs : AMap Msg
  ends : List (Party × Nat)
deriving DecidableEq, Repr

/-- The undo log of an undo context (R316). Byte counts are natural numbers. `owners` tells, by byte count, the grid in whose
CSM a record's address lies (R325). -/
structure UndoLog where
  base : Nat
  lg2 : Nat
  stall : Bool
  nck : Nat
  cbase : Nat
  cslot : Nat
  head : Nat
  tail : Nat
  horizon : Nat
  oldwin : W32
  newwin : W32
  dropped : W32
  irrev : W32
  ckpts : List Ckpt
  owners : AMap Nat
deriving DecidableEq, Repr

/-- An arbitration point and requester (R332, R333); `num` is the chunk's place in its record, counted from the record's start,
which a replay names it by (R348). -/
structure Chunk where
  key : W64
  kind : Nat
  window : Nat
  run : Nat
  scope : BitVec 3
  inst : Nat
  team : Nat
  num : Nat
deriving DecidableEq, Repr

/-- The arbitration record of a record context (R333, R334): ring, bytes appended, open chunks, the
uncounted first touchers of kind 2 granules. -/
structure ArbLog where
  base : Nat
  lg2 : Nat
  appended : Nat
  opens : List Chunk
  firsts : List Chunk
deriving DecidableEq, Repr

/-- What a replay runs to (R348, R327, R325). -/
inductive ReplayEnd where
  | script
  | window (w : W32)
  | chains (p : Party) (n : Nat)
deriving DecidableEq, Repr

/-- A replay under the hall monitor (R335): the chunks of the script not spent yet, in order. -/
structure Replay where
  script : List Chunk
  spent : List Chunk
  till : ReplayEnd
deriving DecidableEq, Repr

/-- A trace buffer (R339, R341); `starts` are the byte counts of its whole records from the reader's on, oldest first. -/
structure TraceBuf where
  base : Nat
  lg2 : Nat
  period : Nat
  write : Nat
  consume : Nat
  starts : List Nat
  lost : W32
  serial : W32
  lastLost : Bool
deriving DecidableEq, Repr

/-- A context (R366): the launch's descriptor (at memory key `desc`) and what runs under it. Records that
found the fault buffer full are held in `heldRecs` (R294). `totals` are its slice and link counts (R344): kind + 16 · engine. `gone` are
the counts of chains that parties which have ended committed in the open grid window (R327); `unapplied` lists the records that
the last rewind did not apply (R325). -/
structure Ctx where
  part : Nat
  queue : Nat
  csn : W64
  ckey : BitVec 8
  conf : Bool
  undo : Bool
  record : Bool
  fbase : Nat
  flg2 : Nat
  fserial : Nat
  undisposed : NSet
  heldRecs : AMap (BitVec 512)
  frserial : W32
  ulog : Option UndoLog
  arb : Option ArbLog
  replay : Option Replay
  trace : Option TraceBuf
  desc : Nat
  totals : AMap Nat
  gone : List (Party × Nat)
  unapplied : List Nat
deriving DecidableEq, Repr

/-- A journal image (R380). -/
structure JImg where
  rptr : W64
  csn : W64
  state : BitVec 4
  fault : BitVec 8
  depth : Nat
  bstack : List (W64 × W32 × W32)
  k : List W64
deriving DecidableEq, Repr

/-- The initial image of R379. -/
def JImg.initial : JImg :=
  ⟨0, 0, 1, 0, 0, List.replicate 8 (0, 0, 0), List.replicate 16 0⟩

/-- An armed wait of a queue (R361, R371). -/
structure Armed where
  addr : W64
  value : W64
  cond : BitVec 4
  due : Nat
deriving DecidableEq, Repr

/-- A queue (R353, R354, R373, R374, R416). `begun` is the csn of a ctrl whose effect has begun, with its phase (R369). -/
structure Queue where
  fn : Nat
  part : Nat
  space : Nat
  m : Nat
  core : Nat
  vector : Nat
  ring : Nat
  wptr : W32
  retries : W64
  dropped : W64
  stopReq : Bool
  held : Bool
  disabled : Bool
  armed : Option Armed
  halfA : JImg
  halfB : JImg
  badA : Bool
  badB : Bool
  written : Bool
  newestB : Bool
  window : List (W64 × W64)
  begun : Option (W64 × Nat)
deriving DecidableEq, Repr

/-- A node of a timetable (R367) with its live counter and what became of it. -/
structure TNode where
  lrec : W64
  ctx : W64
  sig : W64
  prio : Nat
  left : Nat
  succ : List Nat
  launched : Bool
  done : Bool
deriving DecidableEq, Repr

/-- A resident timetable (R368). -/
structure TTable where
  queue : Nat
  csn : W64
  sig : W64
  nodes : List TNode
  status : W32
deriving DecidableEq, Repr

/-- A completion signal that waits for its page (R284, R365): who sends it, for which context, in which address space, the
status that a queue's signal writes, and the grid of the undo context that logs it. -/
structure PSig where
  unit : Nat
  ctx : Option Nat
  part : Nat
  space : Nat
  sig : W64
  status : Option W32
  log : Option Nat
deriving DecidableEq, Repr

/-- An entry of the completion FIFO (R375); `unit` is the grid sequencer it came from, `ctx` the grid's context (R345). -/
inductive FifoEnt where
  | done (queue : Nat) (part space : Nat) (sig : W64) (status : W32) (vec : Bool) (unit ctx : Nat)
  | dec (queue : Nat) (table node : Nat) (status : W32) (unit ctx : Nat)
deriving DecidableEq, Repr

/-- A grid that has completed at a clk, with the header that a pre-emption in the same clk writes (R305), and whether its context is
confidential (R390). -/
structure Done where
  clk : Nat
  queue : Nat
  csn : W64
  part : Nat
  hdr : BitVec 512
  conf : Bool
deriving DecidableEq, Repr

/-- A CPC core (R13): RV64 state. CSRs are the machine-mode ones the trap of R372 uses. -/
structure Cpc where
  pc : W64
  x : ZMap 64
  stopped : Bool
  hardTrap : Bool
  mstatus : W64
  mie : W64
  mip : W64
  mtvec : W64
  mepc : W64
  mcause : W64
  mtval : W64
  mscratch : W64
  mcycle : W64
  minstret : W64
  resv : Option Nat
  imem : Memory
  dmem : Memory
  badWord : Option Nat
  trigger : Option W64
deriving DecidableEq, Repr

/-- An entry of a regeneration table (R231). -/
structure RegenEnt where
  first : W64
  last : W64
  lrec : W64
  arg : W64
deriving DecidableEq, Repr

/-- An import entry (R398). -/
structure ImportEnt where
  dev : Nat
  part : Nat
  first : W64
  last : W64
  key : BitVec 8
deriving DecidableEq, Repr

/-- A message endpoint (R399): outbound names a device and partition, inbound a source, queue and csn. -/
structure Endpoint where
  inbound : Bool
  dev : Nat
  part : Nat
  queue : Nat
  csn : W64
deriving DecidableEq, Repr

/-- A partition (R383 to R387): its record, loaded keys, tables, the clusters it has lent (cluster,
borrower) and those being revoked, and the peers' messages that no grid was there for (R399). -/
structure Part where
  record : BitVec 512
  keys : AMap (List Byte)
  regen : AMap RegenEnt
  imports : AMap ImportEnt
  ends : AMap Endpoint
  lent : AMap Nat
  revoking : NSet
  busy : W64
  energy : W64
  session : Option Nat
  available : Bool
  msgdrop : Nat
deriving DecidableEq, Repr

/-- An MSI-X vector (R391, R392): its entry's address and data as the guest has programmed them. -/
structure Vector where
  addr : W64
  data : W32
  masked : Bool
  pending : Bool
  coalesced : Bool
  timer : Option Nat
  sent : Nat
deriving DecidableEq, Repr

/-- A software-interrupt mailbox (R285). -/
structure Mailbox where
  value : W64
  count : Nat
deriving DecidableEq, Repr

/-- A link (R397): half width, up, replays of its last 2^20 clk and when they fell, retraining, replays in all. -/
structure Link where
  half : Bool
  up : Bool
  replays : List Nat
  retraining : Bool
  retries : Nat
deriving DecidableEq, Repr

/-- A health monitor (R346). -/
structure Monitor where
  min : Nat
  max : Nat
  count : W64
  bins : List Nat
deriving DecidableEq, Repr

/-- DEVREADY (R404). -/
structure DevReady where
  bits : BitVec 8
  error : BitVec 8
deriving DecidableEq, Repr

/-- A firmware image (R406): `body` is its header and its body. -/
structure Firmware where
  version : Nat
  adopt : W64
  body : List Byte
  digest : BitVec 256
deriving DecidableEq, Repr

/-- The registrar (R383, R403 to R412): `config` is the staging window, `verified` the record that step 1 accepted;
`identity` the key that it derived; `image` the firmware image supplied for step 4; `mgmt` and `spdm` are its last answers. -/
structure Registrar where
  ready : DevReady
  step : Nat
  config : Option (List Byte)
  verified : Option (List Byte)
  identity : Option (List Byte)
  image : Option (List Byte)
  firmware : Option Firmware
  staged : Option Firmware
  exam : W64
  health : List (List Byte)
  overwritten : W64
  healthSerial : W32
  monitors : List Monitor
  devno : BitVec 10
  deadlockUs : Nat
  throttle : Bool
  mgmt : List Byte
  spdm : List Byte
  spdmState : Nat
  transcript : List Byte
  rails : List (Nat × Nat × Nat × Nat)
deriving DecidableEq, Repr

/-- A packet held by an instruction cache (R50): core, partition, space, address, words. -/
structure ICacheEnt where
  core : Nat
  part : Nat
  space : Nat
  va : Nat
  words : List W32
deriving DecidableEq, Repr

/-- An entry of a record cache (R217), most recently used first in the list of its core. -/
structure RCacheEnt where
  core : Nat
  grid : Nat
  va : W64
  bytes : List Byte
deriving DecidableEq, Repr

/-- A key tag (R227). -/
structure KeyTag where
  key : BitVec 8
  aliased : Bool
deriving DecidableEq, Repr

/-- What leaves the device for another agent: a message or store to a peer (R280, R398). -/
inductive Outgoing where
  | msg (dev part : Nat) (blk : Nat) (entry : W32) (size timeout : Nat) (words : List W32)
  | store (pa : Nat) (bytes : List Byte)
  /-- An atomic on a peer's word, performed at its home there (R250): operation of R261, 12 for CAS with its comparand. -/
  | atomic (pa op n x : Nat) (cmp : Nat)
  /-- An MSI-X message: the vector's entry as programmed (R391). -/
  | irq (fn vec : Nat) (addr : W64) (data : W32)
  /-- What a peer's request is answered with; none is an error response (R398). -/
  | answer (dev : Nat) (bytes : Option (List Byte))
  /-- The bytes of an image of a departing tenant (R408), of a confidential context as ciphertext (R390). -/
  | image (bytes : List Byte)
  /-- The host administrator's copy of a record of a confidential context, with the queue that it concerns (R293). -/
  | hostRecord (queue : Nat) (r : BitVec 512)
deriving DecidableEq, Repr

end Sys2Proof.Machine
end

