-- ==== Sys2Proof/Machine/State.lean ====
section
/-! DEFINITION. The state of the machine as plain data, its reset value, and the reasons a step can stop
without a next state. -/

namespace Sys2Proof.Machine

/-- Why the machine stops with a fault. The faults of R289 are no stops of the machine: they are next
states with a fault record. -/
inductive Fault where
  /-- Raised by an access of the device to physical memory past what R16 puts on the module; the spec
  gives such bytes no existence. Safe: the hardware has no behaviour there. -/
  | noSuchMemory (pa : Nat)
deriving DecidableEq, Repr

/-- Why the machine gives no next state. -/
inductive Refusal where
  /-- Raised by an arm of `exec` whose instruction has no meaning in the model yet. Safe: a run stops. -/
  | notModelled (mnemonic : String)
  /-- Raised when an instruction of a party, a queue or a CPC core is executed while the turn names none
  that exists. Safe: the machine never executes an instruction without the party that issues it. -/
  | noParty
deriving DecidableEq, Repr

/-- Who moves next (MODEL): free lets the model choose. -/
inductive Turn where
  | free
  | party (p : Party)
  | cpc (n : Nat)
  | queue (q : Nat)
  | event (i : Instr)
deriving DecidableEq, Repr

/-- The machine. `turn`, `seed`, `inputs` and `nextId` are the model's own (log entry 2); everything
else is what the spec gives the machine. `poked` are the teams (by table key) asleep in a WAITM to whose granule a device agent has
performed a store (R279). `sigs` are signals that wait for their page; `sigClock` holds, by memory key, the clocks that
signals have brought to their words (R329); `failedFills` are pages (partition,
space, base) whose fill has failed while the front end waited for it (R232); `flows` are those on the escape channel, with the clk at which they moved
(R395); `done` are the grids that have completed at the clk of the latest completion (R305). Bytes of all memories stand in `mem` (`memKey` and below). -/
structure State where
  turn : Turn
  seed : Nat
  inputs : List Instr
  nextId : Nat
  clk : Nat
  mem : Memory
  poison : NSet
  poked : NSet
  keyTags : AMap KeyTag
  tlb : List TlbEnt
  misses : List Miss
  icache : List ICacheEnt
  rcache : List RCacheEnt
  fills : AMap Fill
  failedFills : List (Nat × Nat × Nat)
  migrs : AMap Migr
  grids : AMap Grid
  clusters : AMap Clus
  blocks : AMap Blk
  teams : AMap Team
  frames : AMap Frame
  ctxs : AMap Ctx
  bins : AMap Bin
  matq : AMap (List MatEnt)
  matLast : AMap Nat
  copies : AMap Copy
  msgs : AMap Msg
  launches : AMap PLaunch
  lamport : ZMap 64
  images : AMap Image
  parts : AMap Part
  queues : AMap Queue
  rollcall : BitVec 1024
  fifo : List FifoEnt
  done : List Done
  sigs : List PSig
  sigClock : AMap W64
  tables : AMap TTable
  vectors : AMap Vector
  mailboxes : AMap Mailbox
  cpcs : AMap Cpc
  links : AMap Link
  flows : AMap Nat
  outbox : List Outgoing
  reg : Registrar
deriving DecidableEq, Repr

/-- A CPC core after reset: stopped until firmware runs, SRAMs scrubbed to zero (R403); registers and
CSRs as log entry 13 names them. -/
def Cpc.reset : Cpc :=
  { pc := 0, x := [], stopped := true, hardTrap := false, mstatus := 0, mie := 0, mip := 0,
    mtvec := 0, mepc := 0, mcause := 0, mtval := 0, mscratch := 0, mcycle := 0, minstret := 0,
    resv := none, imem := [], dmem := [], badWord := none, trigger := none }

/-- A link after reset: full width, up once trained (R397). DESIGN CHOICE, log entry 85. -/
def Link.reset : Link := ⟨false, true, [], false, 0⟩

/-- A health monitor with nothing counted (log entry 14). -/
def Monitor.reset : Monitor := ⟨0, 0, 0, List.replicate 16 0⟩

/-- The registrar after reset: the boot ROM stands before step 1 (R403), DEVREADY zero. -/
def Registrar.reset : Registrar :=
  { ready := ⟨0, 0⟩, step := 0, config := none, verified := none, identity := none, image := none, firmware := none, staged := none, exam := 0,
    health := [], overwritten := 0, healthSerial := 0, monitors := List.replicate 8 Monitor.reset,
    devno := 0, deadlockUs := 20, throttle := false, mgmt := [], spdm := [], spdmState := 0,
    transcript := [], rails := [] }

/-- The machine right after reset: no partition, queue, grid or team exists, memory lists nothing (R403),
Lamport clocks are zero (R328). -/
def State.reset : State :=
  { turn := .free, seed := 0, inputs := [], nextId := 0, clk := 0, mem := [], poison := [], poked := [],
    keyTags := [], tlb := [], misses := [], icache := [], rcache := [], fills := [], failedFills := [], migrs := [], grids := [],
    clusters := [], blocks := [], teams := [], frames := [], ctxs := [], bins := [], matq := [],
    matLast := [], copies := [], msgs := [], launches := [], lamport := [], images := [], parts := [],
    queues := [], rollcall := 0, fifo := [], done := [], sigs := [], sigClock := [], tables := [], vectors := [], mailboxes := [],
    cpcs := (List.range 8).map fun n => (n, Cpc.reset),
    links := (List.range 22).map fun n => (n, Link.reset), flows := [], outbox := [],
    reg := Registrar.reset }

end Sys2Proof.Machine
end

