-- ==== Sys2Proof/Machine/Ops.lean ====
section
/-! DEFINITION. The named operations over parties, engines, interrupts, trace records and faults. Taking
a fault is one operation, `takeFault`; disposing of a stop, its counterpart, is `disposeStop`. -/

namespace Sys2Proof.Machine

/-! ### Where things stand -/

/-- Table key of a block or cluster instance of a grid. -/
def bKey (g b : Nat) : Nat := g * 2 ^ 32 + b
/-- Table key of a team. -/
def tKey (g b t : Nat) : Nat := bKey g b * 16 + t
/-- Table key of a frame cell: store, instance of the store (block or cluster instance), cell (R163). -/
def fKey (g store inst cell : Nat) : Nat := ((g * 4 + store) * 2 ^ 32 + inst) * 2 ^ 16 + cell

/-- Memory key of a physical byte (R223). -/
def memKey (tier pa : Nat) : Nat := pa + 2 ^ 52 * tier
/-- Memory key of a byte of a grid's CSM allocation (R248). -/
def csmKey (g off : Nat) : Nat := off + 2 ^ 56 * (4 * g + 1)
/-- Memory key of a byte of a block's scratch area (R202). -/
def scrKey (g b off : Nat) : Nat := off + 2 ^ 56 * (4 * bKey g b + 2)
/-- Memory key of a byte of a team's spill area (R164). -/
def spillKey (g b t off : Nat) : Nat := off + 2 ^ 56 * (4 * tKey g b t + 3)

/-- PC of a packet and slot (R47). -/
def mkPc (pkt slot : Nat) : W32 := BitVec.ofNat 32 (pkt * 4 + slot)
/-- Packet of a PC (R47). -/
def pcPkt (pc : W32) : Nat := pc.toNat / 4
/-- Slot of a PC (R47). -/
def pcSlot (pc : W32) : Nat := pc.toNat % 4
/-- The PC after a member run whose last word stands in slot `s` (R48). After the last slot of packet 2^30 − 1 it is packet 0.
DESIGN CHOICE, log entry 102. -/
def nextPc (pkt s : Nat) : W32 := if s = 2 then mkPc (pkt + 1) 0 else mkPc pkt (s + 1)

/-- Register key of lane register r of lane l. -/
def vKey (r l : Nat) : Nat := r * 1024 + l

def State.grid (s : State) (g : Nat) : Option Grid := mget s.grids g
def State.block (s : State) (g b : Nat) : Option Blk := mget s.blocks (bKey g b)
def State.cluster (s : State) (g k : Nat) : Option Clus := mget s.clusters (bKey g k)
def State.team (s : State) (g b t : Nat) : Option Team := mget s.teams (tKey g b t)

def State.modGrid (s : State) (g : Nat) (f : Grid → Grid) : State := { s with grids := mmod s.grids g f }
def State.modBlock (s : State) (g b : Nat) (f : Blk → Blk) : State :=
  { s with blocks := mmod s.blocks (bKey g b) f }
def State.modCluster (s : State) (g k : Nat) (f : Clus → Clus) : State :=
  { s with clusters := mmod s.clusters (bKey g k) f }
def State.modTeam (s : State) (g b t : Nat) (f : Team → Team) : State :=
  { s with teams := mmod s.teams (tKey g b t) f }
def State.modCtx (s : State) (c : Nat) (f : Ctx → Ctx) : State := { s with ctxs := mmod s.ctxs c f }

/-- The position of a party (R113). -/
def State.seqOf (s : State) : Party → Option Seq
  | .team g b t => (s.team g b t).map (·.seq)
  | .block g b => (s.block g b).map (·.lvl.seq)
  | .cluster g k => (s.cluster g k).map (·.lvl.seq)
  | .grid g => (s.grid g).map (·.lvl.seq)

/-- Changes the position of a party. -/
def State.modSeq (s : State) (p : Party) (f : Seq → Seq) : State :=
  match p with
  | .team g b t => s.modTeam g b t fun x => { x with seq := f x.seq }
  | .block g b => s.modBlock g b fun x => { x with lvl := { x.lvl with seq := f x.lvl.seq } }
  | .cluster g k => s.modCluster g k fun x => { x with lvl := { x.lvl with seq := f x.lvl.seq } }
  | .grid g => s.modGrid g fun x => { x with lvl := { x.lvl with seq := f x.lvl.seq } }

/-- The level record of a sequencer level above TEAM. -/
def State.lvlOf (s : State) : Party → Option Lvl
  | .team _ _ _ => none
  | .block g b => (s.block g b).map (·.lvl)
  | .cluster g k => (s.cluster g k).map (·.lvl)
  | .grid g => (s.grid g).map (·.lvl)

/-- Changes a level record. -/
def State.modLvl (s : State) (p : Party) (f : Lvl → Lvl) : State :=
  match p with
  | .team _ _ _ => s
  | .block g b => s.modBlock g b fun x => { x with lvl := f x.lvl }
  | .cluster g k => s.modCluster g k fun x => { x with lvl := f x.lvl }
  | .grid g => s.modGrid g fun x => { x with lvl := f x.lvl }

/-- The block number of a party, where it has one. -/
def partyBlk : Party → Option Nat
  | .team _ b _ => some b
  | .block _ b => some b
  | _ => none

/-- The core that a party stands on, where it has one. -/
def State.coreOf (s : State) : Party → Option Nat
  | .team g b t => (s.team g b t).map (·.core)
  | .block g b => (s.block g b).map (·.core)
  | _ => none

/-- The owner at a scope above a block b, cluster instance k, of grid g: the party whose register or
counter a scope names. -/
def ownerAt (g b k : Nat) : Scope → Party
  | .block => .block g b
  | .cluster => .cluster g k
  | .grid => .grid g
  | _ => .block g b

/-- Free teams of a block: the live teams with their index. -/
def State.teamsOf (s : State) (g b : Nat) : List (Nat × Team) :=
  (List.range 16).filterMap fun t => (s.team g b t).map fun x => (t, x)

/-- The blocks of a grid that are placed, with their blk. -/
def State.blocksOf (s : State) (g : Nat) : List (Nat × Blk) :=
  s.blocks.filterMap fun e => if e.1 / 2 ^ 32 = g then some (e.1 % 2 ^ 32, e.2) else none

/-- The cluster instances of a grid. -/
def State.clustersOf (s : State) (g : Nat) : List (Nat × Clus) :=
  s.clusters.filterMap fun e => if e.1 / 2 ^ 32 = g then some (e.1 % 2 ^ 32, e.2) else none

/-- Every live team of a grid: blk, team. -/
def State.gridTeams (s : State) (g : Nat) : List (Nat × Nat) :=
  s.teams.filterMap fun e =>
    if e.1 / 16 / 2 ^ 32 = g then some (e.1 / 16 % 2 ^ 32, e.1 % 16) else none

/-- Every party of a grid. -/
def State.partiesOf (s : State) (g : Nat) : List Party :=
  .grid g :: ((s.clustersOf g).map fun e => .cluster g e.1) ++
    ((s.blocksOf g).map fun e => .block g e.1) ++ (s.gridTeams g).map fun e => .team g e.1 e.2

/-- Cluster instance of a block: blk div 4 in cluster mode (R93). -/
def instOf (b : Nat) : Nat := b / 4

/-- A fresh number for a grid, copy, launch or message (MODEL). -/
def State.fresh (s : State) : Nat × State := (s.nextId, { s with nextId := s.nextId + 1 })

/-- The next free value (MODEL, log entry 2). -/
def State.draw (s : State) : Nat × State := (Config.freeNat s.seed, { s with seed := s.seed + 1 })

/-- A number whose fields stand at given bit positions. -/
def packFields (l : List (Nat × Nat)) : Nat := l.foldl (fun a e => a + e.2 * 2 ^ e.1) 0

/-! ### Engines and Lamport clocks (R15, R328, R329) -/

/-- Engine identity of the engine a party stands on (R15). DEDUCED, log entry 86. -/
def State.engineOf (s : State) : Party → Nat
  | .team g b t => ((s.team g b t).map (·.core)).getD 0
  | .block g b => ((s.block g b).map (·.core)).getD 0
  | .cluster g k => 0x6000 + ((s.cluster g k).map (·.cluster)).getD 0
  | .grid g => 0x5000 + ((s.grid g).map (·.gseq)).getD 0

/-- The clock of an engine. -/
def State.clock (s : State) (e : Nat) : W64 := zget s.lamport e
/-- A send or local event: own := own + 1 (R329). -/
def State.bump (s : State) (e : Nat) : State := { s with lamport := zset s.lamport e (s.clock e + 1) }
/-- A receipt: own := max(own, carried) + 1 (R329). -/
def State.receive (s : State) (e : Nat) (c : W64) : State :=
  { s with lamport := zset s.lamport e ((if (s.clock e).toNat < c.toNat then c else s.clock e) + 1) }

/-! ### Interrupts (R391, R392) -/

/-- READY (R404). -/
def Registrar.isReady (r : Registrar) : Bool := decide (r.ready.bits = 0xFF ∧ r.ready.error = 0)

/-- A device error stands (R404, R412): nothing is launched or placed. -/
def Registrar.isDown (r : Registrar) : Bool := decide (6 ≤ r.ready.error.toNat)

/-- Table key of a vector of a function. -/
def vecKey (fn v : Nat) : Nat := fn * 64 + v
/-- Vectors of a function: 64 for the physical function, 32 for a virtual one (R391). -/
def vecCount (fn : Nat) : Nat := if fn = 0 then 64 else 32
/-- A vector nobody has touched: masked, as PCIe resets it, and idle (log entry 15). -/
def Vector.idle : Vector := ⟨0, 0, true, false, false, none, 0⟩

/-- The coalescing interval of a function in clk: coal µs of its partition at 850 clk each (R392). -/
def State.coalOf (s : State) (fn : Nat) : Nat :=
  if fn = 0 then 0
  else match mget s.parts (fn - 1) with
    | some p => (p.record.extractLsb' 128 10).toNat * 850
    | none => 0

/-- Sends a vector's message, or sets its pending bit where it is masked (R391). -/
def State.sendVec (s : State) (fn v : Nat) : State :=
  let x := (mget s.vectors (vecKey fn v)).getD Vector.idle
  if x.masked then { s with vectors := mset s.vectors (vecKey fn v) { x with pending := true } }
  else { s with
    vectors := mset s.vectors (vecKey fn v) { x with sent := x.sent + 1 }
    outbox := s.outbox ++ [.irq fn v x.addr x.data] }

/-- Raises a vector (R392): an idle one sends and starts its timer, a timed one is marked. -/
def State.raise (s : State) (fn v : Nat) : State :=
  let x := (mget s.vectors (vecKey fn v)).getD Vector.idle
  let c := s.coalOf fn
  match x.timer with
  | some _ => { s with vectors := mset s.vectors (vecKey fn v) { x with coalesced := true } }
  | none =>
    let s := s.sendVec fn v
    if c = 0 then s
    else { s with vectors := mmod s.vectors (vecKey fn v) fun y => { y with timer := some (s.clk + c) } }

/-- Raises the vector of a queue (R354, R391). -/
def State.raiseQueue (s : State) (q : Nat) : State :=
  match mget s.queues q with
  | some x => s.raise x.fn x.vector
  | none => s

/-- Raises vector 0 of every function (R376, R412). -/
def State.raiseAll (s : State) : State := (List.range 25).foldl (fun s fn => s.raise fn 0) s

/-! ### Trace records (R340, R341) -/

/-- The header of a record (R340). -/
def traceHeader (kind len serial : Nat) : List Byte :=
  natBytes 8 (packFields [(0, serial % 2 ^ 32), (32, len), (40, kind), (48, 0xA5C3)])

/-- Puts a record at the write position of a trace buffer; what it takes of the ring is `len`. -/
def putTrace (mem : Memory) (tb : TraceBuf) (kind len : Nat) (body : List Byte) : Memory × TraceBuf :=
  (writeBytes mem (memKey 0 tb.base + tb.write % 2 ^ tb.lg2) (traceHeader kind (len / 8) tb.serial.toNat ++ body),
   { tb with
      write := tb.write + len, starts := tb.starts ++ [tb.write], serial := tb.serial + 1, lastLost := decide (kind = 1) })

/-- Free space of a trace buffer. -/
def TraceBuf.free (tb : TraceBuf) : Nat := 2 ^ tb.lg2 - (tb.write - tb.consume)

/-- Writes one record, `body` being what follows its header, to a trace buffer whose descriptor stands at memory key `desc`:
a pad to the ring's end where the record does not fit before it, then the record or, for want of space, a lost marker in the
reserve (R341). The reader's `consume` is read from the descriptor, and write, first and lost are written back there (R339). A
pad that would pass the reserve is not written: DESIGN CHOICE, log entry 100. DEDUCED, log entry 18. -/
def traceRecord (mem : Memory) (tb : TraceBuf) (desc kind : Nat) (body : List Byte) : Memory × TraceBuf :=
  let consume := readNat mem (desc + 40) 8
  let tb := { tb with consume := consume, starts := tb.starts.filter fun n => decide (consume ≤ n) }
  let len := 8 + body.length
  let room := 2 ^ tb.lg2 - tb.write % 2 ^ tb.lg2
  let (mem, tb) := if room < len ∧ room + 8 ≤ tb.free then putTrace mem tb 0 room [] else (mem, tb)
  let room := 2 ^ tb.lg2 - tb.write % 2 ^ tb.lg2
  let (mem, tb) :=
    if len ≤ room ∧ len + 8 ≤ tb.free then putTrace mem tb kind len body
    else
      let tb := { tb with lost := tb.lost + 1 }
      if tb.lastLost ∨ tb.free < 8 then (mem, tb) else putTrace mem tb 1 8 []
  let mem := writeNat (writeNat mem (desc + 28) 4 tb.lost.toNat) (desc + 48) 8 tb.write
  (writeNat mem (desc + 32) 8 (tb.starts.headD tb.write), tb)

/-- Writes a record to a context's trace buffer, if it has one; a record follows a replayed flag while the grid runs from its
script (R335, R340). -/
def State.trace (s : State) (c kind : Nat) (body : List Byte) : State :=
  match mget s.ctxs c with
  | some x => match x.trace with
    | some tb =>
      let (m, tb) := if ((x.replay.map (·.script)).getD []) ≠ [] then traceRecord s.mem tb x.desc 7 [] else (s.mem, tb)
      let (m, tb) := traceRecord m tb x.desc kind body
      { s with mem := m, ctxs := mset s.ctxs c { x with trace := some tb } }
    | none => s
  | none => s

/-- The prefix of a record: stamp, command sequence number, queue, engine (R340). -/
def tracePrefix (stamp csn : W64) (queue engine : Nat) : List Byte :=
  natBytes 8 stamp.toNat ++ natBytes 8 csn.toNat ++ natBytes 8 (packFields [(0, queue), (32, engine)])

/-- A trace record of an engine for a context: the clock advances and the record carries it (R329). -/
def State.traceBy (s : State) (c engine kind : Nat) (body : List Byte) : State :=
  match mget s.ctxs c with
  | some x =>
    if x.trace.isNone then s
    else
      let s := s.bump engine
      s.trace c kind (tracePrefix (s.clock engine) x.csn x.queue engine ++ body)
  | none => s

/-- A health event (R345): to the health log, and to the context's trace buffer when it concerns one, with vector 0 of its
partition's function (R391). A registrar that has failed writes none (R412). DESIGN CHOICE, log entry 73. -/
def State.health (s : State) (ctx : Option Nat) (source unit index : Nat) (value addr : W64) : State :=
  if s.reg.ready.error = 9 then s
  else
  let body := natBytes 2 source ++ natBytes 2 unit ++ natBytes 4 index ++ natBytes 8 value.toNat ++
    natBytes 8 addr.toNat
  let (csn, q, e) := match ctx.bind (mget s.ctxs) with
    | some x => (x.csn, x.queue, unit)
    | none => (0, 0, 0x3007)
  let s := s.bump e
  let rec_ := traceHeader 5 7 s.reg.healthSerial.toNat ++ tracePrefix (s.clock e) csn q e ++ body
  let full := decide (4096 ≤ s.reg.health.length)
  let s := { s with reg := { s.reg with
    health := (if full then s.reg.health.drop 1 else s.reg.health) ++ [rec_]
    overwritten := if full then s.reg.overwritten + 1 else s.reg.overwritten
    healthSerial := s.reg.healthSerial + 1 } }
  match ctx.bind (mget s.ctxs), ctx with
  | some x, some c => (s.trace c 5 (tracePrefix (s.clock e) csn q e ++ body)).raise (x.part + 1) 0
  | _, _ => s

/-- A health event of a partition that concerns no context (R345, R391). -/
def State.healthPart (s : State) (part : Nat) (source unit index : Nat) (value addr : W64) : State :=
  if s.reg.ready.error = 9 then s else (s.health none source unit index value addr).raise (part + 1) 0

/-! ### Faults (R291 to R295) -/

/-- What a failed check says: class, cause, address, lane, slot of the member, scope level, resume mask. -/
structure FInfo where
  cls : Nat
  cause : Nat := 0
  addr : W64 := 0
  lane : Option Nat := none
  slot : Nat := 0
  scope : Option Scope := none
  mask : Mask := 0
  /-- The PC of the record where it is not the member's: 0x50, 0x51 (R292). -/
  pc : Option W32 := none
  /-- Team and block named instead of the raising party's (R109). -/
  team : Option (Nat × Nat) := none
  kind : StopKind := .reissue
deriving DecidableEq, Repr

/-- The summary word of a mask (R68): bit k is set when mask word k is not zero. -/
def maskSum (m : Mask) : Nat :=
  (List.range 32).foldl (fun a k => if m.extractLsb' (32 * k) 32 = 0 then a else a + 2 ^ k) 0

/-- The lanes of a mask below n, ascending. -/
def lanesOf (n : Nat) (m : Mask) : List Nat := (List.range n).filter fun l => m.getLsbD l

/-- The full mask of n lanes. -/
def fullMask (n : Nat) : Mask := BitVec.ofNat 1024 (2 ^ n - 1)

/-- A mask of listed lanes. -/
def maskOf (ls : List Nat) : Mask := BitVec.ofNat 1024 (ls.foldl (fun a l => a + 2 ^ l) 0)

/-- The scope level that a fault record names: the one the check names (LANE for a member of LANE scope),
else the raising party's level (R292). -/
def recScope (p : Party) (f : FInfo) : Scope := f.scope.getD p.scope

/-- The fault record (R292). -/
def faultRecord (stamp csn : W64) (queue : Nat) (pc : W32) (tokseq engine : Nat) (p : Party)
    (detached : Bool) (serial depth : Nat) (f : FInfo) : BitVec 512 :=
  let lane := match f.lane with
    | some l => l
    | none => 0xFFFF
  let word := if f.mask = 0 then 0 else (f.mask.extractLsb' (32 * (lane / 32)) 32).toNat
  let blk := match f.team with
    | some (b, _) => b
    | none => (partyBlk p).getD 0xFFFFFFFF
  let team := match f.team with
    | some (_, t) => t
    | none => match p with
      | .team _ _ t => t
      | _ => 0xFF
  BitVec.ofNat 512 (packFields [(448, stamp.toNat), (384, csn.toNat), (352, queue),
    (288, f.addr.toNat), (256, word), (224, maskSum f.mask), (192, pc.toNat), (176, tokseq),
    (160, engine), (128, blk), (112, lane), (104, team),
    (96, (if f.mask = 0 then 0 else 1) + (if detached then 2 else 0)), (64, serial % 2 ^ 32),
    (32, depth), (24, (recScope p f).rank), (16, f.cause), (0, f.cls)])

/-- The host administrator's copy of a record of a confidential context (R293): class, cause, scope, depth, serial, queue, seq and
stamp, with flags [98]. -/
def hostView (r : BitVec 512) : BitVec 512 :=
  let keep (lo n : Nat) : BitVec 512 := r &&& BitVec.ofNat 512 ((2 ^ n - 1) * 2 ^ lo)
  keep 0 8 ||| keep 16 8 ||| keep 24 3 ||| keep 32 4 ||| keep 64 32 ||| keep 352 32 ||| keep 384 64 ||| keep 448 64 |||
    BitVec.ofNat 512 (2 ^ 98)

/-- Entries of a context's fault buffer (R294). -/
def bufEntries (c : Ctx) : Nat := 2 ^ c.flg2 / 64

/-- The entry of a serial is free: no written and undisposed record stands in it (R294). -/
def entryFree (c : Ctx) (serial : Nat) : Bool :=
  c.undisposed.all fun n => decide (n % bufEntries c ≠ serial % bufEntries c)

/-- The positions that an image holds. -/
def Image.seqs (i : Image) : List Seq :=
  (i.grid.map (·.lvl.seq)).toList ++ (i.clusters.map (·.2.lvl.seq)) ++ (i.blocks.map (·.2.lvl.seq)) ++ i.teams.map (·.2.seq)

/-- Whether what stands stopped with a serial of a context is saved: its record is written when it is restored (R303). -/
def savedStop (s : State) (c serial : Nat) : Bool :=
  s.images.any fun e => decide ((match e.2.grid with
      | some gr => some gr.ctx
      | none => (s.grid e.2.gid).map (·.ctx)) = some c) &&
    ((e.2.seqs.any fun q => decide (q.stop.map (·.serial) = some serial)) ||
      e.2.copies.any fun x => decide (x.stop = some serial))

/-- A held record of a context enters its fault buffer; of a confidential context the administrator's copy leaves the device (R293,
R294). -/
def putHeld (s : State) (c : Nat) (x : Ctx) (n : Nat) (r : BitVec 512) : State :=
  { s with
    mem := writeNat s.mem (memKey 0 (x.fbase + 64 * (n % bufEntries x))) 64 r.toNat
    ctxs := mset s.ctxs c { x with heldRecs := mdel x.heldRecs n, undisposed := sadd1 x.undisposed n }
    outbox := if x.conf then s.outbox ++ [Outgoing.hostRecord x.queue (hostView r)] else s.outbox }

/-- Writes held records in serial order while their entries are free, raising the queue's vector after
each (R294); the record of what is saved stays held (R303). Of a confidential context's records the host administrator has its own
copy, whose way to it is open (R293, R390). DESIGN CHOICE, log entry 112. -/
def writeHeld (c : Nat) : Nat → State → State
  | 0, s => s
  | f + 1, s =>
    match mget s.ctxs c with
    | some x => match x.heldRecs with
      | (n, r) :: _ =>
        if entryFree x n && decide (x.flg2 ≠ 0) && !(savedStop s c n) then
          writeHeld c f ((putHeld s c x n r).raiseQueue x.queue)
        else s
      | [] => s
    | none => s

/-- The PC at which a party stands: a level's PC, a team's running group's (R70). -/
def teamPc (t : Team) : W32 :=
  match t.awaiting with
  | some pc => pc
  | none =>
    let gs := match t.mergeAt with
      | some m => match t.groups.filter (fun (g : W32 × Mask) => decide (g.1 ≠ m)) with
        | [] => t.groups
        | l => l
      | none => t.groups
    match gs with
    | g :: _ => g.1
    | [] => 0

def State.pcOf (s : State) : Party → W32
  | .team g b t => ((s.team g b t).map teamPc).getD 0
  | p => ((s.seqOf p).map (·.pc)).getD 0

/-- Freezes a grid (R297). -/
def State.freeze (s : State) (g : Nat) : State := s.modGrid g fun x => { x with frozen := true }

/-- Whether a party is a detached team. -/
def State.detachedOf (s : State) : Party → Bool
  | .team g b t => ((s.team g b t).map (·.detached)).getD false
  | _ => false

/-- What a stopping or saved party's wait leaves: at a BAR that has arrived, a LAUNCH that is on its way, in EXIT's waits
(R274). -/
def keptWait : Option Wait → Option Wait
  | some (.bar k p n) => some (.bar k p n)
  | some (.launch i d) => some (.launch i d)
  | some (.launched d x) => some (.launched d x)
  | some .exit => some .exit
  | _ => none

/-- A party stops with a record, its resume mask kept where the fault has one (R236, R291). -/
def stopParty (s : State) (p : Party) (f : FInfo) (r : BitVec 512) (serial : Nat) : State :=
  let s := s.modSeq p fun q => { q with
    stop := some ⟨r, serial, f.kind⟩, wait := keptWait q.wait, stepping := false, alone := none }
  match p with
  | .team g b t => s.modTeam g b t fun x => { x with
      resume := if f.mask = 0 then x.resume else some (f.slot, f.mask) }
  | _ => s

/-- What else a fault does: a breakpoint or step freezes an all-stop grid (R297), a full log has the grid pre-empted (R324), a
filler's fault ends its fill (R232). -/
def faultSides (s : State) (g : Nat) (gr : Grid) (cls : Nat) : State :=
  let s := if cls = 0x51 ∧ gr.allstop then s.freeze g else s
  let s := if cls = 0x52 then s.modGrid g fun x => { x with status := .saving } else s
  match gr.launcher with
  | .fill id => { s with fills := mmod s.fills id fun x => { x with ended := some false } }
  | _ => s

/-- A fault of a member that is issued alone, the rest of its chain having committed: resumption issues that member alone
(R53). -/
def keptAlone (f : FInfo) (alone : Option Nat) : FInfo :=
  match f.kind, alone with
  | .reissue, some k => { f with kind := .alone k }
  | _, _ => f

/-- What every fault does (R291, R292, R294): the raising engine's clock advances, what raised it stops, one record takes the
context's next serial and is written to the fault buffer, or held while its entry is not free. -/
def raiseRecord (stop : State → FInfo → BitVec 512 → Nat → State) (s : State) (p : Party) (f : FInfo) : State :=
  match s.grid p.gridNo with
  | none => s
  | some gr =>
    match mget s.ctxs gr.ctx with
    | none => s
    | some c =>
      let e := s.engineOf p
      let pc := f.pc.getD (mkPc (pcPkt (s.pcOf p)) f.slot)
      let tok := ((s.seqOf p).bind (·.tok)).map fun t => t.seq.toNat
      let f := keptAlone f ((s.seqOf p).bind (·.alone))
      let r := faultRecord (s.clock e + 1) gr.csn gr.queue pc (tok.getD 0) e p (s.detachedOf p) c.fserial gr.depth f
      let s := (s.bump e).modCtx gr.ctx fun c => { c with
        fserial := c.fserial + 1, heldRecs := mset c.heldRecs c.fserial r }
      writeHeld gr.ctx (c.heldRecs.length + 1) (faultSides (stop s f r c.fserial) p.gridNo gr f.cls)

/-- TAKING A FAULT: its record, and the party stopped at the faulting member with its resume mask (R291). -/
def takeFault (s : State) (p : Party) (f : FInfo) : State := raiseRecord (fun s f r n => stopParty s p f r n) s p f

/-- A copy that finds the log full stands with its fault held; its party goes on (R324). -/
def stopCopy (s : State) (id : Nat) (c : Copy) : State :=
  raiseRecord (fun s _ _ n => { s with copies := mmod s.copies id fun x => { x with stop := some n } }) s c.party
    { cls := 0x52, pc := some c.pc, addr := c.dst }

/-- The party of a grid or its children whose stop has a serial. -/
def State.findStop (s : State) (g serial : Nat) : Option Party :=
  (s.partiesOf g).find? fun p => match (s.seqOf p).bind (·.stop) with
    | some st => decide (st.serial = serial)
    | none => false

/-- Marks a record's stop as disposed of: its entry frees, and held records are written (R294). -/
def State.freeEntry (s : State) (c serial : Nat) : State :=
  let s := s.modCtx c fun x => { x with undisposed := sdel1 x.undisposed serial }
  writeHeld c (((mget s.ctxs c).map (·.heldRecs.length)).getD 0) s

/-- A position goes on after its stop at a PC: from the first slot, from the PC it stands at, or the member that is to issue
alone; it passes an entry at its PC once (R295, R296). -/
def goOnSeq (pc : W32) (step : Bool) (q : Seq) : Seq :=
  { q with
    stop := none, passBrk := some pc, stepping := step
    alone := match q.stop with
      | some ⟨_, _, .alone k⟩ => some k
      | _ => none }

/-- A party goes on after its stop. -/
def goOn (s : State) (p : Party) (step : Bool) : State := s.modSeq p (goOnSeq (s.pcOf p) step)

/-- The copies of a grid that stand stopped with a serial go on. -/
def goOnCopies (s : State) (g serial : Nat) : State :=
  { s with copies := s.copies.map fun e =>
      if e.2.party.gridNo = g ∧ e.2.stop = some serial then (e.1, { e.2 with stop := none }) else e }

/-- DISPOSING OF A STOP by resume or step (R295): a party, or a copy that the full log has stopped, may go on. None where the
serial has no undisposed stop whose record is written. -/
def disposeStop (s : State) (g serial : Nat) (step : Bool) : Option State :=
  (s.grid g).bind fun gr =>
  (mget s.ctxs gr.ctx).bind fun c =>
  if decide (serial ∈ c.undisposed) then
    match s.findStop g serial with
    | some p => some ((goOn s p step).freeEntry gr.ctx serial)
    | none =>
      if s.copies.any fun e => decide (e.2.party.gridNo = g ∧ e.2.stop = some serial) then
        some ((goOnCopies s g serial).freeEntry gr.ctx serial)
      else none
  else none

end Sys2Proof.Machine
end

