-- ==== Sys2Proof/Machine/Access.lean ====
section
/-! DEFINITION. How an access is classified, translated and checked (R221 to R229, R235): windows, the
page-table walk, keys and key tags, regeneration and migration, range locks, presence and hold bits. -/

namespace Sys2Proof.Machine

/-- A field of a partition record (R384). -/
def pfield (r : BitVec 512) (lo len : Nat) : Nat := (r.extractLsb' lo len).toNat

/-- First byte and size of a partition's range of tier 1 (0) or tier 2 (1), from its GiB fields (R384). -/
def tierRange (r : BitVec 512) (tier : Nat) : Nat × Nat :=
  if tier = 0 then (pfield r 192 16 * 2 ^ 30, pfield r 208 16 * 2 ^ 30)
  else (pfield r 224 16 * 2 ^ 30, pfield r 240 16 * 2 ^ 30)

/-- Whether [pa, pa + n) lies in the partition's range of a tier. -/
def inTier (r : BitVec 512) (tier pa n : Nat) : Bool :=
  let (b, z) := tierRange r tier
  decide (tier < 2 ∧ b ≤ pa ∧ pa + n ≤ b + z)

/-- The device area: the highest 1 MiB of the partition's tier 1 range (R165). -/
def inDeviceArea (r : BitVec 512) (tier pa : Nat) : Bool :=
  let (b, z) := tierRange r 0
  decide (tier = 0 ∧ b + z ≤ pa + 2 ^ 20 ∧ pa < b + z)

/-- Whether a key lies in the partition's key set (R384). -/
def inKeySet (r : BitVec 512) (key : Nat) : Bool :=
  decide (pfield r 144 8 ≤ key ∧ key ≤ pfield r 144 8 + pfield r 152 8)

/-- Bytes that the module has in a tier (R16); host and peer addresses are 52 bits (R223). -/
def tierBytes (tier : Nat) : Nat :=
  if tier = 0 then 768 * 2 ^ 30 else if tier = 1 then 2048 * 2 ^ 30 else 2 ^ 52

/-- What a walk of the page table finds. -/
inductive Walk where
  | leaf (e : W64) (size : Nat)
  | absent
  | malformed
  | regen (e : W64) (size : Nat)
deriving DecidableEq, Repr

/-- Shift and index bits of the five levels (R224). -/
def walkLevels : List (Nat × Nat) := [(48, 8), (39, 9), (30, 9), (21, 9), (16, 5)]

/-- A leaf of a page of a size that is malformed: at level 0 or 1, with a reserved bit set, or a frame not aligned to its page
(R226). -/
def leafBad (e : W64) (size : Nat) : Bool :=
  decide (2 ^ 30 < size ∨ e.extractLsb' 60 4 ≠ 0 ∨ e.extractLsb' 11 5 ≠ 0 ∨ e.extractLsb' 5 3 ≠ 0 ∨
    (e.extractLsb' 16 36).toNat * 2 ^ 16 % size ≠ 0)

/-- The walk from a level on, its table at `pa` of `tier` (R224 to R226). `small` says whether leaves may
stand at this level: not at levels 0 and 1. -/
def walkFrom (mem : Memory) (r : BitVec 512) (va : Nat) : List (Nat × Nat) → Nat → Nat → Walk
  | [], _, _ => .malformed
  | (sh, bits) :: rest, tier, pa =>
    let e : W64 := BitVec.ofNat 64 (readNat mem (memKey tier (pa + 8 * (va / 2 ^ sh % 2 ^ bits))) 8)
    let v := e.getLsbD 0
    if e.getLsbD 1 then
      if !v then (if e.getLsbD 8 then .regen e (2 ^ sh) else .absent)
      else if leafBad e (2 ^ sh) then .malformed
      else .leaf e (2 ^ sh)
    else if !v then .absent
    else if e.extractLsb' 52 12 ≠ 0 ∨ e.extractLsb' 3 5 ≠ 0 then .malformed
    else
      let nx := (e.extractLsb' 8 44).toNat * 256
      let t := if e.getLsbD 2 then 1 else 0
      match rest with
      | [] => .malformed
      | (_, nb) :: _ =>
        if nx % (8 * 2 ^ nb) = 0 ∧ inTier r t nx (8 * 2 ^ nb) then walkFrom mem r va rest t nx else .malformed

/-- The walk of an address space of a partition from its root (R224, R384). -/
def walkPage (mem : Memory) (r : BitVec 512) (space va : Nat) : Walk :=
  let root := r.extractLsb' (256 + 64 * space) 64
  if root.getLsbD 0 then
    walkFrom mem r va walkLevels (if root.getLsbD 1 then 1 else 0) ((root.extractLsb' 11 41).toNat * 2 ^ 11)
  else .absent

/-- What an access asks for (R226). -/
inductive Acc where
  | load | store | rmw | fetch
deriving DecidableEq, Repr

/-- Whether a leaf permits an access (R226). -/
def permitted (e : W64) : Acc → Bool
  | .load => e.getLsbD 2
  | .store => e.getLsbD 3
  | .rmw => e.getLsbD 2 && e.getLsbD 3
  | .fetch => e.getLsbD 4

/-- What a translation leaves: the key tags that its page binds and checks, as table key of its first 64 KiB frame, count of
frames and the leaf's key (R227; the host and peer tiers have none), and the TLB miss that it was
(R228). -/
structure Bind where
  first : Nat
  frames : Nat
  key : BitVec 8
  miss : Option Miss
deriving DecidableEq, Repr

/-- A translation: tier, physical address, the frames it binds; or why there is none. `alias` names the frames of the page
where R227's mismatch was met now. `dead`: the leaf names a byte past what the module has (R16). -/
inductive Xl where
  | ok (tier pa : Nat) (bind : Bind)
  | fault (cls cause : Nat) (alias_ : Option Bind)
  | regen (base size : Nat)
  | migrating (base : Nat)
  | dead (pa : Nat)
deriving DecidableEq, Repr

/-- Table key of a 64 KiB frame's tag (R227). DEDUCED, log entry 39. -/
def tagKey (tier pa : Nat) : Nat := memKey tier pa / 65536

/-- The key tags of frames. -/
def tagsOf (s : State) (b : Bind) : AMap KeyTag :=
  s.keyTags.filter fun t => decide (b.first ≤ t.1 ∧ t.1 < b.first + b.frames)

/-- The frames of the page of a leaf, with its key. -/
def leafBind (e : W64) (size : Nat) : Bind :=
  let tier := (e.extractLsb' 9 2).toNat
  if tier < 2 then ⟨tagKey tier ((e.extractLsb' 16 36).toNat * 2 ^ 16), size / 65536, e.extractLsb' 52 8, none⟩
  else ⟨0, 0, e.extractLsb' 52 8, none⟩

/-- Checks of a leaf in R226's order: permission (the device area permits nothing, R165), key set, the tag of each frame of
the page (R227). -/
def useLeaf (s : State) (r : BitVec 512) (va : Nat) (e : W64) (size : Nat) (perm : Bool) : Xl :=
  let tier := (e.extractLsb' 9 2).toNat
  let key := e.extractLsb' 52 8
  let pa := (e.extractLsb' 16 36).toNat * 2 ^ 16 + va % size
  if !perm || inDeviceArea r tier pa then .fault 0x11 0 none
  else if if tier < 2 then !(inKeySet r key.toNat) else decide (key ≠ 0) then .fault 0x12 0 none
  else if tierBytes tier ≤ pa then .dead pa
  else
    let b := leafBind e size
    let tags := tagsOf s b
    if tags.any fun t => decide (t.2.key ≠ key) then .fault 0x13 0 (some b)
    else if tags.any (·.2.aliased) then .fault 0x13 0 none
    else .ok tier pa b

/-- The entry that one TLB holds for an address (R228). -/
def tlbIn (s : State) (engine part space va : Nat) : Option TlbEnt :=
  s.tlb.find? fun t => decide (t.engine = engine ∧ t.part = part ∧ t.space = space ∧ t.base ≤ va ∧
    va < t.base + t.size)

/-- Whether a fill of the page is under way for a grid (R231). -/
def fillOf (s : State) (part space base : Nat) : Option Fill :=
  (s.fills.map (·.2)).find? fun f => decide (f.part = part ∧ f.space = space ∧ f.base = base)

/-- The die TLB that stands behind an engine's own (R228): 96 + die. -/
def dieTlb (engine : Nat) : Nat := if engine < 96 then 96 + engine / 24 else engine

/-- A translation by an engine whose TLB does not hold the page (R228). -/
def missed (m : Miss) : Xl → Xl
  | .ok tier pa b => .ok tier pa { b with miss := some m }
  | x => x

/-- Translates a global address for an engine on behalf of a grid (R224 to R233). A leaf that the engine's TLB, or its die's,
holds is used as it is; otherwise the page table is walked. The filler of a page uses its leaf as though V were 1, with R and
W set (R231). -/
def translate (s : State) (engine part space grid : Nat) (acc : Acc) (va : Nat) : Xl :=
  match mget s.parts part with
  | none => .fault 0x10 0 none
  | some p =>
    if (s.migrs.any fun e => decide (e.2.part = part ∧ e.2.space = space) && (match e.2.marked with
        | some (b, z) => decide (b ≤ va ∧ va < b + z)
        | none => false)) then .migrating (va / 65536 * 65536)
    else match tlbIn s engine part space va with
      | some t => useLeaf s p.record va t.leaf t.size (permitted t.leaf acc)
      | none => missed ⟨engine, part, space, va / 65536, grid⟩ <| match tlbIn s (dieTlb engine) part space va with
        | some t => useLeaf s p.record va t.leaf t.size (permitted t.leaf acc)
        | none => match walkPage s.mem p.record space va with
          | .absent => .fault 0x10 0 none
          | .malformed => .fault 0x10 1 none
          | .leaf e size => useLeaf s p.record va e size (permitted e acc)
          | .regen e size =>
            let base := va / size * size
            match fillOf s part space base with
            | some f =>
              if f.grid ≠ grid then .regen base size
              else if leafBad e size then .fault 0x10 1 none
              else useLeaf s p.record va e size (decide (acc ≠ .fetch) || permitted e acc)
            | none => .regen base size

/-- Sets the aliased bit of the frames of a page that are bound to another key than its leaf's, and drops every TLB entry
that maps one of them (R227). -/
def setAliased (s : State) (b : Bind) : State :=
  let hit (t : Nat × KeyTag) : Bool := decide (b.first ≤ t.1 ∧ t.1 < b.first + b.frames ∧ t.2.key ≠ b.key)
  let ks := (s.keyTags.filter hit).map (·.1)
  { s with
    keyTags := s.keyTags.map fun t => if hit t then (t.1, { t.2 with aliased := true }) else t
    tlb := s.tlb.filter fun t =>
      let l := leafBind t.leaf t.size
      !ks.any fun k => decide (l.first ≤ k ∧ k < l.first + l.frames) }

/-- Binds the unbound frames of a page to the key of the first access (R227). -/
def bindTag (s : State) (b : Bind) : State :=
  let old := tagsOf s b
  if old.length = b.frames then s
  else { s with keyTags :=
    (s.keyTags.filter fun t => decide (t.1 < b.first)) ++
    ((List.range b.frames).map fun i => (b.first + i, (mget old (b.first + i)).getD ⟨b.key, false⟩)) ++
    s.keyTags.filter fun t => decide (b.first + b.frames ≤ t.1) }

/-- Counts an event of a grid on a core (R344). -/
def State.count (s : State) (g core n k : Nat) : State :=
  s.modGrid g fun x => { x with
    counters := mset x.counters (core * 256 + n) (((mget x.counters (core * 256 + n)).getD 0) + k) }

/-- Entries that an engine's TLB holds. -/
def tlbRoom (engine : Nat) : Nat := if engine < 96 then 512 else 16384

/-- An entry enters its engine's TLB, the oldest going where it is full. DESIGN CHOICE, log entry 38. -/
def tlbFill (s : State) (t : TlbEnt) : State :=
  let mine := s.tlb.filter fun x => decide (x.engine = t.engine)
  let others := s.tlb.filter fun x => decide (x.engine ≠ t.engine)
  { s with tlb := others ++ mine.drop (mine.length + 1 - tlbRoom t.engine) ++ [t] }

/-- A page that is marked as migrating is not translated (R233). -/
def pageMoving (s : State) (part space va : Nat) : Bool :=
  s.migrs.any fun e => decide (e.2.part = part ∧ e.2.space = space) && (match e.2.marked with
    | some (b, z) => decide (b ≤ va ∧ va < b + z)
    | none => false)

/-- The leaf that ends a miss: of the die's TLB, else of a walk, which fills that TLB as well (R228). -/
def missLeaf (s : State) (m : Miss) : Option (TlbEnt × State) :=
  let va := m.page * 65536
  match tlbIn s (dieTlb m.engine) m.part m.space va with
  | some t => some (t, s)
  | none => (mget s.parts m.part).bind fun p => match walkPage s.mem p.record m.space va with
    | .leaf e size =>
      let t : TlbEnt := ⟨dieTlb m.engine, m.part, m.space, va / size * size, size, e⟩
      some (t, tlbFill s t)
    | _ => none

/-- A miss ends: the leaf it has found, if any, is cached, in a core's TLB and in its die's (R228). -/
def endMiss (s : State) (m : Miss) : State :=
  let s := { s with misses := s.misses.filter fun x => decide (x ≠ m) }
  match missLeaf s m with
  | some (t, s) => if m.engine < 96 then tlbFill s { t with engine := m.engine } else s
  | none => s

/-- The misses of an engine that are under way. -/
def missesOf (s : State) (engine : Nat) : List Miss := s.misses.filter fun x => decide (x.engine = engine)

/-- A miss is under way from now on, and counts for its grid where a core has it; a core with 64 others waits until the first of
them ends (R228, R344). -/
def noteMiss (s : State) : Option Miss → State
  | none => s
  | some m =>
    if m ∈ s.misses then s
    else
      let s := match missesOf s m.engine with
        | x :: rest => if m.engine < 96 ∧ 63 ≤ rest.length then endMiss s x else s
        | [] => s
      let s := { s with misses := s.misses ++ [m] }
      if m.engine < 96 then s.count m.grid m.engine 0x14 1 else s

/-- What an access that passes leaves of its translation. -/
def bindOne (s : State) (b : Bind) : State := noteMiss (bindTag s b) b.miss

/-! ### Windows (R221, R222) -/

inductive Window where
  | global | scratch | csm | frame
deriving DecidableEq, Repr

/-- The window of an address (R221). -/
def windowOf (a : Nat) : Option Window :=
  if a < 2 ^ 56 then some .global
  else if a / 2 ^ 52 = 0xFF0 then some .scratch
  else if a / 2 ^ 52 = 0xFF1 then some .csm
  else if a / 2 ^ 52 = 0xFF2 then some .frame
  else none

/-- The first failing byte of [a, a + n) by R222, given the scratch and CSM sizes: bytes are taken from
the lowest up; a byte in another window than the first fails too. -/
def windowBad (scratch csm a : Nat) : Nat → Option Nat
  | 0 => none
  | n + 1 =>
    match windowBad scratch csm a n with
    | some b => some b
    | none =>
      let b := (a + n) % 2 ^ 64
      let ok : Bool := match windowOf b with
        | some .global => decide (windowOf a = some .global)
        | some .scratch => decide (windowOf a = some .scratch ∧ b % 2 ^ 52 < scratch)
        | some .csm => decide (windowOf a = some .csm ∧ b % 2 ^ 52 < csm)
        | _ => false
      if ok then none else some b

/-- What a checked access may do: memory segments (key, bytes) with the tier of the first, and the frames
it binds; or why not. Windows other than global report tier 9. -/
inductive AccRes where
  | ok (segs : List (Nat × Nat)) (tier : Nat) (binds : List Bind)
  | fault (cls cause : Nat) (addr : W64) (alias_ : Option Bind)
  | lines (ls : List Nat)
  | page (base : Nat)
  | regen (base size : Nat)
  | dead (pa : Nat)
deriving DecidableEq, Repr

/-- The address space that a grid's accesses use, as the tag of a lock (R206). -/
def spaceKey (part space : Nat) : Nat := part * 4 + space

/-- The lowest locked byte of [a, a + n) in an address space, and whether a destination entry locks it
(R207). -/
def lockedAt (s : State) (sk a n : Nat) : Option (Nat × Bool) :=
  let hits := (s.copies.flatMap fun c => c.2.locks).filterMap fun l =>
    if l.1 = sk ∧ l.2.1 < a + n ∧ a ≤ l.2.2.1 then some (max a l.2.1, l.2.2.2) else none
  hits.foldl (fun m h => match m with
    | none => some h
    | some x => some (if h.1 < x.1 then h else x)) none

/-- Where an access comes from: the grid, its partition, space and sizes, the block for the scratch
window, the engine that translates. -/
structure Origin where
  g : Nat
  part : Nat
  space : Nat
  csm : Nat
  scratch : Nat
  blk : Nat
  engine : Nat
deriving DecidableEq, Repr

/-- The origin of a team's accesses. -/
def originOf (gr : Grid) (g b core : Nat) : Origin :=
  ⟨g, gr.part, gr.space, gr.lrec.csm * 64, gr.lrec.scratch * 128, b, core⟩

/-- The memory byte of this device that a peer address names: bit 41 selects the tier (R398). -/
def peerByte (pa : Nat) : Nat × Nat := if pa / 2 ^ 41 % 2 = 1 then (1, pa % 2 ^ 41) else (0, pa % 2 ^ 40)

/-- The import entry that admits an access of n bytes by a partition of a device (R398). -/
def importFor (s : State) (dev part pa n : Nat) : Option ImportEnt :=
  let (t, b) := peerByte pa
  (s.parts.filter fun e => inTier e.2.record t b n).findSome? fun e => (e.2.imports.map (·.2)).find? fun x =>
    decide (x.dev = dev ∧ x.part = part ∧ x.first.toNat ≤ pa % 2 ^ 42 ∧ pa % 2 ^ 42 + n ≤ x.last.toNat + 1)

/-- Whether a byte of peer memory is this device's own: one of those stays a peer byte only where no import entry admits its
access, which the source handles as poison (R398). -/
def unadmitted (s : State) (key : Nat) : Bool := decide (key / 2 ^ 52 = 3 ∧ key % 2 ^ 52 / 2 ^ 42 = s.reg.devno.toNat)

/-- Where a translated access of n bytes goes: a peer address that names the device itself is performed locally under the check
of the import tables, with the entry's key under R227; or what that meets (R398). -/
def ownPeer (s : State) (part n tier pa : Nat) (b : Bind) : Xl :=
  if unadmitted s (memKey tier pa) then match importFor s s.reg.devno.toNat part pa n with
    | some x =>
      let (t, a) := peerByte pa
      let b : Bind := ⟨tagKey t a, 1, x.key, b.miss⟩
      match mget s.keyTags (tagKey t a) with
      | some k => if k.key ≠ x.key then .fault 0x13 0 (some b) else if k.aliased then .fault 0x13 0 none else .ok t a b
      | none => .ok t a b
    | none => .ok tier pa b
  else .ok tier pa b

/-- Translates [a, a + n) of the global window, page by page (R235 order 3). -/
def xlRange (s : State) (o : Origin) (acc : Acc) (a n : Nat) : AccRes :=
  let go (x : Nat) (k : Nat → Nat → Bind → AccRes) : AccRes :=
    match (match translate s o.engine o.part o.space o.g acc x with
      | .ok tier pa b => ownPeer s o.part (min n (65536 - x % 65536)) tier pa b
      | r => r) with
    | .ok t a b => k t a b
    | .fault c u al => .fault c u (BitVec.ofNat 64 x) al
    | .regen b z => .regen b z
    | .migrating b => .page b
    | .dead pa => .dead pa
  go a fun t pa b =>
    let room := 65536 - a % 65536
    if n ≤ room then .ok [(memKey t pa, n)] t [b]
    else go (a + room) fun t2 pa2 b2 =>
      .ok [(memKey t pa, room), (memKey t2 pa2, n - room)] t [b, b2]

/-- The check of one access (R235): alignment, window, translation, range locks, presence and hold. -/
def checkAccess (s : State) (o : Origin) (acc : Acc) (align : Nat) (va : W64) (n : Nat) : AccRes :=
  let a := va.toNat
  if a % align ≠ 0 then .fault 0x15 0 va none
  else match windowBad o.scratch o.csm a n with
    | some b => .fault 0x18 0 (BitVec.ofNat 64 b) none
    | none => match windowOf a with
      | some .global => match xlRange s o acc a n with
        | .ok segs t bs => match lockedAt s (spaceKey o.part o.space) a n with
          | some (b, d) => .fault 0x14 (if d then 1 else 0) (BitVec.ofNat 64 b) none
          | none => .ok segs t bs
        | r => r
      | some .scratch =>
        let off := a % 2 ^ 52
        let ls := (List.range ((off + n - 1) / 128 - off / 128 + 1)).map (· + off / 128)
        match s.block o.g o.blk with
        | none => .fault 0x18 0 va none
        | some b =>
          let bad := ls.filter fun l => decide (l ∈ b.absent) || (decide (acc ≠ .load) && decide (l ∈ b.held))
          if bad.isEmpty then .ok [(scrKey o.g o.blk off, n)] 9 [] else .lines bad
      | some .csm => .ok [(csmKey o.g (a % 2 ^ 52), n)] 9 []
      | _ => .fault 0x18 0 va none

/-- Keys of the bytes of segments, in order. -/
def segKeys (segs : List (Nat × Nat)) : List Nat :=
  segs.flatMap fun e => (List.range e.2).map (· + e.1)

/-- Whether a byte lies in a poisoned 64-byte granule, or counts as one (R237, R398). -/
def poisoned (s : State) (key : Nat) : Bool := decide (key / 64 ∈ s.poison) || unadmitted s key

/-- Whether some byte of segments is poisoned. -/
def segsPoisoned (s : State) (segs : List (Nat × Nat)) : Bool := (segKeys segs).any (poisoned s)

/-- What a successful access leaves of its translations: the key tags that it binds, the misses that it was (R227, R228). -/
def bindAll (s : State) (bs : List Bind) : State := bs.foldl bindOne s

/-- Side effect of a failed access on the key tags (R227). -/
def noteAlias (s : State) : Option Bind → State
  | some b => setAliased s b
  | none => s

/-- Marks granules of a byte range poisoned. -/
def poisonRange (s : State) (key n : Nat) : State :=
  { s with poison := ((List.range ((key + n - 1) / 64 - key / 64 + 1)).map (· + key / 64)).foldl sadd1 s.poison }

/-- Clears the poison of the granules that a write covers whole (R237). -/
def unpoison (s : State) (key n : Nat) : State :=
  { s with poison := s.poison.filter fun k => !decide (key ≤ k * 64 ∧ k * 64 + 64 ≤ key + n) }

/-- Writes bytes at a memory key; a granule written whole loses its poison (R237). -/
def setMem (s : State) (key : Nat) (bytes : List Byte) : State :=
  unpoison { s with
    mem := writeBytes s.mem key bytes
    sigClock := s.sigClock.filter fun e => !decide (key ≤ e.1 ∧ e.1 < key + bytes.length) } key bytes.length

/-- Whether a team sleeps on a granule that a write of n bytes touches. -/
def sleepsOn (t : Team) (key n : Nat) : Bool :=
  match t.seq.wait with
  | some (.mem _ _ _ _ g _) => decide (key < g * 64 + 64 ∧ g * 64 < key + n)
  | _ => false

/-- A store of a device agent is performed: teams asleep on the granule are to read their word again (R279). -/
def pokeWaits (s : State) (key n : Nat) : State :=
  { s with poked := ((s.teams.filter fun t => sleepsOn t.2 key n).map (·.1)).foldl sadd1 s.poked }

/-- A device agent writes bytes at a memory key (R237, R279). -/
def putMem (s : State) (key : Nat) (bytes : List Byte) : State := pokeWaits (setMem s key bytes) key bytes.length

/-- Writes bytes over segments in order. -/
def putSegs (s : State) : List (Nat × Nat) → List Byte → State
  | [], _ => s
  | (k, n) :: t, bs => putSegs (putMem s k (bs.take n)) t (bs.drop n)

/-- Reads bytes over segments in order. -/
def readSegs (m : Memory) (segs : List (Nat × Nat)) : List Byte :=
  segs.flatMap fun e => readBytes m e.1 e.2

end Sys2Proof.Machine
end

