-- ==== Sys2Proof/Machine/Sites.lean ====
section
/-! DEFINITION. Where units stand (R4 to R7, R15, R16): sites of a die, the routing of packets over the mesh (R393), the
slices and banks of a partition (R247), home banks (R249, R250), and memory controllers. -/

namespace Sys2Proof.Machine

/-! ### Sites (R6, R7) -/

/-- A site of a die: column 0 to 5, row 0 to 7 (R6). -/
structure Site where
  col : Nat
  row : Nat
deriving DecidableEq, Repr

/-- A full router with a core; otherwise a half router with a slice (R6). -/
def Site.full (x : Site) : Bool := decide ((x.col + x.row) % 2 = 0)
/-- The cluster region on its die (R7). -/
def Site.region (x : Site) : Nat := 3 * (x.row / 4) + x.col / 2
/-- The position within the cluster (R7). -/
def Site.pos (x : Site) : Nat := 2 * (x.row % 4 / 2) + x.col % 2
/-- The cluster number (R7). -/
def Site.cluster (die : Nat) (x : Site) : Nat := 6 * die + x.region
/-- The core or slice number (R7). -/
def Site.unit (die : Nat) (x : Site) : Nat := 24 * die + 4 * x.region + x.pos

/-- The sites of a die. -/
def dieSites : List Site := (List.range 8).flatMap fun r => (List.range 6).map fun c => ⟨c, r⟩

/-- The site of a core or slice number of its die: the one of its parity that has the number (R7). -/
def siteOf (core : Bool) (n : Nat) : Site :=
  (dieSites.find? fun x => decide (x.full = core) && decide (x.unit 0 = n % 24)).getD ⟨0, 0⟩

/-- The die and the cluster of a core or slice (R7). -/
def dieOf (n : Nat) : Nat := n / 24
def clusterOf (n : Nat) : Nat := n / 4
/-- The cores or own slices of a cluster (R7). -/
def unitsOf (cluster : Nat) : List Nat := (List.range 4).map (· + 4 * cluster)

/-! ### Routing (R393) -/

/-- One step towards a coordinate. -/
def toward (x d : Nat) : Nat := if x < d then x + 1 else if d < x then x - 1 else x

/-- The next site on the way (R393): straight in a shared row or column, one hop along the row from a half router, a
diagonal hop from a full one. -/
def nextHop (x d : Site) : Site :=
  if x.col = d.col then ⟨x.col, toward x.row d.row⟩
  else if x.row = d.row ∨ x.full = false then ⟨toward x.col d.col, x.row⟩
  else ⟨toward x.col d.col, toward x.row d.row⟩

/-- The sites that a packet passes after `x`, `d` last; no route on a die is longer than 13 hops. -/
def routeFrom (d : Site) : Nat → Site → List Site
  | 0, _ => []
  | n + 1, x => if x = d then [] else nextHop x d :: routeFrom d n (nextHop x d)

/-- The route between two sites of a die (R393). -/
def route (x d : Site) : List Site := routeFrom d 13 x

/-- Whether a mesh link joins two sites: orthogonal ones everywhere, diagonal ones between full routers (R393). -/
def meshLink (x y : Site) : Bool :=
  let dc := max x.col y.col - min x.col y.col
  let dr := max x.row y.row - min x.row y.row
  decide (dc + dr = 1) || (decide (dc = 1 ∧ dr = 1) && x.full && y.full)

/-- The site that carries the port to the IO die (R393). -/
def ioPort : Site := ⟨2, 0⟩
/-- The link of a die to the IO die (R15). -/
def ioLink (die : Nat) : Nat := 18 + die

/-- A place that packets pass: a site of a die, the IO die, or a link by its number (R15). -/
inductive Hop where
  | site (die : Nat) (x : Site)
  | link (n : Nat)
  | io
deriving DecidableEq, Repr

/-- The way of a packet from a site to a site of a die, or to the IO die (none) (R393): traffic between dies passes
through the IO die. -/
def packetWay (die : Nat) (x : Site) (target : Option (Nat × Site)) : List Hop :=
  let up := (route x ioPort).map (.site die) ++ [.link (ioLink die), .io]
  match target with
  | none => up
  | some (e, y) =>
    if e = die then (route x y).map (.site die)
    else up ++ [.link (ioLink e), .site e ioPort] ++ (route ioPort y).map (.site e)

/-! ### Slices and banks (R246 to R250) -/

/-- The guaranteed clusters of a partition (R384). -/
def guaranteed (r : BitVec 512) : List Nat := (List.range 24).filter fun k => r.getLsbD (32 + k)

/-- The slices that a partition owns: the own slices of its clusters (R247). Those of margin clusters are not split (R386). -/
def ownSlices (r : BitVec 512) : List Nat := (guaranteed r).flatMap unitsOf

/-- The banks of each slice by use: first bank and count; use 0 addressable CSM, 1 ways for tier 1, 2 ways for tier 2
(R247). -/
def banksOf (r : BitVec 512) (use : Nat) : Nat × Nat :=
  let c := pfield r 8 4
  let t1 := pfield r 12 4
  if use = 0 then (0, 2 * c) else if use = 1 then (2 * c, 2 * t1) else (2 * c + 2 * t1, 16 - 2 * c - 2 * t1)

/-- What a byte uses of the slices: CSM window 0, tier 1 and tier 2 ways 1 and 2; none for the other tiers and windows. -/
def useOf (va : W64) (tier : Nat) : Option Nat :=
  if tier < 2 then some (tier + 1)
  else if windowOf va.toNat = some .csm then some 0 else none

/-- The home slice and bank of a byte of a partition (R249, R250): among the banks of its use, by a hash that programs
cannot observe. DESIGN CHOICE, log entry 32. -/
def homeBank (r : BitVec 512) (use key : Nat) : Nat × Nat :=
  let h := Config.homeSlice (key / 128)
  let sl := ownSlices r
  let (lo, n) := banksOf r use
  ((sl[h % sl.length]?).getD 0, lo + (h / 256) % n)

/-- The home slice and bank of a byte for a partition, where it has one on the device. -/
def homeOf (s : State) (part : Nat) (va : W64) (tier key : Nat) : Option (Nat × Nat) :=
  (useOf va tier).bind fun u => (mget s.parts part).map fun p => homeBank p.record u key

/-- A write that carries the sender's clock to its word's home slice, whence a waiter will hear of it (R329). -/
def sendClock (s : State) (unit part : Nat) (va : W64) (tier key : Nat) : State :=
  let s := s.bump unit
  let own := s.clock unit
  let s := match homeOf s part va tier key with
    | some (slice, _) => s.receive (0x1000 + slice) own
    | none => s
  { s with sigClock := mset s.sigClock key own }

/-- A waiter reads a word: it receives the clock that a signal has brought there (R329). -/
def hearSignal (s : State) (engine key : Nat) : State :=
  match mget s.sigClock key with
  | some c => s.receive engine c
  | none => s

/-! ### Memory controllers (R4, R16, R385) -/

/-- The tier 1 stack of a physical byte: 4 KiB granules over eight stacks (R385). -/
def stackOf (pa : Nat) : Nat := pa / 4096 % 8
/-- The die to which a stack attaches (R4). -/
def stackDie (stack : Nat) : Nat := stack / 2
/-- The tier 2 package of a physical byte, 128 GiB each (R16). DESIGN CHOICE, log entry 91. -/
def packageOf (pa : Nat) : Nat := pa / (128 * 2 ^ 30)
/-- The engine identity of the controller of a byte of tier 1 (0) or tier 2 (R15). -/
def controllerOf (tier pa : Nat) : Nat := 0x8000 + (if tier = 0 then stackOf pa else 8 + packageOf pa)

end Sys2Proof.Machine
end

