-- ==== Sys2Proof/Machine/Log.lean ====
section
/-! DEFINITION. The undo log (R315 to R324), the arbitration record with the hall monitor (R332 to R337)
and store hashes (R338). -/

namespace Sys2Proof.Machine

/-! ### The undo log -/

/-- A record of the undo log (R317). DEDUCED, log entry 31. -/
def undoRecord (ty size inst engine window : Nat) (addr : W64) (old : Nat) : Nat :=
  packFields [(0, ty), (3, size), (8, inst % 2 ^ 32), (40, engine % 2 ^ 16), (56, window % 256),
    (64, addr.toNat), (128, old % 2 ^ 128)]

/-- DISCARD-OLDEST (R324): the oldest window goes; with no later grid window nothing is reachable. -/
def dropOldest (u : UndoLog) : UndoLog :=
  match u.ckpts with
  | _ :: c :: rest => { u with
      tail := c.start, oldwin := c.window, dropped := u.dropped + 1, ckpts := c :: rest
      owners := u.owners.filter fun e => decide (c.start ≤ e.1) }
  | _ => { u with tail := u.head, dropped := u.dropped + 1, ckpts := [], owners := [] }

/-- Makes room for n bytes in the ring; none in STALL mode when there is none (R324). -/
def undoRoom (n : Nat) : Nat → UndoLog → Option UndoLog
  | 0, u => some u
  | f + 1, u =>
    if u.head + n ≤ u.tail + 2 ^ u.lg2 then some u
    else if u.stall then none
    else undoRoom n f (dropOldest u)

/-- The pieces of a write of n bytes at an address, cut at 16-byte boundaries: offset and length (R318). -/
def cutPieces (a : Nat) : Nat → Nat → List (Nat × Nat)
  | 0, _ => []
  | _, 0 => []
  | f + 1, n =>
    let k := min n (16 - a % 16)
    (0, k) :: (cutPieces (a + k) f (n - k)).map fun e => (e.1 + k, e.2)

/-- Whether a full log of a context stops what needs room (R324). -/
def stallsFull (s : State) (ctx : Nat) : Bool := (((mget s.ctxs ctx).bind (·.ulog)).map (·.stall)).getD false

/-- The undo records that an entry of a store queue appends when it is performed (R318). -/
def StoreEnt.records (e : StoreEnt) : Nat := (cutPieces e.va.toNat (e.bytes.length + 1) e.bytes.length).length

/-- The records that the queues of a context's teams will append. -/
def queuedRecords (s : State) (c : Nat) : Nat :=
  (s.teams.map fun e => if ((s.grid (e.1 / 16 / 2 ^ 32)).map (·.ctx)) = some c then (e.2.storeQ.map (·.records)).sum else 0).sum

/-- The bytes that an append of one record needs: a log that stalls keeps room for the writes that are queued, so that a team
whose write finds none stops precisely at its member (R53, R324). DEDUCED, log entry 113. -/
def recordNeed (s : State) (c : Nat) (u : UndoLog) : Nat := if u.stall then 32 + 32 * queuedRecords s c else 32

/-- Appends one record to a context's log (R316); none where the log stalls. It stands in memory in clear. DEDUCED, log entry
110. -/
def undoAppend (s : State) (c ty size inst engine : Nat) (addr : W64) (old : Nat) : Option State :=
  match mget s.ctxs c with
  | some x => match x.ulog with
    | some u => (undoRoom (recordNeed s c u) (u.ckpts.length + 1) u).map fun u =>
        let r := undoRecord ty size inst engine u.newwin.toNat addr old
        let head := u.head + 32
        let u := { u with
          head := head
          horizon := if ty = 3 then head else u.horizon
          irrev := if ty = 3 then u.irrev + 1 else u.irrev }
        { s with
          mem := writeNat s.mem (memKey 0 (u.base + (head - 32) % 2 ^ u.lg2)) 32 r
          ctxs := mset s.ctxs c { x with ulog := some u } }
    | none => some s
  | none => some s

/-- Whether a context logs undo records (R315). -/
def State.undoOn (s : State) (c : Nat) : Bool := ((mget s.ctxs c).map (·.undo)).getD false
/-- Whether a context records arbitration (R332). -/
def State.recordOn (s : State) (c : Nat) : Bool := ((mget s.ctxs c).map (·.record)).getD false

/-- Adds to a total of a context (R344): kind 0 CSM accesses, 1 bank ALU operations, 2 cache hits, 3 cache misses, 4 flits,
5 retries, 6 escape flits, of the slice or link with an engine identity. -/
def countTotal (s : State) (c kind engine k : Nat) : State :=
  s.modCtx c fun x => { x with
    totals := mset x.totals (kind + 16 * engine) (((mget x.totals (kind + 16 * engine)).getD 0) + k) }

/-- The flits of an access between dies, on the links of both (R344, R393, R394): each packet is a header and up to four of data; how
many packets an access takes, and what each carries, is open. -/
def countFlits (s : State) (c die slice : Nat) : State :=
  if die = dieOf slice then s
  else
    let (n, s) := s.draw
    let (m, s) := s.draw
    let flits (k : Nat) : Nat := ((List.range (1 + k % 4)).map fun i => 1 + (Config.freeWord (k + i)).toNat % 5).sum
    countTotal (countTotal s c 4 (0x4000 + ioLink die) (flits n)) c 4 (0x4000 + ioLink (dieOf slice)) (flits m)

/-- Counts an event of a link for the context whose packets it meets, which is open (R344). -/
def countLink (s : State) (kind link k : Nat) : State :=
  if s.ctxs.isEmpty then s
  else
    let (n, s) := s.draw
    match s.ctxs[n % s.ctxs.length]? with
    | some e => countTotal s e.1 kind (0x4000 + link) k
    | none => s

/-- Counts a value in a monitor. -/
def feedMonitor (m : Monitor) (v : Nat) : Monitor :=
  let b := if v < 2 then 0 else min 15 (Nat.log2 v)
  { min := if m.count = 0 then v else min m.min v, max := max m.max v, count := m.count + 1
    bins := m.bins.modify b fun n => min (n + 1) (2 ^ 32 - 1) }

/-- Feeds the monitors set to a source: 0 memory latency, 1 queue wait, 2 link retries, 3 a voltage, 4 a temperature. -/
def feedMonitors (s : State) (source v : Nat) : State :=
  { s with reg := { s.reg with
    monitors := s.reg.monitors.zipIdx.map fun m => if Config.monitorSource m.2 % 5 = source then feedMonitor m.1 v else m.1 } }

/-- Counts an access of a core at its home slice: of the CSM, or of a cache way, hit or missed (R344). Which of the two is
open. DESIGN CHOICE, log entry 98. -/
def countUse (s : State) (c part core : Nat) (va : W64) (tier key : Nat) : State :=
  match homeOf s part va tier key with
  | none => s
  | some (slice, _) =>
    let s := countFlits s c (dieOf core) slice
    if useOf va tier = some 0 then countTotal s c 0 (0x1000 + slice) 1
    else
      let (n, s) := s.draw
      countTotal s c (2 + n % 2) (0x1000 + slice) 1

/-- Counts a bank ALU operation at its slice, and the access that it is (R344). -/
def countBank (s : State) (c part core : Nat) (va : W64) (tier key : Nat) : State :=
  match homeOf s part va tier key with
  | none => s
  | some (slice, _) => countTotal (countUse s c part core va tier key) c 1 (0x1000 + slice) 1

/-- Notes the grid in whose CSM the newest record's address lies (R325). -/
def ownRecord (s : State) (g c : Nat) (addr : W64) : State :=
  if windowOf addr.toNat = some .csm then s.modCtx c fun x => { x with
    ulog := x.ulog.map fun u => { u with owners := mset u.owners (u.head - 32) g } }
  else s

/-- Appends a record of a grid's engine; those of its cores count (R344). -/
def undoBy (s : State) (g c ty size inst engine : Nat) (addr : W64) (old : Nat) : Option State :=
  (undoAppend s c ty size inst engine addr old).map fun s =>
    let s := if ty = 1 then ownRecord s g c addr else s
    if engine < 96 then s.count g engine 0x17 1 else s

/-- The type 1 records of a write of n bytes at memory key `key`, address `va` (R315, R318, R319). -/
def undoWrite (s : State) (g c engine inst : Nat) (va : W64) (key n : Nat) : Option State :=
  if s.undoOn c then
    (cutPieces va.toNat (n + 1) n).foldl (fun o e => o.bind fun s =>
      undoBy s g c 1 e.2 inst engine (va + BitVec.ofNat 64 e.1) (readNat s.mem (key + e.1) e.2)) (some s)
  else some s

/-- A type 3 record of an effect that cannot be taken back (R323). DEDUCED, log entry 84. -/
def irreversible (s : State) (g c engine kind : Nat) (addr : W64) (data : List Byte) : Option State :=
  if s.undoOn c then
    let d := data.take 16
    undoBy s g c 3 d.length kind engine addr (bytesNat d)
  else some s

/-! ### Arbitration (R332 to R337) -/

/-- A requester: scope code, instance, team (R333). -/
structure Req where
  scope : BitVec 3
  inst : Nat
  team : Nat
deriving DecidableEq, Repr

/-- The requester of a party. -/
def reqOf : Party → Req
  | .team _ b t => ⟨1, b, t⟩
  | .block _ b => ⟨2, b, 0⟩
  | .cluster _ k => ⟨3, k, 0⟩
  | .grid _ => ⟨4, 0, 0⟩

def Chunk.at (c : Chunk) (kind : Nat) (key : W64) : Bool := decide (c.kind = kind ∧ c.key = key)
def Chunk.by (c : Chunk) (r : Req) : Bool := decide (c.scope = r.scope ∧ c.inst = r.inst ∧ c.team = r.team)

/-- The 16 bytes of a chunk (R333). -/
def chunkBits (c : Chunk) : Nat :=
  packFields [(0, c.team), (4, c.inst % 2 ^ 32), (37, c.scope.toNat), (40, c.run), (52, c.window % 256),
    (60, c.kind), (64, c.key.toNat)]

/-- The window that chunks are appended in. -/
def winOf (x : Ctx) : Nat := match x.ulog with
  | some u => u.newwin.toNat
  | none => 0

/-- The grid and core of the block that a chunk's requester belongs to, for the count of R344. DEDUCED, log entry 59. -/
def chunkHome (s : State) (c : Nat) (ch : Chunk) : Option (Nat × Nat) :=
  if ch.scope = 1 ∨ ch.scope = 2 then
    (s.blocks.find? fun e => decide (e.1 % 2 ^ 32 = ch.inst) &&
      (match s.grid (e.1 / 2 ^ 32) with
        | some g => decide (g.ctx = c)
        | none => false)).map fun e => (e.1 / 2 ^ 32, e.2.core)
  else none

/-- Drops windows from both logs until the record ring has room for a chunk (R324, R334). -/
def recordRoom (appended lg2 : Nat) : Nat → UndoLog → UndoLog
  | 0, u => u
  | f + 1, u => match u.ckpts with
    | c :: _ => if appended + 16 ≤ c.recAt + 2 ^ lg2 then u else recordRoom appended lg2 f (dropOldest u)
    | [] => u

/-- Whether a context's record ring is past what its oldest window leaves it (R334). -/
def ringOver (x : Ctx) (more : Nat) : Bool :=
  match x.ulog, x.arb with
  | some u, some a => match u.ckpts with
    | c :: _ => decide (c.recAt + 2 ^ a.lg2 < a.appended + 16 * more)
    | [] => false
  | _, _ => false

/-- In DISCARD-OLDEST mode windows are dropped while the record ring has no room for a further chunk (R324, R334). In STALL
mode no turn is performed that the ring has no room for (`turnsFull`). DEDUCED, log entry 21. -/
def settleRing (s : State) (c : Nat) : State :=
  s.modCtx c fun x => { x with ulog := x.ulog.map fun u => if u.stall then u else match x.arb with
    | some a => recordRoom a.appended a.lg2 (u.ckpts.length + 1) u
    | none => u }

/-- Appends a chunk to a record's ring (R334). -/
def chunkAppend (s : State) (c : Nat) (ch : Chunk) : State :=
  match mget s.ctxs c with
  | some x => match x.arb with
    | some a =>
      let s := { s with
        mem := writeNat s.mem (memKey 0 (a.base + a.appended % 2 ^ a.lg2)) 16 (chunkBits ch)
        ctxs := mset s.ctxs c { x with arb := some { a with appended := a.appended + 16 } } }
      let s := settleRing s c
      match chunkHome s c ch with
      | some (g, core) => s.count g core 0x18 1
      | none => s
    | none => s
  | none => s

/-- Appends the run of one requester as chunks of at most 4,095 turns; fuel bounds the chunks (R334). -/
def runAppend (s : State) (c : Nat) (ch : Chunk) : Nat → State
  | 0 => s
  | f + 1 =>
    if ch.run = 0 then s
    else runAppend (chunkAppend s c { ch with run := min ch.run 4095 }) c { ch with run := ch.run - 4095 } f

/-- Changes a context's arbitration record. -/
def modArb (s : State) (c : Nat) (f : ArbLog → ArbLog) : State :=
  s.modCtx c fun x => { x with arb := x.arb.map f }

/-- Puts an open chunk in the place of its point's; one whose run has reached 4,095 is appended, and an entry with run 0
keeps the point (R334). -/
def setOpen (s : State) (c : Nat) (ch : Chunk) : State :=
  let full := decide (4095 ≤ ch.run)
  let s := if full then chunkAppend s c ch else s
  let ch := if full then { ch with run := 0 } else ch
  modArb s c fun a => { a with opens := (a.opens.filter fun p => !(p.at ch.kind ch.key)) ++ [ch] }

/-- Counts one turn of a requester at a point while recording (R334). -/
def recordTurn (s : State) (c kind : Nat) (key : W64) (r : Req) (run : Nat) : State :=
  match mget s.ctxs c with
  | some x => match x.arb with
    | some a =>
      let fresh : Chunk := ⟨key, kind, winOf x, run, r.scope, r.inst, r.team, 0⟩
      if 5 ≤ kind then chunkAppend s c fresh
      else match a.opens.find? (·.at kind key) with
        | some o =>
          if o.run = 0 then setOpen s c fresh
          else if o.by r then setOpen s c { o with run := o.run + 1 }
          else setOpen (chunkAppend s c o) c fresh
        | none =>
          if kind ≠ 2 then setOpen s c fresh
          else match a.firsts.find? (·.at 2 key) with
            | some f =>
              if f.by r then modArb s c fun a => { a with
                firsts := a.firsts.map fun p => if p.at 2 key then { p with run := p.run + 1 } else p }
              else
                let s := modArb (runAppend s c f (f.run + 1)) c fun a => { a with
                  firsts := a.firsts.filter fun p => !(p.at 2 key) }
                setOpen s c fresh
            | none => modArb s c fun a => { a with firsts := a.firsts ++ [fresh] }
    | none => s
  | none => s

/-- Closes every open chunk of a context: a party is saved (R334). The entries stay with run 0. -/
def closeOpens (s : State) (c : Nat) : State :=
  match (mget s.ctxs c).bind (·.arb) with
  | some a => modArb ((a.opens.filter fun ch => decide (ch.run ≠ 0)).foldl (fun s ch => chunkAppend s c ch) s) c fun a =>
      { a with opens := a.opens.map fun p => { p with run := 0 } }
  | none => s

/-- A window opens: every open chunk closes, and granules that one requester alone has touched are forgotten (R334). -/
def closeChunks (s : State) (c : Nat) : State :=
  modArb (closeOpens s c) c fun a => { a with opens := [], firsts := [] }

/-- What the hall monitor says to a requester at a point (R335, R337); `full` where the record's ring has no room for the
turn in STALL mode (R334). -/
inductive Gate where
  | go | held | diverge | full
deriving DecidableEq, Repr

/-- Whether a chunk belongs to the window that is open. -/
def Chunk.now (ch : Chunk) (x : Ctx) : Bool := decide (ch.window % 256 = winOf x % 256)

/-- Whether a chunk's turns are due: it belongs to the window that is open or to an earlier one. -/
def Chunk.due (ch : Chunk) (x : Ctx) : Bool := decide ((winOf x % 256 + 256 - ch.window % 256) % 256 < 128)

/-- The gate of a point: the chunk at its position, of the window that is open or an earlier one, names the requester or another;
a granule without chunks in the window is not gated; else its chunks for the window are spent (R335, R337). DEDUCED, log
entry 61. -/
def arbGate (s : State) (c kind : Nat) (key : W64) (r : Req) : Gate :=
  match mget s.ctxs c with
  | none => .go
  | some x => match x.replay with
    | none => .go
    | some rp =>
      if rp.script.isEmpty then .go
      else match rp.script.find? (·.at kind key) with
        | some ch =>
          if ch.due x then (if ch.by r then .go else .held)
          else if kind = 2 ∧ !(rp.spent.any fun ch => ch.at kind key && ch.now x) then .go else .diverge
        | none => if kind = 2 ∧ !(rp.spent.any fun ch => ch.at kind key && ch.now x) then .go else .diverge

/-- Takes one turn off the chunk at a point's position. -/
def spendTurn (kind : Nat) (key : W64) : List Chunk → List Chunk × Option Chunk
  | [] => ([], none)
  | c :: t =>
    if c.at kind key then
      if c.run ≤ 1 ∨ 5 ≤ kind then (t, some c) else ({ c with run := c.run - 1 } :: t, none)
    else
      let (t', x) := spendTurn kind key t
      (c :: t', x)

/-- A turn performed at a point: counted against the chunk at its position in a replay, recorded otherwise (R334, R335). A
granule that the window does not gate spends nothing. -/
def arbTurn (s : State) (c kind : Nat) (key : W64) (r : Req) (run : Nat) : State :=
  match mget s.ctxs c with
  | some x => match x.replay with
    | some rp =>
      if rp.script.isEmpty then (if x.record then recordTurn s c kind key r run else s)
      else if ((rp.script.find? (·.at kind key)).map (·.due x)).getD false then
        let (t, d) := spendTurn kind key rp.script
        s.modCtx c fun x => { x with replay := some { rp with script := t, spent := rp.spent ++ d.toList } }
      else s
    | none => if x.record then recordTurn s c kind key r run else s
  | none => s

/-- Turns at several points. -/
def turnAll (s : State) (ctx kind : Nat) (keys : List W64) (r : Req) : State :=
  keys.foldl (fun s k => arbTurn s ctx kind k r 1) s

/-- Whether turns at points find the record's ring full in STALL mode: no room for what they append, with the chunks that
stay open counted (R324, R334). -/
def turnsFull (s : State) (ctx kind : Nat) (keys : List W64) (r : Req) : Bool :=
  match (mget s.ctxs ctx).bind (·.ulog) with
  | some u => u.stall && (match mget (turnAll s ctx kind keys r).ctxs ctx with
    | some x => ringOver x ((x.arb.map (·.opens.length)).getD 0)
    | none => false)
  | none => false

/-- The gate of several points of one kind: what the monitor answers for the first that does not pass; then whether the record
has room. -/
def gateAll (s : State) (ctx kind : Nat) (keys : List W64) (r : Req) : Gate :=
  match (keys.map fun k => arbGate s ctx kind k r).find? fun g => decide (g ≠ .go) with
  | some g => g
  | none => if turnsFull s ctx kind keys r then .full else .go

/-- The class that a gate's stop raises (R324, R337). -/
def Gate.cls : Gate → Nat
  | .full => 0x52
  | _ => 0x53

/-- The value that the next kind 5 or kind 6 chunk of a requester holds in a replay, where it is due (R335, R337). -/
def scriptValue (s : State) (c kind : Nat) (r : Req) : Option W64 :=
  (mget s.ctxs c).bind fun x => x.replay.bind fun rp =>
    (rp.script.find? fun ch => decide (ch.kind = kind) && ch.by r).bind fun ch => if ch.due x then some ch.key else none

/-- Removes that chunk. -/
def dropFirst (kind : Nat) (r : Req) : List Chunk → List Chunk
  | [] => []
  | c :: t => if decide (c.kind = kind) && c.by r then t else c :: dropFirst kind r t

/-- Whether a replay still has script. -/
def State.scripted (s : State) (c : Nat) : Bool :=
  match (mget s.ctxs c).bind (·.replay) with
  | some rp => !rp.script.isEmpty
  | none => false

/-- A value read from outside the program (kind 5): recorded, or taken from the script (R335, R347). -/
def outsideValue (s : State) (c : Nat) (r : Req) (live : W64) : W64 × State :=
  match scriptValue s c 5 r with
  | some v => (v, s.modCtx c fun x => { x with
      replay := x.replay.map fun rp => { rp with script := dropFirst 5 r rp.script } })
  | none => (live, if s.recordOn c then arbTurn s c 5 live r 1 else s)

/-! ### Store hashes (R338) -/

/-- One bit step of the CRC of R338. -/
def crcStep (h : W64) : W64 := if h.getLsbD 63 then (h <<< 1) ^^^ 0x42F0E1EBA9EA3693 else h <<< 1

/-- Folds bytes into the CRC. -/
def crc64 (h : W64) (bs : List Byte) : W64 :=
  bs.foldl (fun h b =>
    let x := h ^^^ BitVec.shiftLeft (b.setWidth 64) 56
    crcStep (crcStep (crcStep (crcStep (crcStep (crcStep (crcStep (crcStep x)))))))) h

/-- Folds the pieces of a write into a hash (R338). -/
def hashWrite (h : W64) (va : W64) (bytes : List Byte) : W64 :=
  (cutPieces va.toNat (bytes.length + 1) bytes.length).foldl (fun h e =>
    crc64 h (natBytes 8 (va + BitVec.ofNat 64 e.1).toNat ++ [BitVec.ofNat 8 e.2] ++
      (bytes.drop e.1).take e.2)) h

/-- Folds a copy's one entry (R338). -/
def hashCopy (h : W64) (dst src x : W64) (tensor : Bool) : W64 :=
  crc64 h (natBytes 8 dst.toNat ++ [if tensor then 0x91 else 0x90] ++ natBytes 8 src.toNat ++
    natBytes 8 x.toNat)

/-- Folds a write of a team into its hash when its context records. DEDUCED, log entry 9. -/
def foldHash (s : State) (c g b t : Nat) (va : W64) (bytes : List Byte) : State :=
  if s.recordOn c then s.modTeam g b t fun x => { x with shash := hashWrite x.shash va bytes } else s

end Sys2Proof.Machine
end

