-- ==== Sys2Proof/Machine/Operands.lean ====
section
/-! DEFINITION. Reading and writing operands (R60, R100, R103, R126, R169, R174, R176): every operand form
at every level, frame accesses, tags and registers that wait for data. -/

namespace Sys2Proof.Machine

/-- What a chain issues with: its party and grid, the state before the chain (R52), the running group,
the member's place, the current token. -/
structure Cx where
  p : Party
  g : Nat
  gr : Grid
  pre : State
  b : Nat
  k : Nat
  t : Nat
  core : Nat
  tm : Team
  act : Mask
  lanes : List Nat
  pkt : Nat
  slot : Nat
  last : Nat
  tok : Token
  engine : Nat
  alone : Bool
deriving DecidableEq, Repr

/-- A team with nothing in it: what `Cx.tm` holds at the levels above TEAM, where no member reads it. -/
def Team.none : Team :=
  { seq := Seq.start 0, groups := [], mergeAt := .none, awaiting := .none, core := 0, slot := 0,
    detached := false, nlane := 0, v := [], s := [], p := [], vtag := [], stag := [], fpc := 0, hsp := 0,
    flags := [], storeQ := [], loads := [], ardBusy := [], resume := .none, exiting := false, shash := 0, gran := 0, line := 0,
    since := .none, aged := 0 }

/-- The level of the party. -/
def Cx.sc (c : Cx) : Scope := c.p.scope
/-- The PC of the chain. -/
def Cx.pc (c : Cx) : W32 := mkPc c.pkt c.slot
/-- The position of the party. -/
def Cx.seq (c : Cx) : Seq := (c.pre.seqOf c.p).getD (Seq.start 0)
/-- The lanes a member performs: the resume mask's on resumption, the active lanes otherwise (R239). -/
def Cx.todo (c : Cx) : List Nat :=
  match c.tm.resume with
  | some (k, m) => if k = c.slot then lanesOf c.tm.nlane m else c.lanes
  | none => c.lanes
/-- The origin of the team's accesses. -/
def Cx.origin (c : Cx) : Origin := originOf c.gr c.g c.b c.core
/-- Whether the context records or logs. -/
def Cx.ctx (c : Cx) : Nat := c.gr.ctx

/-- A format slot of the grid (R150). -/
def fmtSlot (gr : Grid) (n : Nat) : BitVec 128 := gr.lrec.fmts[n]?.getD 0
/-- Its type field. -/
def fmtType (x : BitVec 128) : Nat := (x.extractLsb' 0 4).toNat

/-! ### Frames -/

/-- The display entry of a level, own or inherited from the token's record (R169). -/
def dispOf (sq : Seq) (tok : Token) (l : Nat) : W32 :=
  match sq.disp[l]? with
  | some (some h) => h
  | _ => tok.disp[l]?.getD noFrame

def Cx.lex (c : Cx) (l : Nat) : W32 := dispOf c.seq c.tok l

/-- The whole display as it resolves. -/
def dispAll (sq : Seq) (tok : Token) : List W32 := (List.range 4).map (dispOf sq tok)

/-- Table key of the frame that a handle names for a party's grid, block and cluster instance (R166). -/
def handleKey (g b k : Nat) (h : W32) : Nat :=
  let st := (h.extractLsb' 30 2).toNat
  let cell := (h.extractLsb' 0 16).toNat
  if st = 0 then fKey g 0 b cell else if st = 1 then fKey g 1 k cell else fKey g 2 0 cell

def Cx.frameKey (c : Cx) (h : W32) : Nat := handleKey c.g c.b c.k h

/-- The frame at a level of the display. -/
def Cx.frameAt (c : Cx) (l : Nat) : Option (W32 × Frame) :=
  let h := c.lex l
  if h = noFrame then none else (mget c.pre.frames (c.frameKey h)).map fun f => (h, f)

/-- Whether a party owns a frame (R168, R170). -/
def ownsFrame (p : Party) (f : Frame) : Bool :=
  match p with
  | .team _ _ t => decide (f.oscope = .team ∧ f.oteam = t)
  | p => decide (f.oscope = p.scope)

/-- Signed 64-bit order of folds. -/
def smax (a b : W64) : W64 := if a.toInt < b.toInt then b else a
def smin (a b : W64) : W64 := if a.toInt < b.toInt then a else b

/-- Fold of x into p under a mode (R170). -/
def foldMode (m : BitVec 3) (p x : W64) : W64 :=
  if m = 2 then p + x else if m = 3 then smax p x else if m = 4 then smin p x
  else if m = 5 then p ||| x else x

def pendKey (serial : W32) (k : Nat) : Nat := serial.toNat * 16 + k

def Frame.mode (f : Frame) (k : Nat) : BitVec 3 := f.modes[k]?.getD 0
def Frame.slot (f : Frame) (k : Nat) : W64 := f.slots[k]?.getD 0

/-- Whether a handle stands in a token's display record. -/
def tokNames (h : W32) (t : Token) : Bool := t.disp.any fun x => decide (x = h)

/-- Whether some level below the owner still has to complete a token that names the frame (R175): tokens
in the ring or in queues, current tokens, and tokens that spawn bins hold, those of saved parties and bins among them. -/
def tokensNaming (s : State) (g b k : Nat) (own : Scope) (h : W32) : Bool :=
  let seqNames (q : Seq) : Bool := (q.tok.map (tokNames h)).getD false || q.queue.any (tokNames h)
  let under (n : Nat) : Bool := match own with
    | .block => decide (n = b)
    | .cluster => decide (instOf n = k)
    | _ => true
  let saved := s.images.map (·.2)
  let teams := (s.teams ++ saved.flatMap (·.teams)).any fun e =>
    decide (e.1 / 16 / 2 ^ 32 = g) && under (e.1 / 16 % 2 ^ 32) && seqNames e.2.seq
  let blocks := decide (own ≠ .block) && (s.blocks ++ saved.flatMap (·.blocks)).any fun e =>
    decide (e.1 / 2 ^ 32 = g) && under (e.1 % 2 ^ 32) && seqNames e.2.lvl.seq
  let clus := decide (own = .grid) && (s.clusters ++ saved.flatMap (·.clusters)).any fun e =>
    decide (e.1 / 2 ^ 32 = g) && seqNames e.2.lvl.seq
  let bins := (s.bins.map (·.2) ++ saved.flatMap (·.bins)).any fun x =>
    decide (x.grid = g) && under x.blk && (x.tok.map (tokNames h)).getD false
  let ring := decide (own = .grid) && (((s.grid g).map fun x => x.ring.any (tokNames h)).getD false)
  teams || blocks || clus || bins || ring

/-- The settle wait of a frame by its owner has ended; a team's ends at once (R175). -/
def settled (s : State) (g b k : Nat) (f : Frame) (h : W32) : Bool :=
  decide (f.oscope = .team) || (decide (f.refcount = 0) && !(tokensNaming s g b k f.oscope h))

/-- The view of a slot of another's frame: captured, or the slot as it is now (R174). -/
def viewSlot (sq : Seq) (f : Frame) (k : Nat) : W64 :=
  match mget sq.views f.serial.toNat with
  | some v => v[k]?.getD 0
  | none => f.slot k

/-- Memory key of a slot of a cell: an offset in the pool that the cell stands in (R163). Nothing but poison is kept under
these keys: slots stand in the frame's record. -/
def slotKey (cell k : Nat) : Nat := 160 * (cell % 2 ^ 16) + 32 + 8 * k + 2 ^ 56 * (4 * (cell / 2 ^ 16 + 1))

/-- Whether a slot lies in a poisoned granule (R176). -/
def slotPoisoned (s : State) (cell k : Nat) : Bool := decide (slotKey cell k / 64 ∈ s.poison)

/-- The newest write of a slot that a team's store queue holds (R176, R253). -/
def queuedSlot (q : List StoreEnt) (cell k : Nat) : Option W64 :=
  q.foldl (fun o e => if e.kind = .frame cell k then some (BitVec.ofNat 64 (bytesNat e.bytes)) else o) none

/-- FrameRead's value (R174, R176). A team reads its own queued write. -/
def Cx.frameRead (c : Cx) (l k : Nat) : W64 :=
  match c.frameAt l with
  | none => 0
  | some (h, f) =>
    if ownsFrame c.p f then (queuedSlot c.tm.storeQ (c.frameKey h) k).getD (f.slot k)
    else
      let v := viewSlot c.seq f k
      match mget c.seq.pend (pendKey f.serial k) with
      | some x => foldMode (f.mode k) v x
      | none => v

/-! ### Scalars -/

/-- The top of a loop-counter stack, 0 when it is empty (R117). -/
def topLc (l : List LoopEnt) : W32 := match l with
  | e :: _ => e.lc
  | [] => 0

/-- The version slot that a packed version field names for register i (R99). -/
def verOf {n : Nat} (f : BitVec n) (i : Nat) : Nat := (f.extractLsb' (2 * i) 2).toNat

/-- A version slot's value; none while it is pending (R103). -/
def VReg.at (r : VReg) (k : Nat) : Option W64 := (r.slots[k]?).getD none

/-- The value of a b, c or g register for a party: live at its own level, by the token below (R100). -/
def Cx.version (c : Cx) (s : Scope) (n : Nat) : Option W64 :=
  let own := decide (c.sc = s)
  match (c.pre.lvlOf (ownerAt c.g c.b c.k s)).bind (·.vregs[n]?) with
  | none => some 0
  | some r =>
    if own then r.at r.newest
    else match s with
      | .block => r.at (verOf c.tok.bver n)
      | .cluster => r.at (verOf c.tok.cver n)
      | _ => r.at (verOf c.tok.gver n)

/-- The deepest level whose display entry names a frame (R169). -/
def depthOf (d : List W32) : Nat :=
  if d[3]?.getD noFrame ≠ noFrame then 3 else if d[2]?.getD noFrame ≠ noFrame then 2
  else if d[1]?.getD noFrame ≠ noFrame then 1 else 0

/-- The 64-bit value of a source that is no lane register; 32-bit specials are zero-extended (R120). A
pending version reads 0 here: a chain that reads one does not issue. -/
def Cx.rdS (c : Cx) (o : Operand) : W64 :=
  let w (n : Nat) : W64 := BitVec.ofNat 64 n
  match o with
  | .s n => zget c.tm.s n.toNat
  | .b n => (c.version .block n.toNat).getD 0
  | .c n => (c.version .cluster n.toNat).getD 0
  | .g n => (c.version .grid n.toNat).getD 0
  | .team => w c.t
  | .blk => w c.b
  | .nlane => w c.tm.nlane
  | .nteam => w c.gr.lrec.nteam
  | .nblk => w c.gr.lrec.grid
  | .clu => if c.gr.lrec.cmode then w c.k else 0
  | .lcT => (topLc c.seq.loops).setWidth 64
  | .lcB => (if c.sc = .block then topLc c.seq.loops else c.tok.lcb).setWidth 64
  | .lcC => (if c.sc = .cluster then topLc c.seq.loops else c.tok.lcc).setWidth 64
  | .lcG => (if c.sc = .grid then topLc c.seq.loops else c.tok.lcg).setWidth 64
  | .depth => w (depthOf (dispAll c.seq c.tok))
  | .frame l k => c.frameRead l.toNat k.toNat
  | _ => 0

/-- A lane's 32-bit value of any source (R126). -/
def Cx.rdL (c : Cx) (o : Operand) (l : Nat) : W32 :=
  match o with
  | .v n => zget c.tm.v (vKey n.toNat l)
  | .lane => BitVec.ofNat 32 l
  | o => (c.rdS o).setWidth 32

/-- Lane register r of lane l. -/
def Cx.vreg (c : Cx) (r l : Nat) : W32 := zget c.tm.v (vKey r l)

/-- A 64-bit value: a pair for a v register, else the scalar's 64 bits (R137, R264). -/
def Cx.rdD (c : Cx) (o : Operand) (l : Nat) : W64 :=
  match o with
  | .v n => (c.vreg (n.toNat + 1) l ++ c.vreg n.toNat l : BitVec 64)
  | .lane => BitVec.ofNat 64 l
  | o => c.rdS o

/-- Predicate n of lane l; p47 reads true (R127). -/
def Team.pred (t : Team) (n l : Nat) : Bool := if n = 47 then true else (zget t.p n).getLsbD l

/-- A q predicate of a scope: own live, wider ones by the token (R100, R128). -/
def Cx.rdQ (c : Cx) (s : Scope) (n : Nat) : Bool :=
  if c.sc = s then c.seq.q.getLsbD n
  else match s with
    | .block => c.tok.qb.getLsbD n
    | .cluster => c.tok.qc.getLsbD n
    | .grid => c.tok.qg.getLsbD n
    | _ => c.seq.q.getLsbD n

/-! ### Whether a member's sources are there -/

/-- What stands in the way of a member's sources. -/
inductive SrcRes where
  | ready
  | notReady (why : Nat)
  | settle (h : W32)
  | fault (f : FInfo)
deriving DecidableEq, Repr

/-- Registers waiting for an ARD or for a load's data (R187, R300). -/
def busyV (t : Team) (r l : Nat) : Bool :=
  decide (vKey r l ∈ t.ardBusy) || t.loads.any fun e => !e.sreg && e.parts.any fun p => decide (p.dst = vKey r l)

def busyS (t : Team) (n : Nat) : Bool := t.loads.any fun e => e.sreg && e.parts.any fun p => decide (p.dst = n)

/-- A lane register as a source: tagged lanes raise 0x16 cause 1 (R237). DEDUCED, log entry 40. -/
def Cx.srcV (c : Cx) (r : Nat) (lanes : List Nat) : SrcRes :=
  if lanes.any (busyV c.tm r) then (.notReady 10)
  else match lanes.find? fun l => (mget c.tm.vtag (vKey r l)).isSome with
    | some l => .fault { cls := 0x16, cause := 1, addr := (mget c.tm.vtag (vKey r l)).getD 0, lane := some l }
    | none => .ready

/-- One source operand, read by listed lanes: pending versions and busy registers are not ready (R75, R103), an owner's read
of a combining slot settles first (R174), tagged registers and poisoned slots raise 0x16 (R176, R237). -/
def Cx.srcIn (c : Cx) (lanes : List Nat) (o : Operand) : SrcRes :=
  match o with
  | .v n => c.srcV n.toNat lanes
  | .s n =>
    if busyS c.tm n.toNat then (.notReady 10)
    else match mget c.tm.stag n.toNat with
      | some a => .fault { cls := 0x16, cause := 1, addr := a }
      | none => .ready
  | .b n => if (c.version .block n.toNat).isSome then .ready else (.notReady 1)
  | .c n => if (c.version .cluster n.toNat).isSome then .ready else (.notReady 1)
  | .g n => if (c.version .grid n.toNat).isSome then .ready else (.notReady 1)
  | .frame l k => match c.frameAt l.toNat with
    | none => .ready
    | some (h, f) =>
      if slotPoisoned c.pre (c.frameKey h) k.toNat then .fault { cls := 0x16 }
      else if ownsFrame c.p f ∧ 2 ≤ (f.mode k.toNat).toNat ∧ !(settled c.pre c.g c.b c.k f h) then .settle h
      else .ready
  | _ => .ready

/-- A source that every active lane reads. -/
def Cx.src1 (c : Cx) (o : Operand) : SrcRes := c.srcIn c.lanes o

/-- The first obstacle of a list of sources. -/
def firstObstacle (l : List SrcRes) : SrcRes := (l.find? fun r => decide (r ≠ .ready)).getD .ready

/-- The second registers of pairs and the further registers of runs that a member reads. -/
def extraRegs (i : Instr) : List Nat :=
  let run (o : Operand) (n : Nat) : List Nat := match o with
    | .v k => (List.range n).map (· + k.toNat + 1)
    | _ => []
  match i with
  | .imad _ _ _ c m => if m = 0 then [] else run c 1
  | .st d _ _ z _ | .stExt d _ _ z _ _ | .cpst d _ _ z _ _ _ => if z = .d then run d 1 else []
  | .ststr d _ _ z _ _ n => run d ((n.toNat + 1) * (if z = .d then 2 else 1) - 1)
  | .atom _ _ _ z _ _ _ a _ => if z = .d then run a 1 else []
  | .cas _ _ _ z _ _ _ a n => if z = .d then run a 1 ++ run n 1 else []
  | .spawn _ p n _ _ => run p n.toNat
  | .amsg t _ p _ _ _ n => run t 1 ++ run p n.toNat
  | _ => []

/-- The s registers that FM, own-format and system members name by index (R58, R213, R284). -/
def sBases : Instr → List (BitVec 5)
  | .ld _ b _ _ _ | .st _ b _ _ _ | .lds _ b _ _ _ | .sts _ b _ _ _ | .pref b _ _ _ => [b]
  | .ldExt _ b _ _ _ _ _ | .stExt _ b _ _ _ _ | .ldsExt _ b _ _ _ _ _ | .stsExt _ b _ _ _ _
  | .ldstr _ b _ _ _ _ _ | .ststr _ b _ _ _ _ _ | .cpst _ b _ _ _ _ _ | .pmov _ _ b
  | .pmovExt _ _ b _ | .prefExt b _ _ _ _ | .atom _ b _ _ _ _ _ _ _ | .cas _ b _ _ _ _ _ _ _
  | .atoms _ b _ _ _ _ _ _ _ | .bop b _ _ _ _ _ | .waitm _ b _ _ _ _ _ => [b]
  | .copy d s _ _ _ => [d, s]
  | .copyt d s r _ _ => [d, s, r]
  | .launch _ r p g => [r, p, g]
  | _ => []

/-- The lanes whose registers a member reads: those it performs (R236), for CPST those with its predicate (R243). -/
def Cx.readers (c : Cx) (i : Instr) : List Nat :=
  match i with
  | .cpst _ _ _ _ _ _ (.p n) => c.todo.filter (c.tm.pred n.val)
  | _ => c.todo

/-- The s registers from k on, n of them, as far as there are any. -/
def sRun (k : BitVec 5) (n : Nat) : List (BitVec 5) :=
  ((List.range n).filter fun j => decide (k.toNat + j < 32)).map fun j => BitVec.ofNat 5 (k.toNat + j)

/-- Whether a member's sources are there, for the lanes it performs. SHFL, RDFIRST, RDLANE and matrix members read other
lanes than the active ones and check those in their meanings; PUSHM reads and POPM writes every lane (R133). Destinations
waiting for data are waited for as well (R187). -/
def Cx.sources (c : Cx) (i : Instr) : SrcRes :=
  let f := fieldsOf i
  let lanes := c.readers i
  let all := List.range c.tm.nlane
  let push := match i with
    | .pushm (.v k) n => (List.range (n.toNat + 1)).map fun j => c.srcV (k.toNat + j) all
    | .pushm (.s k) n => (sRun k (n.toNat + 1)).map fun k => c.src1 (.s k)
    | _ => []
  let srcs := match i with
    | .pushm .. | .popm .. | .mma .. | .mmaq .. | .mmasp .. | .awr .. | .ard .. => []
    | .shfl _ _ j => [j]
    | .rdlane _ _ j => [j]
    | .rdfirst .. => []
    | _ => f.srcs ++ f.idx
  let into := match i with
    | .popm .. => all
    | _ => c.lanes
  let dsts : List SrcRes := (writesOf i).map fun w => match w with
    | .v r => if into.any (busyV c.tm r) then (.notReady 10) else .ready
    | .sc (.s n) => if busyS c.tm n.toNat then (.notReady 10) else .ready
    | _ => .ready
  firstObstacle (srcs.map (c.srcIn lanes) ++ (extraRegs i).map (fun r => c.srcV r lanes) ++ push ++
    (sBases i).map (fun b => c.src1 (.s b)) ++ dsts)

/-! ### Writing -/

/-- Writes a lane register of a team, clearing its tag (R237). -/
def Team.setV (t : Team) (r l : Nat) (x : W32) : Team :=
  { t with v := zset t.v (vKey r l) x, vtag := mdel t.vtag (vKey r l) }

/-- Writes an s register of a team, clearing its tag. -/
def Team.setS (t : Team) (n : Nat) (x : W64) : Team :=
  { t with s := zset t.s n x, stag := mdel t.stag n }

/-- Changes the chain's team. -/
def Cx.onTeam (c : Cx) (s : State) (f : Team → Team) : State := s.modTeam c.g c.b c.t f

/-- Writes a lane operand for listed lanes; vz discards (R60). -/
def Cx.wrL (c : Cx) (s : State) (d : Operand) (xs : List (Nat × W32)) : State :=
  match d with
  | .v n => c.onTeam s fun t => xs.foldl (fun t e => t.setV n.toNat e.1 e.2) t
  | _ => s

/-- Writes pairs for listed lanes. -/
def Cx.wrD (c : Cx) (s : State) (d : Operand) (xs : List (Nat × W64)) : State :=
  match d with
  | .v n => c.onTeam s fun t => xs.foldl (fun t e =>
      (t.setV n.toNat e.1 (e.2.setWidth 32)).setV (n.toNat + 1) e.1 (e.2.extractLsb' 32 32)) t
  | _ => s

/-- Writes predicate n of listed lanes; a write to p47 is discarded (R127). -/
def Cx.wrP (c : Cx) (s : State) (n : Nat) (xs : List (Nat × Bool)) : State :=
  if n = 47 then s
  else c.onTeam s fun t =>
    let clr := maskOf (xs.map (·.1))
    let set := maskOf ((xs.filter (·.2)).map (·.1))
    { t with p := zset t.p n ((zget t.p n &&& ~~~clr) ||| set) }

/-- Sets bit n of a q register. -/
def setQ (q : BitVec 16) (n : Nat) (x : Bool) : BitVec 16 :=
  let b : BitVec 16 := BitVec.ofNat 16 (2 ^ n)
  if x then q ||| b else q &&& ~~~b

/-- Writes q predicate n of the executing instance (R128). -/
def Cx.wrQ (c : Cx) (s : State) (n : Nat) (x : Bool) : State :=
  s.modSeq c.p fun q => { q with q := setQ q.q n x }

/-- Captures a view of another's frame at its first read (R174); a view that an FRFENCE of the chain has captured
stands. -/
def Cx.capture (c : Cx) (s : State) (o : Operand) : State :=
  match o with
  | .frame l _ => match c.frameAt l.toNat with
    | some (_, f) =>
      if ownsFrame c.p f || (((s.seqOf c.p).bind fun q => mget q.views f.serial.toNat).isSome) then s
      else s.modSeq c.p fun q => { q with views := mset q.views f.serial.toNat f.slots }
    | none => s
  | _ => s

/-- The header of a frame (R168). -/
def frameHeader (f : Frame) : Nat :=
  packFields ([(192, f.serial.toNat), (176, f.refcount % 2 ^ 16), (174, f.state.toNat), (173, if f.sealed then 1 else 0),
    (171, f.level), (32, f.parent.toNat), (29, f.oscope.rank), (0, f.oteam)] ++
    f.modes.zipIdx.map fun m => (64 + 3 * m.2, m.1.toNat))

/-- The 160 bytes of a frame's cell (R163). -/
def frameCell (f : Frame) : List Byte := natBytes 32 (frameHeader f) ++ f.slots.flatMap fun x => natBytes 8 x.toNat

/-- The frame store window address of a slot of a handle (R317). -/
def slotAddr (h : W32) (k : Nat) : W64 :=
  BitVec.ofNat 64 (0xFF2 * 2 ^ 52 + (h.extractLsb' 30 2).toNat * 2 ^ 32 + 160 * (h.extractLsb' 0 16).toNat +
    32 + 8 * k)

/-- The inst field of a frame's undo record (R317). -/
def frameInst (b k : Nat) (h : W32) : Nat :=
  if h.extractLsb' 30 2 = 0 then b else if h.extractLsb' 30 2 = 1 then k else 0

/-- Stores a slot of a frame, with its undo record (R176); none where the log stalls. -/
def storeSlot (s : State) (ctx engine g b k : Nat) (h : W32) (n : Nat) (x : W64) : Option State :=
  let key := handleKey g b k h
  match mget s.frames key with
  | none => some s
  | some f =>
    let s' := if s.undoOn ctx then
        undoBy s g ctx 1 8 (frameInst b k h) engine (slotAddr h n) (f.slot n).toNat
      else some s
    s'.map fun s => { s with frames := mmod s.frames key fun f => { f with slots := f.slots.set n x } }

/-- Whether a frame-slot write is refused with 0x30 (R170, R172, R176). -/
def Cx.slotBad (c : Cx) (l k : Nat) : Bool :=
  match c.frameAt l with
  | none => false
  | some (_, f) =>
    let m := f.mode k
    if ownsFrame c.p f then decide (m = 1) || f.sealed else decide (m.toNat ≤ 1)

/-- The entry with which a team's write of a slot it owns stands in its store queue (R176). -/
def Cx.slotEntry (c : Cx) (h : W32) (k : Nat) (x : W64) : StoreEnt :=
  { kind := .frame (c.frameKey h) k, va := slotAddr h k, tier := 9, key := slotKey (c.frameKey h) k
    bytes := natBytes 8 x.toNat, ms := .team, grans := [], pc := mkPc c.pkt c.slot, heals := [] }

/-- FrameWrite (R176): an owning team's write enters its store queue and folds into its hash (R253, R338); none where the
undo log stalls. -/
def Cx.frameWrite (c : Cx) (s : State) (l k : Nat) (x : W64) : Option State :=
  match c.frameAt l with
  | none => some s
  | some (h, f) =>
    if ownsFrame c.p f then
      if c.sc = .team then
        some (foldHash (c.onTeam s fun t => { t with storeQ := t.storeQ ++ [c.slotEntry h k x] }) c.ctx c.g c.b c.t
          (slotAddr h k) (natBytes 8 x.toNat))
      else storeSlot s c.ctx c.engine c.g c.b c.k h k x
    else some (s.modSeq c.p fun q =>
      let key := pendKey f.serial k
      { q with pend := mset q.pend key (match mget q.pend key with
          | some p => foldMode (f.mode k) p x
          | none => x) })

/-- Publishes every contribution of a position to the frame a handle names, slot by slot (R173). A LAST
publication is an arbitration point (R332). A contribution whose record the log has no room for stays
pending (R324). -/
def publishFrame (s : State) (p : Party) (ctx engine g b k : Nat) (h : W32) : State :=
  match mget s.frames (handleKey g b k h), s.seqOf p with
  | some f, some q =>
    (List.range 16).foldl (fun s n =>
      match mget q.pend (pendKey f.serial n) with
      | none => s
      | some x =>
        let cur := ((mget s.frames (handleKey g b k h)).map (·.slot n)).getD 0
        match storeSlot s ctx engine g b k h n (foldMode (f.mode n) cur x) with
        | none => s
        | some s =>
          let s := if f.mode n = 6 then arbTurn s ctx 3 (slotAddr h n) (reqOf p) 1 else s
          s.modSeq p fun q => { q with pend := mdel q.pend (pendKey f.serial n) }) s
  | _, _ => s

/-- Handles of the frames of a party's grid that it has contributions to. -/
def pendHandles (s : State) (p : Party) (g b k : Nat) : List W32 :=
  match s.seqOf p with
  | none => []
  | some q =>
    let serials := q.pend.map fun e => e.1 / 16
    (s.frames.filterMap fun e =>
      if e.2.serial.toNat ∈ serials ∧ e.1 / 2 ^ 48 / 4 = g then
        let st := e.1 / 2 ^ 48 % 4
        let inst := e.1 / 2 ^ 16 % 2 ^ 32
        let h : W32 := BitVec.ofNat 32 (st * 2 ^ 30 + e.1 % 2 ^ 16)
        if handleKey g b k h = e.1 ∧ (st = 2 ∨ inst = (if st = 0 then b else k)) then some h else none
      else none)

/-- Whether a party has contributions that no frame has taken: the log has had no room for them (R324). -/
def unpublished (s : State) (p : Party) (g b k : Nat) : Bool := !(pendHandles s p g b k).isEmpty

/-- Publishes every contribution of a party (R173). -/
def publishAll (s : State) (p : Party) (ctx engine g b k : Nat) : State :=
  (pendHandles s p g b k).foldl (fun s h => publishFrame s p ctx engine g b k h) s

end Sys2Proof.Machine
end

