-- ==== Sys2Proof/Machine/Image.lean ====
section
/-! DEFINITION. What a context image holds (R301, R302), and the windows and checkpoints of the undo log
(R320, R322, R324). An image is kept as a record; its bytes are its header and its parts in R301's order, each part laid out as the
device does. -/

namespace Sys2Proof.Config

/-- The bytes of the parts of an image, whose layout is the device's own (R301): the grid's with its store; a cluster instance's with
its pool; a block's with its frames, scratch area, poison marks, bins and residues; a team's with its spill area. DESIGN CHOICE, log
entry 2. -/
opaque gridPart : Machine.Grid → Machine.AMap Machine.Frame → List Byte
opaque clusterPart : Nat → Machine.Clus → Machine.AMap Machine.Frame → List Byte
opaque blockPart : Nat → Machine.Blk → Machine.AMap Machine.Frame → Machine.Memory → Machine.NSet →
  List Machine.Bin × List Machine.MatEnt × List Machine.Copy → List Byte
opaque teamPart : Nat → Nat → Machine.Team → Machine.Memory → List Byte

/-- What an image that another device has saved holds, under the number that its grid takes here, with its context (R303, R400).
DESIGN CHOICE, log entry 57. -/
opaque imageParse : Nat → List Byte → Option (Machine.Image × Machine.Ctx)

end Sys2Proof.Config

namespace Sys2Proof.Machine

/-! ### Whose a key is -/

/-- Grid of a block or cluster key. -/
def bkGrid (k : Nat) : Nat := k / 2 ^ 32
/-- Grid of a team key. -/
def tkGrid (k : Nat) : Nat := k / 16 / 2 ^ 32
/-- Grid of a frame key. -/
def fkGrid (k : Nat) : Nat := k / 2 ^ 48 / 4

/-- The block that a scratch or spill byte belongs to. -/
def byteBlk (key : Nat) : Option (Nat × Nat) :=
  let u := key / 2 ^ 56
  if u % 4 = 2 then some (u / 4 / 2 ^ 32, u / 4 % 2 ^ 32)
  else if u % 4 = 3 then some (u / 4 / 16 / 2 ^ 32, u / 4 / 16 % 2 ^ 32)
  else none

/-- The grid of a CSM byte. -/
def byteCsm (key : Nat) : Option Nat := if key / 2 ^ 56 % 4 = 1 then some (key / 2 ^ 56 / 4) else none

/-! ### Images -/

/-- Scratchpad lines of a block: .scratch + F over 128 (R164, R302). -/
def frameRegion (nteam nlane : Nat) : Nat := 1280 * (nteam + 1) + 64 * nlane * nteam
def blockLines (l : LaunchRec) : Nat := (l.scratch * 128 + frameRegion l.nteam l.team) / 128

/-- Register granules of a team (R124). -/
def granulesOf (regs nlane : Nat) : Nat := (regs * nlane * 4 + 1023) / 1024

/-- The largest image of a grid (R316). -/
def imax (l : LaunchRec) : Nat :=
  let x := 16384 + l.grid * (4096 + 1024 * (l.nteam * granulesOf l.regs l.team) + 65536 * l.tiles +
    2 * (l.scratch * 128 + frameRegion l.nteam l.team) + l.nteam * (8192 + 16 * l.team))
  (x + 4095) / 4096 * 4096

/-- Counts of a grid on a core, by number (R344). -/
def coreCounts (gr : Grid) (core : Nat) : AMap Nat :=
  (gr.counters.filter fun e => decide (e.1 / 256 = core)).map fun e => (e.1 % 256, e.2)

/-- Whether a saved block takes its core's counts along: it is the first of the saved blocks of its core, and no block of its
grid stays there (R344). DEDUCED, log entry 99. -/
def takesCounts (s : State) (g : Nat) (pick : Nat → Bool) (saved : AMap Blk) (e : Nat × Blk) : Bool :=
  decide ((saved.find? fun x => decide (x.2.core = e.2.core)).map (·.1) = some e.1) &&
    !(s.blocks.any fun x => decide (bkGrid x.1 = g ∧ x.2.core = e.2.core) && !(pick (x.1 % 2 ^ 32)))

/-- Blocks as an image holds them, with the counts that they carry. -/
def carryCounts (s : State) (g : Nat) (gr : Grid) (pick : Nat → Bool) (saved : AMap Blk) : AMap Blk :=
  saved.map fun e => if takesCounts s g pick saved e then (e.1, { e.2 with carry := coreCounts gr e.2.core }) else e

/-- A grid without the counts that the saved blocks carry. -/
def dropCounts (s : State) (g : Nat) (pick : Nat → Bool) (saved : AMap Blk) (gr : Grid) : Grid :=
  let cores := (saved.filter (takesCounts s g pick saved)).map (·.2.core)
  { gr with counters := gr.counters.filter fun e => decide (e.1 / 256 ∉ cores) }

/-- Whether a byte or frame of an image is a given block's. -/
def ofBlock (i : Image) (b key : Nat) : Bool := decide (byteBlk key = some (i.gid, b))

/-- The frames of an image in the cells of a store's instance (R163). -/
def storeFrames (i : Image) (store inst : Nat) : AMap Frame :=
  i.frames.filter fun e => decide (e.1 / 2 ^ 48 % 4 = store ∧ e.1 / 2 ^ 16 % 2 ^ 32 = inst)

/-- The part of a block in an image. -/
def blockBytes (i : Image) (b : Nat) (x : Blk) : List Byte :=
  Config.blockPart b x (storeFrames i 0 b) (i.bytes.filter fun e => ofBlock i b e.1 && decide (e.1 / 2 ^ 56 % 4 = 2))
    (i.poison.filter fun k => ofBlock i b (k * 64)) (i.bins.filter fun y => decide (y.blk = b),
      (i.mats.flatMap (·.2)).filter fun m => decide (partyBlk m.party = some b),
      i.copies.filter fun c => decide (partyBlk c.party = some b))

/-- What follows the header of an image, in R301's order, no more than R316 says; then the CSM part where it is there. -/
def imageBody (l : LaunchRec) (i : Image) : List Byte :=
  ((match i.grid with
    | some g => Config.gridPart g (storeFrames i 2 0)
    | none => []) ++
  (i.clusters.flatMap fun e => Config.clusterPart (e.1 % 2 ^ 32) e.2 (storeFrames i 1 (e.1 % 2 ^ 32))) ++
  (i.blocks.flatMap fun e => blockBytes i (e.1 % 2 ^ 32) e.2) ++
  (i.teams.flatMap fun e => Config.teamPart (e.1 / 16 % 2 ^ 32) (e.1 % 16) e.2
    (i.bytes.filter fun y => decide (spillKey i.gid (e.1 / 16 % 2 ^ 32) (e.1 % 16) 0 ≤ y.1 ∧
      y.1 < spillKey i.gid (e.1 / 16 % 2 ^ 32) (e.1 % 16) (2 ^ 56))))).take (imax l - 64) ++
  (if i.csmPart then readBytes i.bytes (csmKey i.gid 0) (l.csm * 64) else [])

/-- The header of an image (R302). -/
def imageHeader (gr : Grid) (c : Ctx) (stamp : W64) (bytes saved stopped : Nat) (part csm : Bool) (status : Nat) :
    BitVec 512 :=
  let b (x : Bool) (n : Nat) : Nat := if x then 2 ^ n else 0
  BitVec.ofNat 512 (packFields [(448, bytes % 2 ^ 64), (384, stamp.toNat), (320, gr.csn.toNat), (288, gr.queue),
    (256, gr.lrec.grid), (224, saved), (208, gr.lrec.team), (200, gr.lrec.nteam), (192, gr.lrec.regs),
    (184, gr.lrec.tiles), (176, gr.depth), (160, blockLines gr.lrec), (128, gr.lrec.csm), (96, stopped),
    (64, 1), (8, b gr.lrec.cmode 0 + b c.undo 1 + b c.record 2 + b c.conf 3 + b part 4 + b csm 5), (0, status)])

/-- A cluster instance goes with its four blocks. -/
def pickClu (pick : Nat → Bool) (k : Nat) : Bool := (List.range 4).all fun i => pick (4 * k + i)

/-- The image of the blocks of a grid that `pick` selects, with the grid's own part when `whole` (R301). A
freed spawn bin's lanes, matrix and copy residues go with the block they belong to. -/
def imageOf (s : State) (g : Nat) (pick : Nat → Bool) (whole : Bool) (status : Nat) : Image :=
  match s.grid g with
  | none => ⟨g, 0, none, [], [], [], [], [], [], [], [], [], false, false, none, false⟩
  | some gr =>
    let mineB (k : Nat) : Bool := decide (bkGrid k = g) && pick (k % 2 ^ 32)
    let mineP (p : Party) : Bool := decide (p.gridNo = g) && (match partyBlk p with
      | some b => pick b
      | none => whole)
    let c := (mget s.ctxs gr.ctx)
    let blocks := s.blocks.filter fun e => mineB e.1
    let teams := s.teams.filter fun e => mineB (e.1 / 16)
    let clusters := s.clusters.filter fun e => decide (bkGrid e.1 = g) && (whole || pickClu pick (e.1 % 2 ^ 32))
    let seqs : List Seq := (if whole then [gr.lvl.seq] else []) ++ (clusters.map (·.2.lvl.seq)) ++
      (blocks.map (·.2.lvl.seq)) ++ teams.map (·.2.seq)
    let stopped := (seqs.filter (·.stop.isSome)).length
    let mineByte (k : Nat) : Bool := match byteBlk k with
      | some (a, b) => decide (a = g) && pick b
      | none => false
    let i : Image := {
       gid := g, hdr := 0, grid := if whole then some (dropCounts s g pick blocks gr) else none
       clusters := clusters
       blocks := carryCounts s g gr pick blocks
       teams := teams
       frames := s.frames.filter fun e => decide (fkGrid e.1 = g) && (match e.1 / 2 ^ 48 % 4 with
         | 0 => pick (e.1 / 2 ^ 16 % 2 ^ 32)
         | 1 => whole || pickClu pick (e.1 / 2 ^ 16 % 2 ^ 32)
         | _ => whole)
       bins := (s.bins.map (·.2)).filter fun b => decide (b.grid = g) && pick b.blk
       mats := [(0, (s.matq.flatMap (·.2)).filter fun m => mineP m.party)]
       copies := (s.copies.map (·.2)).filter fun x => mineP x.party
       bytes := s.mem.filter fun e => mineByte e.1
       poison := s.poison.filter fun k => mineByte (k * 64)
       csmPart := false, csmWanted := false, addr := none, auto := false }
    match c with
    | some c =>
      let n := 64 + (imageBody gr.lrec i).length
      { i with hdr := imageHeader gr c (s.clock (s.engineOf (.grid g))) n blocks.length stopped (!whole) false status }
    | none => i

/-- Takes out of the machine what an image of these blocks holds, their locks included. -/
def dropParts (s : State) (g : Nat) (pick : Nat → Bool) (whole : Bool) : State :=
  let mineB (k : Nat) : Bool := decide (bkGrid k = g) && pick (k % 2 ^ 32)
  let mineP (p : Party) : Bool := decide (p.gridNo = g) && (match partyBlk p with
    | some b => pick b
    | none => whole)
  let mineByte (k : Nat) : Bool := match byteBlk k with
    | some (a, b) => decide (a = g) && pick b
    | none => false
  { s with
    grids := if whole then mdel s.grids g
      else mmod s.grids g (dropCounts s g pick (s.blocks.filter fun e => mineB e.1))
    rcache := s.rcache.filter fun e => !(s.blocks.any fun x => mineB x.1 && decide (x.2.core = e.core))
    clusters := s.clusters.filter fun e => !(decide (bkGrid e.1 = g) && (whole || pickClu pick (e.1 % 2 ^ 32)))
    blocks := s.blocks.filter fun e => !(mineB e.1)
    teams := s.teams.filter fun e => !(mineB (e.1 / 16))
    frames := s.frames.filter fun e => !(decide (fkGrid e.1 = g) && (match e.1 / 2 ^ 48 % 4 with
      | 0 => pick (e.1 / 2 ^ 16 % 2 ^ 32)
      | 1 => whole || pickClu pick (e.1 / 2 ^ 16 % 2 ^ 32)
      | _ => whole))
    bins := s.bins.filter fun e => !(decide (e.2.grid = g) && pick e.2.blk)
    matq := s.matq.map fun e => (e.1, e.2.filter fun m => !(mineP m.party))
    copies := s.copies.filter fun e => !(mineP e.2.party)
    mem := s.mem.filter fun e => !(mineByte e.1)
    poison := s.poison.filter fun k => !(mineByte (k * 64)) }

/-- Grids that run under a context: a grid and its live children. -/
def ctxGrids (s : State) (c : Nat) : List Nat := (s.grids.filter fun e => decide (e.2.ctx = c)).map (·.1)

/-- The context of an image's grid. -/
def Image.ctxOf (i : Image) (s : State) : Option Nat := match i.grid with
  | some gr => some gr.ctx
  | none => (s.grid i.gid).map (·.ctx)

/-- The context of a launch that waits. -/
def PLaunch.ctxOf (pl : PLaunch) (s : State) : Option Nat := match pl.launcher with
  | .parent g => (match s.grid g with
    | some gr => some gr.ctx
    | none => (s.images.find? fun e => decide (e.2.gid = g)).bind fun e => e.2.ctxOf s)
  | _ => none

/-! ### Windows -/

/-- The slot of a window that opens; none where every slot is held and the log stalls (R324). -/
def freeCkpt (u : UndoLog) : Nat → Option (UndoLog × Nat)
  | 0 => none
  | f + 1 =>
    match (List.range (u.nck + 1)).find? fun k => !(u.ckpts.any fun c => decide (c.slot = k)) with
    | some k => some (u, k)
    | none => if u.stall then none else freeCkpt (dropOldest u) f

/-- The images of a context's grids, taken in place for a checkpoint (R320). -/
def snapAll (s : State) (gs : List Nat) : List Image := gs.map fun g => imageOf s g (fun _ => true) true 0

/-- Bytes of the images that a checkpoint of a context would hold (R316). -/
def ckptBytes (s : State) (c : Nat) : Nat :=
  let ours := (s.images.filter fun e => decide (e.2.ctxOf s = some c)).map (·.2)
  ((snapAll s (ctxGrids s c) ++ ours).map fun i => (i.hdr.extractLsb' 448 64).toNat).sum

/-- Whether a window of a scope can open now: room for its record and, at GRID scope, a slot, which holds the checkpoint's
images (R316, R324). A log that discards always has it. -/
def canOpen (s : State) (c : Nat) (sc : Scope) : Bool :=
  match (mget s.ctxs c).bind (·.ulog) with
  | none => true
  | some u => !u.stall || ((undoRoom (recordNeed s c u) (u.ckpts.length + 1) u).isSome &&
      (decide (sc ≠ .grid) || ((freeCkpt u (u.ckpts.length + 1)).isSome && decide (ckptBytes s c ≤ u.cslot))))

/-- What a checkpoint too large for its slot does to a log that discards (R316, R324). DESIGN CHOICE, log entry 101. -/
def largeCkpt (s : State) (c : Nat) (u : UndoLog) : UndoLog := if u.cslot < ckptBytes s c then dropOldest u else u

/-- Sets every party's count of chains to zero (R327). -/
def zeroChains (s : State) (gs : List Nat) : State :=
  gs.foldl (fun s g => (s.partiesOf g).foldl (fun s p => s.modSeq p fun q => { q with chains := 0 }) s) s

/-- The same in a saved image. -/
def Image.zeroed (i : Image) : Image :=
  let f (q : Seq) : Seq := { q with chains := 0 }
  let l (v : Lvl) : Lvl := { v with seq := f v.seq }
  { i with
    grid := i.grid.map fun x => { x with lvl := l x.lvl }
    clusters := i.clusters.map fun e => (e.1, { e.2 with lvl := l e.2.lvl })
    blocks := i.blocks.map fun e => (e.1, { e.2 with lvl := l e.2.lvl })
    teams := i.teams.map fun e => (e.1, { e.2 with seq := f e.2.seq }) }

/-- How many chains the parties of an image have committed. -/
def Image.counts (i : Image) : List (Party × Nat) :=
  (i.grid.map fun x => (Party.grid i.gid, x.lvl.seq.chains)).toList ++
    (i.clusters.map fun e => (Party.cluster i.gid (e.1 % 2 ^ 32), e.2.lvl.seq.chains)) ++
    (i.blocks.map fun e => (Party.block i.gid (e.1 % 2 ^ 32), e.2.lvl.seq.chains)) ++
    i.teams.map fun e => (Party.team i.gid (e.1 / 16 % 2 ^ 32) (e.1 % 16), e.2.seq.chains)

/-- What a checkpoint of a context holds: the images of its grids, those already saved among them, and the counts
that the parties had, those that have ended included (R320, R327). -/
def takeCkpt (s : State) (c : Nat) (n : W32) (slot start recAt : Nat) : Ckpt × State :=
  let gs := ctxGrids s c
  let ours := s.images.filter fun e => decide (e.2.ctxOf s = some c)
  let ends := (gs.flatMap fun g => (s.partiesOf g).filterMap fun p => (s.seqOf p).map fun q => (p, q.chains)) ++
    ours.flatMap (fun e => e.2.counts) ++ ((mget s.ctxs c).map (·.gone)).getD []
  let s := (zeroChains s gs).modCtx c fun x => { x with gone := [] }
  let s := ours.foldl (fun s e => { s with images := mset s.images e.1 e.2.zeroed }) s
  ({ slot := slot, window := n, start := start, recAt := recAt, images := snapAll s gs ++ ours.map fun e => e.2.zeroed
     launches := s.launches.filter fun e => decide (e.2.ctxOf s = some c)
     msgs := s.msgs.filter fun e => gs.contains e.2.grid, ends := ends }, s)

/-- Byte count of a record at the start of window n: what is appended, or in a replay the place of the script's first chunk of that
window or of a later one (R334, R335). -/
def recordAt (x : Ctx) (n : W32) : Nat :=
  let all := (x.arb.map (·.appended)).getD 0
  match x.replay with
  | some rp => (rp.script.filter fun ch => decide ((ch.window % 256 + 256 - n.toNat % 256) % 256 < 128)).foldl (fun m ch => min m (16 * ch.num)) all
  | none => all

/-- A replay to window n ends there: the grids of the context freeze (R325, R348). -/
def endAtWindow (s : State) (c : Nat) (n : W32) : State :=
  match (mget s.ctxs c).bind (·.replay) with
  | some rp =>
    if rp.till = .window n then
      let s := s.modCtx c fun x => { x with replay := some { rp with till := .script } }
      (ctxGrids s c).foldl (fun s g => s.freeze g) s
    else s
  | none => s

/-- Opens window n of a context (R320, R322): open chunks close, a grid window takes a checkpoint, the window-open record
is appended. The freeze and thaw of R320 fall within the one step. A log without room, in DISCARD-OLDEST mode, gives up
its oldest windows; in STALL mode `canOpen` has been asked before. DEDUCED, log entry 38. -/
def openWindow (s : State) (g c : Nat) (n : W32) (sc : Scope) (tag : BitVec 16) (engine : Nat) : State :=
  let s := closeChunks s c
  match mget s.ctxs c with
  | none => s
  | some x => match x.ulog with
    | none => s
    | some u =>
      let u := if sc = .grid ∧ !u.stall then largeCkpt s c u else u
      let (u, slot) := match if sc = .grid then freeCkpt u (u.ckpts.length + 1) else none with
        | some (u, k) => (u, some k)
        | none => (u, none)
      let s := s.modCtx c fun x => { x with ulog := some { u with newwin := n } }
      let (ck, s) := match slot with
        | some k =>
          let (ck, s) := takeCkpt s c n k 0 (recordAt x n)
          (some ck, s)
        | none => (none, s)
      let addr : W64 := match slot with
        | some k => BitVec.ofNat 64 k
        | none => BitVec.allOnes 64
      match undoBy s g c 2 6 sc.rank engine addr (n.toNat + tag.toNat * 2 ^ 32) with
      | none => s
      | some s =>
        let s := match ck with
          | none => s
          | some ck => s.modCtx c fun x => { x with ulog := x.ulog.map fun u => { u with
              oldwin := if u.ckpts.isEmpty then n else u.oldwin
              ckpts := u.ckpts ++ [{ ck with start := u.head }] } }
        endAtWindow s c n

/-- The next window number of a context. -/
def nextWindow (s : State) (c : Nat) : W32 :=
  match (mget s.ctxs c).bind (·.ulog) with
  | some u => u.newwin + 1
  | none => 0

/-! ### Store hash checks (R338) -/

/-- A team's hash check: a gate where a replay diverges or the record is full; else appended or compared, and reset. -/
def hashCheck (s : State) (c g b t : Nat) : Sum Gate State :=
  match s.team g b t with
  | none => .inr s
  | some tm =>
    if !(s.recordOn c) then .inr s
    else
      let r := reqOf (.team g b t)
      let zero (s : State) : State := s.modTeam g b t fun x => { x with shash := 0 }
      if s.scripted c then
        if scriptValue s c 6 r = some tm.shash then
          .inr (zero (s.modCtx c fun x => { x with
            replay := x.replay.map fun rp => { rp with script := dropFirst 6 r rp.script } }))
        else .inl .diverge
      else if turnsFull s c 6 [tm.shash] r then .inl .full
      else .inr (zero (arbTurn s c 6 tm.shash r 1))

end Sys2Proof.Machine
end

