-- ==== Sys2Proof/Machine/Barrier.lean ====
section
/-! DEFINITION. The named barriers of a block (R270 to R273). -/

namespace Sys2Proof.Machine

/-- A barrier as placement leaves it. -/
def Barrier.start : Barrier := ⟨0, 0, []⟩

def barOf (b : Blk) (k : Nat) : Barrier := (mget b.bars k).getD Barrier.start

/-- A team that has arrived retires and keeps its arrival (R271), under a number that no later team's index equals. -/
def Barrier.keep (r : Barrier) (t : Nat) : Barrier :=
  if t ∈ r.arrived then { r with arrived := sadd1 (sdel1 r.arrived t) (r.arrived.foldl max 15 + 1) } else r

/-- The live launched teams of a block. -/
def launchedOf (s : State) (g b : Nat) : List Nat :=
  ((s.teamsOf g b).filter fun e => !e.2.detached).map (·.1)

/-- Whether the phase of a barrier completes (R271). -/
def barComplete (s : State) (g b : Nat) (x : Barrier) : Bool :=
  !x.arrived.isEmpty && (if x.count = 0 then (launchedOf s g b).all fun t => decide (t ∈ x.arrived)
    else decide (x.count ≤ x.arrived.length))

/-- Completes the phase of a barrier where it is due: the phase advances, the arrived set empties, the core's
clock advances (R271, R329). -/
def barSettle (s : State) (g b k : Nat) : State :=
  match s.block g b with
  | some x =>
    let r := barOf x k
    if barComplete s g b r then
      (s.modBlock g b fun x => { x with bars := mset x.bars k ⟨r.phase + 1, 0, []⟩ }).bump x.core
    else s
  | none => s

/-- Every barrier of a block, after a team has retired (R271). -/
def barSettleAll (s : State) (g b : Nat) : State :=
  match s.block g b with
  | some x => (x.bars.map (·.1)).foldl (fun s k => barSettle s g b k) s
  | none => s

/-- A team that waits at a BAR sync whose phase is not over: its barrier and the slot of the BAR. -/
def barWait (x : Blk) (t : Team) : Option (Nat × Nat) :=
  match t.seq.wait with
  | some (.bar k ph n) => if (barOf x k).phase = ph then some (k, n) else none
  | _ => none

/-- The stranded block (R273): every live team waits at a BAR sync and no bin holds lanes of the block.
Each raises 0x40 at its BAR, its arrival withdrawn. -/
def strandCheck (s : State) (g b : Nat) : State :=
  match s.block g b with
  | none => s
  | some x =>
    let ts := s.teamsOf g b
    if !ts.isEmpty && (ts.all fun e => (barWait x e.2).isSome) &&
        !(s.bins.any fun e => decide (e.2.grid = g ∧ e.2.blk = b) && !e.2.lanes.isEmpty) then
      ts.foldl (fun s e =>
        let (k, slot) := (barWait x e.2).getD (0, 0)
        let s := s.modSeq (.team g b e.1) fun q => { q with wait := none, began := none }
        let s := s.modBlock g b fun x =>
          let r := barOf x k
          let a := sdel1 r.arrived e.1
          { x with bars := mset x.bars k { r with arrived := a, count := if a.isEmpty then 0 else r.count } }
        takeFault s (.team g b e.1) { cls := 0x40, cause := 4, slot := slot }) s
    else s

end Sys2Proof.Machine
end

