-- ==== Sys2Proof/WellFormed.lean ====
section
/-! DEFINITION. Well-formedness: what an instruction's entry requires of its fields beyond the layout of
its words. A member that breaks it raises 0x01 at step 2 of R66. -/

namespace Sys2Proof

/-- Orders a load accepts (R240). -/
def Order.loadOk : Order → Bool
  | .relaxed | .acquire => true
  | _ => false

/-- Orders a store, BOP, COPY or AMSG accepts (R213, R240, R268, R282). -/
def Order.storeOk : Order → Bool
  | .relaxed | .release => true
  | _ => false

/-- Sizes w and d (R242, R267, R278). -/
def Size.wide : Size → Bool
  | .w | .d => true
  | _ => false

/-- The mode of slot i of FRDEF: 7 is reserved, and a slot whose mask bit is 0 has mode field 0 (R179). -/
def frdefModeOk (mask : BitVec 8) (modes : BitVec 24) (i : Nat) : Bool :=
  let m := modes.extractLsb' (3 * i) 3
  decide (m ≠ 7) && (mask.getLsbD i || decide (m = 0))

/-- Operation codes of R261 that the member of a size accepts. -/
def atomOpOk (op : BitVec 4) (dbl cas : Bool) : Bool :=
  decide (op.toNat ≤ 11) && !(dbl && decide (op = 9)) || (cas && decide (op = 12))

/-- What the entries require; every other instruction has no such condition. -/
def Instr.wf : Instr → Bool
  | .loop s _ _ => decide (s ≠ .lane)                              -- R117
  | .endl s _ => decide (s ≠ .lane)                                -- R117
  | .call s _ => decide (s ≠ .lane)                                -- R118
  | .callFrame s l _ => decide (s ≠ .lane) && decide (l ≠ 0)       -- R118
  | .ret s => decide (s ≠ .lane)                                   -- R119
  | .frdef s _ _ m x => decide (s ≠ .lane) && (List.range 8).all (frdefModeOk m x)   -- R179
  | .frfence s _ => decide (s ≠ .lane)                             -- R180
  | .wmark s _ => decide (s ≠ .lane)                               -- R322
  | .waitf m => decide (m ≠ 0)                                     -- R220
  | .bar k c => decide (k.toNat < 96) && decide (c.toNat ≤ 16)     -- R276
  | .barArr k c => decide (k.toNat < 96) && decide (c.toNat ≤ 16) && decide (c ≠ 0)
  | .waitm _ _ _ z c x cc => z.wide && !c && x.order.loadOk && decide (cc.toNat ≤ 5)  -- R278
  | .imad _ _ _ _ m => decide (m ≠ 3)                              -- R137
  | .bfx _ _ b i p _ _ => if i then decide (b = .v 0) else decide (p = 0)   -- R138
  | .bfi _ _ b i p _ => if i then decide (b = .v 0) else decide (p = 0)
  | .cvt _ _ s t => decide (s.toNat ≤ 6) && decide (t.toNat ≤ 6)   -- R158
  | .cvtq _ _ _ _ m _ => decide (m ≠ 3)                            -- R161
  | .frnd _ _ m => decide (m.toNat ≤ 4)                            -- R159
  | .fcls _ _ t => decide (t.toNat ≤ 4)                            -- R160
  | .vote _ k n _ => decide (n = 2) || decide (k = .v 0)           -- R86
  | .pfxc _ _ m _ => decide (m.toNat ≤ 1)                          -- R87
  | .reduce _ _ o => decide (o.toNat ≤ 11)                         -- R90
  | .plog _ p qs a b =>                                            -- R91
      let isQ : PredSel → Bool := fun x => match x with
        | .q _ => true
        | .p _ => false
      isQ p || isQ a || isQ b || decide (qs = 0)
  | .actm _ k s => decide (s.toNat ≤ 2) && (decide (s = 0) || decide (k = .v 0))   -- R92
  | .smovx _ _ k i => decide (k ≠ 3) && (decide (k ≠ 2) || decide (i.extractLsb' 16 8 = 0))   -- R121
  | .ldExt _ _ _ z _ x s => x.order.loadOk && !(s && decide (z = .d))   -- R240
  | .ldsExt _ _ _ z _ x s => x.order.loadOk && !(s && decide (z = .d))
  | .stExt _ _ _ _ _ x => x.order.storeOk
  | .stsExt _ _ _ _ _ x => x.order.storeOk
  | .ldstr _ _ _ z _ x _ => z.wide && x.order.loadOk               -- R242
  | .ststr _ _ _ z _ x _ => z.wide && x.order.storeOk
  | .cpst _ _ _ _ _ x _ => x.order.storeOk                         -- R243
  | .pmovExt dir _ _ x => if dir then x.order.storeOk else x.order.loadOk   -- R244
  | .prefExt _ _ _ _ x => decide (x.order = .relaxed)              -- R245
  | .atom _ _ _ z _ _ _ _ op => z.wide && atomOpOk op (decide (z = .d)) false   -- R267
  | .cas _ _ _ z _ _ _ _ _ => z.wide
  | .atoms _ _ _ z _ _ _ _ op => z.wide && atomOpOk op (decide (z = .d)) true
  | .bop _ _ _ wide x op => x.order.storeOk && atomOpOk op wide false   -- R268
  | .copy _ _ _ f x => x.order.storeOk && decide (f.toNat ≤ 11)    -- R213
  | .copyt _ _ _ f x => x.order.storeOk && decide (f.toNat ≤ 11)   -- R218
  | .amsg _ _ _ x _ _ _ => x.order.storeOk && decide (x.ms ≠ .team) && decide (x.ms ≠ .system)   -- R282
  | .ard _ c _ _ _ => decide (c ≠ 3)                               -- R200
  | .awr _ c _ _ _ => decide (c ≠ 3)
  | .clkr _ s => decide (s.toNat ≤ 1)                              -- R347
  | _ => true

end Sys2Proof
end

