-- ==== Sys2Proof/Machine/Issue.lean ====
section
/-! DEFINITION. How a chain issues (R51 to R54, R66): the checks in their order, breakpoints, merging,
nesting, running the members against the state before the chain, commit, and completing a segment. -/

namespace Sys2Proof.Machine

/-- What a member's meaning answers. `ok`, `jump`, `split`, `gone`, `trap` and `mark` carry the state with
the member's effects (`mark`: a window opens at commit); `hold` and `fault` carry the state with only what stands although nothing of the
chain commits; `part` the completed lanes; `later` leaves the others to commit and issues the member
again alone; `await` carries the state with only what the member begins, and the whole chain is issued again when the wait
is over; `dead` names physical memory that does not exist. -/
inductive MRes where
  | ok (s : State)
  | jump (s : State) (pc : W32)
  | split (s : State) (taken : Mask) (pc : W32)
  | gone (s : State)
  | trap (s : State) (f : FInfo)
  | mark (s : State) (sc : Scope) (tag : BitVec 16)
  | later (s : State) (w : Wait)
  | await (side : State) (w : Wait)
  | hold (side : State) (w : Wait)
  | fault (side : State) (f : FInfo)
  | part (s : State) (f : FInfo)
  | dead (pa : Nat)
deriving DecidableEq, Repr

/-- A member's meaning: the issue context and the state that earlier members of the chain left. -/
abbrev Body := Cx → State → MRes

/-! ### Tokens, versions, teams of a scope -/

/-- Live launched teams of a scope instance: blk and team, in the order of R84, saved ones included. -/
def liveTeams (s : State) (g : Nat) (sc : Scope) (inst : Nat) : List (Nat × Nat) :=
  let here := s.teams ++ (s.images.flatMap fun e => e.2.teams)
  let inB (b : Nat) : Bool := match sc with
    | .block => decide (b = inst)
    | .cluster => decide (instOf b = inst)
    | _ => true
  (here.filterMap fun e =>
    let gb := e.1 / 16
    let b := gb % 2 ^ 32
    if decide (gb / 2 ^ 32 = g) && !e.2.detached && inB b then some (b, e.1 % 16) else none).insertionSort
    fun x y => x.1 < y.1 ∨ (x.1 = y.1 ∧ x.2 ≤ y.2)

/-- The instance number of a level party. -/
def instNo : Party → Nat
  | .block _ b => b
  | .cluster _ k => k
  | _ => 0

/-- Tokens of a position. -/
def seqTokens (q : Seq) : List Token := q.tok.toList ++ q.queue

/-- Every token that can name a version of a scope instance (R104): rings, queues, current tokens, tokens
held for detached teams and for bins that will form one, those of saved parties among them. A token's version fields of a
scope are meaningful from that scope's emission down, so the tokens that a block or cluster walks name no version of its
own registers. -/
def tokensOf (s : State) (g : Nat) (sc : Scope) (inst : Nat) : List Token :=
  let inB (b : Nat) : Bool := match sc with
    | .block => decide (b = inst)
    | .cluster => decide (instOf b = inst)
    | _ => true
  let ts := (s.teams ++ s.images.flatMap fun e => e.2.teams).flatMap fun e =>
    if e.1 / 16 / 2 ^ 32 = g ∧ inB (e.1 / 16 % 2 ^ 32) then seqTokens e.2.seq else []
  let bs := (s.blocks ++ s.images.flatMap fun e => e.2.blocks).flatMap fun e =>
    if e.1 / 2 ^ 32 = g ∧ sc ≠ .block ∧ inB (e.1 % 2 ^ 32) then seqTokens e.2.lvl.seq else []
  let ks := (s.clusters ++ s.images.flatMap fun e => e.2.clusters).flatMap fun e =>
    if e.1 / 2 ^ 32 = g ∧ sc = .grid then seqTokens e.2.lvl.seq else []
  let bins := (s.bins.map (·.2) ++ s.images.flatMap fun e => e.2.bins).flatMap fun x =>
    if x.grid = g ∧ inB x.blk then x.tok.toList else []
  let ring := if sc = .grid then ((s.grid g).map (·.ring)).getD [] else []
  ts ++ bs ++ ks ++ bins ++ ring

/-- The version of register n of a scope that a token names. -/
def tokVer (t : Token) (sc : Scope) (n : Nat) : Nat :=
  match sc with
  | .block => verOf t.bver n
  | .cluster => verOf t.cver n
  | _ => verOf t.gver n

/-- The lowest free version slot of a register (R104). -/
def freeSlot (s : State) (g : Nat) (sc : Scope) (inst n : Nat) (r : VReg) : Option Nat :=
  let used := (tokensOf s g sc inst).map fun t => tokVer t sc n
  (List.range 4).find? fun k =>
    decide (k ≠ r.newest) && (r.at k).isSome && !decide (k ∈ used)

/-- Writes a new version, or a pending one (R103). -/
def putVersion (r : VReg) (k : Nat) (x : Option W64) : VReg := ⟨r.slots.set k x, k⟩

/-- The register number of a b, c or g operand. -/
def regNo : Operand → Nat
  | .b n => n.toNat
  | .c n => n.toNat
  | .g n => n.toNat
  | .s n => n.toNat
  | _ => 0

/-- A free slot for a version write of the executing level. -/
def Cx.slotFor (c : Cx) (d : Operand) : Option Nat :=
  ((c.pre.lvlOf c.p).bind (·.vregs[regNo d]?)).bind fun r =>
    freeSlot c.pre c.g c.sc (instNo c.p) (regNo d) r

/-- ScalarWrite (R120): s registers, versions (a free slot or the chain waits, R105), frame slots by their
mode (0x30 at step 5, R176). -/
def Cx.scalarWrite (c : Cx) (s : State) (d : Operand) (x : W64) : MRes :=
  match d with
  | .s n => .ok (c.onTeam s fun t => t.setS n.toNat x)
  | .frame l k =>
    if c.slotBad l.toNat k.toNat then .fault c.pre { cls := 0x30 }
    else match c.frameWrite s l.toNat k.toNat x with
      | some s => .ok s
      | none => .fault c.pre { cls := 0x52 }
  | d =>
    match c.slotFor d with
    | none => .hold c.pre (.notReady 1)
    | some k => .ok (s.modLvl c.p fun v => { v with
        vregs := v.vregs.modify (regNo d) fun r => putVersion r k (some x) })

/-! ### Groups of lanes (R70) -/

/-- Adds a lane group, merging it with one at the same PC; groups stand in rising order of PC. -/
def addGroup : List (W32 × Mask) → W32 × Mask → List (W32 × Mask)
  | [], g => if g.2 = 0 then [] else [g]
  | h :: t, g =>
    if g.2 = 0 then h :: t
    else if h.1 = g.1 then (h.1, h.2 ||| g.2) :: t
    else if g.1.toNat < h.1.toNat then g :: h :: t
    else h :: addGroup t g

/-- The running group: the smallest PC, those at the merge point last (R70, R72). -/
def runningGroup (t : Team) : Option (W32 × Mask) :=
  match t.mergeAt with
  | some m => match t.groups.filter (fun (g : W32 × Mask) => decide (g.1 ≠ m)) with
    | g :: _ => some g
    | [] => t.groups.head?
  | none => t.groups.head?

/-! ### Whether a party may issue -/

/-- Whether a wait still keeps its party from issuing: BAR sync until its phase is over, LAUNCH until it
is judged, WAITM until its word is read again (R274). The other waits are evaluated by issuing again. -/
def asleep (s : State) (p : Party) : Wait → Bool
  | .bar k ph _ => match p with
    | .team g b _ => match (s.block g b).bind fun x => mget x.bars k with
      | some x => decide (x.phase = ph)
      | none => false
    | _ => false
  | .mem .. => true
  | .launch id _ => (mget s.launches id).isSome
  | .hall kind keys _ => match s.grid p.gridNo with
    | some gr => decide (gateAll s gr.ctx kind keys (reqOf p) = .held)
    | none => false
  | _ => false

/-- A party that can issue: not stopped, not asleep, its grid running and not frozen, but for a party that a single step
lets issue (R298), holding a token and a lane group where it needs them; the teams of a co-resident grid only when all its blocks are placed (R112). -/
def canIssue (s : State) (p : Party) : Bool :=
  match s.grid p.gridNo, s.seqOf p with
  | some g, some q =>
    (!g.frozen || q.stepping) && decide (g.status = .running) && q.stop.isNone && !((q.wait.map (asleep s p)).getD false) &&
      (match p with
      | .team gg b t => match s.team gg b t with
        | some x => x.awaiting.isNone && !x.exiting && !x.groups.isEmpty && q.tok.isSome &&
            (!g.lrec.gctl || decide (g.lrec.grid ≤ g.nextBlk))
        | none => false
      | .grid gg => ((s.grid gg).map fun x => !x.lvl.walkDone).getD false
      | p => ((s.lvlOf p).map fun v => !v.walkDone && v.seq.tok.isSome).getD false)
  | _, _ => false

/-- The issue context of a party's chain that ends in slot `last`. -/
def mkCx (s : State) (p : Party) (last : Nat) (alone : Bool) : Option Cx :=
  (s.grid p.gridNo).bind fun gr =>
  (s.seqOf p).map fun q =>
    let pc := s.pcOf p
    let b := (partyBlk p).getD 0
    let k := match p with
      | .cluster _ k => k
      | _ => instOf b
    let (t, tm) := match p with
      | .team g b t => (t, (s.team g b t).getD Team.none)
      | _ => (0, Team.none)
    let act := match runningGroup tm with
      | some g => g.2
      | none => 0
    { p := p, g := p.gridNo, gr := gr, pre := s, b := b, k := k, t := t
      core := (s.coreOf p).getD 0, tm := tm, act := act, lanes := lanesOf tm.nlane act
      pkt := pcPkt pc, slot := pcSlot pc, last := last, tok := q.tok.getD Token.zero
      engine := s.engineOf p, alone := alone }

/-- Whether a level executes a member (R62, R94). Teams execute LANE and TEAM members, and take part in
lifts and in rendezvous branches of wider scopes. -/
def executes (sc : Scope) (i : Instr) : Bool :=
  if i = .nop then true
  else if sc = .team then decide ((scopeOf i).rank ≤ 1) || isLift i || (match i with
    | .bt _ (.p _) _ | .bf _ (.p _) _ => true
    | _ => false)
  else decide (scopeOf i = sc)

/-- An enabled breakpoint entry at the chain's PC for the party's level (R296). -/
def hitBrk (g : Grid) (sc : Scope) (pc : W32) : Bool :=
  g.brks.any fun b => b.enable && decide (b.pc = pc) && (match sc with
    | .team => b.levels.getLsbD 1 || b.levels.getLsbD 0
    | s => b.levels.getLsbD s.rank)

/-- Whether a member is one of LANE scope for a level: a team's LANE members, and wider lifts that it contributes to
(R94). -/
def laneMember (sc : Scope) (i : Instr) : Bool :=
  decide (i ≠ .nop) && (decide (scopeOf i = .lane) || (isLift i && decide (sc = .team ∧ scopeOf i ≠ .team)))

/-- The scope level of a member's fault: LANE for a LANE member, else the raising party's (R292). -/
def memberScope (sc : Scope) (i : Instr) (f : FInfo) : FInfo :=
  match f.scope with
  | some _ => f
  | none => if laneMember sc i then { f with scope := some .lane } else f

/-- Whether the party's chain has begun already: its BAR or LAUNCH has, or the rest of it has committed. -/
def begun (c : Cx) : Bool := c.alone || c.seq.began.isSome

/-- A frame operand whose lex names no frame (R60). -/
def lexBad (c : Cx) (i : Instr) : Bool :=
  let f := fieldsOf i
  (f.srcs ++ f.dsts).any fun o => match o with
    | .frame l _ => (c.frameAt l.toNat).isNone
    | _ => false

/-- Steps 2 to 4 of R66 for a chain: the first failing member's fault. Operand checks bind the members that the level
executes (R62). -/
def earlyFault (c : Cx) (ms : List Member) : Option FInfo :=
  match ms.find? fun m => !m.ins.wf with
  | some m => some (memberScope c.sc m.ins { cls := 0x01, slot := m.slot })
  | none => match chainBad ms with
    | some k => some { cls := 0x03, slot := k }
    | none =>
      match ms.find? fun m => clusterBad c.gr.lrec.cmode m.ins || (executes c.sc m.ins &&
          (step4Bad c.gr.lrec.regs c.gr.lrec.cmode m.ins || lexBad c m.ins)) with
      | some m => some (memberScope c.sc m.ins { cls := 0x02, slot := m.slot })
      | none => none

/-- The nesting checks made before a member executes (R80, R106 row 1, R107): a member of a wider scope in
a detached team; a closing member of a wider scope away from the token's close PC, or walked by a group
that is run forward to a merge point. -/
def nestBad (c : Cx) (i : Instr) : Bool :=
  let det := decide (c.sc = .team) && c.tm.detached && decide (2 ≤ (scopeOf i).rank)
  let wide := match closes i with
    | some s => decide (c.sc.rank < s.rank) && (decide (c.tok.close ≠ c.pc) || (match c.tm.mergeAt with
        | some m => decide (c.sc = .team ∧ m ≠ c.pc)
        | none => false))
    | none => false
  det || wide

/-! ### Running the members -/

/-- What the members run so far have left. -/
structure ChainAcc where
  s : State
  jump : Option W32
  split : Option (Mask × W32)
  /-- The slot of an EXIT. -/
  gone : Option Nat
  trap : Option FInfo
  mark : Option (Scope × BitVec 16)
  later : Option (Nat × Wait)
  await : Option (State × Wait)
deriving DecidableEq, Repr

/-- How a chain ends: its members have all passed; or the state that a fault or a wait leaves. -/
inductive ChainRes where
  | done (a : ChainAcc)
  | stopped (s : State)
  | dead (pa : Nat)
deriving DecidableEq, Repr

/-- A party whose chain does not issue: it records what it waits on (R274). -/
def holdParty (s : State) (p : Party) (w : Wait) : State := s.modSeq p fun q => { q with wait := some w }

/-- The types of slots that CVTQ accepts, its field a and its element (R162). -/
def cvtqBad (gr : Grid) (a : Operand) (fmt : BitVec 3) (mode : BitVec 2) (elem : BitVec 3) : Option Nat :=
  let type := fmtType (fmtSlot gr fmt.toNat)
  let top := if type = 5 then 3 else 7
  if type ≠ 5 ∧ type ≠ 6 then some 0x22
  else if !(opIsV a) || decide (top < elem.toNat) || (decide (mode = 1) && decide (elem.toNat % 2 = 1)) then some 0x02
  else none

/-- The own checks of a member at step 5 of R66 that come before its data is looked at: operands, CVTQ's (R162), the mode and
sealing check of its frame-slot writes (R176). -/
def ownCheck (c : Cx) (i : Instr) : Option Nat :=
  if ownOperandBad c.gr.lrec.regs c.gr.lrec.cmode i then some 0x02
  else if (fieldsOf i).dsts.any (fun o => match o with
      | .frame l k => c.slotBad l.toNat k.toNat
      | _ => false) then some 0x30
  else match i with
    | .cvtq _ a _ fmt mode elem => cvtqBad c.gr a fmt mode elem
    | _ => none

/-- Runs one member: nesting, which binds members that the level only walks as well (R106), its own checks, its data's tags,
then its meaning. -/
def runMember (c : Cx) (m : Member) (body : Body) (s : State) : MRes :=
  let c := { c with slot := m.slot }
  if nestBad { c with slot := pcSlot (c.pre.pcOf c.p) } m.ins then .fault c.pre { cls := 0x06, scope := some c.sc }
  else if !(executes c.sc m.ins) then .ok s
  else match ownCheck c m.ins with
    | some cls => .fault c.pre { cls := cls }
    | none => match c.sources m.ins with
      | .fault f => .fault c.pre f
      | _ => body c s

/-- Views that the frame sources of a member that the level executes capture (R174). -/
def captureAll (c : Cx) (i : Instr) (s : State) : State :=
  if executes c.sc i then (fieldsOf i).srcs.foldl (fun s o => c.capture s o) s else s

/-- Whether the chain at this PC is the close chain of the party's token (R101). -/
def atClose (c : Cx) : Bool := decide (c.sc ≠ .grid) && decide (c.tok.close = c.pc)

/-- Whether a transfer that a member takes is refused: in the close chain of the segment, by control of the level's own scope
(R106); a taken LANE branch counts as control of the team's own scope. DEDUCED, log entry 90. -/
def closeJump (c : Cx) (i : Instr) : Bool :=
  atClose c && isControl i && (if c.sc = .team then decide ((scopeOf i).rank ≤ 1) else executes c.sc i)

/-- Runs the members of a chain in slot order (R52, R66). -/
def runMembers (c : Cx) : List (Member × Body) → ChainAcc → ChainRes
  | [], a => .done a
  | (m, body) :: rest, a =>
    let fill (f : FInfo) : FInfo := memberScope c.sc m.ins { f with slot := m.slot }
    match runMember c m body a.s with
    | .ok s => runMembers c rest { a with s := captureAll c m.ins s }
    | .jump s pc =>
      if closeJump c m.ins then .stopped (takeFault c.pre c.p (fill { cls := 0x06 }))
      else runMembers c rest { a with s := captureAll c m.ins s, jump := some pc }
    | .split s t pc =>
      if closeJump c m.ins then .stopped (takeFault c.pre c.p (fill { cls := 0x06 }))
      else runMembers c rest { a with s := s, split := some (t, pc) }
    | .gone s => runMembers c rest { a with s := s, gone := some m.slot }
    | .trap s f => runMembers c rest { a with s := s, trap := some (fill f) }
    | .mark s sc tag => runMembers c rest { a with s := captureAll c m.ins s, mark := some (sc, tag) }
    | .later s w => runMembers c rest { a with s := s, later := some (m.slot, w) }
    | .await side w => runMembers c rest { a with await := some (side, w) }
    | .hold side w => .stopped (holdParty side c.p w)
    | .fault side f => .stopped (takeFault side c.p (fill f))
    | .part _ _ => match runMember c m body c.pre with
      | .part s f => .stopped (takeFault s c.p (fill f))
      | _ => .stopped c.pre
    | .dead pa => .dead pa

/-! ### Commit -/

/-- A party stops as a single step stops it. -/
def stepFault (s : State) (p : Party) : State :=
  takeFault s p { cls := 0x51, cause := 2, pc := some (s.pcOf p), kind := .goOn }

/-- Whether a reverse step ends at the count of chains that a party has reached (R327). -/
def backThere (s : State) (p : Party) (q : Seq) : Bool :=
  match (s.grid p.gridNo).bind fun gr => (mget s.ctxs gr.ctx).bind (·.replay) with
  | some rp => decide (rp.till = .chains p q.chains)
  | none => false

/-- A reverse step ends: its party stops, and the grids of the context freeze (R327). -/
def endReverse (s : State) (p : Party) : State :=
  match s.grid p.gridNo with
  | some gr =>
    let s := s.modCtx gr.ctx fun x => { x with replay := x.replay.map fun rp => { rp with till := .script } }
    stepFault ((ctxGrids s gr.ctx).foldl (fun s g => s.freeze g) s) p
  | none => s

/-- A single step ends (R298), or a reverse step's replay (R327). -/
def stepStop (s : State) (p : Party) : State :=
  match s.seqOf p with
  | some q =>
    if q.stop.isSome then s
    else if backThere s p q then endReverse s p
    else if q.stepping ∧ q.wait.isNone then stepFault s p
    else s
  | none => s

/-- Completes the segment of a level (R101, R173): its contributions are published, its token released. -/
def completeSegment (c : Cx) (s : State) : State :=
  let s := publishAll s c.p c.ctx c.engine c.g c.b c.k
  s.modSeq c.p fun q => { q with tok := none }

/-- The position of a team after its chain (R52, R70, R82, R101). The last group to exit keeps its place
until the team retires, which then waits as EXIT does (R274). -/
def moveTeam (c : Cx) (a : ChainAcc) (next : W32) (close : Bool) (s : State) : State :=
  c.onTeam s fun t =>
    let rest := t.groups.filter fun (g : W32 × Mask) => decide (g.1 ≠ c.pc)
    let leaves := a.gone.isSome && rest.isEmpty
    let groups := if leaves then t.groups
      else if a.gone.isSome then rest
      else if close then t.groups
      else match a.split with
        | some (taken, pc) => addGroup (addGroup rest (pc, c.act &&& taken)) (next, c.act &&& ~~~taken)
        | none => addGroup rest (a.jump.getD next, c.act)
    { t with
      groups := groups
      mergeAt := match t.mergeAt with
        | some m => if decide (m = c.pc) || groups.length ≤ 1 then none else some m
        | none => none
      awaiting := if close && !leaves then some c.pc else none
      resume := none
      exiting := leaves
      seq := if leaves then { t.seq with alone := a.gone, wait := some .exit } else t.seq }

/-- The segment that a level begins at a PC: a snapshot of its values and of the wider ones in its token
(R97 to R99, R169). -/
def snapshot (c : Cx) (s : State) (pc : W32) : Token :=
  let q := (s.seqOf c.p).getD (Seq.start 0)
  let tk := if c.sc = .grid then Token.zero else c.tok
  let v := (s.lvlOf c.p).map (·.vregs)
  let vers (n : Nat) : Nat := match v with
    | some l => (List.range n).foldl (fun a i => a + ((l[i]?.map (·.newest)).getD 0) * 4 ^ i) 0
    | none => 0
  let d := dispAll q tk
  let z := { tk with start := pc, close := finalClose, seq := 0, disp := d }
  match c.sc with
  | .grid => { z with lcg := topLc q.loops, qg := q.q, gver := BitVec.ofNat 8 (vers 4) }
  | .cluster => { z with lcc := topLc q.loops, qc := q.q, cver := BitVec.ofNat 8 (vers 4) }
  | _ => { z with lcb := topLc q.loops, qb := q.q, bver := BitVec.ofNat 16 (vers 8) }

/-- The position of a level after its chain: the next PC; after its own closing member or its token's
close chain a new segment begins at the next PC (R48, R97), where R105's example begins its token C a slot later. DEDUCED, log
entry 104. -/
def moveLevel (c : Cx) (a : ChainAcc) (next : W32) (ends narrow : Bool) (s : State) : State :=
  let pc := a.jump.getD next
  let s := s.modSeq c.p fun q => { q with pc := pc }
  s.modLvl c.p fun v =>
    if ends then { v with seg := snapshot c s pc, segHas := false, emitted := false }
    else { v with segHas := v.segHas || narrow }

/-- Stack depths against the segment's start, at a close chain (R106). -/
def closeBad (c : Cx) (a : ChainAcc) (ms : List (Member × Body)) : Option FInfo :=
  match a.s.seqOf c.p with
  | some q =>
    if atClose c && decide (q.loops.length ≠ q.loop0 ∨ q.calls.length ≠ q.call0) then
      let k := (ms.find? fun m => (closes m.1.ins).isSome).map (·.1.slot)
      some { cls := 0x06, slot := k.getD (pcSlot c.pc) }
    else none
  | none => none

/-- V passes of the members that a team executes: one for each mask word that is not empty, for each V member (R69, R344). -/
def passes (c : Cx) (is : List Instr) : Nat :=
  let words := ((List.range 32).filter fun k => decide (c.act.extractLsb' (32 * k) 32 ≠ 0)).length
  words * (is.filter fun i => decide (pipeOf i = some .V)).length

/-- The members of a chain that the party executes: those that it issues. -/
def mineOf (c : Cx) (run : List (Member × Body)) : List (Member × Body) := run.filter fun m => executes c.sc m.1.ins

/-- Whether a chain is one of the party's own for a single step: it holds a member that the party executes; what is only NOPs is
a team's (R298). -/
def ownChain (c : Cx) (run : List (Member × Body)) : Bool :=
  (mineOf c run).any fun m => decide (c.sc = .team ∨ m.1.ins ≠ .nop)

/-- Whether a chain's EXIT takes the team's last lane group away: the team then keeps its token until it retires (R82, R101). -/
def leavesAll (c : Cx) (a : ChainAcc) : Bool :=
  a.gone.isSome && (c.tm.groups.filter fun (g : W32 × Mask) => decide (g.1 ≠ c.pc)).isEmpty

/-- Whether a chain completes the segment that its level walks (R101). -/
def completes (c : Cx) (a : ChainAcc) : Bool := atClose c && a.later.isNone && !(leavesAll c a)

/-- Commits a chain whose members have passed: the position moves, a segment completes, requested stops
and single steps land (R52, R53, R101, R298). `run` are the members that ran now. -/
def commit (c : Cx) (ms run : List (Member × Body)) (ends narrow : Bool) (a : ChainAcc) : State :=
  match closeBad c a ms with
  | some f => takeFault c.pre c.p f
  | none =>
    let next := nextPc c.pkt c.last
    let close := completes c a
    let s := a.s
    let s := s.modSeq c.p fun q => { q with
      chains := q.chains + 1, passBrk := if q.passBrk = some c.pc then none else q.passBrk
      wait := none, alone := none, began := none }
    let s := if c.sc = .team then
        (s.count c.g c.core 0x10 1).count c.g c.core 0x11 (passes c ((mineOf c run).map (·.1.ins)))
      else s
    match a.later with
    | some (k, w) => s.modSeq c.p fun q => { q with alone := some k, wait := some w, chains := q.chains - 1 }
    | none =>
      let s := if c.sc = .team then moveTeam c a next close s else moveLevel c a next ends narrow s
      let s := if close then completeSegment c s else s
      let s := match a.mark with
        | some (sc, tag) => openWindow s c.g c.ctx (nextWindow s c.ctx) sc tag c.engine
        | none => s
      match a.trap with
      | some f => takeFault s c.p { f with pc := some next, kind := .goOn }
      | none => if close || !(ownChain c run) then s else stepStop s c.p

/-! ### Emitting segments (R98, R102, R172) -/

/-- Tokens that wait in the grid ring for the slowest reader: readers not placed yet have read none. -/
def ringRead (s : State) (g : Nat) (gr : Grid) : Nat :=
  let rds := if gr.lrec.cmode then
      (s.clustersOf g).map (fun e => e.2.lvl.seq.rd)
    else (s.blocksOf g).map (fun e => e.2.lvl.seq.rd)
  let saved := (s.images.filter fun e => decide (e.2.gid = g)).flatMap fun e =>
    if gr.lrec.cmode then e.2.clusters.map (·.2.lvl.seq.rd) else e.2.blocks.map (·.2.lvl.seq.rd)
  let readers := if gr.lrec.cmode then (gr.lrec.grid + 3) / 4 else gr.lrec.grid
  let started := if gr.lrec.cmode then (gr.nextBlk + 3) / 4 else gr.nextBlk
  if started < readers then gr.ringBase
  else (rds ++ saved).foldl min (gr.ringBase + gr.ring.length)

/-- Frees the ring entries that every reader has moved past (R102). -/
def trimRing (s : State) (g : Nat) : State :=
  match s.grid g with
  | none => s
  | some gr =>
    let m := ringRead s g gr
    s.modGrid g fun x => { x with ring := x.ring.drop (m - x.ringBase), ringBase := max m x.ringBase }

/-- Seals the frames of a level that a token names (R172). -/
def sealFrames (s : State) (c : Cx) (t : Token) : State :=
  t.disp.foldl (fun s h =>
    let key := c.frameKey h
    match mget s.frames key with
    | some f => if h ≠ noFrame ∧ ownsFrame c.p f then
        { s with frames := mset s.frames key { f with sealed := true } } else s
    | none => s) s

/-- Hands a token to every lower instance; none while a ring or queue is full (R102, R105). -/
def pushToken (s : State) (c : Cx) (t : Token) : Option State :=
  match c.p with
  | .grid g =>
    let s := trimRing s g
    match s.grid g with
    | some gr => if 16 ≤ gr.ring.length then none
        else some (s.modGrid g fun x => { x with ring := x.ring ++ [t] })
    | none => none
  | .cluster g k =>
    let bs := (s.blocksOf g).filter fun e => decide (instOf e.1 = k)
    if bs.any fun e => decide (16 ≤ e.2.lvl.seq.queue.length) then none
    else some (bs.foldl (fun s e => s.modSeq (.block g e.1) fun q => { q with queue := q.queue ++ [t] }) s)
  | .block g b =>
    let ts := (s.teamsOf g b).filter fun e => !e.2.detached
    if ts.any fun e => decide (8 ≤ e.2.seq.queue.length) then none
    else some (ts.foldl (fun s e => s.modSeq (.team g b e.1) fun q => { q with queue := q.queue ++ [t] }) s)
  | .team _ _ _ => some s

/-- Emits the segment that a level has built, closed at a PC or final (R98); none where it must wait. A
segment without narrower members is not emitted unless it is final. -/
def emitSegment (s : State) (c : Cx) (close : W32) (has : Bool) : Option State :=
  match s.lvlOf c.p with
  | none => some s
  | some v =>
    if v.emitted then some s
    else if !has && decide (close ≠ finalClose) then
      some (s.modLvl c.p fun v => { v with emitted := true })
    else
      let t := { v.seg with close := close, seq := BitVec.ofNat 16 v.sent }
      (pushToken s c t).map fun s =>
        (sealFrames s c t).modLvl c.p fun v => { v with emitted := true, sent := v.sent + 1 }

/-! ### The chain as a whole -/

/-- Readiness of every member the party executes (R75, R103, R175): what it waits on. -/
def notReadyWait (c : Cx) (ms : List (Member × Body)) : Option Wait :=
  ms.findSome? fun m => match c.sources m.1.ins with
    | .notReady w => some (.notReady w)
    | .settle h => some (.settle h)
    | _ => none

/-- Merging before a chain that needs it (R72): none, a fault, or the team with its merge point set. -/
def mergeStep (c : Cx) (ms : List Member) : Option (Sum FInfo State) :=
  if c.sc ≠ .team ∨ c.tm.groups.length ≤ 1 then none
  else match ms.find? fun m => mergesFirst m.ins with
    | none => none
    | some m =>
      match c.tm.mergeAt with
      | some pc =>
        if pc = c.pc then none
        else some (.inl { cls := 0x06, slot := m.slot, scope := some .team, lane := c.lanes.head? })
      | none => some (.inr (c.onTeam c.pre fun t => { t with mergeAt := some c.pc }))

/-- The store hash check of a team of a record context that executes or walks a WMARK (R338); 0x53 where a replay diverges,
0x52 where the record is full. DEDUCED, log entry 12. -/
def walkHash (c : Cx) (ms : List (Member × Body)) (a : ChainAcc) : Sum FInfo ChainAcc :=
  match ms.find? fun m => (match m.1.ins with
      | .wmark .. => true
      | _ => false) with
  | some m =>
    if c.sc ≠ .team then .inr a
    else match hashCheck a.s c.ctx c.g c.b c.t with
      | .inr s => .inr { a with s := s }
      | .inl g => .inl { cls := g.cls, slot := m.1.slot }
  | none => .inr a

/-- Slots in LAST mode that a position has contributions for. -/
def lastKeys (s : State) (p : Party) (g b k : Nat) : List W64 :=
  match s.seqOf p with
  | none => []
  | some q => (pendHandles s p g b k).flatMap fun h => match mget s.frames (handleKey g b k h) with
    | some f => ((List.range 16).filter fun n => decide (f.mode n = 6) && (mget q.pend (pendKey f.serial n)).isSome).map (slotAddr h)
    | none => []

/-- The LAST slots of others' frames that a chain's members write. -/
def lastWrites (c : Cx) (ms : List (Member × Body)) : List W64 :=
  ms.flatMap fun m => (fieldsOf m.1.ins).dsts.filterMap fun o => match o with
    | .frame l k => (c.frameAt l.toNat).bind fun (h, f) =>
        if !(ownsFrame c.p f) && decide (f.mode k.toNat = 6) then some (slotAddr h k.toNat) else none
    | _ => none

/-- The LAST slots that a chain publishes to: all that are pending, with its segment or the return of a frame of the party; those
of the frame that an FRFENCE names (R173). -/
def publishKeys (c : Cx) (ms : List (Member × Body)) (a : ChainAcc) : List W64 :=
  let pending := (lastKeys c.pre c.p c.g c.b c.k ++ lastKeys a.s c.p c.g c.b c.k ++ lastWrites c ms).dedup
  let returns := a.later.isNone && ((c.seq.calls.head?).bind (·.frame)).isSome && ms.any fun m => (match m.1.ins with
    | .ret _ => true
    | _ => false)
  let fenced := ms.flatMap fun m => match m.1.ins with
    | .frfence _ l => (List.range 16).map (slotAddr (c.lex l.toNat))
    | _ => []
  if completes c a || returns then pending else pending.filter fun k => decide (k ∈ fenced)

/-- What the monitor and the record answer to the publications of a chain (R173, R332, R335). -/
def lastGate (c : Cx) (ms : List (Member × Body)) (a : ChainAcc) : Gate × List W64 :=
  if c.pre.recordOn c.ctx then
    let keys := publishKeys c (mineOf c ms) a
    (gateAll c.pre c.ctx 3 keys (reqOf c.p), keys)
  else (.go, [])

/-- In a chain that writes fpc, the flags that its members raise are collected from zero, and or'ed into
the value that the CSRW wrote (R131). -/
def freshFlags (c : Cx) (ms : List (Member × Body)) (s : State) : State :=
  if ms.any fun m => (match m.1.ins with
    | .csrw _ n => decide (n = 1)
    | _ => false) then c.onTeam s fun t => { t with fpc := t.fpc &&& ~~~0x1F0 }
  else s

/-- The members of a chain that run: all, or the one that is issued again alone (R53). -/
def toRun (c : Cx) (ms : List (Member × Body)) : List (Member × Body) :=
  match c.seq.alone with
  | some k => ms.filter fun m => decide (m.1.slot = k)
  | none => ms

/-- Whether a chain ends the segment that its level builds (R97). -/
def chainEnds (c : Cx) (is : List Instr) : Bool :=
  decide (c.sc ≠ .team) && (atClose c || is.any fun i => (closes i).isSome)

/-- Whether a chain has a member that narrower levels execute, which makes its segment worth emitting (R98): teams contribute to
lifts and to rendezvous branches, which they reach as a close chain (R84, R108). DEDUCED, log entry 103. -/
def chainNarrow (c : Cx) (is : List Instr) : Bool :=
  is.any fun i => decide (i ≠ .nop) &&
    (decide ((scopeOf i).rank < c.sc.rank) || ((isLift i || isRendezvous i) && decide (c.sc ≠ .team)))

/-- The emission before a chain that ends its level's segment (R97); none where it must wait. -/
def emitFirst (s : State) (c : Cx) (ends narrow : Bool) : Option State :=
  if ends then emitSegment s c c.pc (narrow || ((s.lvlOf c.p).map (·.segHas)).getD false) else some s

/-- A chain whose members have all passed, and which waits as a whole: only what its BAR or LAUNCH begins stands (R53, R276,
R284). The block may be stranded now (R273). -/
def awaitChain (c : Cx) (ms : List (Member × Body)) (a : ChainAcc) (side : State) (w : Wait) : State :=
  match closeBad c a ms with
  | some f => takeFault c.pre c.p f
  | none =>
    let s := (holdParty side c.p w).modSeq c.p fun q => { q with began := some w }
    match w with
    | .bar .. => strandCheck s c.g c.b
    | _ => s

/-- The first of the writes that a chain has queued for which a log has no room left. -/
def unfit (c : Cx) (s : State) : Option StoreEnt :=
  ((mget s.ctxs c.ctx).bind (·.ulog)).bind fun u =>
    let q := ((s.team c.g c.b c.t).map (·.storeQ)).getD []
    let new := if c.sc = .team then q.drop c.tm.storeQ.length else []
    let old := queuedRecords s c.ctx - (new.map (·.records)).sum
    let fits (i : Nat) : Bool :=
      decide (u.head + 32 * (old + ((new.take (i + 1)).map (·.records)).sum) ≤ u.tail + 2 ^ u.lg2)
    ((List.range new.length).find? fun i => !(fits i)).bind fun i => new[i]?

/-- The state in which a chain's window opens: its segment's contributions are published by then. -/
def atMark (c : Cx) (a : ChainAcc) : State :=
  if completes c a then publishAll a.s c.p c.ctx c.engine c.g c.b c.k else a.s

/-- Where a log that stalls has no room for what a chain has queued, or for the window that it marks: the fault, precise at the
member (R53, R324). -/
def noRoom (c : Cx) (run : List (Member × Body)) (a : ChainAcc) : Option FInfo :=
  if !(stallsFull c.pre c.ctx) then none
  else match unfit c a.s with
    | some e =>
      let f : FInfo := { cls := 0x52, slot := pcSlot e.pc, addr := e.va }
      some (match run.find? fun m => decide (m.1.slot = pcSlot e.pc) with
        | some m => memberScope c.sc m.1.ins f
        | none => f)
    | none => match a.mark with
      | some (sc, _) => if canOpen (atMark c a) c.ctx sc then none else
          some { cls := 0x52, slot := ((run.find? fun m => (match m.1.ins with
            | .wmark .. => true
            | _ => false)).map (·.1.slot)).getD (pcSlot c.pc) }
      | none => none

/-- What the members that have passed come to: the publications' gate, the hash check, the log's room, the commit. -/
def endChain (c : Cx) (ms run : List (Member × Body)) (ends narrow : Bool) (a : ChainAcc) : State :=
  match a.await with
  | some (side, w) => awaitChain c ms a side w
  | none =>
  match lastGate c run a with
  | (.held, keys) => holdParty c.pre c.p (.hall 3 keys (pcSlot c.pc))
  | (.diverge, _) => takeFault c.pre c.p { cls := 0x53, slot := pcSlot c.pc }
  | (.full, _) => takeFault c.pre c.p { cls := 0x52, slot := pcSlot c.pc }
  | (.go, _) => match walkHash c run a with
    | .inl f => takeFault c.pre c.p f
    | .inr a => match noRoom c run a with
    | some f => takeFault c.pre c.p f
    | none =>
      if completes c a && unpublished (publishAll a.s c.p c.ctx c.engine c.g c.b c.k) c.p c.g c.b c.k then
        takeFault c.pre c.p { cls := 0x52, slot := pcSlot c.pc }
      else commit c ms run ends narrow a

/-- Step 5 of a chain: readiness of the members that the party executes, `mine`, the meanings, the end (R66). -/
def runChainMembers (c : Cx) (ms run mine : List (Member × Body)) (ends narrow : Bool) :
    Host.Outcome State Fault Refusal :=
  match notReadyWait c mine with
  | some w => .next (holdParty c.pre c.p w)
  | none =>
    match runMembers c run ⟨freshFlags c mine c.pre, none, none, none, none, none, none, none⟩ with
    | .done a => .next (endChain c ms run ends narrow a)
    | .stopped s => .next s
    | .dead pa => .fault (.noSuchMemory pa)

/-- Issues a chain of a party: breakpoints, steps 2 to 4, merging, emission before a closing chain, then
the members and their commit (R66, R97, R296). -/
def issueChain (p : Party) (ms : List (Member × Body)) (s : State) : Host.Outcome State Fault Refusal :=
  let last := match ms.getLast? with
    | some m => m.1.slot + m.1.len - 1
    | none => 0
  match mkCx s p last (((s.seqOf p).bind (·.alone)).isSome) with
  | none => .refused .noParty
  | some c =>
    if !(canIssue s p) then .next s
    else if hitBrk c.gr c.sc c.pc && !(begun c) && decide (c.seq.passBrk ≠ some c.pc) then
      .next (takeFault s p { cls := 0x51, cause := 1, slot := pcSlot c.pc })
    else match earlyFault c (ms.map (·.1)) with
      | some f => .next (takeFault s p f)
      | none => match mergeStep c (ms.map (·.1)) with
        | some (.inl f) => .next (takeFault s p f)
        | some (.inr s) => .next s
        | none =>
          let run := toRun c ms
          let mine := mineOf c run
          let narrow := chainNarrow c (ms.map (·.1.ins))
          let ends := chainEnds c (mine.map (·.1.ins))
          match emitFirst s c ends narrow with
          | none => .next (holdParty s p (.notReady 1))
          | some s => runChainMembers { c with pre := s } ms run mine ends narrow

/-! ### One member -/

/-- Words that a member takes. -/
def lenOf (i : Instr) : Nat := (encode i).length

/-- Executes one member alone, as a chain of its own at the PC of the party whose turn it is: the meaning
that `exec` gives every member. -/
def issue1 (i : Instr) (body : Body) (s : State) : Host.Outcome State Fault Refusal :=
  match s.turn with
  | .party p => issueChain p [(⟨pcSlot (s.pcOf p), lenOf i, i, false⟩, body)] s
  | _ => .refused .noParty

end Sys2Proof.Machine
end

