-- ==== Sys2Proof/Machine/Flags.lean ====
section
/-! DEFINITION. Compares and flags: the conditions of integer compares (R122, R141), where a compare's
predicate goes (R59, R94, R128), and the sticky flags of fpc (R129 to R131). -/

namespace Sys2Proof.Machine

/-- eq, ne, lt, le on signed 32-bit values (R141). -/
def condS (cc : BitVec 2) (a b : W32) : Bool :=
  if cc = 0 then decide (a = b) else if cc = 1 then decide (a ≠ b)
  else if cc = 2 then decide (a.toInt < b.toInt) else decide (a.toInt ≤ b.toInt)

/-- eq, ne, lt, le on unsigned 32-bit values (R141). -/
def condU (cc : BitVec 2) (a b : W32) : Bool :=
  if cc = 0 then decide (a = b) else if cc = 1 then decide (a ≠ b)
  else if cc = 2 then decide (a.toNat < b.toNat) else decide (a.toNat ≤ b.toNat)

/-- eq, ne, lt signed, ltu on 64-bit values (R122). -/
def condX (cc : BitVec 2) (a b : W64) : Bool :=
  if cc = 0 then decide (a = b) else if cc = 1 then decide (a ≠ b)
  else if cc = 2 then decide (a.toInt < b.toInt) else decide (a.toNat < b.toNat)

/-- A compare of 32-bit values: each active lane's p predicate, or once the q predicate of the executing
instance (R141). -/
def Cx.compare (c : Cx) (s : State) (pd : PredSel) (a b : Operand) (f : W32 → W32 → Bool) : State :=
  match pd with
  | .p n => c.wrP s n.val (c.lanes.map fun l => (l, f (c.rdL a l) (c.rdL b l)))
  | .q n => c.wrQ s n.toNat (f ((c.rdS a).setWidth 32) ((c.rdS b).setWidth 32))

/-- The floating environment of the team (R129); that of a sequencer level (R130). -/
def Cx.fenv (c : Cx) : FEnv := if c.sc = .team then FEnv.ofFpc c.tm.fpc else FEnv.plain

/-- Sets sticky flags in the team's fpc (R129, R131). -/
def Cx.setFlags (c : Cx) (s : State) (fl : W32) : State :=
  c.onTeam s fun t => { t with fpc := t.fpc ||| fl }

/-- The flags of the lanes of one member together (R131). -/
def orFlags (l : List W32) : W32 := l.foldl (· ||| ·) 0

/-- A float member over the active lanes: results to the destination, flags to fpc. -/
def Cx.float (c : Cx) (s : State) (d : Operand) (f : Nat → Nat × W32) : State :=
  let rs := c.lanes.map fun l => (l, f l)
  c.setFlags (c.wrL s d (rs.map fun e => (e.1, BitVec.ofNat 32 e.2.1))) (orFlags (rs.map fun e => e.2.2))

end Sys2Proof.Machine
end

