-- ==== Sys2Proof/Machine/MemAcc.lean ====
section
/-! DEFINITION. Accesses of a member (R231, R232, R235 to R238, R253 to R257): lane by lane checks with what
becomes of the member, parked accesses, loads with store-queue forwarding, stores into the queue, and the
arbitration of granules (R332, R335). -/

namespace Sys2Proof.Machine

/-! ### Page fills (R231, R232) -/

/-- The chain depth of a fill that a grid starts: one more than the fill it is the filler of. -/
def fillDepth (s : State) (gr : Grid) : Nat :=
  match gr.launcher with
  | .fill id => ((mget s.fills id).map (·.chain)).getD 0 + 1
  | _ => 1

/-- The lowest entry of a partition's regeneration table whose range holds an address (R231). -/
def regenEntry (p : Part) (va : Nat) : Option RegenEnt :=
  (p.regen.find? fun e => !(decide (e.2.first = 0 ∧ e.2.last = 0)) &&
    decide (e.2.first.toNat ≤ va ∧ va ≤ e.2.last.toNat)).map (·.2)

/-- Starts the fill of a page for an access of a grid, unless one is under way; or the cause of 0x10. DEDUCED, log entry
37. -/
def startFill (s : State) (gr : Grid) (base size va : Nat) : Sum Nat State :=
  match (mget s.parts gr.part).bind fun p => regenEntry p va with
  | none => .inl 4
  | some e =>
    if (fillOf s gr.part gr.space base).isSome then .inr s
    else
      let d := fillDepth s gr
      if 5 ≤ d then .inl 3
      else
        let (id, s) := s.fresh
        .inr { s with
          fills := mset s.fills id ⟨gr.part, gr.space, base, size, id, d, none, false⟩
          launches := mset s.launches id
            { launcher := .fill id, party := none, part := gr.part, space := gr.space, queue := gr.queue
              csn := gr.csn, prio := 3, depth := 1, recAt := e.lrec, raw := none
              params := [BitVec.ofNat 64 base, BitVec.ofNat 64 size, e.arg], ctxAt := 0
              ctx := some gr.ctx, sig := 0, dreg := 0 } }

/-! ### Deferred copy faults (R210) -/

/-- Delivers the oldest retained fault of a flag: its record's contents, and the state without it, the
presence bits of its failed lines set. -/
def deliverFlag (s : State) (g b t i : Nat) : Option (FInfo × State) :=
  ((s.team g b t).bind (·.flags[i]?)).bind fun f =>
  match f.faults with
  | [] => none
  | (cls, addr, ls) :: rest =>
    let s := s.modTeam g b t fun x => { x with flags := x.flags.set i { f with faults := rest } }
    let s := s.modBlock g b fun x => { x with
      absent := x.absent.filter fun l => decide (l ∉ ls)
      failed := x.failed.filter fun l => decide (l ∉ ls) }
    some ({ cls := 0x17, cause := cls.toNat, addr := addr }, s)

/-- The retained fault whose failed lines hold one of these lines: team, flag and its place in the list, of several the lowest
team's, flag's and the oldest (R210). DESIGN CHOICE, log entry 118. -/
def failedLine (s : State) (g b : Nat) (ls : List Nat) : Option (Nat × Nat × Nat) :=
  (List.range 16).findSome? fun t => (s.team g b t).bind fun x =>
    (List.range 12).findSome? fun i => (x.flags[i]?).bind fun f =>
      (f.faults.findIdx? fun e => e.2.2.any fun l => decide (l ∈ ls)).map fun n => (t, i, n)

/-- Delivers the fault that `failedLine` found: its lines become present, whatever else is outstanding there (R210). DESIGN CHOICE,
log entry 118. -/
def deliverLine (s : State) (g b t i n : Nat) : Option (FInfo × State) :=
  ((s.team g b t).bind (·.flags[i]?)).bind fun f =>
  (f.faults[n]?).map fun e =>
    let s := s.modTeam g b t fun x => { x with flags := x.flags.set i { f with faults := f.faults.eraseIdx n } }
    let s := s.modBlock g b fun x => { x with
      absent := x.absent.filter fun l => decide (l ∉ e.2.2)
      failed := x.failed.filter fun l => decide (l ∉ e.2.2) }
    ({ cls := 0x17, cause := e.1.toNat, addr := e.2.1 }, s)

/-! ### One access -/

/-- Counts an event of the team's grid on its core (R344). DEDUCED, log entry 36. -/
def Cx.tick (c : Cx) (s : State) (n k : Nat) : State := s.count c.g c.core n k

/-- What an access that did not pass comes to: a fault with its side state, a wait with its side state, or
memory that does not exist. -/
inductive Stuck where
  | fault (side : State) (f : FInfo)
  | hold (side : State) (w : Wait)
  | dead (pa : Nat)
deriving DecidableEq, Repr

/-- The lowest byte of [a, a + n) in a page whose fill has failed under a party parked on it (R232). -/
def failedByte (w : Option Wait) (a n : Nat) : Option Nat :=
  match w with
  | some (.parked _ _ fs) => ((fs.filter fun p => decide (p.1 < a + n ∧ a < p.1 + p.2)).map fun p => max a p.1).min?
  | _ => none

/-- The check of one access of a member: one parked on a fill that has failed raises 0x10 (R232, R235). -/
def Cx.check (c : Cx) (s : State) (acc : Acc) (align : Nat) (va : W64) (n : Nat) : AccRes :=
  match failedByte c.seq.wait va.toNat n with
  | some b => .fault 0x10 2 (BitVec.ofNat 64 b) none
  | none => checkAccess s c.origin acc align va n

/-- Why an access did not pass in a state of the member's checks (R204, R210, R227, R231 to R235). The address of a page's
fault is the lowest byte of the access in the page (R293). -/
def Cx.stuck (c : Cx) (s : State) (va : W64) (r : AccRes) : Stuck :=
  match r with
  | .fault cls cause addr al => .fault (noteAlias s al) { cls := cls, cause := cause, addr := addr }
  | .lines ls => match (failedLine s c.g c.b ls).bind fun e => deliverLine s c.g c.b e.1 e.2.1 e.2.2 with
    | some (f, s) => .fault s f
    | none => .hold s (.parked ls [] [])
  | .page base => .hold s (.parked [] [BitVec.ofNat 64 base] [])
  | .regen base size =>
    let byte := max va.toNat base
    match startFill s c.gr base size byte with
      | .inl k => .fault s { cls := 0x10, cause := k, addr := BitVec.ofNat 64 byte }
      | .inr s => .hold s (.parked [] [BitVec.ofNat 64 base] [])
  | .dead pa => .dead pa
  | .ok .. => .hold s (.notReady 13)

def Stuck.res : Stuck → MRes
  | .fault s f => .fault s f
  | .hold s w => .hold s w
  | .dead pa => .dead pa

/-- A member parks (R204, R231, R233): its chain issues again from the checks. Its n accesses count as parked once
(R344). -/
def Cx.park (c : Cx) (s : State) (n : Nat) (ls : List Nat) (ps : List W64) : MRes :=
  let again : Bool := match c.seq.wait with
    | some (.parked _ _ _) => true
    | _ => false
  .hold (if again then s else c.tick s 0x15 n) (.parked ls.dedup ps.dedup [])

/-- Whether an entry of a store queue is a memory request: a store or a BOP element, but no frame or spill write. DEDUCED, log
entry 92. -/
def StoreEnt.requests (e : StoreEnt) : Bool :=
  match e.kind with
  | .frame _ _ => false
  | _ => decide (e.key / 2 ^ 56 % 4 ≠ 3)

/-- Requests that a core's teams have outstanding (R235): loads under way, stores and BOP elements in the queues. -/
def outstanding (s : State) (core : Nat) : Nat :=
  (s.teams.map fun e => if e.2.core ≠ core then 0
    else (e.2.loads.map (·.reqs)).sum + (e.2.storeQ.filter fun x => x.requests).length).sum

/-- Whether a member that needs n requests finds them among the 1,024 of its core (R9, R235). -/
def Cx.room (c : Cx) (n : Nat) : Bool := decide (outstanding c.pre c.core + n ≤ 1024)

/-- Whether a member that leaves these misses issues now: one that needs a 65th leaves its team not ready (R9, R228). -/
def Cx.missRoom (c : Cx) (ms : List Miss) : Bool :=
  decide (ms = c.pre.misses) || decide ((missesOf c.pre c.core).length < 64)

/-- One access of a member of TEAM scope: it passes, or the member ends (R235, R236). -/
def Cx.one (c : Cx) (acc : Acc) (align : Nat) (va : W64) (n : Nat)
    (k : List (Nat × Nat) → Nat → List Bind → MRes) : MRes :=
  if !(c.room 1) then .hold c.pre (.notReady 13)
  else match c.check c.pre acc align va n with
  | .ok segs tier bs => if c.missRoom (bindAll c.pre bs).misses then k segs tier bs else .hold c.pre (.notReady 13)
  | r => match c.stuck c.pre va r with
    | .hold s (.parked ls ps _) => c.park s 1 ls ps
    | x => x.res

/-! ### Lane accesses -/

/-- An access of a lane that has passed its checks. -/
structure LaneAcc where
  lane : Nat
  va : W64
  segs : List (Nat × Nat)
  tier : Nat
deriving DecidableEq, Repr

/-- Checks accesses in ascending lane order up to the first that does not pass. The key tags that earlier
lanes bind are seen by later ones (R227). -/
def Cx.checkLanes (c : Cx) (acc : Acc) (align n : Nat) :
    List (Nat × W64) → State → List LaneAcc × Option (Nat × W64 × AccRes) × State
  | [], s => ([], none, s)
  | (l, va) :: t, s =>
    match c.check s acc align va n with
    | .ok segs tier bs =>
      let (xs, r, s) := c.checkLanes acc align n t (bindAll s bs)
      (⟨l, va, segs, tier⟩ :: xs, r, s)
    | r => ([], some (l, va, r), s)

/-- How many lanes of a member are parked, and on what: every access is checked, the fills that any of them needs are started, and
the lanes that pass or fail leave nothing here (R204, R231, R235). A lane that needs a failed line is not parked, whatever else
it needs, and meets its fault once no lane is. DESIGN CHOICE, log entry 118. -/
def Cx.parkLanes (c : Cx) (acc : Acc) (align n : Nat) :
    List (Nat × W64) → State → Nat × List Nat × List W64 × State
  | [], s => (0, [], [], s)
  | (_, va) :: t, s =>
    match c.check s acc align va n with
    | .ok _ _ bs => c.parkLanes acc align n t (bindAll s bs)
    | r => match c.stuck s va r with
      | .hold s (.parked ls ps _) =>
        let (k, ls', ps', s) := c.parkLanes acc align n t s
        (k + 1, ls ++ ls', ps ++ ps', s)
      | _ => c.parkLanes acc align n t s

/-- Applies what the translations of passed lanes leave to the state of the chain: key tags and misses (R227, R228). -/
def takeTags (s : State) (src : State) : State :=
  (src.misses.filter fun m => decide (m ∉ s.misses)).foldl (fun s m => noteMiss s (some m)) { s with keyTags := src.keyTags }

/-- The lanes from f upward of those a member was to perform (R236). -/
def fromLane (ls : List Nat) (f : Nat) : Mask := maskOf (ls.filter fun l => decide (f ≤ l))

/-- What a member comes to when a lane has not passed: no lane committed, a fault; else a partial member, its lanes
performed on the state that the checks and the failing lane have left (R210, R227, R236). -/
def Cx.failLane (c : Cx) (todo : List (Nat × W64)) (xs : List LaneAcc) (tags : State) (x : Nat × W64 × AccRes)
    (perform : List LaneAcc → State → MRes) : MRes :=
  match c.stuck tags x.2.1 x.2.2 with
  | .fault side f =>
    let f := { f with lane := some x.1, mask := fromLane (todo.map (·.1)) x.1 }
    if xs.isEmpty then .fault side f
    else match perform xs side with
      | .ok s => .part s f
      | m => m
  | m => m.res

/-- Ends a lane member: any parked lane parks the whole of it (R204); else `perform` commits the lanes that passed (R236). -/
def Cx.lanewise (c : Cx) (acc : Acc) (align n : Nat) (todo : List (Nat × W64)) (s : State)
    (perform : List LaneAcc → State → MRes) : MRes :=
  if !(c.room todo.length) then .hold c.pre (.notReady 13)
  else match c.parkLanes acc align n todo c.pre with
    | (0, _, _, _) =>
      let (xs, r, tags) := c.checkLanes acc align n todo c.pre
      if !(c.missRoom tags.misses) then .hold c.pre (.notReady 13)
      else match r with
      | none => perform xs (takeTags s tags)
      | some x => c.failLane todo xs tags x perform
    | (k, ls, ps, side) => c.park { side with keyTags := c.pre.keyTags } k ls ps

/-! ### Arbitration of granules (kind 2) -/

/-- The granules of tier memory and CSM that accesses touch, each once. -/
def granules (xs : List LaneAcc) (n : Nat) : List W64 :=
  (xs.flatMap fun x =>
    let first := x.va.toNat / 64
    let last := (x.va.toNat + n - 1) / 64
    let ours := decide (x.tier < 2) || decide (windowOf x.va.toNat = some .csm)
    if ours then (List.range (last - first + 1)).map fun i => BitVec.ofNat 64 ((first + i) * 64) else []).dedup

/-- Counts the accesses of a member at their home slices (R344). -/
def Cx.countUses (c : Cx) (s : State) (xs : List LaneAcc) : State :=
  xs.foldl (fun s x => countUse s c.ctx c.gr.part c.core x.va x.tier ((x.segs.head?.map (·.1)).getD 0)) s

/-- The requester of a member's accesses. -/
def Cx.req (c : Cx) : Req := reqOf c.p

/-- Continues where the monitor lets the requester pass and the record has room (R324, R335, R337). -/
def Cx.gated (c : Cx) (kind : Nat) (keys : List W64) (k : Unit → MRes) : MRes :=
  match gateAll c.pre c.ctx kind keys c.req with
  | .go => k ()
  | .held => .hold c.pre (.hall kind keys c.slot)
  | g => .fault c.pre { cls := g.cls }

/-! ### The store queue -/

/-- Whether an entry of the queue covers a byte. -/
def StoreEnt.covers (e : StoreEnt) (key : Nat) : Bool := decide (e.key ≤ key ∧ key < e.key + e.bytes.length)

/-- Whether an entry overlaps segments. -/
def StoreEnt.overlaps (e : StoreEnt) (segs : List (Nat × Nat)) : Bool :=
  segs.any fun x => decide (x.1 < e.key + e.bytes.length ∧ e.key < x.1 + x.2)

/-- A byte as a team reads it: its newest earlier queued store, else memory (R253). -/
def fwdByte (m : Memory) (q : List StoreEnt) (key : Nat) : Byte :=
  q.foldl (fun b e => if e.covers key then e.bytes[key - e.key]?.getD b else b) (byteAt m key)

/-- The bytes of segments as a team reads them. -/
def fwdBytes (m : Memory) (q : List StoreEnt) (segs : List (Nat × Nat)) : List Byte :=
  (segKeys segs).map (fwdByte m q)

/-- An access of the host or peer tier, whose data returns later (R300). -/
def LaneAcc.far (x : LaneAcc) : Bool := decide (2 ≤ x.tier ∧ x.tier ≠ 9)

/-- Whether a load of these segments must wait: a queued bank operation overlaps them, loads performed
before are still outstanding (R253), or bytes come from afar while a queued store overlaps one of them. -/
def Cx.loadWaits (c : Cx) (xs : List LaneAcc) : Bool :=
  !c.tm.loads.isEmpty || c.tm.storeQ.any fun e => (xs.any fun x => e.overlaps x.segs) &&
    (decide (e.kind ≠ .store) || xs.any (·.far))

/-- Poisoned bytes of a lane that the store queue does not supply (R237). -/
def Cx.laneBad (c : Cx) (x : LaneAcc) : Bool :=
  (segKeys x.segs).any fun k => poisoned c.pre k && !(c.tm.storeQ.any (·.covers k))

/-- Whether every earlier access of the team has been performed: what a release waits for (R257). -/
def Cx.drained (c : Cx) : Bool := c.tm.storeQ.isEmpty && c.tm.loads.isEmpty

/-- The store-queue entries of one lane's write by the member at a PC. -/
def storeEnts (pc : W32) (x : LaneAcc) (ms : MScope) (bytes : List Byte) (grans : List W64) : List StoreEnt :=
  let rec go : List (Nat × Nat) → W64 → List Byte → List W64 → List StoreEnt
    | [], _, _, _ => []
    | (k, n) :: t, va, bs, gs => ⟨.store, va, x.tier, k, bs.take n, ms, gs, pc, []⟩ ::
        go t (va + BitVec.ofNat 64 n) (bs.drop n) []
  go x.segs x.va bytes grans

/-- The 64-byte granules that bytes cover whole (R237). -/
def wholeGranules (keys : List Nat) : List Nat :=
  (keys.map (· / 64)).dedup.filter fun g => (List.range 64).all fun i => decide (g * 64 + i ∈ keys)

/-- The granules of a list that an entry touches. -/
def StoreEnt.among (e : StoreEnt) (gs : List Nat) : List Nat :=
  gs.filter fun g => decide (e.key < g * 64 + 64 ∧ g * 64 < e.key + e.bytes.length)

/-- Marks on a member's entries the granules that the member covers whole: each is overwritten when the last entry that
touches it is performed (R237). -/
def markHeals (whole : List Nat) : List StoreEnt → List StoreEnt
  | [] => []
  | e :: t => { e with heals := (e.among whole).filter fun g => !(t.any fun x => decide (g ∈ x.among whole)) } ::
      markHeals whole t

/-- The entries of a member's writes in lane order; the first entry that touches a granule carries its turn (R332). -/
def Cx.entries (c : Cx) (ms : MScope) (n : Nat) (ws : List (LaneAcc × List Byte)) : List StoreEnt :=
  let whole := wholeGranules (ws.flatMap fun w => segKeys w.1.segs)
  markHeals whole (ws.foldl (fun (a : List StoreEnt × List W64) w =>
    let mine := (granules [w.1] n).filter fun g => decide (g ∉ a.2)
    (a.1 ++ storeEnts (mkPc c.pkt c.slot) w.1 ms w.2 mine, a.2 ++ mine)) ([], [])).1

/-- Puts a member's writes into the team's store queue in lane order, folding them into the team's hash (R253, R338). DESIGN
CHOICE, log entry 7. -/
def Cx.enqueue (c : Cx) (s : State) (ms : MScope) (n : Nat) (ws : List (LaneAcc × List Byte)) : State :=
  ws.foldl (fun s w => foldHash s c.ctx c.g c.b c.t w.1.va w.2)
    (c.onTeam s fun t => { t with storeQ := t.storeQ ++ c.entries ms n ws })

end Sys2Proof.Machine
end

