-- ==== Sys2Proof/Machine/Mem.lean ====
section
/-! DEFINITION. Loads, stores and their kin (R235 to R245): LD, ST, LDS, STS, LDSTR, STSTR, CPST, PMOV, PREF,
and FENCE (R269). -/

namespace Sys2Proof.Machine

/-! ### Addresses and data -/

/-- The address of a lane (R235). -/
def Cx.laneAddr (c : Cx) (base : BitVec 5) (idx : Operand) (sz : Size) (scale : Bool) (l : Nat) : W64 :=
  let i : W64 := (c.rdL idx l).setWidth 64
  c.rdS (.s base) + (if scale then i * BitVec.ofNat 64 sz.bytes else i)

/-- The lanes a member is to perform, with their addresses. -/
def Cx.laneList (c : Cx) (base : BitVec 5) (idx : Operand) (sz : Size) (scale : Bool) : List (Nat × W64) :=
  c.todo.map fun l => (l, c.laneAddr base idx sz scale l)

/-- The memory key of byte `off` of an access. -/
def keyAt : List (Nat × Nat) → Nat → Nat
  | [], _ => 0
  | (k, n) :: t, off => if off < n then k + off else keyAt t (off - n)

/-- The registers that n elements of a size fill, from the first: register, byte offset, bytes (R242). -/
def regPieces (sz : Size) (n : Nat) : List (Nat × Nat × Nat) :=
  match sz with
  | .d => (List.range (2 * n)).map fun i => (i, 4 * i, 4)
  | z => (List.range n).map fun i => (i, z.bytes * i, z.bytes)

/-- A loaded value, zero- or sign-extended (R239). -/
def extend (sx : Bool) (n x : Nat) : W64 :=
  if sx && decide (2 ^ (8 * n - 1) ≤ x) then BitVec.ofNat 64 x - BitVec.ofNat 64 (2 ^ (8 * n)) else BitVec.ofNat 64 x

/-- Whether a byte of a key range is poisoned and not supplied by the queue. -/
def Cx.keysBad (c : Cx) (key n : Nat) : Bool :=
  ((List.range n).map (· + key)).any fun k => poisoned c.pre k && !(c.tm.storeQ.any (·.covers k))

/-- One lane of a load lands in its registers from memory, tagged where poisoned (R237, R239). -/
def Cx.landLane (c : Cx) (s : State) (d : Operand) (sx : Bool) (ps : List (Nat × Nat × Nat)) (x : LaneAcc) : State :=
  match d with
  | .v r => ps.foldl (fun s p =>
    let reg := r.toNat + p.1
    let key := keyAt x.segs p.2.1
    let v := extend sx p.2.2 (bytesNat ((List.range p.2.2).map fun i => fwdByte c.pre.mem c.tm.storeQ (key + i)))
    let bad := c.keysBad key p.2.2
    c.onTeam s fun t =>
      let t := t.setV reg x.lane (v.setWidth 32)
      if bad then { t with vtag := mset t.vtag (vKey reg x.lane) x.va } else t) s
  | _ => s

/-- The registers that lanes fill when their data returns. -/
def loadParts (d : Operand) (ps : List (Nat × Nat × Nat)) (xs : List LaneAcc) : List LoadPart :=
  match d with
  | .v r => xs.flatMap fun x => ps.map fun p => ⟨vKey (r.toNat + p.1) x.lane, keyAt x.segs p.2.1, x.va, p.2.2⟩
  | _ => []

/-- Whether a load's data comes later: a lane reads from the host or peer tier (R300). An acquiring load waits for its data. -/
def LaneAcc.anyFar (xs : List LaneAcc) (d : Operand) (x : MemExt) : Bool :=
  decide (x.order ≠ .acquire) && xs.any (·.far) && opIsV d

/-- The granules whose turns a load takes as it issues: none where its data comes later (R332). -/
def turnsNow (xs : List LaneAcc) (d : Operand) (x : MemExt) (n : Nat) : List W64 :=
  if LaneAcc.anyFar xs d x then [] else granules xs n

/-- The lanes of a load land: at once; where one of them reads from the host or peer tier, all of them when the data returns
(R239, R254, R300). -/
def Cx.landLanes (c : Cx) (s : State) (d : Operand) (sx : Bool) (x : MemExt) (n : Nat) (ps : List (Nat × Nat × Nat))
    (xs : List LaneAcc) : State :=
  if LaneAcc.anyFar xs d x then
    c.onTeam s fun t => { t with
      loads := t.loads ++ [⟨false, sx, xs.length, loadParts d ps xs, granules xs n, mkPc c.pkt c.slot⟩] }
  else xs.foldl (fun s x => c.landLane s d sx ps x) s

/-- A lane load (R237 to R239, R242): n elements from each lane's address into registers from d on. -/
def Cx.loadLanes (c : Cx) (s : State) (d : Operand) (base : BitVec 5) (idx : Operand) (sz : Size) (scale : Bool)
    (n : Nat) (sx : Bool) (x : MemExt) : MRes :=
  let bytes := n * sz.bytes
  c.lanewise .load sz.bytes bytes (c.laneList base idx sz scale) s fun xs s =>
    if c.loadWaits xs then .hold c.pre (.notReady 13)
    else c.gated 2 (turnsNow xs d x bytes) fun _ =>
      match if x.order = .acquire then xs.find? c.laneBad else none with
      | some b => .fault (takeTags c.pre s) { cls := 0x16, lane := some b.lane, addr := b.va }
      | none =>
        let s := turnAll (c.countUses (c.tick s 0x13 xs.length) xs) c.ctx 2 (turnsNow xs d x bytes) c.req
        .ok (c.landLanes s d sx x bytes (regPieces sz n) xs)

/-- The bytes that a lane stores: n elements of registers from d on, or a scalar's (R239, R242). -/
def Cx.laneBytes (c : Cx) (d : Operand) (sz : Size) (n : Nat) (l : Nat) : List Byte :=
  match d with
  | .v r => (regPieces sz n).flatMap fun p => natBytes p.2.2 (c.vreg (r.toNat + p.1) l).toNat
  | d => natBytes sz.bytes (c.rdS d).toNat

/-- A lane store (R239, R242, R243): the bytes of each lane go to its address. -/
def Cx.storeLanes (c : Cx) (s : State) (d : Operand) (sz : Size) (n : Nat) (x : MemExt) (todo : List (Nat × W64)) :
    MRes :=
  let bytes := n * sz.bytes
  c.lanewise .store sz.bytes bytes todo s fun xs s =>
    let s := c.tick s 0x13 xs.length
    .ok (c.enqueue s x.ms bytes (xs.map fun a => (a, c.laneBytes d sz n a.lane)))

/-! ### LD, ST, LDSTR, STSTR, CPST -/

def bodyLd (d : Operand) (base : BitVec 5) (idx : Operand) (sz : Size) (scale : Bool) : Body := fun c s =>
  c.loadLanes s d base idx sz scale 1 false MemExt.plain
def bodyLdExt (d : Operand) (base : BitVec 5) (idx : Operand) (sz : Size) (scale : Bool) (x : MemExt) (sx : Bool) :
    Body := fun c s => c.loadLanes s d base idx sz scale 1 sx x
def bodySt (d : Operand) (base : BitVec 5) (idx : Operand) (sz : Size) (scale : Bool) : Body := fun c s =>
  c.storeLanes s d sz 1 MemExt.plain (c.laneList base idx sz scale)
def bodyStExt (d : Operand) (base : BitVec 5) (idx : Operand) (sz : Size) (scale : Bool) (x : MemExt) : Body :=
  fun c s => c.storeLanes s d sz 1 x (c.laneList base idx sz scale)
def bodyLdstr (d : Operand) (base : BitVec 5) (idx : Operand) (sz : Size) (scale : Bool) (x : MemExt)
    (n1 : BitVec 3) : Body := fun c s => c.loadLanes s d base idx sz scale (n1.toNat + 1) false x
def bodyStstr (d : Operand) (base : BitVec 5) (idx : Operand) (sz : Size) (scale : Bool) (x : MemExt)
    (n1 : BitVec 3) : Body := fun c s => c.storeLanes s d sz (n1.toNat + 1) x (c.laneList base idx sz scale)

/-- CPST (R243): the lanes with pN store at their ranks. -/
def bodyCpst (d : Operand) (base : BitVec 5) (_ : Operand) (sz : Size) (_ : Bool) (x : MemExt) (p : PredSel) :
    Body := fun c s =>
  let n := match p with
    | .p n => n.val
    | .q _ => 47
  let on := c.lanes.filter (c.tm.pred n)
  let rank (l : Nat) : Nat := (on.filter fun m => decide (m < l)).length
  let todo := (c.todo.filter fun l => decide (l ∈ on)).map fun l =>
    (l, c.rdS (.s base) + BitVec.ofNat 64 (rank l * sz.bytes))
  c.storeLanes s d sz 1 x todo

/-! ### LDS and STS (R241) -/

/-- The one access of a member of TEAM scope as a lane access. -/
def teamAcc (va : W64) (segs : List (Nat × Nat)) (tier : Nat) : LaneAcc := ⟨0, va, segs, tier⟩

def Cx.loadTeam (c : Cx) (s : State) (d : Operand) (base : BitVec 5) (sz : Size) (sx : Bool) (x : MemExt) : MRes :=
  let va := c.rdS (.s base)
  c.one .load sz.bytes va sz.bytes fun segs tier bs =>
    let a := teamAcc va segs tier
    if c.loadWaits [a] then .hold c.pre (.notReady 13)
    else c.gated 2 (granules [a] sz.bytes) fun _ =>
      if decide (x.order = .acquire) && c.laneBad a then .fault (bindAll c.pre bs) { cls := 0x16, addr := va }
      else
        let s := turnAll (c.countUses (c.tick (bindAll s bs) 0x13 1) [a]) c.ctx 2 (granules [a] sz.bytes) c.req
        match d with
        | .s n =>
          if a.far && decide (x.order ≠ .acquire) then
            .ok (c.onTeam s fun t => { t with loads := t.loads ++ [⟨true, sx, 1, [⟨n.toNat, keyAt segs 0, va, sz.bytes⟩], [], mkPc c.pkt c.slot⟩] })
          else
            let v := extend sx sz.bytes (bytesNat (fwdBytes c.pre.mem c.tm.storeQ segs))
            .ok (c.onTeam s fun t =>
              let t := t.setS n.toNat v
              if c.laneBad a then { t with stag := mset t.stag n.toNat va } else t)
        | _ => .ok s

def Cx.storeTeam (c : Cx) (s : State) (d : Operand) (base : BitVec 5) (sz : Size) (x : MemExt) : MRes :=
  let va := c.rdS (.s base)
  c.one .store sz.bytes va sz.bytes fun segs tier bs =>
    .ok (c.enqueue (c.tick (bindAll s bs) 0x13 1) x.ms sz.bytes
      [(teamAcc va segs tier, natBytes sz.bytes (c.rdS d).toNat)])

def bodyLds (d : Operand) (base : BitVec 5) (_ : Operand) (sz : Size) (_ : Bool) : Body := fun c s =>
  c.loadTeam s d base sz false MemExt.plain
def bodyLdsExt (d : Operand) (base : BitVec 5) (_ : Operand) (sz : Size) (_ : Bool) (x : MemExt) (sx : Bool) :
    Body := fun c s => c.loadTeam s d base sz sx x
def bodySts (d : Operand) (base : BitVec 5) (_ : Operand) (sz : Size) (_ : Bool) : Body := fun c s =>
  c.storeTeam s d base sz MemExt.plain
def bodyStsExt (d : Operand) (base : BitVec 5) (_ : Operand) (sz : Size) (_ : Bool) (x : MemExt) : Body :=
  fun c s => c.storeTeam s d base sz x

/-! ### PMOV (R244) -/

/-- The bit string of a predicate over n lanes. -/
def predBytes (t : Team) (n : Nat) : List Byte :=
  (List.range (t.nlane / 8)).map fun k =>
    BitVec.ofNat 8 ((List.range 8).foldl (fun a i => if t.pred n (8 * k + i) then a + 2 ^ i else a) 0)

def Cx.pmov (c : Cx) (s : State) (dir : Bool) (p : PredSel) (base : BitVec 5) (x : MemExt) : MRes :=
  let n := match p with
    | .p n => n.val
    | .q _ => 47
  let va := c.rdS (.s base)
  let len := c.tm.nlane / 8
  c.one (if dir then .store else .load) 4 va len fun segs tier bs =>
    let a := teamAcc va segs tier
    let s := c.tick (bindAll s bs) 0x13 1
    if dir then .ok (c.enqueue s x.ms len [(a, predBytes c.tm n)])
    else if c.loadWaits [a] then .hold c.pre (.notReady 13)
    else c.gated 2 (granules [a] len) fun _ =>
      if c.laneBad a then .fault (bindAll c.pre bs) { cls := 0x16, addr := va }
      else
        let bs := fwdBytes c.pre.mem c.tm.storeQ segs
        .ok (c.wrP (turnAll (c.countUses s [a]) c.ctx 2 (granules [a] len) c.req) n
          (c.lanes.map fun l => (l, (bs[l / 8]?.getD 0).getLsbD (l % 8))))

def bodyPmov (dir : Bool) (p : PredSel) (base : BitVec 5) : Body := fun c s => c.pmov s dir p base MemExt.plain
def bodyPmovExt (dir : Bool) (p : PredSel) (base : BitVec 5) (x : MemExt) : Body := fun c s => c.pmov s dir p base x

/-! ### PREF (R245): no architectural effect (DEDUCED, log entry 34) -/

def bodyPref (_ : BitVec 5) (_ : Operand) (_ : Size) (_ : Bool) : Body := fun _ s => .ok s
def bodyPrefExt (_ : BitVec 5) (_ : Operand) (_ : Size) (_ : Bool) (_ : MemExt) : Body := fun _ s => .ok s

/-! ### FENCE (R269) -/

/-- FENCE: full waits until every earlier access has been performed; the acquiring kinds until every
earlier load has; a release needs no wait, since stores leave the queue in order behind earlier accesses. -/
def bodyFence (kind : BitVec 2) (_ : MScope) : Body := fun c s =>
  if kind = 0 then (if c.drained then .ok s else .hold c.pre (.notReady 13))
  else if kind = 2 then .ok s
  else if c.tm.loads.isEmpty then .ok s else .hold c.pre (.notReady 13)

/-! ### Meanings -/

def execLd (d : Operand) (base : BitVec 5) (idx : Operand) (sz : Size) (scale : Bool) (s : State) :=
  issue1 (.ld d base idx sz scale) (bodyLd d base idx sz scale) s
def execLdExt (d : Operand) (base : BitVec 5) (idx : Operand) (sz : Size) (scale : Bool) (x : MemExt) (sx : Bool) (s : State) :=
  issue1 (.ldExt d base idx sz scale x sx) (bodyLdExt d base idx sz scale x sx) s
def execSt (d : Operand) (base : BitVec 5) (idx : Operand) (sz : Size) (scale : Bool) (s : State) :=
  issue1 (.st d base idx sz scale) (bodySt d base idx sz scale) s
def execStExt (d : Operand) (base : BitVec 5) (idx : Operand) (sz : Size) (scale : Bool) (x : MemExt) (s : State) :=
  issue1 (.stExt d base idx sz scale x) (bodyStExt d base idx sz scale x) s
def execLds (d : Operand) (base : BitVec 5) (idx : Operand) (sz : Size) (scale : Bool) (s : State) :=
  issue1 (.lds d base idx sz scale) (bodyLds d base idx sz scale) s
def execLdsExt (d : Operand) (base : BitVec 5) (idx : Operand) (sz : Size) (scale : Bool) (x : MemExt) (sx : Bool) (s : State) :=
  issue1 (.ldsExt d base idx sz scale x sx) (bodyLdsExt d base idx sz scale x sx) s
def execSts (d : Operand) (base : BitVec 5) (idx : Operand) (sz : Size) (scale : Bool) (s : State) :=
  issue1 (.sts d base idx sz scale) (bodySts d base idx sz scale) s
def execStsExt (d : Operand) (base : BitVec 5) (idx : Operand) (sz : Size) (scale : Bool) (x : MemExt) (s : State) :=
  issue1 (.stsExt d base idx sz scale x) (bodyStsExt d base idx sz scale x) s
def execLdstr (d : Operand) (base : BitVec 5) (idx : Operand) (sz : Size) (scale : Bool) (x : MemExt) (n1 : BitVec 3) (s : State) :=
  issue1 (.ldstr d base idx sz scale x n1) (bodyLdstr d base idx sz scale x n1) s
def execStstr (d : Operand) (base : BitVec 5) (idx : Operand) (sz : Size) (scale : Bool) (x : MemExt) (n1 : BitVec 3) (s : State) :=
  issue1 (.ststr d base idx sz scale x n1) (bodyStstr d base idx sz scale x n1) s
def execCpst (d : Operand) (base : BitVec 5) (idx : Operand) (sz : Size) (scale : Bool) (x : MemExt) (p : PredSel) (s : State) :=
  issue1 (.cpst d base idx sz scale x p) (bodyCpst d base idx sz scale x p) s
def execPmov (dir : Bool) (p : PredSel) (base : BitVec 5) (s : State) :=
  issue1 (.pmov dir p base) (bodyPmov dir p base) s
def execPmovExt (dir : Bool) (p : PredSel) (base : BitVec 5) (x : MemExt) (s : State) :=
  issue1 (.pmovExt dir p base x) (bodyPmovExt dir p base x) s
def execPref (base : BitVec 5) (idx : Operand) (sz : Size) (scale : Bool) (s : State) :=
  issue1 (.pref base idx sz scale) (bodyPref base idx sz scale) s
def execPrefExt (base : BitVec 5) (idx : Operand) (sz : Size) (scale : Bool) (x : MemExt) (s : State) :=
  issue1 (.prefExt base idx sz scale x) (bodyPrefExt base idx sz scale x) s
def execFence (kind : BitVec 2) (ms : MScope) (s : State) := issue1 (.fence kind ms) (bodyFence kind ms) s

end Sys2Proof.Machine
end

