-- ==== Sys2Proof/Machine/Atomics.lean ====
section
/-! DEFINITION. Atomics and bank operations (R261 to R268): ATOM, CAS, ATOMS, BOP. -/

namespace Sys2Proof.Machine

/-- The new value of an atomic of n bytes (R261). -/
def newValue (op n : Nat) (o x : Nat) : Nat :=
  let m := 2 ^ (8 * n)
  let sgn (v : Nat) : Int := if m / 2 ≤ v then (v : Int) - m else v
  match op with
  | 0 => (o + x) % m
  | 1 => if sgn o ≤ sgn x then o else x
  | 2 => if sgn o ≤ sgn x then x else o
  | 3 => min o x
  | 4 => max o x
  | 5 => Nat.land o x
  | 6 => Nat.lor o x
  | 7 => Nat.xor o x
  | 8 => x
  | 9 => (addF fp32 FEnv.plain (decodeF fp32 false o) (decodeF fp32 false x)).1
  | 10 => if x ≤ o then 0 else o + 1
  | 11 => if o = 0 ∨ x < o then x else o - 1
  | _ => o

/-- What an atomic does to a word: an operation of R261, or a compare and swap. -/
inductive Rmw where
  | op (k : Nat) (x : Nat)
  | cas (c n : Nat)
deriving DecidableEq, Repr

/-- The new value, none where nothing is written (R265). -/
def Rmw.apply (r : Rmw) (n o : Nat) : Option Nat :=
  match r with
  | .op k x => some (newValue k n o x)
  | .cas c v => if o = c then some v else none

/-- What folds into the store hash (R338): the operand, or N. -/
def Rmw.data : Rmw → Nat
  | .op _ x => x
  | .cas _ n => n

/-- Operations of the host tier (R250). -/
def Rmw.hostOk : Rmw → Bool
  | .op k _ => decide (k = 0 ∨ k = 8)
  | .cas _ _ => true

/-- The Lamport exchange of a stamped atomic (R329). -/
def stampClocks (s : State) (core part tier key : Nat) (va : W64) : State :=
  let own := s.clock core + 1
  match homeOf s part va tier key with
  | some (slice, _) =>
    let s := s.receive (0x1000 + slice) own
    s.receive core (s.clock (0x1000 + slice))
  | none => s.receive core own

/-- An atomic on a peer's word goes to its home there (R250). -/
def peerAtomic (s : State) (tier key n : Nat) (r : Rmw) : State :=
  if tier ≠ 3 then s
  else
    let pa := key - memKey 3 0
    let o : Outgoing := match r with
      | .op k x => .atomic pa k n x 0
      | .cas c x => .atomic pa 12 n x c
    { s with outbox := s.outbox ++ [o] }

/-- The records and the write of the store half of an atomic on tiers and windows; none where the log has
no room (R315). A host or peer word's record holds the data sent (R317, R323). -/
def writeWord (s : State) (c : Cx) (va : W64) (tier key n v sent : Nat) : Option State :=
  let bytes := natBytes n v
  let s' := if tier = 2 ∨ tier = 3 then irreversible s c.g c.ctx c.core tier va (natBytes n sent)
    else undoWrite s c.g c.ctx c.core (if windowOf va.toNat = some .scratch then c.b else 0) va key n
  s'.map fun s => putMem s key bytes

/-- What performing lanes one by one has left. -/
structure RmwAcc where
  s : State
  olds : List (Nat × Nat)
  bad : List (Nat × W64)
  stall : Option (Nat × W64)
deriving DecidableEq, Repr

/-- One lane's operation at its home (R262): poison leaves the word, the lane is not applied. -/
def Cx.rmwLane (c : Cx) (n : Nat) (tag : Bool) (f : Nat → Rmw) (a : RmwAcc) (x : LaneAcc) : RmwAcc :=
  if a.stall.isSome then a
  else
    let key := keyAt x.segs 0
    let s := foldHash a.s c.ctx c.g c.b c.t x.va (natBytes n (f x.lane).data)
    let s := if tag then stampClocks s c.core c.gr.part x.tier key x.va else s
    let s := countBank s c.ctx c.gr.part c.core x.va x.tier key
    if segsPoisoned s x.segs then { a with s := s, bad := a.bad ++ [(x.lane, x.va)] }
    else
      let o := readNat s.mem key n
      let done (s : State) : RmwAcc := { a with s := peerAtomic s x.tier key n (f x.lane), olds := a.olds ++ [(x.lane, o)] }
      match (f x.lane).apply n o with
      | none => done s
      | some v => match writeWord s c x.va x.tier key n v (f x.lane).data with
        | some s => done s
        | none => { a with stall := some (x.lane, x.va) }

/-- The points of arbitration of atomics: their words, but for host and peer memory (R332). -/
def rmwKeys (xs : List LaneAcc) : List W64 :=
  ((xs.filter fun x => decide (x.tier < 2 ∨ x.tier = 9)).map (·.va)).dedup

/-- The checks of a lane atomic up to the first lane that fails: an operation that the host tier has not is a failed check of
its lane (R250). -/
def Cx.checkRmw (c : Cx) (n : Nat) (f : Nat → Rmw) (todo : List (Nat × W64)) :
    List LaneAcc × Option (Nat × W64 × AccRes) × State :=
  let chk := c.checkLanes .rmw n n todo c.pre
  match chk.1.find? fun x => decide (x.tier = 2) && !(f x.lane).hostOk with
  | some b =>
    let (xs, _, tags) := c.checkLanes .rmw n n (todo.takeWhile fun x => decide (x.1 ≠ b.lane)) c.pre
    (xs, some (b.lane, b.va, .fault 0x11 0 b.va none), tags)
  | none => chk

/-- The words that lanes are still to operate on: a member's turn at a word is the pass that performs its last lane there
(R332). -/
def rmwLeft (todo : List (Nat × W64)) (a : RmwAcc) (stuck : Option Nat) : List W64 :=
  let from_ : List Nat := (a.stall.map (·.1)).toList ++ stuck.toList
  (todo.filter fun x => decide (x.1 ∈ a.bad.map (·.1)) || from_.any fun l => decide (l ≤ x.1)).map (·.2)

/-- How a lane atomic ends whose lanes were performed: complete, or partial at the lowest lane that met poison, that found the
log full, or that failed its check; the lanes that met poison and those from the failing one on are to resume (R236, R262). -/
def rmwEnd (todo : List Nat) (a : RmwAcc) (stuck : Option (Nat × FInfo)) (s : State) : MRes :=
  let from_ (l : Nat) : List Nat := todo.filter fun m => decide (l ≤ m)
  let rest : List Nat := match a.stall, stuck with
    | some (l, _), _ => from_ l
    | none, some (l, _) => from_ l
    | none, none => []
  let mask := maskOf (a.bad.map (·.1) ++ rest)
  match a.bad, a.stall, stuck with
  | (l, va) :: _, _, _ => .part s { cls := 0x16, cause := 2, lane := some l, addr := va, mask := mask }
  | [], some (l, va), _ => .part s { cls := 0x52, lane := some l, addr := va, mask := mask }
  | [], none, some (l, f) => .part s { f with lane := some l, mask := mask }
  | [], none, none => .ok s

/-- A lane atomic (R262 to R265): checks up to the first failing lane, the lanes before it performed in order, old values
written. -/
def Cx.atomic (c : Cx) (s : State) (d : Operand) (base : BitVec 5) (idx : Operand) (sz : Size) (scale tag : Bool)
    (f : Nat → Rmw) : MRes :=
  let n := sz.bytes
  let todo := c.laneList base idx sz scale
  if !(c.room todo.length) then .hold c.pre (.notReady 13)
  else match c.parkLanes .rmw n n todo c.pre with
    | (0, _, _, _) =>
      if !c.drained then .hold c.pre (.notReady 13)
      else
        let (xs, r, tags) := c.checkRmw n f todo
        if !(c.missRoom tags.misses) then .hold c.pre (.notReady 13) else
        let go (s : State) (stuck : Option (Nat × FInfo)) : MRes := c.gated 1 (rmwKeys xs) fun _ =>
          let run (keys : List W64) : RmwAcc := xs.foldl (c.rmwLane n tag f)
            ⟨turnAll (c.tick s 0x13 xs.length) c.ctx 1 keys c.req, [], [], none⟩
          let a := run (rmwKeys xs)
          let left := rmwLeft todo a (stuck.map (·.1))
          let a := if left.isEmpty then a else run ((rmwKeys xs).filter fun k => decide (k ∉ left))
          rmwEnd (todo.map (·.1)) a stuck <|
            if sz = Size.d then c.wrD a.s d (a.olds.map fun e => (e.1, BitVec.ofNat 64 e.2))
            else c.wrL a.s d (a.olds.map fun e => (e.1, BitVec.ofNat 32 e.2))
        match r with
        | none => go (takeTags s tags) none
        | some x => match c.stuck tags x.2.1 x.2.2 with
          | .fault side f => go side (some (x.1, f))
          | m => m.res
    | (k, ls, ps, side) => c.park { side with keyTags := c.pre.keyTags } k ls ps

/-- A lane's operand of n bytes (R264). -/
def Cx.rmwArg (c : Cx) (o : Operand) (sz : Size) (l : Nat) : Nat :=
  if sz = Size.d then (c.rdD o l).toNat else (c.rdL o l).toNat

def bodyAtom (d : Operand) (base : BitVec 5) (idx : Operand) (sz : Size) (scale : Bool) (_ : MemExt) (tag : Bool)
    (a : Operand) (op : BitVec 4) : Body := fun c s =>
  c.atomic s d base idx sz scale tag fun l => .op op.toNat (c.rmwArg a sz l)
def bodyCas (d : Operand) (base : BitVec 5) (idx : Operand) (sz : Size) (scale : Bool) (_ : MemExt) (tag : Bool)
    (k n : Operand) : Body := fun c s =>
  c.atomic s d base idx sz scale tag fun l => .cas (c.rmwArg k sz l) (c.rmwArg n sz l)

/-- ATOMS (R266): one operation for the team, whole or not at all. -/
def bodyAtoms (d : Operand) (base : BitVec 5) (_ : Operand) (sz : Size) (_ : Bool) (_ : MemExt) (tag : Bool)
    (a : Operand) (op : BitVec 4) : Body := fun c s =>
  let n := sz.bytes
  let va := c.rdS (.s base)
  let low (o : Operand) : Nat := (c.rdS o).toNat % 2 ^ (8 * n)
  let r : Rmw := if op = 12 then .cas (low a) (low d) else .op op.toNat (low a)
  c.one .rmw n va n fun segs tier bs =>
    if tier = 2 ∧ r.hostOk = false then .fault c.pre { cls := 0x11, addr := va }
    else if !c.drained then .hold c.pre (.notReady 13)
    else
      let x := teamAcc va segs tier
      c.gated 1 (rmwKeys [x]) fun _ =>
        let s := turnAll (c.tick (bindAll s bs) 0x13 1) c.ctx 1 (rmwKeys [x]) c.req
        let a := c.rmwLane n tag (fun _ => r) ⟨s, [], [], none⟩ x
        match a.bad, a.stall, a.olds with
        | _ :: _, _, _ => .fault (bindAll c.pre bs) { cls := 0x16, cause := 2, addr := va }
        | [], some _, _ => .fault c.pre { cls := 0x52, addr := va }
        | [], none, (_, o) :: _ => match d with
          | .s k => .ok (c.onTeam a.s fun t => t.setS k.toNat (BitVec.ofNat 64 o))
          | _ => .ok a.s
        | [], none, [] => .ok a.s

/-- BOP (R268): its elements enter the store queue in order. -/
def bodyBop (base : BitVec 5) (cnt a : Operand) (wide : Bool) (x : MemExt) (op : BitVec 4) : Body := fun c s =>
  let n := if wide then 8 else 4
  let k := (c.rdS cnt).toNat
  let va := c.rdS (.s base)
  let csm := c.gr.lrec.csm * 64
  let off := va.toNat % 2 ^ 52
  let v := BitVec.ofNat 64 ((c.rdS a).toNat % 2 ^ (8 * n))
  if k = 0 then .ok s
  else if 65536 < k then .fault c.pre { cls := 0x02 }
  else if va.toNat % n ≠ 0 then .fault c.pre { cls := 0x15, addr := va }
  else if windowOf va.toNat ≠ some .csm then .fault c.pre { cls := 0x18, addr := va }
  else if csm < off + n * k then
    .fault c.pre { cls := 0x18, addr := BitVec.ofNat 64 (va.toNat - off + max off csm) }
  else
    let es := (List.range k).map fun e =>
      let w := va + BitVec.ofNat 64 (e * n)
      (⟨.bop op v, w, 9, csmKey c.g (off + e * n), natBytes n 0, x.ms, [w], mkPc c.pkt c.slot, []⟩ : StoreEnt)
    let s := es.foldl (fun s e => foldHash s c.ctx c.g c.b c.t e.va (natBytes n v.toNat)) s
    .ok (c.onTeam s fun t => { t with storeQ := t.storeQ ++ es })

/-! ### Meanings -/

def execAtom (d : Operand) (base : BitVec 5) (idx : Operand) (sz : Size) (scale : Bool) (x : MemExt) (tag : Bool) (a : Operand) (op : BitVec 4) (s : State) :=
  issue1 (.atom d base idx sz scale x tag a op) (bodyAtom d base idx sz scale x tag a op) s
def execCas (d : Operand) (base : BitVec 5) (idx : Operand) (sz : Size) (scale : Bool) (x : MemExt) (tag : Bool) (c n : Operand) (s : State) :=
  issue1 (.cas d base idx sz scale x tag c n) (bodyCas d base idx sz scale x tag c n) s
def execAtoms (d : Operand) (base : BitVec 5) (idx : Operand) (sz : Size) (scale : Bool) (x : MemExt) (tag : Bool) (a : Operand) (op : BitVec 4) (s : State) :=
  issue1 (.atoms d base idx sz scale x tag a op) (bodyAtoms d base idx sz scale x tag a op) s
def execBop (base : BitVec 5) (n a : Operand) (wide : Bool) (x : MemExt) (op : BitVec 4) (s : State) :=
  issue1 (.bop base n a wide x op) (bodyBop base n a wide x op) s

end Sys2Proof.Machine
end

