-- ==== Sys2Proof/Machine/Control.lean ====
section
/-! DEFINITION. Control (R63, R82, R108, R109, R115 to R119) and frames (R173 to R180): the meaning of
NOP, BT, BF, JMP, LOOP, ENDL, CALL, RET, EXIT, FRDEF and FRFENCE. -/

namespace Sys2Proof.Machine

/-! ### Transfers -/

/-- The target packet of a displacement, none where it falls outside 0 to 2^30 − 1 (R48). -/
def target (pkt : Nat) (disp : Int) : Option W32 :=
  let x := (pkt : Int) + disp
  if 0 ≤ x ∧ x < 2 ^ 30 then some (mkPc x.toNat 0) else none

/-- A taken transfer (R48). -/
def Cx.jumpTo (c : Cx) (s : State) (disp : Int) : MRes :=
  match target c.pkt disp with
  | some pc => .jump s pc
  | none => .fault c.pre { cls := 0x01 }

/-- The first lane whose value differs from the first contributing lane's (R109). -/
def firstOdd {α : Type} (l : List (α × Bool)) : Option α :=
  match l with
  | [] => none
  | h :: t => (t.find? fun e => e.2 != h.2).map (·.1)

/-- Whether every block of an instance of a scope has been placed: a co-resident grid's are, before any of
its teams issues (R112). -/
def placed (gr : Grid) : Scope → Bool
  | .grid => decide (gr.lrec.grid ≤ gr.nextBlk)
  | _ => true

/-- What the teams of a rendezvous have contributed: the predicate of each lane of the group that reached the
branch, as it stood before that chain (R52), team by team in the order of R84 (R108). -/
def gather (arr : List Arrival) (ts : List (Nat × Nat)) : List ((Nat × Nat × Nat) × Bool) :=
  ts.flatMap fun e => match arr.find? fun a => decide (a.blk = e.1 ∧ a.team = e.2) with
    | some a => a.vals.map fun x => ((e.1, e.2, x.1), x.2)
    | none => []

/-- BT and BF (R108, R109, R115). -/
def branch (sc : Scope) (p : PredSel) (sense : Bool) (disp : BitVec 14) : Body := fun c s =>
  match p with
  | .q n => if c.rdQ sc n.toNat = sense then c.jumpTo s disp.toInt else .ok s
  | .p n =>
    if sc = .lane then
      let taken := c.lanes.filter fun l => c.tm.pred n.val l = sense
      if taken.isEmpty then .ok s
      else match target c.pkt disp.toInt with
        | none => .fault c.pre { cls := 0x01 }
        | some pc =>
          let rest := c.tm.groups.filter fun (g : W32 × Mask) => decide (g.1 ≠ c.pre.pcOf c.p)
          let stay := c.act &&& ~~~(maskOf taken)
          let groups := addGroup (addGroup rest (pc, maskOf taken)) (nextPc c.pkt c.last, stay)
          if 32 < groups.length then .fault c.pre { cls := 0x05, scope := some .lane }
          else .split s (maskOf taken) pc
    else if sc = .team then
      let vs := c.lanes.map fun l => (l, c.tm.pred n.val l)
      match firstOdd vs with
      | some l => .fault c.pre { cls := 0x04, scope := some .team, lane := some l }
      | none => if vs.any fun e => e.2 = sense then c.jumpTo s disp.toInt else .ok s
    else if c.sc = .team then
      -- a contributing team arrives; the close chain completes its segment
      .ok (s.modLvl (ownerAt c.g c.b c.k sc) fun v => { v with
        arr := v.arr ++ [⟨c.b, c.t, c.lanes.map fun l => (l, c.tm.pred n.val l)⟩] })
    else
      let ts := liveTeams c.pre c.g sc (instNo c.p)
      let arr := ((c.pre.lvlOf c.p).map (·.arr)).getD []
      if !(placed c.gr sc) || ts.any fun e => !(arr.any fun a => decide (a.blk = e.1 ∧ a.team = e.2)) then
        .hold c.pre (.notReady 2)
      else
        let vs := gather arr ts
        match firstOdd vs with
        | some (b, t, l) => .fault c.pre { cls := 0x04, scope := some sc, lane := some l, team := some (b, t) }
        | none =>
          let v := vs.any fun e => e.2
          let s := s.modLvl c.p fun v => { v with arr := [] }
          if v = sense then c.jumpTo s disp.toInt else .ok s

/-- The meaning of NOP (R63). -/
def bodyNop : Body := fun _ s => .ok s

def bodyBt (sc : Scope) (p : PredSel) (disp : BitVec 14) : Body := branch sc p true disp
def bodyBf (sc : Scope) (p : PredSel) (disp : BitVec 14) : Body := branch sc p false disp

/-- JMP (R116). A lane group that jumps may merge with another. -/
def bodyJmp (_ : Scope) (disp : BitVec 18) : Body := fun c s => c.jumpTo s disp.toInt

/-- LOOP (R117). -/
def bodyLoop (_ : Scope) (n : Operand) (disp : BitVec 13) : Body := fun c s =>
  let x := c.rdS n
  if 2 ^ 32 ≤ x.toNat then .fault c.pre { cls := 0x02, addr := x }
  else if x = 0 then c.jumpTo s disp.toInt
  else if 8 ≤ c.seq.loops.length then .fault c.pre { cls := 0x05 }
  else .ok (s.modSeq c.p fun q => { q with loops := ⟨0, x.setWidth 32⟩ :: q.loops })

/-- ENDL (R106, R117). -/
def bodyEndl (_ : Scope) (disp : BitVec 13) : Body := fun c s =>
  match c.seq.loops with
  | [] => .fault c.pre { cls := 0x06 }
  | e :: rest =>
    if (e.lc + 1).toNat < e.count.toNat then
      c.jumpTo (s.modSeq c.p fun q => { q with loops := { e with lc := e.lc + 1 } :: rest }) disp.toInt
    else .ok (s.modSeq c.p fun q => { q with loops := rest })

/-- Depth of the call stack of a level (R111, R118). -/
def callDepth : Scope → Nat
  | .team => 16
  | .block => 8
  | _ => 4

/-- CALL with F 0 (R118). -/
def bodyCall (sc : Scope) (disp : BitVec 18) : Body := fun c s =>
  if callDepth sc ≤ c.seq.calls.length then .fault c.pre { cls := 0x05 }
  else c.jumpTo (s.modSeq c.p fun q => { q with
      calls := ⟨nextPc c.pkt c.last, none, 0, []⟩ :: q.calls }) disp.toInt

/-! ### Frames -/

/-- The store that frames of a scope are drawn from, its instance and its cells in order (R163). -/
def Cx.store (c : Cx) : Nat × Nat × List Nat :=
  match c.sc with
  | .cluster => (1, c.k, List.range 4)
  | .grid => (2, 0, [1, 2, 3, 4])
  | _ => (0, c.b, List.range (8 * (c.gr.lrec.nteam + 1)))

/-- The handle of a cell (R166). -/
def mkHandle (store cell : Nat) : W32 := BitVec.ofNat 32 (store * 2 ^ 30 + cell)

/-- The lowest free cell of a level's store (R177). -/
def Cx.freeCell (c : Cx) : Option Nat :=
  let (st, inst, cells) := c.store
  cells.find? fun n => (mget c.pre.frames (fKey c.g st inst n)).isNone

/-- A new frame of an instance at a level (R168, R177). -/
def Frame.fresh (serial : W32) (lvl : Nat) (parent : W32) (sc : Scope) (team : Nat) : Frame :=
  { serial := serial, refcount := 0, state := 0, sealed := false, level := lvl
    modes := List.replicate 16 0, parent := parent, oscope := sc, oteam := team
    slots := List.replicate 16 0 }

/-- Adds to the refcount of the frame that a handle names. -/
def Cx.refFrame (c : Cx) (s : State) (h : W32) (f : Nat → Nat) : State :=
  { s with frames := mmod s.frames (c.frameKey h) fun x => { x with refcount := f x.refcount } }

/-- CALL with F 1 (R118, R177). -/
def bodyCallFrame (sc : Scope) (lvl : BitVec 2) (disp : BitVec 18) : Body := fun c s =>
  let l := lvl.toNat
  if callDepth sc ≤ c.seq.calls.length then .fault c.pre { cls := 0x05 }
  else if c.lex (l - 1) = noFrame then .fault c.pre { cls := 0x02 }
  else match c.freeCell with
    | none => .fault c.pre { cls := 0x31 }
    | some n =>
      let (st, inst, _) := c.store
      let h := mkHandle st n
      let serial := ((mget s.ctxs c.ctx).map (·.frserial)).getD 0
      let parent := c.lex (l - 1)
      let s := c.refFrame s parent (· + 1)
      let s := s.modCtx c.ctx fun x => { x with frserial := x.frserial + 1 }
      let s := { s with
        frames := mset s.frames (fKey c.g st inst n) (Frame.fresh serial l parent sc (if sc = Scope.team then c.t else 0)) }
      c.jumpTo (s.modSeq c.p fun q => { q with
        calls := ⟨nextPc c.pkt c.last, some h, l, q.disp.drop l⟩ :: q.calls
        disp := q.disp.take l ++ [some h] ++ (List.range (3 - l)).map fun _ => some noFrame }) disp.toInt

/-- Undo records of the scrub of a cell, header and slots, in pieces of 16 bytes (R176, R178, R318); none where the log
stalls. -/
def scrubRecords (s : State) (c : Cx) (h : W32) (f : Frame) : Option State :=
  if s.undoOn c.ctx then
    (List.range 10).foldl (fun (o : Option State) j => o.bind fun s =>
      undoBy s c.g c.ctx 1 16 (frameInst c.b c.k h) c.engine (slotAddr h 0 - 32 + BitVec.ofNat 64 (16 * j))
        (bytesNat (((frameCell f).drop (16 * j)).take 16))) (some s)
  else some s

/-- The granules that the scrub of a cell writes whole (R237). -/
def cellHealed (cell n : Nat) : Bool := decide (slotKey cell 0 - 32 ≤ n * 64 ∧ n * 64 + 64 ≤ slotKey cell 0 + 128)

/-- What the return of a frame comes to. -/
inductive FrameRet where
  | retired (s : State)
  | waits (s : State) (h : W32)
  | stalled
deriving DecidableEq, Repr

/-- The return of a frame that the party owns (R178): state returning, its contributions published, the
settle wait; then the parent's refcount falls and the cell is scrubbed and freed. -/
def returnFrame (c : Cx) (s : State) (h : W32) : FrameRet :=
  let key := c.frameKey h
  let s := { s with frames := mmod s.frames key fun f => { f with state := 1 } }
  let s := publishAll s c.p c.ctx c.engine c.g c.b c.k
  match mget s.frames key with
  | none => .retired s
  | some f =>
    if settled s c.g c.b c.k f h then
      match scrubRecords (c.refFrame s f.parent (· - 1)) c h f with
      | some s => .retired { s with
          frames := mdel s.frames key, poison := s.poison.filter fun n => !(cellHealed key n) }
      | none => .stalled
    else .waits s h

/-- Restores the display entries that a call saved (R178). -/
def restoreDisp (q : Seq) (e : CallEnt) : Seq :=
  if e.frame.isSome then { q with disp := q.disp.take e.lvl ++ e.saved } else q

/-- Whether a member is the only one of its chain, or is issued again alone. -/
def Cx.sole (c : Cx) : Bool := c.alone || decide (c.slot = c.last ∧ c.slot = pcSlot (c.pre.pcOf c.p))

/-- Whether the team's store queue still holds writes of a frame (R176). -/
def Cx.slotsQueued (c : Cx) (h : W32) : Bool :=
  c.tm.storeQ.any fun e => (List.range 16).any fun k => decide (e.kind = .frame (c.frameKey h) k)

/-- RET (R106, R119, R178). The return of a frame begins when every other member of the chain has committed, and its scrub
follows the team's queued writes of the frame. -/
def bodyRet (_ : Scope) : Body := fun c s =>
  match c.seq.calls with
  | [] => .fault c.pre { cls := 0x06 }
  | e :: rest =>
    if decide (c.sc ≠ .grid) && decide (c.tok.close = c.pre.pcOf c.p) then .fault c.pre { cls := 0x06 }
    else
      let back (s : State) : MRes :=
        .jump (s.modSeq c.p fun q => { restoreDisp q e with calls := rest }) e.ret
      match e.frame with
      | none => back s
      | some h =>
        if !c.sole || c.slotsQueued h then .later s (.settle h)
        else match returnFrame c s h with
          | .retired s => back s
          | .waits s h => .later s (.settle h)
          | .stalled => .fault c.pre { cls := 0x52 }

/-- Modes of the slots that a FRDEF sets (R179). -/
def setModes (half : BitVec 1) (mask : BitVec 8) (modes : BitVec 24) (old : List (BitVec 3)) : List (BitVec 3) :=
  (List.range 8).foldl (fun l i =>
    if mask.getLsbD i then l.set (8 * half.toNat + i) (modes.extractLsb' (3 * i) 3) else l) old

/-- FRDEF (R179). -/
def bodyFrdef (_ : Scope) (lvl : BitVec 2) (half : BitVec 1) (mask : BitVec 8) (modes : BitVec 24) : Body :=
  fun c s =>
  match c.frameAt lvl.toNat with
  | none => .fault c.pre { cls := 0x02 }
  | some (h, f) =>
    if !(ownsFrame c.p f) || f.sealed || decide (f.refcount ≠ 0) then .fault c.pre { cls := 0x30 }
    else .ok { s with frames := mmod s.frames (c.frameKey h) fun f => { f with
        modes := setModes half mask modes f.modes } }

/-- FRFENCE (R180). -/
def bodyFrfence (_ : Scope) (lvl : BitVec 2) : Body := fun c s =>
  match c.frameAt lvl.toNat with
  | none => .fault c.pre { cls := 0x02 }
  | some (h, f) =>
    if ownsFrame c.p f then .ok s
    else
      let s := publishFrame s c.p c.ctx c.engine c.g c.b c.k h
      let left := ((s.seqOf c.p).map fun q => q.pend.any fun e => decide (e.1 / 16 = f.serial.toNat)).getD false
      if left then .fault c.pre { cls := 0x52 }
      else
        let now := ((mget s.frames (c.frameKey h)).map (·.slots)).getD f.slots
        .ok (s.modSeq c.p fun q => { q with views := mset q.views f.serial.toNat now })

/-- EXIT (R82): the running group leaves. What follows the last group is the event TEAM_RETIRE. -/
def bodyExit : Body := fun _ s => .gone s

/-! ### Meanings -/

def execBt (sc : Scope) (p : PredSel) (disp : BitVec 14) (s : State) :=
  issue1 (.bt sc p disp) (bodyBt sc p disp) s
def execBf (sc : Scope) (p : PredSel) (disp : BitVec 14) (s : State) :=
  issue1 (.bf sc p disp) (bodyBf sc p disp) s
def execJmp (sc : Scope) (disp : BitVec 18) (s : State) := issue1 (.jmp sc disp) (bodyJmp sc disp) s
def execLoop (sc : Scope) (n : Operand) (disp : BitVec 13) (s : State) :=
  issue1 (.loop sc n disp) (bodyLoop sc n disp) s
def execEndl (sc : Scope) (disp : BitVec 13) (s : State) := issue1 (.endl sc disp) (bodyEndl sc disp) s
def execCall (sc : Scope) (disp : BitVec 18) (s : State) := issue1 (.call sc disp) (bodyCall sc disp) s
def execCallFrame (sc : Scope) (lvl : BitVec 2) (disp : BitVec 18) (s : State) :=
  issue1 (.callFrame sc lvl disp) (bodyCallFrame sc lvl disp) s
def execRet (sc : Scope) (s : State) := issue1 (.ret sc) (bodyRet sc) s
def execFrdef (sc : Scope) (lvl : BitVec 2) (half : BitVec 1) (mask : BitVec 8) (modes : BitVec 24) (s : State) :=
  issue1 (.frdef sc lvl half mask modes) (bodyFrdef sc lvl half mask modes) s
def execFrfence (sc : Scope) (lvl : BitVec 2) (s : State) := issue1 (.frfence sc lvl) (bodyFrfence sc lvl) s
def execNop (s : State) := issue1 .nop bodyNop s
def execExit (s : State) := issue1 .exit bodyExit s

end Sys2Proof.Machine
end

