-- ==== Sys2Proof/Machine/Lift.lean ====
section
/-! DEFINITION. Lifts and lane crossing (R84 to R92, R103, R415): VOTE, PFXC, SHFL, RDFIRST, RDLANE, REDUCE,
PLOG, ACTM. A lift of TEAM scope is one member; a wider one opens a pending version at its owner, which
the teams' contributions fill. -/

namespace Sys2Proof.Machine

/-! ### Combining -/

/-- A lane value as REDUCE takes it: sign- or zero-extended (R90). -/
def redExt (op : Nat) (x : W32) : W64 :=
  if op = 0 ∨ op = 2 ∨ op = 4 then x.signExtend 64 else x.setWidth 64

/-- One step of a REDUCE (R90). -/
def redStep (op : Nat) (x y : W64) : W64 :=
  let fl (f : FV → FV → Nat → Nat → FRes) : W64 :=
    let a := x.toNat % 2 ^ 32
    let b := y.toNat % 2 ^ 32
    BitVec.ofNat 64 (f (decodeF fp32 false a) (decodeF fp32 false b) a b).1
  match op with
  | 0 | 1 => x + y
  | 2 => smin x y
  | 3 => if x.toNat ≤ y.toNat then x else y
  | 4 => smax x y
  | 5 => if x.toNat ≤ y.toNat then y else x
  | 6 => x &&& y
  | 7 => x ||| y
  | 8 => x ^^^ y
  | 9 => fl fun a b _ _ => addF fp32 FEnv.plain a b
  | 10 => fl fun a b i j => minmaxF fp32 false a b i j
  | _ => fl fun a b i j => minmaxF fp32 true a b i j

/-- A float result that is a NaN is the canonical one (R90). DEDUCED, log entry 10. -/
def redEnd (op : Nat) (x : W64) : W64 :=
  if 9 ≤ op ∧ (decodeF fp32 false (x.toNat % 2 ^ 32)).isNan then 0x7FC00000 else x

/-- The result of a REDUCE without contributions (R415). -/
def redEmpty (op : Nat) : W64 :=
  match op with
  | 2 => 0x7FFFFFFF
  | 3 | 6 => 0xFFFFFFFF
  | 4 => 0xFFFFFFFF80000000
  | 10 | 11 => 0x7FC00000
  | _ => 0

/-- Folds values from the first on; none when there is none. -/
def fold1 (f : W64 → W64 → W64) : List W64 → Option W64
  | [] => none
  | x :: t => some (t.foldl f x)

/-- How a lift combines two partial results. -/
def liftStep (i : Instr) (x y : W64) : W64 :=
  match i with
  | .vote _ _ k _ => if k = 0 then x ||| y else if k = 1 then x &&& y else x + y
  | .reduce _ _ op => redStep op.toNat x y
  | _ => x

/-- The result of a lift without contributions (R415). -/
def liftEmpty (i : Instr) : W64 :=
  match i with
  | .vote _ _ k _ => if k = 1 then 1 else 0
  | .reduce _ _ op => redEmpty op.toNat
  | _ => 0

/-- The contributions of each block in turn, in the order of R84. -/
def byBlock : List Contrib → List (List W64)
  | [] => []
  | c :: t => match byBlock t, t with
    | g :: gs, d :: _ => if c.blk = d.blk then (c.val.toList ++ g) :: gs else c.val.toList :: g :: gs
    | gs, _ => c.val.toList :: gs

/-- The result of a lift: team partials in team order within a block, block partials in blk order (R84,
R90). -/
def liftResult (i : Instr) (cs : List Contrib) : W64 :=
  let sorted := cs.insertionSort fun x y => x.blk < y.blk ∨ (x.blk = y.blk ∧ x.team ≤ y.team)
  let blocks := (byBlock sorted).filterMap (fold1 (liftStep i))
  match fold1 (liftStep i) blocks with
  | some x => match i with
    | .reduce _ _ op => redEnd op.toNat x
    | _ => x
  | none => liftEmpty i

/-! ### Filling pending versions (R103, R110) -/

/-- Fills every pending version of an owner whose live teams have all contributed. -/
def fillLifts (s : State) (p : Party) : State :=
  match s.lvlOf p, s.grid p.gridNo with
  | some v, some gr =>
    let ts := liveTeams s p.gridNo p.scope (instNo p)
    let full (l : Lift) : Bool := (p.scope ≠ .grid || decide (gr.lrec.grid ≤ gr.nextBlk)) &&
      ts.all fun e => l.got.any fun x => decide (x.blk = e.1 ∧ x.team = e.2)
    let s := (v.lifts.filter full).foldl (fun s l => s.modLvl p fun v => { v with
      vregs := v.vregs.modify l.reg fun r =>
        { r with slots := r.slots.set l.slot (some (liftResult l.ins l.got)) } }) s
    s.modLvl p fun v => { v with lifts := v.lifts.filter fun l => !(full l) }
  | _, _ => s

/-- Adds a team's contribution to the first pending lift of this member that lacks it; none where the
owner has not opened it yet. -/
def contribute (s : State) (own : Party) (i : Instr) (x : Contrib) : Option State :=
  match s.lvlOf own with
  | none => none
  | some v =>
    let lacks (l : Lift) : Bool := decide (l.ins = i) && !(l.got.any fun y => decide (y.blk = x.blk ∧ y.team = x.team))
    match v.lifts.findIdx? lacks with
    | none => none
    | some n =>
      let s := s.modLvl own fun v => { v with lifts := v.lifts.modify n fun l => { l with got := l.got ++ [x] } }
      some (fillLifts s own)

/-- A lift: at TEAM scope the destination is written; a contributing team adds its partial result; the
owner opens a pending version in a free slot (R84, R103). `part` is the team's partial. -/
def liftBody (i : Instr) (d : Operand) (lane : Nat) (part : Cx → Option W64) : Body := fun c s =>
  if c.sc = .team then
    let sc := dstScope d []
    if sc = .team then c.scalarWrite s d (liftResult i [⟨c.b, c.t, part c⟩])
    else match contribute s (ownerAt c.g c.b c.k sc) i ⟨c.b, c.t, part c⟩ with
      | some s => .ok s
      | none => .hold c.pre (.notReady 1)
  else match c.slotFor d with
    | none => .hold c.pre (.notReady 1)
    | some k =>
      let s := s.modLvl c.p fun v => { v with
        vregs := v.vregs.modify (regNo d) fun r => putVersion r k none
        lifts := v.lifts ++ [⟨regNo d, k, i, lane, []⟩] }
      .ok (fillLifts s c.p)

/-- A lane register read at one lane by a lift: waiting data and tags stand in its way (R187, R237). -/
def Cx.oneLane (c : Cx) (a : Operand) (l : Nat) (k : MRes) : MRes :=
  match a with
  | .v n => match c.srcV n.toNat [l] with
    | .notReady w => .hold c.pre (.notReady w)
    | .fault f => .fault c.pre f
    | _ => k
  | _ => k

/-! ### Members -/

/-- VOTE (R86). -/
def bodyVote (d k : Operand) (kind : BitVec 2) (p : PredSel) : Body := fun c s =>
  let n := match p with
    | .p n => n.val
    | .q _ => 47
  if kind = 2 then
    let w := (c.rdS k).toNat % 16
    let on := c.lanes.filter fun l => decide (l / 64 = w) && c.tm.pred n l
    c.scalarWrite s d (BitVec.ofNat 64 (on.foldl (fun a l => a + 2 ^ (l % 64)) 0))
  else
    let part (c : Cx) : Option W64 :=
      let on := (c.lanes.filter (c.tm.pred n)).length
      some (if kind = 0 then (if on = 0 then 0 else 1)
        else if kind = 1 then (if on = c.lanes.length then 1 else 0)
        else BitVec.ofNat 64 on)
    liftBody (.vote d k kind p) d 0 part c s

/-- PFXC (R87). -/
def bodyPfxc (d a : Operand) (mode : BitVec 2) (p : PredSel) : Body := fun c s =>
  let n := match p with
    | .p n => n.val
    | .q _ => 47
  let on := c.lanes.filter (c.tm.pred n)
  .ok (c.wrL s d (c.lanes.map fun l =>
    let k := (on.filter fun m => decide (m < l ∨ (m = l ∧ mode = 1))).length
    (l, c.rdL a l + BitVec.ofNat 32 k)))

/-- The lane that SHFL reads for lane l (R88). -/
def Cx.shflFrom (c : Cx) (j : Operand) (l : Nat) : Nat :=
  let n := (c.rdL j l).toNat
  if n < c.tm.nlane then n else l

/-- SHFL (R88). -/
def bodyShfl (d a j : Operand) : Body := fun c s =>
  match a with
  | .v r =>
    let pairs := c.lanes.map fun l => (l, c.shflFrom j l)
    if pairs.any fun e => busyV c.tm r.toNat e.2 then .hold c.pre (.notReady 10)
    else match pairs.find? fun e => (mget c.tm.vtag (vKey r.toNat e.2)).isSome with
      | some e => .fault c.pre { cls := 0x16, cause := 1, lane := some e.1,
                                 addr := (mget c.tm.vtag (vKey r.toNat e.2)).getD 0 }
      | none => .ok (c.wrL s d (pairs.map fun e => (e.1, c.vreg r.toNat e.2)))
  | _ => .fault c.pre { cls := 0x02 }

/-- RDFIRST (R89). -/
def bodyRdfirst (d a : Operand) : Body := fun c s =>
  let part (c : Cx) : Option W64 := c.lanes.head?.map fun l => (c.rdL a l).setWidth 64
  match c.sc, c.lanes.head? with
  | .team, some l => c.oneLane a l (liftBody (.rdfirst d a) d 0 part c s)
  | _, _ => liftBody (.rdfirst d a) d 0 part c s

/-- RDLANE (R89, R415). The owner checks that a live team holds the lane. DEDUCED, log entry 11. -/
def bodyRdlane (d a j : Operand) : Body := fun c s =>
  let x := c.rdS j
  let n := x.toNat % 2 ^ 32
  let bad : MRes := .fault c.pre { cls := 0x02, addr := BitVec.ofNat 64 n }
  if dstScope d [] = .team then
    if c.tm.nlane ≤ n then bad
    else c.oneLane a n (liftBody (.rdlane d a j) d n (fun c => some ((c.rdL a n).setWidth 64)) c s)
  else
    let per := c.gr.lrec.team
    let live := (c.pre.team c.g c.b (n / per)).map fun t => !t.detached
    if c.sc = .team then
      let mine := decide (c.t = n / per)
      let part (c : Cx) : Option W64 := if mine then some ((c.rdL a (n % per)).setWidth 64) else none
      let go := liftBody (.rdlane d a j) d n part c s
      if mine then c.oneLane a (n % per) go else go
    else if per * c.gr.lrec.nteam ≤ n ∨ live ≠ some true then bad
    else liftBody (.rdlane d a j) d n (fun _ => none) c s

/-- REDUCE (R90). -/
def bodyReduce (d a : Operand) (op : BitVec 8) : Body :=
  liftBody (.reduce d a op) d 0 fun c =>
    fold1 (redStep op.toNat) (c.lanes.map fun l => redExt op.toNat (c.rdL a l))

/-- The four logical operations of PLOG (R91). -/
def plogOp (op : BitVec 2) (a b : Bool) : Bool :=
  if op = 0 then a && b else if op = 1 then a || b else if op = 2 then a != b else a && !b

/-- PLOG (R91). -/
def bodyPlog (op : BitVec 2) (pd : PredSel) (qs : BitVec 2) (pa pb : PredSel) : Body := fun c s =>
  let rd (p : PredSel) (l : Nat) : Bool := match p with
    | .p n => c.tm.pred n.val l
    | .q n => c.rdQ (qsScope qs) n.toNat
  match pd with
  | .p n => .ok (c.wrP s n.val (c.lanes.map fun l => (l, plogOp op (rd pa l) (rd pb l))))
  | .q n => .ok (c.wrQ s n.toNat (plogOp op (rd pa 0) (rd pb 0)))

/-- Mask word k; words outside 0 to 31 read 0 (R68, R92). -/
def maskWord (m : Mask) (k : Nat) : W32 := if k < 32 then m.extractLsb' (32 * k) 32 else 0

/-- ACTM (R92). -/
def bodyActm (d k : Operand) (sel : BitVec 8) : Body := fun c s =>
  let n := (c.rdS k).toNat % 2 ^ 32
  let x : W64 :=
    if sel = 0 then (maskWord c.act (2 * n + 1) ++ maskWord c.act (2 * n) : BitVec 64)
    else if sel = 1 then BitVec.ofNat 64 (maskSum c.act)
    else BitVec.ofNat 64 c.lanes.length
  c.scalarWrite s d x

/-! ### Meanings -/

def execVote (d k : Operand) (kind : BitVec 2) (p : PredSel) (s : State) :=
  issue1 (.vote d k kind p) (bodyVote d k kind p) s
def execPfxc (d a : Operand) (mode : BitVec 2) (p : PredSel) (s : State) :=
  issue1 (.pfxc d a mode p) (bodyPfxc d a mode p) s
def execShfl (d a b : Operand) (s : State) := issue1 (.shfl d a b) (bodyShfl d a b) s
def execRdfirst (d a : Operand) (s : State) := issue1 (.rdfirst d a) (bodyRdfirst d a) s
def execRdlane (d a b : Operand) (s : State) := issue1 (.rdlane d a b) (bodyRdlane d a b) s
def execReduce (d a : Operand) (op : BitVec 8) (s : State) := issue1 (.reduce d a op) (bodyReduce d a op) s
def execPlog (op : BitVec 2) (pd : PredSel) (qs : BitVec 2) (pa pb : PredSel) (s : State) :=
  issue1 (.plog op pd qs pa pb) (bodyPlog op pd qs pa pb) s
def execActm (d k : Operand) (sel : BitVec 8) (s : State) := issue1 (.actm d k sel) (bodyActm d k sel) s

end Sys2Proof.Machine
end

