-- ==== Sys2Proof/Machine/Copies.lean ====
section
/-! DEFINITION. Asynchronous copies (R205 to R219): shape records, the range-lock table, registration,
the progress of a copy, COPY, COPYT and RCFENCE. -/

namespace Sys2Proof.Machine

/-! ### Shape records (R215, R216) -/

/-- A field of a record given as a number. -/
def nfield (r lo len : Nat) : Nat := r / 2 ^ lo % 2 ^ len

/-- A 64-bit field as a signed number. -/
def sfield (r lo : Nat) : Int := (BitVec.ofNat 64 (nfield r lo 64)).toInt

/-- Dimension d of a record: extent, sbound, sstride, dstride. -/
def shapeDim (r d : Nat) : Nat × Nat × Int × Int :=
  let b := 256 + 256 * d
  (nfield r b 32, nfield r (b + 32) 32, sfield r (b + 64), sfield r (b + 128))

/-- The shape of a record of 192 bytes; none where it is not valid (R216). -/
def parseShape (r : Nat) : Option Shape :=
  let e := nfield r 0 3
  let rank := nfield r 8 3
  let size : Nat := 2 ^ e
  let dims := (List.range rank).map (shapeDim r)
  let ok := decide (e ≤ 3 ∧ 1 ≤ rank ∧ rank ≤ 5) && decide (nfield r 3 5 = 0 ∧ nfield r 11 5 = 0 ∧
    nfield r 17 47 = 0 ∧ nfield r 128 128 = 0) &&
    ((List.range 5).all fun d => if d < rank then decide (nfield r (256 + 256 * d + 192) 64 = 0)
      else decide (nfield r (256 + 256 * d) 256 = 0)) &&
    (dims.all fun d => decide (1 ≤ d.1) && decide (d.2.2.1 % (size : Int) = 0) && decide (d.2.2.2 % (size : Int) = 0)) &&
    decide ((dims.foldl (fun a d => a * d.1) 1) < 2 ^ 32)
  if ok then some ⟨size, decide (nfield r 16 1 = 1), BitVec.ofNat 64 (nfield r 64 64), dims⟩ else none

/-- The lowest and highest byte offset that a side touches; none where it touches nothing (R206, R218). -/
def bounding (size : Nat) (l : List (Nat × Int)) : Option (Int × Int) :=
  if l.any fun d => decide (d.1 = 0) then none
  else
    let lo := l.foldl (fun a d => a + min 0 (((d.1 : Int) - 1) * d.2)) 0
    let hi := l.foldl (fun a d => a + max 0 (((d.1 : Int) - 1) * d.2)) 0
    some (lo, hi + size - 1)

/-- Index counts of the source side: those below sbound when pad is 1. -/
def srcDims (s : Shape) : List (Nat × Int) :=
  s.dims.map fun d => (if s.pad then min d.1 d.2.1 else d.1, d.2.2.1)
def dstDims (s : Shape) : List (Nat × Int) := s.dims.map fun d => (d.1, d.2.2.2)

/-- An address at a signed offset. -/
def addOff (a : W64) (o : Int) : W64 := a + BitVec.ofInt 64 o

/-! ### The pieces of a copy -/

/-- One granule or element: destination, source (none: the pad value), bytes. -/
structure Piece where
  dst : W64
  src : Option W64
  n : Nat
deriving DecidableEq, Repr

/-- The index vector of an element, dimension 0 fastest. -/
def indexVec : List (Nat × Nat × Int × Int) → Nat → List (Nat × (Nat × Nat × Int × Int))
  | [], _ => []
  | d :: t, k => (k % d.1, d) :: indexVec t (k / d.1)

/-- Granules of COPY (64-byte granules of the destination), elements of COPYT. -/
def Copy.total (c : Copy) : Nat :=
  match c.shape with
  | none => (c.dst.toNat % 64 + c.len + 63) / 64
  | some s => s.dims.foldl (fun a d => a * d.1) 1

/-- Piece k of a copy (R213, R218). DEDUCED, log entry 47. -/
def Copy.piece (c : Copy) (k : Nat) : Piece :=
  match c.shape with
  | none =>
    let m := c.dst.toNat % 64
    let a := if k = 0 then 0 else 64 * k - m
    let b := min c.len (64 * (k + 1) - m)
    ⟨c.dst + BitVec.ofNat 64 a, some (c.src + BitVec.ofNat 64 a), b - a⟩
  | some s =>
    let v := indexVec s.dims k
    let off (f : Nat × Nat × Int × Int → Int) : Int := v.foldl (fun a e => a + (e.1 : Int) * f e.2) 0
    ⟨addOff c.dst (off fun d => d.2.2.2),
      if s.pad && (v.any fun e => decide (e.2.2.1 ≤ e.1)) then none else some (addOff c.src (off fun d => d.2.2.1)),
      s.esize⟩

/-- Scratchpad lines of [a, a + n). -/
def linesOf (a : W64) (n : Nat) : List Nat :=
  if windowOf a.toNat = some .scratch then
    let off := a.toNat % 2 ^ 52
    (List.range ((off + n - 1) / 128 - off / 128 + 1)).map (· + off / 128)
  else []

/-- Lines that the pieces from k on write, or read. -/
def Copy.dstFrom (c : Copy) (k : Nat) : NSet :=
  ((List.range (c.total - k)).flatMap fun i => linesOf (c.piece (k + i)).dst (c.piece (k + i)).n).foldl sadd1 []
def Copy.srcFrom (c : Copy) (k : Nat) : NSet :=
  ((List.range (c.total - k)).flatMap fun i => match (c.piece (k + i)).src with
    | some a => linesOf a (c.piece (k + i)).n
    | none => []).foldl sadd1 []

/-! ### Registration (R203, R205, R206, R208) -/

/-- The first byte of [a, a + n) that breaks the window rules, in closed form (R222). -/
def windowFirstBad (scratch csm a n : Nat) : Option Nat :=
  let upTo (lim : Nat) : Option Nat := if lim ≤ a then some a else if lim < a + n then some lim else none
  match windowOf a with
  | some .global => upTo (2 ^ 56)
  | some .scratch => upTo (0xFF0 * 2 ^ 52 + scratch)
  | some .csm => upTo (0xFF1 * 2 ^ 52 + csm)
  | _ => some a

/-- The lock entry of a range of the global window: rounded outward to granules (R206). -/
def lockOf (sk : Nat) (a : W64) (n : Nat) (dst : Bool) : List (Nat × Nat × Nat × Bool) :=
  if windowOf a.toNat = some .global then [(sk, a.toNat / 64 * 64, (a.toNat + n - 1) / 64 * 64 + 63, dst)] else []

/-- Whether two entries overlap in one address space and one of them is a destination. -/
def locksClash (x y : Nat × Nat × Nat × Bool) : Bool :=
  decide (x.1 = y.1 ∧ x.2.1 ≤ y.2.2.1 ∧ y.2.1 ≤ x.2.2.1) && (x.2.2.2 || y.2.2.2)

/-- Whether an earlier registered copy holds one back (R208). -/
def copyBlocked (s : State) (id : Nat) (c : Copy) : Bool :=
  s.copies.any fun e => decide (e.1 < id) && c.locks.any fun x => e.2.locks.any (locksClash x)

/-- Outstanding copies of the teams of a core. -/
def coreCopies (s : State) (core : Nat) : Nat :=
  (s.copies.filter fun e => decide (s.coreOf e.2.party = some core)).length

/-- Entries of the range-lock table; the four tables hold the same (R206). -/
def lockCount (s : State) : Nat := (s.copies.map fun e => e.2.locks.length).sum

/-- The lines of a block that copies other than `id` still have to write, or to read. -/
def otherLines (s : State) (id : Nat) (p : Party) (f : Copy → NSet) : List Nat :=
  (s.copies.filter fun e => decide (e.1 ≠ id ∧ e.2.party.gridNo = p.gridNo ∧ partyBlk e.2.party = partyBlk p)).flatMap
    fun e => f e.2

/-- A copy's lines shrink from the old sets to the new ones: lines no copy still writes become present, lines
no copy still reads are released (R203). Failed lines stay absent (R210). -/
def settleLines (s : State) (id : Nat) (old : Copy) (d r : NSet) : State :=
  match old.party with
  | .team g b _ =>
    let od := otherLines s id old.party (·.dlines)
    let or_ := otherLines s id old.party (·.slines)
    s.modBlock g b fun x => { x with
      absent := x.absent.filter fun l => !(decide (l ∈ old.dlines ∧ l ∉ d ∧ l ∉ od ∧ l ∉ x.failed))
      held := x.held.filter fun l => !(decide (l ∈ old.slines ∧ l ∉ r ∧ l ∉ or_)) }
  | _ => s

/-- Registers a copy at its issue: the flag counts it, presence bits clear, hold bits set, locks are taken,
the team's hash takes its entry (R203, R205, R206, R213, R338). -/
def Cx.register (c : Cx) (s : State) (x : Copy) (hashLast : W64) : State :=
  let (id, s) := s.fresh
  let x := { x with dlines := x.dstFrom 0, slines := x.srcFrom 0 }
  let s := { s with copies := mset s.copies id x }
  let s := c.onTeam s fun t => { t with
    flags := t.flags.modify x.flag fun f => { f with count := f.count + 1 }
    shash := if s.recordOn c.ctx then hashCopy t.shash x.dst x.src hashLast x.shape.isSome else t.shash }
  s.modBlock c.g c.b fun b => { b with absent := x.dlines.foldl sadd1 b.absent, held := x.slines.foldl sadd1 b.held }

/-- The flag and table conditions of a copy's issue (R205, R206), then its registration. A release waits
until the team's earlier loads have been performed; its stores are counted in `after` (R214). -/
def Cx.issueCopy (c : Cx) (s : State) (x : Copy) (rel : Bool) (hashLast : W64) : MRes :=
  let f := c.tm.flags[x.flag]?.getD ⟨0, []⟩
  if 15 ≤ f.count + f.faults.length ∧ !f.faults.isEmpty then
    match deliverFlag c.pre c.g c.b c.t x.flag with
    | some (f, side) => .fault side f
    | none => .hold c.pre (.notReady 13)
  else if 15 ≤ f.count ∨ 64 ≤ coreCopies c.pre c.core ∨ 256 < lockCount c.pre + x.locks.length then
    .hold c.pre (.notReady 13)
  else if rel && !c.tm.loads.isEmpty then .hold c.pre (.notReady 13)
  else .ok (c.register s x hashLast)

/-- A copy at its issue. -/
def Cx.newCopy (c : Cx) (dst src : W64) (len : Nat) (shape : Option Shape) (flag : Nat) (ms : MScope)
    (locks : List (Nat × Nat × Nat × Bool)) : Copy :=
  { party := c.p, dst := dst, src := src, len := len, shape := shape, flag := flag, ms := ms, next := 0
    started := false, engine := 0, after := c.tm.storeQ.length, locks := locks, dlines := [], slines := []
    bads := [], badAt := (0, 0), parkedOn := none, failedFill := none, pc := mkPc c.pkt c.slot, stop := none }

/-- Whether two byte ranges overlap; those of a copy's own source and destination are not rounded to granules (R208). DESIGN
CHOICE, log entry 117. -/
def rangesMeet (a n b m : Nat) : Bool := decide (a < b + m ∧ b < a + n)

/-- COPY (R213). Where both ranges break a window's rules the record names the destination. DEDUCED, log entry 46. -/
def bodyCopy (dst src : BitVec 5) (len : Operand) (flag : BitVec 4) (x : MemExt) : Body := fun c s =>
  let d := c.rdS (.s dst)
  let r := c.rdS (.s src)
  let n := (c.rdS len).toNat
  let bad (a : W64) : Option Nat := windowFirstBad (c.gr.lrec.scratch * 128) (c.gr.lrec.csm * 64) a.toNat n
  let sk := spaceKey c.gr.part c.gr.space
  if n = 0 then .ok s
  else if 2 ^ 32 ≤ n then .fault c.pre { cls := 0x02, addr := BitVec.ofNat 64 n }
  else if d.toNat % 4 ≠ 0 then .fault c.pre { cls := 0x15, addr := d }
  else if r.toNat % 4 ≠ 0 then .fault c.pre { cls := 0x15, addr := r }
  else if n % 4 ≠ 0 then .fault c.pre { cls := 0x15, addr := d + BitVec.ofNat 64 (n / 4 * 4) }
  else match bad d, bad r with
    | some a, _ => .fault c.pre { cls := 0x18, addr := BitVec.ofNat 64 a }
    | none, some a => .fault c.pre { cls := 0x18, addr := BitVec.ofNat 64 a }
    | none, none =>
      if rangesMeet d.toNat n r.toNat n then .fault c.pre { cls := 0x02 }
      else c.issueCopy s (c.newCopy d r n none flag.toNat x.ms (lockOf sk r n false ++ lockOf sk d n true))
        (decide (x.order = .release)) (BitVec.ofNat 64 n)

/-! ### COPYT (R217, R218) -/

/-- Takes a record from the core's cache, or puts one in: most recently used first, 32 entries (R217). -/
def cacheRecord (s : State) (core g : Nat) (va : W64) (bytes : List Byte) : State :=
  let here := s.rcache.filter fun e => decide (e.core = core)
  let rest := here.filter fun e => !decide (e.grid = g ∧ e.va = va)
  { s with rcache := (s.rcache.filter fun e => decide (e.core ≠ core)) ++ (⟨core, g, va, bytes⟩ :: rest).take 32 }

/-- The shape record at an address: from the cache, or read with the rules of a TEAM-scope load. -/
def Cx.record (c : Cx) (va : W64) (k : List Byte → State → MRes) (s : State) : MRes :=
  if va.toNat % 64 ≠ 0 then .fault c.pre { cls := 0x15, addr := va }
  else match c.pre.rcache.find? fun e => decide (e.core = c.core ∧ e.grid = c.g ∧ e.va = va) with
    | some e => k e.bytes s
    | none => c.one .load 64 va 192 fun segs tier bs =>
      let a := teamAcc va segs tier
      if c.loadWaits [a] then .hold c.pre (.notReady 13)
      else if c.laneBad a then .fault (bindAll c.pre bs) { cls := 0x16, addr := va }
      else c.gated 2 (granules [a] 192) fun _ =>
        k (fwdBytes c.pre.mem c.tm.storeQ segs) (turnAll (bindAll s bs) c.ctx 2 (granules [a] 192) c.req)

/-- COPYT (R218). -/
def bodyCopyt (dst src rec_ : BitVec 5) (flag : BitVec 4) (x : MemExt) : Body := fun c s =>
  let d := c.rdS (.s dst)
  let r := c.rdS (.s src)
  let va := c.rdS (.s rec_)
  c.record va (s := s) fun bytes s =>
    match parseShape (bytesNat bytes) with
    | none => .fault c.pre { cls := 0x02, addr := va }
    | some sh =>
      let range (base : W64) (l : List (Nat × Int)) : Option (W64 × Nat) :=
        (bounding sh.esize l).map fun b => (addOff base b.1, (b.2 - b.1 + 1).toNat)
      let bad (o : Option (W64 × Nat)) : Option Nat := o.bind fun e =>
        windowFirstBad (c.gr.lrec.scratch * 128) (c.gr.lrec.csm * 64) e.1.toNat e.2
      let dr := range d (dstDims sh)
      let sr := range r (srcDims sh)
      let sk := spaceKey c.gr.part c.gr.space
      let locks (o : Option (W64 × Nat)) (w : Bool) : List (Nat × Nat × Nat × Bool) := match o with
        | some e => lockOf sk e.1 e.2 w
        | none => []
      let meet : Bool := match dr, sr with
        | some a, some b => rangesMeet a.1.toNat a.2 b.1.toNat b.2
        | _, _ => false
      if d.toNat % sh.esize ≠ 0 then .fault c.pre { cls := 0x15, addr := d }
      else if r.toNat % sh.esize ≠ 0 then .fault c.pre { cls := 0x15, addr := r }
      else match bad dr, bad sr with
        | some a, _ => .fault c.pre { cls := 0x18, addr := BitVec.ofNat 64 a }
        | none, some a => .fault c.pre { cls := 0x18, addr := BitVec.ofNat 64 a }
        | none, none =>
          if meet then .fault c.pre { cls := 0x02 }
          else c.issueCopy (cacheRecord s c.core c.g va bytes)
            (c.newCopy d r 0 (some sh) flag.toNat x.ms (locks sr false ++ locks dr true))
            (decide (x.order = .release)) va

/-- RCFENCE (R219). -/
def bodyRcfence : Body := fun c s =>
  .ok { s with rcache := s.rcache.filter fun e => !decide (e.core = c.core ∧ e.grid = c.g) }

/-! ### How a copy runs (R209 to R211) -/

/-- Where a piece's bytes stand, through the die's translations (R209). -/
def copySegs (s : State) (o : Origin) (acc : Acc) (va : W64) (n : Nat) : AccRes :=
  match windowOf va.toNat with
  | some .scratch => .ok [(scrKey o.g o.blk (va.toNat % 2 ^ 52), n)] 9 []
  | some .csm => .ok [(csmKey o.g (va.toNat % 2 ^ 52), n)] 9 []
  | _ => xlRange s o acc va.toNat n

/-- What one step of a copy comes to. -/
inductive CopyRes where
  | wrote (s : State)
  | failed (cls : Nat) (va : W64) (s : State)
  | waits (s : State)
  /-- The log has no room, in STALL mode (R324). -/
  | stalled
  /-- A replay diverges at the copy (R337). -/
  | diverged
  | dead (pa : Nat)
deriving DecidableEq, Repr

/-- The records of a copy's write: type 1 on the device's memories, type 3 on host and peer (R209, R315). -/
def copyRecords (s : State) (g c engine core inst : Nat) (va : W64) (tier : Nat) (segs : List (Nat × Nat))
    (bytes : List Byte) : Option State :=
  if tier = 2 ∨ tier = 3 then irreversible s g c engine (tier - 2) va bytes
  else (segs.foldl (fun (o : Option (State × W64)) e => o.bind fun a =>
    (undoWrite a.1 g c engine inst a.2 e.1 e.2).map fun s =>
      (if s.undoOn c then s.count g core 0x17 (cutPieces a.2.toNat (e.2 + 1) e.2).length else s,
        a.2 + BitVec.ofNat 64 e.2)) (some (s, va))).map (·.1)

/-- The 64-byte granules of segments. -/
def segGranules (segs : List (Nat × Nat)) : List Nat := ((segKeys segs).map (· / 64)).dedup

/-- Writes a piece: its bytes, its records, its poison, its turns, the accesses of slices that it is (R209, R211, R332, R344). -/
def writePiece (s : State) (id : Nat) (c : Copy) (gr : Grid) (g b core : Nat) (p : Piece)
    (dsegs : List (Nat × Nat)) (dt : Nat) (ssegs : List (Nat × Nat)) (st : Nat) : CopyRes :=
  let keys := granules ((match p.src with
    | some a => [⟨0, a, ssegs, st⟩]
    | none => []) ++ [⟨0, p.dst, dsegs, dt⟩]) p.n
  let req := reqOf c.party
  match gateAll s gr.ctx 2 keys req with
  | .held => .waits s
  | .diverge => .diverged
  | .full => .stalled
  | .go =>
    let bytes := if p.src.isSome then readSegs s.mem ssegs
      else natBytes p.n ((c.shape.map fun x => x.padval.toNat).getD 0)
    let bad := segsPoisoned s ssegs
    let inst := if windowOf p.dst.toNat = some .scratch then b else 0
    match copyRecords s g gr.ctx c.engine core inst p.dst dt dsegs bytes with
    | none => .stalled
    | some s =>
      let s := turnAll s gr.ctx 2 keys req
      let used (s : State) (va : W64) (tier : Nat) (segs : List (Nat × Nat)) : State :=
        countUse s gr.ctx gr.part core va tier ((segs.head?.map (·.1)).getD 0)
      let s := used (match p.src with
        | some a => used s a st ssegs
        | none => s) p.dst dt dsegs
      let s := (putSegs s dsegs bytes).count g core 0x16 p.n
      let s := if bad then dsegs.foldl (fun s e => poisonRange s e.1 e.2) s else s
      let new : Copy := { c with
        next := c.next + 1, dlines := c.dstFrom (c.next + 1), slines := c.srcFrom (c.next + 1)
        bads := if bad then (segGranules dsegs).foldl sadd1 c.bads else c.bads
        badAt := if c.bads.isEmpty && bad then (p.src.getD 0, p.dst) else c.badAt }
      .wrote { settleLines s id c new.dlines new.slines with copies := mset s.copies id new }

/-- The next piece of a copy (R209, R210). A page that regenerates or migrates holds it up; one whose fill has failed under it
fails it (R231 to R233). -/
def copyNext (s : State) (id : Nat) (c : Copy) : CopyRes :=
  match c.party, s.grid c.party.gridNo with
  | .team g b _, some gr =>
    let core := (s.coreOf c.party).getD 0
    let o := { originOf gr g b core with engine := 96 + core / 24 }
    let p := c.piece c.next
    let stuck (va : W64) : AccRes → CopyRes
      | .fault cls _ a al => .failed cls a (noteAlias s al)
      | .regen base size =>
        let byte := max va.toNat base
        match startFill s gr base size byte with
          | .inl _ => .failed 0x10 (BitVec.ofNat 64 byte) s
          | .inr s => .waits { s with copies := mmod s.copies id fun x => { x with parkedOn := some base } }
      | .dead pa => .dead pa
      | _ => .waits s
    let lost (a : W64) : Option Nat := c.failedFill.bind fun f =>
      if f.1 < a.toNat + p.n ∧ a.toNat < f.1 + f.2 then some (max a.toNat f.1) else none
    match (p.src.bind lost).orElse fun _ => lost p.dst with
    | some b => .failed 0x10 (BitVec.ofNat 64 b) s
    | none =>
    match p.src.map fun a => (a, copySegs s o .load a p.n) with
    | some (a, r) => match r with
      | .ok ssegs st bs => match copySegs (bindAll s bs) o .store p.dst p.n with
        | .ok dsegs dt bs2 => writePiece (bindAll s (bs ++ bs2)) id c gr g b core p dsegs dt ssegs st
        | r => stuck p.dst r
      | r => stuck a r
    | none => match copySegs s o .store p.dst p.n with
      | .ok dsegs dt bs => writePiece (bindAll s bs) id c gr g b core p dsegs dt [] 9
      | r => stuck p.dst r
  | _, _ => .waits s

/-- Whether piece k + 1 of a copy goes into the aligned 4-byte word that piece k goes into: the word is written whole
(R209). -/
def Copy.sameWord (c : Copy) (k : Nat) : Bool :=
  decide (k + 1 < c.total ∧ (c.piece k).n < 4 ∧ (c.piece (k + 1)).dst.toNat / 4 = (c.piece k).dst.toNat / 4)

/-- One step of a copy: its next piece, with those that follow it into the same aligned 4-byte word, of which it has at most
four (R209). A piece that must wait holds up the word; one that fails leaves the pieces before it (R210). -/
def copyRun (id : Nat) : Nat → State → Copy → CopyRes
  | 0, s, c => copyNext s id c
  | f + 1, s, c => match copyNext s id c with
    | .wrote s' =>
      match if c.sameWord c.next then mget s'.copies id else none with
      | none => .wrote s'
      | some c' => match copyRun id f s' c' with
        | .wrote s'' => .wrote s''
        | .failed _ _ _ => .wrote s'
        | .waits w => .waits { s with
            fills := w.fills, launches := w.launches, nextId := w.nextId
            copies := mmod s.copies id fun x => { x with parkedOn := (mget w.copies id).bind (·.parkedOn) } }
        | x => x
    | x => x

/-- A copy's step in a state. -/
def copyStep (s : State) (id : Nat) (c : Copy) : CopyRes := copyRun id 3 s c

/-- Reports a poisoned source (R211, R345). -/
def reportBads (s : State) (c : Copy) : State :=
  if c.bads.isEmpty then s
  else s.health ((s.grid c.party.gridNo).map (·.ctx)) 2 c.engine c.bads.length c.badAt.1 c.badAt.2

/-- Lets a flag of a team count one copy less, with a fault to retain. -/
def dropFlag (s : State) (c : Copy) (f : Option (Byte × W64 × List Nat)) : State :=
  match c.party with
  | .team g b t => s.modTeam g b t fun x => { x with flags := x.flags.modify c.flag fun y =>
      { y with count := y.count - 1, faults := y.faults ++ f.toList } }
  | _ => s

/-- Ends a copy that has written everything (R214). -/
def finishCopy (s : State) (id : Nat) (c : Copy) : State :=
  dropFlag { settleLines (reportBads s c) id c [] [] with copies := mdel s.copies id } c none

/-- Ends a copy that has failed: undelivered lines stay absent and are marked failed, held lines are
released, the fault is retained on the flag (R210). -/
def failCopy (s : State) (id : Nat) (c : Copy) (cls : Nat) (va : W64) : State :=
  let s := reportBads s c
  let s := match c.party with
    | .team g b _ => s.modBlock g b fun x => { x with failed := c.dlines.foldl sadd1 x.failed }
    | _ => s
  dropFlag { settleLines s id c c.dlines [] with copies := mdel s.copies id } c (some (BitVec.ofNat 8 cls, va, c.dlines))

/-! ### Meanings -/

def execCopy (dst src : BitVec 5) (len : Operand) (flag : BitVec 4) (x : MemExt) (s : State) :=
  issue1 (.copy dst src len flag x) (bodyCopy dst src len flag x) s
def execCopyt (dst src rec : BitVec 5) (flag : BitVec 4) (x : MemExt) (s : State) :=
  issue1 (.copyt dst src rec flag x) (bodyCopyt dst src rec flag x) s
def execRcfence (s : State) := issue1 .rcfence bodyRcfence s

end Sys2Proof.Machine
end

