-- ==== Sys2Proof/Machine/Fetch.lean ====
section
/-! DEFINITION. Fetching a packet (R46 to R50, R54), words that are no instruction (R64, R66), and the end of
a level's walk (R97, R98). -/

namespace Sys2Proof.Machine

/-- The engine whose TLB and instruction cache serve a party: its core, or the die of its cluster, or die 0 for a grid
sequencer. DEDUCED, log entry 48. -/
def fetchEngine (s : State) : Party → Nat
  | .team g b t => (s.coreOf (.team g b t)).getD 0
  | .block g b => (s.coreOf (.block g b)).getD 0
  | .cluster g k => 96 + ((s.cluster g k).map fun x => x.cluster / 6).getD 0
  | .grid _ => 96

/-- The byte address of a packet of a grid (R46). -/
def packetAddr (gr : Grid) (pkt : Nat) : Nat := gr.lrec.base.toNat + 12 * pkt

/-- What a fetch comes to. -/
inductive FetchRes where
  | words (ws : List W32) (s : State)
  | fault (s : State) (f : FInfo)
  | hold (s : State) (w : Wait)
  | dead (pa : Nat)
deriving DecidableEq, Repr

/-- The three words of 12 bytes. -/
def packetWords (bs : List Byte) : List W32 :=
  (List.range 3).map fun i => BitVec.ofNat 32 (bytesNat ((bs.drop (4 * i)).take 4))

/-- Reads a packet from memory into the instruction cache (R46, R49). A line of the cache is one packet. DESIGN CHOICE, log
entry 96. -/
def readPacket (s : State) (e : Nat) (gr : Grid) (g pkt : Nat) : FetchRes :=
  let a := packetAddr gr pkt
  let va : W64 := BitVec.ofNat 64 a
  let o : Origin := { originOf gr g 0 e with engine := e }
  let bad (cls cause : Nat) (s : State) : FetchRes := .fault s { cls := cls, cause := cause, addr := va }
  if 2 ^ 56 < a + 12 then bad 0x18 0 s
  else match xlRange s o .fetch a 12 with
    | .ok segs _ bs =>
      let ws := packetWords (readSegs s.mem segs)
      let ent : ICacheEnt := ⟨e, gr.part, gr.space, a, ws⟩
      let s := bindAll s bs
      .words ws { s with icache := s.icache.filter (fun x =>
        !decide (x.core = e ∧ x.part = gr.part ∧ x.space = gr.space ∧ x.va = a)) ++ [ent] }
    | .fault cls cause _ al => bad cls cause (noteAlias s al)
    | .regen base size => match startFill s gr base size (max a base) with
      | .inl k => bad 0x10 k s
      | .inr s => .hold s (.parked [] [BitVec.ofNat 64 base] [])
    | .page base => .hold s (.parked [] [BitVec.ofNat 64 base] [])
    | .dead pa => .dead pa
    | .lines _ => .hold s (.notReady 8)

/-- The PCs at which a party stands: a level's PC, those of a team's lane groups. -/
def State.pcsOf (s : State) : Party → List W32
  | .team g b t => ((s.team g b t).map fun x => x.groups.map (·.1)).getD []
  | p => [s.pcOf p]

/-- A party keeps the packet that it executes, with those in which other groups of its lanes stand past the first slot, so that
each packet executes whole as it was fetched (R50). -/
def keepPacket (s : State) (p : Party) (pkt : Nat) (ws : List W32) : State :=
  let open_ := ((s.pcsOf p).filter fun pc => decide (pcSlot pc ≠ 0)).map pcPkt
  s.modSeq p fun q => { q with packets := mset (q.packets.filter fun e => decide (e.1 ∈ open_)) pkt ws }

/-- What a fetch comes to for a party: it keeps the packet. -/
def FetchRes.kept (r : FetchRes) (p : Party) (pkt : Nat) : FetchRes :=
  match r with
  | .words ws s => .words ws (keepPacket s p pkt ws)
  | r => r

/-- The packet that a party has begun to execute: it stands past its first slot, or its chain has begun (R50). -/
def begunPacket (s : State) (p : Party) : Option (List W32) :=
  (s.seqOf p).bind fun q =>
    if pcSlot (s.pcOf p) = 0 ∧ q.alone = none ∧ q.began = none then none else mget q.packets (pcPkt (s.pcOf p))

/-- The packet at a party's PC: as the party has begun to execute it, as its instruction cache holds it, else read now
(R50). -/
def fetchPacket (s : State) (p : Party) (gr : Grid) : FetchRes :=
  match begunPacket s p with
  | some ws => .words ws s
  | none => (readOrCached s p gr).kept p (pcPkt (s.pcOf p))
where
  readOrCached (s : State) (p : Party) (gr : Grid) : FetchRes :=
  let e := fetchEngine s p
  let pkt := pcPkt (s.pcOf p)
  match s.icache.find? fun x => decide (x.core = e ∧ x.part = gr.part ∧ x.space = gr.space ∧ x.va = packetAddr gr pkt) with
  | some x => .words x.words s
  | none =>
    -- a page whose fill failed while the fetch was parked on it (R232)
    if (failedByte ((s.seqOf p).bind (·.wait)) (packetAddr gr pkt) 12).isSome then
      .fault s { cls := 0x10, cause := 2, addr := BitVec.ofNat 64 (packetAddr gr pkt) }
    else readPacket s e gr p.gridNo pkt

/-- The members that stand before the first word of a chain that is no instruction. -/
def leadMembers : Nat → Nat → List W32 → List Member
  | 0, _, _ => []
  | _, _, [] => []
  | f + 1, s, w :: rest => match decodeHead s w rest with
    | .illegal _ _ => []
    | .mem m more => m :: if more then leadMembers f (s + m.len) (rest.drop (m.len - 1)) else []

/-- A word that is no instruction stands at a slot of the chain that a party is about to issue, behind the members `ms`:
breakpoints first, then 0x01 at the first member that step 2 refuses, which is the word unless an earlier member is not well
formed (R64, R66, R296). -/
def illegalAt (p : Party) (ms : List Member) (k : Nat) (s : State) : Host.Outcome State Fault Refusal :=
  match s.grid p.gridNo, s.seqOf p with
  | some gr, some q =>
    if !(canIssue s p) then .next s
    else if hitBrk gr p.scope (s.pcOf p) && decide (q.passBrk ≠ some (s.pcOf p)) then
      .next (takeFault s p { cls := 0x51, cause := 1, slot := pcSlot (s.pcOf p) })
    else match ms.find? fun m => !m.ins.wf with
      | some m => .next (takeFault s p (memberScope p.scope m.ins { cls := 0x01, slot := m.slot }))
      | none => .next (takeFault s p { cls := 0x01, slot := k })
  | _, _ => .refused .noParty

/-- ILLEGAL_INSTRUCTION (R64): issue of such a word at the PC of the party whose turn it is. -/
def execIllegalInstruction (s : State) : Host.Outcome State Fault Refusal :=
  match s.turn with
  | .party p => illegalAt p [] (pcSlot (s.pcOf p)) s
  | _ => .refused .noParty

/-- Whether a level stands at its kernel's end packet at call depth 0 (R97). -/
def atEnd (s : State) (p : Party) (gr : Grid) : Bool :=
  decide (p.scope ≠ .team) && decide (pcPkt (s.pcOf p) = gr.lrec.endpkt.toNat) &&
    ((s.seqOf p).map fun q => q.calls.isEmpty).getD false

/-- The end of a level's walk: its last segment is final and always emitted (R98). -/
def endWalk (p : Party) (s : State) : State :=
  match mkCx s p 0 false with
  | none => s
  | some c => match emitSegment s c finalClose true with
    | some s => s.modLvl p fun v => { v with walkDone := true }
    | none => holdParty s p (.notReady 8)

end Sys2Proof.Machine
end

