-- ==== Sys2Proof/Machine/FloatAlu.lean ====
section
/-! DEFINITION. Lane float members (R152 to R162). -/

namespace Sys2Proof.Machine

/-- The value of a lane's FP32 source. -/
def Cx.f32 (c : Cx) (o : Operand) (l : Nat) : FV := decodeF fp32 c.fenv.daz (c.rdL o l).toNat

/-- A half of a register: 0 low, 1 high (R144). -/
def half (x : W32) (h : Nat) : Nat := x.toNat / 2 ^ (16 * h) % 2 ^ 16

/-- A register with a half replaced. -/
def setHalf (x : W32) (h v : Nat) : Nat := if h = 0 then x.toNat / 2 ^ 16 * 2 ^ 16 + v else v * 2 ^ 16 + x.toNat % 2 ^ 16

/-- The value of a half of a lane's FP16 pair. -/
def Cx.f16 (c : Cx) (o : Operand) (l h : Nat) : FV := decodeF fp16 c.fenv.daz (half (c.rdL o l) h)

/-- Two FP16 results as a pair. -/
def pair16 (lo hi : FRes) : FRes := (hi.1 * 2 ^ 16 + lo.1, lo.2 ||| hi.2)

def bodyFadd (d a b : Operand) : Body := fun c s =>
  .ok (c.float s d fun l => addF fp32 c.fenv (c.f32 a l) (c.f32 b l))
def bodyFsub (d a b : Operand) : Body := fun c s =>
  .ok (c.float s d fun l => addF fp32 c.fenv (c.f32 a l) (c.f32 b l).neg)
def bodyFmul (d a b : Operand) : Body := fun c s =>
  .ok (c.float s d fun l => mulF fp32 c.fenv (c.f32 a l) (c.f32 b l))
def bodyFfma (d a b x : Operand) (np nc : Bool) : Body := fun c s =>
  .ok (c.float s d fun l => fmaF fp32 c.fenv np nc (c.f32 a l) (c.f32 b l) (c.f32 x l))

/-- FMIN and FMAX (R153). -/
def Cx.minmax (c : Cx) (s : State) (isMax : Bool) (d a b : Operand) : MRes :=
  .ok (c.float s d fun l => minmaxF fp32 isMax (c.f32 a l) (c.f32 b l)
    (dazBits fp32 c.fenv.daz (c.rdL a l).toNat) (dazBits fp32 c.fenv.daz (c.rdL b l).toNat))
def bodyFmin (d a b : Operand) : Body := fun c s => c.minmax s false d a b
def bodyFmax (d a b : Operand) : Body := fun c s => c.minmax s true d a b

def bodyFscl (d a b : Operand) : Body := fun c s =>
  .ok (c.float s d fun l => fsclF c.fenv (c.f32 a l) (c.rdL b l).toInt)

/-- FCMP (R149, R155). -/
def bodyFcmp (pd : PredSel) (cc : BitVec 2) (a b : Operand) : Body := fun c s =>
  match pd with
  | .p n =>
    let rs := c.lanes.map fun l => (l, fcmpF cc (c.f32 a l) (c.f32 b l))
    .ok (c.setFlags (c.wrP s n.val (rs.map fun e => (e.1, e.2.1))) (orFlags (rs.map fun e => e.2.2)))
  | .q n =>
    let r := fcmpF cc (c.f32 a 0) (c.f32 b 0)
    let s := c.wrQ s n.toNat r.1
    .ok (if c.sc = .team then c.setFlags s r.2 else s)

def bodyFrcp (d a : Operand) : Body := fun c s => .ok (c.float s d fun l => frcpF c.fenv (c.f32 a l))
def bodyFrsq (d a : Operand) : Body := fun c s => .ok (c.float s d fun l => frsqF c.fenv (c.f32 a l))
def bodyFsqrt (d a : Operand) : Body := fun c s => .ok (c.float s d fun l => fsqrtF c.fenv (c.f32 a l))
def bodyFex2 (d a : Operand) : Body := fun c s => .ok (c.float s d fun l => fex2F c.fenv (c.f32 a l))
def bodyFlg2 (d a : Operand) : Body := fun c s => .ok (c.float s d fun l => flg2F c.fenv (c.f32 a l))

def bodyHadd2 (d a b : Operand) : Body := fun c s =>
  let f (l h : Nat) : FRes := addF fp16 c.fenv (c.f16 a l h) (c.f16 b l h)
  .ok (c.float s d fun l => pair16 (f l 0) (f l 1))
def bodyHmul2 (d a b : Operand) : Body := fun c s =>
  let f (l h : Nat) : FRes := mulF fp16 c.fenv (c.f16 a l h) (c.f16 b l h)
  .ok (c.float s d fun l => pair16 (f l 0) (f l 1))
def bodyHfma2 (d a b x : Operand) (np nc : Bool) : Body := fun c s =>
  let f (l h : Nat) : FRes := fmaF fp16 c.fenv np nc (c.f16 a l h) (c.f16 b l h) (c.f16 x l h)
  .ok (c.float s d fun l => pair16 (f l 0) (f l 1))

/-- The 16-bit format and the half of a half code 1 to 4 (R158, R160). -/
def halfCode (n : Nat) : FFmt × Nat := (if n ≤ 2 then fp16 else bf16, (n + 1) % 2)

/-- The exact value of a CVT source (R158). -/
def cvtSrc (daz : Bool) (code : Nat) (x : W32) : FV :=
  if code = 0 then decodeF fp32 daz x.toNat
  else if code ≤ 4 then decodeF (halfCode code).1 daz (half x (halfCode code).2)
  else if code = 5 then .fin x.msb x.toInt.natAbs 0
  else .fin false x.toNat 0

/-- CVT of one lane, `old` being the destination before the chain (R158). -/
def cvtVal (v : FEnv) (src dst : Nat) (x old : W32) : FRes :=
  let a := cvtSrc v.daz src x
  if dst = 0 then roundFV fp32 v a
  else if dst ≤ 4 then
    let r := roundFV (halfCode dst).1 v a
    (setHalf old (halfCode dst).2 r.1, r.2)
  else
    let r := if dst = 5 then cvtInt v a (-(2 ^ 31)) (2 ^ 31 - 1) else cvtInt v a 0 (2 ^ 32 - 1)
    ((BitVec.ofInt 32 r.1).toNat, r.2)

def bodyCvt (d a : Operand) (src dst : BitVec 4) : Body := fun c s =>
  .ok (c.float s d fun l => cvtVal c.fenv src.toNat dst.toNat (c.rdL a l) (c.rdL d l))

/-- FRND (R159). -/
def bodyFrnd (d a : Operand) (m : BitVec 8) : Body := fun c s =>
  let rm : BitVec 2 := if m = 4 then c.fenv.rm else m.setWidth 2
  .ok (c.float s d fun l => frndF rm (c.f32 a l) (dazBits fp32 c.fenv.daz (c.rdL a l).toNat))

/-- FCLS (R160). -/
def bodyFcls (d a : Operand) (t : BitVec 8) : Body := fun c s =>
  .ok (c.wrL s d (c.lanes.map fun l =>
    let x := c.rdL a l
    let n := if t = 0 then fclsF fp32 x.toNat
      else fclsF (halfCode t.toNat).1 (half x (halfCode t.toNat).2)
    (l, BitVec.ofNat 32 n)))

/-! ### CVTQ -/

/-- Elements of its groups (R150). -/
def fmtGroup (x : BitVec 128) : Nat := 16 * 2 ^ (x.extractLsb' 8 4).toNat
/-- The zero point of a group register under a slot of code width w (R146). -/
def zeroPoint (x : BitVec 128) (w : Nat) (grp : W32) : Nat :=
  if x.extractLsb' 16 4 = 0 then grp.toNat / 2 ^ 16 % 2 ^ w else 2 ^ (w - 1)

/-- Code e of width w (R145). -/
def codeAt (x : W32) (w e : Nat) : Nat := x.toNat / 2 ^ (w * e) % 2 ^ w
/-- A register with code e replaced. -/
def setCode (x : W32) (w e v : Nat) : Nat :=
  x.toNat - codeAt x w e * 2 ^ (w * e) + v * 2 ^ (w * e)

/-- The exact value of a signed integer. -/
def intFV (n : Int) : FV := .fin (decide (n < 0)) n.natAbs 0

/-- The code of an FP32 value (R161): code and flags. -/
def quantize (v : FEnv) (w z : Nat) (x sc : FV) : Nat × W32 :=
  match x, sc with
  | .nan _, _ => (z, flNv)
  | _, .nan _ => (z, flNv)
  | .inf _, .inf _ => (z, flNv)
  | .inf n, s => if s.isZero then (z, flNv) else (if n != s.sign then 0 else 2 ^ w - 1, flNx)
  | .fin _ _ _, .inf _ => (z, 0)
  | .fin n m e, .fin k p f =>
    if p = 0 then (z, flNv)
    else
      let (q, exact) := roundAt v.rm (n != k) m p (e - f) 0
      let t : Int := (if n != k then -(q : Int) else q) + z
      let cl := max 0 (min t (2 ^ w - 1))
      (cl.toNat, if exact && decide (cl = t) then 0 else flNx)

/-- CVTQ of one lane (R161). DEDUCED, log entry 33. -/
def cvtqVal (v : FEnv) (fmt : BitVec 128) (mode : BitVec 2) (e : Nat) (a grp old : W32) : FRes :=
  let w := if fmtType fmt = 5 then 8 else 4
  let z := zeroPoint fmt w grp
  let sc := decodeF fp16 v.daz (half grp 0)
  let term (k : Nat) : FV := intFV ((codeAt a w k : Int) - z)
  if mode = 0 then mulF fp32 { v with ftz := false } sc (term e)
  else if mode = 1 then pair16 (mulF fp16 v sc (term e)) (mulF fp16 v sc (term (e + 1)))
  else
    let r := quantize v w z (decodeF fp32 v.daz a.toNat) sc
    (setCode old w e r.1, r.2)

/-- CVTQ (R161, R162). -/
def bodyCvtq (d a b : Operand) (fmt : BitVec 3) (mode : BitVec 2) (elem : BitVec 3) : Body := fun c s =>
  let slot := fmtSlot c.gr fmt.toNat
  let e := elem.toNat
  .ok (c.float s d fun l => cvtqVal c.fenv slot mode e (c.rdL a l) (c.rdL b l) (c.rdL d l))

/-! ### Meanings -/

def execFadd (d a b : Operand) (s : State) := issue1 (.fadd d a b) (bodyFadd d a b) s
def execFsub (d a b : Operand) (s : State) := issue1 (.fsub d a b) (bodyFsub d a b) s
def execFmul (d a b : Operand) (s : State) := issue1 (.fmul d a b) (bodyFmul d a b) s
def execFfma (d a b c : Operand) (np nc : Bool) (s : State) :=
  issue1 (.ffma d a b c np nc) (bodyFfma d a b c np nc) s
def execFmin (d a b : Operand) (s : State) := issue1 (.fmin d a b) (bodyFmin d a b) s
def execFmax (d a b : Operand) (s : State) := issue1 (.fmax d a b) (bodyFmax d a b) s
def execFcmp (pd : PredSel) (cc : BitVec 2) (a b : Operand) (s : State) :=
  issue1 (.fcmp pd cc a b) (bodyFcmp pd cc a b) s
def execFrcp (d a : Operand) (s : State) := issue1 (.frcp d a) (bodyFrcp d a) s
def execFrsq (d a : Operand) (s : State) := issue1 (.frsq d a) (bodyFrsq d a) s
def execFsqrt (d a : Operand) (s : State) := issue1 (.fsqrt d a) (bodyFsqrt d a) s
def execFex2 (d a : Operand) (s : State) := issue1 (.fex2 d a) (bodyFex2 d a) s
def execFlg2 (d a : Operand) (s : State) := issue1 (.flg2 d a) (bodyFlg2 d a) s
def execHadd2 (d a b : Operand) (s : State) := issue1 (.hadd2 d a b) (bodyHadd2 d a b) s
def execHmul2 (d a b : Operand) (s : State) := issue1 (.hmul2 d a b) (bodyHmul2 d a b) s
def execHfma2 (d a b c : Operand) (np nc : Bool) (s : State) :=
  issue1 (.hfma2 d a b c np nc) (bodyHfma2 d a b c np nc) s
def execCvt (d a : Operand) (src dst : BitVec 4) (s : State) :=
  issue1 (.cvt d a src dst) (bodyCvt d a src dst) s
def execCvtq (d a b : Operand) (fmt : BitVec 3) (mode : BitVec 2) (elem : BitVec 3) (s : State) :=
  issue1 (.cvtq d a b fmt mode elem) (bodyCvtq d a b fmt mode elem) s
def execFrnd (d a : Operand) (m : BitVec 8) (s : State) := issue1 (.frnd d a m) (bodyFrnd d a m) s
def execFscl (d a b : Operand) (s : State) := issue1 (.fscl d a b) (bodyFscl d a b) s
def execFcls (d a : Operand) (t : BitVec 8) (s : State) := issue1 (.fcls d a t) (bodyFcls d a t) s

end Sys2Proof.Machine
end

