-- ==== Sys2Proof/Machine/Spawn.lean ====
section
/-! DEFINITION. Spawn bins and detached teams (R77 to R83, R124, R164), SPAWN, and active messages (R280 to
R282): AMSG. Bins stand in `bins` under core · 16 + number. -/

namespace Sys2Proof.Machine

/-! ### What a core has free (R9, R10, R73, R124, R164) -/

/-- The live teams on a core. -/
def coreTeams (s : State) (core : Nat) : List (Nat × Team) := s.teams.filter fun e => decide (e.2.core = core)
/-- The blocks on a core, by key. -/
def coreBlocks (s : State) (core : Nat) : List (Nat × Blk) := s.blocks.filter fun e => decide (e.2.core = core)
/-- The launch record of a grid. -/
def recOf (s : State) (g : Nat) : Option LaunchRec := (s.grid g).map (·.lrec)

/-- Register granules in use, as first granule and count: a set for each launched team of a block, from placement to
completion, and one for each detached team (R124). -/
def usedGranules (s : State) (core : Nat) : List (Nat × Nat) :=
  ((coreBlocks s core).flatMap fun e => match recOf s (bkGrid e.1) with
    | some l => e.2.grans.map fun n => (n, granulesOf l.regs l.team)
    | none => []) ++
  ((coreTeams s core).filter (·.2.detached)).map fun e => match recOf s (tkGrid e.1) with
    | some l => (e.2.gran, granulesOf l.regs e.2.nlane)
    | none => (0, 0)

/-- Scratchpad lines in use, as first line and count: the allocations of blocks and the spill areas of detached teams
(R164, R202). -/
def usedLines (s : State) (core : Nat) : List (Nat × Nat) :=
  ((coreBlocks s core).map fun e => match recOf s (bkGrid e.1) with
    | some l => (e.2.line, blockLines l)
    | none => (0, 0)) ++ ((coreTeams s core).filter (·.2.detached)).map fun e => (e.2.line, e.2.nlane / 2)

/-- The lowest place of a run of n units among those in use, below a capacity (R124, R202). DESIGN CHOICE, log entry 41. -/
def fitRun (used : List (Nat × Nat)) (cap n : Nat) : Option Nat :=
  ((0 :: used.map fun e => e.1 + e.2).filter fun a =>
    decide (a + n ≤ cap) && used.all fun e => decide (a + n ≤ e.1 ∨ e.1 + e.2 ≤ a ∨ n = 0 ∨ e.2 = 0)).min?

/-- Places for runs of several sizes, one after the other. -/
def fitRuns (cap : Nat) : List Nat → List (Nat × Nat) → Option (List Nat)
  | [], _ => some []
  | n :: t, used => (fitRun used cap n).bind fun a => (fitRuns cap t ((a, n) :: used)).map (a :: ·)

/-- The slot of the next team of a core, given the slots taken: the group with the fewest teams, lowest
first, and its lowest free slot (R73). -/
def bestSlot (taken : List Nat) : Option Nat :=
  let load (n : Nat) : Nat := (taken.filter fun k => decide (k / 8 = n)).length
  let grp := (List.range 4).foldl (fun b n => if load n < load b then n else b) 0
  (List.range 8).findSome? fun i => if 8 * grp + i ∈ taken then none else some (8 * grp + i)

/-- Slots taken on a core. -/
def takenSlots (s : State) (core : Nat) : List Nat := (coreTeams s core).map (·.2.slot)

/-! ### Teams -/

/-- A team at its kernel's entry (R74). -/
def Team.start (core slot nlane : Nat) (entry : W32) : Team :=
  { seq := Seq.start entry, groups := [(entry, fullMask nlane)], mergeAt := .none, awaiting := some entry
    core := core, slot := slot, detached := false, nlane := nlane, v := [], s := [], p := [], vtag := []
    stag := [], fpc := 0, hsp := 0, flags := List.replicate 12 ⟨0, []⟩, storeQ := [], loads := []
    ardBusy := [], resume := .none, exiting := false, shash := 0, gran := 0, line := 0
    since := .none, aged := 0 }

/-- A detached team of `size` lanes with the payloads it has taken (R80). -/
def Team.detach (core slot size : Nat) (entry : W32) (lanes : List (List W32)) (tok : Option Token) : Team :=
  let t := Team.start core slot size entry
  let t := (lanes.zipIdx).foldl (fun t l => (l.1.zipIdx).foldl (fun t w => t.setV w.2 l.2 w.1) t) t
  { t with
    groups := [(entry, fullMask lanes.length)], awaiting := .none, detached := true
    -- it runs under that token until it exits: no chain completes it (R102)
    seq := { t.seq with tok := some { tok.getD Token.zero with close := finalClose } } }

/-! ### Bins -/

/-- The point of arbitration of a bin (R333). -/
def binPoint (entry : W32) (b : Nat) : W64 := BitVec.ofNat 64 (entry.toNat * 2 ^ 32 + b)

/-- The bins of a core in order. -/
def coreBins (s : State) (core : Nat) : List (Nat × Bin) := s.bins.filter fun e => decide (e.1 / 16 = core)

/-- The lanes that a bin takes when it forms: its team size, or in a forced or expired bin that holds fewer all it holds
(R78); in a replay the run of its next formation chunk (R335). None where it does not form. DEDUCED, log entry 94. -/
def takeCount (s : State) (ctx : Nat) (x : Bin) (due : Bool) : Option Nat :=
  match (mget s.ctxs ctx).bind fun c => c.replay.map fun rp => (c, rp) with
  | some (c, rp) =>
    if rp.script.isEmpty then live else match rp.script.find? (·.at 7 (binPoint x.entry x.blk)) with
      | some ch => if ch.run ≤ x.lanes.length ∧ ch.due c then some ch.run else none
      | none => none
  | none => live
where
  live : Option Nat :=
    if x.size ≤ x.lanes.length then some x.size
    else if due ∧ !x.lanes.isEmpty then some x.lanes.length else none

/-- The lowest free team index of a block (R80). -/
def freeTeam (s : State) (g b : Nat) : Option Nat := (List.range 16).find? fun t => (s.team g b t).isNone

/-- Forms a team of a bin (R78, R80): none while the core lacks a slot, a run of granules or of spill lines, or the block an
index, or the record has no room for its turn. The bin's timer restarts; a bin left without lanes becomes free. DEDUCED,
log entry 44. -/
def formTeam (s : State) (key : Nat) (due : Bool) : Option State :=
  (mget s.bins key).bind fun x =>
  (s.grid x.grid).bind fun gr =>
  (takeCount s gr.ctx x due).bind fun n =>
  let core := key / 16
  let size := (n + 31) / 32 * 32
  (bestSlot (takenSlots s core)).bind fun slot =>
  (freeTeam s x.grid x.blk).bind fun t =>
  (fitRun (usedGranules s core) 2048 (granulesOf gr.lrec.regs size)).bind fun gran =>
  (fitRun (usedLines s core) 8192 (size / 2)).bind fun line =>
  if !(s.scripted gr.ctx) && turnsFull s gr.ctx 7 [binPoint x.entry x.blk] (reqOf (.team x.grid x.blk t)) then none
  else
    let rest := x.lanes.drop n
    let new := Team.detach core slot size (mkPc x.entry.toNat 0) (x.lanes.take n) x.tok
    let s := { s with
      teams := mset s.teams (tKey x.grid x.blk t) { new with gran := gran, line := line }
      mem := scrubRange s.mem (spillKey x.grid x.blk t 0) (2 ^ 56)
      bins := if rest.isEmpty then mdel s.bins key
        else mset s.bins key { x with lanes := rest, deadline := s.clk + x.timeout, forced := false } }
    some (arbTurn s gr.ctx 7 (binPoint x.entry x.blk) (reqOf (.team x.grid x.blk t)) n)

/-- A grid whose parties act: it runs and is not frozen (R297, R300). -/
def State.live (s : State) (g : Nat) : Bool :=
  match s.grid g with
  | some x => decide (x.status = .running) && !x.frozen
  | none => false

/-- Whether what a party does goes on: its grid runs and is not frozen, but for a party that a single step lets issue (R297,
R298). -/
def State.liveFor (s : State) (p : Party) : Bool :=
  match s.grid p.gridNo with
  | some x => decide (x.status = .running) && (!x.frozen || ((s.seqOf p).map (·.stepping)).getD false)
  | none => false

/-- A bin that its grid lets form. -/
def liveBin (s : State) (key : Nat) : Option Bin :=
  (mget s.bins key).bind fun x => if s.live x.grid then some x else none

/-- A bin whose timer has run out, or that was forced, as though it had (R79). -/
def binExpired (s : State) (x : Bin) : Bool := (decide (x.deadline ≤ s.clk) || x.forced) && !x.lanes.isEmpty

/-- The team that a bin due to form would form now. -/
def formDue (s : State) (key : Nat) : Option State :=
  (liveBin s key).bind fun x => formTeam s key (binExpired s x)

/-- Whether a bin of a lower number on its core is due and can form: it forms first (R78). -/
def lowerDue (s : State) (key : Nat) : Bool :=
  (List.range (key % 16)).any fun n => (formDue s (key / 16 * 16 + n)).isSome

/-- Whether a bin of a core is due and can form: it does before the core takes anything else (R78). -/
def binsDue (s : State) (core : Nat) : Bool := (List.range 16).any fun n => (formDue s (core * 16 + n)).isSome

/-- Every bin of a core that is due forms where it can, in number order (R78). -/
def formAll (s : State) (core : Nat) : State := (List.range 16).foldl (fun s n => (formDue s (core * 16 + n)).getD s) s

/-- Forms a bin in its turn (R78). -/
def formInTurn (s : State) (key : Nat) (due : Bool) : Option State :=
  if lowerDue s key then none else formTeam s key due

/-- Forms a bin whose lanes have reached its team size, where it can. -/
def formFull (s : State) (key : Nat) : State :=
  match mget s.bins key with
  | some x => if x.size ≤ x.lanes.length then (formInTurn s key false).getD s else s
  | none => s

/-- One lane bound for a bin. -/
structure Deposit where
  g : Nat
  b : Nat
  entry : W32
  size : Nat
  timeout : Nat
  words : List W32
  tok : Option Token
deriving DecidableEq, Repr

/-- The bin of a core that a deposit goes to. -/
def binFor (s : State) (core : Nat) (d : Deposit) : Option Nat :=
  ((coreBins s core).find? fun e => decide (e.2.grid = d.g ∧ e.2.blk = d.b ∧ e.2.entry = d.entry)).map (·.1)

/-- The lowest free bin of a core. DESIGN CHOICE, log entry 93. -/
def freeBin (s : State) (core : Nat) : Option Nat :=
  ((List.range 16).find? fun n => (mget s.bins (core * 16 + n)).isNone).map fun n => core * 16 + n

/-- Opens a bin for a deposit (R77). -/
def openBin (s : State) (key : Nat) (d : Deposit) : State :=
  let (n, s) := s.fresh
  let x : Bin :=
    { grid := d.g, blk := d.b, entry := d.entry, size := d.size, timeout := d.timeout
      deadline := s.clk + d.timeout, lanes := [], tok := d.tok, order := n, forced := false }
  { s with bins := mset s.bins key x }

/-- The bin of a core that was opened earliest. -/
def oldestBin (s : State) (core : Nat) : Option Nat :=
  ((coreBins s core).foldl (fun (m : Option (Nat × Bin)) e => match m with
    | some x => if e.2.order < x.2.order then some e else m
    | none => some e) none).map (·.1)

/-- Opens a free bin for a deposit; none where there is none. -/
def openFree (s : State) (core : Nat) (d : Deposit) : Option (Nat × State) :=
  (freeBin s core).map fun k => (k, openBin s k d)

/-- Where a deposit goes: its bin, a free one opened for it, or one freed by forming the bins that are due and then the
earliest opened bin; none where that bin cannot form (R77, R79). -/
def placeDeposit (s : State) (core : Nat) (d : Deposit) : Option (Nat × State) :=
  match binFor s core d with
  | some k => some (k, s)
  | none => (openFree s core d).orElse fun _ =>
    let s := formAll s core
    (openFree s core d).orElse fun _ => ((oldestBin s core).bind fun o => formTeam s o true).bind fun s => openFree s core d

/-- A core's bin opened earliest, which a deposit forces in vain, is due from then on (R79). -/
def forceOldest (s : State) (core : Nat) : State :=
  match oldestBin s core with
  | some k => { s with bins := mmod s.bins k fun x => { x with forced := true } }
  | none => s

/-- Deposits one lane (R77 to R79); none where no bin is to be had. -/
def deposit (s : State) (core : Nat) (d : Deposit) : Option State :=
  (placeDeposit s core d).map fun x =>
    formFull { x.2 with bins := mmod x.2.bins x.1 fun y => { y with lanes := y.lanes ++ [d.words] } } x.1

/-! ### SPAWN (R83) -/

/-- The entry that a lane names. DEDUCED, log entry 42; the special lane and vz as this operand: log entry 95. -/
def Cx.entryOf (c : Cx) (e : Operand) (l : Nat) : Nat :=
  match e with
  | .v n => (c.vreg n.toNat l).toNat
  | .lane => l
  | o => (c.rdS o).toNat

/-- Payload word i of a lane. -/
def Cx.payload (c : Cx) (p : Operand) (n l : Nat) : List W32 :=
  match p with
  | .v k => (List.range n).map fun i => c.vreg (k.toNat + i) l
  | _ => []

/-- 64·t clk, 1,700 clk for 0 (R83, R281). -/
def binTimeout (t : Nat) : Nat := if t = 0 then 1700 else 64 * t

/-- Deposits lanes one by one until one finds no bin: the lanes left, and the state, a bin forced. -/
def depositAll (core : Nat) : List (Nat × Deposit) → State → List Nat × State
  | [], s => ([], s)
  | (l, d) :: t, s => match deposit s core d with
    | some s => depositAll core t s
    | none => (l :: t.map (·.1), forceOldest s core)

/-- Whether a bin that a deposit has filled finds the chunks of its formations spent: the replay diverges at the deposit
(R337). -/
def formDiverges (s : State) (ctx core g b entry : Nat) : Bool :=
  (coreBins s core).any fun e => decide (e.2.grid = g ∧ e.2.blk = b ∧ e.2.entry = BitVec.ofNat 32 entry ∧
      e.2.size ≤ e.2.lanes.length) &&
    decide (arbGate s ctx 7 (binPoint e.2.entry b) (reqOf (.block g b)) = .diverge)

/-- SPAWN: a release at block scope (R81), so that the team's earlier stores are performed first; then one deposit a lane.
Lanes without a bin wait and are retried (R79). DEDUCED, log entry 43. -/
def bodySpawn (entry pay : Operand) (n1 : BitVec 2) (size1 : BitVec 5) (timeout : BitVec 11) : Body := fun c s =>
  let ds := c.lanes.map fun l => (l, c.entryOf entry l)
  match ds.find? fun e => decide (2 ^ 30 ≤ e.2) with
  | some e => .fault c.pre { cls := 0x02, lane := some e.1 }
  | none =>
    if !c.drained then .hold c.pre (.notReady 13)
    else
      let todo := c.todo.map fun l => (l, ({ g := c.g, b := c.b, entry := BitVec.ofNat 32 (c.entryOf entry l)
                                             size := 32 * (size1.toNat + 1), timeout := binTimeout timeout.toNat
                                             words := c.payload pay (n1.toNat + 1) l, tok := c.seq.tok } : Deposit))
      let point (e : Nat × Deposit) : W64 := binPoint e.2.entry c.b
      let past := (c.lanes.filter fun l => decide (l ∉ c.todo)).map fun l =>
        binPoint (BitVec.ofNat 32 (c.entryOf entry l)) c.b
      let keys := ((todo.map point).filter fun k => decide (k ∉ past)).dedup
      c.gated 4 keys fun _ =>
        let (left, s') := depositAll c.core todo s
        if todo.any fun e => formDiverges s' c.ctx c.core c.g c.b e.2.entry.toNat then .fault c.pre { cls := 0x53 }
        else if left.isEmpty then .ok (turnAll s' c.ctx 4 keys c.req)
        else
          let (left, side) := depositAll c.core todo c.pre
          let started := ((todo.filter fun e => decide (e.1 ∉ left)).map point).dedup.filter fun k => decide (k ∈ keys)
          .hold (c.onTeam (turnAll side c.ctx 4 started c.req) fun t => { t with resume := some (c.slot, maskOf left) }) .bin

/-! ### AMSG (R281, R282) -/

/-- The blocks of a grid that are placed, saved ones included. -/
def placedBlock (s : State) (g b : Nat) : Bool :=
  (s.block g b).isSome || s.images.any fun e => decide (e.2.gid = g) && (mget e.2.blocks (bKey g b)).isSome

/-- The outbound endpoint of a partition for a device (R399). -/
def outboundTo (s : State) (part dev : Nat) : Option Endpoint :=
  ((mget s.parts part).bind fun p => (p.ends.map (·.2)).find? fun e => !e.inbound && decide (e.dev = dev))

/-- A lane's checks, in the order of the table of R282: none where it may send. DESIGN CHOICE, log entry 45. -/
def Cx.msgBad (c : Cx) (tgt : W64) (entry : Nat) (ms : MScope) : Option FInfo :=
  let remote := tgt.getLsbD 63
  let b := (tgt.extractLsb' 0 32).toNat
  let inScope : Bool := match ms with
    | .block => !remote && decide (b = c.b)
    | .cluster => !remote && (match c.pre.block c.g b with
      | some x => decide (x.core / 4 = c.core / 4)
      | none => false)
    | .device => !remote
    | .domain => true
    | _ => false
  if !inScope || (!remote && (decide (c.gr.lrec.grid ≤ b) || !(placedBlock c.pre c.g b))) then
    some { cls := 0x02, addr := tgt }
  else if 2 ^ 30 ≤ entry then some { cls := 0x02 }
  else if remote && (outboundTo c.pre c.gr.part (tgt.extractLsb' 48 10).toNat).isNone then
    some { cls := 0x11 }
  else none

/-- One lane's message: to this device it is on its way from now on; to another it leaves, with its
irreversible record (R280, R323). None where the log has no room. -/
def Cx.sendMsg (c : Cx) (lane : Nat) (tgt : W64) (entry size timeout : Nat) (words : List W32) (s : State) : Option State :=
  let s := s.bump c.core
  let dev := (tgt.extractLsb' 48 10).toNat
  let b := (tgt.extractLsb' 0 32).toNat
  if tgt.getLsbD 63 then
    (irreversible s c.g c.ctx c.core 4 tgt (words.flatMap fun w => natBytes 4 w.toNat)).map fun s =>
      let part := ((outboundTo s c.gr.part dev).map (·.part)).getD 0
      { s with outbox := s.outbox ++ [.msg dev part b (BitVec.ofNat 32 entry) size timeout words] }
  else
    let (id, s) := s.fresh
    let m : Msg :=
      { src := c.p, lane := lane, pc := mkPc c.pkt c.slot, grid := c.g, blk := b, entry := BitVec.ofNat 32 entry, size := size, timeout := timeout
        words := words, stamp := s.clock c.core, dev := none, engine := c.core, part := c.gr.part }
    some { s with msgs := mset s.msgs id m }

def bodyAmsg (target entry pay : Operand) (x : MemExt) (size1 : BitVec 5) (timeout : BitVec 10) (n1 : BitVec 2) :
    Body := fun c s =>
  let bad := c.lanes.findSome? fun l => (c.msgBad (c.rdD target l) (c.entryOf entry l) x.ms).map fun f => (l, f)
  match bad with
  | some (l, f) => .fault c.pre { f with lane := some l }
  | none =>
    if decide (x.order = .release) && !c.drained then .hold c.pre (.notReady 13)
    else
      match c.lanes.foldl (fun o l => o.bind (c.sendMsg l (c.rdD target l) (c.entryOf entry l) (32 * (size1.toNat + 1))
          (binTimeout timeout.toNat) (c.payload pay (n1.toNat + 1) l))) (some s) with
      | some s => .ok s
      | none => .fault c.pre { cls := 0x52 }

/-! ### Meanings -/

def execSpawn (entry pay : Operand) (n1 : BitVec 2) (size1 : BitVec 5) (timeout : BitVec 11) (s : State) :=
  issue1 (.spawn entry pay n1 size1 timeout) (bodySpawn entry pay n1 size1 timeout) s
def execAmsg (target entry pay : Operand) (x : MemExt) (size1 : BitVec 5) (timeout : BitVec 10) (n1 : BitVec 2) (s : State) :=
  issue1 (.amsg target entry pay x size1 timeout n1) (bodyAmsg target entry pay x size1 timeout n1) s

end Sys2Proof.Machine
end

