-- ==== Sys2Proof/Machine/Matrix.lean ====
section
/-! DEFINITION. The accumulator store and the matrix engine (R181 to R201): acceptance of MMA, MMAQ, MMASP,
ACLR, ARD, AWR and ASCL with their checks, and what a tile operation computes. The queue of matrix context x
of a core stands in `matq` under 2 · core + x. -/

namespace Sys2Proof.Machine

/-! ### Formats of a member (R190, R191) -/

/-- The floating format of a slot type. -/
def slotFmt (x : BitVec 128) : FFmt := if fmtType x = 3 then bf16 else fp16
/-- Code width of a quantized slot. -/
def slotWidth (x : BitVec 128) : Nat := if fmtType x = 5 then 8 else 4
def isHalfSlot (x : BitVec 128) : Bool := decide (fmtType x = 2 ∨ fmtType x = 3)
def isQSlot (x : BitVec 128) : Bool := decide (fmtType x = 5 ∨ fmtType x = 6)

/-- K of MMAQ by the code widths of A and B. -/
def mmaqK (wa wb : Nat) : Nat := if wa = 4 ∧ wb = 4 then 128 else 64
/-- g′ of an operand. -/
def groupLen (x : BitVec 128) (k : Nat) : Nat := min (fmtGroup x) k

/-- Register runs that a member reads: first register, count, whether of every lane (B fragments and their
groups) or of the active ones. -/
def matReads (gr : Grid) (i : Instr) : List (Operand × Nat × Bool) :=
  match i with
  | .mma _ _ a b => [(a, 16, false), (b, 16, true)]
  | .mmasp _ _ a b m => [(a, 16, false), (b, 32, true), (m, 2, false)]
  | .mmaq _ a b fa fb ga gb =>
    let sa := fmtSlot gr fa.toNat
    let sb := fmtSlot gr fb.toNat
    let k := mmaqK (slotWidth sa) (slotWidth sb)
    [(a, k * slotWidth sa / 32, false), (b, k * slotWidth sb / 32, true),
      (ga, k / groupLen sa k, false), (gb, k / groupLen sb k, true)]
  | .awr _ _ _ n v => [(v, n.toNat + 1, false)]
  | _ => []

/-- The first tile of a member. -/
def matTile : Instr → Nat
  | .mma t .. | .mmaq t .. | .mmasp t .. | .aclr t _ | .ard t .. | .awr t .. | .ascl t _ => t.toNat
  | _ => 0

/-- Tiles that a member touches: one for every 128 lanes; n for ACLR (R189, R199). -/
def matCount (nlane : Nat) : Instr → Nat
  | .aclr _ n => n.toNat + 1
  | _ => (nlane + 127) / 128

/-- Columns that ARD and AWR cover in a register (R200). -/
def colsPer (cvt : BitVec 2) : Nat := if cvt = 0 then 1 else 2

/-! ### The issue checks (R195) -/

/-- Check 1: a slot of a type the member does not accept. -/
def matSlotBad (gr : Grid) : Instr → Bool
  | .mma _ f _ _ | .mmasp _ f _ _ _ => !(isHalfSlot (fmtSlot gr f.toNat))
  | .mmaq _ _ _ fa fb _ _ => !(isQSlot (fmtSlot gr fa.toNat)) || !(isQSlot (fmtSlot gr fb.toNat))
  | _ => false

/-- Check 2: no v register, a run that passes `.regs`, columns past 128. -/
def matRangeBad (gr : Grid) (i : Instr) : Bool :=
  (matReads gr i).any (fun e => rangeBad gr.lrec.regs e.1 e.2.1) || (match i with
    | .ard _ c k n v | .awr _ c k n v =>
        rangeBad gr.lrec.regs v (n.toNat + 1) || decide (128 < 16 * k.toNat + (n.toNat + 1) * colsPer c)
    | _ => false)

/-- The first quad of a lane's metadata that is not strictly ascending (R198). -/
def badQuad (m : W64) : Option Nat :=
  (List.range 16).find? fun u => decide ((m.extractLsb' (4 * u + 2) 2).toNat ≤ (m.extractLsb' (4 * u) 2).toNat)

/-- Check 4: the lowest active lane with bad metadata. -/
def Cx.metaBad (c : Cx) (i : Instr) : Option FInfo :=
  match i with
  | .mmasp _ _ _ _ m => c.lanes.findSome? fun l => (badQuad (c.rdD m l)).map fun u =>
      { cls := 0x20, lane := some l, addr := BitVec.ofNat 64 (16 * (l / 128) + u) }
  | _ => none

/-- The lanes whose registers a run is read from: the active ones, or every lane of a group with one. -/
def Cx.matLanes (c : Cx) (all : Bool) : List Nat :=
  if all then (List.range c.tm.nlane).filter fun l => c.lanes.any fun m => decide (m / 128 = l / 128) else c.lanes

/-- Registers that wait for data, and tagged ones (R187, R237): between checks 3 and 4 of R195, a scalar source of ASCL before
them. DESIGN CHOICE, log entry 115. -/
def Cx.matObstacle (c : Cx) (i : Instr) : SrcRes :=
  let run (o : Operand) (n : Nat) (ls : List Nat) : List SrcRes := match o with
    | .v k => (List.range n).map fun j => c.srcV (k.toNat + j) ls
    | _ => []
  let reads := (matReads c.gr i).flatMap fun e => run e.1 e.2.1 (c.matLanes e.2.2)
  let dst : List SrcRes := match i with
    | .ard _ _ _ n (.v k) => (List.range (n.toNat + 1)).map fun j =>
        if c.lanes.any (busyV c.tm (k.toNat + j)) then (.notReady 10) else .ready
    | _ => []
  firstObstacle (dst ++ reads)

/-- The registers a member captures at acceptance (R185). -/
def Cx.matCapture (c : Cx) (i : Instr) : ZMap 32 :=
  let regs := ((matReads c.gr i).flatMap fun e => match e.1 with
    | .v k => (List.range e.2.1).map (· + k.toNat)
    | _ => []) ++ (match i with
    | .ascl _ (.v k) => [k.toNat]
    | _ => [])
  c.tm.v.filter fun e => decide (e.1 / 1024 ∈ regs)

/-- Accepts a matrix member (R185, R195). The lane that check 2 names is the lowest active one. DESIGN CHOICE, log entry 115. -/
def matBody (i : Instr) : Body := fun c s =>
  let lane := c.lanes.head?
  let top := matTile i + matCount c.tm.nlane i - 1
  if matSlotBad c.gr i then .fault c.pre { cls := 0x22 }
  else if matRangeBad c.gr i then .fault c.pre { cls := 0x02, lane := lane }
  else if c.gr.lrec.tiles ≤ top then .fault c.pre { cls := 0x21, addr := BitVec.ofNat 64 top }
  else match c.matObstacle i with
    | .fault f => .fault c.pre f
    | .notReady w => .hold c.pre (.notReady w)
    | .settle h => .hold c.pre (.settle h)
    | .ready => match c.metaBad i with
      | some f => .fault c.pre f
      | none => match (c.pre.block c.g c.b).bind (·.mctx) with
        | none => .fault c.pre { cls := 0x21, addr := BitVec.ofNat 64 top }
        | some x =>
          let q := (mget s.matq (2 * c.core + x)).getD []
          if 2 ≤ q.length then .hold c.pre (.notReady 11)
          else
            let e : MatEnt :=
              { party := c.p, ins := i, nlane := c.tm.nlane, act := c.act, cap := c.matCapture i
                scal := match i with
                  | .ascl _ o => (c.rdS o).setWidth 32
                  | _ => 0
                next := 0, count := matCount c.tm.nlane i }
            let s := { s with matq := mset s.matq (2 * c.core + x) (q ++ [e]) }
            match i with
            | .ard _ _ _ n (.v k) => .ok (c.onTeam s fun t => { t with
                ardBusy := ((List.range (n.toNat + 1)).flatMap fun j =>
                  c.lanes.map fun l => vKey (k.toNat + j) l).foldl sadd1 t.ardBusy })
            | _ => .ok s

def bodyMma (t : BitVec 5) (fmt : BitVec 3) (a b : Operand) : Body := matBody (.mma t fmt a b)
def bodyMmaq (t : BitVec 5) (a b : Operand) (fa fb : BitVec 3) (ga gb : Operand) : Body :=
  matBody (.mmaq t a b fa fb ga gb)
def bodyMmasp (t : BitVec 5) (fmt : BitVec 3) (a b m : Operand) : Body := matBody (.mmasp t fmt a b m)
def bodyAclr (t n1 : BitVec 5) : Body := matBody (.aclr t n1)
def bodyArd (t : BitVec 5) (cvt : BitVec 2) (cblk : BitVec 3) (n1 : BitVec 4) (v : Operand) : Body :=
  matBody (.ard t cvt cblk n1 v)
def bodyAwr (t : BitVec 5) (cvt : BitVec 2) (cblk : BitVec 3) (n1 : BitVec 4) (v : Operand) : Body :=
  matBody (.awr t cvt cblk n1 v)
def bodyAscl (t : BitVec 5) (o : Operand) : Body := matBody (.ascl t o)

/-! ### Sums (R192 to R194) -/

/-- The canonical NaN. -/
def nanW : W32 := 0x7FC00000
def f32Of (x : W32) : FV := decodeF fp32 false x.toNat
def infW (neg : Bool) : W32 := if neg then 0xFF800000 else 0x7F800000

/-- acc + the exact value n · 2^e, rounded to nearest even; n is not zero. -/
def addExact (acc : W32) (n : Int) (e : Int) : W32 :=
  BitVec.ofNat 32 (addF fp32 FEnv.plain (f32Of acc) (.fin (decide (n < 0)) n.natAbs e)).1

/-- A product truncated toward zero to a multiple of 2^cut, in units of 2^cut (R193). -/
def truncAt (cut : Int) : FV → Int
  | .fin neg m e =>
    let q := if cut ≤ e then m * 2 ^ (e - cut).toNat else m / 2 ^ (cut - e).toNat
    if neg then -(q : Int) else q
  | _ => 0

/-- Exponent of the leading bit of a non-zero finite product. -/
def topExp : FV → Option Int
  | .fin _ m e => if m = 0 then none else some ((Nat.log2 m : Int) + e)
  | _ => none

/-- AddFloatGroup (R193). -/
def addFloatGroup (acc : W32) (ab : List (FV × FV)) : W32 :=
  let isInf : FV → Option Bool := fun x => match x with
    | .inf n => some n
    | _ => none
  if (f32Of acc).isNan || ab.any fun e => e.1.isNan || e.2.isNan then nanW
  else
    let ps := ab.map fun e => (mulExact e.1 e.2).1
    let infs := ps.filterMap isInf
    if (ps.any FV.isNan) || (infs.any id && infs.any not) then nanW
    else match infs with
      | n :: _ => match isInf (f32Of acc) with
        | some m => if m = n then infW n else nanW
        | none => infW n
      | [] => match (ps.filterMap topExp) with
        | [] => acc
        | x :: t =>
          let cut := t.foldl max x - 36
          let g := (ps.map (truncAt cut)).foldl (· + ·) 0
          if g = 0 then acc else addExact acc g cut

/-- AddQuantSegment (R194): scales, and the exact integer sum. -/
def addQuantSegment (acc : W32) (sa sb : FV) (n : Int) : W32 :=
  if (f32Of acc).isNan || sa.isNan || sb.isNan then nanW
  else match sa, sb with
    | .fin na ma ea, .fin nb mb eb =>
      let m : Int := ((ma * mb : Nat) : Int) * n
      if m = 0 then acc else addExact acc (if na != nb then -m else m) (ea + eb)
    | _, _ =>
      if n = 0 ∨ sa.isZero ∨ sb.isZero then nanW
      else
        let g := (sa.sign != sb.sign) != decide (n < 0)
        match f32Of acc with
        | .inf m => if m = g then infW g else nanW
        | _ => infW g

/-! ### Tile operations (R186, R189, R192, R196 to R201) -/

/-- Key of an element of a tile (R181). -/
def tileKey (t i j : Nat) : Nat := 16384 * t + 128 * i + j

/-- An element; the canonical NaN where it holds an uncorrectable error (R184). -/
def Blk.elem (b : Blk) (k : Nat) : W32 := if k ∈ b.tbad then nanW else zget b.tiles k

/-- A captured register. -/
def MatEnt.reg (e : MatEnt) (o : Operand) (n l : Nat) : W32 :=
  match o with
  | .v k => zget e.cap (vKey (k.toNat + n) l)
  | _ => 0

/-- The value of element k of a 16-bit fragment. -/
def MatEnt.half (e : MatEnt) (f : FFmt) (o : Operand) (k l : Nat) : FV :=
  decodeF f false (Sys2Proof.Machine.half (e.reg o (k / 2) l) (k % 2))

/-- Code k of a quantized fragment of code width w. -/
def MatEnt.code (e : MatEnt) (w : Nat) (o : Operand) (k l : Nat) : Nat :=
  codeAt (e.reg o (k / (32 / w)) l) w (k % (32 / w))

/-- Scale and zero point of the group of position k (R146, R191). -/
def MatEnt.group (e : MatEnt) (slot : BitVec 128) (k' : Nat) (o : Operand) (k l : Nat) : FV × Nat :=
  let r := e.reg o (k / groupLen slot k') l
  (decodeF fp16 false (Sys2Proof.Machine.half r 0), zeroPoint slot (slotWidth slot) r)

/-- FP16 to FP32, NaN payloads kept (R200). -/
def widen16 (x : Nat) : W32 :=
  match decodeF fp16 false x with
  | .nan _ => BitVec.ofNat 32 (x / 2 ^ 15 % 2 * 2 ^ 31 + 0x7F800000 + x % 2 ^ 10 * 2 ^ 13)
  | v => BitVec.ofNat 32 (roundFV fp32 FEnv.plain v).1

/-- The half of a value that ARD writes (R200). -/
def narrow (cvt : BitVec 2) (x : W32) : Nat := (roundFV (if cvt = 1 then fp16 else bf16) FEnv.plain (f32Of x)).1

/-- The new element (i, j) of a multiply, for lanes li and lj (R192). -/
def MatEnt.mulElem (e : MatEnt) (gr : Grid) (li lj : Nat) (acc : W32) : W32 :=
  match e.ins with
  | .mma _ f a b =>
    let x := slotFmt (fmtSlot gr f.toNat)
    addFloatGroup acc ((List.range 32).map fun k => (e.half x a k li, e.half x b k lj))
  | .mmasp _ f a b m =>
    let x := slotFmt (fmtSlot gr f.toNat)
    let md : W64 := (e.reg m 1 li ++ e.reg m 0 li : BitVec 64)
    addFloatGroup acc ((List.range 32).map fun n =>
      (e.half x a n li, e.half x b (4 * (n / 2) + (md.extractLsb' (2 * n) 2).toNat) lj))
  | .mmaq _ a b fa fb ga gb =>
    let sa := fmtSlot gr fa.toNat
    let sb := fmtSlot gr fb.toNat
    let kk := mmaqK (slotWidth sa) (slotWidth sb)
    let gm := min (groupLen sa kk) (groupLen sb kk)
    (List.range (kk / gm)).foldl (fun acc u =>
      let (xa, za) := e.group sa kk ga (u * gm) li
      let (xb, zb) := e.group sb kk gb (u * gm) lj
      let n := (List.range gm).foldl (fun (n : Int) k =>
        n + ((e.code (slotWidth sa) a (u * gm + k) li : Int) - za) *
          ((e.code (slotWidth sb) b (u * gm + k) lj : Int) - zb)) 0
      addQuantSegment acc xa xb n) acc
  | _ => acc

/-- Active lanes of lane group g. -/
def MatEnt.rows (e : MatEnt) (g : Nat) : List Nat :=
  (List.range 128).filter fun i => decide (128 * g + i < e.nlane) && e.act.getLsbD (128 * g + i)

/-- Elements that a tile operation reads. -/
def MatEnt.reads (e : MatEnt) (g : Nat) : List Nat :=
  let t := matTile e.ins + g
  match e.ins with
  | .ard _ c k n _ => (e.rows g).flatMap fun i =>
      (List.range ((n.toNat + 1) * colsPer c)).map fun j => tileKey t i (16 * k.toNat + j)
  | .awr .. | .aclr .. => []
  | .ascl .. => (e.rows g).flatMap fun i => (List.range 128).map fun j => tileKey t i j
  | _ => (e.rows g).flatMap fun i => ((List.range 128).filter fun j => decide (128 * g + j < e.nlane)).map fun j =>
      tileKey t i j

/-- Elements that a tile operation writes, with their values. -/
def MatEnt.writes (e : MatEnt) (gr : Grid) (b : Blk) (g : Nat) : List (Nat × W32) :=
  let t := matTile e.ins + g
  match e.ins with
  | .aclr .. => (List.range 16384).map fun k => (16384 * t + k, 0)
  | .ard .. => []
  | .awr _ c k n v => (e.rows g).flatMap fun i =>
      let l := 128 * g + i
      (List.range ((n.toNat + 1) * colsPer c)).map fun j =>
        let x := e.reg v (j / colsPer c) l
        (tileKey t i (16 * k.toNat + j), if c = 0 then x
          else if c = 1 then widen16 (Sys2Proof.Machine.half x (j % 2))
          else BitVec.ofNat 32 (Sys2Proof.Machine.half x (j % 2) * 2 ^ 16))
  | .ascl _ o => (e.rows g).flatMap fun i =>
      let y := match o with
        | .v _ => e.reg o 0 (128 * g + i)
        | .lane => BitVec.ofNat 32 (128 * g + i)
        | _ => e.scal
      (List.range 128).map fun j =>
        (tileKey t i j, BitVec.ofNat 32 (mulF fp32 FEnv.plain (f32Of (b.elem (tileKey t i j))) (f32Of y)).1)
  | _ => (e.rows g).flatMap fun i => ((List.range 128).filter fun j => decide (128 * g + j < e.nlane)).map fun j =>
      (tileKey t i j, e.mulElem gr (128 * g + i) (128 * g + j) (b.elem (tileKey t i j)))

/-- Registers that a tile operation of an ARD writes: register, lane, value (R200). -/
def MatEnt.regWrites (e : MatEnt) (b : Blk) (g : Nat) : List (Nat × Nat × W32) :=
  let t := matTile e.ins + g
  match e.ins with
  | .ard _ c k n (.v r) => (e.rows g).flatMap fun i => (List.range (n.toNat + 1)).map fun m =>
      let at_ (j : Nat) : W32 := b.elem (tileKey t i (16 * k.toNat + j))
      (r.toNat + m, 128 * g + i, if c = 0 then at_ m
        else BitVec.ofNat 32 (narrow c (at_ (2 * m)) + narrow c (at_ (2 * m + 1)) * 2 ^ 16))
  | _ => []

/-- Whether tile operation g is started at all (R186). -/
def MatEnt.starts (e : MatEnt) (g : Nat) : Bool :=
  match e.ins with
  | .aclr .. => true
  | _ => !(e.rows g).isEmpty

/-- The first tile operation from g on that is started. -/
def MatEnt.nextOp (e : MatEnt) : Option Nat :=
  ((List.range (e.count - e.next)).map (· + e.next)).find? e.starts

/-- A context holds a tile operation ready to start: its queue holds a member of a grid that acts (R186, R297). DESIGN CHOICE,
log entry 16. -/
def matReady (s : State) (core x : Nat) : Bool :=
  match (mget s.matq (2 * core + x)).getD [] with
  | e :: _ => s.liveFor e.party
  | [] => false

/-- One tile operation of a matrix context, or none where its queue is empty or the turn has come of the other context,
which is ready (R186). An element with an uncorrectable error is recorded at each operation that reads it (R184). DESIGN CHOICE,
log entry 116. -/
def tileOp (s : State) (core x : Nat) : Option State :=
  match (mget s.matq (2 * core + x)).getD [] with
  | [] => none
  | e :: rest =>
    if matReady s core (1 - x) && decide (mget s.matLast core = some x) then none
    else
      let put (l : List MatEnt) (s : State) : State := { s with matq := mput s.matq (2 * core + x) (if l.isEmpty then none else some l) }
      match e.nextOp, e.party with
      | some g, .team gg bb t => match s.grid gg, s.block gg bb with
        | some gr, some b =>
          let bad := (e.reads g).filter fun k => decide (k ∈ b.tbad)
          let s := bad.foldl (fun s k => s.health (some gr.ctx) 1 core k (BitVec.ofNat 64 x) 0) s
          let ws := e.writes gr b g
          let s := s.modBlock gg bb fun y => { y with
            tiles := ws.foldl (fun m w => zset m w.1 w.2) y.tiles
            tbad := y.tbad.filter fun k => !(ws.any fun w => decide (w.1 = k)) }
          let rs := e.regWrites b g
          let s := s.modTeam gg bb t fun y =>
            let y := rs.foldl (fun y w => y.setV w.1 w.2.1 w.2.2) y
            { y with ardBusy := y.ardBusy.filter fun k => !(rs.any fun w => decide (vKey w.1 w.2.1 = k)) }
          let s := s.count gg core 0x12 1
          let new : MatEnt := { e with next := g + 1 }
          some { put (if new.nextOp.isSome then new :: rest else rest) s with matLast := mset s.matLast core x }
        | _, _ => some (put rest s)
      | _, _ => some (put rest s)

/-! ### Meanings -/

def execMma (t : BitVec 5) (fmt : BitVec 3) (a b : Operand) (s : State) :=
  issue1 (.mma t fmt a b) (bodyMma t fmt a b) s
def execMmaq (t : BitVec 5) (a b : Operand) (fa fb : BitVec 3) (ga gb : Operand) (s : State) :=
  issue1 (.mmaq t a b fa fb ga gb) (bodyMmaq t a b fa fb ga gb) s
def execMmasp (t : BitVec 5) (fmt : BitVec 3) (a b m : Operand) (s : State) :=
  issue1 (.mmasp t fmt a b m) (bodyMmasp t fmt a b m) s
def execAclr (t n1 : BitVec 5) (s : State) := issue1 (.aclr t n1) (bodyAclr t n1) s
def execArd (t : BitVec 5) (cvt : BitVec 2) (cblk : BitVec 3) (n1 : BitVec 4) (v : Operand) (s : State) :=
  issue1 (.ard t cvt cblk n1 v) (bodyArd t cvt cblk n1 v) s
def execAwr (t : BitVec 5) (cvt : BitVec 2) (cblk : BitVec 3) (n1 : BitVec 4) (v : Operand) (s : State) :=
  issue1 (.awr t cvt cblk n1 v) (bodyAwr t cvt cblk n1 v) s
def execAscl (t : BitVec 5) (o : Operand) (s : State) := issue1 (.ascl t o) (bodyAscl t o) s

end Sys2Proof.Machine
end

