-- ==== Sys2Proof/Machine/System.lean ====
section
/-! DEFINITION. System members of pipe C: WAITF, BAR, WAITM, SWI, TRAP, BRK, WMARK, STKM, LAUNCH, CSRR, CSRW,
CLKR, MARK, PCNT (R133, R220, R276 to R288, R322, R347). -/

namespace Sys2Proof.Machine

/-! ### WAITF (R220) -/

def bodyWaitf (mask : BitVec 12) : Body := fun c s =>
  let on := (List.range 12).filter fun i => mask.getLsbD i
  let flag (i : Nat) : CFlag := c.tm.flags[i]?.getD ⟨0, []⟩
  if on.any fun i => decide ((flag i).count ≠ 0) then .hold c.pre (.flags mask)
  else match on.find? fun i => !((flag i).faults.isEmpty) with
    | some i => match deliverFlag c.pre c.g c.b c.t i with
      | some (f, side) => .fault side f
      | none => .ok s
    | none => .ok s

/-! ### BAR (R272, R276) -/

/-- A barrier joined by team t with count n (R272). -/
def Barrier.join (r : Barrier) (n t : Nat) : Barrier := { r with count := n, arrived := sadd1 r.arrived t }

/-- BAR: the checks in their order, the arrival, and for sync the wait. The chain of a sync BAR commits when its phase is
over (R53, R276). -/
def barBody (sync : Bool) (k : BitVec 7) (cnt : BitVec 5) : Body := fun c s =>
  match c.pre.block c.g c.b with
  | none => .fault c.pre { cls := 0x40 }
  | some x =>
    let r := barOf x k.toNat
    match c.seq.began with
    | some (.bar k ph n) => if (barOf x k).phase = ph then .await c.pre (.bar k ph n) else .ok s
    | _ =>
      if c.gr.lrec.nbar ≤ k.toNat then .fault c.pre { cls := 0x40, cause := 0 }
      else if !r.arrived.isEmpty && decide (r.count ≠ cnt.toNat) then .fault c.pre { cls := 0x40, cause := 1 }
      else if c.t ∈ r.arrived then .fault c.pre { cls := 0x40, cause := 2 }
      else if c.tm.detached && decide (cnt = 0) then .fault c.pre { cls := 0x40, cause := 3 }
      else if !c.drained then .hold c.pre (.notReady 13)
      else
        let join (s : State) : State := barSettle (s.modBlock c.g c.b fun x =>
          { x with bars := mset x.bars k.toNat (Barrier.join (barOf x k.toNat) cnt.toNat c.t) }) c.g c.b k.toNat
        let done := (((join c.pre).block c.g c.b).map fun x => decide ((barOf x k.toNat).phase ≠ r.phase)).getD true
        if sync && !done then .await (join c.pre) (.bar k.toNat r.phase c.slot) else .ok (join s)

def bodyBar (k : BitVec 7) (cnt : BitVec 5) : Body := barBody true k cnt
def bodyBarArr (k : BitVec 7) (cnt : BitVec 5) : Body := barBody false k cnt

/-! ### WAITM (R278, R279) -/

/-- The condition of WAITM and of the queue's br and wait: 0 eq, 1 ne, 2 geu, 3 ltu, 4 ge, 5 lt (R278, R359). -/
def waitCond (cc n o x : Nat) : Bool :=
  let m := 2 ^ (8 * n)
  let sgn (v : Nat) : Int := if m / 2 ≤ v then (v : Int) - m else v
  match cc with
  | 0 => decide (o = x)
  | 1 => decide (o ≠ x)
  | 2 => decide (x ≤ o)
  | 3 => decide (o < x)
  | 4 => decide (sgn x ≤ sgn o)
  | 5 => decide (sgn o < sgn x)
  | _ => true

def bodyWaitm (a : Operand) (base : BitVec 5) (_ : Operand) (sz : Size) (_ : Bool) (_ : MemExt) (cond : BitVec 3) :
    Body := fun c s =>
  let n := sz.bytes
  let va := c.rdS (.s base)
  let x := (c.rdS a).toNat % 2 ^ (8 * n)
  c.one .load n va n fun segs tier bs =>
    let acc := teamAcc va segs tier
    if c.loadWaits [acc] then .hold c.pre (.notReady 13)
    else if c.laneBad acc then .fault (bindAll c.pre bs) { cls := 0x16, addr := va }
    else if waitCond cond.toNat n (bytesNat (fwdBytes c.pre.mem c.tm.storeQ segs)) x then
      c.gated 2 (granules [acc] n) fun _ =>
        .ok (hearSignal (turnAll (c.countUses (bindAll s bs) [acc]) c.ctx 2 (granules [acc] n) c.req) c.core (keyAt segs 0))
    else .hold { bindAll c.pre bs with poked := sdel1 c.pre.poked (tKey c.g c.b c.t) } (.mem va n (BitVec.ofNat 64 x) cond (keyAt segs 0 / 64) (c.pre.clk + 4096))

/-! ### SWI, TRAP, BRK (R285, R286) -/

/-- The function of a grid: its queue's (R353). -/
def Cx.fn (c : Cx) : Nat := ((mget c.pre.queues c.gr.queue).map (·.fn)).getD 0

def bodySwi (a : Operand) (vec : BitVec 11) : Body := fun c s =>
  let v := vec.toNat
  let x := c.rdS a
  if vecCount c.fn ≤ v then .fault c.pre { cls := 0x02 }
  else if !c.drained then .hold c.pre (.notReady 13)
  else match irreversible s c.g c.ctx c.engine 5 (BitVec.ofNat 64 v) (natBytes 8 x.toNat) with
    | none => .fault c.pre { cls := 0x52 }
    | some s =>
      let m := (mget s.mailboxes (vecKey c.fn v)).getD ⟨0, 0⟩
      .ok ({ s with mailboxes := mset s.mailboxes (vecKey c.fn v) ⟨x, m.count + 1⟩ }.raise c.fn v)

def bodyTrap (code : BitVec 8) : Body := fun _ s => .trap s { cls := 0x50, addr := code.setWidth 64 }
def bodyBrk (code : BitVec 8) : Body := fun _ s => .trap s { cls := 0x51, cause := 0, addr := code.setWidth 64 }

/-! ### WMARK (R322) -/

def bodyWmark (sc : Scope) (tag : BitVec 16) : Body := fun c s =>
  if !(c.pre.undoOn c.ctx) then .ok s
  else if decide (sc = .team) && !c.tm.storeQ.isEmpty then .hold c.pre (.notReady 13)
  else if canOpen c.pre c.ctx sc then .mark s sc tag
  else .fault c.pre { cls := 0x52 }

/-! ### STKM (R132, R133) -/

/-- Bytes of a push (R132). -/
def stkSize (isV : Bool) (cnt nlane : Nat) : Nat := if isV then cnt * nlane * 4 else (cnt * 8 + 127) / 128 * 128

/-- Frame store window address of a team's spill byte (R164, R317). -/
def spillAddr (nteam nlane t : Nat) (detached : Bool) (off : Nat) : W64 :=
  BitVec.ofNat 64 (0xFF2 * 2 ^ 52 + 3 * 2 ^ 32 +
    if detached then 0x80000000 + 0x100000 * t + off else 1280 * (nteam + 1) + 64 * nlane * t + off)

/-- What a push writes, in order: offset, bytes, value. -/
def Cx.pushList (c : Cx) (first : Operand) (cnt : Nat) : List (Nat × Nat × Nat) :=
  match first with
  | .v f => (List.range cnt).flatMap fun i => (List.range c.tm.nlane).map fun l =>
      (4 * (i * c.tm.nlane + l), 4, (c.vreg (f.toNat + i) l).toNat)
  | .s f => (List.range cnt).map fun i => (8 * i, 8, (zget c.tm.s (f.toNat + i)).toNat)
  | _ => []

/-- The store-queue entries of a push at an offset (R134). -/
def Cx.spillEnts (c : Cx) (base : Nat) (ws : List (Nat × Nat × Nat)) : List StoreEnt :=
  let key (off : Nat) : Nat := spillKey c.g c.b c.t (base + off)
  let whole := wholeGranules (ws.flatMap fun e => (List.range e.2.1).map fun i => key e.1 + i)
  markHeals whole (ws.map fun e => {
    kind := .store, va := spillAddr c.gr.lrec.nteam c.gr.lrec.team c.t c.tm.detached (base + e.1), tier := 9
    key := key e.1, bytes := natBytes e.2.1 e.2.2, ms := .team, grans := [], pc := mkPc c.pkt c.slot, heals := [] })

/-- PUSHM: its spill writes enter the store queue in program order and fold into the team's hash (R134, R338). -/
def bodyPushm (first : Operand) (cnt1 : BitVec 7) : Body := fun c s =>
  let cnt := cnt1.toNat + 1
  let size := stkSize (opIsV first) cnt c.tm.nlane
  if 64 * c.tm.nlane < c.tm.hsp + size then .fault c.pre { cls := 0x31 }
  else
    let es := c.spillEnts c.tm.hsp (c.pushList first cnt)
    .ok (es.foldl (fun s e => foldHash s c.ctx c.g c.b c.t e.va e.bytes)
      (c.onTeam s fun t => { t with hsp := t.hsp + size, storeQ := t.storeQ ++ es }))

/-- What a pop writes: register by register, read through the team's store queue (R134). -/
def Cx.popTeam (c : Cx) (first : Operand) (cnt base : Nat) (t : Team) : Team :=
  let word (off n : Nat) : Nat := bytesNat ((List.range n).map fun i =>
    fwdByte c.pre.mem c.tm.storeQ (spillKey c.g c.b c.t (base + off) + i))
  let t := { t with hsp := base }
  match first with
  | .v f => (List.range cnt).foldl (fun t i => (List.range c.tm.nlane).foldl (fun t l =>
      t.setV (f.toNat + i) l (BitVec.ofNat 32 (word (4 * (i * c.tm.nlane + l)) 4))) t) t
  | .s f => (List.range cnt).foldl (fun t i => t.setS (f.toNat + i) (BitVec.ofNat 64 (word (8 * i) 8))) t
  | _ => t

/-- Whether a pop meets a poisoned byte that the store queue does not supply (R133). -/
def Cx.spillBad (c : Cx) (base size : Nat) : Bool := c.keysBad (spillKey c.g c.b c.t base) size

def bodyPopm (first : Operand) (cnt1 : BitVec 7) : Body := fun c s =>
  let cnt := cnt1.toNat + 1
  let size := stkSize (opIsV first) cnt c.tm.nlane
  if c.tm.hsp < size then .fault c.pre { cls := 0x06 }
  else if c.spillBad (c.tm.hsp - size) size then .fault c.pre { cls := 0x16 }
  else .ok (c.onTeam s (c.popTeam first cnt (c.tm.hsp - size)))

/-! ### LAUNCH (R283, R284) -/

/-- LAUNCH: its checks and reads, then the wait until the launch is judged; its chain commits with the status. -/
def bodyLaunch (d r p sg : BitVec 5) : Body := fun c s =>
  let rd (n : BitVec 5) : W64 := c.rdS (.s n)
  match c.seq.began with
  | some (.launched k x) => .ok (c.onTeam s fun t => t.setS k x)
  | some w => .await c.pre w
  | none =>
    if 10 ≤ c.gr.depth then .fault c.pre { cls := 0x41 }
    else c.one .load 64 (rd r) 320 fun segs tier bs =>
      if c.loadWaits [teamAcc (rd r) segs tier] then .hold c.pre (.notReady 13)
      else if c.laneBad (teamAcc (rd r) segs tier) then .fault (bindAll c.pre bs) { cls := 0x16, addr := rd r }
      else
        let raw := fwdBytes c.pre.mem c.tm.storeQ segs
        let go (params : List W64) (bs : List Bind) : MRes :=
          let start (bs : List Bind) : MRes :=
            if !c.drained then .hold c.pre (.notReady 13)
            else
              let (id, s) := (bindAll c.pre bs).fresh
              let pl : PLaunch :=
                { launcher := .parent c.g, party := some c.p, part := c.gr.part, space := c.gr.space
                  queue := c.gr.queue, csn := c.gr.csn, prio := c.gr.prio, depth := c.gr.depth + 1, recAt := rd r
                  raw := some raw, params := params, ctxAt := 0, ctx := some c.ctx, sig := rd sg, dreg := d.toNat }
              .await { s with launches := mset s.launches id pl } (.launch id d.toNat)
          if rd sg = 0 then start bs else c.one .rmw 8 (rd sg) 8 fun _ _ b2 => start (bs ++ b2)
        if rd p = 0 then go [] bs
        else c.one .load 8 (rd p) 128 fun segs2 tier2 b2 =>
          if c.laneBad (teamAcc (rd p) segs2 tier2) then .fault (bindAll c.pre (bs ++ b2)) { cls := 0x16, addr := rd p }
          else
            let bytes := fwdBytes c.pre.mem c.tm.storeQ segs2
            go ((List.range 16).map fun i => BitVec.ofNat 64 (bytesNat ((bytes.drop (8 * i)).take 8))) (bs ++ b2)

/-! ### CSRR and CSRW (R287, R288) -/

/-- Live children of a grid, those that stand saved among them. -/
def childrenOf (s : State) (g : Nat) : Nat :=
  ((s.grids.map (·.2) ++ s.images.filterMap (·.2.grid)).filter fun x =>
    decide (x.launcher = .parent g ∧ x.status ≠ .retained)).length

/-- The value of a control and status register; none where the number is unassigned (R287). -/
def Cx.csr (c : Cx) (n : Nat) : Option W64 :=
  let w (x : Nat) : W64 := BitVec.ofNat 64 x
  let flag (f : Ctx → Bool) (k : Nat) : Nat := if ((mget c.pre.ctxs c.ctx).map f).getD false then 2 ^ k else 0
  match n with
  | 0x001 => some (c.tm.fpc.setWidth 64)
  | 0x002 => some (w c.tm.hsp)
  | 0x010 => some (w c.gr.lrec.nbar)
  | 0x011 => some (w c.gr.depth)
  | 0x012 => some (w c.gr.prio)
  | 0x013 => some (w (flag (·.undo) 0 + flag (·.record) 1 + flag (·.conf) 2))
  | 0x014 => some (w (childrenOf c.pre c.g))
  | 0x015 => some c.gr.msgdrop
  | 0x020 => some ((c.lex 0).setWidth 64)
  | 0x021 => some ((c.lex 1).setWidth 64)
  | 0x022 => some ((c.lex 2).setWidth 64)
  | 0x023 => some ((c.lex 3).setWidth 64)
  | _ => none

def bodyCsrr (d : Operand) (csr : BitVec 12) : Body := fun c s =>
  match c.csr csr.toNat with
  | some x => c.scalarWrite s d x
  | none => .fault c.pre { cls := 0x02 }

def bodyCsrw (a : Operand) (csr : BitVec 12) : Body := fun c s =>
  let x : W32 := (c.rdS a).setWidth 32
  if csr ≠ 1 ∨ 2 ^ 9 ≤ x.toNat then .fault c.pre { cls := 0x02 }
  else .ok (c.onTeam s fun t => { t with fpc := x ||| (t.fpc &&& 0x1F0) })

/-! ### CLKR, MARK, PCNT (R347) -/

/-- A value from outside the program is written: live, or the script's in a replay (R335); a turn of kind 5 (R332). -/
def Cx.outside (c : Cx) (s : State) (d : Operand) (live : W64) : MRes :=
  if c.pre.scripted c.ctx && (scriptValue c.pre c.ctx 5 c.req).isNone then .fault c.pre { cls := 0x53 }
  else if !(c.pre.scripted c.ctx) && turnsFull c.pre c.ctx 5 [live] c.req then .fault c.pre { cls := 0x52 }
  else
    let (x, s) := outsideValue s c.ctx c.req live
    c.scalarWrite s d x

def bodyClkr (d : Operand) (sel : BitVec 2) : Body := fun c s =>
  let live : W64 := if sel = 0 then c.pre.clock c.core else BitVec.ofNat 64 c.pre.clk
  c.outside s d live

def bodyMark (a : Operand) (tag : BitVec 16) : Body := fun c s =>
  let s := s.bump c.core
  let body := natBytes 4 (mkPc c.pkt c.slot).toNat ++ natBytes 4 c.b ++ natBytes 2 c.t ++ natBytes 6 tag.toNat ++
    natBytes 8 (c.rdS a).toNat
  .ok (s.trace c.ctx 2 (tracePrefix (s.clock c.core) c.gr.csn c.gr.queue c.core ++ body))

def bodyPcnt (d : Operand) (n : BitVec 8) : Body := fun c s =>
  let k := n.toNat
  if 0x18 < k then .fault c.pre { cls := 0x02 }
  else
    let live : Nat := if k < 16 then (((c.pre.block c.g c.b).bind fun b => mget b.stall k)).getD 0
      else (mget c.gr.counters (c.core * 256 + k)).getD 0
    c.outside s d (BitVec.ofNat 64 live)

/-! ### Meanings -/

def execLaunch (d r p sg : BitVec 5) (s : State) := issue1 (.launch d r p sg) (bodyLaunch d r p sg) s
def execWaitf (mask : BitVec 12) (s : State) := issue1 (.waitf mask) (bodyWaitf mask) s
def execBar (k : BitVec 7) (cnt : BitVec 5) (s : State) := issue1 (.bar k cnt) (bodyBar k cnt) s
def execBarArr (k : BitVec 7) (cnt : BitVec 5) (s : State) := issue1 (.barArr k cnt) (bodyBarArr k cnt) s
def execWaitm (a : Operand) (base : BitVec 5) (idx : Operand) (sz : Size) (scale : Bool) (x : MemExt) (cond : BitVec 3) (s : State) :=
  issue1 (.waitm a base idx sz scale x cond) (bodyWaitm a base idx sz scale x cond) s
def execSwi (a : Operand) (vec : BitVec 11) (s : State) := issue1 (.swi a vec) (bodySwi a vec) s
def execTrap (code : BitVec 8) (s : State) := issue1 (.trap code) (bodyTrap code) s
def execBrk (code : BitVec 8) (s : State) := issue1 (.brk code) (bodyBrk code) s
def execWmark (sc : Scope) (tag : BitVec 16) (s : State) := issue1 (.wmark sc tag) (bodyWmark sc tag) s
def execPushm (first : Operand) (cnt1 : BitVec 7) (s : State) :=
  issue1 (.pushm first cnt1) (bodyPushm first cnt1) s
def execPopm (first : Operand) (cnt1 : BitVec 7) (s : State) :=
  issue1 (.popm first cnt1) (bodyPopm first cnt1) s
def execCsrr (d : Operand) (csr : BitVec 12) (s : State) := issue1 (.csrr d csr) (bodyCsrr d csr) s
def execCsrw (a : Operand) (csr : BitVec 12) (s : State) := issue1 (.csrw a csr) (bodyCsrw a csr) s
def execClkr (d : Operand) (sel : BitVec 2) (s : State) := issue1 (.clkr d sel) (bodyClkr d sel) s
def execMark (a : Operand) (tag : BitVec 16) (s : State) := issue1 (.mark a tag) (bodyMark a tag) s
def execPcnt (d : Operand) (n : BitVec 8) (s : State) := issue1 (.pcnt d n) (bodyPcnt d n) s

end Sys2Proof.Machine
end

