-- ==== Sys2Proof/Machine/Events.lean ====
section
/-! DEFINITION. Events of the compute side that no member is the cause of: fetches, tokens, waits that end, bins,
messages, tile operations, copies, loads that return, stores and bank operations performed, translations,
samples, timers. Each answers its next state where the spec lets it happen, and is refused by name where it
does not. -/

namespace Sys2Proof.Machine

/-- What a step answers. -/
abbrev Out := Host.Outcome State Fault Refusal

/-- An event that the spec gives its effect where it happens, and that changes nothing where it does not. DEDUCED, log
entry 108. -/
def happens (s : State) : Option State → Out
  | some t => .next t
  | none => .next s

/-- A party that acts and does not stand stopped. -/
def State.acts (s : State) (p : Party) : Bool :=
  s.liveFor p && (match s.seqOf p with
    | some q => q.stop.isNone
    | none => false)

/-- Block and cluster instance of a party, as frame keys use them. -/
def instsOf : Party → Nat × Nat
  | .team _ b _ => (b, instOf b)
  | .block _ b => (b, instOf b)
  | .cluster _ k => (0, k)
  | .grid _ => (0, 0)

/-- Ends a party's wait. -/
def endWait (s : State) (p : Party) : State := s.modSeq p fun q => { q with wait := none }

/-- The wait of a party that acts. -/
def State.waitOf (s : State) (p : Party) : Option Wait := if s.acts p then (s.seqOf p).bind (·.wait) else none

/-! ### PACKET_FETCH (R49, R50) -/

/-- The packet at a party's PC is read into its instruction cache, in the place of what the cache held. -/
def execPacketFetch (p : Party) (s : State) : Out :=
  match s.grid p.gridNo with
  | none => .next s
  | some gr =>
    if !(s.acts p) then .next s
    else
      let e := fetchEngine s p
      let pkt := pcPkt (s.pcOf p)
      let kept := s.icache.filter fun x =>
        !decide (x.core = e ∧ x.part = gr.part ∧ x.space = gr.space ∧ x.va = packetAddr gr pkt)
      match readPacket { s with icache := kept } e gr p.gridNo pkt with
      | .words _ s => .next s
      | .dead pa => .fault (.noSuchMemory pa)
      | _ => .next s

/-! ### TOKEN_RECEIVE (R97, R101, R102) -/

/-- The next token of a party without one, and the state in which it is taken out of its queue or passed in
the grid ring. -/
def nextToken (s : State) (p : Party) : Option (Token × State) :=
  (s.seqOf p).bind fun q =>
  let fromQueue : Option (Token × State) := match q.queue with
    | t :: rest => some (t, s.modSeq p fun q => { q with queue := rest })
    | [] => none
  let fromRing : Option (Token × State) := (s.grid p.gridNo).bind fun gr =>
    (if gr.ringBase ≤ q.rd then gr.ring[q.rd - gr.ringBase]? else none).map fun t =>
      (t, trimRing (s.modSeq p fun q => { q with rd := q.rd + 1 }) p.gridNo)
  match p with
  | .team _ _ _ => fromQueue
  | .block g _ => if ((s.grid g).map (·.lrec.cmode)).getD false then fromQueue else fromRing
  | .cluster _ _ => fromRing
  | .grid _ => none

/-- A team takes a token: the group that waited moves to the token's start (R101). -/
def Team.take (t : Team) (tk : Token) (pc : W32) : Team :=
  let mine := (t.groups.find? fun (g : W32 × Mask) => decide (g.1 = pc)).map (·.2)
  let rest := t.groups.filter fun (g : W32 × Mask) => decide (g.1 ≠ pc)
  let q := t.seq
  { t with
    groups := addGroup rest (tk.start, mine.getD 0), awaiting := .none
    seq := { q with tok := some tk, loop0 := q.loops.length, call0 := q.calls.length } }

/-- A level takes a token: it stands at its start, and its own first segment begins there (R97, R101). -/
def levelTake (s : State) (p : Party) (tk : Token) : State :=
  let s := s.modSeq p fun q => { q with
    pc := tk.start, tok := some tk, loop0 := q.loops.length, call0 := q.calls.length }
  match mkCx s p 0 false with
  | none => s
  | some c => s.modLvl p fun v => { v with seg := snapshot c s tk.start, segHas := false, emitted := false }

def execTokenReceive (p : Party) (s : State) : Out :=
  happens s <|
    if !(s.acts p) then none
    else match p with
      | .team g b t => (s.team g b t).bind fun x =>
          x.awaiting.bind fun pc => if x.seq.tok.isSome then none
            else (nextToken s p).map fun e => stepStop (e.2.modTeam g b t fun x => x.take e.1 pc) p
      | p => (s.lvlOf p).bind fun v => if v.walkDone || v.seq.tok.isSome then none
            else (nextToken s p).map fun e => stepStop (levelTake e.2 p e.1) p

/-! ### Waits that end -/

/-- The owner's settle wait is over (R175). -/
def execSettleWaitEnd (p : Party) (s : State) : Out :=
  happens s <|
    match s.waitOf p with
    | some (.settle h) =>
      let (b, k) := instsOf p
      match mget s.frames (handleKey p.gridNo b k h) with
      | some f => if settled s p.gridNo b k f h then some (endWait s p) else none
      | none => some (endWait s p)
    | _ => none

/-- A bin of the core is free again for the SPAWN that waits (R79). -/
def execSpawnRetry (p : Party) (s : State) : Out :=
  happens s <|
    match s.waitOf p, s.coreOf p with
    | some .bin, some core => if (freeBin s core).isSome then some (endWait s p) else none
    | _, _ => none

/-- A device agent's store to the granule has been performed: the WAITM reads its word again, and sleeps anew where its
condition does not hold (R279). -/
def execWaitmWake (p : Party) (s : State) : Out :=
  happens s <|
    match s.waitOf p, p with
    | some (.mem ..), .team g b t =>
      if tKey g b t ∈ s.poked then some (endWait { s with poked := sdel1 s.poked (tKey g b t) } p) else none
    | _, _ => none

/-- 4,096 clk have passed since the WAITM last read (R279). -/
def execWaitmPeriodicRead (p : Party) (s : State) : Out :=
  happens s <|
    match s.waitOf p with
    | some (.mem _ _ _ _ _ due) => if due ≤ s.clk then some (endWait s p) else none
    | _ => none

/-- Whether a page of a grid's address space is still being filled or migrated. -/
def pageBusy (s : State) (gr : Grid) (va : W64) : Bool :=
  (s.fills.any fun e => decide (e.2.part = gr.part ∧ e.2.space = gr.space ∧ e.2.base ≤ va.toNat ∧
      va.toNat < e.2.base + e.2.size)) ||
    s.migrs.any fun e => decide (e.2.part = gr.part ∧ e.2.space = gr.space) && (match e.2.marked with
      | some (b, z) => decide (b ≤ va.toNat ∧ va.toNat < b + z)
      | none => false)

/-- Whether what a parked access waits on is not there yet: a line that is absent or held and not failed, a page that is
being filled or moved (R204, R231 to R233). -/
def stillParked (s : State) (p : Party) (gr : Grid) (ls : List Nat) (pages : List W64) : Bool :=
  (match p with
    | .team g b _ => ((s.block g b).map fun x =>
        ls.any fun l => decide ((l ∈ x.absent ∨ l ∈ x.held) ∧ l ∉ x.failed)).getD false
    | _ => false) || pages.any (pageBusy s gr)

/-- What a parked access waits on is there: the access is checked again from its beginning, its failed lines and pages
raising their faults (R204, R210, R232). One that has a failed page keeps it in mind and issues as it stands. -/
def execParkedAccessResume (p : Party) (s : State) : Out :=
  happens s <|
    match s.waitOf p, s.grid p.gridNo with
    | some (.parked ls pages []), some gr => if stillParked s p gr ls pages then none else some (endWait s p)
    | _, _ => none

/-! ### Bins (R77 to R79) -/

def execBinTimerExpiry (core bin : Nat) (s : State) : Out :=
  happens s <|
    (liveBin s (core * 16 + bin)).bind fun x =>
      if decide (bin < 16) && binExpired s x then formInTurn s (core * 16 + bin) true else none

/-- A bin that had to wait forms, before bins of a higher number (R78). -/
def execBinFormOnSlotFree (core bin : Nat) (s : State) : Out :=
  happens s <|
    if bin < 16 ∧ !(lowerDue s (core * 16 + bin)) then formDue s (core * 16 + bin) else none

/-! ### MESSAGE_DEPOSIT (R280) -/

/-- The token that a bin opened by a message holds: its versions and snapshot are open, its display names
the level-0 frame (log entry 19). -/
def messageToken (s : State) : Token × State :=
  let (a, s) := s.draw
  let (b, s) := s.draw
  let w (n : Nat) : W32 := (Config.freeWord n).setWidth 32
  let h (n : Nat) : BitVec 16 := (Config.freeWord n).setWidth 16
  ({ Token.zero with
     lcg := w a, lcc := w (a + 1), lcb := w (a + 2), qg := h (a + 3), qc := h (a + 4), qb := h (a + 5)
     gver := (Config.freeWord b).setWidth 8, cver := (Config.freeWord (b + 1)).setWidth 8
     bver := h (b + 2), close := finalClose }, s)

/-- Whether an earlier message of the same flow is still on its way: of the same core, or partition of a peer, to the same block
or core (R280, R394). -/
def behindMsg (s : State) (id : Nat) (m : Msg) : Bool :=
  let core (x : Msg) : Option Nat := (s.block x.grid x.blk).map (·.core)
  s.msgs.any fun e => decide (e.1 < id ∧ e.2.engine = m.engine ∧
    (e.2.grid = m.grid ∧ e.2.blk = m.blk ∨ (core m).isSome ∧ core e.2 = core m))

/-- What the monitor and the record answer to a deposit; accesses of peers are no turns (R332). -/
def msgGate (s : State) (ctx : Nat) (m : Msg) : Gate :=
  if m.dev.isSome then .go else gateAll s ctx 4 [binPoint m.entry m.blk] (reqOf m.src)

/-- Deposits a message at the core of its block (R77 to R80, R280, R329). -/
def depositMsg (s : State) (ctx core : Nat) (m : Msg) : Option State :=
  let s := s.receive core m.stamp
  let (tok, s) := messageToken s
  (deposit s core
    { g := m.grid, b := m.blk, entry := m.entry, size := m.size, timeout := m.timeout
      words := m.words, tok := some tok }).map fun s =>
    if m.dev.isSome then s else arbTurn s ctx 4 (binPoint m.entry m.blk) (reqOf m.src) 1

/-- A message for a grid that is gone is discarded, and counts at its partition (R280, R399). -/
def dropMsg (s : State) (part : Nat) : State :=
  { s with parts := mmod s.parts part fun p => { p with msgdrop := p.msgdrop + 1 } }

/-- A message arrives at the core of its block, behind earlier ones of its lane, and is deposited as a SPAWN deposits (R77 to
R79, R280); a replay that diverges there stops its sender at its AMSG (R337). Where its block is not there it is discarded and
counted. -/
def execMessageDeposit (id : Nat) (s : State) : Out :=
  happens s <|
    (mget s.msgs id).bind fun m =>
    if behindMsg s id m then none
    else
    let s' := { s with msgs := mdel s.msgs id }
    match s.grid m.grid, s.block m.grid m.blk with
    | some gr, some x =>
      if !(s.live m.grid) then none
      else match msgGate s gr.ctx m with
        | .go => (depositMsg s' gr.ctx x.core m).orElse fun _ => some (forceOldest s x.core)
        | .held => none
        | e => if ((s.seqOf m.src).map (·.stop.isNone)).getD false then
            some (takeFault s m.src { cls := e.cls, pc := some m.pc, slot := pcSlot m.pc }) else none
    | some _, none =>
      if placedBlock s m.grid m.blk then none
      else some (s'.modGrid m.grid fun g => { g with msgdrop := g.msgdrop + 1 })
    | none, _ => if s.images.any fun e => decide (e.2.gid = m.grid) then none else some (dropMsg s' m.part)

/-! ### TILE_OPERATION (R186) -/

def execTileOperation (core ctx : Nat) (s : State) : Out :=
  happens s (if core < 96 ∧ ctx < 2 ∧ matReady s core ctx then tileOp s core ctx else none)

/-! ### Copies (R208 to R214) -/

/-- A copy goes on whatever its team waits for, unless its grid is frozen or being saved (R297, R300). -/
def liveCopy (s : State) (id : Nat) : Option Copy :=
  (mget s.copies id).bind fun c =>
    if s.liveFor c.party && c.stop.isNone && (s.coreOf c.party).isSome then some c else none

/-- A copy starts once earlier copies that overlap it are gone and the stores before it are performed; a copy
under way writes its next granule, or the elements of its next word. A log without room has the grid saved with the copy as
a residue whose fault is held (R324); a replay that diverges at the copy stops its team (R337). -/
def execCopyStart (id : Nat) (s : State) : Out :=
  match liveCopy s id with
  | none => .next s
  | some c =>
    if !c.started then
      if c.after = 0 ∧ !(copyBlocked s id c) then
        let (n, s) := s.draw
        let die := ((s.coreOf c.party).getD 0) / 24
        .next { s with copies := mset s.copies id { c with started := true, engine := 0x2000 + 4 * die + n % 4 } }
      else .next s
    else if c.total ≤ c.next then .next s
    else match copyStep s id c with
      | .wrote s => .next s
      | .waits s' => if s'.fills ≠ s.fills then .next s' else .next s
      | .failed _ _ _ => .next s
      | .stalled => .next (stopCopy s id c)
      | .diverged =>
        if ((s.seqOf c.party).bind (·.stop)).isSome then .next s
        else .next (takeFault s c.party { cls := 0x53, pc := some c.pc, slot := pcSlot c.pc })
      | .dead pa => .fault (.noSuchMemory pa)

def execCopyComplete (id : Nat) (s : State) : Out :=
  happens s <|
    (liveCopy s id).bind fun c => if c.started && decide (c.total ≤ c.next) then some (finishCopy s id c) else none

def execCopyFail (id : Nat) (s : State) : Out :=
  happens s <|
    (liveCopy s id).bind fun c =>
      if c.started && decide (c.next < c.total) then match copyStep s id c with
        | .failed cls va s => some (failCopy s id c cls va)
        | _ => none
      else none

/-! ### Loads and stores (R237, R250, R253) -/

/-- One register of an outstanding load lands; a poisoned byte tags it (R237). -/
def landPart (s : State) (e : LoadEnt) (t : Team) (p : LoadPart) : Team :=
  let x := extend e.sx p.n (readNat s.mem p.key p.n)
  let bad := (List.range p.n).any fun i => poisoned s (p.key + i)
  if e.sreg then
    let t := t.setS p.dst x
    if bad then { t with stag := mset t.stag p.dst p.va } else t
  else
    let t := t.setV (p.dst / 1024) (p.dst % 1024) (x.setWidth 32)
    if bad then { t with vtag := mset t.vtag p.dst p.va } else t

/-- The data of a member's load lands, all of it read at one point (R239, R254). -/
def landLoad (s : State) (t : Team) (e : LoadEnt) : Team := e.parts.foldl (landPart s e) t

/-- The oldest load of a team lands, with the turns at the granules that it touches (R239, R332), and feeds the monitors of the
memory's latency (R346). -/
def landFirst (s : State) (gr : Grid) (g b t : Nat) (e : LoadEnt) (rest : List LoadEnt) : State :=
  let s' := s.modTeam g b t fun y => landLoad s { y with loads := rest } e
  turnAll (feedMonitors s' 0 (Config.waited 0 s.clk)) gr.ctx 2 e.grans (reqOf (.team g b t))

/-- The oldest outstanding load of a team returns. A stopped or waiting team's loads return all the same; those
of a grid that is frozen or being saved are residues (R297, R300). A replay that diverges, and a log without room, stop the team at
the load's member (R324, R337). -/
def execLoadDataReturn (p : Party) (s : State) : Out :=
  happens s <|
    match p, s.grid p.gridNo with
    | .team g b t, some gr => if !(s.liveFor p) then none else (s.team g b t).bind fun x => match x.loads with
      | e :: rest => match gateAll s gr.ctx 2 e.grans (reqOf p) with
        | .go => some (landFirst s gr g b t e rest)
        | .held => none
        | u => if x.seq.stop.isSome then none else some (takeFault s p { cls := u.cls, pc := some e.pc, slot := pcSlot e.pc })
      | [] => none
    | _, _ => none

/-- Takes the first entry out of a team's store queue; its copies wait for one store less (R214). -/
def popStore (s : State) (p : Party) : State :=
  match p with
  | .team g b t =>
    let s := s.modTeam g b t fun x => { x with storeQ := x.storeQ.drop 1 }
    let cs := s.copies.map fun e =>
      if e.2.party = p then (e.1, { e.2 with after := e.2.after - 1 }) else e
    { s with copies := cs }
  | _ => s

/-- The `inst` field of a type 1 record of a block's write: blk in the scratch window and in the block frame region, which
holds its launched teams' spill areas; 0 otherwise (R164, R317). -/
def instAt (b : Nat) (va : W64) : Nat :=
  if windowOf va.toNat = some .scratch ∨ 0xFF20000300000000 ≤ va.toNat ∧ va.toNat < 0xFF20000380000000 then b else 0

/-- The undo or irreversible records of a store (R315, R319, R323). -/
def storeRecords (s : State) (gr : Grid) (g b core : Nat) (e : StoreEnt) (bytes : List Byte) : Option State :=
  if e.tier = 2 ∨ e.tier = 3 then irreversible s g gr.ctx core (e.tier - 2) e.va bytes
  else undoWrite s g gr.ctx core (instAt b e.va) e.va e.key bytes.length

/-- A peer store that meets an error response is dropped and reported (R345, R398). The class of the response is open. -/
def dropPeerStore (s : State) (gr : Grid) (core : Nat) (va : W64) : State :=
  let (n, s) := s.draw
  s.health (some gr.ctx) 10 core 0 (Config.freeWord n) va

/-- A store of a team is written at its home; one to a peer also leaves the device (R253, R398). -/
def writeStore (s : State) (gr : Grid) (g b core : Nat) (e : StoreEnt) : Option State :=
  if unadmitted s e.key then some (dropPeerStore s gr core e.va)
  else (storeRecords s gr g b core e e.bytes).map fun s =>
    let s := countUse (putMem s e.key e.bytes) gr.ctx gr.part core e.va e.tier e.key
    if e.tier = 3 then { s with outbox := s.outbox ++ [.store (e.key - memKey 3 0) e.bytes] } else s

/-- A BOP element is applied to its word at its home (R250, R268). A poisoned word keeps its contents, and the element is lost
and reported, with its slice and bank (R345). -/
def writeBop (s : State) (gr : Grid) (g core : Nat) (e : StoreEnt) (op : BitVec 4) (x : W64) : Option State :=
  let n := e.bytes.length
  let (slice, bank) := (homeOf s gr.part e.va e.tier e.key).getD (0, 0)
  if (List.range n).any fun i => poisoned s (e.key + i) then
    some (s.health (some gr.ctx) 3 (0x1000 + slice) bank 0 (BitVec.ofNat 64 (e.va.toNat / 64 * 64)))
  else
    let bytes := natBytes n (newValue op.toNat n (readNat s.mem e.key n) x.toNat)
    (undoWrite s g gr.ctx core 0 e.va e.key n).map fun s =>
      countBank (putMem s e.key bytes) gr.ctx gr.part core e.va e.tier e.key

/-- A team's write of a frame slot that it owns is stored in the frame (R176). -/
def writeSlot (s : State) (gr : Grid) (g b core : Nat) (e : StoreEnt) (cell slot : Nat) : Option State :=
  storeSlot s gr.ctx core g b (instOf b) (BitVec.ofNat 32 (cell / 2 ^ 48 % 4 * 2 ^ 30 + cell % 2 ^ 16)) slot
    (BitVec.ofNat 64 (bytesNat e.bytes))

/-- An entry's effect on memory or on its frame, with its records; none where the log has no room. Granules that its member
overwrites whole with it lose their poison (R237). -/
def writeEntry (s : State) (gr : Grid) (g b core : Nat) (e : StoreEnt) : Option State :=
  (match e.kind with
    | .store => writeStore s gr g b core e
    | .bop op x => writeBop s gr g core e op x
    | .frame cell slot => writeSlot s gr g b core e cell slot).map fun s =>
    if e.heals.isEmpty then s else { s with poison := s.poison.filter fun k => decide (k ∉ e.heals) }

/-- The arbitration kind of an entry (R332). -/
def StoreKind.arb : StoreKind → Nat
  | .bop _ _ => 1
  | _ => 2

/-- Stops a team at the member whose queued write cannot be performed (R324, R337). -/
def stopStore (s : State) (p : Party) (e : StoreEnt) (cls : Nat) : State :=
  takeFault s p { cls := cls, pc := some e.pc, slot := pcSlot e.pc, addr := if cls = 0x53 then 0 else e.va }

/-- Performing the first entry of a team's queue, where `sel` takes its kind: the gate of its points, its records and its
write. A replay that diverges, and a log without room, stop the team at the entry's member (R324, R337). -/
def performEntry (p : Party) (sel : StoreKind → Bool) (s : State) : Option State :=
  match p, s.grid p.gridNo with
  | .team g b t, some gr => (s.team g b t).bind fun x => match x.storeQ with
    | e :: _ =>
      if !(sel e.kind) || !(x.loads.isEmpty) || !(s.liveFor p) then none
      else match gateAll s gr.ctx e.kind.arb e.grans (reqOf p) with
        | .go => match writeEntry (popStore s p) gr g b x.core e with
          | some s => some (turnAll s gr.ctx e.kind.arb e.grans (reqOf p))
          | none => if x.seq.stop.isSome then none else some (stopStore s p e 0x52)
        | .held => none
        | u => if x.seq.stop.isSome then none else some (stopStore s p e u.cls)
    | [] => none
  | _, _ => none

/-- STORE_PERFORM: the first entry of the queue, a store or a frame write, is performed (R176, R253). -/
def execStorePerform (p : Party) (s : State) : Out :=
  happens s <| performEntry p (fun k => match k with
    | .bop _ _ => false
    | _ => true) s

/-- BANK_ALU_OPERATION: the first entry of the queue, a BOP element, is performed (R250, R268). -/
def execBankAluOperation (p : Party) (s : State) : Out :=
  happens s <| performEntry p (fun k => match k with
    | .bop _ _ => true
    | _ => false) s

/-! ### TLB_MISS_COMPLETE (R228) -/

/-- A miss that an engine has under way for a grid ends, on a page that is not being moved (R228, R233). -/
def execTlbMissComplete (engine g : Nat) (va : W64) (s : State) : Out :=
  happens s <|
    (s.misses.find? fun m => decide (m.engine = engine ∧ m.grid = g ∧ m.page = va.toNat / 65536)).bind fun m =>
      if pageMoving s m.part m.space va.toNat then none else some (endMiss s m)

/-! ### Stall reasons (R343) and PC_SAMPLE (R340, R341) -/

/-- The reasons for which a team that could issue does not: fetch, a fetch stopped for a check, a pipe taken by another
block. Which of them holds is timing, and open. -/
def readyReason (n : Nat) : Nat := ([8, 9, 12][n % 3]?).getD 8

/-- The lowest-numbered stall reason that holds for a team; `n` settles what timing leaves open. DEDUCED, log entry 97. -/
def stallReason (x : Team) (n : Nat) : Nat :=
  if x.seq.stop.isSome then 15
  else if x.awaiting.isSome then 0
  else match x.seq.wait with
    | none => readyReason n
    | some w => match w with
      | .notReady k => k
      | .bar .. => 3
      | .mem .. => 4
      | .flags _ => 5
      | .parked ls _ _ => if ls.isEmpty then 7 else 6
      | .bin => 13
      | .hall .. => 14
      | .settle _ | .exit | .launch .. | .launched .. => 15

/-- The body of a sample (R342). Whether a team that could issue did so in that clk is timing, and open. -/
def sampleBody (s : State) (g b t why : Nat) : List Byte :=
  let p : Party := .team g b t
  let reason := match s.team g b t with
    | some x => if canIssue s p && x.seq.wait.isNone && decide (why % 2 = 0) then 0xFF else stallReason x (why / 2)
    | none => 0xFF
  natBytes 4 (s.pcOf p).toNat ++ natBytes 4 b ++ natBytes 1 t ++ natBytes 1 reason ++ natBytes 6 0

/-- A core writes a sample of one of its teams to the trace buffer of that team's context. -/
def execPcSample (core : Nat) (s : State) : Out :=
  happens s <|
    let ts := (coreTeams s core).filter fun e => match (s.grid (tkGrid e.1)).bind fun g => (mget s.ctxs g.ctx).bind (·.trace) with
      | some tb => decide (tb.period ≠ 0)
      | none => false
    if ts.isEmpty then none
    else
      let (n, s) := s.draw
      let (w, s) := s.draw
      (ts[n % ts.length]?).bind fun e =>
      let g := tkGrid e.1
      (s.grid g).map fun gr =>
        s.traceBy gr.ctx core 3 (sampleBody s g (e.1 / 16 % 2 ^ 32) (e.1 % 16) w)

/-! ### COALESCING_TIMER_EXPIRY (R392) -/

/-- A marked vector sends one message and starts its timer anew, another goes idle. -/
def execCoalescingTimerExpiry (fn vec : Nat) (s : State) : Out :=
  happens s <|
    (mget s.vectors (vecKey fn vec)).bind fun x => x.timer.bind fun due =>
      if s.clk < due then none
      else if x.coalesced then
        let y := { x with coalesced := false, timer := some (s.clk + s.coalOf fn) }
        some (State.sendVec { s with vectors := mset s.vectors (vecKey fn vec) y } fn vec)
      else
        let y := { x with timer := none }
        some { s with vectors := mset s.vectors (vecKey fn vec) y }

end Sys2Proof.Machine
end

