-- ==== Sys2Proof/Machine/QueueOps.lean ====
section
/-! DEFINITION. Queues outside the cores (R353 to R362, R373 to R375, R379, R416): the journal, positions,
accesses of the front end, faults of a queue, the completion FIFO, completion signals and timetables. -/

namespace Sys2Proof.Machine

/-! ### The journal (R374, R379, R416) -/

/-- The newest image of a queue that reads without an uncorrectable error; the initial image when none was
written; none where both halves are bad (R374, R379). -/
def Queue.newest (x : Queue) : Option JImg :=
  if !x.written then some JImg.initial
  else if x.newestB then (if !x.badB then some x.halfB else if !x.badA then some x.halfA else none)
  else if !x.badA then some x.halfA else if !x.badB then some x.halfB else none

/-- The newest image, the initial one where none can be read. -/
def Queue.img (x : Queue) : JImg := x.newest.getD JImg.initial

/-- Writes the older half and marks it newest (R374). -/
def Queue.write (x : Queue) (j : JImg) : Queue :=
  if x.written && !x.newestB then { x with halfB := j, badB := false, newestB := true, written := true }
  else { x with halfA := j, badA := false, newestB := false, written := true }

/-- Whether no core serves a queue in this state (R371, R416). -/
def unserved (j : JImg) : Bool := decide (j.state = 0 ∨ j.state = 4 ∨ j.state = 5)

/-- A kjrnl: not performed over a state of 0, 4 or 5; a stop request puts state 5 in the image's place (R416). -/
def Queue.journal (x : Queue) (j : JImg) : Queue :=
  if unserved x.img then x
  else if x.stopReq then { x.write { j with state := 5 } with stopReq := false }
  else x.write j

/-- Changes a queue. -/
def State.modQueue (s : State) (q : Nat) (f : Queue → Queue) : State := { s with queues := mmod s.queues q f }

/-- Sets a queue's bit in the roll-call bitmap (R356). -/
def State.roll (s : State) (q : Nat) : State :=
  { s with rollcall := s.rollcall ||| BitVec.ofNat 1024 (2 ^ q) }

/-- A queue fault that the front end enters itself: state 4 with its code, position and csn kept, the vector raised (R362). -/
def queueFault (s : State) (q code : Nat) : State :=
  (s.modQueue q fun x => x.write { x.img with state := 4, fault := BitVec.ofNat 8 code }).raiseQueue q

/-- Whether a kjrnl of an image brings a queue to state 4 (R362, R416). -/
def Queue.faultsBy (x : Queue) (j : JImg) : Bool := !(unserved x.img) && decide ((x.journal j).img.state = 4)

/-- A core's kjrnl of a queue: one that brings it to state 4 raises its vector (R362, R416). -/
def kjournal (s : State) (q : Nat) (j : JImg) : State :=
  match mget s.queues q with
  | some x =>
    let s := s.modQueue q fun x => x.journal j
    if x.faultsBy j then s.raiseQueue q else s
  | none => s

/-- A queue fault of a command that the owning core executes itself, which the core writes with kjrnl (R362). -/
def coreFault (s : State) (q code : Nat) : State :=
  match mget s.queues q with
  | some x => kjournal s q { x.img with state := 4, fault := BitVec.ofNat 8 code }
  | none => s

/-! ### Positions (R357, R360) -/

/-- Commands that a ring holds (R353). -/
def Queue.size (x : Queue) : Nat := 2 ^ (x.m + 6)

/-- Moves the position of the innermost level by n commands; in the ring rptr wraps mod 2^32. -/
def movePos (j : JImg) (n : Int) : JImg :=
  if j.depth = 0 then { j with rptr := BitVec.ofInt 64 (((j.rptr.toNat : Int) + n) % 2 ^ 32) }
  else { j with bstack := j.bstack.modify (j.depth - 1) fun e =>
    (e.1, e.2.1, BitVec.ofInt 32 ((e.2.2.toNat : Int) + n)) }

/-- The buffer that a queue is in. -/
def topBuffer (j : JImg) : Option (W64 × W32 × W32) := if j.depth = 0 then none else j.bstack[j.depth - 1]?

/-- Leaves a buffer: the entry is zeroed, depth falls and the level below moves past its calli. -/
def leaveBuffer (j : JImg) : JImg :=
  movePos { j with bstack := j.bstack.set (j.depth - 1) (0, 0, 0), depth := j.depth - 1 } 1

/-- Leaves every buffer whose last command is complete. -/
def leaveDone : Nat → JImg → JImg
  | 0, j => j
  | f + 1, j => match topBuffer j with
    | some (_, n, p) => if n.toNat ≤ p.toNat then leaveDone f (leaveBuffer j) else j
    | none => j

/-- Whether a queue has commands to run: a buffer, or ring commands up to wptr; a position past wptr waits until
commands stand there (R357, R360). -/
def Queue.hasWork (x : Queue) (j : JImg) : Bool :=
  let ahead := (x.wptr - j.rptr.setWidth 32).toNat
  decide (j.depth ≠ 0) || decide (1 ≤ ahead ∧ ahead ≤ x.size)

/-- The image after a completed command at a moved position: csn counts it, finished buffers are left, the
state is idle at wptr and running before it (R357, R360). -/
def Queue.done (x : Queue) (j : JImg) : JImg :=
  let j := leaveDone 9 { j with csn := j.csn + 1 }
  { j with state := if x.hasWork j then 2 else 1 }

/-- Journals the completion of a command that leaves image j. -/
def completeCommand (s : State) (q : Nat) (j : JImg) : State :=
  s.modQueue q fun x => { x with armed := none, begun := none }.journal (x.done j)

/-- Enters a result in a queue's dispatch window, which keeps the last 4 (R373). -/
def enterWindow (s : State) (q : Nat) (csn v : W64) : State :=
  s.modQueue q fun x =>
    let w := x.window ++ [(csn, v)]
    { x with window := w.drop (w.length - 4) }

/-- Register k of an image, and a write to it. -/
def JImg.reg (j : JImg) (n : Nat) : W64 := j.k[n]?.getD 0
def JImg.setReg (j : JImg) (n : Nat) (v : W64) : JImg := { j with k := j.k.set n v }

/-! ### Accesses of the front end (R353, R359) -/

/-- What an access outside a grid comes to. -/
inductive QAcc where
  | ok (segs : List (Nat × Nat)) (tier : Nat) (s : State)
  | fault (cls : Nat) (s : State)
  | waits (s : State)
  | dead (pa : Nat)
deriving DecidableEq, Repr

/-- No grid: the number that a fill's grid never has for an access of the front end. -/
def noGrid (s : State) : Nat := s.nextId

/-- The context of a filler that an access of the front end starts: no queue's, with no fault buffer. DESIGN CHOICE, log entry
20. -/
def bareCtx (part : Nat) : Ctx :=
  { part := part, queue := 1024, csn := 0, ckey := 0, conf := false, undo := false, record := false, fbase := 0, flg2 := 0
    fserial := 0, undisposed := [], heldRecs := [], frserial := 0, ulog := none, arb := none, replay := none, trace := none
    desc := 0, totals := [], gone := [], unapplied := [] }

/-- Starts the fill of a page for an access of the front end, unless one is under way; or the cause of 0x10 (R231). An access that
finds that the fill it waited for has failed is told so once (R232). DESIGN CHOICE, log entry 20. -/
def startFillQ (s : State) (part space base size va : Nat) : Sum State State :=
  if decide ((part, space, base) ∈ s.failedFills) then
    .inl { s with failedFills := s.failedFills.filter fun f => decide (f ≠ (part, space, base)) }
  else match (mget s.parts part).bind fun p => regenEntry p va with
    | none => .inl s
    | some e =>
      if (fillOf s part space base).isSome then .inr { s with fills := s.fills.map fun f =>
          if f.2.part = part ∧ f.2.space = space ∧ f.2.base = base then (f.1, { f.2 with front := true }) else f }
      else
        let (id, s) := s.fresh
        .inr { s with
          ctxs := mset s.ctxs id (bareCtx part)
          fills := mset s.fills id ⟨part, space, base, size, id, 1, none, true⟩
          launches := mset s.launches id
            { launcher := .fill id, party := none, part := part, space := space, queue := 1024, csn := 0, prio := 3
              depth := 1, recAt := e.lrec, raw := none, params := [BitVec.ofNat 64 base, BitVec.ofNat 64 size, e.arg]
              ctxAt := 0, ctx := some id, sig := 0, dreg := 0 } }

/-- Translates [va, va + n), at most 64 KiB, in an address space for the front end, through die 0's TLB. A page that is
being filled or migrated holds it up (R231, R233). -/
def qRange (s : State) (part space : Nat) (acc : Acc) (va : W64) (n : Nat) : QAcc :=
  if 2 ^ 56 < va.toNat + n then .fault 0x18 s
  else match xlRange s ⟨noGrid s, part, space, 0, 0, 0, 96⟩ acc va.toNat n with
    | .ok segs t bs => .ok segs t (bindAll s bs)
    | .fault c _ _ al => .fault c (noteAlias s al)
    | .regen b z => match startFillQ s part space b z (max va.toNat b) with
      | .inl s => .fault 0x10 s
      | .inr s => .waits s
    | .page _ => .waits s
    | .lines _ => .waits s
    | .dead pa => .dead pa

/-- Whether a memory key is that of a byte of peer memory (R223). -/
def peerKey (key : Nat) : Bool := decide (key / 2 ^ 52 = 3)

/-- What the front end has written to segments in peer memory leaves for its home (R250, R398). -/
def sendPeer (s : State) (segs : List (Nat × Nat)) : State :=
  { s with outbox := s.outbox ++ (segs.filter fun e => peerKey e.1).map fun e => .store (e.1 - memKey 3 0) (readBytes s.mem e.1 e.2) }

/-- Adds to the 8-byte word at a memory key; one in peer memory is asked of its home (R250). -/
def addWord (s : State) (key : Nat) (v : W64) : State :=
  let s := putMem s key (natBytes 8 ((readNat s.mem key 8 + v.toNat) % 2 ^ 64))
  if peerKey key then { s with outbox := s.outbox ++ [.atomic (key - memKey 3 0) 0 8 v.toNat 0] } else s

/-! ### Completion signals (R284, R365, R368) -/

/-- The record of a LAUNCH's signal in an undo context: what its add overwrites, or on a host or peer word the add itself, which
cannot be taken back (R315, R323); none where the log has no room. -/
def signalRecord (s : State) (x : PSig) (tier key : Nat) : Option State :=
  match x.log, x.ctx with
  | some g, some c =>
    if tier = 2 ∨ tier = 3 then irreversible s g c x.unit tier x.sig (natBytes 8 1)
    else undoWrite s g c x.unit 0 x.sig key 8
  | _, _ => some s

/-- Adds 1 to the word of a signal and, for a queue's, writes the status before it; the write carries the sender's clock
(R329). A signal that fails translation or is poisoned is dropped with a health event; one on a page under way waits, as one does
that a full log has no room for: the state without it on the left. DEDUCED, log entry 58. -/
def writeSignal (s : State) (x : PSig) : Sum State State :=
  let n := if x.status.isSome then 16 else 8
  match qRange s x.part x.space .rmw x.sig n with
  | .ok segs tier s =>
    if segsPoisoned s segs then .inr (s.health x.ctx 4 x.unit 0 0x16 x.sig)
    else
      let key := match segs with
        | e :: _ => e.1
        | [] => 0
      match signalRecord s x tier key with
      | none => .inl s
      | some s =>
        let s := match x.status with
          | some v => sendPeer (putMem s (key + 8) (natBytes 4 v.toNat)) [(key + 8, 4)]
          | none => s
        .inr (sendClock (addWord s key 1) x.unit x.part x.sig tier key)
  | .fault c s => .inr (s.health x.ctx 4 x.unit 0 (BitVec.ofNat 64 c) x.sig)
  | .waits s => .inl s
  | .dead _ => .inr (s.health x.ctx 4 x.unit 0 0x10 x.sig)

/-- A signal is written, or waits. -/
def sendSignal (s : State) (x : PSig) : State := match writeSignal s x with
  | .inr s => s
  | .inl s => { s with sigs := s.sigs ++ [x] }

/-- Signals that waited are tried again. -/
def settleSignals (s : State) : State := s.sigs.foldl sendSignal { s with sigs := [] }

/-! ### Timetables (R367, R368) -/

/-- Starts a node: its launch waits to be judged. -/
def launchNode (s : State) (t n : Nat) : State :=
  match mget s.tables t with
  | none => s
  | some x => match x.nodes[n]?, mget s.queues x.queue with
    | some nd, some q =>
      let (id, s) := s.fresh
      let pl : PLaunch :=
        { launcher := .node t n, party := none, part := q.part, space := q.space, queue := x.queue, csn := x.csn
          prio := nd.prio, depth := 1, recAt := nd.lrec, raw := none, params := [], ctxAt := nd.ctx, ctx := none
          sig := nd.sig, dreg := 0 }
      let nodes := x.nodes.set n { nd with launched := true }
      { s with
        launches := mset s.launches id pl
        tables := mset s.tables t { x with nodes := nodes } }
    | _, _ => s

/-- A timetable finishes when no launched node is still running: its signal receives its status, and its place
frees. `unit` and `ctx` are those of the node that ended last. DEDUCED, log entry 54. -/
def settleTable (s : State) (t unit : Nat) (ctx : Option Nat) : State :=
  match mget s.tables t with
  | none => s
  | some x =>
    if x.nodes.any fun n => n.launched && !n.done then s
    else
      let s := { s with tables := mdel s.tables t }
      match mget s.queues x.queue with
      | some q =>
        let s := if x.sig = 0 then s else sendSignal s ⟨unit, ctx, q.part, q.space, x.sig, some x.status, none⟩
        s.raiseQueue x.queue
      | none => s

/-- A node ends with a status: 0 decrements its successors in ascending k, any other status is the table's and nothing
below the node is launched (R368). DEDUCED, log entry 54. -/
def endNode (s : State) (t n : Nat) (status : W32) (unit : Nat) (ctx : Option Nat) : State :=
  match mget s.tables t with
  | none => s
  | some x => match x.nodes[n]? with
    | none => s
    | some nd =>
      let s := { s with tables := mset s.tables t { x with
        nodes := x.nodes.set n { nd with done := true }
        status := if x.status = 0 then status else x.status } }
      let s := if status ≠ 0 then s
        else nd.succ.foldl (fun s k => match mget s.tables t with
          | none => s
          | some x => match x.nodes[k]? with
            | none => s
            | some sn =>
              let s := { s with tables := mset s.tables t { x with nodes := x.nodes.set k { sn with left := sn.left - 1 } } }
              if sn.left = 1 then launchNode s t k else s) s
      settleTable s t unit ctx

/-! ### The completion FIFO (R375) -/

/-- The queue of an entry. -/
def FifoEnt.queue : FifoEnt → Nat
  | .done q _ _ _ _ _ _ _ => q
  | .dec q _ _ _ _ _ => q

/-- Performs an entry. -/
def performFifo (s : State) : FifoEnt → State
  | .done q part space sig status vec unit ctx =>
    let s := if sig = 0 then s else sendSignal s ⟨unit, some ctx, part, space, sig, some status, none⟩
    if vec then s.raiseQueue q else s
  | .dec _ t n status unit ctx => endNode s t n status unit (some ctx)

/-- Whether a queue's completions are held (R375, R376). -/
def State.isHeld (s : State) (q : Nat) : Bool := ((mget s.queues q).map (·.held)).getD false

/-- An entry enters the FIFO: performed at once unless its queue is held. -/
def enterFifo (s : State) (e : FifoEnt) : State :=
  if s.isHeld e.queue then { s with fifo := s.fifo ++ [e] } else performFifo s e

/-- Whether the FIFO has room for n entries (R375). -/
def fifoRoom (s : State) (n : Nat) : Bool := decide (s.fifo.length + n ≤ 4096)

/-- The entries that a grid's completion enters: its own, and a node's decrement. -/
def fifoNeed (l : Launcher) : Nat := match l with
  | .queue _ => 1
  | .node _ _ => 2
  | _ => 0

/-- Performs the held entries of a queue in order and removes them: how many, and the state (R375). -/
def releaseFifo (s : State) (q : Nat) : Nat × State :=
  let mine := s.fifo.filter fun e => decide (e.queue = q)
  let s := { s with fifo := s.fifo.filter fun e => decide (e.queue ≠ q) }
  let s := s.modQueue q fun x => { x with held := false }
  (mine.length, mine.foldl performFifo s)

end Sys2Proof.Machine
end

