-- ==== Sys2Proof/Machine/Retire.lean ====
section
/-! DEFINITION. The ends of things (R80, R82, R112, R283, R326, R365): a team retires, its block completes, a
cluster instance and a grid complete, a grid is retained, released or aborted. -/

namespace Sys2Proof.Machine

/-! ### What frees when -/

/-- Frames of a block's region, or of a cluster instance's pool. -/
def dropFrames (s : State) (g store inst : Nat) : State :=
  { s with frames := s.frames.filter fun e =>
      !decide (fkGrid e.1 = g ∧ e.1 / 2 ^ 48 % 4 = store ∧ e.1 / 2 ^ 16 % 2 ^ 32 = inst) }

/-- Bytes and poison marks of the unit at keys [base, base + 2^56). -/
def dropUnit (s : State) (base : Nat) : State :=
  { s with
    mem := scrubRange s.mem base (2 ^ 56)
    poison := s.poison.filter fun k => !decide (base ≤ k * 64 ∧ k * 64 < base + 2 ^ 56) }

/-- The ring and the checkpoint area of an undo log, scrubbed (R316). -/
def scrubLog (s : State) (u : UndoLog) : State :=
  { s with mem := scrubRange (scrubRange s.mem (memKey 0 u.base) (2 ^ u.lg2)) (memKey 0 u.cbase) ((u.nck + 1) * u.cslot) }

/-- Frees a context that nothing runs under any more. -/
def dropCtx (s : State) (c : Nat) : State :=
  if (s.grids.any fun e => decide (e.2.ctx = c)) ||
      (s.images.any fun e => decide (e.2.grid.map (·.ctx) = some c)) ||
      (s.launches.any fun e => decide (e.2.ctx = some c)) then s
  else match (mget s.ctxs c).bind (·.ulog) with
    | some u => { scrubLog s u with ctxs := mdel s.ctxs c }
    | none => { s with ctxs := mdel s.ctxs c }

/-- Notes the chains that a party which ends has committed in the open grid window (R327). -/
def noteGone (s : State) (p : Party) : State :=
  match s.grid p.gridNo, s.seqOf p with
  | some gr, some q => if s.undoOn gr.ctx then s.modCtx gr.ctx fun x => { x with gone := (p, q.chains) :: x.gone } else s
  | _, _ => s

/-- Frees all that a grid has: its parties and their parts, its grid store, pools and CSM, which are
scrubbed, its sequencer (R165, R248, R326). -/
def dropGrid (s : State) (g : Nat) : State :=
  let ctx := ((s.grid g).map (·.ctx)).getD 0
  let s := dropUnit (dropParts s g (fun _ => true) true) (csmKey g 0)
  dropCtx { s with frames := s.frames.filter fun e => decide (fkGrid e.1 ≠ g) } ctx

/-- Grids that stand under a grid: it, its children and theirs, to a depth of 10. -/
def treeOf (s : State) : Nat → Nat → List Nat
  | 0, g => [g]
  | f + 1, g => g :: ((s.grids.filter fun e => decide (e.2.launcher = .parent g)).map (·.1)).flatMap (treeOf s f)

/-- The page fillers of the context of a grid that no queue, node or LAUNCH has launched: they go with the grid at its root (R231,
R326). -/
def fillersOf (s : State) (g : Nat) : List Nat :=
  match s.grid g with
  | some gr =>
    let filler (l : Launcher) : Bool := match l with
      | .fill _ => true
      | _ => false
    if gr.depth = 1 ∧ !(filler gr.launcher) then
      (s.grids.filter fun e => decide (e.2.ctx = gr.ctx) && filler e.2.launcher).map (·.1)
    else []
  | none => []

/-- Releases a retained grid with every grid retained under it (R326). -/
def releaseTree (s : State) (g : Nat) : State := (treeOf s 10 g ++ fillersOf s g).foldr (fun n s => dropGrid s n) s

/-- Whether the blocks of a grid are all done and nothing of it is left to run or stands stopped (R112, R283, R291). -/
def gridIsDone (s : State) (g : Nat) (gr : Grid) : Bool :=
  decide (gr.doneBlk.length = gr.lrec.grid) && gr.lvl.seq.stop.isNone && (s.clustersOf g).all (fun e => e.2.lvl.seq.stop.isNone) && decide (gr.status = .running) && decide (childrenOf s g = 0) &&
    !(s.launches.any fun e => decide (e.2.launcher = .parent g)) &&
    !(s.images.any fun e => match e.2.grid with
      | some x => decide (x.launcher = .parent g)
      | none => false)

/-- Whether an aborted grid, or one whose work is done, ends now, with what status (R295, R375). -/
def endStatus (s : State) (g : Nat) (gr : Grid) : Option W32 :=
  if gr.aborted then some 0x80 else if gridIsDone s g gr then some 0 else none

/-- Adds 1 to the completion signal of a LAUNCH (R284). -/
def signalParent (s : State) (g : Nat) (gr : Grid) : State :=
  if gr.signal = 0 then s
  else sendSignal s ⟨0x5000 + gr.gseq, some gr.ctx, gr.part, gr.space, gr.signal, none, some g⟩

/-- Says that a grid has ended, once: into the FIFO for a queue's or a node's, to the signal of a LAUNCH, to the
fill it was the filler of. None while the FIFO is full (R326, R365, R375). -/
def announce (s : State) (g : Nat) (gr : Grid) (status : W32) : Option State :=
  if gr.signalled then some s
  else match gr.launcher with
    | .queue q =>
      if fifoRoom s 1 then some (enterFifo s (.done q gr.part gr.space gr.signal status true (0x5000 + gr.gseq) gr.ctx)) else none
    | .node t n =>
      if fifoRoom s 2 then
        some (enterFifo (enterFifo s (.done gr.queue gr.part gr.space gr.signal status true (0x5000 + gr.gseq) gr.ctx))
          (.dec gr.queue t n status (0x5000 + gr.gseq) gr.ctx))
      else none
    | .parent _ => some (signalParent s g gr)
    | .fill id => some { s with fills := mmod s.fills id fun x => { x with
        ended := match x.ended with
          | some false => some false
          | _ => some (decide (status = 0)) } }

/-- The header that is the whole image of a grid that had completed before it was to be saved (R305). -/
def doneHeader (s : State) (g : Nat) (gr : Grid) : BitVec 512 :=
  match mget s.ctxs gr.ctx with
  | some c => imageHeader gr c (s.clock (s.engineOf (.grid g))) 64 0 0 false false 1
  | none => 0

/-- Keeps what a pre-emption in the same clk would write of each grid that completes (R305, R402). -/
def doneNow (s : State) (g : Nat) (gr : Grid) : State :=
  { s with done := (s.done.filter fun d => decide (d.clk = s.clk)) ++ [⟨s.clk, gr.queue, gr.csn, gr.part, doneHeader s g gr,
    ((mget s.ctxs gr.ctx).map (·.conf)).getD false⟩] }

/-- Ends a grid with a status: its trace record, its announcement, and then it is retained in an undo context
and released in another (R326, R340, R365). -/
def endGrid (s : State) (g : Nat) (status : W32) : Option State :=
  (s.grid g).bind fun gr =>
  (announce (s.traceBy gr.ctx (0x5000 + gr.gseq) 6 (natBytes 4 status.toNat ++ natBytes 4 gr.lrec.grid)) g gr status).map
    fun s =>
    let s := noteGone s (.grid g)
    let s := if status = 0 then doneNow s g gr else s
    if s.undoOn gr.ctx && decide (status = 0) then
      s.modGrid g fun x => { x with
        status := .retained, signalled := true, completing := false }
    else dropGrid s g

/-- Completes a grid that is done, then its parents that are done with it. A grid that finds the FIFO full
keeps its sequencer until there is room (R375). -/
def settleGrid : Nat → State → Nat → State
  | 0, s, _ => s
  | f + 1, s, g => match s.grid g with
    | none => s
    | some gr => match endStatus s g gr with
      | none => s
      | some st => match endGrid s g st with
        | some s => match gr.launcher with
          | .parent p => settleGrid f s p
          | _ => s
        | none => s.modGrid g fun x => { x with completing := true }

/-- Completes the grids that waited for room in the FIFO. -/
def settleWaiting (s : State) : State :=
  ((s.grids.filter fun e => e.2.completing).map (·.1)).foldl (fun s g => settleGrid 10 s g) s

/-! ### Blocks (R80, R93, R202, R343) -/

/-- Whether a block completes: no team, no bin with its lanes, no message of this device on its way, and its sequencer not stopped
(R291). DEDUCED, log entry 51. -/
def blockIsDone (s : State) (g b : Nat) : Bool :=
  (s.teamsOf g b).isEmpty && ((s.block g b).map (·.lvl.seq.stop.isNone)).getD true && !(s.bins.any fun e => decide (e.2.grid = g ∧ e.2.blk = b) && !e.2.lanes.isEmpty) &&
    !(s.msgs.any fun e => decide (e.2.grid = g ∧ e.2.blk = b ∧ e.2.dev = none))

/-- A cluster instance whose blocks are all done goes, unless its sequencer stands stopped (R291). -/
def endCluster (s : State) (g k : Nat) : State :=
  match s.grid g, s.cluster g k with
  | some gr, some c =>
    let mine := (List.range 4).map (· + 4 * k)
    if c.lvl.seq.stop.isNone && mine.all fun n => decide (gr.lrec.grid ≤ n ∨ n ∈ gr.doneBlk) then
      let s := noteGone s (.cluster g k)
      let s := { s with clusters := mdel s.clusters (bKey g k) }
      trimRing (if s.undoOn gr.ctx then s else dropFrames s g 1 k) g
    else s
  | _, _ => s

/-- Frees what a block holds, its scratchpad scrubbed; a kind 4 record tells its stall counters. -/
def endBlock (s : State) (g b : Nat) : State :=
  match s.block g b, s.grid g with
  | some x, some gr =>
    let counts := (List.range 16).flatMap fun k => natBytes 8 ((mget x.stall k).getD 0)
    let s := noteGone (s.traceBy gr.ctx x.core 4 (natBytes 8 b ++ counts)) (.block g b)
    let s := dropFrames (dropParts s g (fun n => decide (n = b)) false) g 0 b
    let s := s.modGrid g fun y => { y with doneBlk := sadd1 y.doneBlk b }
    endCluster (trimRing s g) g (instOf b)
  | _, _ => s

/-- Completes a block that is done, and then its grid. -/
def settleBlock (s : State) (g b : Nat) : State :=
  if (s.block g b).isSome && blockIsDone s g b then settleGrid 10 (endBlock s g b) g else s

/-- Completes what a level sequencer that goes on after a stop has kept from completing (R291, R295). -/
def settleAfter (s : State) (g : Nat) : State :=
  let s := (s.blocksOf g).foldl (fun s e => settleBlock s g e.1) s
  settleGrid 10 ((s.clustersOf g).foldl (fun s e => endCluster s g e.1) s) g

/-! ### TEAM_RETIRE (R82) -/

/-- Frees a team's slot: its spill area is scrubbed, ARDs that would write its registers are forgotten. DEDUCED, log entry
50. -/
def dropTeam (s : State) (g b t : Nat) : State :=
  let p : Party := .team g b t
  let ard (m : MatEnt) : Bool := decide (m.party = p) && (match m.ins with
    | .ard .. => true
    | _ => false)
  let s := noteGone s p
  -- an arrival that the team has made stays counted (R271)
  let s := s.modBlock g b fun x => { x with bars := x.bars.map fun e => (e.1, e.2.keep t) }
  dropUnit { s with
    teams := mdel s.teams (tKey g b t)
    matq := (s.matq.map fun e => (e.1, e.2.filter fun m => !(ard m))).filter fun e => !e.2.isEmpty } (spillKey g b t 0)

/-- What follows a team's retirement: lifts and rendezvous count it no more, barriers and the stranded check
are looked at, its block completes when it was the last (R84, R271, R273). -/
def notifyBlock (s : State) (g b : Nat) : State :=
  let s := fillLifts s (.block g b)
  let s := fillLifts s (.cluster g (instOf b))
  let s := fillLifts s (.grid g)
  let s := strandCheck (barSettleAll s g b) g b
  settleBlock s g b

/-- Returns the frames that a team still owns, innermost first (R82): how far it comes in one step. -/
inductive Returned where
  | all (s : State)
  | waits (s : State)
  | stalled

/-- Returns frames of the team's call stack until one must wait. -/
def returnFrames (p : Party) : Nat → State → Returned
  | 0, s => .all s
  | f + 1, s => match mkCx s p 0 false, (s.seqOf p).map (·.calls) with
    | some c, some (e :: rest) =>
      let pop (s : State) : State := s.modSeq p fun q => { restoreDisp q e with calls := rest }
      match e.frame with
      | none => returnFrames p f (pop s)
      | some h => match returnFrame c s h with
        | .retired s => returnFrames p f (pop s)
        | .waits s _ => .waits s
        | .stalled => .stalled
    | _, _ => .all s

/-- The last part of R82: contributions are published, frames returned, the hash checked, the slot freed. `stop` is how the
EXIT faults. -/
def leaveTeam (s : State) (p : Party) (gr : Grid) (g b t : Nat) (stop : State → FInfo → State) : Option State :=
  let s0 := s
  let s := publishAll s p gr.ctx (s.engineOf p) g b (instOf b)
  if unpublished s p g b (instOf b) then some (stop s { cls := 0x52 })
  else match returnFrames p 17 s with
    | .stalled => some (stop s { cls := 0x52 })
    | .waits s => if s = s0 then none else some (holdParty s p .exit)
    | .all s => match hashCheck s gr.ctx g b t with
      | .inl u => some (stop s { cls := u.cls })
      | .inr s => some (notifyBlock (dropTeam s g b t) g b)

/-- A team whose last group has exited retires in the order of R82. -/
def execTeamRetire (p : Party) (s : State) : Out :=
  happens s <|
    match p, s.grid p.gridNo with
    | .team g b t, some gr => (s.team g b t).bind fun x =>
      if !x.exiting || !(s.acts p) || (x.flags.any fun f => decide (f.count ≠ 0)) then none
      else
        let slot := x.seq.alone.getD 0
        let stop (s : State) (f : FInfo) : State :=
          takeFault (s.modTeam g b t fun y => { y with exiting := false }) p
            { f with slot := slot, scope := some .lane, kind := .alone slot }
        match (List.range 12).find? fun i => match x.flags[i]? with
          | some f => !f.faults.isEmpty
          | none => false with
        | some i => (deliverFlag s g b t i).map fun e => stop e.2 e.1
        | none =>
          if !x.storeQ.isEmpty || !x.loads.isEmpty then none
          else
            let keys := lastKeys s p g b (instOf b)
            match if s.recordOn gr.ctx then gateAll s gr.ctx 3 keys (reqOf p) else .go with
            | .held => if x.seq.wait = some (.hall 3 keys slot) then none else some (holdParty s p (.hall 3 keys slot))
            | .diverge => some (stop s { cls := 0x53 })
            | .full => some (stop s { cls := 0x52 })
            | .go => leaveTeam s p gr g b t stop
    | _, _ => none

/-! ### Aborting (R295) -/

/-- The entries in a stopping team's store queue have been committed: they are performed (R295, R312). -/
def drainTeam (p : Party) : Nat → State → State
  | 0, s => s
  | f + 1, s => match p, s.grid p.gridNo with
    | .team g b t, some gr => match s.team g b t with
      | some x => match x.storeQ with
        | e :: _ => match writeEntry s gr g b x.core e with
          | some s => drainTeam p f (popStore s p)
          | none => s
        | [] => s
      | none => s
    | _, _ => s

/-- The store queues of a grid's teams are performed. -/
def drainGrid (s : State) (g : Nat) : State :=
  (s.gridTeams g).foldl (fun s e =>
    drainTeam (.team g e.1 e.2) (((s.team g e.1 e.2).map (·.storeQ.length)).getD 0) s) s

/-- The serials of the stops of grids, saved ones and copies included. -/
def stopsIn (s : State) (ns : List Nat) : List Nat :=
  ((ns.flatMap fun g => (s.partiesOf g).filterMap fun p => (s.seqOf p).bind (·.stop)).map (·.serial)) ++
  ((s.images.filter fun e => decide (e.2.gid ∈ ns)).flatMap fun e =>
    (e.2.seqs.filterMap (·.stop)).map (·.serial) ++ e.2.copies.filterMap (·.stop)) ++
  (s.copies.filter fun e => decide (e.2.party.gridNo ∈ ns)).filterMap (·.2.stop)

/-- Disposes of stops at once: their entries free, and every record that was held for want of one is written in its turn
(R294). -/
def disposeAll (c : Nat) (serials : List Nat) : Nat → State → State
  | 0, s => s
  | f + 1, s =>
    let s := s.modCtx c fun x => { x with undisposed := x.undisposed.filter fun n => decide (n ∉ serials) }
    match mget s.ctxs c with
    | some x => if x.heldRecs.isEmpty then s else disposeAll c serials f (writeHeld c x.heldRecs.length s)
    | none => s

/-- What is left of an aborted grid until it is announced: its sequencer and its store. -/
def stripGrid (s : State) (g : Nat) : State :=
  match s.grid g with
  | some gr =>
    let s := dropUnit (dropParts s g (fun _ => true) true) (csmKey g 0)
    { s with grids := mset s.grids g { gr with lrec := { gr.lrec with csm := 0 }, aborted := true, status := .aborted } }
  | none => s

/-- Ends a grid and those under it with status 0x80: their committed stores stand, their records are written, their copies,
messages, launches and images go with them (R294, R295). Its own announcement is made, where the FIFO is full when it has room
(R375), but no longer those of grids under it. -/
def abortTree (s : State) (g : Nat) : State :=
  -- grids of the tree that stand saved count as standing here
  let home : Option Nat := ((s.grid g).orElse fun _ => s.images.findSome? fun e => if e.2.gid = g then e.2.grid else none).map (·.ctx)
  let s := s.images.foldl (fun s e => match e.2.grid with
    | some x => if some x.ctx = home then { s with grids := mset s.grids e.2.gid x } else s
    | none => s) s
  let ns := treeOf s 10 g ++ fillersOf s g
  let s : State := ns.foldl drainGrid s
  let stops := stopsIn s ns
  let s : State := { s with
    launches := s.launches.filter fun e => !(match e.2.launcher with
      | .parent p => decide (p ∈ ns)
      | _ => false)
    msgs := s.msgs.filter fun e => decide (e.2.grid ∉ ns)
    images := s.images.filter fun e => decide (e.2.gid ∉ ns) }
  let s : State := match home with
    | some c => disposeAll c stops (((mget s.ctxs c).map fun x => x.heldRecs.length).getD 0 + 2) s
    | none => s
  match s.grid g with
  | none => s
  | some gr =>
    let s := ns.tail.foldr (fun n s => dropGrid s n) s
    if gr.status = .retained then dropGrid s g
    else settleGrid 10 (stripGrid s g) g

end Sys2Proof.Machine
end

