-- ==== Sys2Proof/Machine/Launch.lean ====
section
/-! DEFINITION. Launching (R112, R150, R151, R283, R284, R363 to R368): reading and checking a launch record and
a context descriptor, residency, acceptance or refusal, the start of a timetable. -/

namespace Sys2Proof.Machine

/-! ### The launch record (R363) -/

/-- A record of 320 bytes as a launch reads it. -/
def parseLaunch (bs : List Byte) : LaunchRec :=
  let h := bytesNat (bs.take 64)
  let f (lo len : Nat) : Nat := nfield h lo len
  { csm := f 256 32, scratch := f 224 16, cctl := decide (f 212 1 = 1), gctl := decide (f 211 1 = 1)
    record := decide (f 210 1 = 1), undo := decide (f 209 1 = 1), cmode := decide (f 208 1 = 1), nbar := f 200 8
    tiles := f 192 8, nteam := f 184 8, regs := f 176 8, team := f 160 16, grid := f 128 32
    endpkt := BitVec.ofNat 32 (f 96 32), entry := BitVec.ofNat 32 (f 64 32), base := BitVec.ofNat 64 (f 0 64)
    params := (List.range 16).map fun i => BitVec.ofNat 64 (bytesNat ((bs.drop (64 + 8 * i)).take 8))
    fmts := (List.range 8).map fun i => BitVec.ofNat 128 (bytesNat ((bs.drop (192 + 16 * i)).take 16)) }

/-- A limit of R363 broken or a reserved bit set. -/
def recordBad (bs : List Byte) (r : LaunchRec) : Bool :=
  let h := bytesNat (bs.take 64)
  decide (nfield h 288 224 ≠ 0 ∨ nfield h 240 16 ≠ 0 ∨ nfield h 213 11 ≠ 0) ||
    decide (8192 < r.scratch ∨ 96 < r.nbar ∨ 32 < r.tiles ∨ r.nteam = 0 ∨ 16 < r.nteam ∨ r.regs < 8 ∨ 128 < r.regs ∨
      r.team = 0 ∨ 1024 < r.team ∨ r.team % 32 ≠ 0 ∨ r.grid = 0 ∨ r.endpkt.toNat ≤ r.entry.toNat ∨
      r.base.toNat % 4096 ≠ 0)

/-- A format slot that is neither unbound nor valid (R151). -/
def fmtBad (x : BitVec 128) : Bool :=
  let n := x.toNat
  let ty := nfield n 0 4
  let group := nfield n 8 4
  let zpw := nfield n 12 4
  let pack := nfield n 16 4
  !(decide (n = 0) || (decide (nfield n 4 4 = 0 ∧ nfield n 20 108 = 0) && (match ty with
    | 1 | 2 | 3 | 4 => decide (group = 0 ∧ zpw = 0 ∧ pack = 0)
    | 5 => decide (zpw = 8 ∧ 1 ≤ group ∧ group ≤ 3 ∧ pack ≤ 1)
    | 6 => decide (zpw = 4 ∧ 1 ≤ group ∧ group ≤ 3 ∧ pack ≤ 1)
    | _ => false)))

/-! ### Residency (R112, R124, R164, R182, R270) -/

/-- The clusters of a partition by a mask of its record. -/
def maskClusters (r : BitVec 512) (lo : Nat) : List Nat := (List.range 24).filter fun k => r.getLsbD (lo + k)
/-- Guaranteed and margin clusters (R384). -/
def ownClusters (r : BitVec 512) : List Nat := maskClusters r 32 ++ maskClusters r 64

/-- Blocks of a kernel that one empty core holds. -/
def coreHolds (l : LaunchRec) : Nat :=
  let by_ (have_ need : Nat) : Nat := if need = 0 then 16 else have_ / need
  [16, by_ 32 l.nteam, by_ 2048 (l.nteam * granulesOf l.regs l.team), by_ 8192 (blockLines l),
    by_ 96 l.nbar, if l.tiles = 0 then 16 else 2].foldl min 16

/-- Whether a partition holds every block, or cluster instance, of a grid at once. The partition's own clusters
count, those it has lent among them; borrowed ones do not (R112, R387). -/
def canHoldAll (p : Part) (l : LaunchRec) : Bool :=
  let n := (ownClusters p.record).length
  if l.cmode then decide ((l.grid + 3) / 4 ≤ n * min 4 (coreHolds l)) else decide (l.grid ≤ 4 * n * coreHolds l)

/-- A block exceeds a core (reason 5). -/
def blockTooBig (l : LaunchRec) : Bool :=
  decide (2048 < l.nteam * granulesOf l.regs l.team ∨ 2 ^ 20 < l.scratch * 128 + frameRegion l.nteam l.team)

/-- Addressable CSM of a partition, in bytes (R247, R386). -/
def csmOf (p : Part) : Nat := (maskClusters p.record 32).length * 4 * pfield p.record 8 4 * 2 ^ 19

/-- CSM bytes that grids of a partition hold, saved ones that left theirs in place among them (R248, R306). -/
def usedCsm (s : State) (part : Nat) : Nat :=
  ((s.grids.filter fun e => decide (e.2.part = part)).map fun e => e.2.lrec.csm * 64).sum +
  (s.images.map fun e => match e.2.grid with
    | some g => if g.part = part ∧ !e.2.csmPart then g.lrec.csm * 64 else 0
    | none => 0).sum

/-- The lowest free grid sequencer of the 64 (R12). -/
def freeGseq (s : State) : Option Nat :=
  (List.range 64).find? fun n => !(s.grids.any fun e => decide (e.2.gseq = n))

/-! ### The context descriptor (R316, R339, R366) -/

/-- Whether the page at a virtual address is present in tier 1 at the physical address that follows on from `pa`, with a key of the
partition's and no frame aliased (R226, R227, R366): the bytes of the page from the address on. -/
def tier1Page (s : State) (space : Nat) (p : Part) (va pa : Nat) : Option Nat :=
  match walkPage s.mem p.record space va with
  | .leaf e z => match useLeaf s p.record va e z true with
    | .ok 0 a _ => if a = pa then some (z - va % z) else none
    | _ => none
  | _ => none

/-- Whether n bytes from a virtual address lie on such pages; fuel bounds the pages. -/
def tier1Span (s : State) (space : Nat) (p : Part) : Nat → Nat → Nat → Nat → Bool
  | 0, _, _, n => decide (n = 0)
  | f + 1, va, pa, n =>
    if n = 0 then true
    else match tier1Page s space p va pa with
      | some z => tier1Span s space p f (va + z) (pa + z) (n - z)
      | none => false

/-- The physical address of an area that a descriptor names by its virtual address: aligned, every page of it present in tier 1, one
behind the other, within the partition's tier 1 range. DEDUCED, log entry 52. -/
def ringAt (s : State) (space : Nat) (p : Part) (va align size : Nat) : Option Nat :=
  if va % align ≠ 0 ∨ 2 ^ 56 < va + size then none
  else match walkPage s.mem p.record space va with
    | .leaf e z =>
      let pa := (e.extractLsb' 16 36).toNat * 2 ^ 16 + va % z
      if pa % align = 0 ∧ inTier p.record 0 pa size ∧ tier1Span s space p (size / 65536 + 2) va pa size then some pa else none
    | _ => none

/-- The undo log of a descriptor; none where R316 refuses it. The fields that the device writes are held here, not in the
descriptor. DEDUCED, log entry 109. -/
def parseUndo (s : State) (space : Nat) (p : Part) (l : LaunchRec) (d : Nat) : Option UndoLog :=
  let lg2 := nfield d 454 6
  let mode := nfield d 452 2
  let nck := nfield d 448 4
  let cslot := nfield d 32 32 * 4096
  if lg2 < 26 ∨ 36 < lg2 ∨ 2 ≤ mode ∨ nfield d 308 12 ≠ 0 ∨ nfield d 0 32 ≠ 0 ∨ cslot < imax l then none
  else
    (ringAt s space p (nfield d 460 52) (2 ^ lg2) (2 ^ lg2)).bind fun base =>
    (ringAt s space p (nfield d 256 52) 1 ((nck + 1) * cslot)).map fun cbase =>
    { base := base, lg2 := lg2, stall := decide (mode = 1), nck := nck, cbase := cbase, cslot := cslot, head := 0
      tail := 0, horizon := 0, oldwin := 0, newwin := 0, dropped := 0, irrev := 0, ckpts := []
      owners := [] }

/-- The trace buffer of a descriptor: none at all with lg2 0; the outer none where it is not valid. -/
def parseTrace (s : State) (space : Nat) (p : Part) (d : Nat) : Option (Option TraceBuf) :=
  let lg2 := nfield d 455 5
  let period := nfield d 450 5
  if nfield d 448 2 ≠ 0 ∨ nfield d 0 224 ≠ 0 then none
  else if lg2 = 0 then some none
  else if lg2 < 16 ∨ 30 < lg2 ∨ (period ≠ 0 ∧ (period < 10 ∨ 24 < period)) then none
  else (ringAt s space p (nfield d 460 52) (2 ^ lg2) (2 ^ lg2)).map fun base =>
    some { base := base, lg2 := lg2, period := period, write := 0, consume := nfield d 320 64, starts := [], lost := 0
           serial := 0, lastLost := false }

/-- The eight breakpoint entries of a descriptor; none where one has a reserved bit set. Every 32-bit PC names a
packet below 2^30 (R47). -/
def parseBrks (bs : List Byte) : Option (List Brkpt) :=
  let es := (List.range 8).map fun e => bytesNat (((bs.drop (192 + 8 * e))).take 8)
  if es.any fun x => decide (nfield x 37 3 ≠ 0 ∨ nfield x 41 23 ≠ 0) then none
  else some (es.map fun x => ⟨BitVec.ofNat 32 (nfield x 0 32), BitVec.ofNat 5 (nfield x 32 5), decide (nfield x 40 1 = 1)⟩)

/-- The context that a descriptor's 256 bytes describe, its breakpoint entries and all-stop bit; none for reason 8. -/
def parseCtx (s : State) (pl : PLaunch) (p : Part) (l : LaunchRec) (bs : List Byte) (desc : Nat) :
    Option (Ctx × List Brkpt × Bool) :=
  let h := bytesNat (bs.take 64)
  let flg2 := nfield h 64 6
  let rlg2 := nfield h 192 6
  let ckey := nfield h 72 8
  if pl.ctxAt = 0 ∨ pl.ctxAt.toNat % 64 ≠ 0 ∨ !(inKeySet p.record ckey) ∨ nfield h 198 314 ≠ 0 ∨ nfield h 80 48 ≠ 0 ∨
      flg2 < 12 ∨ 24 < flg2 then none
  else
    (parseBrks bs).bind fun brks =>
    (ringAt s pl.space p (nfield h 0 64) (2 ^ flg2) (2 ^ flg2)).bind fun fbase =>
    (parseTrace s pl.space p (bytesNat ((bs.drop 128).take 64))).bind fun trace =>
    (if l.undo then (parseUndo s pl.space p l (bytesNat ((bs.drop 64).take 64))).map some else some none).bind fun ulog =>
    (if l.record then
      (if rlg2 < 24 ∨ 34 < rlg2 then none
        else (ringAt s pl.space p (nfield h 128 64) (2 ^ rlg2) (2 ^ rlg2)).map fun b => some (ArbLog.mk b rlg2 0 [] []))
      else some none).map fun arb =>
    ({ part := pl.part, queue := pl.queue, csn := pl.csn, ckey := BitVec.ofNat 8 ckey
       conf := decide (nfield h 70 1 = 1), undo := l.undo, record := l.record, fbase := fbase, flg2 := flg2, fserial := 0
       undisposed := [], heldRecs := [], frserial := 0, ulog := ulog, arb := arb, replay := none, trace := trace
       desc := desc + 128, totals := [], gone := [], unapplied := [] }, brks, decide (nfield h 71 1 = 1))

/-! ### Judging (R364) -/

/-- What judging a launch comes to. -/
inductive Verdict where
  | waits (s : State)
  | refused (status : W32) (s : State)
  | go (l : LaunchRec) (new : Option Ctx) (brks : List Brkpt) (allstop : Bool) (s : State)
  | dead (pa : Nat)

/-- Reads bytes for a launch: what they are, or why not (reason 9). -/
def launchRead (s : State) (pl : PLaunch) (va : W64) (n : Nat) (k : List Byte → Nat → State → Verdict) : Verdict :=
  let class9 (c : Nat) (s : State) : Verdict := .refused (BitVec.ofNat 32 (9 + 256 * c)) s
  match qRange s pl.part pl.space .load va n with
  | .ok segs _ s =>
    if segsPoisoned s segs then class9 0x16 s
    else k (readSegs s.mem segs) (match segs with
      | e :: _ => e.1
      | [] => 0) s
  | .fault c s => class9 c s
  | .waits s => .waits s
  | .dead pa => .dead pa

/-- What checking the completion signal of a queue's or a node's launch comes to (reason 11): the class that refuses it, the
state while its page is under way, or the state it leaves. -/
inductive SigCheck where
  | bad (cls : Nat)
  | waits (s : State)
  | good (s : State)

def signalBad (s : State) (pl : PLaunch) : SigCheck :=
  match pl.launcher with
  | .queue _ | .node _ _ =>
    if pl.sig = 0 then .good s
    else if pl.sig.toNat % 16 ≠ 0 then .bad 0
    else match qRange s pl.part pl.space .rmw pl.sig 16 with
      | .fault c _ => .bad c
      | .waits s => .waits s
      | .ok _ _ s => .good s
      | .dead _ => .bad 0x10
  | _ => .good s

/-- Whether a launch that waits has found CSM short: what an earlier launch of its partition must be for CSM to go to it first
(R248, R364). Its record is read as it stands. DEDUCED, log entry 55. -/
def shortOfCsm (s : State) (p : Part) (pl : PLaunch) : Bool :=
  let short (bs : List Byte) : Bool :=
    let n := (parseLaunch bs).csm * 64
    decide (n ≠ 0 ∧ n ≤ csmOf p ∧ csmOf p < usedCsm s pl.part + n)
  match pl.raw with
  | some bs => short bs
  | none => match qRange s pl.part pl.space .load pl.recAt 320 with
    | .ok segs _ s => short (readSegs s.mem segs)
    | _ => false

/-- Checks 6 to 10, then whether the grid can be accepted now. A child waits for a place among 255; a launch that needs CSM waits
behind earlier ones of its partition that wait for CSM (R248, R283). DEDUCED, log entry 55. -/
def lastChecks (s : State) (id : Nat) (pl : PLaunch) (p : Part) (l : LaunchRec) (new : Option Ctx) (brks : List Brkpt)
    (allstop : Bool) : Verdict :=
  let refuse (reason cls : Nat) : Verdict := .refused (BitVec.ofNat 32 (reason + 256 * cls)) s
  let crowded : Bool := match pl.launcher with
    | .parent g => decide (255 ≤ childrenOf s g)
    | _ => false
  match signalBad s pl with
  | .bad c => refuse 11 c
  | .waits s => .waits s
  | .good s =>
    if l.cctl && !l.cmode then refuse 4 0
    else if l.gctl && !(canHoldAll p l) then refuse 3 0
    else if blockTooBig l then refuse 5 0
    else if csmOf p < l.csm * 64 then refuse 6 0
    else if (freeGseq s).isNone ∨ csmOf p < usedCsm s pl.part + l.csm * 64 ∨
        (l.csm ≠ 0 ∧ s.launches.any fun e => decide (e.1 < id ∧ e.2.part = pl.part) && shortOfCsm s p e.2) ∨ crowded then .waits s
    else .go l new brks allstop s

/-- Judges a launch in the order of R364. DEDUCED, log entry 53. -/
def judge (s : State) (id : Nat) (pl : PLaunch) : Verdict :=
  match mget s.parts pl.part with
  | none => .refused 9 s
  | some p =>
    let go (bs : List Byte) (_ : Nat) (s : State) : Verdict :=
      let l := parseLaunch bs
      let l := { l with params := pl.params ++ l.params.drop pl.params.length }
      if pl.recAt.toNat % 64 ≠ 0 ∨ recordBad bs l then .refused 1 s
      else match l.fmts.findIdx? fmtBad with
        | some k => .refused (BitVec.ofNat 32 (2 + 256 * 0x22 + 2 ^ 16 * k)) s
        | none => match pl.ctx with
          | some c =>
            -- a child and a filler run in the context they come from, with its flags
            let x := mget s.ctxs c
            let l := { l with undo := (x.map (·.undo)).getD false, record := (x.map (·.record)).getD false }
            let from_ : Option Grid := match pl.launcher with
              | .parent g => (s.grid g).orElse fun _ => (s.images.findSome? fun e => if e.2.gid = g then e.2.grid else none)
              | _ => (s.grids.find? fun e => decide (e.2.ctx = c)).map (·.2)
            lastChecks s id pl p l none ((from_.map (·.brks)).getD []) ((from_.map (·.allstop)).getD false)
          | none => launchRead s pl pl.ctxAt 256 fun cs desc s => match parseCtx s pl p l cs desc with
            | none => .refused 8 s
            | some (x, brks, stop) => lastChecks s id pl p l (some x) brks stop
    match pl.raw with
    | some bs => go bs 0 s
    | none => launchRead s pl pl.recAt 320 go

/-! ### Acceptance and refusal -/

/-- The instruction caches of the cluster and grid sequencers drop a partition's lines (R50). DEDUCED, log entry 38. -/
def coldDies (s : State) (part : Nat) : State := { s with icache := s.icache.filter fun e => decide (e.core < 96 ∨ e.part ≠ part) }

/-- The level-0 frame of a grid: its parameters, read-only and sealed from the start (R171). -/
def Frame.level0 (serial : W32) (params : List W64) : Frame :=
  { Frame.fresh serial 0 noFrame .grid 0 with
    modes := List.replicate 16 1, sealed := true, slots := params }

/-- Gives the launcher the status of its launch: s[D] of a LAUNCH, kd and the dispatch window of a queue, the
timetable of a node, the fill of a filler. A refused node has no grid sequencer: where its refusal finishes the timetable, the
signal carries the identity and clock of grid sequencer 0. DESIGN CHOICE, log entry 54. -/
def giveStatus (s : State) (pl : PLaunch) (id : Nat) (status : W32) : State :=
  let s := { s with launches := mdel s.launches id }
  match pl.launcher with
  | .parent _ => match pl.party with
    | some (.team g b t) =>
      -- its chain commits with the status; the parent may have been saved meanwhile (R275)
      let w : Wait := .launched pl.dreg (status.setWidth 64)
      let f (x : Team) : Team := { x with seq := { x.seq with wait := some w, began := some w } }
      let s := s.modTeam g b t f
      { s with images := s.images.map fun e => (e.1, { e.2 with teams := mmod e.2.teams (tKey g b t) f }) }
    | _ => s
  | .queue q => match mget s.queues q with
    | some x =>
      completeCommand (enterWindow s q pl.csn (status.setWidth 64)) q (movePos (x.img.setReg pl.dreg (status.setWidth 64)) 1)
    | none => s
  | .node t n => if status = 0 then s else endNode s t n (BitVec.ofNat 32 (0x81 + 2 ^ 16 * n)) 0x5000 none
  | .fill f =>
    if status = 0 then s
    else
      let s := { s with fills := mmod s.fills f fun x => { x with ended := some false } }
      match pl.ctx with
      | some c => dropCtx s c
      | none => s

/-- Accepts a launch: its grid has a sequencer, its store and its CSM, zeroed; an undo context opens window 0
(R165, R248, R320, R364). -/
def acceptGrid (s : State) (id : Nat) (pl : PLaunch) (l : LaunchRec) (new : Option Ctx) (brks : List Brkpt)
    (allstop : Bool) : State :=
  let (c, s) := match new, pl.ctx with
    | some x, _ => (id, { s with ctxs := mset s.ctxs id x })
    | none, some c => (c, s)
    | none, none => (id, s)
  let serial := ((mget s.ctxs c).map (·.frserial)).getD 0
  let s := s.modCtx c fun x => { x with frserial := x.frserial + 1 }
  let gseq := (freeGseq s).getD 0
  let gr : Grid :=
    { lrec := l, lvl := Lvl.start (mkPc l.entry.toNat 0) 4, ring := [], ringBase := 0, part := pl.part, space := pl.space
      queue := pl.queue, csn := pl.csn, prio := pl.prio, depth := pl.depth, launcher := pl.launcher, gseq := gseq
      signal := pl.sig, ctx := c, brks := brks, allstop := allstop, nextBlk := 0, doneBlk := [], status := .running
      frozen := false, msgdrop := 0, counters := [], signalled := false, completing := false, owed := none, aborted := false }
  let s := { dropUnit (coldDies s pl.part) (csmKey id 0) with
    grids := mset s.grids id gr
    frames := mset s.frames (fKey id 2 0 0) (Frame.level0 serial l.params) }
  let s := s.traceBy c (0x5000 + gseq) 6 (natBytes 4 0xFFFFFFFF ++ natBytes 4 l.grid)
  if new.isSome && l.undo then openWindow s id c 0 .grid 0 (0x5000 + gseq) else s

/-- The acceptance of a LAUNCH carries the clock of the child's sequencer to the core that waits for it (R329). -/
def tellParent (s : State) (id : Nat) (pl : PLaunch) : State :=
  match pl.party, s.grid id with
  | some p, some gr =>
    let s := s.bump (0x5000 + gr.gseq)
    match s.coreOf p with
    | some core => s.receive core (s.clock (0x5000 + gr.gseq))
    | none => s
  | _, _ => s

/-- Judges a waiting launch and carries the verdict out: none while it waits, as it does on a device in error (R412). -/
def tryLaunch (s : State) (id : Nat) : Option State :=
  if s.reg.isDown then none
  else (mget s.launches id).bind fun pl => match judge s id pl with
    | .waits s' => if s'.fills ≠ s.fills then some s' else none
    | .dead _ => none
    | .refused st s => some (giveStatus s pl id st)
    | .go l new brks stop s => some (giveStatus (tellParent (acceptGrid s id pl l new brks stop) id pl) pl id 0)

/-- GRID_LAUNCH_ACCEPT: a launch that waits is judged: accepted, or refused with its status (R364). -/
def execGridLaunchAccept (id : Nat) (s : State) : Out :=
  match (mget s.launches id).map (judge s id) with
  | some (.dead pa) => .fault (.noSuchMemory pa)
  | _ => happens s (tryLaunch s id)

/-! ### Timetables -/

/-- A node of a timetable's bytes (R367). -/
def parseNode (x : Nat) : TNode :=
  { lrec := BitVec.ofNat 64 (nfield x 0 64), ctx := BitVec.ofNat 64 (nfield x 64 64), sig := BitVec.ofNat 64 (nfield x 128 64)
    prio := nfield x 224 2, left := nfield x 192 16
    succ := (List.range (nfield x 220 4)).map fun k => nfield x (256 + 16 * k) 16, launched := false, done := false }

/-- Whether a node has a reserved bit set or more than 8 successors. -/
def nodeBad (x : Nat) : Bool :=
  decide (nfield x 384 128 ≠ 0 ∨ nfield x 226 30 ≠ 0 ∨ nfield x 208 12 ≠ 0 ∨ 8 < nfield x 220 4)

/-- Nodes that a topological walk reaches: n rounds, each taking the nodes all of whose predecessors are taken. -/
def reached (nodes : List TNode) : Nat → List Nat → List Nat
  | 0, l => l
  | f + 1, l =>
    let free (i : Nat) : Bool := decide (i ∉ l) && (List.range nodes.length).all fun j =>
      decide (j ∈ l) || !((nodes[j]?.map (·.succ)).getD []).contains i
    reached nodes f (l ++ (List.range nodes.length).filter free)

/-- A timetable that R368 refuses with reason 10. -/
def tableBad (nodes : List TNode) : Bool :=
  let n := nodes.length
  let refs (i : Nat) : Nat := ((nodes.flatMap (·.succ)).filter (· = i)).length
  (nodes.any fun x => x.succ.any fun k => decide (n ≤ k)) ||
    ((List.range n).any fun i => decide ((nodes[i]?.map (·.left)).getD 0 ≠ refs i)) ||
    decide ((reached nodes n []).length ≠ n)

end Sys2Proof.Machine
end

