-- ==== Sys2Proof/Machine/Place.lean ====
section
/-! DEFINITION. Placement (R73, R93, R182, R202, R270, R387), pre-emption and restoring (R275, R300 to R306), page
fills that end and migration (R231 to R234). -/

namespace Sys2Proof.Machine

/-! ### Where a block fits -/

/-- What a block takes of a core, with the detached teams that it brings along: the lanes of each (R73, R124, R164). -/
structure Need where
  lrec : LaunchRec
  detached : List Nat
deriving DecidableEq, Repr

/-- Where the register granules and the lines of a block and of its detached teams fit on a core: launched teams' first
granules, detached teams' first granules, the block's first line, detached teams' first lines (R124, R202). -/
def spaceFor (s : State) (core : Nat) (n : Need) : Option (List Nat × List Nat × Nat × List Nat) :=
  let l := n.lrec
  let mine := List.replicate l.nteam (granulesOf l.regs l.team)
  (fitRuns 2048 (mine ++ n.detached.map (granulesOf l.regs)) (usedGranules s core)).bind fun gs =>
  (fitRuns 8192 (blockLines l :: n.detached.map (· / 2)) (usedLines s core)).map fun ls =>
    (gs.take l.nteam, gs.drop l.nteam, ls.headD 0, ls.drop 1)

/-- Whether a core has what a block needs: a bin that is due there and could form goes first (R78). -/
def coreFits (s : State) (core : Nat) (n : Need) : Bool :=
  let l := n.lrec
  let here := coreBlocks s core
  let bars := (here.map fun e => ((recOf s (bkGrid e.1)).map (·.nbar)).getD 0).sum
  let banks := (here.filter fun e => e.2.mctx.isSome).length
  decide (here.length < 16 ∧ (takenSlots s core).length + l.nteam + n.detached.length ≤ 32 ∧
    bars + l.nbar ≤ 96 ∧ (l.tiles = 0 ∨ banks < 2)) && (spaceFor s core n).isSome && !binsDue s core

/-- Whether blocks of a grid may stand on a cluster: its partition's own that is not lent, or one lent to it
where the grid has no wide control; none that is being revoked (R387, R388). -/
def clusterAllows (s : State) (gr : Grid) (cl : Nat) : Bool :=
  let mine := match mget s.parts gr.part with
    | some p => decide (cl ∈ ownClusters p.record) && (mget p.lent cl).isNone
    | none => false
  let lent := !gr.lrec.gctl && !gr.lrec.cctl && s.parts.any fun e =>
    decide (mget e.2.lent cl = some gr.part) && !decide (cl ∈ e.2.revoking)
  mine || lent

/-- The slots that a block's teams take, in ascending team order (R73). -/
def slotsFor : Nat → List Nat → List Nat
  | 0, _ => []
  | n + 1, taken => match bestSlot taken with
    | some k => k :: slotsFor n (k :: taken)
    | none => []

/-- The lower-numbered free matrix context of a core (R182). -/
def freeBank (s : State) (core : Nat) : Option Nat :=
  (List.range 2).find? fun k => !((coreBlocks s core).any fun e => decide (e.2.mctx = some k))

/-- Placement leaves the instruction cache and the record cache of a core empty (R50, R217). -/
def coldCore (s : State) (core : Nat) : State :=
  { s with
    icache := s.icache.filter fun e => decide (e.core ≠ core)
    rcache := s.rcache.filter fun e => decide (e.core ≠ core) }

/-- Places block b of a grid on a core: its lines zero and present, its bank zero, its teams at their kernel's
entry (R73, R74, R93, R182, R202, R270). -/
def placeOn (s : State) (g : Nat) (gr : Grid) (core b : Nat) : State :=
  let l := gr.lrec
  let used : List Nat := (coreBlocks s core).map (·.2.slot)
  let slot := ((List.range 16).find? fun n => decide (n ∉ used)).getD 0
  let at_ := (spaceFor s core ⟨l, []⟩).getD ([], [], 0, [])
  let blk : Blk :=
    { lvl := Lvl.start (mkPc l.entry.toNat 0) 8, core := core, slot := slot, inst := if l.cmode then instOf b else 0
      mctx := if l.tiles = 0 then none else freeBank s core, bars := [], absent := [], held := [], failed := []
      tiles := [], tbad := [], stall := [], grans := at_.1, line := at_.2.2.1
      carry := [] }
  let slots := slotsFor l.nteam (takenSlots s core)
  let s := dropUnit s (scrKey g b 0)
  let s := { coldCore s core with blocks := mset s.blocks (bKey g b) blk }
  slots.zipIdx.foldl (fun s e =>
    let s := dropUnit s (spillKey g b e.2 0)
    let t := Team.start core e.1 l.team (mkPc l.entry.toNat 0)
    { s with teams := mset s.teams (tKey g b e.2) { t with gran := at_.1[e.2]?.getD 0 } }) s

/-- Cluster instances on a cluster, of any grid. -/
def clusterSlots (s : State) (cl : Nat) : List Nat := (s.clusters.filter fun e => decide (e.2.cluster = cl)).map (·.2.slot)

/-- The blocks of an instance of a grid. -/
def instBlocks (l : LaunchRec) (k : Nat) : List Nat := ((List.range 4).map (· + 4 * k)).filter fun b => decide (b < l.grid)

/-- Places the next block of a free-mode grid on a core, or its next cluster instance on the cluster that the
core begins; none where it does not fit. -/
def placeNext (s : State) (g core : Nat) : Option State :=
  (s.grid g).bind fun gr =>
  let l := gr.lrec
  let b := gr.nextBlk
  if 96 ≤ core ∨ l.grid ≤ b ∨ !(clusterAllows s gr (core / 4)) then none
  else if l.cmode then
    let k := instOf b
    let bs := instBlocks l k
    if core % 4 = 0 ∧ (clusterSlots s (core / 4)).length < 4 ∧
        ((List.range bs.length).all fun i => coreFits s (core + i) ⟨l, []⟩) then
      let slot := ((List.range 4).find? fun n => decide (n ∉ clusterSlots s (core / 4))).getD 0
      let c : Clus := ⟨Lvl.start (mkPc l.entry.toNat 0) 4, core / 4, slot⟩
      let s := { s with clusters := mset s.clusters (bKey g k) c }
      let s := bs.foldl (fun s n => placeOn s g gr (core + (n - 4 * k)) n) s
      some (s.modGrid g fun x => { x with nextBlk := b + bs.length })
    else none
  else if coreFits s core ⟨l, []⟩ then some ((placeOn s g gr core b).modGrid g fun x => { x with nextBlk := b + 1 })
  else none

/-! ### Images -/

/-- Saves a grid whole, or those blocks of it that `pick` selects (R300, R301): open chunks close, the parts
move into an image under a fresh number. The CSM part is wanted only of an image that holds every block (R306). -/
def saveParts (s : State) (g : Nat) (pick : Nat → Bool) (whole auto : Bool) (csm : Bool) (addr : Option (Nat × W64)) :
    Nat × State :=
  let s := match s.grid g with
    | some gr => closeOpens s gr.ctx
    | none => s
  let i := imageOf s g pick whole 0
  let (id, s) := s.fresh
  let s := dropParts s g pick whole
  let all := whole && decide (i.grid.map (·.lrec.grid) = some i.blocks.length)
  (id, { s with images := mset s.images id { i with auto := auto, csmWanted := csm && all, addr := addr } })

/-- Saves a grid and its live children, each as an image of its own (R300). -/
def saveTree (s : State) (g : Nat) (auto csm : Bool) (addr : Option (Nat × W64)) : State :=
  (treeOf s 10 g).foldl (fun s n =>
    if ((s.grid n).map (·.status)) = some .retained then s
    else (saveParts s n (fun _ => true) true auto csm (if n = g then addr else none)).2) s

/-- PREEMPTION: a grid whose pre-emption was requested is saved at the boundaries where its parties stand; the
scheduler restores it later (R300, R324). -/
def execPreemption (g : Nat) (s : State) : Out :=
  happens s <|
    (s.grid g).bind fun gr => if gr.status = .saving then some (saveTree s g true false none) else none

/-- The CSM allocation of an image's grid is written into the image where it is wanted, and freed (R306). -/
def copyCsm (s : State) (img : Nat) : State :=
  match mget s.images img with
  | none => s
  | some i =>
    if !i.csmWanted || i.grid.isNone then s
    else
      let mine (k : Nat) : Bool := decide (csmKey i.gid 0 ≤ k ∧ k < csmKey i.gid 0 + 2 ^ 56)
      let bytes := (i.bytes ++ s.mem.filter fun e => mine e.1).insertionSort fun x y => x.1 ≤ y.1
      let poison := (s.poison.filter fun k => mine (k * 64)).foldl sadd1 i.poison
      let more := (i.grid.map fun g => g.lrec.csm * 64).getD 0
      let hdr := (i.hdr ||| BitVec.ofNat 512 (2 ^ 13)) + BitVec.ofNat 512 (more * 2 ^ 448)
      let new : Image := { i with bytes := bytes, poison := poison, hdr := hdr, csmPart := true, csmWanted := false }
      dropUnit { s with images := mset s.images img new } (csmKey i.gid 0)

/-- CSM_PART_COPY_COMPLETE: the allocation has been written into the image and is freed (R306). -/
def execCsmPartCopyComplete (img : Nat) (s : State) : Out :=
  happens s <|
    (mget s.images img).bind fun i => if !i.csmWanted || i.grid.isNone then none else some (copyCsm s img)

/-- Merges tables of different keys. -/
def mjoin {α : Type} (m : AMap α) (l : AMap α) : AMap α := l.foldl (fun m e => mset m e.1 e.2) m

/-- Bytes of an image, written back. -/
def putCells (m : Memory) (l : Memory) : Memory := l.foldl (fun m e => putByte m e.1 e.2) m

/-- Rewrites the engine of the record that a party stands stopped with, while it is held (R303). -/
def rewriteEngine (s : State) (ctx : Nat) (p : Party) : State :=
  match (s.seqOf p).bind (·.stop) with
  | some st => s.modCtx ctx fun x => { x with heldRecs := mmod x.heldRecs st.serial fun r =>
      (r &&& ~~~(BitVec.ofNat 512 (0xFFFF * 2 ^ 160))) ||| BitVec.ofNat 512 (s.engineOf p * 2 ^ 160) }
  | none => s

/-- The same for a copy that stands stopped (R303, R324). -/
def rewriteCopy (s : State) (ctx : Nat) (c : Copy) : State :=
  match c.stop with
  | some n => s.modCtx ctx fun x => { x with heldRecs := mmod x.heldRecs n fun r =>
      (r &&& ~~~(BitVec.ofNat 512 (0xFFFF * 2 ^ 160))) ||| BitVec.ofNat 512 (s.engineOf c.party * 2 ^ 160) }
  | none => s

/-- What a restored party's wait becomes: it is evaluated again from its descriptor when the party issues; a BAR that has
arrived, a LAUNCH under way and EXIT's waits stand (R274, R303). -/
def restoredSeq (q : Seq) : Seq := { q with wait := keptWait q.wait }

/-- Every copy residue of an image is registered again, ahead of any team's issue, whether or not the lock table has room for its
entries; each goes on when its team stands on a core (R212). DESIGN CHOICE, log entry 119. -/
def registerResidues (s : State) (img : Nat) : State :=
  match mget s.images img with
  | none => s
  | some i =>
    let s := { s with images := mset s.images img { i with copies := [] } }
    i.copies.foldl (fun s c =>
      let (id, s) := s.fresh
      { s with copies := mset s.copies id { c with started := false } }) s

/-- Puts the grid part of an image back: a sequencer, its store, and its CSM part where it has one. None while no
sequencer is free, or CSM is short (R303, R306). -/
def restoreGrid (s : State) (img : Nat) : Option State :=
  (mget s.images img).bind fun i => i.grid.bind fun gr =>
  (freeGseq s).bind fun n =>
  (mget s.parts gr.part).bind fun p =>
  if s.reg.isDown ∨ i.csmWanted ∨ (i.csmPart ∧ csmOf p < usedCsm s gr.part + gr.lrec.csm * 64) then none
  else
    let csm (k : Nat) : Bool := i.csmPart && decide (csmKey i.gid 0 ≤ k ∧ k < csmKey i.gid 0 + 2 ^ 56)
    let stamp := i.hdr.extractLsb' 384 64
    let rest : Image := { i with
      grid := none, auto := true, csmPart := false, addr := none
      frames := i.frames.filter fun e => decide (e.1 / 2 ^ 48 % 4 ≠ 2)
      bytes := i.bytes.filter fun e => !(csm e.1), poison := i.poison.filter fun k => !(csm (k * 64)) }
    let st := if gr.status = GStatus.retained then GStatus.retained else GStatus.running
    -- its saved children follow
    let child (e : Nat × Image) : Nat × Image :=
      if (e.2.grid.map (·.launcher)) = some (.parent i.gid) then (e.1, { e.2 with auto := true }) else e
    let s := { s with
      grids := mset s.grids i.gid { gr with gseq := n, status := st }
      frames := mjoin s.frames (i.frames.filter fun e => decide (e.1 / 2 ^ 48 % 4 = 2))
      mem := putCells s.mem (i.bytes.filter fun e => csm e.1)
      poison := (i.poison.filter fun k => csm (k * 64)).foldl sadd1 s.poison
      images := (mset s.images img rest).map child }
    let s := s.modGrid i.gid fun x => { x with lvl := { x.lvl with seq := restoredSeq x.lvl.seq } }
    some (registerResidues (rewriteEngine (coldDies (s.receive (0x5000 + n) stamp) gr.part) gr.ctx (.grid i.gid)) img)

/-- Parts of an image that belong to block b. -/
structure BlockPart where
  teams : AMap Team
  frames : AMap Frame
  bytes : Memory
  poison : NSet
  bins : List Bin
  mats : List MatEnt

/-- What an image holds for a block, and the image without it. -/
def Image.takeBlock (i : Image) (b : Nat) : BlockPart × Image :=
  let mineT (e : Nat × Team) : Bool := decide (e.1 / 16 = bKey i.gid b)
  let mineF (e : Nat × Frame) : Bool := decide (e.1 / 2 ^ 48 % 4 = 0 ∧ e.1 / 2 ^ 16 % 2 ^ 32 = b)
  let mineByte (k : Nat) : Bool := decide (byteBlk k = some (i.gid, b))
  let mineM (m : MatEnt) : Bool := decide (partyBlk m.party = some b)
  let mats := i.mats.flatMap (·.2)
  ({ teams := i.teams.filter mineT, frames := i.frames.filter mineF, bytes := i.bytes.filter fun e => mineByte e.1
     poison := i.poison.filter fun k => mineByte (k * 64), bins := i.bins.filter fun y => decide (y.blk = b)
     mats := mats.filter mineM },
   { i with
     blocks := mdel i.blocks (bKey i.gid b), teams := i.teams.filter fun e => !(mineT e)
     frames := i.frames.filter fun e => !(mineF e), bins := i.bins.filter fun y => decide (y.blk ≠ b)
     mats := [(0, mats.filter fun m => !(mineM m))], bytes := i.bytes.filter fun e => !(mineByte e.1)
     poison := i.poison.filter fun k => !(mineByte (k * 64)) })

/-- What a saved block needs of a core. -/
def Image.need (i : Image) (l : LaunchRec) (b : Nat) : Need :=
  ⟨l, (i.teams.filter fun e => decide (e.1 / 16 = bKey i.gid b) && e.2.detached).map fun e => e.2.nlane⟩

/-- The teams of a saved block as they stand on their new core: slots in ascending team order (R73), detached teams with their
granules and spill lines (R124, R164). -/
def seatTeams (core : Nat) : List ((Nat × Team) × Nat) → List Nat → List Nat → List Nat → AMap Team
  | [], _, _, _ => []
  | ((k, x), slot) :: rest, gs, dg, dl =>
    let x := { x with core := core, slot := slot, seq := restoredSeq x.seq, since := none, aged := 0 }
    if x.detached then (k, { x with gran := dg.headD 0, line := dl.headD 0 }) :: seatTeams core rest gs (dg.drop 1) (dl.drop 1)
    else (k, { x with gran := gs[k % 16]?.getD 0 }) :: seatTeams core rest gs dg dl

/-- Adds counts that a restored block has carried to those of its grid on its core (R344). -/
def addCounts (s : State) (g core : Nat) (l : AMap Nat) : State := l.foldl (fun s e => s.count g core e.1 e.2) s

/-- Puts saved block b of an image on a core: its parts come back with new slots, its matrix residues at the head of its
context's queue (R188, R303). -/
def restoreBlock (s : State) (img g b core : Nat) : State :=
  let s := registerResidues s img
  match mget s.images img, s.grid g with
  | some i, some gr =>
    match mget i.blocks (bKey g b) with
    | none => s
    | some x =>
      let (part, rest) := i.takeBlock b
      let at_ := (spaceFor s core (i.need gr.lrec b)).getD ([], [], 0, [])
      let teams := seatTeams core (part.teams.zip (slotsFor part.teams.length (takenSlots s core))) at_.1 at_.2.1 at_.2.2.2
      let used : List Nat := (coreBlocks s core).map (·.2.slot)
      let bank := if gr.lrec.tiles = 0 then none else freeBank s core
      let blk : Blk := { x with
        core := core, slot := ((List.range 16).find? fun n => decide (n ∉ used)).getD 0, mctx := bank
        grans := at_.1, line := at_.2.2.1, carry := [], lvl := { x.lvl with seq := restoredSeq x.lvl.seq } }
      let free := (List.range 16).filter fun n => (mget s.bins (core * 16 + n)).isNone
      let mq := match bank with
        | some k => if part.mats.isEmpty then s.matq
            else mset s.matq (2 * core + k) (part.mats ++ (mget s.matq (2 * core + k)).getD [])
        | none => s.matq
      let s := { coldCore s core with
        blocks := mset s.blocks (bKey g b) blk
        teams := mjoin s.teams teams
        frames := mjoin s.frames part.frames
        mem := putCells s.mem part.bytes
        poison := part.poison.foldl sadd1 s.poison
        bins := (part.bins.zip free).foldl (fun m e => mset m (core * 16 + e.2) e.1) s.bins
        matq := mq
        images := if rest.blocks.isEmpty ∧ rest.clusters.isEmpty ∧ rest.grid.isNone then mdel s.images img
          else mset s.images img rest }
      let s := addCounts s g core x.carry
      let ps := .block g b :: teams.map fun e => Party.team g b (e.1 % 16)
      let s := ps.foldl (fun s p => rewriteEngine s gr.ctx p) s
      let s := (s.copies.filter fun e => decide (e.2.party.gridNo = g ∧ partyBlk e.2.party = some b)).foldl
        (fun s e => rewriteCopy s gr.ctx e.2) s
      s.receive core (i.hdr.extractLsb' 384 64)
  | _, _ => s

/-- Lanes' bins of a saved block must find free bins on the core. -/
def binsFit (s : State) (core : Nat) (i : Image) (b : Nat) : Bool :=
  decide ((i.bins.filter fun x => decide (x.blk = b)).length ≤
    ((List.range 16).filter fun n => (mget s.bins (core * 16 + n)).isNone).length)

/-- What restoring the next part of an image that the scheduler holds comes to: its grid part; a cluster instance with its
blocks on the cluster that the core begins; a block on a core (R275, R303). DEDUCED, log entry 57. -/
def restoreNext (s : State) (img core : Nat) : Option State :=
  (mget s.images img).bind fun i =>
  -- a block that waiting ones were saved for is placed first (R275)
  if !i.auto || ((s.grid i.gid).bind (·.owed)).isSome then none
  else if i.grid.isSome then restoreGrid s img
  else (s.grid i.gid).bind fun gr =>
    if 96 ≤ core ∨ !(clusterAllows s gr (core / 4)) ∨ gr.status ≠ .running then none
    else if gr.lrec.cmode then match i.clusters with
      | (key, c) :: more =>
        let k := key % 2 ^ 32
        let bs := (i.blocks.map fun e => e.1 % 2 ^ 32).filter fun b => decide (instOf b = k)
        if core % 4 = 0 ∧ (clusterSlots s (core / 4)).length < 4 ∧
            (bs.all fun b => coreFits s (core + b % 4) (i.need gr.lrec b) && binsFit s (core + b % 4) i b) then
          let slot := ((List.range 4).find? fun n => decide (n ∉ clusterSlots s (core / 4))).getD 0
          let pool (e : Nat × Frame) : Bool := decide (e.1 / 2 ^ 48 % 4 = 1 ∧ e.1 / 2 ^ 16 % 2 ^ 32 = k)
          let rest : Image := { i with clusters := more, frames := i.frames.filter fun e => !(pool e) }
          let s := { s with
            clusters := mset s.clusters key { c with
              cluster := core / 4, slot := slot, lvl := { c.lvl with seq := restoredSeq c.lvl.seq } }
            frames := mjoin s.frames (i.frames.filter pool)
            images := if rest.blocks.isEmpty ∧ rest.clusters.isEmpty then mdel s.images img else mset s.images img rest }
          let s := rewriteEngine (coldDies s gr.part) gr.ctx (.cluster i.gid k)
          let s := s.receive (0x6000 + core / 4) (i.hdr.extractLsb' 384 64)
          some (bs.foldl (fun s b => restoreBlock s img i.gid b (core + b % 4)) s)
        else none
      | [] => some { s with images := mdel s.images img }
    else match i.blocks with
      | (key, _) :: _ =>
        let b := key % 2 ^ 32
        if coreFits s core (i.need gr.lrec b) && binsFit s core i b then some (restoreBlock s img i.gid b core) else none
      | [] => some { s with images := mdel s.images img }

/-- Follows a restore: the held records of what now stands restored are written (R303); a grid none of whose blocks was left to
restore may be done. -/
def afterRestore (s : State) (img g : Nat) : State :=
  match s.grid g with
  | some gr =>
    let s := writeHeld gr.ctx (((mget s.ctxs gr.ctx).map (·.heldRecs.length)).getD 0) s
    if (mget s.images img).isNone then settleGrid 10 s g else s
  | none => s

/-- SAVED_BLOCK_RESTORE. -/
def execSavedBlockRestore (img core : Nat) (s : State) : Out :=
  happens s <|
    (mget s.images img).bind fun i => (restoreNext s img core).map fun s => afterRestore s img i.gid

/-- BLOCK_PLACEMENT: saved blocks that could be restored go before (R275). -/
def execBlockPlacement (g core : Nat) (s : State) : Out :=
  happens s <|
    if !(s.live g) || s.images.any fun e => (restoreNext s e.1 core).isSome then none
    else (placeNext s g core).map fun s => s.modGrid g fun x => { x with owed := none }

/-! ### FORWARD_PROGRESS_SAVE (R275) -/

/-- A party in a scheduler-visible wait that holds it now (R274): one that is ready, as after its barrier's phase, waits no more, and
the hall monitor's hold is no such wait. -/
def waits (s : State) (p : Party) : Bool :=
  let ready : Bool := match p with
    | .team g b t => ((s.team g b t).bind (·.since)).isSome
    | _ => false
  match s.seqOf p with
  | some q => q.stop.isNone && !ready && (match q.wait with
      | some (.notReady _) | some (.launched ..) | some (.hall ..) => false
      | some (.bar k ph n) => asleep s p (.bar k ph n)
      | some _ => true
      | none => false)
  | none => true

/-- Every team of a block waits. -/
def blockWaits (s : State) (g b : Nat) : Bool := (s.teamsOf g b).all fun e => waits s (.team g b e.1)

/-- Saves the most recently placed waiting blocks of a grid that cannot place its next block; or, asked with a
blk past its blocks, the whole of a parent whose child finds no grid sequencer. -/
def execForwardProgressSave (g blk : Nat) (s : State) : Out :=
  happens s <|
    (s.grid g).bind fun gr =>
    let bs := (s.blocksOf g).map (·.1)
    if !(s.live g) || !(bs.all (blockWaits s g)) || bs.isEmpty then none
    else if blk < gr.lrec.grid then
      let last := bs.foldl max 0
      let pick (n : Nat) : Bool := if gr.lrec.cmode then decide (instOf n = instOf blk) else decide (n = blk)
      if gr.nextBlk < gr.lrec.grid ∧ pick last ∧ ((List.range 96).all fun c => (placeNext s g c).isNone) then
        some ((saveParts s g pick false true false none).2.modGrid g fun x => { x with owed := some gr.nextBlk })
      else none
    else if (freeGseq s).isNone ∧ s.launches.any fun e => decide (e.2.launcher = .parent g) then
      some (saveTree s g true false none)
    else none

/-! ### REGEN_FILL_COMPLETE (R231, R232) -/

/-- Where the page table holds the leaf of an address: its memory key. -/
def leafFrom (mem : Memory) (va : Nat) : List (Nat × Nat) → Nat → Nat → Option Nat
  | [], _, _ => none
  | (sh, bits) :: rest, tier, pa =>
    let at_ := memKey tier (pa + 8 * (va / 2 ^ sh % 2 ^ bits))
    let e : W64 := BitVec.ofNat 64 (readNat mem at_ 8)
    if e.getLsbD 1 then some at_
    else if e.getLsbD 0 then
      leafFrom mem va rest (if e.getLsbD 2 then 1 else 0) ((e.extractLsb' 8 44).toNat * 256)
    else none

def leafKey (mem : Memory) (r : BitVec 512) (space va : Nat) : Option Nat :=
  let root := r.extractLsb' (256 + 64 * space) 64
  if root.getLsbD 0 then
    leafFrom mem va walkLevels (if root.getLsbD 1 then 1 else 0) ((root.extractLsb' 11 41).toNat * 2 ^ 11)
  else none

/-- Wakes what is parked on a page: accesses check again, or learn that the fill has failed (R231, R232). -/
def wakePage (s : State) (part space base size : Nat) (failed : Bool) : State :=
  let here (g : Nat) : Bool := match s.grid g with
    | some gr => decide (gr.part = part ∧ gr.space = space)
    | none => false
  let wake (q : Seq) : Seq := match q.wait with
    | some (.parked ls vas fs) =>
      let here (v : W64) : Bool := decide (base ≤ v.toNat ∧ v.toNat < base + size)
      if vas.any here then
        let vas := vas.filter fun v => !(here v)
        let fs := if failed then fs ++ [(base, size)] else fs
        { q with wait := if ls.isEmpty && vas.isEmpty && fs.isEmpty then none else some (.parked ls vas fs) }
      else q
    | _ => q
  let ps := (s.grids.map (·.1)).flatMap fun g => if here g then s.partiesOf g else []
  let s := ps.foldl (fun s p => s.modSeq p wake) s
  let mark (e : Nat × Copy) : Nat × Copy :=
    if here e.2.party.gridNo ∧ e.2.parkedOn = some base then
      (e.1, { e.2 with parkedOn := none, failedFill := if failed then some (base, size) else e.2.failedFill }) else e
  { s with copies := s.copies.map mark }

def execRegenFillComplete (id : Nat) (s : State) : Out :=
  happens s <|
    (mget s.fills id).bind fun f => f.ended.map fun good =>
    let s := { s with fills := mdel s.fills id }
    let leaf : Option Nat := (mget s.parts f.part).bind fun p => match walkPage s.mem p.record f.space f.base with
      | .regen _ _ => leafKey s.mem p.record f.space f.base
      | _ => none
    let s := match leaf with
      | some k => if good then { s with mem := putByte s.mem k (byteAt s.mem k ||| 1) } else s
      | none => s
    -- a filler that completes without the page becoming present has failed (R232)
    let present : Bool := match (mget s.parts f.part).map fun p => walkPage s.mem p.record f.space f.base with
      | some (.leaf _ _) => true
      | _ => false
    let failed := !(good && present)
    let s := if failed && f.front then { s with failedFills := s.failedFills ++ [(f.part, f.space, f.base)] } else s
    -- nobody disposes of a filler of the front end that has failed (log entry 20)
    let bare : Bool := match s.grid f.grid with
      | some x => decide (x.queue = 1024)
      | none => false
    let s := if failed && bare then abortTree s f.grid else s
    wakePage s f.part f.space f.base f.size failed

/-! ### MIGRATION_PAGE (R233, R234) -/

/-- Moves the bytes and poison of [src, src + n) to dst, where they replace what stood there; the source reads
zero and its key tags are free again. -/
def moveFrames (s : State) (src dst n : Nat) : State :=
  let inS (k : Nat) : Bool := decide (src ≤ k ∧ k < src + n)
  let cells := s.mem.filter fun e => inS e.1
  let bad := s.poison.filter fun k => inS (k * 64)
  { s with
    mem := cells.foldl (fun m e => putByte m (e.1 - src + dst) e.2) (scrubRange (scrubRange s.mem src n) dst n)
    poison := bad.foldl (fun l k => sadd1 l (k - src / 64 + dst / 64)) (s.poison.filter fun k =>
      !(inS (k * 64)) && !decide (dst ≤ k * 64 ∧ k * 64 < dst + n))
    keyTags := s.keyTags.filter fun e => !(inS (e.1 * 65536)) }

/-- A team's queued stores, outstanding loads and sleep, which were checked before the page was marked, follow its bytes
(R233). -/
def Team.reaim (t : Team) (src dst n tier : Nat) : Team :=
  let inS (k : Nat) : Bool := decide (src ≤ k ∧ k < src + n)
  let mv (k : Nat) : Nat := if inS k then k - src + dst else k
  let ent (e : StoreEnt) : StoreEnt := if inS e.key then { e with
      key := mv e.key, tier := tier, heals := e.heals.map fun g => mv (g * 64) / 64 } else e
  let wait : Option Wait := match t.seq.wait with
    | some (.mem a k x c g d) => some (.mem a k x c (mv (g * 64) / 64) d)
    | w => w
  { t with
    storeQ := t.storeQ.map ent
    loads := t.loads.map fun l => { l with parts := l.parts.map fun p => { p with key := mv p.key } }
    seq := { t.seq with wait := wait } }

/-- The same for every team, saved ones included. -/
def reaimAll (s : State) (src dst n tier : Nat) : State :=
  let f (e : Nat × Team) : Nat × Team := (e.1, e.2.reaim src dst n tier)
  { s with
    teams := s.teams.map f
    images := s.images.map fun e => (e.1, { e.2 with teams := e.2.teams.map f }) }

/-- Frames of a tier for a page: where the device's allocator puts it is open (log entry 22); no frame that
a key tag is bound to. -/
def allocFrames (s : State) (p : Part) (tier size : Nat) : Option (Nat × State) :=
  let (n, s) := s.draw
  let (b, z) := if tier < 2 then tierRange p.record tier else (0, 2 ^ 52)
  -- the device area stays the device's own (R165)
  let z := if tier = 0 then z - 2 ^ 20 else z
  let first := (b + size - 1) / size
  let count := (b + z) / size - first
  if count = 0 then none
  else
    let pa := (first + n % count) * size
    if (List.range (size / 65536)).any fun i => (mget s.keyTags (tagKey tier (pa + 65536 * i))).isSome then none
    else some (pa, s)

/-- The leaf of a page with another tier and frame (R225). -/
def moveLeaf (e : W64) (tier pa : Nat) : W64 :=
  BitVec.ofNat 64 ((e &&& ~~~(BitVec.ofNat 64 ((2 ^ 36 - 1) * 2 ^ 16 + 3 * 2 ^ 9))).toNat + pa / 65536 * 65536 + tier * 2 ^ 9)

/-- Ends a migration request: its register tells 0, or the page and the class that aborted it, and its queue
goes on (R234, R359); vector 0 of the partition's function is raised (R391). -/
def endMigr (s : State) (id : Nat) (m : Migr) (status : W64) : State :=
  let s := State.raise { s with migrs := mdel s.migrs id } (m.part + 1) 0
  match mget s.queues m.queue with
  | some x =>
    let s := enterWindow s m.queue m.csn status
    if m.reg < 16 then completeCommand s m.queue (movePos (x.img.setReg m.reg status) 1) else s
  | none => s

/-- One step of a migration: its next page is marked and its TLB entries go; or the page under way is copied, its
leaf rewritten and its source freed. An address that meets no leaf is named by its 64 KiB page. -/
def execMigrationPage (id : Nat) (s : State) : Out :=
  happens s <|
    (mget s.migrs id).bind fun m => (mget s.parts m.part).bind fun p =>
    match m.marked with
    | none =>
      let abort (size cls : Nat) (s : State) : Option State := some (endMigr s id m (BitVec.ofNat 64 (m.next / size * size + cls)))
      match walkPage s.mem p.record m.space m.next with
      | .leaf e size => match useLeaf s p.record m.next e size (permitted e .load) with
        | .ok _ _ _ => (allocFrames s p m.tier size).map fun a =>
          let base := m.next / size * size
          { a.2 with
            migrs := mset s.migrs id { m with marked := some (base, size), dest := a.1 }
            tlb := s.tlb.filter fun t => !decide (t.part = m.part ∧ t.space = m.space ∧ t.base = base) }
        | .fault c _ al => abort size c (noteAlias s al)
        | _ => abort size 0x10 s
      | .regen _ size => abort size 0x10 s
      | _ => abort 65536 0x10 s
    | some (base, size) =>
      match walkPage s.mem p.record m.space base, leafKey s.mem p.record m.space base with
      | .leaf e _, some k =>
        let src := memKey (e.extractLsb' 9 2).toNat ((e.extractLsb' 16 36).toNat * 2 ^ 16)
        let bads := s.poison.filter fun n => decide (src ≤ n * 64 ∧ n * 64 < src + size)
        let (n, s) := s.draw
        let s := match bads with
          | [] => s
          | b :: _ => s.healthPart m.part 2 (0x2000 + n % 16) bads.length (BitVec.ofNat 64 (b * 64 - src + base))
              (BitVec.ofNat 64 (b * 64 - src + base))
        let s := reaimAll (moveFrames s src (memKey m.tier m.dest) size) src (memKey m.tier m.dest) size m.tier
        let s := { s with mem := writeNat s.mem k 8 (moveLeaf e m.tier m.dest).toNat }
        let m' : Migr := { m with marked := none, next := base + size }
        let s := { s with migrs := mset s.migrs id m' }
        let s := wakePage s m.part m.space base size false
        some (if m.last < base + size then endMigr s id m' 0 else s)
      | _, _ => some (endMigr s id m (BitVec.ofNat 64 (base + 0x10)))

end Sys2Proof.Machine
end

