-- ==== Sys2Proof/Machine/Commands.lean ====
section
/-! DEFINITION. Queue commands but for ctrl (R357 to R361, R373), as the firmware's loop of R370 performs them: each
is one step of the queue whose turn it is, from its newest journal image to the next. -/

namespace Sys2Proof.Machine

/-- What performing a dispatched command comes to: a value, a queue fault (R362), or a wait. -/
inductive DispRes where
  | done (v : W64) (s : State)
  | fault (code : Nat) (s : State)
  | waits (s : State)
  | dead (pa : Nat)

/-- Whether a core serves a queue at its newest image now: not stopped or faulted, at a command, no wait armed. -/
def Queue.served (x : Queue) (j : JImg) : Bool := !(unserved j) && x.hasWork j && x.armed.isNone

/-- The queue whose turn it is, with its newest image. -/
def withQueue (s : State) (f : Nat → Queue → JImg → Out) : Out :=
  match s.turn with
  | .queue q => match mget s.queues q with
    | some x => match x.newest with
      | some j => if x.served j then f q x j else .next s
      | none => .next s
    | none => .refused .noParty
  | _ => .refused .noParty

/-- A command that only changes the image, and then moves on. -/
def simply (s : State) (f : JImg → JImg) : Out :=
  withQueue s fun q _ j => .next (completeCommand s q (movePos (f j) 1))

/-- A dispatched command: its result stands in the dispatch window already, or it is performed now and enters
it, that of one which breaks a rule as kdisp returns it (R371, R373); `post` puts the result into the image. -/
def dispatched (s : State) (perf : Nat → Queue → JImg → DispRes) (post : W64 → JImg → JImg) : Out :=
  withQueue s fun q x j =>
    match x.window.find? fun e => decide (e.1 = j.csn) with
    | some e => .next (completeCommand s q (movePos (post e.2 j) 1))
    | none => match perf q x j with
      | .done v s => .next (completeCommand (enterWindow s q j.csn v) q (movePos (post v j) 1))
      | .fault code s => .next (queueFault (enterWindow s q j.csn (BitVec.ofNat 64 (2 ^ 63 + code))) q code)
      | .waits s' => .next s'
      | .dead pa => .fault (.noSuchMemory pa)

/-! ### Registers -/

def execCmdNop (s : State) : Out := simply s id
def execLdi (a : BitVec 4) (imm : BitVec 44) (s : State) : Out :=
  simply s fun j => j.setReg a.toNat (imm.signExtend 64)
def execLdhi (a : BitVec 4) (imm : BitVec 20) (s : State) : Out :=
  simply s fun j => j.setReg a.toNat (imm ++ (j.reg a.toNat).extractLsb' 0 44 : BitVec 64)
def execAdd (a b c : BitVec 4) (s : State) : Out :=
  simply s fun j => j.setReg a.toNat (j.reg b.toNat + j.reg c.toNat)
def execAddi (a b : BitVec 4) (imm : BitVec 44) (s : State) : Out :=
  simply s fun j => j.setReg a.toNat (j.reg b.toNat + imm.signExtend 64)

/-! ### Accesses -/

/-- An aligned 8-byte access of a command: QALIGN, QACCESS, or what follows (R359, R362). -/
def qWord (s : State) (x : Queue) (acc : Acc) (va : W64) (k : Nat → Nat → State → DispRes) : DispRes :=
  if va.toNat % 8 ≠ 0 then .fault 5 s
  else match qRange s x.part x.space acc va 8 with
    | .ok segs t s' =>
      if decide (acc ≠ .store) && segsPoisoned s' segs then .fault 4 s'
      else match segs with
        | (key, _) :: _ => k key t s'
        | [] => .fault 4 s'
    | .fault _ s => .fault 4 s
    | .waits s => .waits s
    | .dead pa => .dead pa

/-- Carries out a command that the owning core executes itself and that may break a rule (R362). -/
def finish (q : Nat) (r : DispRes) (post : W64 → JImg) : Out :=
  match r with
  | .done v s => .next (completeCommand s q (post v))
  | .fault code s => .next (coreFault s q code)
  | .waits s' => .next s'
  | .dead pa => .fault (.noSuchMemory pa)

def execCmdLd (a b : BitVec 4) (imm : BitVec 44) (s : State) : Out :=
  withQueue s fun q x j =>
    finish q (qWord s x .load (j.reg b.toNat + imm.signExtend 64) fun key _ s =>
      .done (BitVec.ofNat 64 (readNat s.mem key 8)) s) fun v => movePos (j.setReg a.toNat v) 1

/-- A store of the front end; one to a peer leaves the device. -/
def qStore (s : State) (key : Nat) (v : W64) : State := sendPeer (putMem s key (natBytes 8 v.toNat)) [(key, 8)]

/-- st, performed. -/
def doSt (s : State) (x : Queue) (va v : W64) : DispRes :=
  qWord s x .store va fun key _ s => .done 0 (qStore s key v)

def execCmdSt (a b : BitVec 4) (imm : BitVec 44) (s : State) : Out :=
  dispatched s (fun _ x j => doSt s x (j.reg b.toNat + imm.signExtend 64) (j.reg a.toNat)) fun _ j => j

/-- signal, performed: a write or an atomic add, which a peer's word takes at its home (R250), and which carries the clock of the
owning core (R329). -/
def doSignal (s : State) (x : Queue) (add : Bool) (va v : W64) : DispRes :=
  qWord s x (if add then .rmw else .store) va fun key t s =>
    .done 0 (sendClock (if add then addWord s key v else qStore s key v) (0x3000 + x.core) x.part va t key)

def execSignalWrite (a b : BitVec 4) (s : State) : Out :=
  dispatched s (fun _ x j => doSignal s x false (j.reg a.toNat) (j.reg b.toNat)) fun _ j => j
def execSignalAdd (a b : BitVec 4) (s : State) : Out :=
  dispatched s (fun _ x j => doSignal s x true (j.reg a.toNat) (j.reg b.toNat)) fun _ j => j

/-! ### Branches and buffers (R360) -/

/-- Moves by n commands, or QBRANCH: forward in the ring, within 0 to kb − 1 in a buffer. -/
def branchTo (j : JImg) (n : Int) : Option JImg :=
  match topBuffer j with
  | none => if 1 ≤ n then some (movePos j n) else none
  | some (_, cnt, pos) =>
    let t := (pos.toNat : Int) + n
    if 0 ≤ t ∧ t < cnt.toNat then some (movePos j n) else none

/-- Ends a branch that is taken. -/
def takeBranch (s : State) (q : Nat) (j : JImg) (imm : BitVec 44) : Out :=
  match branchTo j imm.toInt with
  | some j => .next (completeCommand s q j)
  | none => .next (coreFault s q 3)

def execBr (a b c : BitVec 4) (imm : BitVec 44) (s : State) : Out :=
  withQueue s fun q _ j =>
    if waitCond c.toNat 8 (j.reg a.toNat).toNat (j.reg b.toNat).toNat then takeBranch s q j imm
    else .next (completeCommand s q (movePos j 1))

def execDloop (a : BitVec 4) (imm : BitVec 44) (s : State) : Out :=
  withQueue s fun q _ j =>
    if j.reg a.toNat = 0 then .next (completeCommand s q (movePos j 1))
    else takeBranch s q (j.setReg a.toNat (j.reg a.toNat - 1)) imm

/-- calli: the innermost buffer is entered, at most 8 deep (R360). DEDUCED, log entry 56. -/
def execCalli (a b : BitVec 4) (s : State) : Out :=
  withQueue s fun q _ j =>
    if j.reg b.toNat = 0 then .next (completeCommand s q (movePos j 1))
    else if 8 ≤ j.depth then .next (coreFault s q 2)
    else if (j.reg a.toNat).toNat % 8 ≠ 0 then .next (coreFault s q 5)
    else
      let stack := j.bstack.set j.depth (j.reg a.toNat, (j.reg b.toNat).setWidth 32, 0)
      .next (completeCommand s q { j with bstack := stack, depth := j.depth + 1 })

def execReti (s : State) : Out :=
  withQueue s fun q _ j =>
    if j.depth = 0 then .next (coreFault s q 1) else .next (completeCommand s q (leaveBuffer j))

/-! ### wait (R361) -/

/-- Reads the word that a queue waits on; where the condition holds, the scheduler core receives the clock that a signal has
brought there (R329, R361). -/
def readWaited (s : State) (x : Queue) (va v : W64) (cond : Nat) : DispRes :=
  qWord s x .load va fun key _ s =>
    let o := readNat s.mem key 8
    .done (BitVec.ofNat 64 o) (if waitCond cond 8 o v.toNat then hearSignal s (0x3000 + x.core) key else s)

/-- A queue waits, armed: its core journals state 3, in whose place a stop request puts state 5 (R361, R371, R416). -/
def armWait (s : State) (q : Nat) (j : JImg) (w : Armed) : State :=
  s.modQueue q fun x =>
    let y := x.journal { j with state := 3 }
    if y.img.state = 3 then { y with armed := some w } else y

/-- wait: it completes when the condition holds; else the queue waits, armed, until a wake or the next periodic
read. -/
def execWait (a b c : BitVec 4) (s : State) : Out :=
  withQueue s fun q x j =>
    let va := j.reg a.toNat
    let v := j.reg b.toNat
    match readWaited s x va v c.toNat with
    | .done o s =>
      if waitCond c.toNat 8 o.toNat v.toNat then .next (completeCommand s q (movePos j 1))
      else .next (armWait s q j ⟨va, v, c, s.clk + 4096⟩)
    | .fault code s => .next (coreFault s q code)
    | .waits s => .next s
    | .dead pa => .fault (.noSuchMemory pa)

/-- Whether the word that a queue's armed wait names satisfies it, or cannot be read; `slow` where it stands on a page under way,
which the wait itself then waits for. -/
def armedHolds (s : State) (x : Queue) (w : Armed) (slow : Bool) : Bool :=
  match qRange s x.part x.space .load w.addr 8 with
  | .ok segs _ _ => segsPoisoned s segs || waitCond w.cond.toNat 8 (bytesNat (readSegs s.mem segs)) w.value.toNat
  | .waits _ => slow
  | _ => true

/-- QUEUE_WAIT_WAKE: the queue's roll-call bit is set once (R361, R371). -/
def execQueueWaitWake (q : Nat) (s : State) : Out :=
  happens s <|
    (mget s.queues q).bind fun x => x.armed.bind fun w =>
      if armedHolds s x w false then some ((s.modQueue q fun x => { x with armed := none }).roll q) else none

/-- QUEUE_WAIT_PERIODIC: every 4,096 clk the word is read again. -/
def execQueueWaitPeriodic (q : Nat) (s : State) : Out :=
  happens s <|
    (mget s.queues q).bind fun x => x.armed.bind fun w =>
      if s.clk < w.due then none
      else if armedHolds s x w true then some ((s.modQueue q fun x => { x with armed := none }).roll q)
      else some (s.modQueue q fun x => { x with armed := some { w with due := s.clk + 4096 } })

/-! ### copy and migration (R233, R359) -/

/-- Translates a range of any length piece by piece; the first obstacle, or the segments and the key tags that
it binds. -/
def qSpan (part space : Nat) (acc : Acc) : Nat → W64 → Nat → State → QAcc
  | 0, _, _, s => .ok [] 0 s
  | f + 1, va, n, s =>
    if n = 0 then .ok [] 0 s
    else
      let k := min n (65536 - va.toNat % 65536)
      match qRange s part space acc va k with
      | .ok segs t s => match qSpan part space acc f (va + BitVec.ofNat 64 k) (n - k) s with
        | .ok more _ s => .ok (segs ++ more) t s
        | r => r
      | r => r

/-- copy, performed: every byte is checked before any is written. A poisoned source fails the access (R362). -/
def doCopy (s : State) (x : Queue) (dst src n : W64) : DispRes :=
  let pages (a : W64) : Nat := n.toNat / 65536 + a.toNat % 65536 + 2
  match qSpan x.part x.space .load (pages src) src n.toNat s with
  | .ok from_ _ s1 =>
    if segsPoisoned s1 from_ then .fault 4 s1
    else match qSpan x.part x.space .store (pages dst) dst n.toNat s1 with
      | .ok to_ _ s2 =>
        let bytes := readSegs s2.mem from_
        .done 0 (sendPeer (putSegs s2 to_ bytes) to_)
      | .fault _ s => .fault 4 s
      | .waits s => .waits s
      | .dead pa => .dead pa
  | .fault _ s => .fault 4 s
  | .waits s => .waits s
  | .dead pa => .dead pa

def execCmdCopy (a b c : BitVec 4) (s : State) : Out :=
  dispatched s (fun _ x j => doCopy s x (j.reg a.toNat) (j.reg b.toNat) (j.reg c.toNat)) fun _ j => j

/-- copy with imm[1:0] 1: the request is made, and the queue waits until its pages have moved (MIGRATION_PAGE). -/
def doMigrate (s : State) (q : Nat) (x : Queue) (csn va n : W64) (tier reg : Nat) : DispRes :=
  if s.migrs.any fun e => decide (e.2.queue = q) then .waits s
  else if n = 0 then .done 0 s
  else
    let (id, s) := s.fresh
    let m : Migr := ⟨x.part, x.space, va.toNat, va.toNat + n.toNat - 1, tier, none, 0, q, reg, csn⟩
    .waits { s with migrs := mset s.migrs id m }

def execCmdMigrate (a b c : BitVec 4) (tier : BitVec 2) (s : State) : Out :=
  dispatched s (fun q x j => doMigrate s q x j.csn (j.reg a.toNat) (j.reg c.toNat) tier.toNat b.toNat)
    fun v j => j.setReg b.toNat v

/-! ### launch and launchg (R364, R367, R368) -/

/-- launch: the launch is judged at once where it can be, and waits otherwise (GRID_LAUNCH_ACCEPT). -/
def execCmdLaunch (a b c d : BitVec 4) (prio : BitVec 2) (s : State) : Out :=
  withQueue s fun q x j =>
    match x.window.find? fun e => decide (e.1 = j.csn) with
    | some e => .next (completeCommand s q (movePos (j.setReg d.toNat e.2) 1))
    | none =>
      if s.launches.any fun e => decide (e.2.launcher = .queue q) then .next s
      else
        let (id, s) := s.fresh
        let pl : PLaunch :=
          { launcher := .queue q, party := none, part := x.part, space := x.space, queue := q, csn := j.csn
            prio := prio.toNat, depth := 1, recAt := j.reg a.toNat, raw := none, params := []
            ctxAt := j.reg b.toNat, ctx := none, sig := j.reg c.toNat, dreg := d.toNat }
        let s := { s with launches := mset s.launches id pl }
        .next ((tryLaunch s id).getD s)

/-- What reading the nodes of a timetable comes to. -/
inductive NodeRead where
  | nodes (l : List Nat) (s : State)
  | refused (cls : Nat) (s : State)
  | waits (s : State)
  | dead (pa : Nat)

/-- Reads the nodes of a timetable. -/
def readNodes (x : Queue) : Nat → W64 → List Nat → State → NodeRead
  | 0, _, l, s => .nodes l.reverse s
  | f + 1, va, l, s => match qRange s x.part x.space .load va 64 with
    | .ok segs _ s =>
      if segsPoisoned s segs then .refused 0x16 s
      else readNodes x f (va + 64) (bytesNat (readSegs s.mem segs) :: l) s
    | .fault c s => .refused c s
    | .waits s => .waits s
    | .dead pa => .dead pa

/-- launchg, performed: the status of the load, with the timetable resident and its first nodes launched. -/
def doLaunchg (s : State) (q : Nat) (x : Queue) (csn va sig : W64) : DispRes :=
  if 16 ≤ s.tables.length then .waits s
  else match qRange s x.part x.space .load va 64 with
    | .ok segs _ s =>
      let h := bytesNat (readSegs s.mem segs)
      let n := h % 2 ^ 11
      if segsPoisoned s segs then .done (9 + 256 * 0x16) s
      else if 2 ^ 11 ≤ h ∨ n = 0 ∨ 1024 < n then .done 10 s
      else match readNodes x n (va + 64) [] s with
        | .refused c s => .done (BitVec.ofNat 64 (9 + 256 * c)) s
        | .waits s => .waits s
        | .dead pa => .dead pa
        | .nodes raw s =>
          let nodes := raw.map parseNode
          let pl : PLaunch :=
            { launcher := .queue q, party := none, part := x.part, space := x.space, queue := q, csn := csn, prio := 0
              depth := 1, recAt := 0, raw := none, params := [], ctxAt := 0, ctx := none, sig := sig, dreg := 0 }
          if raw.any nodeBad || tableBad nodes then .done 10 s
          else match signalBad s pl with
            | .bad c => .done (BitVec.ofNat 64 (11 + 256 * c)) s
            | .waits s => .waits s
            | .good s =>
              let (id, s) := s.fresh
              let t : TTable := ⟨q, csn, sig, nodes, 0⟩
              let s := { s with tables := mset s.tables id t }
              let first := (List.range n).filter fun i => decide (((nodes[i]?).map (·.left)).getD 1 = 0)
              .done 0 (first.foldl (fun s i => launchNode s id i) s)
    | .fault c s => .done (BitVec.ofNat 64 (9 + 256 * c)) s
    | .waits s => .waits s
    | .dead pa => .dead pa

def execLaunchg (a b d : BitVec 4) (s : State) : Out :=
  dispatched s (fun q x j => doLaunchg s q x j.csn (j.reg a.toNat) (j.reg b.toNat)) fun v j => j.setReg d.toNat v

/-! ### The portal and writes of state (R355, R356, R416) -/

/-- The descriptor of a queue as its portal page reads (R354): reserved bits read 0 (R3). -/
def Queue.descriptor (x : Queue) : BitVec 512 :=
  BitVec.ofNat 512 (packFields [(0, x.img.csn.toNat), (64, (x.img.rptr.setWidth 32).toNat), (96, x.wptr.toNat), (128, x.m),
    (132, x.img.state.toNat), (136, x.img.fault.toNat), (144, x.img.depth), (152, x.core), (160, x.vector),
    (192, x.dropped.toNat), (256, x.retries.toNat)])

/-- PORTAL_KICK: eight commands enter the ring, or the packet is answered retry. -/
def execPortalKick (q : Nat) (cmds : List W64) (s : State) : Out :=
  happens s <|
    (mget s.queues q).bind fun x =>
    if cmds.length ≠ 8 then none
    else
      let used := (x.wptr - x.img.rptr.setWidth 32).toInt
      if !(s.reg.isReady) ∨ x.disabled ∨ x.img.state = 0 ∨ (x.size : Int) - used < 8 then
        some (s.modQueue q fun x => { x with retries := x.retries + 1 })
      else
        let mem := cmds.zipIdx.foldl (fun m e =>
          writeNat m (memKey 0 (x.ring + 8 * ((x.wptr.toNat + e.2) % x.size))) 8 e.1.toNat) s.mem
        some (({ s with mem := mem }.modQueue q fun x => { x with wptr := x.wptr + 8 }).roll q)

/-- Host write of 2: a faulted or stopped queue resumes at its command, which is performed anew: a result that told
its fault leaves the dispatch window (log entry 23). A write of any state sets the roll-call bit; one that R356 does not list
has no other effect. -/
def execQueueStateResume (q : Nat) (s : State) : Out :=
  happens s <|
    (mget s.queues q).map fun x =>
      let j := x.img
      let s := if j.state = 4 ∨ j.state = 5 then s.modQueue q fun x => { x.write { j with state := 2, fault := 0 } with
          window := x.window.filter fun e => !(e.2.getLsbD 63) } else s
      s.roll q

/-- Host write of 5: an idle queue stops at once, a running or waiting one at its next command boundary. -/
def execQueueStateStop (q : Nat) (s : State) : Out :=
  happens s <|
    (mget s.queues q).map fun x =>
      let j := x.img
      let s := if j.state = 1 then s.modQueue q fun x => x.write { j with state := 5 }
        else if j.state = 2 ∨ j.state = 3 then s.modQueue q fun x => { x with stopReq := true } else s
      s.roll q

/-- Host write of 6: a faulted or stopped queue is reset; grids that it has retained are released (R326). -/
def execQueueStateReset (q : Nat) (s : State) : Out :=
  happens s <|
    (mget s.queues q).map fun x =>
      let j := x.img
      if j.state = 4 ∨ j.state = 5 then
        let s := s.modQueue q fun x => { x with begun := none }
        let s := s.modQueue q fun x => { x.write { j with
            rptr := x.wptr.setWidth 64, depth := 0, fault := 0, state := 1, bstack := List.replicate 8 (0, 0, 0) } with
          armed := none, window := x.window.filter fun e => !(e.2.getLsbD 63) }
        let kept := (s.grids.filter fun e => decide (e.2.queue = q ∧ e.2.status = .retained ∧ e.2.depth = 1)).map (·.1)
        (kept.foldl releaseTree s).roll q
      else s.roll q

/-- PORTAL_WRITE_DISCARDED: any other write to the portal page is counted. -/
def execPortalWriteDiscarded (q : Nat) (s : State) : Out :=
  happens s <|
    (mget s.queues q).map fun _ => s.modQueue q fun x => { x with dropped := x.dropped + 1 }

/-! ### The next command of a queue (R357, R371) -/

/-- The queues that a core owns, as a mask. -/
def ownMask (s : State) (n : Nat) : BitVec 1024 :=
  BitVec.ofNat 1024 (((s.queues.filter fun e => decide (e.2.core = n)).map fun e => 2 ^ e.1).sum)

/-- Reads a roll-call word as a core does, and clears what it reads (R371). -/
def takeRoll (s : State) (n word : Nat) : W64 × State :=
  let w := (s.rollcall &&& ownMask s n).extractLsb' (64 * word) 64
  let gone : BitVec 1024 := w.setWidth 1024 <<< (64 * word)
  (w, { s with rollcall := s.rollcall &&& ~~~gone })

/-- What fetching a command comes to. -/
inductive CmdFetch where
  | word (w : W64)
  | bad
  | waits (s : State)
deriving DecidableEq, Repr

/-- The command at a queue's position; one in a poisoned granule of the ring cannot be read (R362). -/
def fetchCommand (s : State) (x : Queue) (j : JImg) : CmdFetch :=
  match topBuffer j with
  | none =>
    let key := memKey 0 (x.ring + 8 * (j.rptr.toNat % x.size))
    if poisoned s key then .bad else .word (BitVec.ofNat 64 (readNat s.mem key 8))
  | some (a, _, p) => match qRange s x.part x.space .load (a + BitVec.ofNat 64 (8 * p.toNat)) 8 with
    | .ok segs _ _ => if segsPoisoned s segs then .bad else .word (BitVec.ofNat 64 (bytesNat (readSegs s.mem segs)))
    | .waits s => .waits s
    | _ => .bad

end Sys2Proof.Machine
end

