-- ==== Sys2Proof/Machine/Rewind.lean ====
section
/-! DEFINITION. Freezing a context's grids, rewinding to a checkpoint and replaying from one (R297, R325 to R327, R335,
R348). -/

namespace Sys2Proof.Machine

/-! ### The grids of a context, wherever they stand -/

/-- A grid, running or in an image. -/
def anyGrid (s : State) (g : Nat) : Option Grid :=
  (s.grid g).orElse fun _ => s.images.findSome? fun e => if e.2.gid = g then e.2.grid else none

/-- The image that holds a grid's own part. -/
def gridImage (s : State) (g : Nat) : Option (Nat × Image) := s.images.find? fun e => decide (e.2.gid = g) && e.2.grid.isSome

/-- A saved party or copy whose stop has a serial goes on from there (R295). -/
def Image.goOnStop (i : Image) (n : Nat) (step : Bool) : Image :=
  let f (pc : W32) (q : Seq) : Seq := if q.stop.map (·.serial) = some n then goOnSeq pc step q else q
  let l (v : Lvl) : Lvl := { v with seq := f v.seq.pc v.seq }
  { i with
    grid := i.grid.map fun x => { x with lvl := l x.lvl }
    clusters := i.clusters.map fun e => (e.1, { e.2 with lvl := l e.2.lvl })
    blocks := i.blocks.map fun e => (e.1, { e.2 with lvl := l e.2.lvl })
    teams := i.teams.map fun e => (e.1, { e.2 with seq := f (teamPc e.2) e.2.seq })
    copies := i.copies.map fun x => if x.stop = some n then { x with stop := none } else x }

/-- Changes every grid of a context but for page fillers. -/
def modCtxGrids (s : State) (c : Nat) (f : Grid → Grid) : State :=
  let h (x : Grid) : Grid := if x.ctx ≠ c then x else match x.launcher with
    | .fill _ => x
    | _ => f x
  { s with
    grids := s.grids.map fun e => (e.1, h e.2)
    images := s.images.map fun e => (e.1, { e.2 with grid := e.2.grid.map h }) }

/-- Freeze and thaw (R297). -/
def setFrozen (s : State) (c : Nat) (b : Bool) : State := modCtxGrids s c fun x => { x with frozen := b }

/-- Serials of the records that the parties of an image stand stopped with. -/
def Image.stops (i : Image) : List Nat := i.seqs.filterMap fun q => q.stop.map (·.serial)

/-- DISPOSING OF A STOP of what is saved: a party of an image, or a copy, goes on when it is restored (R295, R303). None where the
serial has no undisposed stop whose record is written. -/
def disposeSaved (s : State) (c n : Nat) (step : Bool) : Option State :=
  (mget s.ctxs c).bind fun x =>
  if decide (n ∈ x.undisposed) && s.images.any (fun e => decide (e.2.ctxOf s = some c) && (e.2.stops.contains n ||
      e.2.copies.any fun y => decide (y.stop = some n))) then
    
    let go (e : Nat × Image) : Nat × Image := if e.2.ctxOf s = some c then (e.1, e.2.goOnStop n step) else e
    some (State.freeEntry { s with images := s.images.map go } c n)
  else none

/-- Whether a grid can be rewound: frozen, retained, or with every party stopped (R325, R326). -/
def atRest (s : State) (g : Nat) (gr : Grid) : Bool :=
  gr.frozen || decide (gr.status = .retained) ||
    ((s.grid g).isSome && (s.partiesOf g).all fun p => ((s.seqOf p).bind (·.stop)).isSome)

/-- Whether parts of a context wait in images to be restored. -/
def restoring (s : State) (c : Nat) : Bool := s.images.any fun e => e.2.auto && decide (e.2.ctxOf s = some c)

/-! ### Rewinding (R325) -/

/-- Whether a present and well-formed leaf serves to write a record back: its key lies in the partition's key set and its frames are
not aliased (R325). -/
def undoLeaf (s : State) (r : BitVec 512) (e : W64) (size : Nat) : Bool :=
  let key := (e.extractLsb' 52 8).toNat
  (if (e.extractLsb' 9 2).toNat < 2 then inKeySet r key else decide (key = 0)) && !((tagsOf s (leafBind e size)).any (·.2.aliased))

/-- Writes back what a record of the undo log overwrote, in the CSM of grid `owner` or through the page tables; none where its
address no longer translates. Scratch, frame store and open records are skipped. DEDUCED, log entry 60. -/
def undoOne (s : State) (gr : Grid) (owner r : Nat) : Option State :=
  let n := nfield r 3 5
  let va := nfield r 64 64
  let old := natBytes n (nfield r 128 128)
  if nfield r 0 3 ≠ 1 then some s
  else match windowOf va with
    | some .csm => some (putMem s (csmKey owner (va % 2 ^ 52)) old)
    | some .global =>
      (mget s.parts gr.part).bind fun p => match walkPage s.mem p.record gr.space va with
        | .leaf e size =>
          let key := memKey (e.extractLsb' 9 2).toNat ((e.extractLsb' 16 36).toNat * 2 ^ 16 + va % size)
          if undoLeaf s p.record e size then some (sendPeer (putMem s key old) [(key, n)]) else none
        | _ => none
    | _ => some s

/-- Applies records newest first; the records that were not applied, newest first. -/
def undoAll (s : State) (g : Nat) (gr : Grid) (u : UndoLog) : List Nat → State × List Nat
  | [] => (s, [])
  | off :: rest =>
    let r := readNat s.mem (memKey 0 (u.base + off % 2 ^ u.lg2)) 32
    match undoOne s gr ((mget u.owners off).getD g) r with
    | some s => undoAll s g gr u rest
    | none =>
      let (s, bad) := undoAll s g gr u rest
      (s, r :: bad)

/-- The dies that hold a context's grids: those of its blocks, or after its blocks those whose cores have counted for it (R325,
R344). DEDUCED, log entry 60. -/
def diesOf (s : State) (c : Nat) : List Nat :=
  let gs := ctxGrids s c
  let cores := gs.flatMap fun g => ((s.blocksOf g).map (·.2.core)) ++
    (((s.grid g).map (·.counters)).getD []).map (·.1 / 256)
  (List.range 4).filter fun d => cores.any fun k => decide (dieOf k = d)

/-- The die whose eraser takes a record: a hash of its granule selects it (R325). -/
def eraserOf (dies : List Nat) (r : Nat) : Nat := (dies[Config.homeSlice (nfield r 64 64 / 64) % dies.length]?).getD 0

/-- Each eraser that has not applied all its records reports it (R325, R345). -/
def reportErasers (s : State) (c : Nat) (dies : List Nat) (window : W32) (bad : List Nat) : State :=
  (if dies.isEmpty then [0] else dies).foldl (fun s d =>
    match bad.filter fun r => decide (eraserOf dies r = d) with
    | [] => s
    | r :: rs => s.health (some c) 5 (0x7000 + d) (rs.length + 1) (BitVec.ofNat 64 window.toNat)
        (BitVec.ofNat 64 (nfield r 64 64))) s

/-- How far back window w lies. -/
def UndoLog.age (u : UndoLog) (w : W32) : Nat := (u.newwin - w).toNat

/-- The target of a rewind to window w: the newest grid window that is not opened after it. -/
def UndoLog.target (u : UndoLog) (w : W32) : Option Ckpt :=
  (u.ckpts.filter fun c => decide (u.age w ≤ u.age c.window)).getLast?

/-- Whether a target can be reached. -/
def UndoLog.reaches (u : UndoLog) (c : Ckpt) : Bool := decide (u.tail ≤ c.start ∧ u.horizon ≤ c.start)

/-- Takes every part of a context out of the machine, but for the CSM of the grids in `keep`. -/
def clearCtx (s : State) (c : Nat) (keep : List Nat) : State :=
  let gs := ctxGrids s c
  let ours := s.images.filter fun e => decide (e.2.ctxOf s = some c)
  let all := gs ++ ours.map fun e => e.2.gid
  let s := { s with
    images := s.images.filter fun e => !(ours.any fun o => decide (o.1 = e.1))
    launches := s.launches.filter fun e => decide (e.2.ctxOf s ≠ some c)
    msgs := s.msgs.filter fun e => decide (e.2.grid ∉ all) }
  let s := gs.foldl (fun s g => dropParts s g (fun _ => true) true) s
  let s := (all.filter fun g => decide (g ∉ keep)).foldl (fun s g => dropUnit s (csmKey g 0)) s
  { s with frames := s.frames.filter fun e => decide (fkGrid e.1 ∉ all) }

/-- Puts an image of a checkpoint among the saved ones, its grid frozen, and restores its grid's own part. -/
def reviveImage (s : State) (signalled : Nat → Bool) (i : Image) : State :=
  let (id, s) := s.fresh
  let gr := i.grid.map fun x => { x with frozen := true, signalled := x.signalled || signalled i.gid }
  let s := { s with images := mset s.images id { i with grid := gr, auto := true } }
  (restoreGrid s id).getD s

/-- The fault records of a context after its parties have been replaced: the stops that went are disposed of, their records
written; those that the checkpoint restores stand undisposed (R294, R325). -/
def rewindStops (s : State) (c : Nat) (gone kept : List Nat) : State :=
  let n := ((mget s.ctxs c).map (·.heldRecs.length)).getD 0
  (disposeAll c gone (n + 2) s).modCtx c fun x => { x with
    undisposed := (kept.filter fun n => (mget x.heldRecs n).isNone).foldl sadd1 [] }

/-- Rewinds a context to one of its checkpoints; its context lists the records that were not applied. DEDUCED, log entry 67.
-/
def rewindTo (s : State) (c g : Nat) (gr : Grid) (u : UndoLog) (ck : Ckpt) : State :=
  let s := closeOpens s c
  let dies := diesOf s c
  let offs := (List.range ((u.head - ck.start) / 32)).map fun i => u.head - 32 - 32 * i
  let (s, bad) := undoAll s g gr u offs
  let said := (s.grids.filter fun e => e.2.signalled).map (·.1) ++
    (s.images.filter fun e => (e.2.grid.map (·.signalled)).getD false).map (·.2.gid)
  let done (n : Nat) : Bool := decide (n ∈ said)
  let kept := ck.images.flatMap (·.stops)
  let all := ctxGrids s c ++ (s.images.filter fun e => decide (e.2.ctxOf s = some c)).map (·.2.gid)
  let gone := (stopsIn s all).filter fun n => !(kept.contains n)
  let s := rewindStops (clearCtx s c (ck.images.map (·.gid))) c gone kept
  let s := s.modCtx c fun x =>
    let u := { u with
      head := ck.start, newwin := ck.window, ckpts := u.ckpts.filter fun k => decide (u.age ck.window ≤ u.age k.window)
      owners := u.owners.filter fun e => decide (e.1 < ck.start) }
    { x with
      ulog := some u, replay := none, gone := [], unapplied := bad
      arb := x.arb.map fun a => { a with opens := [], firsts := [] } }
  let s := { s with launches := mjoin s.launches ck.launches, msgs := mjoin s.msgs ck.msgs }
  let s := ck.images.foldl (fun s i => reviveImage s done i) s
  reportErasers s c dies ck.window bad

/-! ### Replaying (R335, R348) -/

/-- A chunk of the record (R333). -/
def parseChunk (x : Nat) : Chunk :=
  ⟨BitVec.ofNat 64 (nfield x 64 64), nfield x 60 4, nfield x 52 8, nfield x 40 12, BitVec.ofNat 3 (nfield x 37 3),
    nfield x 4 32, nfield x 0 4, 0⟩

/-- The chunks that a record holds after a byte count. -/
def scriptFrom (s : State) (a : ArbLog) (at_ : Nat) : List Chunk :=
  (List.range ((a.appended - at_) / 16)).map fun i =>
    { parseChunk (readNat s.mem (memKey 0 (a.base + (at_ + 16 * i) % 2 ^ a.lg2)) 16) with num := at_ / 16 + i }

/-- Whether a context stands at the start of its newest grid window: nothing logged since, no chain committed. -/
def atStart (s : State) (c : Nat) (u : UndoLog) (ck : Ckpt) : Bool :=
  decide (u.head = ck.start ∧ u.newwin = ck.window) &&
    (ctxGrids s c).all fun g => (s.partiesOf g).all fun p => decide (((s.seqOf p).map (·.chains)).getD 0 = 0)

/-- Whether the record still holds everything that was appended after a window's start: its script (R334, R335). -/
def hasScript (x : Ctx) (ck : Ckpt) : Bool := match x.arb with
  | some a => x.record && decide (a.appended ≤ ck.recAt + 2 ^ a.lg2)
  | none => false

/-- The script that a replay of a context follows from where it stands: what is left of the one under way, or at a
checkpoint what was recorded after its start; none elsewhere, or without both flags. DEDUCED, log entry 68. -/
def scriptHere (s : State) (c : Nat) : Option (List Chunk × List Chunk) :=
  (mget s.ctxs c).bind fun x => x.arb.bind fun a => x.ulog.bind fun u =>
    match x.replay with
    | some rp => if rp.script.isEmpty then fresh x a u else some (rp.script, rp.spent)
    | none => fresh x a u
where
  fresh (x : Ctx) (a : ArbLog) (u : UndoLog) : Option (List Chunk × List Chunk) := u.ckpts.getLast?.bind fun ck =>
    if atStart s c u ck && hasScript x ck then some (scriptFrom s a ck.recAt, []) else none

/-- Starts a replay and thaws. -/
def startReplay (s : State) (c : Nat) (script spent : List Chunk) (till : ReplayEnd) : State :=
  setFrozen (s.modCtx c fun x => { x with replay := some ⟨script, spent, till⟩ }) c false

/-- Exchanges chunk n of a record, where it stands in a script, with the next chunk of its point in its window; none where R348
refuses. The points of checks and of values read are their requesters'. DEDUCED, log entry 68. -/
def perturb (l : List Chunk) (n : Nat) : Option (List Chunk) :=
  (l.findIdx? fun c => decide (c.num = n)).bind fun k => l[k]?.bind fun x =>
    if x.kind = 5 ∨ x.kind = 6 then none
    else ((l.zipIdx.drop (k + 1)).find? fun e => e.1.at x.kind x.key && decide (e.1.window = x.window)).bind fun e =>
      if e.1.by ⟨x.scope, x.inst, x.team⟩ then none else some ((l.set k { e.1 with num := x.num }).set e.2 { x with num := e.1.num })

/-! ### Reverse steps (R327) -/

/-- The grid window that a reverse step of a party goes back to, and the count it stops at: the newest window in which the
party has committed a chain. DEDUCED, log entry 69. -/
def reverseGoal (p : Party) : List Ckpt → Nat → Option (Ckpt × Nat)
  | [], _ => none
  | ck :: older, n =>
    if 0 < n then some (ck, n - 1)
    else reverseGoal p older (((ck.ends.find? fun e => decide (e.1 = p)).map (·.2)).getD 0)

/-- How many chains a party has committed in the open grid window: one that runs, is saved, or has ended (R327). -/
def chainsOf (s : State) (c : Nat) (p : Party) : Option Nat :=
  ((s.seqOf p).map (·.chains)).orElse fun _ =>
  (s.images.findSome? fun e => (e.2.counts.find? fun x => decide (x.1 = p)).map (·.2)).orElse fun _ =>
    (mget s.ctxs c).bind fun x => (x.gone.find? fun e => decide (e.1 = p)).map (·.2)

/-- Ends the replays of reverse steps whose party has come to stand at its count without committing a chain: it has been placed
or restored there (R327). -/
def settleReverse (s : State) : State :=
  s.ctxs.foldl (fun s e => match e.2.replay with
    | some ⟨_, _, .chains p n⟩ => match s.seqOf p with
      | some q => if q.chains = n ∧ q.stop.isNone ∧ !(restoring s e.1) then endReverse s p else s
      | none => s
    | _ => s) s

end Sys2Proof.Machine
end

