-- ==== Sys2Proof/Machine/Ctrl.lean ====
section
/-! DEFINITION. The ctrl command (R369): one operation per value of imm[7:0], and per disposition and replay mode of
its control block. -/

namespace Sys2Proof.Machine

/-- A control block (R369). -/
structure CtlBlk where
  queue : Nat
  csn : W64
  a0 : W64
  a1 : W64
  a2 : W64
deriving DecidableEq, Repr

/-- An operation on a target grid: the queue with its image, the block, the grid. -/
abbrev CtlOp := State → Nat → Queue → JImg → CtlBlk → Nat → Grid → DispRes

/-- The grid that the command at a queue and csn launched, running, retained or saved; of a timetable's grids the first.
DEDUCED, log entry 63. -/
def ctlTarget (s : State) (q : Nat) (csn : W64) : Option Nat :=
  let mine (gr : Grid) : Bool := decide (gr.queue = q ∧ gr.csn = csn ∧ gr.depth = 1) && (match gr.launcher with
    | .queue _ | .node _ _ => true
    | _ => false)
  let here := (s.grids.filter fun e => mine e.2).map (·.1)
  let saved := s.images.filterMap fun e => match e.2.grid with
    | some gr => if mine gr then some e.2.gid else none
    | none => none
  (here ++ saved).head?

/-- Reads the block of a ctrl, finds its target and performs an operation on it. `arg` tells the block's argument that
names the operation's mode, and its value; the command of another mode is not this one. -/
def performCtl (arg : Option (Nat × Nat)) (f : CtlOp) (a : BitVec 4) (s : State) (q : Nat) (x : Queue) (j : JImg)
    (absent : State → CtlBlk → DispRes := fun s _ => .done 12 s) : DispRes :=
  let ka := j.reg a.toNat
  if ka.toNat % 8 ≠ 0 then .fault 5 s
  else match qRange s x.part x.space .load ka 64 with
    | .ok segs _ s1 =>
      let n := bytesNat (readSegs s1.mem segs)
      let w (lo : Nat) : W64 := BitVec.ofNat 64 (nfield n lo 64)
      let b : CtlBlk := ⟨nfield n 0 32, w 64, w 128, w 192, w 256⟩
      let wrong : Bool := match arg with
        | some (0, v) => decide (b.a0.toNat ≠ v)
        | some (_, v) => decide (b.a1.toNat ≠ v)
        | none => false
      if segsPoisoned s1 segs then .fault 4 s1
      else if nfield n 32 32 ≠ 0 ∨ nfield n 320 192 ≠ 0 then .fault 1 s1
      else if wrong then .waits s
      else match mget s1.queues b.queue with
        | none => .done 12 s1
        | some y =>
          if y.part ≠ x.part then .fault 6 s1
          else match (ctlTarget s1 b.queue b.csn).bind fun g => (anyGrid s1 g).map fun gr => (g, gr) with
            | none => absent s1 b
            | some (g, gr) => if gr.part ≠ x.part then .fault 6 s1 else f s1 q x j b g gr
    | .fault _ s => .fault 4 s
    | .waits s => .waits s
    | .dead pa => .dead pa

/-- A ctrl command, with its status in kd. -/
def control (arg : Option (Nat × Nat)) (f : CtlOp) (a d : BitVec 4) (s : State) : Out :=
  dispatched s (fun q x j => performCtl arg f a s q x j) fun v j => j.setReg d.toNat v

/-- The phase in which a ctrl that has begun stands. -/
def Queue.phase (x : Queue) (j : JImg) : Option Nat := match x.begun with
  | some (c, n) => if c = j.csn then some n else none
  | none => none

/-- Goes on waiting in a phase. -/
def inPhase (s : State) (q : Nat) (j : JImg) (n : Nat) : DispRes :=
  .waits (s.modQueue q fun x => { x with begun := some (j.csn, n) })

/-! ### Pre-emption and images (R300, R303, R306) -/

/-- Bytes as a function sees them that are a confidential context's: the host administrator sees only ciphertext, which is open
(R390). -/
def showBytes (s : State) (fn : Nat) (conf : Bool) (bs : List Byte) : List Byte × State :=
  if fn = 0 ∧ conf then
    let (k, s) := s.draw
    ((List.range bs.length).map fun i => (Config.freeWord (k + i)).setWidth 8, s)
  else (bs, s)

/-- What writing bytes at an address of a queue's space comes to, as far as its checks go. -/
def qPlace (s : State) (x : Queue) (va : W64) (n : Nat) : QAcc :=
  qSpan x.part x.space .store (n / 65536 + va.toNat % 65536 + 2) va n s

/-- Writes the bytes that a ctrl answers with where they have been checked to go (R369, R390). -/
def giveBytes (s : State) (x : Queue) (conf : Bool) (segs : List (Nat × Nat)) (bs : List Byte) : State :=
  let (bs, s) := showBytes s x.fn conf bs
  sendPeer (putSegs s segs bs) segs

/-- The bytes of an image: its header, then its parts (R301, R302). -/
def imageBytes (l : LaunchRec) (i : Image) : List Byte := natBytes 64 i.hdr.toNat ++ imageBody l i

/-- A grid that a pre-empt saves, or has saved already: whole, by command, with its CSM part where that is asked for of an image that
holds every block (R300, R306). -/
def savedBy (s : State) (x : Queue) (j : JImg) (b : CtlBlk) (g : Nat) (gr : Grid) : State :=
  let key := (spaceKey x.part x.space, b.a1)
  let asked := b.a0.getLsbD 0
  match gridImage s g with
  | some (id, i) =>
    if (x.phase j).isSome then s
    else { s with images := mset s.images id { i with
      addr := some key, auto := false, csmWanted := asked && !i.csmPart && decide (gr.lrec.grid = i.blocks.length) } }
  | none => if (x.phase j).isSome then s else saveTree s g false asked (some key)

/-- Pre-empt: the grid is saved whole, and its image written at the address, with its CSM part where it is asked for once that has
been copied; a retained grid has a header only (R300 to R306). -/
def ctlPreempt : CtlOp := fun s q x j b g gr =>
  let conf := ((mget s.ctxs gr.ctx).map (·.conf)).getD false
  if gr.status = .retained then match qPlace s x b.a1 64 with
    | .ok segs _ t => .done 0 (giveBytes t x conf segs (natBytes 64 (doneHeader s g gr).toNat))
    | .fault _ t => .fault 4 t
    | .waits t => .waits t
    | .dead pa => .dead pa
  else
    let t := savedBy s x j b g gr
    match gridImage t g with
    | none => .done 0 t
    | some (_, i) =>
      let bs := imageBytes gr.lrec i
      match qPlace t x b.a1 (bs.length + if i.csmWanted then gr.lrec.csm * 64 else 0) with
      | .ok segs _ u => if i.csmWanted then inPhase u q j 0 else .done 0 (giveBytes u x conf segs bs)
      | .fault _ _ => .fault 4 s
      | .waits u => inPhase u q j 0
      | .dead pa => .dead pa

/-- Pre-empt of a grid that has completed in the same clk: a header-only image with status 1 (R305). -/
def ctlPreemptDone (s : State) (x : Queue) (b : CtlBlk) : DispRes :=
  match s.done.find? fun d => decide (d.clk = s.clk ∧ d.queue = b.queue ∧ d.csn = b.csn ∧ d.part = x.part) with
  | some d => match qPlace s x b.a1 64 with
    | .ok segs _ s => .done 0 (giveBytes s x d.conf segs (natBytes 64 d.hdr.toNat))
    | .fault _ s => .fault 4 s
    | .waits s => .waits s
    | .dead pa => .dead pa
  | none => .done 12 s

/-- What the image at an address of a queue's space reads as: its bytes, as many as its header says. -/
inductive ImageRead where
  | image (h : Nat) (bytes : List Byte) (s : State)
  | none (s : State)
  | waits (s : State)
  | dead (pa : Nat)

/-- Reads the image at an address; none where it cannot be read, or is no image of format 1 (R302). -/
def readImage (s : State) (x : Queue) (va : W64) : ImageRead :=
  match qRange s x.part x.space .load va 64 with
  | .ok segs _ s =>
    let h := bytesNat (readSegs s.mem segs)
    let n := nfield h 448 64
    if segsPoisoned s segs ∨ nfield h 64 8 ≠ 1 ∨ n < 64 then .none s
    else match qSpan x.part x.space .load (n / 65536 + va.toNat % 65536 + 2) va n s with
      | .ok segs _ s => if segsPoisoned s segs then .none s else .image h (readSegs s.mem segs) s
      | .fault _ s => .none s
      | .waits s => .waits s
      | .dead pa => .dead pa
  | .fault _ s => .none s
  | .waits s => .waits s
  | .dead pa => .dead pa

/-- Restores the grid part of an image and waits for the rest. -/
def restoreFrom (s : State) (q : Nat) (j : JImg) (id : Nat) : DispRes := match restoreGrid s id with
  | some s => inPhase s q j 0
  | none => .waits s

/-- Restore: the image at the address comes back, block by block as cores are free; of a grid that this device has saved, the image
that was saved there, or the one whose bytes stand there (R303). -/
def ctlRestoreImage : CtlOp := fun s q x j b g gr =>
  match x.phase j with
  | some _ => if s.images.any fun e => decide (e.2.gid = g) && e.2.auto then .waits s else .done 0 s
  | none =>
    let ours := s.images.filter fun e => decide (e.2.gid = g) && e.2.grid.isSome
    match ours.find? fun e => decide (e.2.addr = some (spaceKey x.part x.space, b.a0)) with
    | some (id, _) => restoreFrom s q j id
    | none => match readImage s x b.a0 with
      | .image _ bs s => match ours.find? fun e => decide (imageBytes gr.lrec e.2 = bs) with
        | some (id, _) => restoreFrom s q j id
        | none => .done 13 s
      | .none s => .done 13 s
      | .waits s => .waits s
      | .dead pa => .dead pa

/-- Restore where the device holds no grid of the target's name: the image of another device comes back under a number of its own,
with a context for it (R303, R400). DESIGN CHOICE, log entry 57. -/
def ctlRestoreForeign (s : State) (q : Nat) (x : Queue) (j : JImg) (b : CtlBlk) : DispRes :=
  match readImage s x b.a0 with
  | .image h bs s =>
    if nfield h 288 32 ≠ b.queue ∨ nfield h 320 64 ≠ b.csn.toNat ∨ nfield h 0 4 ≠ 0 then .done 12 s
    else
      let (id, t) := s.fresh
      match Config.imageParse id bs with
      | none => .done 13 s
      | some (i, c) =>
        let home (gr : Grid) : Grid := { gr with
          part := x.part, space := x.space, queue := b.queue, csn := b.csn, depth := 1, launcher := .queue b.queue, ctx := id }
        let new : Image := { i with gid := id, hdr := BitVec.ofNat 512 h, grid := i.grid.map home, auto := false, addr := none }
        match restoreFrom { t with
            ctxs := mset t.ctxs id { c with part := x.part, queue := b.queue, csn := b.csn }
            images := mset t.images id new } q j id with
        | .waits _ => .waits s
        | r => r
  | .none s => .done 12 s
  | .waits s => .waits s
  | .dead pa => .dead pa

/-! ### Dispositions (R295) -/

/-- Resume and step: the stop with the serial, of the grid or of one under it, running or saved. DEDUCED, log entry 64. -/
def ctlDispose (step : Bool) : CtlOp := fun s _ _ _ b _ gr =>
  let n := b.a0.toNat
  match (ctxGrids s gr.ctx).findSome? fun g => (disposeStop s g n step).map fun t => if step then t else settleAfter t g with
  | some s => .done 0 s
  | none => match disposeSaved s gr.ctx n step with
    | some s => .done 0 s
    | none => .done 13 s

/-- Abort: of a retained grid, or by the serial of an undisposed stop. -/
def ctlAbort : CtlOp := fun s _ _ _ b g gr =>
  let n := b.a0.toNat
  let saved := (s.images.filter fun e => decide (e.2.ctxOf s = some gr.ctx)).map (·.2.gid)
  let stops := (stopsIn s (ctxGrids s gr.ctx ++ saved)).contains n
  let written := decide (n ∈ ((mget s.ctxs gr.ctx).map (·.undisposed)).getD [])
  if gr.status ≠ .retained ∧ !(stops && written) then .done 13 s
  else .done 0 (abortTree s g)

/-! ### Freezing, breakpoints, translations, the log -/

def ctlFreeze (b : Bool) : CtlOp := fun s _ _ _ _ _ gr => .done 0 (setFrozen s gr.ctx b)

/-- Set breakpoint entry: in the grid and those that run under it (R296). DEDUCED, log entry 65. -/
def ctlSetBreakpoint : CtlOp := fun s _ _ _ b _ gr =>
  let e : Brkpt := ⟨b.a1.setWidth 32, b.a2.extractLsb' 0 5, b.a2.getLsbD 8⟩
  if 8 ≤ b.a0.toNat then .done 13 s
  else
    let stop := b.a2.getLsbD 9
    .done 0 (modCtxGrids s gr.ctx fun y => { y with brks := y.brks.set b.a0.toNat e, allstop := stop })

/-- Invalidate TLBs: entries of the target's address space whose page meets the range (R229). -/
def ctlInvalidateTlb : CtlOp := fun s _ _ _ b _ gr =>
  let lo := b.a0.toNat
  let hi := lo + b.a1.toNat
  let hit (t : TlbEnt) : Bool := decide (t.part = gr.part ∧ t.space = gr.space ∧ t.base < hi ∧ lo < t.base + t.size)
  .done 0 { s with tlb := s.tlb.filter fun t => !(hit t) }

/-- Trim log: tail moves to the start of a grid window, and the windows before it go (R324). DEDUCED, log entry 66. -/
def ctlTrimLog : CtlOp := fun s _ _ _ b _ gr =>
  match (mget s.ctxs gr.ctx).bind (·.ulog) with
  | none => .done 13 s
  | some u => match u.ckpts.find? fun c => decide (c.window.toNat = b.a0.toNat) with
    | none => .done 13 s
    | some c =>
      let kept := u.ckpts.filter fun k => decide (u.age k.window ≤ u.age c.window)
      let u := { u with tail := c.start, oldwin := c.window, ckpts := kept }
      .done 0 (s.modCtx gr.ctx fun y => { y with ulog := some u })

/-! ### Rewinding, replay and reverse steps -/

/-- Whether a replay that a command waits for has come to its end, or to a stop before it. -/
def replayOver (s : State) (g c : Nat) : Bool :=
  match s.grid g with
  | some gr => gr.frozen || decide (gr.status = .retained) ||
      (ctxGrids s c).any fun n => (s.partiesOf n).any fun p => ((s.seqOf p).bind (·.stop)).isSome
  | none => true

/-- The status of a finished rewind: done, or partial, for which the spec gives no number (log entry 24). -/
def rewindStatus (s : State) (phase : Nat) : W64 := if phase < 10 then 0 else Config.freeWord s.seed

/-- Whether a replay from a checkpoint of a context has its script: without the record flag, or where its chunks have been
overwritten, it has none. -/
def scriptFor (s : State) (c : Nat) (ck : Ckpt) : Bool := match mget s.ctxs c with
  | some x => hasScript x ck
  | none => false

/-- Rewind: phase 0 waits until the grid stands restored, phase 1 until the replay to the window has ended; 10 is added
where records were not applied. -/
def ctlRewind : CtlOp := fun s q x j b g gr =>
  let w : W32 := b.a0.setWidth 32
  match (mget s.ctxs gr.ctx).bind (·.ulog), x.phase j with
  | none, _ => .done 13 s
  | some u, none =>
    if !(atRest s g gr) ∨ 2 ^ 32 ≤ b.a0.toNat then .done 13 s
    else match u.target w with
      | none => .done 13 s
      | some ck =>
        if !(u.reaches ck) ∨ (ck.window ≠ w ∧ !(scriptFor s gr.ctx ck)) then .done 13 s
        else
          let s := rewindTo s gr.ctx g gr u ck
          inPhase s q j (if ((mget s.ctxs gr.ctx).map (·.unapplied)).getD [] = [] then 0 else 10)
  | some u, some n =>
    if n % 10 = 0 then
      if restoring s gr.ctx then .waits s
      else if u.newwin = w then .done (rewindStatus s n) s
      else match scriptHere s gr.ctx with
        | some (l, sp) => inPhase (startReplay s gr.ctx l sp (.window w)) q j (n + 1)
        | none => .done 13 s
    else if replayOver s g gr.ctx then .done (rewindStatus s n) s
    else .waits s

/-- Replay: the context is thawed under the monitor, and the command waits until the script is spent, the window opens where it is
named, or the grid stops or ends before that (R348, R369). -/
def ctlReplay (till : CtlBlk → ReplayEnd) (change : CtlBlk → List Chunk → Option (List Chunk)) : CtlOp :=
  fun s q x j b g gr =>
  if (x.phase j).isSome then
    if replayOver s g gr.ctx || (decide (till b = .script) && !(s.scripted gr.ctx)) then .done 0 s else .waits s
  else if !(atRest s g gr) ∨ restoring s gr.ctx then .done 13 s
  else match scriptHere s gr.ctx with
    | none => .done 13 s
    | some (l, sp) => match change b l with
      | none => .done 13 s
      | some l => inPhase (startReplay s gr.ctx l sp (till b)) q j 0

/-- The party that arg0 of a reverse step names. -/
def ctlParty (g : Nat) (a : W64) : Option Party :=
  let inst := (a.extractLsb' 4 32).toNat
  match a.extractLsb' 0 3 with
  | 1#3 => some (.team g inst (a.extractLsb' 36 4).toNat)
  | 2#3 => some (.block g inst)
  | 3#3 => some (.cluster g inst)
  | 4#3 => some (.grid g)
  | _ => none

/-- Reverse step: back to the window where the party's chain before its current one was committed, and on until its
count is one less. Phase 0 waits for the restore, phase 1 for the replay. -/
def ctlReverseStep : CtlOp := fun s q x j b g gr =>
  match (mget s.ctxs gr.ctx).bind (·.ulog), ctlParty g b.a0 with
  | some u, some p =>
    match x.phase j with
    | none =>
      match (chainsOf s gr.ctx p).bind (reverseGoal p u.ckpts.reverse) with
      | none => .done 13 s
      | some (ck, n) =>
        if !(atRest s g gr) ∨ !(u.reaches ck) ∨ !(scriptFor s gr.ctx ck) then .done 13 s
        else inPhase (rewindTo s gr.ctx g gr u ck) q j (2 * n)
    | some k =>
      if k % 2 = 0 then
        if restoring s gr.ctx then .waits s
        else match scriptHere s gr.ctx with
          | some (l, sp) => inPhase (startReplay s gr.ctx l sp (.chains p (k / 2))) q j (k + 1)
          | none => .done 13 s
      else if replayOver s g gr.ctx then .done 0 s
      else .waits s
  | _, _ => .done 13 s

/-- Host marker: a grid window opens. Where the log is full and stalls, it is not performed and the grid is pre-empted (R320,
R324). DEDUCED, log entry 66. -/
def ctlHostMarker : CtlOp := fun s _ _ _ b g gr =>
  if !(s.undoOn gr.ctx) then .done 13 s
  else if !(canOpen s gr.ctx .grid) then .done 13 (s.modGrid g fun x => if x.status = .running then { x with status := .saving } else x)
  else .done 0 (openWindow s g gr.ctx (nextWindow s gr.ctx) .grid (b.a0.setWidth 16) (s.engineOf (.grid g)))

/-- Release: a retained grid with those retained under it (R326). -/
def ctlReleaseRetained : CtlOp := fun s _ _ _ _ g gr =>
  if gr.status = .retained then .done 0 (releaseTree s g) else .done 13 s

/-! ### Debug read (R167, R316, R334) -/

/-- A frame of a grid, running or saved. -/
def anyFrame (s : State) (k : Nat) : Option Frame :=
  (mget s.frames k).orElse fun _ => s.images.findSome? fun e => mget e.2.frames k

/-- A byte of a grid's own memory, running or saved. -/
def anyByte (s : State) (k : Nat) : Byte :=
  match s.images.find? fun e => e.2.bytes.any fun b => decide (b.1 = k) with
  | some e => byteAt e.2.bytes k
  | none => byteAt s.mem k

/-- A cell of a frame store: header and slots; a free cell holds zeros and state 2. -/
def cellBytes (s : State) (g store inst cell : Nat) : List Byte :=
  match anyFrame s (fKey g store inst cell) with
  | some f => frameCell f
  | none => natBytes 32 (2 * 2 ^ 174) ++ List.replicate 128 0

/-- A byte of the frame store window of a grid, for the block and cluster instance that the debugger looks at. -/
def frameByte (s : State) (g b k off : Nat) : Byte :=
  let store := off / 2 ^ 32
  let o := off % 2 ^ 32
  if store < 3 then
    (cellBytes s g store (if store = 0 then b else if store = 1 then k else 0) (o / 160))[o % 160]?.getD 0
  else
    let (nteam, nlane) := match anyGrid s g with
      | some gr => (gr.lrec.nteam, gr.lrec.team)
      | none => (1, 1)
    if 2 ^ 31 ≤ o then anyByte s (spillKey g b ((o - 2 ^ 31) / 2 ^ 20) ((o - 2 ^ 31) % 2 ^ 20))
    else
      let r := o - 1280 * (nteam + 1)
      anyByte s (spillKey g b (r / (64 * nlane)) (r % (64 * nlane)))

/-- What the debug path tells of a context's counts and of its monitor: the totals, each with its number, then the chunk at the
position of each point of the script (R344, R348). -/
def traceBytes (c : Ctx) : List Byte :=
  let heads (l : List Chunk) : List Chunk := l.zipIdx.filterMap fun e =>
    if (l.take e.2).any fun x => x.at e.1.kind e.1.key then none else some e.1
  (c.totals.flatMap fun e => natBytes 8 e.1 ++ natBytes 8 e.2) ++
    (heads ((c.replay.map (·.script)).getD [])).flatMap fun ch => natBytes 16 (chunkBits ch)

/-- The bytes of a debug read: a frame store window address tells itself; which of undo log, record, image, and counts an
offset counts in is open. `b` is the block that the request names. DESIGN CHOICE, log entry 25. -/
def debugBytes (s : State) (g : Nat) (gr : Grid) (b at_ n : Nat) : List Byte × State :=
  let (k, s) := s.draw
  let open_ (i : Nat) : Byte := (Config.freeWord (k + i)).setWidth 8
  let c := mget s.ctxs gr.ctx
  let image := ((gridImage s g).map fun e => imageBytes gr.lrec e.2).getD []
  let counts := (c.map traceBytes).getD []
  let one (i : Nat) : Byte :=
    let a := at_ + i
    if windowOf a = some .frame then frameByte s g b (instOf b) (a % 2 ^ 52)
    else match k % 4, c.bind (·.ulog), c.bind (·.arb) with
      | 0, some u, _ => byteAt s.mem (memKey 0 (u.base + a % 2 ^ u.lg2))
      | 1, _, some r => byteAt s.mem (memKey 0 (r.base + a % 2 ^ r.lg2))
      | 2, _, _ => counts[a]?.getD (open_ i)
      | _, _, _ => image[a]?.getD (open_ i)
  ((List.range n).map one, s)

/-- Debug read: as many bytes as arg1 [31:0] says are stored at arg2, for the block that arg1 [63:32] names (log entry 25),
of a confidential context for the host administrator as ciphertext (R390). -/
def ctlDebugRead : CtlOp := fun s _ x _ b g gr =>
  let n := (b.a1.extractLsb' 0 32).toNat
  match qPlace s x b.a2 n with
  | .ok segs _ s =>
    let (bs, s) := debugBytes s g gr (b.a1.extractLsb' 32 32).toNat b.a0.toNat n
    .done 0 (giveBytes s x (((mget s.ctxs gr.ctx).map (·.conf)).getD false) segs bs)
  | .fault _ s => .fault 4 s
  | .waits s => .waits s
  | .dead pa => .dead pa

/-- The argument of the block at ka that tells the rows of ctrl 1 (arg1) and ctrl 9 (arg0) apart; 0 where it cannot be
read, which performing the command finds too. -/
def ctlMode (s : State) (x : Queue) (w : W64) (ka : W64) : W64 :=
  if w.extractLsb' 56 8 ≠ 0x18 then 0
  else match qRange s x.part x.space .load ka 64 with
    | .ok segs _ _ =>
      let n := bytesNat (readSegs s.mem segs)
      if ka.toNat % 8 ≠ 0 ∨ segsPoisoned s segs = true then 0
      else if w.extractLsb' 0 8 = 1 then BitVec.ofNat 64 (nfield n 192 64)
      else if w.extractLsb' 0 8 = 9 then BitVec.ofNat 64 (nfield n 128 64)
      else 0
    | _ => 0

/-! ### Meanings -/

/-- No change to the script. -/
def asIs : CtlBlk → List Chunk → Option (List Chunk) := fun _ l => some l

/-- The change of a perturbed replay. -/
def swapChunk : CtlBlk → List Chunk → Option (List Chunk) := fun b l => perturb l b.a1.toNat

def execCtrlPreempt (a d : BitVec 4) (s : State) : Out :=
  dispatched s
    (fun q x j => performCtl none ctlPreempt a s q x j fun s b => ctlPreemptDone s x b) fun v j => j.setReg d.toNat v
def execCtrlDisposeResume (a d : BitVec 4) (s : State) : Out :=
  control (some (1, 0)) (ctlDispose false) a d s
def execCtrlDisposeStep (a d : BitVec 4) (s : State) : Out :=
  control (some (1, 1)) (ctlDispose true) a d s
def execCtrlDisposeAbort (a d : BitVec 4) (s : State) : Out := control (some (1, 2)) ctlAbort a d s
def execCtrlFreeze (a d : BitVec 4) (s : State) : Out := control none (ctlFreeze true) a d s
def execCtrlThaw (a d : BitVec 4) (s : State) : Out := control none (ctlFreeze false) a d s
def execCtrlSetBreakpoint (a d : BitVec 4) (s : State) : Out := control none ctlSetBreakpoint a d s
def execCtrlRestoreImage (a d : BitVec 4) (s : State) : Out :=
  dispatched s
    (fun q x j => performCtl none ctlRestoreImage a s q x j fun s b => ctlRestoreForeign s q x j b) fun v j => j.setReg d.toNat v
def execCtrlInvalidateTlb (a d : BitVec 4) (s : State) : Out := control none ctlInvalidateTlb a d s
def execCtrlTrimLog (a d : BitVec 4) (s : State) : Out := control none ctlTrimLog a d s
def execCtrlRewind (a d : BitVec 4) (s : State) : Out := control none ctlRewind a d s
def execCtrlReplay (a d : BitVec 4) (s : State) : Out :=
  control (some (0, 0)) (ctlReplay (fun _ => .script) asIs) a d s
def execCtrlReplayToWindow (a d : BitVec 4) (s : State) : Out :=
  control (some (0, 1)) (ctlReplay (fun b => .window (b.a1.setWidth 32)) asIs) a d s
def execCtrlReplayPerturb (a d : BitVec 4) (s : State) : Out :=
  control (some (0, 2)) (ctlReplay (fun _ => .script) swapChunk) a d s
def execCtrlDebugRead (a d : BitVec 4) (s : State) : Out := control none ctlDebugRead a d s
def execCtrlReleaseRetained (a d : BitVec 4) (s : State) : Out :=
  control none ctlReleaseRetained a d s
def execCtrlHostMarker (a d : BitVec 4) (s : State) : Out := control none ctlHostMarker a d s
def execCtrlReverseStep (a d : BitVec 4) (s : State) : Out := control none ctlReverseStep a d s

end Sys2Proof.Machine
end

