-- ==== Sys2Proof/Machine/Cpc.lean ====
section
/-! DEFINITION. The CPC cores (R13): RV64IMAC with machine-mode traps, from the RISC-V specifications that R13 and R372
name (log entry 13). -/

namespace Sys2Proof.Machine

/-! ### Registers, SRAM, traps -/

/-- Bytes of the two SRAMs of a core. -/
def imemBytes : Nat := 0x40000
def dmemBytes : Nat := 0x80000

/-- Register n; x0 reads zero and discards writes. -/
def Cpc.get (x : Cpc) (n : Nat) : W64 := if n = 0 then 0 else zget x.x n
def Cpc.put (x : Cpc) (n : Nat) (v : W64) : Cpc := if n = 0 then x else { x with x := zset x.x n v }

/-- TAKING A TRAP (R372): the pc and the cause are saved, interrupts are disabled with their enable kept, and the
core goes to mtvec. -/
def Cpc.trap (x : Cpc) (cause : Nat) (tval : W64) : Cpc :=
  let mie := x.mstatus.getLsbD 3
  let st := (x.mstatus &&& ~~~(0x1888 : W64)) ||| 0x1800 ||| (if mie then 0x80 else 0)
  { x with
    mepc := x.pc, mcause := BitVec.ofNat 64 cause, mtval := tval, mstatus := st, pc := x.mtvec &&& ~~~(3 : W64)
    resv := none }

/-- Returning from a trap: mret. -/
def Cpc.mret (x : Cpc) : Cpc :=
  let st := (x.mstatus &&& ~~~(0x88 : W64)) ||| 0x80 ||| (if x.mstatus.getLsbD 7 then 8 else 0)
  { x with pc := x.mepc, mstatus := st }

/-- Goes past an instruction. -/
def Cpc.next (x : Cpc) (len : Nat) : Cpc := { x with pc := x.pc + BitVec.ofNat 64 len, minstret := x.minstret + 1 }

/-- Data SRAM bytes at an address, where they all lie in it. -/
def Cpc.load (x : Cpc) (a : W64) (n : Nat) : Option Nat :=
  if a.toNat + n ≤ dmemBytes then some (readNat x.dmem a.toNat n) else none

def Cpc.store (x : Cpc) (a : W64) (n v : Nat) : Option Cpc :=
  if a.toNat + n ≤ dmemBytes then some { x with dmem := writeNat x.dmem a.toNat n v } else none

/-! ### CSRs -/

/-- A CSR as a read gives it: misa says RV64IMAC with no letter X, no vendor, architecture or implementation is told, and the
unprivileged counters exist; any other number is no CSR (R13). PRESUMED, log entry 13. -/
def Cpc.csr (x : Cpc) (hart : Nat) (clk : Nat) (n : Nat) : Option W64 :=
  match n with
  | 0x300 => some x.mstatus
  | 0x301 => some 0x8000000000001105
  | 0x304 => some x.mie
  | 0x305 => some x.mtvec
  | 0x340 => some x.mscratch
  | 0x341 => some x.mepc
  | 0x342 => some x.mcause
  | 0x343 => some x.mtval
  | 0x344 => some x.mip
  | 0xB00 => some x.mcycle
  | 0xB02 => some x.minstret
  | 0xC00 => some x.mcycle
  | 0xC01 => some (BitVec.ofNat 64 clk)
  | 0xC02 => some x.minstret
  | 0xF11 | 0xF12 | 0xF13 => some 0
  | 0xF14 => some (BitVec.ofNat 64 hart)
  | _ => none

/-- A CSR as a write leaves it: reserved and hard-wired fields stand (R13). PRESUMED, log entry 13. -/
def Cpc.setCsr (x : Cpc) (n : Nat) (v : W64) : Option Cpc :=
  match n with
  | 0x300 => some { x with mstatus := (v &&& 0x88) ||| 0x1800 }
  | 0x301 => some x
  | 0x304 => some { x with mie := v &&& 0x888 }
  | 0x305 => some { x with mtvec := v &&& ~~~(3 : W64) }
  | 0x340 => some { x with mscratch := v }
  | 0x341 => some { x with mepc := v &&& ~~~(1 : W64) }
  | 0x342 => some { x with mcause := v }
  | 0x343 => some { x with mtval := v }
  | 0x344 => some { x with mip := v &&& 0x888 }
  | 0xB00 => some { x with mcycle := v }
  | 0xB02 => some { x with minstret := v }
  | _ => none

/-! ### Compressed instructions -/

/-- Words of the base formats, from fields as numbers; immediates are taken mod their width. -/
def encR (f7 rs2 rs1 f3 rd op : Nat) : Nat := f7 * 2 ^ 25 + rs2 * 2 ^ 20 + rs1 * 2 ^ 15 + f3 * 2 ^ 12 + rd * 2 ^ 7 + op
def encI (imm rs1 f3 rd op : Nat) : Nat := imm % 2 ^ 12 * 2 ^ 20 + rs1 * 2 ^ 15 + f3 * 2 ^ 12 + rd * 2 ^ 7 + op
def encS (imm rs2 rs1 f3 : Nat) : Nat :=
  imm / 32 % 128 * 2 ^ 25 + rs2 * 2 ^ 20 + rs1 * 2 ^ 15 + f3 * 2 ^ 12 + imm % 32 * 2 ^ 7 + 0x23
def encB (imm rs2 rs1 f3 : Nat) : Nat :=
  imm / 2 ^ 12 % 2 * 2 ^ 31 + imm / 32 % 64 * 2 ^ 25 + rs2 * 2 ^ 20 + rs1 * 2 ^ 15 + f3 * 2 ^ 12 + imm / 2 % 16 * 2 ^ 8 +
    imm / 2 ^ 11 % 2 * 2 ^ 7 + 0x63
def encJ (imm rd : Nat) : Nat :=
  imm / 2 ^ 20 % 2 * 2 ^ 31 + imm / 2 % 1024 * 2 ^ 21 + imm / 2 ^ 11 % 2 * 2 ^ 20 + imm / 2 ^ 12 % 256 * 2 ^ 12 + rd * 2 ^ 7 + 0x6F

/-- A field of w bits, sign-extended mod 2^64. -/
def sextN (x w : Nat) : Nat := if x / 2 ^ (w - 1) % 2 = 1 then x % 2 ^ w + 2 ^ 64 - 2 ^ w else x % 2 ^ w

/-- The 32-bit instruction that a compressed one stands for; none where it is reserved or needs an absent extension. -/
def expandC (h : Nat) : Option Nat :=
  let f := nfield h
  let rd := f 7 5
  let r2 := f 2 5
  let a := 8 + f 7 3
  let b := 8 + f 2 3
  let imm6 := sextN (f 12 1 * 32 + f 2 5) 6
  let sh := f 12 1 * 32 + f 2 5
  match f 0 2, f 13 3 with
  | 0, 0 =>
    let imm := f 7 4 * 64 + f 11 2 * 16 + f 5 1 * 8 + f 6 1 * 4
    if imm = 0 then none else some (encI imm 2 0 b 0x13)
  | 0, 2 => some (encI (f 5 1 * 64 + f 10 3 * 8 + f 6 1 * 4) a 2 b 0x03)
  | 0, 3 => some (encI (f 5 2 * 64 + f 10 3 * 8) a 3 b 0x03)
  | 0, 6 => some (encS (f 5 1 * 64 + f 10 3 * 8 + f 6 1 * 4) b a 2)
  | 0, 7 => some (encS (f 5 2 * 64 + f 10 3 * 8) b a 3)
  | 1, 0 => some (encI imm6 rd 0 rd 0x13)
  | 1, 1 => if rd = 0 then none else some (encI imm6 rd 0 rd 0x1B)
  | 1, 2 => some (encI imm6 0 0 rd 0x13)
  | 1, 3 =>
    if rd = 2 then
      let imm := sextN (f 12 1 * 512 + f 3 2 * 128 + f 5 1 * 64 + f 2 1 * 32 + f 6 1 * 16) 10
      if imm = 0 then none else some (encI imm 2 0 2 0x13)
    else if imm6 = 0 then none
    else some (imm6 % 2 ^ 20 * 2 ^ 12 + rd * 2 ^ 7 + 0x37)
  | 1, 4 => match f 10 2 with
    | 0 => some (encI sh a 5 a 0x13)
    | 1 => some (encI (0x400 + sh) a 5 a 0x13)
    | 2 => some (encI imm6 a 7 a 0x13)
    | _ => match f 12 1, f 5 2 with
      | 0, 0 => some (encR 0x20 b a 0 a 0x33)
      | 0, 1 => some (encR 0 b a 4 a 0x33)
      | 0, 2 => some (encR 0 b a 6 a 0x33)
      | 0, _ => some (encR 0 b a 7 a 0x33)
      | _, 0 => some (encR 0x20 b a 0 a 0x3B)
      | _, 1 => some (encR 0 b a 0 a 0x3B)
      | _, _ => none
  | 1, 5 =>
    let imm := sextN (f 12 1 * 2048 + f 11 1 * 16 + f 9 2 * 256 + f 8 1 * 1024 + f 7 1 * 64 + f 6 1 * 128 + f 3 3 * 2 + f 2 1 * 32) 12
    some (encJ imm 0)
  | 1, n =>
    let imm := sextN (f 12 1 * 256 + f 10 2 * 8 + f 5 2 * 64 + f 3 2 * 2 + f 2 1 * 32) 9
    some (encB imm 0 a (if n = 6 then 0 else 1))
  | 2, 0 => some (encI sh rd 1 rd 0x13)
  | 2, 2 => if rd = 0 then none else some (encI (f 12 1 * 32 + f 4 3 * 4 + f 2 2 * 64) 2 2 rd 0x03)
  | 2, 3 => if rd = 0 then none else some (encI (f 12 1 * 32 + f 5 2 * 8 + f 2 3 * 64) 2 3 rd 0x03)
  | 2, 4 =>
    if f 12 1 = 0 then
      if r2 = 0 then (if rd = 0 then none else some (encI 0 rd 0 0 0x67)) else some (encR 0 r2 0 0 rd 0x33)
    else if r2 = 0 then (if rd = 0 then some 0x00100073 else some (encI 0 rd 0 1 0x67))
    else some (encR 0 r2 rd 0 rd 0x33)
  | 2, 6 => some (encS (f 9 4 * 4 + f 7 2 * 64) r2 2 2)
  | 2, 7 => some (encS (f 10 3 * 8 + f 7 3 * 64) r2 2 3)
  | _, _ => none

/-! ### Execution -/

/-- What an instruction comes to: the core, or an exception with its value. -/
abbrev RvRes := Sum (Nat × W64) Cpc

/-- The low 32 bits, sign-extended. -/
def sext32 (v : W64) : W64 := (v.setWidth 32).signExtend 64

/-- Signed division toward zero, and its remainder, with RISC-V's corners. -/
def rvDiv {w : Nat} (a b : BitVec w) : BitVec w := if b = 0 then BitVec.allOnes w else BitVec.sdiv a b
def rvRem {w : Nat} (a b : BitVec w) : BitVec w := if b = 0 then a else BitVec.srem a b
def rvDivu {w : Nat} (a b : BitVec w) : BitVec w := if b = 0 then BitVec.allOnes w else a / b
def rvRemu {w : Nat} (a b : BitVec w) : BitVec w := if b = 0 then a else a % b

/-- OP and OP-IMM on 64 bits; shifts take 6 bits of the amount. -/
def rvAlu (f3 : Nat) (alt : Bool) (a b : W64) : W64 :=
  let sh := b.toNat % 64
  match f3 with
  | 0 => if alt then a - b else a + b
  | 1 => a <<< sh
  | 2 => if a.slt b then 1 else 0
  | 3 => if a.ult b then 1 else 0
  | 4 => a ^^^ b
  | 5 => if alt then BitVec.sshiftRight a sh else a >>> sh
  | 6 => a ||| b
  | _ => a &&& b

/-- The 32-bit forms. -/
def rvAluW (f3 : Nat) (alt : Bool) (a b : W64) : Option W64 :=
  let x : W32 := a.setWidth 32
  let y : W32 := b.setWidth 32
  let sh := b.toNat % 32
  match f3 with
  | 0 => some ((if alt then x - y else x + y).signExtend 64)
  | 1 => some ((x <<< sh).signExtend 64)
  | 5 => some ((if alt then BitVec.sshiftRight x sh else x >>> sh).signExtend 64)
  | _ => none

/-- The multiply and divide instructions. -/
def rvMul (f3 : Nat) (a b : W64) : W64 :=
  match f3 with
  | 0 => a * b
  | 1 => BitVec.ofInt 64 (a.toInt * b.toInt / 2 ^ 64)
  | 2 => BitVec.ofInt 64 (a.toInt * b.toNat / 2 ^ 64)
  | 3 => BitVec.ofNat 64 (a.toNat * b.toNat / 2 ^ 64)
  | 4 => rvDiv a b
  | 5 => rvDivu a b
  | 6 => rvRem a b
  | _ => rvRemu a b

def rvMulW (f3 : Nat) (a b : W64) : Option W64 :=
  let x : W32 := a.setWidth 32
  let y : W32 := b.setWidth 32
  match f3 with
  | 0 => some ((x * y).signExtend 64)
  | 4 => some ((rvDiv x y).signExtend 64)
  | 5 => some ((rvDivu x y).signExtend 64)
  | 6 => some ((rvRem x y).signExtend 64)
  | 7 => some ((rvRemu x y).signExtend 64)
  | _ => none

/-- Whether a branch is taken. -/
def rvCond (f3 : Nat) (a b : W64) : Option Bool :=
  match f3 with
  | 0 => some (decide (a = b))
  | 1 => some (decide (a ≠ b))
  | 4 => some (a.slt b)
  | 5 => some (!(a.slt b))
  | 6 => some (a.ult b)
  | 7 => some (!(a.ult b))
  | _ => none

/-- The result of an AMO on n bytes: old and operand to new. -/
def rvAmo (f5 n : Nat) (old x : W64) : Option W64 :=
  let lt := if n = 4 then (old.setWidth 32).slt (x.setWidth 32) else old.slt x
  let ult := if n = 4 then (old.setWidth 32).ult (x.setWidth 32) else old.ult x
  match f5 with
  | 0 => some (old + x)
  | 1 => some x
  | 4 => some (old ^^^ x)
  | 8 => some (old ||| x)
  | 12 => some (old &&& x)
  | 16 => some (if lt then old else x)
  | 20 => some (if lt then x else old)
  | 24 => some (if ult then old else x)
  | 28 => some (if ult then x else old)
  | _ => none

/-- LR, SC and the AMOs. -/
def rvAtomic (x : Cpc) (f5 rd : Nat) (a v : W64) (n len : Nat) : RvRes :=
  let fit (y : Nat) : W64 := if n = 4 then sext32 (BitVec.ofNat 64 y) else BitVec.ofNat 64 y
  if a.toNat % n ≠ 0 then .inl (if f5 = 2 then 4 else 6, a)
  else match x.load a n with
    | none => .inl (if f5 = 2 then 5 else 7, a)
    | some old =>
      if f5 = 2 then .inr ({ x with resv := some a.toNat }.put rd (fit old) |>.next len)
      else if f5 = 3 then
        if x.resv = some a.toNat then .inr (({ (x.store a n v.toNat).getD x with resv := none }.put rd 0).next len)
        else .inr (({ x with resv := none }.put rd 1).next len)
      else match rvAmo f5 n (BitVec.ofNat 64 old) v with
        | some new => .inr ((((x.store a n new.toNat).getD x).put rd (fit old)).next len)
        | none => .inl (2, 0)

/-- SYSTEM: environment calls, returns and CSR instructions. -/
def rvSystem (x : Cpc) (hart clk : Nat) (w : Nat) (len : Nat) : RvRes :=
  let rd := nfield w 7 5
  let rs1 := nfield w 15 5
  let f3 := nfield w 12 3
  let n := nfield w 20 12
  if f3 = 0 then
    if w = 0x00000073 then .inl (11, 0)
    else if w = 0x00100073 then .inl (3, x.pc)
    else if w = 0x30200073 then .inr { x.mret with minstret := x.minstret + 1 }
    else if w = 0x10500073 then .inr (x.next len)
    else .inl (2, 0)
  else if f3 = 4 then .inl (2, 0)
  else match x.csr hart clk n with
    | none => .inl (2, 0)
    | some old =>
      let v : W64 := if 4 ≤ f3 then BitVec.ofNat 64 rs1 else x.get rs1
      let new : Option W64 := match f3 % 4 with
        | 1 => some v
        | 2 => if rs1 = 0 then none else some (old ||| v)
        | _ => if rs1 = 0 then none else some (old &&& ~~~v)
      match new with
      | none => .inr ((x.put rd old).next len)
      | some v => match x.setCsr n v with
        | some y => .inr ((y.put rd old).next len)
        | none => .inl (2, 0)

/-- One RV64IMA instruction of 32 bits, of a length that counts where the next stands. FENCE.I, which RV64IMAC has not, does
nothing. DESIGN CHOICE, log entry 105. -/
def rvExec (x : Cpc) (hart clk : Nat) (w : Nat) (len : Nat) : RvRes :=
  let rd := nfield w 7 5
  let f3 := nfield w 12 3
  let f7 := nfield w 25 7
  let a := x.get (nfield w 15 5)
  let b := x.get (nfield w 20 5)
  let immI : W64 := BitVec.ofNat 64 (sextN (nfield w 20 12) 12)
  let immS : W64 := BitVec.ofNat 64 (sextN (nfield w 25 7 * 32 + nfield w 7 5) 12)
  let immB : W64 := BitVec.ofNat 64
    (sextN (nfield w 31 1 * 2 ^ 12 + nfield w 7 1 * 2 ^ 11 + nfield w 25 6 * 32 + nfield w 8 4 * 2) 13)
  let immU : W64 := BitVec.ofNat 64 (sextN (nfield w 12 20 * 2 ^ 12) 32)
  let immJ : W64 := BitVec.ofNat 64
    (sextN (nfield w 31 1 * 2 ^ 20 + nfield w 12 8 * 2 ^ 12 + nfield w 20 1 * 2 ^ 11 + nfield w 21 10 * 2) 21)
  let illegal : RvRes := .inl (2, BitVec.ofNat 64 w)
  let write (v : W64) : RvRes := .inr ((x.put rd v).next len)
  let goto (y : Cpc) (pc : W64) : RvRes := .inr { y with pc := pc, minstret := y.minstret + 1 }
  let system (r : RvRes) : RvRes := match r with
    | .inl (2, _) => illegal
    | r => r
  match nfield w 0 7 with
  | 0x37 => write immU
  | 0x17 => write (x.pc + immU)
  | 0x6F => goto (x.put rd (x.pc + BitVec.ofNat 64 len)) (x.pc + immJ)
  | 0x67 => if f3 = 0 then goto (x.put rd (x.pc + BitVec.ofNat 64 len)) ((a + immI) &&& ~~~(1 : W64)) else illegal
  | 0x63 => match rvCond f3 a b with
    | some true => goto x (x.pc + immB)
    | some false => .inr (x.next len)
    | none => illegal
  | 0x03 =>
    let n := 2 ^ (f3 % 4)
    if f3 = 7 then illegal
    else match x.load (a + immI) n with
      | none => .inl (5, a + immI)
      | some v => write (BitVec.ofNat 64 (if 4 ≤ f3 then v else sextN v (8 * n)))
  | 0x23 =>
    let n := 2 ^ f3
    if 4 ≤ f3 then illegal
    else match x.store (a + immS) n (b.toNat % 2 ^ (8 * n)) with
      | none => .inl (7, a + immS)
      | some y => .inr (y.next len)
  | 0x13 =>
    let alt := decide (f3 = 5 ∧ nfield w 26 6 = 0x10)
    if (f3 = 1 ∧ nfield w 26 6 ≠ 0) ∨ (f3 = 5 ∧ nfield w 26 6 ≠ 0 ∧ nfield w 26 6 ≠ 0x10) then illegal
    else write (rvAlu f3 alt a immI)
  | 0x1B =>
    if (f3 = 1 ∧ f7 ≠ 0) ∨ (f3 = 5 ∧ f7 ≠ 0 ∧ f7 ≠ 0x20) then illegal
    else match rvAluW f3 (decide (f3 = 5 ∧ f7 = 0x20)) a immI with
      | some v => write v
      | none => illegal
  | 0x33 =>
    if f7 = 1 then write (rvMul f3 a b)
    else if f7 = 0 ∨ (f7 = 0x20 ∧ (f3 = 0 ∨ f3 = 5)) then write (rvAlu f3 (decide (f7 = 0x20)) a b)
    else illegal
  | 0x3B =>
    if f7 = 1 then match rvMulW f3 a b with
      | some v => write v
      | none => illegal
    else if f7 = 0 ∨ (f7 = 0x20 ∧ (f3 = 0 ∨ f3 = 5)) then match rvAluW f3 (decide (f7 = 0x20)) a b with
      | some v => write v
      | none => illegal
    else illegal
  | 0x0F => if f3 ≤ 1 then .inr (x.next len) else illegal
  | 0x2F =>
    if (f3 = 2 ∨ f3 = 3) ∧ !(decide (nfield w 27 5 = 2) && decide (nfield w 20 5 ≠ 0)) then
      system (rvAtomic x (nfield w 27 5) rd a b (2 ^ f3) len)
    else illegal
  | 0x73 => system (rvSystem x hart clk w len)
  | _ => illegal

/-- One instruction word of a core, compressed or not. -/
def rvWord (x : Cpc) (hart clk : Nat) (w : Nat) : RvRes :=
  if w % 4 = 3 then rvExec x hart clk w 4
  else match expandC (w % 2 ^ 16) with
    | some e => rvExec x hart clk e 2
    | none => .inl (2, BitVec.ofNat 64 (w % 2 ^ 16))

/-! ### The core whose turn it is -/

/-- Changes a core. -/
def State.modCpc (s : State) (n : Nat) (f : Cpc → Cpc) : State := { s with cpcs := mmod s.cpcs n f }

/-- The core whose turn it is, running. -/
def withCpc (s : State) (f : Nat → Cpc → Out) : Out :=
  match s.turn with
  | .cpc n => match mget s.cpcs n with
    | some x => if x.stopped then .next s else f n x
    | none => .refused .noParty
  | _ => .refused .noParty

/-- Carries out what an instruction of a core comes to: its result, or the trap it raises. -/
def cpcDone (s : State) (n : Nat) (x : Cpc) (r : RvRes) : Out :=
  .next { s with cpcs := mset s.cpcs n (match r with
    | .inr y => { y with mcycle := y.mcycle + 1 }
    | .inl (c, v) => x.trap c v) }

/-- CPC_CORE_INSTRUCTION: an ordinary RV64IMAC instruction (R13). -/
def execCpcCoreInstruction (w : BitVec 32) (s : State) : Out :=
  withCpc s fun n x => cpcDone s n x (rvWord x n s.clk w.toNat)

/-- What a core fetches at its pc: a word, an access fault, or a word with an uncorrectable error (R13, R376). -/
inductive CpcFetch where
  | word (w : BitVec 32)
  | fault (s : State)
  | bad
deriving DecidableEq, Repr

/-- The fetch at a core's pc. An access that straddles an SRAM's end reports its first address (R13). DESIGN CHOICE, log entry
106. -/
def cpcFetch (s : State) (n : Nat) : Option CpcFetch :=
  (mget s.cpcs n).map fun x =>
    let pc := x.pc.toNat
    let lo := readNat x.imem pc 2
    let len := if lo % 4 = 3 then 4 else 2
    if imemBytes < pc + len then .fault { s with cpcs := mset s.cpcs n (x.trap 1 x.pc) }
    else match x.badWord with
      | some a => if a < pc + len ∧ pc < a + 4 then .bad else .word (BitVec.ofNat 32 (readNat x.imem pc 4))
      | none => .word (BitVec.ofNat 32 (readNat x.imem pc 4))

end Sys2Proof.Machine
end

