-- ==== Sys2Proof/Machine/Xnov.lean ====
section
/-! DEFINITION. The Xnov instructions of the CPC cores (R371 to R376, R379, R380). Each goes past its word, or traps with
the cause and value of R372 and leaves the queue as it stood. -/

namespace Sys2Proof.Machine

/-! ### Device errors -/

/-- Changes the registrar's state. -/
def State.modReg (s : State) (f : Registrar → Registrar) : State := { s with reg := f s.reg }

/-- An error code in DEVREADY; that of a registrar that has stopped stays (R412). -/
def Registrar.failing (r : Registrar) (code : Nat) : Registrar :=
  if r.ready.error = 9 then r else { r with ready := { r.ready with error := BitVec.ofNat 8 code } }

/-- DEVICE ERROR (R376, R412): READY clears, every queue is held, every scheduler core stops, vector 0 of every function
is raised; the registrar writes a health event unless it is the one that failed. Running grids stop. DEDUCED, log entry
74. -/
def deviceError (s : State) (code : Nat) : State :=
  let s := s.modReg fun r => r.failing code
  let hold (e : Nat × Queue) : Nat × Queue := (e.1, { e.2 with held := true })
  let stop (e : Nat × Cpc) : Nat × Cpc := if e.1 < 7 then (e.1, { e.2 with stopped := true }) else e
  let halt (e : Nat × Grid) : Nat × Grid := if e.2.status = .retained then e else (e.1, { e.2 with status := .aborted })
  let s := { s with queues := s.queues.map hold, cpcs := s.cpcs.map stop, grids := s.grids.map halt }
  let s := s.raiseAll
  if code = 9 then s else s.health none 9 0x3007 code 0 0

/-! ### Journal images and descriptors in data SRAM -/

/-- The 320 bytes of a journal image (R380). -/
def jimgBytes (j : JImg) : List Byte :=
  natBytes 8 j.rptr.toNat ++ natBytes 8 j.csn.toNat ++
    natBytes 8 (packFields [(0, j.state.toNat), (8, j.fault.toNat), (16, j.depth % 16)]) ++
    (j.bstack.flatMap fun e => natBytes 8 e.1.toNat ++ natBytes 4 e.2.1.toNat ++ natBytes 4 e.2.2.toNat) ++
    (j.k.flatMap fun v => natBytes 8 v.toNat) ++ List.replicate 40 0

/-- The image that 320 bytes hold. -/
def jimgOf (bs : List Byte) : JImg :=
  let w (at_ n : Nat) : Nat := bytesNat ((bs.drop at_).take n)
  { rptr := BitVec.ofNat 64 (w 0 8), csn := BitVec.ofNat 64 (w 8 8), state := BitVec.ofNat 4 (w 16 1)
    fault := BitVec.ofNat 8 (w 17 1), depth := w 18 1 % 16
    bstack := (List.range 8).map fun e =>
      (BitVec.ofNat 64 (w (24 + 16 * e) 8), BitVec.ofNat 32 (w (32 + 16 * e) 4), BitVec.ofNat 32 (w (36 + 16 * e) 4))
    k := (List.range 16).map fun n => BitVec.ofNat 64 (w (152 + 8 * n) 8) }

/-- The dwords of a descriptor (log entry 26); none where it lies outside the data SRAM. -/
def Cpc.dwords (x : Cpc) (a : W64) (n : Nat) : Option (List W64) :=
  if a.toNat + 8 * n ≤ dmemBytes then some ((List.range n).map fun i => BitVec.ofNat 64 (readNat x.dmem (a.toNat + 8 * i) 8))
  else none

/-! ### Execution -/

/-- What an Xnov instruction comes to: a value for rd, a trap (in a state of its own), or that it cannot complete yet. -/
inductive XRes where
  | ok (v : W64) (s : State)
  | trap (cause : Nat) (tval : W64)
  | trapIn (cause : Nat) (tval : W64) (s : State)
  | stall (s : State)
  | dead (pa : Nat)

/-- An instruction of the core whose turn it is: its operands' values, then the write of rd and the next pc. -/
def xnov (rs2 rs1 rd : BitVec 5) (s : State) (f : Nat → Cpc → W64 → W64 → XRes) : Out :=
  withCpc s fun n x => match f n x (x.get rs1.toNat) (x.get rs2.toNat) with
    | .ok v s => .next (s.modCpc n fun y => { (y.put rd.toNat v).next 4 with mcycle := y.mcycle + 1 })
    | .trap c v => .next (s.modCpc n fun y => y.trap c v)
    | .trapIn c v s => .next (s.modCpc n fun y => y.trap c v)
    | .stall s' => .next s'
    | .dead pa => .fault (.noSuchMemory pa)

/-- The queue that rs1 names, where the core owns it; else cause 24 (R372). -/
def owned (s : State) (n : Nat) (q : W64) (f : Nat → Queue → XRes) : XRes :=
  match mget s.queues q.toNat with
  | some x => if q.toNat < 1024 ∧ x.core = n then f q.toNat x else .trap 24 q
  | none => .trap 24 q

/-- kfetch. A queue is idle where no command stands at its position. DEDUCED, log entry 72. -/
def execKfetch (rs2 rs1 rd : BitVec 5) (s : State) : Out :=
  xnov rs2 rs1 rd s fun n _ a _ => owned s n a fun q x =>
    let none_ : W64 := BitVec.allOnes 64
    match x.newest with
    | none => .trap 26 a
    | some j =>
      if unserved j || !(x.hasWork j) then .ok none_ s
      else match fetchCommand s x j with
        | .word w => .ok w (feedMonitors s 1 (Config.waited 1 s.clk))
        | .bad => .ok none_ (queueFault s q 4)
        | .waits s => .stall s

/-- kbfx. -/
def execKbfx (rs2 rs1 rd : BitVec 5) (s : State) : Out :=
  xnov rs2 rs1 rd s fun _ _ a b =>
    let p := (b.extractLsb' 0 6).toNat
    let w0 := (b.extractLsb' 6 6).toNat
    let w := if w0 = 0 then 64 else w0
    if 64 < p + w then .trap 25 b else .ok (BitVec.ofNat 64 (a.toNat / 2 ^ p % 2 ^ w)) s

/-- kwait: the condition is read now, or the wait is armed. A word that cannot be read gives rd an open value (log entry
27). -/
def execKwait (rs2 rs1 rd : BitVec 5) (s : State) : Out :=
  xnov rs2 rs1 rd s fun n x a b => owned s n a fun q y =>
    match x.dwords b 3 with
    | some [va, v, c] =>
      if 6 < c.toNat then .trap 27 a
      else match readWaited s y va v c.toNat with
        | .done o s =>
          if waitCond c.toNat 8 o.toNat v.toNat then .ok 1 s
          else .ok 0 (s.modQueue q fun z => { z with armed := some ⟨va, v, c.setWidth 4, s.clk + 4096⟩ })
        | .fault _ s =>
          let (k, s) := s.draw
          .ok (Config.freeWord k) s
        | .waits s => .stall s
        | .dead pa => .dead pa
    | _ => .trap 29 b

/-! ### kdisp (R371, R373) -/

/-- A launch, dispatched: accepted or refused at once, or not yet to be judged (R364). -/
def doLaunch (s : State) (q : Nat) (x : Queue) (csn ka kb kc : W64) (prio : Nat) : DispRes :=
  let (id, s') := s.fresh
  let pl : PLaunch :=
    { launcher := .queue q, party := none, part := x.part, space := x.space, queue := q, csn := csn, prio := prio, depth := 1
      recAt := ka, raw := none, params := [], ctxAt := kb, ctx := none, sig := kc, dreg := 0 }
  match judge s' id pl with
  | .waits s' => .waits (if s'.fills = s.fills then s else s')
  | .refused st s => .done (st.setWidth 64) s
  | .go l new brks stop s => .done 0 (acceptGrid s id pl l new brks stop)
  | .dead pa => .dead pa

/-- How the front end performs a dispatched command with the values ka, kb and kc; none for any other command. -/
def dispatchFn (i : Instr) (ka kb kc : W64) : Option (State → Nat → Queue → JImg → DispRes) :=
  let ctl (arg : Option (Nat × Nat)) (f : CtlOp) : Option (State → Nat → Queue → JImg → DispRes) :=
    some fun s q x j => performCtl arg f 0 s q x (j.setReg 0 ka)
  match i with
  | .cmdSt _ _ imm => some fun s _ x _ => doSt s x (kb + imm.signExtend 64) ka
  | .signalWrite _ _ => some fun s _ x _ => doSignal s x false ka kb
  | .signalAdd _ _ => some fun s _ x _ => doSignal s x true ka kb
  | .cmdCopy _ _ _ => some fun s _ x _ => doCopy s x ka kb kc
  | .cmdMigrate _ _ _ t => some fun s q x j => doMigrate s q x j.csn ka kc t.toNat 16
  | .cmdLaunch _ _ _ _ p => some fun s q x j => doLaunch s q x j.csn ka kb kc p.toNat
  | .launchg _ _ _ => some fun s q x j => doLaunchg s q x j.csn ka kb
  | .ctrlPreempt _ _ => some fun s q x j => performCtl none ctlPreempt 0 s q x (j.setReg 0 ka) fun s b => ctlPreemptDone s x b
  | .ctrlDisposeResume _ _ => ctl (some (1, 0)) (ctlDispose false)
  | .ctrlDisposeStep _ _ => ctl (some (1, 1)) (ctlDispose true)
  | .ctrlDisposeAbort _ _ => ctl (some (1, 2)) ctlAbort
  | .ctrlFreeze _ _ => ctl none (ctlFreeze true)
  | .ctrlThaw _ _ => ctl none (ctlFreeze false)
  | .ctrlSetBreakpoint _ _ => ctl none ctlSetBreakpoint
  | .ctrlRestoreImage _ _ =>
    some fun s q x j => performCtl none ctlRestoreImage 0 s q x (j.setReg 0 ka) fun s b => ctlRestoreForeign s q x j b
  | .ctrlInvalidateTlb _ _ => ctl none ctlInvalidateTlb
  | .ctrlTrimLog _ _ => ctl none ctlTrimLog
  | .ctrlRewind _ _ => ctl none ctlRewind
  | .ctrlReplay _ _ => ctl (some (0, 0)) (ctlReplay (fun _ => .script) asIs)
  | .ctrlReplayToWindow _ _ => ctl (some (0, 1)) (ctlReplay (fun b => .window (b.a1.setWidth 32)) asIs)
  | .ctrlReplayPerturb _ _ => ctl (some (0, 2)) (ctlReplay (fun _ => .script) swapChunk)
  | .ctrlDebugRead _ _ => ctl none ctlDebugRead
  | .ctrlReleaseRetained _ _ => ctl none ctlReleaseRetained
  | .ctrlHostMarker _ _ => ctl none ctlHostMarker
  | .ctrlReverseStep _ _ => ctl none ctlReverseStep
  | _ => none

/-- Whether a word is that of a ctrl whose operation R369 lists. -/
def ctlListed (w : W64) : Bool :=
  decide (w.extractLsb' 56 8 = 0x18) && (decodeCmd w 0).isSome

/-- kdisp: a csn in the window returns its status; an older one traps; a newer one is performed. A ctrl whose block names
no mode breaks a rule as a reserved bit does (R362). DEDUCED, log entry 70. -/
def execKdisp (rs2 rs1 rd : BitVec 5) (s : State) : Out :=
  xnov rs2 rs1 rd s fun n x a b => owned s n a fun q y =>
    match x.dwords b 5 with
    | some [csn, w, ka, kb, kc] =>
      if y.newest.isNone then .trap 26 a
      else
      let refuse (s : State) (code : Nat) : XRes :=
        let v : W64 := BitVec.ofNat 64 (2 ^ 63 + code)
        .ok v (queueFault (enterWindow s q csn v) q code)
      let older : Bool := match y.window with
        | e :: _ => decide (csn.toNat < e.1.toNat)
        | [] => false
      match y.window.find? fun e => decide (e.1 = csn) with
      | some e => .ok e.2 s
      | none =>
        if older then .trap 28 csn
        else match (decodeCmd w (ctlMode s y w ka)).bind fun i => dispatchFn i ka kb kc with
          | none => if ctlListed w then refuse s 1 else .trap 27 a
          | some f => match f s q y { y.img with csn := csn } with
            | .done v s => .ok v (enterWindow s q csn v)
            | .fault code s => refuse s code
            | .waits s => .stall s
            | .dead pa => .dead pa
    | _ => .trap 29 b

/-! ### The journal, holds and the roll call -/

/-- kjrnl. -/
def execKjrnl (rs2 rs1 : BitVec 5) (s : State) : Out :=
  xnov rs2 rs1 0 s fun n x a b => owned s n a fun q y =>
    if dmemBytes < b.toNat + 320 then .trap 29 b
    else if y.newest.isNone then .trap 26 a
    else .ok 0 (kjournal s q (jimgOf (readBytes x.dmem b.toNat 320)))

/-- Trap 26 of kjrnl.r: both halves of an entry are lost. At the substitute adoption ends there, and the registrar reports a device
error as for a substitute that has failed (R372, R381). -/
def lostEntry (s : State) (n : Nat) (q : W64) : XRes :=
  if n = 6 then .trapIn 26 q (deviceError s 8) else .trap 26 q

/-- kjrnl.r. -/
def execKjrnlR (rs2 rs1 rd : BitVec 5) (s : State) : Out :=
  xnov rs2 rs1 rd s fun n _ a b => owned s n a fun _ y =>
    if dmemBytes < b.toNat + 320 then .trap 29 b
    else match y.newest with
      | none => lostEntry s n a
      | some j => .ok (if y.written then 1 else 0)
          (s.modCpc n fun z => { z with dmem := writeBytes z.dmem b.toNat (jimgBytes j) })

/-- khold. -/
def execKhold (rs2 rs1 rd : BitVec 5) (s : State) : Out :=
  xnov rs2 rs1 rd s fun n _ a _ => owned s n a fun q _ =>
    let held := (s.fifo.filter fun e => decide (e.queue = q)).length
    .ok (BitVec.ofNat 64 held) (s.modQueue q fun y => { y with held := true })

/-- krel: grids that waited for room in the FIFO complete then. -/
def execKrel (rs2 rs1 rd : BitVec 5) (s : State) : Out :=
  xnov rs2 rs1 rd s fun n _ a _ => owned s n a fun q _ =>
    let (k, s) := releaseFifo s q
    .ok (BitVec.ofNat 64 k) (settleWaiting s)

/-- kroll. -/
def execKroll (rs2 rs1 rd : BitVec 5) (s : State) : Out :=
  xnov rs2 rs1 rd s fun n _ a _ =>
    if 15 < a.toNat then .trap 24 a
    else
      let (w, s) := takeRoll s n a.toNat
      .ok w s

end Sys2Proof.Machine
end

