-- ==== Sys2Proof/Machine/Mgmt.lean ====
section
/-! DEFINITION. The management path and what the registrar does with it: partitions, queues, tables, lending, export and
import, turnover (R383 to R389, R398 to R402, R408 to R410), device errors and take-over (R376, R412). -/

namespace Sys2Proof.Machine

/-! ### The registrar -/

/-- The answer to a request; its layout is open. -/
def State.answer (s : State) (k : Nat) (data : List Byte) : State := s.modReg fun r => { r with mgmt := Config.mgmtBytes k data }

/-- A request of the management path, which READY 0 answers without effect (R404). -/
def request (s : State) (f : State → State) : Out := .next (if s.reg.isReady then f s else s.answer 0x100 [])

/-- CPC_IMEM_UNCORRECTABLE (R376): the core stops with the hardware error trap. A scheduler core's queues are held and go
to the substitute, which starts at the adoption entry with the mask of them; a failed substitute or registrar is a device
error. Where in the substitute's data SRAM the mask lies is open. DESIGN CHOICE, log entry 83. -/
def execCpcImemUncorrectable (core : Nat) (s : State) : Out :=
  happens s <|
    (mget s.cpcs core).bind fun x =>
    if x.stopped then none
    else
      let s := s.modCpc core fun x => { x with
        stopped := true, hardTrap := true, mcause := 19, mepc := x.pc, badWord := none }
      if core = 7 then some (deviceError s 9)
      else
        let mine := (s.queues.filter fun e => decide (e.2.core = core)).map (·.1)
        let s := mine.foldl (fun s q => s.modQueue q fun y => { y with held := true }) s
        if core = 6 then some (deviceError s 8)
        else
          let s := mine.foldl (fun s q => s.modQueue q fun y => { y with core := 6 }) s
          let (k, s) := s.draw
          let at_ := k % (dmemBytes / 8 - 16) * 8
          let mask := (mine.map fun q => 2 ^ q).sum
          let entry := ((s.reg.firmware.map (·.adopt)).getD 0)
          some (s.modCpc 6 fun y => if y.hardTrap then y else
            { (y.put 10 (BitVec.ofNat 64 core)).put 11 (BitVec.ofNat 64 at_) with
              pc := entry, stopped := false, dmem := writeNat y.dmem at_ 128 mask })

/-- ECC_INJECTION: the next fetch of an instruction SRAM word is uncorrectable (R382). -/
def execEccInjection (core addr : Nat) (s : State) : Out :=
  happens s <|
    if core < 8 ∧ addr < imemBytes then some (s.modCpc core fun x => { x with badWord := some (addr / 4 * 4) }) else none

/-! ### Partition records (R384, R385) -/

/-- Whether two ranges given by base and size meet; an empty one meets none. -/
def meets (a n b m : Nat) : Bool := decide (0 < n ∧ 0 < m ∧ a < b + m ∧ b < a + n)

/-- Whether an address space root names no table within the partition's tiers, or has a reserved bit set; an invalid root
is not looked at but for those. -/
def rootBad (r : BitVec 512) (i : Nat) : Bool :=
  let x := pfield r (256 + 64 * i) 64
  nfield x 0 1 = 1 && !(inTier r (nfield x 1 1) (nfield x 11 41 * 2 ^ 11) 2048)

/-- The first field that makes the registrar refuse a record, in R385's order, named by its lowest bit in R384's table; of a
condition over several fields the first that it names. -/
def recordFault (s : State) (p : Nat) (r : BitVec 512) : Option Nat :=
  let others := (s.parts.filter fun e => decide (e.1 ≠ p)).map (·.2.record)
  let f := pfield r
  let gm := maskClusters r 32
  let mm := maskClusters r 64
  let taken (k : Nat) : Bool := others.any fun o => (ownClusters o).contains k
  let passes (at_ whole : Nat) : Bool := decide (whole < f at_ 16 + f (at_ + 16) 16) ||
    others.any fun o => meets (f at_ 16) (f (at_ + 16) 16) (pfield o at_ 16) (pfield o (at_ + 16) 16)
  let keys := others.any fun o => meets (f 144 8) (f 152 8 + 1) (pfield o 144 8) (pfield o 152 8 + 1)
  let roots := (List.range 4).map fun i => (rootBad r i, 256 + 64 * i)
  let rsv := [(0, 8), (24, 1), (26, 6), (56, 8), (88, 8), (120, 8), (138, 6), (168, 24)] ++
    (List.range 4).flatMap fun i => [(256 + 64 * i + 2, 9), (256 + 64 * i + 52, 12)]
  let checks : List (Bool × Nat) := [(gm.isEmpty, 32), (gm.any fun k => mm.contains k, 64), (gm.any taken, 32), (mm.any taken, 64),
    (decide (f 8 4 + f 12 4 + f 16 4 ≠ 8), 8), (decide (f 12 4 = 0), 12), (decide (f 16 4 = 0 ∧ f 240 16 ≠ 0), 16),
    (decide (f 208 16 = 0), 208), (passes 192 768, 192), (passes 224 2048, 224),
    (decide (255 < f 144 8 + f 152 8) || keys, 144), (!(inKeySet r (f 160 8)), 160)] ++ roots ++
    [(decide (f 20 4 = 0), 20)] ++ rsv.map fun e => (decide (f e.1 e.2 ≠ 0), e.1)
  (checks.find? (·.1)).map (·.2)

/-- A partition as creation leaves it. -/
def Part.fresh (r : BitVec 512) : Part :=
  ⟨r, [], [], [], [], [], [], 0, 0, none, true, 0⟩

/-- Creation: the record is validated and written, or the first failing field is named. -/
def execPartitionCreate (p : Nat) (rec : BitVec 512) (s : State) : Out :=
  request s fun s =>
    if 24 ≤ p ∨ (mget s.parts p).isSome then s.answer 0x101 []
    else match recordFault s p rec with
      | some k => s.answer k [1]
      | none => { s with parts := mset s.parts p (Part.fresh rec) }.answer 0 [0]

/-- Whether two records split their slices alike (R247). -/
def sameSplit (a b : BitVec 512) : Bool := decide (pfield a 8 12 = pfield b 8 12)

/-- Change: as creation, for a partition that exists; its split holds for its life (R247), so that a record with another one is
refused with the field that tells it. -/
def execPartitionChange (p : Nat) (rec : BitVec 512) (s : State) : Out :=
  request s fun s =>
    match mget s.parts p with
    | none => s.answer 0x101 []
    | some x => match recordFault s p rec with
      | some k => s.answer k [1]
      | none =>
        if sameSplit x.record rec then { s with parts := mset s.parts p { x with record := rec } }.answer 0 [0]
        else s.answer 8 [1]

/-- Every root grid of a partition, running or saved, ends with status aborted (R295). -/
def abortPart (s : State) (p : Nat) : State :=
  let saved := s.images.filterMap fun e => match e.2.grid with
    | some gr => if gr.part = p ∧ gr.depth = 1 then some e.2.gid else none
    | none => none
  let here := (s.grids.filter fun e => decide (e.2.part = p ∧ e.2.depth = 1)).map (·.1)
  let s := (here ++ saved).foldl abortTree s
  { s with launches := s.launches.filter fun e => decide (e.2.part ≠ p) }

/-- Takes a partition's clusters, its queues and all that hangs on it out of the machine. -/
def removePart (s : State) (p : Nat) : State :=
  let back (e : Nat × Part) : Nat × Part := (e.1, { e.2 with
    lent := e.2.lent.filter fun l => decide (l.2 ≠ p)
    revoking := e.2.revoking.filter fun c => decide (mget e.2.lent c ≠ some p) })
  { s with
    parts := (mdel s.parts p).map back
    queues := s.queues.filter fun e => decide (e.2.part ≠ p)
    tables := s.tables.filter fun e => (match mget s.queues e.2.queue with
      | some q => decide (q.part ≠ p)
      | none => true)
    tlb := s.tlb.filter fun t => decide (t.part ≠ p)
    misses := s.misses.filter fun t => decide (t.part ≠ p)
    sigs := s.sigs.filter fun t => decide (t.part ≠ p)
    done := s.done.filter fun t => decide (t.part ≠ p)
    icache := s.icache.filter fun t => decide (t.part ≠ p)
    fills := s.fills.filter fun e => decide (e.2.part ≠ p)
    migrs := s.migrs.filter fun e => decide (e.2.part ≠ p)
    vectors := s.vectors.filter fun e => decide (e.1 / 64 ≠ p + 1)
    mailboxes := s.mailboxes.filter fun e => decide (e.1 / 64 ≠ p + 1) }

/-! ### Queues (R353, R400, R401) -/

/-- Creation of a queue: bound to a function, a partition and an address space, with its ring in tier 1 and its owning
core. A queue that is disabled may be created anew. -/
def execQueueCreate (q fn part space m core vec : Nat) (ring : W64) (s : State) : Out :=
  request s fun s =>
    let taken : Bool := match mget s.queues q with
      | some x => decide (x.img.state ≠ 0)
      | none => false
    match mget s.parts part with
    | none => s.answer 0x101 []
    | some p =>
      if taken || !p.available || !(inTier p.record 0 ring.toNat (8 * 2 ^ (m + 6))) ||
          decide (1024 ≤ q ∨ (fn ≠ 0 ∧ fn ≠ part + 1) ∨ 4 ≤ space ∨ 11 < m ∨ 5 < core ∨ vecCount fn ≤ vec ∨ ring.toNat % 8 ≠ 0)
      then s.answer 0x101 []
      else
        let x : Queue :=
          { fn := fn, part := part, space := space, m := m, core := core, vector := vec, ring := ring.toNat, wptr := 0
            retries := 0, dropped := 0, stopReq := false, held := false, disabled := false, armed := none
            halfA := JImg.initial, halfB := JImg.initial, badA := false, badB := false, written := false, newestB := false
            window := [], begun := none }
        { s with queues := mset s.queues q x }.answer 0 [0]

/-- A queue image (R401). An entry that the window has not filled holds a csn no queue reaches (log entry 28). -/
def queueImage (x : Queue) : List Byte :=
  let w := x.window ++ List.replicate (4 - x.window.length) (BitVec.allOnes 64, 0)
  let (a, v, c) : W64 × W64 × Nat := match x.armed with
    | some a => (a.addr, a.value, a.cond.toNat + 16)
    | none => (0, 0, 0)
  jimgBytes x.img ++ natBytes 8 a.toNat ++ natBytes 8 v.toNat ++ natBytes 8 c ++
    (w.flatMap fun e => natBytes 8 e.1.toNat ++ natBytes 4 e.2.toNat ++ natBytes 4 0) ++ natBytes 4 x.wptr.toNat ++
    List.replicate 36 0

/-- Export: refused while the queue is held; its state is 0 from then on. -/
def execQueueExport (q : Nat) (s : State) : Out :=
  request s fun s => match mget s.queues q with
    | none => s.answer 0x101 []
    | some x =>
      if x.held then s.answer 0x102 []
      else
        let s := s.modQueue q fun x => { x.write { x.img with state := 0 } with disabled := true, armed := none }
        s.modReg fun r => { r with mgmt := queueImage x }

/-- Import of a queue image into a queue of the partition: its armed wait is evaluated again before the queue runs. -/
def execQueueImport (q part : Nat) (img : List Byte) (s : State) : Out :=
  request s fun s => match mget s.queues q with
    | none => s.answer 0x101 []
    | some x =>
      if x.part ≠ part ∨ img.length ≠ 448 then s.answer 0x101 []
      else
        let w (at_ n : Nat) : Nat := bytesNat ((img.drop at_).take n)
        let armed : Option Armed := if w 336 8 / 16 % 2 = 1 then
            some ⟨BitVec.ofNat 64 (w 320 8), BitVec.ofNat 64 (w 328 8), BitVec.ofNat 4 (w 336 8 % 16), s.clk⟩ else none
        let win := ((List.range 4).map fun i => (BitVec.ofNat 64 (w (344 + 16 * i) 8), BitVec.ofNat 64 (w (352 + 16 * i) 4))).filter
          fun e => decide (e.1 ≠ BitVec.allOnes 64)
        (s.modQueue q fun x => { x.write (jimgOf (img.take 320)) with
          wptr := BitVec.ofNat 32 (w 408 4), window := win, armed := armed, disabled := false }).answer 0 [0]

/-! ### Tables and numbers -/

/-- Regeneration table (R231). -/
def execRegenerationTableWrite (p e : Nat) (ent : BitVec 256) (s : State) : Out :=
  request s fun s =>
    if 64 ≤ e ∨ (mget s.parts p).isNone ∨ (ent.extractLsb' 0 16).toNat ≠ 0 then s.answer 0x101 []
    else
      let r : RegenEnt := ⟨ent.extractLsb' 0 64, ent.extractLsb' 64 64, ent.extractLsb' 128 64, ent.extractLsb' 192 64⟩
      { s with parts := mmod s.parts p fun x => { x with regen := mset x.regen e r } }.answer 0 [0]

/-- Message endpoints (R399): inbound entries 0 to 7, outbound ones beside them. -/
def execMessageEndpointBind (p e : Nat) (inbound : Bool) (dev part q : Nat) (csn : W64) (s : State) : Out :=
  request s fun s =>
    if (inbound ∧ 8 ≤ e) ∨ 1024 ≤ dev ∨ (mget s.parts p).isNone then s.answer 0x101 []
    else
      let x : Endpoint := ⟨inbound, dev, part, q, csn⟩
      { s with parts := mmod s.parts p fun y => { y with ends := mset y.ends (if inbound then e else 8 + e) x } }.answer 0 [0]

/-- Import table (R398). -/
def execImportTableWrite (p e dev part : Nat) (first last : W64) (key : BitVec 8) (s : State) : Out :=
  request s fun s =>
    if 16 ≤ e ∨ (mget s.parts p).isNone then s.answer 0x101 []
    else
      let x : ImportEnt := ⟨dev, part, first, last, key⟩
      { s with parts := mmod s.parts p fun y => { y with imports := mset y.imports e x } }.answer 0 [0]

/-- Device number (R398). -/
def execDeviceNumberAssign (n : BitVec 10) (s : State) : Out := request s fun s => (s.modReg fun r => { r with devno := n }).answer 0 [0]

/-- Deadlock timeout, 1 to 1,000 µs (R395). -/
def execDeadlockTimeoutSet (us : Nat) (s : State) : Out :=
  request s fun s =>
    if us < 1 ∨ 1000 < us then s.answer 0x101 [] else (s.modReg fun r => { r with deadlockUs := us }).answer 0 [0]

/-- A tenant key, inside the secure session held with that tenant (R383). -/
def execTenantKeyLoad (p : Nat) (key : BitVec 8) (wrapped : List Byte) (s : State) : Out :=
  request s fun s => match mget s.parts p with
    | none => s.answer 0x101 []
    | some x =>
      if x.session.isNone || !(inKeySet x.record key.toNat) then s.answer 0x101 []
      else
        let k := Config.unwrapKey (x.session.getD 0) wrapped
        { s with parts := mset s.parts p { x with keys := mset x.keys key.toNat k } }.answer 0 [0]

/-! ### Lending (R387 to R389) -/

/-- The partition whose margin holds a cluster. -/
def lenderOf (s : State) (cl : Nat) : Option (Nat × Part) := s.parts.find? fun e => (maskClusters e.2.record 64).contains cl

/-- Whether a lent cluster takes a grid's blocks: it has no wide control (R387). -/
def lendable (gr : Grid) : Bool := !gr.lrec.gctl && !gr.lrec.cctl

/-- Whether a partition has a block waiting for placement that a lent cluster takes: one never placed, or a saved one that the
scheduler restores (R275, R303, R387). -/
def blockPending (s : State) (p : Nat) : Bool :=
  (s.grids.any fun e => decide (e.2.part = p ∧ e.2.nextBlk < e.2.lrec.grid) && s.live e.1 && lendable e.2) ||
    s.images.any fun e => e.2.auto && !e.2.blocks.isEmpty && (match (s.grid e.2.gid).orElse fun _ => e.2.grid with
      | some gr => decide (gr.part = p) && lendable gr
      | none => false)

/-- The cores of a cluster hold no block, and it no instance. -/
def clusterIdle (s : State) (cl : Nat) : Bool :=
  !(s.blocks.any fun e => decide (e.2.core / 4 = cl)) && !(s.clusters.any fun e => decide (e.2.cluster = cl))

/-- CLUSTER_LEND: the lowest-numbered eligible borrower with a block waiting takes an idle margin cluster. -/
def execClusterLend (cl : Nat) (s : State) : Out :=
  happens s <|
    (lenderOf s cl).bind fun (l, x) =>
    if !(clusterIdle s cl) || (mget x.lent cl).isSome then none
    else
      let takes (e : Nat × Part) : Bool := decide (e.1 ≠ l) && e.2.record.getLsbD 25 && x.record.getLsbD (96 + e.1) &&
        blockPending s e.1
      (s.parts.find? takes).map fun e =>
        let s := { s with parts := mmod s.parts l fun y => { y with lent := mset y.lent cl e.1 } }
        (s.raise (l + 1) 0).raise (e.1 + 1) 0

/-- A cluster as it stands once it has returned to its lender: it holds nothing (R388). -/
def returned (s : State) (cl l : Nat) : State :=
  let there (core : Nat) : Bool := decide (core / 4 = cl)
  { s with
    parts := mmod s.parts l fun y => { y with lent := mdel y.lent cl, revoking := y.revoking.filter fun c => decide (c ≠ cl) }
    blocks := s.blocks.filter fun e => !(there e.2.core)
    teams := s.teams.filter fun e => !(there e.2.core)
    bins := s.bins.filter fun e => !(there (e.1 / 16))
    clusters := s.clusters.filter fun e => decide (e.2.cluster ≠ cl) }

/-- Whether a partition has a block waiting, never placed or saved, that a cluster would hold once it has returned (R388). -/
def wouldHold (s : State) (cl l : Nat) : Bool :=
  let t := returned s cl l
  (List.range 4).any fun i =>
    (t.grids.any fun e => decide (e.2.part = l) && t.live e.1 && (placeNext t e.1 (4 * cl + i)).isSome) ||
    t.images.any fun e => !e.2.blocks.isEmpty && (match (t.grid e.2.gid).orElse fun _ => e.2.grid with
      | some gr => decide (gr.part = l)
      | none => false) && (restoreNext t e.1 (4 * cl + i)).isSome

/-- A revocation: no new placements, and the borrower's blocks there are saved as partial images. -/
def revoke (s : State) (cl l : Nat) : State :=
  let s := { s with parts := mmod s.parts l fun y => { y with revoking := sadd1 y.revoking cl } }
  let here (g b : Nat) : Bool := match s.block g b with
    | some x => decide (x.core / 4 = cl)
    | none => false
  let gs := ((s.blocks.filter fun e => decide (e.2.core / 4 = cl)).map fun e => bkGrid e.1).dedup
  gs.foldl (fun s g => (saveParts s g (here g) false true false none).2) s

/-- Every cluster that a partition has lent is revoked: what the borrowers have there is saved (R389). -/
def recallLent (s : State) (p : Nat) : State :=
  ((((mget s.parts p).map (·.lent)).getD []).map (·.1)).foldl (fun s cl => revoke s cl p) s

/-- Destruction: the partition's grids end and its queues go; clusters that it had lent are scrubbed and leave both partitions
(R389). -/
def execPartitionDestroy (p : Nat) (s : State) : Out :=
  request s fun s =>
    if (mget s.parts p).isNone then s.answer 0x101 [] else (removePart (abortPart (recallLent s p) p) p).answer 0 [0]

/-- CLUSTER_REVOKE: the lender has a block waiting that the cluster would hold. -/
def execClusterRevoke (cl : Nat) (s : State) : Out :=
  happens s <|
    (lenderOf s cl).bind fun (l, x) =>
    if (mget x.lent cl).isSome ∧ cl ∉ x.revoking ∧ wouldHold s cl l then some (revoke s cl l) else none

/-- HOST_REVOKE: the host administrator asks for it. -/
def execHostRevoke (cl : Nat) (s : State) : Out :=
  request s fun s => match lenderOf s cl with
    | some (l, x) => if (mget x.lent cl).isSome ∧ cl ∉ x.revoking then (revoke s cl l).answer 0 [0] else s.answer 0x101 []
    | none => s.answer 0x101 []

/-- REVOCATION_RETURN: scrubbed, the cluster returns to its lender, and vector 0 of both functions is raised. -/
def execRevocationReturn (cl : Nat) (s : State) : Out :=
  happens s <|
    (lenderOf s cl).bind fun (l, x) => (mget x.lent cl).bind fun b =>
    if cl ∈ x.revoking ∧ clusterIdle s cl then
      let s := (List.range 4).foldl (fun s i => coldCore s (4 * cl + i)) s
      let s := { s with parts := mmod s.parts l fun y => { y with
        lent := mdel y.lent cl, revoking := y.revoking.filter fun c => decide (c ≠ cl) } }
      some ((s.raise (l + 1) 0).raise (b + 1) 0)
    else none

end Sys2Proof.Machine
end

