-- ==== Sys2Proof/Machine/Bringup.lean ====
section
/-! DEFINITION. Bring-up, firmware, the exam, turnover, rails, links, health and attestation (R346, R395, R397, R403 to
R412). -/

namespace Sys2Proof.Machine

/-! ### Configuration and firmware (R405, R406, R409) -/

/-- Sets or clears a bit of DEVREADY. -/
def setReadyBit (r : Registrar) (n : Nat) (b : Bool) : Registrar :=
  let m := BitVec.ofNat 8 (2 ^ n)
  { r with ready := { r.ready with bits := if b then r.ready.bits ||| m else r.ready.bits &&& ~~~m } }

/-- Sets the error of DEVREADY. -/
def setError (r : Registrar) (n : Nat) : Registrar := { r with ready := { r.ready with error := BitVec.ofNat 8 n } }

/-- The registrar has stopped (R376, R412). -/
def Registrar.isDead (r : Registrar) : Bool := decide (r.ready.error = 9)

/-- CONFIGURATION_LOAD: into the staging window; the boot ROM looks at it in step 1. -/
def execConfigurationLoad (bytes : List Byte) (s : State) : Out := .next (s.modReg fun r => { r with config := some bytes })

/-- A field of an image's header. -/
def headerField (n : Nat) (bytes : List Byte) : Nat := Config.firmwareField n (bytes.take 64)

/-- A firmware image: header and body, without the signature. -/
def parseFirmware (bytes : List Byte) : Firmware :=
  let b := bytes.take (64 + headerField 10 bytes)
  ⟨headerField 0 bytes, BitVec.ofNat 64 (headerField 1 bytes), b, Config.digest b⟩

/-- Whether R406 refuses an image: it is not a header, a body of the header's length and a signature that verifies; its version is
below the record's minimum; or its body passes the instruction SRAM of a core from the load address there. -/
def firmwareBad (r : Registrar) (bytes : List Byte) : Bool :=
  !(Config.signatureOk bytes) || decide (headerField 0 bytes < Config.configVersion (r.verified.getD [])) ||
    decide (bytes.length ≠ 448 + headerField 10 bytes) ||
    (List.range 8).any fun n => decide (imemBytes < headerField (2 + n) bytes + headerField 10 bytes)

/-- A core with an image in its instruction SRAM, at its entry; the substitute waits for a take-over (R376). -/
def bootCore (f : Firmware) (n : Nat) : Cpc :=
  let at_ := headerField (2 + n) f.body
  { Cpc.reset with pc := BitVec.ofNat 64 at_, stopped := decide (n = 6), imem := writeBytes [] at_ (f.body.drop 64) }

/-- Loads an image into the cores' instruction SRAMs and starts the scheduler cores and the registrar. -/
def startFirmware (s : State) (f : Firmware) : State :=
  { s with
    cpcs := s.cpcs.map fun e => (e.1, bootCore f e.1)
    reg := { s.reg with firmware := some f, staged := none } }

/-- Restarts the scheduler cores that have stopped under R376 with the image that runs (R409). -/
def restartCores (s : State) : State :=
  match s.reg.firmware with
  | some f => { s with cpcs := s.cpcs.map fun e => if e.2.stopped ∧ e.1 < 6 then (e.1, bootCore f e.1) else e }
  | none => s

/-- DEVREADY's error once an image has verified: a refused one's is gone, and a failed exam stands. DESIGN CHOICE, log entry 80. -/
def imageGood (r : Registrar) : Registrar :=
  if r.ready.error = 2 then setError r (if r.ready.bits.getLsbD 7 then 0 else 5) else r

/-- An image that a running device is given: refused with error 2; or measured where it is the running one, and staged where it is
not (R406, R409). -/
def giveImage (s : State) (bytes : List Byte) : State :=
  let f := parseFirmware bytes
  if firmwareBad s.reg bytes then s.modReg fun r => setError r 2
  else s.modReg fun r => imageGood
    (if (r.firmware.map (·.digest)) = some f.digest then r else { r with staged := some f })

/-- FIRMWARE_LOAD: before step 4 of the bring-up the image waits for that step; later the registrar looks at it at once. -/
def execFirmwareLoad (bytes : List Byte) (s : State) : Out :=
  .next <|
    if s.reg.isDead then s
    else if s.reg.step < 4 then s.modReg fun r => { r with image := some bytes }
    else giveImage s bytes

/-! ### The exam (R410) -/

/-- A unit that a test of the exam can name (R15, R410), of the clusters under test: a core or a slice, a core, a core or a slice, a
die-to-IO link, a memory controller. -/
def examUnit (test : Nat) (clusters : List Nat) (n : Nat) : Nat :=
  let core := 4 * ((clusters[n / 8 % max 1 clusters.length]?).getD 0) + n / 2 % 4
  match test with
  | 2 => core
  | 4 => 0x4000 + 18 + n % 4
  | 5 => 0x8000 + n % 24
  | _ => if n % 2 = 0 then core else 0x1000 + core

/-- The result word of an exam that has failed: its first failing test, of those that its form runs, the unit and the test's index
within it are open (R410). -/
def examWord (full : Bool) (clusters : List Nat) (n : Nat) : W64 :=
  let test := 1 + n % (if full then 4 else 5)
  BitVec.ofNat 64 (packFields [(1, test), (8, examUnit test clusters (n / 5)), (24, (Config.freeWord n).toNat % 2 ^ 40)])

/-- Every cluster, which an exam in full form covers. -/
def allClusters : List Nat := List.range 24

/-- Runs the exam on clusters, in full form on every unit: the result word, bit 7 of DEVREADY, and error 5 while it has failed. The
clusters' condition is the device's own. DEDUCED, log entry 82. -/
def runExam (s : State) (full : Bool) (clusters : List Nat) : Bool × State :=
  let (n, s) := s.draw
  let ok := Config.stepOk n
  let word : W64 := if ok then 1 else examWord full (if full then allClusters else clusters) n
  (ok, s.modReg fun r =>
    let r := setReadyBit { r with exam := word } 7 ok
    if ok then (if r.ready.error = 5 then setError r 0 else r) else setError r 5)

/-- Whether an exam that has failed is all that keeps the device from READY: it may be requested again (R410). -/
def examWaits (r : Registrar) : Bool :=
  decide (6 ≤ r.step ∧ r.ready.bits ||| 0x80 = 0xFF ∧ (r.ready.error = 0 ∨ r.ready.error = 5))

/-- EXAM_REQUEST, on a device that is READY or that only a failed exam keeps from it (R404, R410). A partition that a turnover or a
failed exam has kept unavailable is free for a new record where it passes, and one that fails is unavailable. -/
def execExamRequest (p : Nat) (full : Bool) (s : State) : Out :=
  .next <|
    if !(s.reg.isReady) && !(examWaits s.reg) then s.answer 0x100 []
    else
      let cs := ((mget s.parts p).map fun x => ownClusters x.record).getD allClusters
      let (ok, s) := runExam s full cs
      let s := if ok then s.modReg fun r => { r with step := 6 } else s
      match mget s.parts p with
      | some x =>
        if !ok then { s with parts := mset s.parts p { x with available := false } }
        else if x.available then s else removePart s p
      | none => s

/-! ### Power-on (R403) -/

/-- Ends a step of the bring-up that has failed: its bits stay clear and the device stops there. -/
def bootFails (s : State) (error : Nat) : State := s.modReg fun r => { setError r error with step := 7 }

/-- Step 3 of the bring-up: both tiers zero, every key tag clear, every SRAM scrubbed; the host's and peers' memory is not the
device's. -/
def scrubAll (s : State) : State :=
  let theirs (k : Nat) : Bool := decide (memKey 2 0 ≤ k ∧ k < memKey 4 0)
  { s with
    mem := s.mem.filter fun e => theirs e.1
    poison := s.poison.filter fun k => theirs (k * 64)
    keyTags := [] }

/-- The next step of the bring-up; none where it waits for the host. DESIGN CHOICE, log entry 80. -/
def bootStep (s : State) : Option State :=
  let up (s : State) (bits : List Nat) : State := s.modReg fun r => { bits.foldl (fun r n => setReadyBit r n true) r with step := r.step + 1 }
  let (n, s') := s.draw
  match s.reg.step with
  | 0 => s.reg.config.map fun c =>
    if Config.signatureOk c && Config.configOk c then
      up (s.modReg fun r => { r with verified := some c, identity := some (Config.identityKey c) }) [0]
    else bootFails s 1
  | 1 => some (if Config.stepOk n then up s' [1, 2, 3] else bootFails s' 3)
  | 2 => some (if Config.stepOk n then up (scrubAll s') [4] else bootFails s' 4)
  | 3 => s.reg.image.map fun b => if firmwareBad s.reg b then bootFails s 2 else up (startFirmware s (parseFirmware b)) [5]
  | 4 => some (up s [6])
  | 5 =>
    let (ok, s) := runExam s true allClusters
    some (s.modReg fun r => { r with step := if ok then 6 else 7 })
  | _ => none

/-- POWER_ON_RESET: the boot ROM's next step; on a device that is up, or whose bring-up has stopped, a power-on, after
which the machine stands at its reset state with the model's own counters kept. -/
def execPowerOnReset (s : State) : Out :=
  if s.reg.step < 6 then happens s (bootStep s)
  else .next { State.reset with turn := s.turn, seed := s.seed, inputs := s.inputs, nextId := s.nextId, outbox := s.outbox }

/-! ### Turnover (R408, R409) -/

/-- The word that DEVREADY reads as (R404): reserved bits read 0 (R3). -/
def DevReady.word (r : DevReady) : W32 :=
  BitVec.ofNat 32 (packFields [(0, r.bits.toNat), (16, r.error.toNat), (31, if r.bits = 0xFF ∧ r.error = 0 then 1 else 0)])

/-- Zeroes a partition's ranges of both tiers, with their poison and key tags. -/
def zeroTiers (s : State) (r : BitVec 512) : State :=
  [0, 1].foldl (fun s t =>
    let (b, n) := tierRange r t
    let k := memKey t b
    { s with
      mem := scrubRange s.mem k n
      poison := s.poison.filter fun a => !decide (k ≤ a * 64 ∧ a * 64 < k + n)
      keyTags := s.keyTags.filter fun e => !decide (k ≤ e.1 * 65536 ∧ e.1 * 65536 < k + n) }) s

/-- The bytes of an image on their way out of the device, of a confidential context as ciphertext (R390). -/
def sendImage (s : State) (i : Image) : State :=
  match (s.grid i.gid).orElse fun _ => i.grid with
  | some gr =>
    let conf := ((mget s.ctxs gr.ctx).map (·.conf)).getD false
    let (bs, s) := showBytes s 0 conf (imageBytes gr.lrec i)
    { s with outbox := s.outbox ++ [.image bs] }
  | none => s

/-- Saves every root grid of a partition for its departing tenant: the images leave the device. DEDUCED, log entry 81. -/
def imagesOut (s : State) (p : Nat) : State :=
  let roots := (s.grids.filter fun e => decide (e.2.part = p ∧ e.2.depth = 1)).map (·.1)
  let s := roots.foldl (fun s g => saveTree s g false true none) s
  let s := (s.images.map (·.1)).foldl copyCsm s
  let ours := s.images.filter fun e => decide ((e.2.grid.map (·.part)) = some p)
  let s := (ours.map (·.2)).foldl sendImage s
  { s with images := s.images.filter fun e => !(ours.any fun o => decide (o.1 = e.1)) }

/-- What a turnover of a partition takes before its memory is scrubbed: queues stop, are disabled and lose their journal entries;
what it has lent is revoked; its grids end, or leave the device as images (R408). -/
def emptyPart (s : State) (p : Nat) (images : Bool) : State :=
  let blank : JImg := { JImg.initial with state := 0 }
  let off (e : Nat × Queue) : Nat × Queue :=
    if e.2.part = p then (e.1, { e.2 with
      halfA := blank, halfB := blank, badA := false, badB := false, written := true, newestB := false, disabled := true
      armed := none, window := [], begun := none, stopReq := false })
    else e
  let s := { s with
    queues := s.queues.map off
    fifo := s.fifo.filter fun e => decide (((mget s.queues e.queue).map (·.part)) ≠ some p) }
  let s := recallLent s p
  abortPart (if images then imagesOut s p else s) p

/-- Scrubs what a partition leaves behind: its clusters' SRAMs, both tiers' ranges with their key tags, its keys (R408). -/
def scrubPart (s : State) (p : Nat) (x : Part) : State :=
  let s := (ownClusters x.record).foldl (fun s c => (List.range 4).foldl (fun s i => coldCore s (4 * c + i)) s) s
  zeroTiers { s with parts := mset s.parts p { x with keys := [], session := none, lent := [], revoking := [] } } x.record

/-- A partition that stays unavailable (R410). -/
def keepPart (s : State) (p : Nat) : State := { s with parts := mmod s.parts p fun y => { y with available := false } }

/-- The end of a turnover (R408, R409): the image is verified and measured, the clusters take the exam, the partition is free. One
that covers every partition makes a staged image active, an equal one being left as it runs, and restarts stopped cores. -/
def finishTurnover (s : State) (p : Nat) (x : Part) (whole full : Bool) (fw : List Byte) : State :=
  let s' := giveImage s fw
  if firmwareBad s.reg fw then keepPart s' p
  else
    let s := if whole then (match s'.reg.staged with
      | some f => startFirmware s' f
      | none => restartCores s') else s'
    let (ok, s) := runExam s full (ownClusters x.record)
    if ok then removePart s p else keepPart s p

/-- TURNOVER: queues stop and are disabled, grids end or are saved, SRAM and memory are scrubbed, the image is verified,
the clusters take the exam, and the partition is free. On a device in error each partition's turnover leaves it removed, and the
last one runs steps 2 to 6 of the bring-up again with the image (R412). DEDUCED, log entry 81. -/
def execTurnover (p : Nat) (images full : Bool) (fw : List Byte) (s : State) : Out :=
  .next <| match mget s.parts p with
    | none => s.answer 0x101 []
    | some x =>
      let whole := s.parts.all fun e => decide (e.1 = p)
      let down := s.reg.isDown
      if !(s.reg.isReady) && !(examWaits s.reg) && !down then s.answer 0x100 []
      else
        let s := scrubPart (emptyPart s p images) p x
        if !down then finishTurnover s p x whole full fw
        else
          let s := removePart s p
          if whole then s.modReg fun r => { r with ready := ⟨1, 0⟩, step := 1, image := some fw, staged := none } else s

/-! ### Rails and monitors (R346, R411) -/

/-- Sums of a field over the samples of the last 100 µs. -/
def railMean (l : List (Nat × Nat × Nat × Nat)) (f : Nat × Nat × Nat × Nat → Nat) : Nat :=
  if l.isEmpty then 0 else (l.map f).sum / l.length

/-- RAIL_SAMPLE: current in mA, power in mW, temperature of the hottest die sensor in 1/8 °C, core rail in mV. A limit passed, over
100 µs or at once for the temperature, throttles the matrix and copy engines until all are below their limits, and writes a health
event as it is passed; the clusters' energy is apportioned as the telemetry tells. A registrar that has stopped samples nothing.
DESIGN CHOICE, log entry 78. -/
def execRailSample (current power temp volt : Nat) (s : State) : Out :=
  if s.reg.isDead then .next s
  else
  let (n, s) := s.draw
  let old := s.reg.rails
  let l := ((current, power, temp, volt) :: old).take 100
  let overI (l : List (Nat × Nat × Nat × Nat)) : Bool := decide (3600000 < railMean l (·.1))
  let overP (l : List (Nat × Nat × Nat × Nat)) : Bool := decide (1800000 < railMean l (·.2.1))
  let hot (l : List (Nat × Nat × Nat × Nat)) : Bool := decide (105 * 8 < (l.head?.map (·.2.2.1)).getD 0)
  let below := decide (railMean l (·.1) < 3600000 ∧ railMean l (·.2.1) < 1800000 ∧ temp < 105 * 8)
  let s := s.modReg fun r => { r with
    rails := l, throttle := overI l || overP l || hot l || (r.throttle && !below) }
  let s := feedMonitors (feedMonitors s 3 volt) 4 temp
  let s := { s with parts := s.parts.map fun e => (e.1, { e.2 with energy := e.2.energy + Config.freeWord (n + e.1) }) }
  let s := if (overI l && !(overI old)) || (overP l && !(overP old)) then
      s.health none 8 0x3007 0 (BitVec.ofNat 64 (if overI l && !(overI old) then current else power)) 0 else s
  let s := if hot l && !(hot old) then s.health none 8 0x3007 1 (BitVec.ofNat 64 temp) 0 else s
  .next (if volt < 370 ∨ 115 * 8 < temp then deviceError s 6 else s)

/-- HEALTH_MONITOR_READ_CLEAR: the answer holds the monitor. -/
def execHealthMonitorReadClear (m : Nat) (clear : Bool) (s : State) : Out :=
  request s fun s => match s.reg.monitors[m]? with
    | none => s.answer 0x101 []
    | some x =>
      let bytes := natBytes 8 x.min ++ natBytes 8 x.max ++ natBytes 8 x.count.toNat ++ x.bins.flatMap (natBytes 4)
      (s.modReg fun r => if clear then { r with monitors := r.monitors.set m Monitor.reset } else r).answer 0 bytes

/-- HEALTH_LOG_READ: the records, oldest first, and the count of those overwritten. -/
def execHealthLogRead (s : State) : Out :=
  request s fun s => s.modReg fun r => { r with mgmt := r.health.flatten ++ natBytes 8 r.overwritten.toNat }

/-! ### Links (R395, R397) -/

/-- Changes a link. -/
def State.modLink (s : State) (n : Nat) (f : Link → Link) : State := { s with links := mmod s.links n f }

/-- Replays of a link in the last 2^20 clk. -/
def Link.recent (x : Link) (clk : Nat) : List Nat := x.replays.filter fun t => decide (clk < t + 2 ^ 20)

/-- LINK_FRAME_ERROR: the frame is replayed. Sixteen replays within 2^20 clk, or a lane whose error counter crosses its limit, have
the link retrain (R397). -/
def execLinkFrameError (link : Nat) (s : State) : Out :=
  happens s <|
    (mget s.links link).bind fun x =>
    if !x.up then none
    else
      let (n, s) := s.draw
      let recent := s.clk :: x.recent s.clk
      let burst := decide (16 ≤ recent.length) && !x.retraining
      let s := s.modLink link fun y => { y with
        replays := recent, retries := y.retries + 1, retraining := y.retraining || burst || Config.laneOver n }
      let s := countLink (feedMonitors s 2 recent.length) 5 link 1
      some (if burst then s.health none 6 (0x4000 + link) 0 (BitVec.ofNat 64 recent.length) 0 else s)

/-- LINK_RETRAIN_COMPLETE: half width from then on; or it fails and goes down, the frames of its replay buffer are resent over
another port, and a die-to-IO link that goes down is a device error. Either feeds the link-retry monitors. DEDUCED, log entry 79. -/
def execLinkRetrainComplete (link : Nat) (ok : Bool) (s : State) : Out :=
  happens s <|
    (mget s.links link).bind fun x =>
    if !x.retraining then none
    else
    let replays := (x.recent s.clk).length
    if ok && !x.half then
      let s := s.modLink link fun y => { y with half := true, retraining := false, replays := [] }
      some ((feedMonitors s 2 replays).health none 6 (0x4000 + link) 1 (BitVec.ofNat 64 replays) 0)
    else
      let (n, s) := s.draw
      let s := s.modLink link fun y => { y with up := false, retraining := false }
      let resent := if link < 18 then (Config.freeWord n).toNat % 65 else 0
      let s := (feedMonitors s 2 replays).health none 7 (0x4000 + link) 0 (BitVec.ofNat 64 resent) 0
      some (if 18 ≤ link then deviceError s 7 else s)

/-- DEADLOCK_TIMEOUT: a flow moves to the escape channel. -/
def execDeadlockTimeout (flow : Nat) (s : State) : Out :=
  happens s (if (mget s.flows flow).isSome then none else some { s with flows := mset s.flows flow s.clk })

/-- A flow comes back to its channel; the flits that went by the escape channel are counted at a link, how many is open (R344,
R395). -/
def flowReturns (s : State) (flow : Nat) : State :=
  let (n, s) := s.draw
  countLink { s with flows := mdel s.flows flow } 6 (n % 22) (Config.freeNat n)

/-- ESCAPE_RETURN: a flow that has had no packet in flight for 1 µs comes back; whether it has is open, and timing. -/
def execEscapeReturn (flow : Nat) (s : State) : Out :=
  happens s ((mget s.flows flow).bind fun since => if s.clk < since + 850 then none else some (flowReturns s flow))

/-- Flows that have been on the escape channel for four timeouts come back in every case (R395). -/
def lateFlows (s : State) : State :=
  ((s.flows.filter fun e => decide (e.2 + 4 * 850 * s.reg.deadlockUs ≤ s.clk)).map (·.1)).foldl flowReturns s

/-! ### SPDM (R407) -/

/-- Whether the registrar answers SPDM requests: it has its identity key, and runs. -/
def Registrar.attests (r : Registrar) : Bool := r.identity.isSome && !r.isDead

/-- Answers an SPDM request: response code k over what it covers and the identity key that signs it, with the transcript of both; a
request out of order is answered with an error and changes nothing else. A registrar without its identity answers nothing. -/
def spdm (s : State) (k : Nat) (req : List Byte) (inOrder : Nat → Bool) (next : Nat → Nat) (covers : List Byte) : State :=
  if !(s.reg.attests) then s
  else if !(inOrder s.reg.spdmState) then s.modReg fun r => { r with spdm := Config.spdmBytes 0x7F [] }
  else s.modReg fun r =>
    let t := (if k = 0 then [] else r.transcript) ++ BitVec.ofNat 8 k :: req
    let a := Config.spdmBytes k (r.identity.getD [] ++ covers ++ t)
    { r with spdm := a, transcript := t ++ a, spdmState := next r.spdmState }

/-- Algorithms agreed. -/
def spdmReady (n : Nat) : Bool := decide (3 ≤ n)

def execGetVersion (s : State) : Out := .next (spdm s 0 [] (fun _ => true) (fun _ => 1) [])
def execGetCapabilities (s : State) : Out := .next (spdm s 1 [] (fun n => decide (n = 1)) (fun _ => 2) [])
def execNegotiateAlgorithms (req : List Byte) (s : State) : Out := .next (spdm s 2 req (fun n => decide (n = 2)) (fun _ => 3) [])
def execGetDigests (s : State) : Out := .next (spdm s 3 [] spdmReady id (s.reg.verified.getD []))
def execGetCertificate (off len : Nat) (s : State) : Out :=
  .next (spdm s 4 (natBytes 4 off ++ natBytes 4 len) spdmReady id (s.reg.verified.getD []))
def execChallenge (nonce : List Byte) (s : State) : Out := .next (spdm s 5 nonce spdmReady id (s.reg.verified.getD []))

/-- A measurement. -/
def measured (s : State) (p idx : Nat) : List Byte :=
  match idx with
  | 1 => Config.bootRom
  | 2 => (s.reg.firmware.map (·.body)).getD []
  | 3 => s.reg.verified.getD []
  | 4 => natBytes 8 s.reg.exam.toNat
  | 5 => match mget s.parts p with
    | some x => natBytes 64 x.record.toNat
    | none => []
  | _ => []

def execGetMeasurements (p idx : Nat) (nonce : List Byte) (s : State) : Out :=
  .next (spdm s 6 (natBytes 4 idx ++ nonce) spdmReady id
    (if idx = 0xFF then (List.range 6).flatMap (measured s p) else measured s p idx))

/-- KEY_EXCHANGE with the tenant of a partition: its session stands once FINISH has verified. -/
def execKeyExchange (p : Nat) (share : List Byte) (s : State) : Out := .next (spdm s 7 share spdmReady (fun _ => 8 + p) [])

def execFinish (mac : List Byte) (s : State) : Out :=
  .next <|
    let p := s.reg.spdmState - 8
    let ok := s.reg.attests && decide (8 ≤ s.reg.spdmState) && Config.finishOk (s.reg.transcript ++ mac)
    let s := spdm s 8 mac (fun n => decide (8 ≤ n)) (fun _ => 3) []
    if ok then
      let (n, s) := s.draw
      { s with parts := mmod s.parts p fun x => { x with session := some n } }
    else s

end Sys2Proof.Machine
end

