-- ==== Sys2Proof/Machine/IntAlu.lean ====
section
/-! DEFINITION. Lane integer members (R135 to R141). -/

namespace Sys2Proof.Machine

/-- vD := f(A, B) in each active lane (R135). -/
def Cx.alu2 (c : Cx) (s : State) (d a b : Operand) (f : W32 → W32 → W32) : MRes :=
  .ok (c.wrL s d (c.lanes.map fun l => (l, f (c.rdL a l) (c.rdL b l))))

/-- vD := f(A) in each active lane (R135). -/
def Cx.alu1 (c : Cx) (s : State) (d a : Operand) (f : W32 → W32) : MRes :=
  .ok (c.wrL s d (c.lanes.map fun l => (l, f (c.rdL a l))))

/-- Saturates an integer to 32 bits signed (R135). -/
def sat32 (x : Int) : W32 :=
  if x < -(2 ^ 31) then 0x80000000 else if 2 ^ 31 - 1 < x then 0x7FFFFFFF else BitVec.ofInt 32 x

/-- Number of set bits. -/
def popCount (x : W32) : W32 := BitVec.ofNat 32 ((List.range 32).filter fun i => x.getLsbD i).length

/-- Leading zeros; 32 for zero. -/
def leadZeros (x : W32) : W32 := if x = 0 then 32 else BitVec.ofNat 32 (31 - Nat.log2 x.toNat)

/-- High half of the signed and of the unsigned product. -/
def mulHs (a b : W32) : W32 := BitVec.ofInt 32 ((a.toInt * b.toInt) / 2 ^ 32)
def mulHu (a b : W32) : W32 := BitVec.ofNat 32 (a.toNat * b.toNat / 2 ^ 32)

/-- The mask of width w1 + 1 (R138). -/
def widthMask (w1 : BitVec 5) : W32 := BitVec.ofNat 32 (2 ^ (w1.toNat + 1) - 1)

/-- BFX (R138). -/
def bfxVal (a : W32) (pos : Nat) (sgn : Bool) (w1 : BitVec 5) : W32 :=
  let m := widthMask w1
  let f := (a >>> pos) &&& m
  if sgn && decide (w1.toNat < 31) && f.getLsbD w1.toNat then f ||| ~~~m else f

/-- BFI (R138). -/
def bfiVal (d a : W32) (pos : Nat) (w1 : BitVec 5) : W32 :=
  let m := widthMask w1
  (d &&& ~~~(m <<< pos)) ||| ((a &&& m) <<< pos)

/-- The 64-bit result of the wide IMAD (R137). -/
def imadWide (sgn : Bool) (a b : W32) (y : W64) : W64 :=
  if sgn then BitVec.ofInt 64 (a.toInt * b.toInt) + y else BitVec.ofNat 64 (a.toNat * b.toNat) + y

def bodyIadd (d a b : Operand) : Body := fun c s => c.alu2 s d a b (· + ·)
def bodyIsub (d a b : Operand) : Body := fun c s => c.alu2 s d a b (· - ·)
def bodyImul (d a b : Operand) : Body := fun c s => c.alu2 s d a b (· * ·)
def bodyImulhs (d a b : Operand) : Body := fun c s => c.alu2 s d a b mulHs
def bodyImulhu (d a b : Operand) : Body := fun c s => c.alu2 s d a b mulHu
def bodyImin (d a b : Operand) : Body := fun c s =>
  c.alu2 s d a b fun x y => if x.toInt ≤ y.toInt then x else y
def bodyImax (d a b : Operand) : Body := fun c s =>
  c.alu2 s d a b fun x y => if x.toInt ≤ y.toInt then y else x
def bodyUmin (d a b : Operand) : Body := fun c s =>
  c.alu2 s d a b fun x y => if x.toNat ≤ y.toNat then x else y
def bodyUmax (d a b : Operand) : Body := fun c s =>
  c.alu2 s d a b fun x y => if x.toNat ≤ y.toNat then y else x
def bodyIabs (d a : Operand) : Body := fun c s => c.alu1 s d a fun x => if x.msb then -x else x
def bodyIadds (d a b : Operand) : Body := fun c s => c.alu2 s d a b fun x y => sat32 (x.toInt + y.toInt)
def bodyAnd (d a b : Operand) : Body := fun c s => c.alu2 s d a b (· &&& ·)
def bodyOr (d a b : Operand) : Body := fun c s => c.alu2 s d a b (· ||| ·)
def bodyXor (d a b : Operand) : Body := fun c s => c.alu2 s d a b (· ^^^ ·)
def bodyShl (d a b : Operand) : Body := fun c s => c.alu2 s d a b fun x y => x <<< (y.toNat % 32)
def bodyShr (d a b : Operand) : Body := fun c s => c.alu2 s d a b fun x y => x >>> (y.toNat % 32)
def bodySar (d a b : Operand) : Body := fun c s => c.alu2 s d a b fun x y => x.sshiftRight (y.toNat % 32)
def bodyPopc (d a : Operand) : Body := fun c s => c.alu1 s d a popCount
def bodyClz (d a : Operand) : Body := fun c s => c.alu1 s d a leadZeros
def bodyMov (d a : Operand) : Body := fun c s => c.alu1 s d a id

/-- IMAD (R137): mode 0 in 32 bits, modes 1 and 2 into a pair. -/
def bodyImad (d a b x : Operand) (mode : BitVec 2) : Body := fun c s =>
  if mode = 0 then
    .ok (c.wrL s d (c.lanes.map fun l => (l, c.rdL a l * c.rdL b l + c.rdL x l)))
  else .ok (c.wrD s d (c.lanes.map fun l =>
    (l, imadWide (decide (mode = 1)) (c.rdL a l) (c.rdL b l) (c.rdD x l))))

def bodyBfx (d a b : Operand) (imm : Bool) (pos : BitVec 5) (sgn : Bool) (w1 : BitVec 5) : Body := fun c s =>
  let at_ (l : Nat) : Nat := if imm then pos.toNat else (c.rdL b l).toNat % 32
  .ok (c.wrL s d (c.lanes.map fun l => (l, bfxVal (c.rdL a l) (at_ l) sgn w1)))
def bodyBfi (d a b : Operand) (imm : Bool) (pos : BitVec 5) (w1 : BitVec 5) : Body := fun c s =>
  let at_ (l : Nat) : Nat := if imm then pos.toNat else (c.rdL b l).toNat % 32
  .ok (c.wrL s d (c.lanes.map fun l => (l, bfiVal (c.rdL d l) (c.rdL a l) (at_ l) w1)))

/-- SEL (R139). -/
def bodySel (d a b : Operand) (p : PredSel) : Body := fun c s =>
  let n := match p with
    | .p n => n.val
    | .q _ => 47
  .ok (c.wrL s d (c.lanes.map fun l => (l, if c.tm.pred n l then c.rdL a l else c.rdL b l)))

def bodyMovil (d : Operand) (imm : BitVec 16) : Body := fun c s =>
  .ok (c.wrL s d (c.lanes.map fun l => (l, imm.signExtend 32)))
def bodyMovih (d : Operand) (imm : BitVec 16) : Body := fun c s =>
  .ok (c.wrL s d (c.lanes.map fun l => (l, (imm ++ (c.rdL d l).setWidth 16 : BitVec 32))))

def bodyIcmp (pd : PredSel) (cc : BitVec 2) (a b : Operand) : Body := fun c s =>
  .ok (c.compare s pd a b (condS cc))
def bodyUcmp (pd : PredSel) (cc : BitVec 2) (a b : Operand) : Body := fun c s =>
  .ok (c.compare s pd a b (condU cc))

/-! ### Meanings -/

def execIadd (d a b : Operand) (s : State) := issue1 (.iadd d a b) (bodyIadd d a b) s
def execIsub (d a b : Operand) (s : State) := issue1 (.isub d a b) (bodyIsub d a b) s
def execImul (d a b : Operand) (s : State) := issue1 (.imul d a b) (bodyImul d a b) s
def execImulhs (d a b : Operand) (s : State) := issue1 (.imulhs d a b) (bodyImulhs d a b) s
def execImulhu (d a b : Operand) (s : State) := issue1 (.imulhu d a b) (bodyImulhu d a b) s
def execImad (d a b c : Operand) (mode : BitVec 2) (s : State) :=
  issue1 (.imad d a b c mode) (bodyImad d a b c mode) s
def execImin (d a b : Operand) (s : State) := issue1 (.imin d a b) (bodyImin d a b) s
def execImax (d a b : Operand) (s : State) := issue1 (.imax d a b) (bodyImax d a b) s
def execUmin (d a b : Operand) (s : State) := issue1 (.umin d a b) (bodyUmin d a b) s
def execUmax (d a b : Operand) (s : State) := issue1 (.umax d a b) (bodyUmax d a b) s
def execIabs (d a : Operand) (s : State) := issue1 (.iabs d a) (bodyIabs d a) s
def execIadds (d a b : Operand) (s : State) := issue1 (.iadds d a b) (bodyIadds d a b) s
def execAnd (d a b : Operand) (s : State) := issue1 (.and d a b) (bodyAnd d a b) s
def execOr (d a b : Operand) (s : State) := issue1 (.or d a b) (bodyOr d a b) s
def execXor (d a b : Operand) (s : State) := issue1 (.xor d a b) (bodyXor d a b) s
def execShl (d a b : Operand) (s : State) := issue1 (.shl d a b) (bodyShl d a b) s
def execShr (d a b : Operand) (s : State) := issue1 (.shr d a b) (bodyShr d a b) s
def execSar (d a b : Operand) (s : State) := issue1 (.sar d a b) (bodySar d a b) s
def execPopc (d a : Operand) (s : State) := issue1 (.popc d a) (bodyPopc d a) s
def execClz (d a : Operand) (s : State) := issue1 (.clz d a) (bodyClz d a) s
def execBfx (d a b : Operand) (imm : Bool) (pos : BitVec 5) (sgn : Bool) (w1 : BitVec 5) (s : State) :=
  issue1 (.bfx d a b imm pos sgn w1) (bodyBfx d a b imm pos sgn w1) s
def execBfi (d a b : Operand) (imm : Bool) (pos : BitVec 5) (w1 : BitVec 5) (s : State) :=
  issue1 (.bfi d a b imm pos w1) (bodyBfi d a b imm pos w1) s
def execSel (d a b : Operand) (p : PredSel) (s : State) := issue1 (.sel d a b p) (bodySel d a b p) s
def execMov (d a : Operand) (s : State) := issue1 (.mov d a) (bodyMov d a) s
def execMovil (d : Operand) (imm : BitVec 16) (s : State) := issue1 (.movil d imm) (bodyMovil d imm) s
def execMovih (d : Operand) (imm : BitVec 16) (s : State) := issue1 (.movih d imm) (bodyMovih d imm) s
def execIcmp (pd : PredSel) (cc : BitVec 2) (a b : Operand) (s : State) :=
  issue1 (.icmp pd cc a b) (bodyIcmp pd cc a b) s
def execUcmp (pd : PredSel) (cc : BitVec 2) (a b : Operand) (s : State) :=
  issue1 (.ucmp pd cc a b) (bodyUcmp pd cc a b) s

end Sys2Proof.Machine
end

