-- ==== Sys2Proof/Machine/Scalar.lean ====
section
/-! DEFINITION. Scope scalar members (R120 to R122), executed once by the level of their scope. -/

namespace Sys2Proof.Machine

def bodySadd (d a b : Operand) : Body := fun c s => c.scalarWrite s d (c.rdS a + c.rdS b)
def bodySsub (d a b : Operand) : Body := fun c s => c.scalarWrite s d (c.rdS a - c.rdS b)
def bodySmul (d a b : Operand) : Body := fun c s => c.scalarWrite s d (c.rdS a * c.rdS b)
def bodySand (d a b : Operand) : Body := fun c s => c.scalarWrite s d (c.rdS a &&& c.rdS b)
def bodySor (d a b : Operand) : Body := fun c s => c.scalarWrite s d (c.rdS a ||| c.rdS b)
def bodySxor (d a b : Operand) : Body := fun c s => c.scalarWrite s d (c.rdS a ^^^ c.rdS b)
def bodySshl (d a b : Operand) : Body := fun c s => c.scalarWrite s d (c.rdS a <<< ((c.rdS b).toNat % 64))
def bodySshr (d a b : Operand) : Body := fun c s => c.scalarWrite s d (c.rdS a >>> ((c.rdS b).toNat % 64))
def bodySmov (d a : Operand) : Body := fun c s => c.scalarWrite s d (c.rdS a)
def bodySmovi (d : Operand) (imm : BitVec 16) : Body := fun c s => c.scalarWrite s d (imm.signExtend 64)

/-- A with bits [24k+23:24k] replaced; for k = 2 bits [63:48] (R120, R121). -/
def smovxVal (a : W64) (k : BitVec 2) (imm : BitVec 24) : W64 :=
  let m : W64 := (0xFFFFFF : W64) <<< (24 * k.toNat)
  (a &&& ~~~m) ||| (imm.setWidth 64 <<< (24 * k.toNat))

def bodySmovx (d a : Operand) (k : BitVec 2) (imm : BitVec 24) : Body := fun c s =>
  c.scalarWrite s d (smovxVal (c.rdS a) k imm)

/-- SCMP (R122). -/
def bodyScmp (pd : PredSel) (cc : BitVec 2) (a b : Operand) : Body := fun c s =>
  match pd with
  | .q n => .ok (c.wrQ s n.toNat (condX cc (c.rdS a) (c.rdS b)))
  | .p _ => .fault c.pre { cls := 0x02 }

/-! ### Meanings -/

def execSadd (d a b : Operand) (s : State) := issue1 (.sadd d a b) (bodySadd d a b) s
def execSsub (d a b : Operand) (s : State) := issue1 (.ssub d a b) (bodySsub d a b) s
def execSmul (d a b : Operand) (s : State) := issue1 (.smul d a b) (bodySmul d a b) s
def execSand (d a b : Operand) (s : State) := issue1 (.sand d a b) (bodySand d a b) s
def execSor (d a b : Operand) (s : State) := issue1 (.sor d a b) (bodySor d a b) s
def execSxor (d a b : Operand) (s : State) := issue1 (.sxor d a b) (bodySxor d a b) s
def execSshl (d a b : Operand) (s : State) := issue1 (.sshl d a b) (bodySshl d a b) s
def execSshr (d a b : Operand) (s : State) := issue1 (.sshr d a b) (bodySshr d a b) s
def execSmov (d a : Operand) (s : State) := issue1 (.smov d a) (bodySmov d a) s
def execSmovi (d : Operand) (imm : BitVec 16) (s : State) := issue1 (.smovi d imm) (bodySmovi d imm) s
def execSmovx (d a : Operand) (k : BitVec 2) (imm : BitVec 24) (s : State) :=
  issue1 (.smovx d a k imm) (bodySmovx d a k imm) s
def execScmp (pd : PredSel) (cc : BitVec 2) (a b : Operand) (s : State) :=
  issue1 (.scmp pd cc a b) (bodyScmp pd cc a b) s

end Sys2Proof.Machine
end

