-- ==== Sys2Proof/Machine/Bodies.lean ====
section
/-! DEFINITION. The member meanings as a chain of several members runs them (R52): one arm per member. -/

namespace Sys2Proof.Machine

/-- The meaning of a member within a chain; what is no member is never decoded as one. -/
def bodyOf (i : Instr) : Body :=
  match i with
  | .bt sc p disp => bodyBt sc p disp
  | .bf sc p disp => bodyBf sc p disp
  | .jmp sc disp => bodyJmp sc disp
  | .loop sc n disp => bodyLoop sc n disp
  | .endl sc disp => bodyEndl sc disp
  | .call sc disp => bodyCall sc disp
  | .callFrame sc lvl disp => bodyCallFrame sc lvl disp
  | .ret sc => bodyRet sc
  | .frdef sc lvl half mask modes => bodyFrdef sc lvl half mask modes
  | .frfence sc lvl => bodyFrfence sc lvl
  | .spawn entry pay n1 size1 timeout => bodySpawn entry pay n1 size1 timeout
  | .launch d r p sg => bodyLaunch d r p sg
  | .waitf mask => bodyWaitf mask
  | .bar k cnt => bodyBar k cnt
  | .barArr k cnt => bodyBarArr k cnt
  | .waitm a base idx sz scale x cond => bodyWaitm a base idx sz scale x cond
  | .swi a vec => bodySwi a vec
  | .trap code => bodyTrap code
  | .brk code => bodyBrk code
  | .wmark sc tag => bodyWmark sc tag
  | .pushm first cnt1 => bodyPushm first cnt1
  | .popm first cnt1 => bodyPopm first cnt1
  | .iadd d a b => bodyIadd d a b
  | .isub d a b => bodyIsub d a b
  | .imul d a b => bodyImul d a b
  | .imulhs d a b => bodyImulhs d a b
  | .imulhu d a b => bodyImulhu d a b
  | .imad d a b c mode => bodyImad d a b c mode
  | .imin d a b => bodyImin d a b
  | .imax d a b => bodyImax d a b
  | .umin d a b => bodyUmin d a b
  | .umax d a b => bodyUmax d a b
  | .iabs d a => bodyIabs d a
  | .iadds d a b => bodyIadds d a b
  | .and d a b => bodyAnd d a b
  | .or d a b => bodyOr d a b
  | .xor d a b => bodyXor d a b
  | .shl d a b => bodyShl d a b
  | .shr d a b => bodyShr d a b
  | .sar d a b => bodySar d a b
  | .popc d a => bodyPopc d a
  | .clz d a => bodyClz d a
  | .bfx d a b imm pos sgn w1 => bodyBfx d a b imm pos sgn w1
  | .bfi d a b imm pos w1 => bodyBfi d a b imm pos w1
  | .sel d a b p => bodySel d a b p
  | .mov d a => bodyMov d a
  | .movil d imm => bodyMovil d imm
  | .movih d imm => bodyMovih d imm
  | .icmp pd cc a b => bodyIcmp pd cc a b
  | .ucmp pd cc a b => bodyUcmp pd cc a b
  | .fadd d a b => bodyFadd d a b
  | .fsub d a b => bodyFsub d a b
  | .fmul d a b => bodyFmul d a b
  | .ffma d a b c np nc => bodyFfma d a b c np nc
  | .fmin d a b => bodyFmin d a b
  | .fmax d a b => bodyFmax d a b
  | .fcmp pd cc a b => bodyFcmp pd cc a b
  | .frcp d a => bodyFrcp d a
  | .frsq d a => bodyFrsq d a
  | .fsqrt d a => bodyFsqrt d a
  | .fex2 d a => bodyFex2 d a
  | .flg2 d a => bodyFlg2 d a
  | .hadd2 d a b => bodyHadd2 d a b
  | .hmul2 d a b => bodyHmul2 d a b
  | .hfma2 d a b c np nc => bodyHfma2 d a b c np nc
  | .cvt d a src dst => bodyCvt d a src dst
  | .cvtq d a b fmt mode elem => bodyCvtq d a b fmt mode elem
  | .frnd d a m => bodyFrnd d a m
  | .fscl d a b => bodyFscl d a b
  | .fcls d a t => bodyFcls d a t
  | .vote d k kind p => bodyVote d k kind p
  | .pfxc d a mode p => bodyPfxc d a mode p
  | .shfl d a b => bodyShfl d a b
  | .rdfirst d a => bodyRdfirst d a
  | .rdlane d a b => bodyRdlane d a b
  | .reduce d a op => bodyReduce d a op
  | .plog op pd qs pa pb => bodyPlog op pd qs pa pb
  | .actm d k sel => bodyActm d k sel
  | .sadd d a b => bodySadd d a b
  | .ssub d a b => bodySsub d a b
  | .smul d a b => bodySmul d a b
  | .sand d a b => bodySand d a b
  | .sor d a b => bodySor d a b
  | .sxor d a b => bodySxor d a b
  | .sshl d a b => bodySshl d a b
  | .sshr d a b => bodySshr d a b
  | .smov d a => bodySmov d a
  | .smovi d imm => bodySmovi d imm
  | .smovx d a k imm => bodySmovx d a k imm
  | .scmp pd cc a b => bodyScmp pd cc a b
  | .ld d base idx sz scale => bodyLd d base idx sz scale
  | .ldExt d base idx sz scale x sx => bodyLdExt d base idx sz scale x sx
  | .st d base idx sz scale => bodySt d base idx sz scale
  | .stExt d base idx sz scale x => bodyStExt d base idx sz scale x
  | .lds d base idx sz scale => bodyLds d base idx sz scale
  | .ldsExt d base idx sz scale x sx => bodyLdsExt d base idx sz scale x sx
  | .sts d base idx sz scale => bodySts d base idx sz scale
  | .stsExt d base idx sz scale x => bodyStsExt d base idx sz scale x
  | .ldstr d base idx sz scale x n1 => bodyLdstr d base idx sz scale x n1
  | .ststr d base idx sz scale x n1 => bodyStstr d base idx sz scale x n1
  | .cpst d base idx sz scale x p => bodyCpst d base idx sz scale x p
  | .pmov dir p base => bodyPmov dir p base
  | .pmovExt dir p base x => bodyPmovExt dir p base x
  | .pref base idx sz scale => bodyPref base idx sz scale
  | .prefExt base idx sz scale x => bodyPrefExt base idx sz scale x
  | .atom d base idx sz scale x tag a op => bodyAtom d base idx sz scale x tag a op
  | .cas d base idx sz scale x tag c n => bodyCas d base idx sz scale x tag c n
  | .atoms d base idx sz scale x tag a op => bodyAtoms d base idx sz scale x tag a op
  | .fence kind ms => bodyFence kind ms
  | .bop base n a wide x op => bodyBop base n a wide x op
  | .copy dst src len flag x => bodyCopy dst src len flag x
  | .copyt dst src rec flag x => bodyCopyt dst src rec flag x
  | .amsg target entry pay x size1 timeout n1 => bodyAmsg target entry pay x size1 timeout n1
  | .mma t fmt a b => bodyMma t fmt a b
  | .mmaq t a b fa fb ga gb => bodyMmaq t a b fa fb ga gb
  | .mmasp t fmt a b m => bodyMmasp t fmt a b m
  | .aclr t n1 => bodyAclr t n1
  | .ard t cvt cblk n1 v => bodyArd t cvt cblk n1 v
  | .awr t cvt cblk n1 v => bodyAwr t cvt cblk n1 v
  | .ascl t o => bodyAscl t o
  | .csrr d csr => bodyCsrr d csr
  | .csrw a csr => bodyCsrw a csr
  | .clkr d sel => bodyClkr d sel
  | .mark a tag => bodyMark a tag
  | .pcnt d n => bodyPcnt d n
  | .nop => bodyNop
  | .exit => bodyExit
  | .rcfence => bodyRcfence
  | _ => fun c _ => .fault c.pre { cls := 0x01 }

/-- Issues the chain at a party's PC, as the party would now: what its members come to, `none` where it issues none. -/
def issueHere (p : Party) (s : State) : Option State :=
  (s.grid p.gridNo).bind fun gr =>
    if !(canIssue s p) || atEnd s p gr then none
    else match fetchPacket s p gr with
      | .words ws s => match decodePacket (pcSlot (s.pcOf p)) ws with
        | .ok ms => match issueChain p (ms.map fun m => (m, bodyOf m.ins)) s with
          | .next t => some t
          | _ => none
        | .illegal _ _ => none
      | _ => none

end Sys2Proof.Machine
end

