-- ==== Sys2Proof/Machine/Outside.lean ====
section
/-! DEFINITION. What the host and other devices do to the machine (R50, R229, R285, R391, R398, R399). -/

namespace Sys2Proof.Machine

/-! ### The host -/

/-- HOST_WRITE: the host writes memory, unlogged; what waits on a word finds it, and fetch sees it in lines filled from
then on. It wakes no WAITM: its periodic read finds it (R279). -/
def execHostWrite (tier : BitVec 2) (pa : Nat) (bytes : List Byte) (s : State) : Out :=
  if tierBytes tier.toNat < pa + bytes.length then .fault (.noSuchMemory (pa + bytes.length - 1))
  else .next (setMem s (memKey tier.toNat pa) bytes)

/-- MAILBOX_READ: the last value of a SWI, and the count since the last read, which starts anew. -/
def execMailboxRead (fn vec : Nat) (s : State) : Out :=
  happens s <|
    if vecCount fn ≤ vec then none
    else
      let m := (mget s.mailboxes (vecKey fn vec)).getD ⟨0, 0⟩
      let s := s.modReg fun r => { r with mgmt := natBytes 8 m.value.toNat ++ natBytes 8 m.count }
      some { s with mailboxes := mset s.mailboxes (vecKey fn vec) { m with count := 0 } }

/-- MSI_X_UNMASK: the guest writes the vector's entry, with its mask bit clear; a pending message is sent. The address and data
that it writes are open (log entry 15). -/
def execMsiXUnmask (fn vec : Nat) (s : State) : Out :=
  happens s <|
    if 25 ≤ fn ∨ vecCount fn ≤ vec then none
    else
      let x := (mget s.vectors (vecKey fn vec)).getD Vector.idle
      let data : W32 := (Config.freeWord (s.seed + 1)).setWidth 32
      let y := { x with addr := Config.freeWord s.seed, data := data, masked := false, pending := false }
      let s' := { s with seed := s.seed + 2, vectors := mset s.vectors (vecKey fn vec) y }
      some (if x.pending then s'.sendVec fn vec else s')

/-! ### Peers (R398, R399) -/

/-- Answers a peer. -/
def answerPeer (s : State) (dev : Nat) (a : Option (List Byte)) : State := { s with outbox := s.outbox ++ [.answer dev a] }

/-- An admitted access of n bytes, performed with the entry's key under the tags of its frames (R227). -/
def peerPerform (s : State) (dev : Nat) (t pa n : Nat) (key : BitVec 8) (f : State → State) : State :=
  let bind : Bind := ⟨tagKey t pa, (pa % 65536 + n + 65535) / 65536, key, none⟩
  let old := tagsOf s bind
  if old.any fun x => x.2.aliased then answerPeer s dev none
  else if old.any fun x => decide (x.2.key ≠ key) then answerPeer (setAliased s bind) dev none
  else f (bindTag s bind)

/-- The grid that an inbound entry of a partition names for a peer's message. DEDUCED, log entry 77. -/
def inboundGrid (s : State) (target dev part : Nat) : Option Nat :=
  ((mget s.parts target).bind fun p => (p.ends.map (·.2)).find? fun x => x.inbound && decide (x.dev = dev ∧ x.part = part)).bind
    fun x => ctlTarget s x.queue x.csn

/-- What an atomic of a peer does to a word (R250, R265). -/
def peerRmw (op : BitVec 4) (x cmp : W64) : Rmw := if op = 12 then .cas cmp.toNat x.toNat else .op op.toNat x.toNat

/-- A peer's message is on its way to its grid; one for which no entry matches, or whose grid is gone, is discarded and counted
(R280, R399). DESIGN CHOICE, log entry 111. -/
def peerMessage (s : State) (dev part target : Nat) (m : Msg) : State :=
  match inboundGrid s target dev part with
  | none => dropMsg s target
  | some g =>
    if ((s.grid g).map (·.status)) = some .retained then s.modGrid g fun x => { x with msgdrop := x.msgdrop + 1 }
    else
      let (id, s) := s.fresh
      { s with msgs := mset s.msgs id { m with src := .grid g, grid := g } }

/-- PEER_ACCESS: an access that an import entry admits is performed; any other returns an error response. A message goes
to the grid of the inbound entry. -/
def execPeerAccess (dev part : Nat) (addr : W64) (op : PeerOp) (s : State) : Out :=
  .next <|
    let (t, pa) := peerByte addr.toNat
    let key := memKey t pa
    let perform (n : Nat) (f : State → State) : State :=
      match importFor s dev part addr.toNat n with
        | some e => peerPerform s dev t pa n e.key f
        | none => answerPeer s dev none
    let bad (s : State) (n : Nat) : Bool := (List.range n).any fun i => poisoned s (key + i)
    match op with
    | .load n => perform n fun s => answerPeer s dev (if bad s n then none else some (readBytes s.mem key n))
    | .store d => perform d.length fun s => setMem s key d
    | .atomic o n x c => perform n fun s =>
      if bad s n then answerPeer s dev none
      else
        let old := readNat s.mem key n
        let s := match (peerRmw o x c).apply n old with
          | some v => setMem s key (natBytes n v)
          | none => s
        answerPeer s dev (some (natBytes n old))
    | .msg target blk entry size timeout words => peerMessage s dev part target
        { src := .grid 0, lane := 0, pc := 0, grid := 0, blk := blk, entry := BitVec.ofNat 32 entry, size := size
          timeout := timeout, words := words, stamp := 0, dev := some dev, engine := 65536 + 32 * dev + part, part := target }

/-- What a state comes to while one granule counts as poisoned. -/
def underPoison (gran : Nat) (f : State → Option State) (s : State) : Option State :=
  if gran ∈ s.poison then f s
  else (f { s with poison := sadd1 s.poison gran }).map fun t => { t with poison := sdel1 t.poison gran }

/-- An outstanding load of a team's whose part at an address lies in peer memory. -/
def peerLoad (x : Team) (addr : W64) : Option (LoadEnt × LoadPart) :=
  x.loads.findSome? fun e => (e.parts.find? fun l => decide (l.va = addr ∧ memKey 3 0 ≤ l.key ∧ l.key < memKey 4 0)).map fun l => (e, l)

/-- PEER_ERROR_RESPONSE at the source, which handles the response as a poisoned granule (R398): an outstanding load lands, what
it reads there tagged (R237); a store first in its queue is dropped with a health event; the copy, or the member at the
party's PC, that the granule makes a difference to meets it poisoned, an atomic lane not being applied (R211, R237, R262). -/
def execPeerErrorResponse (p : Party) (addr : W64) (s : State) : Out :=
  happens s <|
    match p, s.grid p.gridNo with
    | .team g b t, some gr => (s.team g b t).bind fun x =>
      match peerLoad x addr with
      | some (e, l) => underPoison (l.key / 64) (fun s => some (turnAll (s.modTeam g b t fun y =>
          landLoad s { y with loads := y.loads.filter fun k => decide (k ≠ e) } e) gr.ctx 2 e.grans (reqOf p))) s
      | none =>
        let first : Bool := match x.storeQ with
          | e :: _ => decide (e.va = addr ∧ e.tier = 3)
          | [] => false
        if first then some (dropPeerStore (popStore s p) gr x.core addr)
        else match translate s x.core gr.part gr.space g .load addr.toNat with
          | .ok 3 pa _ =>
            let gran := memKey 3 pa / 64
            let differs (f : State → Option State) : Option State := (underPoison gran f s).bind fun u =>
              if f s = some u then none else some u
            let copy (id : Nat) (s : State) : Option State := (liveCopy s id).bind fun c =>
              if !c.started || decide (c.total ≤ c.next) then none else match copyStep s id c with
                | .wrote s => some s
                | _ => none
            ((s.copies.filter fun e => decide (e.2.party = p)).findSome? fun e => differs (copy e.1)).orElse fun _ =>
              differs (issueHere p)
          | _ => none
    | _, _ => none

end Sys2Proof.Machine
end

