-- ==== Sys2Proof/Machine/Dispatch.lean ====
section
/-! DEFINITION. The dispatch: one arm per constructor of Instr, each one call of that instruction's meaning. -/

namespace Sys2Proof.Machine

/-- The meaning of every instruction. -/
def exec (i : Instr) (s : State) : Host.Outcome State Fault Refusal :=
  match i with
  | .bt sc p disp => Sys2Proof.Machine.execBt sc p disp s
  | .bf sc p disp => Sys2Proof.Machine.execBf sc p disp s
  | .jmp sc disp => Sys2Proof.Machine.execJmp sc disp s
  | .loop sc n disp => Sys2Proof.Machine.execLoop sc n disp s
  | .endl sc disp => Sys2Proof.Machine.execEndl sc disp s
  | .call sc disp => Sys2Proof.Machine.execCall sc disp s
  | .callFrame sc lvl disp => Sys2Proof.Machine.execCallFrame sc lvl disp s
  | .ret sc => Sys2Proof.Machine.execRet sc s
  | .frdef sc lvl half mask modes => Sys2Proof.Machine.execFrdef sc lvl half mask modes s
  | .frfence sc lvl => Sys2Proof.Machine.execFrfence sc lvl s
  | .spawn entry pay n1 size1 timeout => Sys2Proof.Machine.execSpawn entry pay n1 size1 timeout s
  | .launch d r p sg => Sys2Proof.Machine.execLaunch d r p sg s
  | .waitf mask => Sys2Proof.Machine.execWaitf mask s
  | .bar k cnt => Sys2Proof.Machine.execBar k cnt s
  | .barArr k cnt => Sys2Proof.Machine.execBarArr k cnt s
  | .waitm a base idx sz scale x cond => Sys2Proof.Machine.execWaitm a base idx sz scale x cond s
  | .swi a vec => Sys2Proof.Machine.execSwi a vec s
  | .trap code => Sys2Proof.Machine.execTrap code s
  | .brk code => Sys2Proof.Machine.execBrk code s
  | .wmark sc tag => Sys2Proof.Machine.execWmark sc tag s
  | .pushm first cnt1 => Sys2Proof.Machine.execPushm first cnt1 s
  | .popm first cnt1 => Sys2Proof.Machine.execPopm first cnt1 s
  | .iadd d a b => Sys2Proof.Machine.execIadd d a b s
  | .isub d a b => Sys2Proof.Machine.execIsub d a b s
  | .imul d a b => Sys2Proof.Machine.execImul d a b s
  | .imulhs d a b => Sys2Proof.Machine.execImulhs d a b s
  | .imulhu d a b => Sys2Proof.Machine.execImulhu d a b s
  | .imad d a b c mode => Sys2Proof.Machine.execImad d a b c mode s
  | .imin d a b => Sys2Proof.Machine.execImin d a b s
  | .imax d a b => Sys2Proof.Machine.execImax d a b s
  | .umin d a b => Sys2Proof.Machine.execUmin d a b s
  | .umax d a b => Sys2Proof.Machine.execUmax d a b s
  | .iabs d a => Sys2Proof.Machine.execIabs d a s
  | .iadds d a b => Sys2Proof.Machine.execIadds d a b s
  | .and d a b => Sys2Proof.Machine.execAnd d a b s
  | .or d a b => Sys2Proof.Machine.execOr d a b s
  | .xor d a b => Sys2Proof.Machine.execXor d a b s
  | .shl d a b => Sys2Proof.Machine.execShl d a b s
  | .shr d a b => Sys2Proof.Machine.execShr d a b s
  | .sar d a b => Sys2Proof.Machine.execSar d a b s
  | .popc d a => Sys2Proof.Machine.execPopc d a s
  | .clz d a => Sys2Proof.Machine.execClz d a s
  | .bfx d a b imm pos sgn w1 => Sys2Proof.Machine.execBfx d a b imm pos sgn w1 s
  | .bfi d a b imm pos w1 => Sys2Proof.Machine.execBfi d a b imm pos w1 s
  | .sel d a b p => Sys2Proof.Machine.execSel d a b p s
  | .mov d a => Sys2Proof.Machine.execMov d a s
  | .movil d imm => Sys2Proof.Machine.execMovil d imm s
  | .movih d imm => Sys2Proof.Machine.execMovih d imm s
  | .icmp pd cc a b => Sys2Proof.Machine.execIcmp pd cc a b s
  | .ucmp pd cc a b => Sys2Proof.Machine.execUcmp pd cc a b s
  | .fadd d a b => Sys2Proof.Machine.execFadd d a b s
  | .fsub d a b => Sys2Proof.Machine.execFsub d a b s
  | .fmul d a b => Sys2Proof.Machine.execFmul d a b s
  | .ffma d a b c np nc => Sys2Proof.Machine.execFfma d a b c np nc s
  | .fmin d a b => Sys2Proof.Machine.execFmin d a b s
  | .fmax d a b => Sys2Proof.Machine.execFmax d a b s
  | .fcmp pd cc a b => Sys2Proof.Machine.execFcmp pd cc a b s
  | .frcp d a => Sys2Proof.Machine.execFrcp d a s
  | .frsq d a => Sys2Proof.Machine.execFrsq d a s
  | .fsqrt d a => Sys2Proof.Machine.execFsqrt d a s
  | .fex2 d a => Sys2Proof.Machine.execFex2 d a s
  | .flg2 d a => Sys2Proof.Machine.execFlg2 d a s
  | .hadd2 d a b => Sys2Proof.Machine.execHadd2 d a b s
  | .hmul2 d a b => Sys2Proof.Machine.execHmul2 d a b s
  | .hfma2 d a b c np nc => Sys2Proof.Machine.execHfma2 d a b c np nc s
  | .cvt d a src dst => Sys2Proof.Machine.execCvt d a src dst s
  | .cvtq d a b fmt mode elem => Sys2Proof.Machine.execCvtq d a b fmt mode elem s
  | .frnd d a m => Sys2Proof.Machine.execFrnd d a m s
  | .fscl d a b => Sys2Proof.Machine.execFscl d a b s
  | .fcls d a t => Sys2Proof.Machine.execFcls d a t s
  | .vote d k kind p => Sys2Proof.Machine.execVote d k kind p s
  | .pfxc d a mode p => Sys2Proof.Machine.execPfxc d a mode p s
  | .shfl d a b => Sys2Proof.Machine.execShfl d a b s
  | .rdfirst d a => Sys2Proof.Machine.execRdfirst d a s
  | .rdlane d a b => Sys2Proof.Machine.execRdlane d a b s
  | .reduce d a op => Sys2Proof.Machine.execReduce d a op s
  | .plog op pd qs pa pb => Sys2Proof.Machine.execPlog op pd qs pa pb s
  | .actm d k sel => Sys2Proof.Machine.execActm d k sel s
  | .sadd d a b => Sys2Proof.Machine.execSadd d a b s
  | .ssub d a b => Sys2Proof.Machine.execSsub d a b s
  | .smul d a b => Sys2Proof.Machine.execSmul d a b s
  | .sand d a b => Sys2Proof.Machine.execSand d a b s
  | .sor d a b => Sys2Proof.Machine.execSor d a b s
  | .sxor d a b => Sys2Proof.Machine.execSxor d a b s
  | .sshl d a b => Sys2Proof.Machine.execSshl d a b s
  | .sshr d a b => Sys2Proof.Machine.execSshr d a b s
  | .smov d a => Sys2Proof.Machine.execSmov d a s
  | .smovi d imm => Sys2Proof.Machine.execSmovi d imm s
  | .smovx d a k imm => Sys2Proof.Machine.execSmovx d a k imm s
  | .scmp pd cc a b => Sys2Proof.Machine.execScmp pd cc a b s
  | .ld d base idx sz scale => Sys2Proof.Machine.execLd d base idx sz scale s
  | .ldExt d base idx sz scale x sx => Sys2Proof.Machine.execLdExt d base idx sz scale x sx s
  | .st d base idx sz scale => Sys2Proof.Machine.execSt d base idx sz scale s
  | .stExt d base idx sz scale x => Sys2Proof.Machine.execStExt d base idx sz scale x s
  | .lds d base idx sz scale => Sys2Proof.Machine.execLds d base idx sz scale s
  | .ldsExt d base idx sz scale x sx => Sys2Proof.Machine.execLdsExt d base idx sz scale x sx s
  | .sts d base idx sz scale => Sys2Proof.Machine.execSts d base idx sz scale s
  | .stsExt d base idx sz scale x => Sys2Proof.Machine.execStsExt d base idx sz scale x s
  | .ldstr d base idx sz scale x n1 => Sys2Proof.Machine.execLdstr d base idx sz scale x n1 s
  | .ststr d base idx sz scale x n1 => Sys2Proof.Machine.execStstr d base idx sz scale x n1 s
  | .cpst d base idx sz scale x p => Sys2Proof.Machine.execCpst d base idx sz scale x p s
  | .pmov dir p base => Sys2Proof.Machine.execPmov dir p base s
  | .pmovExt dir p base x => Sys2Proof.Machine.execPmovExt dir p base x s
  | .pref base idx sz scale => Sys2Proof.Machine.execPref base idx sz scale s
  | .prefExt base idx sz scale x => Sys2Proof.Machine.execPrefExt base idx sz scale x s
  | .atom d base idx sz scale x tag a op => Sys2Proof.Machine.execAtom d base idx sz scale x tag a op s
  | .cas d base idx sz scale x tag c n => Sys2Proof.Machine.execCas d base idx sz scale x tag c n s
  | .atoms d base idx sz scale x tag a op => Sys2Proof.Machine.execAtoms d base idx sz scale x tag a op s
  | .fence kind ms => Sys2Proof.Machine.execFence kind ms s
  | .bop base n a wide x op => Sys2Proof.Machine.execBop base n a wide x op s
  | .copy dst src len flag x => Sys2Proof.Machine.execCopy dst src len flag x s
  | .copyt dst src rec flag x => Sys2Proof.Machine.execCopyt dst src rec flag x s
  | .amsg target entry pay x size1 timeout n1 => Sys2Proof.Machine.execAmsg target entry pay x size1 timeout n1 s
  | .mma t fmt a b => Sys2Proof.Machine.execMma t fmt a b s
  | .mmaq t a b fa fb ga gb => Sys2Proof.Machine.execMmaq t a b fa fb ga gb s
  | .mmasp t fmt a b m => Sys2Proof.Machine.execMmasp t fmt a b m s
  | .aclr t n1 => Sys2Proof.Machine.execAclr t n1 s
  | .ard t cvt cblk n1 v => Sys2Proof.Machine.execArd t cvt cblk n1 v s
  | .awr t cvt cblk n1 v => Sys2Proof.Machine.execAwr t cvt cblk n1 v s
  | .ascl t o => Sys2Proof.Machine.execAscl t o s
  | .csrr d csr => Sys2Proof.Machine.execCsrr d csr s
  | .csrw a csr => Sys2Proof.Machine.execCsrw a csr s
  | .clkr d sel => Sys2Proof.Machine.execClkr d sel s
  | .mark a tag => Sys2Proof.Machine.execMark a tag s
  | .pcnt d n => Sys2Proof.Machine.execPcnt d n s
  | .packetFetch p => Sys2Proof.Machine.execPacketFetch p s
  | .tokenReceive p => Sys2Proof.Machine.execTokenReceive p s
  | .settleWaitEnd p => Sys2Proof.Machine.execSettleWaitEnd p s
  | .binTimerExpiry core bin => Sys2Proof.Machine.execBinTimerExpiry core bin s
  | .binFormOnSlotFree core bin => Sys2Proof.Machine.execBinFormOnSlotFree core bin s
  | .spawnRetry p => Sys2Proof.Machine.execSpawnRetry p s
  | .teamRetire p => Sys2Proof.Machine.execTeamRetire p s
  | .blockPlacement g core => Sys2Proof.Machine.execBlockPlacement g core s
  | .gridLaunchAccept id => Sys2Proof.Machine.execGridLaunchAccept id s
  | .forwardProgressSave g blk => Sys2Proof.Machine.execForwardProgressSave g blk s
  | .savedBlockRestore img core => Sys2Proof.Machine.execSavedBlockRestore img core s
  | .waitmWake p => Sys2Proof.Machine.execWaitmWake p s
  | .waitmPeriodicRead p => Sys2Proof.Machine.execWaitmPeriodicRead p s
  | .messageDeposit id => Sys2Proof.Machine.execMessageDeposit id s
  | .tileOperation core ctx => Sys2Proof.Machine.execTileOperation core ctx s
  | .copyStart id => Sys2Proof.Machine.execCopyStart id s
  | .copyComplete id => Sys2Proof.Machine.execCopyComplete id s
  | .copyFail id => Sys2Proof.Machine.execCopyFail id s
  | .parkedAccessResume p => Sys2Proof.Machine.execParkedAccessResume p s
  | .loadDataReturn p => Sys2Proof.Machine.execLoadDataReturn p s
  | .storePerform p => Sys2Proof.Machine.execStorePerform p s
  | .bankAluOperation p => Sys2Proof.Machine.execBankAluOperation p s
  | .tlbMissComplete engine g va => Sys2Proof.Machine.execTlbMissComplete engine g va s
  | .regenFillComplete id => Sys2Proof.Machine.execRegenFillComplete id s
  | .migrationPage id => Sys2Proof.Machine.execMigrationPage id s
  | .preemption g => Sys2Proof.Machine.execPreemption g s
  | .csmPartCopyComplete img => Sys2Proof.Machine.execCsmPartCopyComplete img s
  | .pcSample core => Sys2Proof.Machine.execPcSample core s
  | .coalescingTimerExpiry fn vec => Sys2Proof.Machine.execCoalescingTimerExpiry fn vec s
  | .queueWaitWake q => Sys2Proof.Machine.execQueueWaitWake q s
  | .queueWaitPeriodic q => Sys2Proof.Machine.execQueueWaitPeriodic q s
  | .portalKick q cmds => Sys2Proof.Machine.execPortalKick q cmds s
  | .queueStateResume q => Sys2Proof.Machine.execQueueStateResume q s
  | .queueStateStop q => Sys2Proof.Machine.execQueueStateStop q s
  | .queueStateReset q => Sys2Proof.Machine.execQueueStateReset q s
  | .portalWriteDiscarded q => Sys2Proof.Machine.execPortalWriteDiscarded q s
  | .ldi a imm => Sys2Proof.Machine.execLdi a imm s
  | .ldhi a imm => Sys2Proof.Machine.execLdhi a imm s
  | .add a b c => Sys2Proof.Machine.execAdd a b c s
  | .addi a b imm => Sys2Proof.Machine.execAddi a b imm s
  | .cmdLd a b imm => Sys2Proof.Machine.execCmdLd a b imm s
  | .cmdSt a b imm => Sys2Proof.Machine.execCmdSt a b imm s
  | .br a b c imm => Sys2Proof.Machine.execBr a b c imm s
  | .dloop a imm => Sys2Proof.Machine.execDloop a imm s
  | .calli a b => Sys2Proof.Machine.execCalli a b s
  | .wait a b c => Sys2Proof.Machine.execWait a b c s
  | .signalWrite a b => Sys2Proof.Machine.execSignalWrite a b s
  | .signalAdd a b => Sys2Proof.Machine.execSignalAdd a b s
  | .cmdCopy a b c => Sys2Proof.Machine.execCmdCopy a b c s
  | .cmdMigrate a b c tier => Sys2Proof.Machine.execCmdMigrate a b c tier s
  | .cmdLaunch a b c d prio => Sys2Proof.Machine.execCmdLaunch a b c d prio s
  | .launchg a b d => Sys2Proof.Machine.execLaunchg a b d s
  | .ctrlPreempt a d => Sys2Proof.Machine.execCtrlPreempt a d s
  | .ctrlDisposeResume a d => Sys2Proof.Machine.execCtrlDisposeResume a d s
  | .ctrlDisposeStep a d => Sys2Proof.Machine.execCtrlDisposeStep a d s
  | .ctrlDisposeAbort a d => Sys2Proof.Machine.execCtrlDisposeAbort a d s
  | .ctrlFreeze a d => Sys2Proof.Machine.execCtrlFreeze a d s
  | .ctrlThaw a d => Sys2Proof.Machine.execCtrlThaw a d s
  | .ctrlSetBreakpoint a d => Sys2Proof.Machine.execCtrlSetBreakpoint a d s
  | .ctrlRestoreImage a d => Sys2Proof.Machine.execCtrlRestoreImage a d s
  | .ctrlInvalidateTlb a d => Sys2Proof.Machine.execCtrlInvalidateTlb a d s
  | .ctrlTrimLog a d => Sys2Proof.Machine.execCtrlTrimLog a d s
  | .ctrlRewind a d => Sys2Proof.Machine.execCtrlRewind a d s
  | .ctrlReplay a d => Sys2Proof.Machine.execCtrlReplay a d s
  | .ctrlReplayToWindow a d => Sys2Proof.Machine.execCtrlReplayToWindow a d s
  | .ctrlReplayPerturb a d => Sys2Proof.Machine.execCtrlReplayPerturb a d s
  | .ctrlDebugRead a d => Sys2Proof.Machine.execCtrlDebugRead a d s
  | .ctrlReleaseRetained a d => Sys2Proof.Machine.execCtrlReleaseRetained a d s
  | .ctrlHostMarker a d => Sys2Proof.Machine.execCtrlHostMarker a d s
  | .ctrlReverseStep a d => Sys2Proof.Machine.execCtrlReverseStep a d s
  | .kfetch rs2 rs1 rd => Sys2Proof.Machine.execKfetch rs2 rs1 rd s
  | .kbfx rs2 rs1 rd => Sys2Proof.Machine.execKbfx rs2 rs1 rd s
  | .kwait rs2 rs1 rd => Sys2Proof.Machine.execKwait rs2 rs1 rd s
  | .kdisp rs2 rs1 rd => Sys2Proof.Machine.execKdisp rs2 rs1 rd s
  | .kjrnl rs2 rs1 => Sys2Proof.Machine.execKjrnl rs2 rs1 s
  | .kjrnlR rs2 rs1 rd => Sys2Proof.Machine.execKjrnlR rs2 rs1 rd s
  | .khold rs2 rs1 rd => Sys2Proof.Machine.execKhold rs2 rs1 rd s
  | .krel rs2 rs1 rd => Sys2Proof.Machine.execKrel rs2 rs1 rd s
  | .kroll rs2 rs1 rd => Sys2Proof.Machine.execKroll rs2 rs1 rd s
  | .cpcImemUncorrectable core => Sys2Proof.Machine.execCpcImemUncorrectable core s
  | .railSample current power temp volt => Sys2Proof.Machine.execRailSample current power temp volt s
  | .linkFrameError link => Sys2Proof.Machine.execLinkFrameError link s
  | .deadlockTimeout flow => Sys2Proof.Machine.execDeadlockTimeout flow s
  | .escapeReturn flow => Sys2Proof.Machine.execEscapeReturn flow s
  | .peerAccess dev part addr op => Sys2Proof.Machine.execPeerAccess dev part addr op s
  | .peerErrorResponse p addr => Sys2Proof.Machine.execPeerErrorResponse p addr s
  | .clusterLend cl => Sys2Proof.Machine.execClusterLend cl s
  | .clusterRevoke cl => Sys2Proof.Machine.execClusterRevoke cl s
  | .revocationReturn cl => Sys2Proof.Machine.execRevocationReturn cl s
  | .configurationLoad bytes => Sys2Proof.Machine.execConfigurationLoad bytes s
  | .firmwareLoad bytes => Sys2Proof.Machine.execFirmwareLoad bytes s
  | .partitionCreate p rec => Sys2Proof.Machine.execPartitionCreate p rec s
  | .partitionChange p rec => Sys2Proof.Machine.execPartitionChange p rec s
  | .partitionDestroy p => Sys2Proof.Machine.execPartitionDestroy p s
  | .queueCreate q fn part space m core vec ring => Sys2Proof.Machine.execQueueCreate q fn part space m core vec ring s
  | .regenerationTableWrite p e ent => Sys2Proof.Machine.execRegenerationTableWrite p e ent s
  | .messageEndpointBind p e inbound dev part q csn => Sys2Proof.Machine.execMessageEndpointBind p e inbound dev part q csn s
  | .importTableWrite p e dev part first last key => Sys2Proof.Machine.execImportTableWrite p e dev part first last key s
  | .deviceNumberAssign n => Sys2Proof.Machine.execDeviceNumberAssign n s
  | .deadlockTimeoutSet us => Sys2Proof.Machine.execDeadlockTimeoutSet us s
  | .tenantKeyLoad p key wrapped => Sys2Proof.Machine.execTenantKeyLoad p key wrapped s
  | .turnover p images full fw => Sys2Proof.Machine.execTurnover p images full fw s
  | .hostRevoke cl => Sys2Proof.Machine.execHostRevoke cl s
  | .queueExport q => Sys2Proof.Machine.execQueueExport q s
  | .queueImport q part img => Sys2Proof.Machine.execQueueImport q part img s
  | .examRequest p full => Sys2Proof.Machine.execExamRequest p full s
  | .healthMonitorReadClear m clear => Sys2Proof.Machine.execHealthMonitorReadClear m clear s
  | .eccInjection core addr => Sys2Proof.Machine.execEccInjection core addr s
  | .negotiateAlgorithms req => Sys2Proof.Machine.execNegotiateAlgorithms req s
  | .getCertificate off len => Sys2Proof.Machine.execGetCertificate off len s
  | .challenge nonce => Sys2Proof.Machine.execChallenge nonce s
  | .getMeasurements p idx nonce => Sys2Proof.Machine.execGetMeasurements p idx nonce s
  | .keyExchange p share => Sys2Proof.Machine.execKeyExchange p share s
  | .finish mac => Sys2Proof.Machine.execFinish mac s
  | .cpcCoreInstruction w => Sys2Proof.Machine.execCpcCoreInstruction w s
  | .hostWrite tier pa bytes => Sys2Proof.Machine.execHostWrite tier pa bytes s
  | .mailboxRead fn vec => Sys2Proof.Machine.execMailboxRead fn vec s
  | .msiXUnmask fn vec => Sys2Proof.Machine.execMsiXUnmask fn vec s
  | .linkRetrainComplete link ok => Sys2Proof.Machine.execLinkRetrainComplete link ok s
  | .illegalInstruction => Sys2Proof.Machine.execIllegalInstruction s
  | .nop => Sys2Proof.Machine.execNop s
  | .exit => Sys2Proof.Machine.execExit s
  | .rcfence => Sys2Proof.Machine.execRcfence s
  | .cmdNop => Sys2Proof.Machine.execCmdNop s
  | .reti => Sys2Proof.Machine.execReti s
  | .powerOnReset => Sys2Proof.Machine.execPowerOnReset s
  | .healthLogRead => Sys2Proof.Machine.execHealthLogRead s
  | .getVersion => Sys2Proof.Machine.execGetVersion s
  | .getCapabilities => Sys2Proof.Machine.execGetCapabilities s
  | .getDigests => Sys2Proof.Machine.execGetDigests s

end Sys2Proof.Machine
end

