-- ==== Sys2Proof/Machine/Actors.lean ====
section
/-! DEFINITION. Who can move (MODEL, log entries 1 and 5), what a party, a queue and a CPC core do when it is their turn,
and how an instruction is placed for them. -/

namespace Sys2Proof.Machine

/-! ### A party's turn (R46 to R66) -/

/-- Runs the chain that a packet decodes to at the party's PC: a single member by its meaning, several by theirs in
turn (R52), a word that is none as illegal, behind the members `lead` (R64, R66). -/
def runChain (p : Party) (lead : List Member) (d : ChainDec) (s : State) : Out :=
  match d with
  | .illegal k _ => if k = pcSlot (s.pcOf p) then exec .illegalInstruction s else illegalAt p lead k s
  | .ok [m] => if m.badChain then issueChain p [(m, bodyOf m.ins)] s else exec m.ins s
  | .ok ms => issueChain p (ms.map fun m => (m, bodyOf m.ins)) s

/-- A party fetches its packet and issues the chain at its PC; a level at its kernel's end ends its walk (R97). -/
def partyStep (p : Party) (s : State) : Out :=
  match s.grid p.gridNo with
  | none => .refused .noParty
  | some gr =>
    if !(canIssue s p) then .next s
    else if atEnd s p gr then .next (endWalk p s)
    else match fetchPacket s p gr with
      | .words ws s =>
        let k := pcSlot (s.pcOf p)
        runChain p (leadMembers 3 k (ws.drop k)) (decodePacket k ws) s
      | .fault s f => .next (takeFault s p f)
      | .hold s w => .next (holdParty s p w)
      | .dead pa => .fault (.noSuchMemory pa)

/-! ### A queue's turn (R362, R370) -/

/-- A queue's command, as its owning core's loop performs it: the core has read its word of the roll call, which clears it. -/
def queueStep (q : Nat) (s : State) : Out :=
  match mget s.queues q with
  | none => .refused .noParty
  | some x => match x.newest with
    | none => .next s
    | some j =>
      if !(x.served j) then .next s
      else match fetchCommand s x j with
        | .bad => .next (queueFault s q 4)
        | .waits s => .next s
        | .word w =>
          let s := feedMonitors (takeRoll s x.core (q / 64)).2 1 (Config.waited 1 s.clk)
          match decodeCmd w (ctlMode s x w (j.reg (w.extractLsb' 52 4).toNat)) with
          | some i => exec i s
          | none => .next (coreFault s q 1)

/-! ### A CPC core's turn -/

/-- The instruction at a core's pc; a halted core (R382) and a stopped one do nothing. -/
def cpcStep (n : Nat) (s : State) : Out :=
  match mget s.cpcs n, cpcFetch s n with
  | some x, some f =>
    if x.stopped ∨ x.trigger = some x.pc then .next s
    else match f with
      | .word w => exec (decodeCpc w) s
      | .fault s => .next s
      | .bad => exec (.cpcImemUncorrectable n) s
  | _, _ => .refused .noParty

/-! ### Readiness (R75, R274) -/

/-- What a party's turn comes to now, if it moves the party. -/
def attempt (p : Party) (s : State) : Option State :=
  match partyStep p { s with turn := .party p } with
  | .next t => some { t with turn := s.turn, seed := s.seed }
  | _ => none

/-- A state with a party's wait struck out. -/
def noWait (s : State) (p : Party) : State := s.modSeq p fun q => { q with wait := none }

/-- Whether a party's turn would change nothing but its own wait: the wait that holds it. -/
def standsIn (s : State) (p : Party) : Option (Option Wait) :=
  if !(canIssue s p) then some ((s.seqOf p).bind (·.wait))
  else match attempt p s with
    | some t => if noWait t p = noWait s p then some ((t.seqOf p).bind (·.wait)) else none
    | none => none

/-- Notes of one team whether it is ready, and since when; one that is not holds its wait (R75, R274). DEDUCED, log entry 1. -/
def noteTeam (s : State) (e : Nat × Nat × Nat) : State :=
  let (g, b, t) := e
  match standsIn s (.team g b t) with
  | some w => s.modTeam g b t fun x => { x with seq := { x.seq with wait := w }, since := none, aged := 0 }
  | none => s.modTeam g b t fun x => if x.since.isSome then x else { x with since := some s.clk }

/-- Every live team. -/
def allTeams (s : State) : List (Nat × Nat × Nat) := s.teams.map fun e => (tkGrid e.1, e.1 / 16 % 2 ^ 32, e.1 % 16)

/-- Notes which teams are ready. -/
def noteReady (s : State) : State := (allTeams s).foldl noteTeam s

/-- A ready team of a sequencer group: its place in the tables, class, since when it is ready, for how many issue cycles, slot. -/
structure Ready where
  at_ : Nat × Nat × Nat
  cls : Nat
  since : Nat
  aged : Nat
  slot : Nat
deriving DecidableEq, Repr

/-- The ready teams of group `n` of a core (R10, R73). -/
def readyTeams (s : State) (core n : Nat) : List Ready :=
  (allTeams s).filterMap fun e => (s.team e.1 e.2.1 e.2.2).bind fun x =>
    if x.core = core ∧ x.slot / 8 = n then x.since.map fun k => ⟨e, ((s.grid e.1).map (·.prio)).getD 0, k, x.aged, x.slot⟩ else none

/-- The team that became ready earliest, of several the one in the lowest slot. -/
def earliest : List Ready → Option Ready
  | [] => none
  | x :: t => match earliest t with
    | none => some x
    | some y => if x.since < y.since ∨ (x.since = y.since ∧ x.slot < y.slot) then some x else some y

/-- What a sequencer group takes in an issue cycle (R75): with a team that has been ready for 32 issue cycles the one ready
earliest, else the one ready earliest of the highest class. -/
def groupPick (l : List Ready) : Option Ready :=
  if l.any fun x => decide (32 ≤ x.aged) then earliest l
  else
    let top := (l.map (·.cls)).foldl max 0
    earliest (l.filter fun x => decide (x.cls = top))

/-- The teams that the sequencer groups would take. -/
def picks (s : State) : List Party :=
  let gs := ((s.teams.map fun e => (e.2.core, e.2.slot / 8))).dedup
  gs.filterMap fun k => (groupPick (readyTeams s k.1 k.2)).map fun x => .team x.at_.1 x.at_.2.1 x.at_.2.2

/-- An issue cycle in which a team's group takes it: it starts anew, the other ready teams of its group age. -/
def ageGroup (s : State) : Party → State
  | .team g b t => match s.team g b t with
    | some x =>
      let s := (readyTeams s x.core (x.slot / 8)).foldl (fun s y =>
        s.modTeam y.at_.1 y.at_.2.1 y.at_.2.2 fun z => { z with aged := z.aged + 1 }) s
      s.modTeam g b t fun y => { y with since := none, aged := 0 }
    | none => s
  | _ => s

/-! ### Candidates -/

/-- Whether an event happens in a state: it changes something, or meets memory that is not there. -/
def enabled (s : State) (i : Instr) : Bool := match exec i s with
  | .next t => decide (t ≠ s)
  | .fault _ => true
  | .refused _ => false

/-- Events of a party but for its fetch. -/
def partyMoves (p : Party) : List Instr :=
  [.tokenReceive p, .settleWaitEnd p, .spawnRetry p, .teamRetire p, .waitmWake p, .waitmPeriodicRead p,
    .parkedAccessResume p, .loadDataReturn p, .storePerform p, .bankAluOperation p]

/-- Events of a party. -/
def partyEvents (p : Party) : List Instr := .packetFetch p :: partyMoves p

/-- Events of a grid: placement, saving, pre-emption. -/
def gridEvents (s : State) (g : Nat) : List Instr :=
  let whole : List Nat := ((s.grid g).map fun x => x.lrec.grid).toList
  let saved : List Nat := whole ++ (s.blocksOf g).map (·.1)
  let place : List Instr := (List.range 96).map fun c => .blockPlacement g c
  let save : List Instr := saved.map fun n => .forwardProgressSave g n
  .preemption g :: (place ++ save)

/-- Events of spawn bins. -/
def binEvents (k : Nat) : List Instr := [.binTimerExpiry (k / 16) (k % 16), .binFormOnSlotFree (k / 16) (k % 16)]

/-- Events of an image. -/
def imageEvents (id : Nat) : List Instr := .csmPartCopyComplete id :: (List.range 96).map fun c => .savedBlockRestore id c

/-- Events of a copy. -/
def copyEvents (id : Nat) : List Instr := [.copyStart id, .copyComplete id, .copyFail id]

/-- The end of a miss. -/
def missEvent (m : Miss) : Instr := .tlbMissComplete m.engine m.grid (BitVec.ofNat 64 (m.page * 65536))

/-- Events of grids, bins, launches, images and messages. -/
def gridSideEvents (s : State) : List Instr :=
  (s.bins.flatMap fun e => binEvents e.1) ++ (s.launches.map fun e => .gridLaunchAccept e.1) ++
    (s.images.flatMap fun e => imageEvents e.1) ++ (s.msgs.map fun e => .messageDeposit e.1) ++
    (s.grids.map (·.1)).flatMap (gridEvents s)

/-- Events of the units outside the cores' sequencers. -/
def unitEvents (s : State) : List Instr :=
  let tiles : List Instr := s.matq.map fun e => .tileOperation (e.1 / 2) (e.1 % 2)
  let copies : List Instr := s.copies.flatMap fun e => copyEvents e.1
  let misses : List Instr := s.misses.map missEvent
  let fills : List Instr := s.fills.map fun e => .regenFillComplete e.1
  let migrs : List Instr := s.migrs.map fun e => .migrationPage e.1
  let samples : List Instr := (List.range 96).map fun c => .pcSample c
  let timers : List Instr := s.vectors.map fun e => .coalescingTimerExpiry (e.1 / 64) (e.1 % 64)
  let queues : List Instr := s.queues.flatMap fun e => [.queueWaitWake e.1, .queueWaitPeriodic e.1]
  let lends : List Instr := (List.range 24).flatMap fun c => [.clusterLend c, .clusterRevoke c, .revocationReturn c]
  let links : List Instr := (s.links.flatMap fun e => [.linkRetrainComplete e.1 true, .linkRetrainComplete e.1 false]) ++
    s.flows.map fun e => .escapeReturn e.1
  let boot : List Instr := if s.reg.step < 6 then [.powerOnReset] else []
  tiles ++ copies ++ misses ++ fills ++ migrs ++ samples ++ timers ++ queues ++ lends ++ links ++ boot

/-- Every event of the device itself that could happen: those of parties, of grids and images, and of the other units. -/
def deviceEvents (s : State) : List Instr :=
  ((s.grids.map (·.1)).flatMap fun g => (s.partiesOf g).flatMap partyEvents) ++ gridSideEvents s ++ unitEvents s

/-- Queues whose commands the loop of R370 serves: their scheduler core runs, and its firmware is that loop. The substitute runs
its own routine (R377). -/
def loopQueues (s : State) : List Nat :=
  if Config.firmwareLoops ((s.reg.firmware.map (·.body)).getD []) then
    (s.queues.filter fun e => decide (e.2.core < 6) && ((mget s.cpcs e.2.core).map fun x => !x.stopped).getD false && (match e.2.newest with
      | some j => e.2.served j
      | none => false)).map (·.1)
  else []

/-- CPC cores that execute their firmware's instructions: all that run, but for scheduler cores whose loop the queues'
turns stand for. -/
def runningCpcs (s : State) : List Nat :=
  let loops := Config.firmwareLoops ((s.reg.firmware.map (·.body)).getD [])
  (s.cpcs.filter fun e => !e.2.stopped && decide (e.2.trigger ≠ some e.2.pc) && !(loops && decide (e.1 < 6))).map (·.1)

/-- Injected errors that scheduler cores meet whose fetches their queues' turns stand for (R382). -/
def armedCpcs (s : State) : List Instr :=
  if Config.firmwareLoops ((s.reg.firmware.map (·.body)).getD []) then
    (s.cpcs.filter fun e => !e.2.stopped && e.2.badWord.isSome && decide (e.1 < 6)).map fun e => .cpcImemUncorrectable e.1
  else []

/-- Everything that could move next, with the inputs that are left then. -/
def candidates (s : State) : List (Turn × List Instr) :=
  let levels := ((s.grids.map (·.1)).flatMap s.partiesOf).filter fun p => decide (p.scope ≠ .team) && canIssue s p
  ((levels ++ picks s).map fun p => (.party p, s.inputs)) ++
    (((deviceEvents s ++ armedCpcs s).filter (enabled s)).map fun i => (.event i, s.inputs)) ++
    ((loopQueues s).map fun q => (.queue q, s.inputs)) ++ ((runningCpcs s).map fun n => (.cpc n, s.inputs)) ++
    (match s.inputs with
      | i :: rest => if enabled s i then [(.event i, rest)] else []
      | [] => [])

/-! ### Time -/

/-- The stall reason that counts for a block's idle clk: the lowest that holds for a live team of it (R343). -/
def blockReason (s : State) (n : Nat) (key : Nat) : Option Nat :=
  ((s.teams.filter fun e => decide (e.1 / 16 = key)).map fun e => stallReason e.2 (n + e.1)).min?

/-- An uncorrectable error in a granule of a grid's CSM, or of a cache way of a tier: the granule is poisoned and the event
reported with its slice and bank (R246, R345). -/
def upsetGranule (s : State) (gran : Nat) : State :=
  let key := gran * 64
  let bad (s : State) : State := { s with poison := sadd1 s.poison gran }
  match byteCsm key with
  | some g => match s.grid g with
    | some gr =>
      let va : W64 := BitVec.ofNat 64 (0xFF1 * 2 ^ 52 + key % 2 ^ 56)
      match homeOf s gr.part va 9 key with
      | some (slice, bank) =>
        if key % 2 ^ 56 < gr.lrec.csm * 64 then (bad s).health (some gr.ctx) 3 (0x1000 + slice) bank 0 va else s
      | none => s
    | none => s
  | none =>
    let tier := key / 2 ^ 52
    match s.parts.find? fun e => decide (tier < 2) && inTier e.2.record tier (key % 2 ^ 52) 64 with
    | some e =>
      let (slice, bank) := homeBank e.2.record (tier + 1) key
      (bad s).healthPart e.1 3 (0x1000 + slice) bank 0 (BitVec.ofNat 64 (key % 2 ^ 52))
    | none => s

/-- What the memories' own condition brings: an error in a granule, or in an element of a block's tiles, which the instruction
that reads it reports (R184). -/
def spontaneous (s : State) : State :=
  match Config.upset s.seed with
  | none => s
  | some (0, n) => upsetGranule s n
  | some (_, n) =>
    let key := n / 2 ^ 20
    let tiles := ((s.grid (bkGrid key)).map (·.lrec.tiles)).getD 0
    if n % 2 ^ 20 < 16384 * tiles then
      { s with blocks := mmod s.blocks key fun x => { x with tbad := sadd1 x.tbad (n % 2 ^ 20) } }
    else s

/-- Clk pass in which no team issues: the busy time of partitions (R390) and the stall-reason counters of blocks (R343). How many
is open, as timing is (log entry 5). -/
def advance (s : State) : State :=
  let dt := Config.ticks s.seed
  let s := spontaneous s
  let (n, s) := s.draw
  let holds (p : Nat) : Bool := s.blocks.any fun e => decide (((s.grid (bkGrid e.1)).map (·.part)) = some p)
  let busy (e : Nat × Part) : Nat × Part := if holds e.1 then (e.1, { e.2 with busy := e.2.busy + BitVec.ofNat 64 dt }) else e
  let stall (e : Nat × Blk) : Nat × Blk := match blockReason s n e.1 with
    | some r => (e.1, { e.2 with stall := mset e.2.stall r ((mget e.2.stall r).getD 0 + dt) })
    | none => e
  lateFlows { s with clk := s.clk + dt, parts := s.parts.map busy, blocks := s.blocks.map stall }

/-- Which teams are ready is noted, time passes, and one of the candidates is chosen. -/
def choose (s : State) : State :=
  let s := advance (noteReady s)
  let cs := candidates s
  let (n, s) := s.draw
  match cs[Config.pick n cs.length % cs.length]? with
  | some (.party p, l) => { ageGroup s p with turn := .party p, inputs := l }
  | some c => { s with turn := c.1, inputs := c.2 }
  | none => s

/-! ### A replay in which every party waits (R337) -/

/-- Where the monitor holds a team: at a member, or at a write or a load whose turn is to come. -/
inductive HallPlace where
  | member (slot : Nat)
  | store (e : StoreEnt)
  | load (e : LoadEnt)

/-- Where the monitor holds a team. -/
def hallHolds (s : State) (gr : Grid) (p : Party) : Option HallPlace :=
  let held (kind : Nat) (keys : List W64) : Bool := decide (gateAll s gr.ctx kind keys (reqOf p) = .held)
  match standsIn s p with
  | some (some (.hall kind keys slot)) => if held kind keys then some (.member slot) else under held
  | _ => under held
where
  under (held : Nat → List W64 → Bool) : Option HallPlace := match p with
    | .team g b t => (s.team g b t).bind fun x => match x.loads, x.storeQ with
      | e :: _, _ => if held 2 e.grans then some (.load e) else none
      | [], e :: _ => if held e.kind.arb e.grans then some (.store e) else none
      | [], [] => none
    | _ => none

/-- Replay divergence at the place where the monitor holds a team (R337). -/
def hallFault (s : State) (p : Party) : HallPlace → State
  | .member k => takeFault s p { cls := 0x53, slot := k }
  | .store e => stopStore s p e 0x53
  | .load e => takeFault s p { cls := 0x53, pc := some e.pc, slot := pcSlot e.pc }

/-- Events that could still move a context: its parties', its grids', and those of what they have under way. -/
def ctxEvents (s : State) (ctx : Nat) : List Instr :=
  let gs := ctxGrids s ctx
  let ours (p : Party) : Bool := decide (p.gridNo ∈ gs)
  let spaces := gs.filterMap fun g => (s.grid g).map fun x => (x.part, x.space)
  (gs.flatMap fun g => (s.partiesOf g).flatMap partyMoves) ++ gs.flatMap (gridEvents s) ++
    ((s.bins.filter fun e => decide (e.2.grid ∈ gs)).flatMap fun e => binEvents e.1) ++
    ((s.msgs.filter fun e => decide (e.2.grid ∈ gs)).map fun e => .messageDeposit e.1) ++
    ((s.copies.filter fun e => ours e.2.party).flatMap fun e => copyEvents e.1) ++
    ((s.matq.filter fun e => e.2.any fun m => ours m.party).map fun e => .tileOperation (e.1 / 2) (e.1 % 2)) ++
    ((s.misses.filter fun m => decide (m.grid ∈ gs)).map missEvent) ++
    ((s.fills.filter fun e => decide ((e.2.part, e.2.space) ∈ spaces)).map fun e => .regenFillComplete e.1) ++
    (s.migrs.filter fun e => decide ((e.2.part, e.2.space) ∈ spaces)).map fun e => .migrationPage e.1

/-- Whether a party waits: it is not stopped, and its turn would do nothing; a WAITM that is to read its word again would still find
it as it waits for. -/
def partyWaits (s : State) (p : Party) : Bool :=
  let t := match (s.seqOf p).bind (·.wait) with
    | some (.mem ..) => endWait s p
    | _ => s
  ((s.seqOf p).map (·.stop.isNone)).getD true && (standsIn t p).isSome

/-- Whether a context has come to rest in its replay: its grids run, every party of them waits, nothing that they have under way can
go on, none of them is to be launched or restored, and no block of theirs waits for what others hold (R337). -/
def ctxRests (s : State) (ctx : Nat) : Bool :=
  let gs := ctxGrids s ctx
  let blocked (gr : Grid) : Bool := decide (gr.nextBlk < gr.lrec.grid) &&
    s.blocks.any fun e => decide (bkGrid e.1 ∉ gs) && clusterAllows s gr (e.2.core / 4)
  (gs.all fun g => ((s.grid g).map fun x => decide (x.status = .running) && !x.frozen && !(blocked x)).getD false) &&
    (gs.all fun g => (s.partiesOf g).all (partyWaits s)) &&
    !(s.launches.any fun e => decide (e.2.ctxOf s = some ctx)) &&
    !(s.images.any fun e => e.2.auto && decide (e.2.ctxOf s = some ctx)) &&
    !((ctxEvents s ctx).any (enabled s))

/-- In a grid whose context has come to rest in its replay while the monitor holds a team, replay divergence is raised in the held
team with the lowest blk and team (R337). DEDUCED, log entry 62. -/
def settleHall (s : State) (g : Nat) : State :=
  match s.grid g with
  | none => s
  | some gr =>
    if !(s.scripted gr.ctx) then s
    else match (s.gridTeams g).findSome? fun e =>
        let p : Party := .team g e.1 e.2
        (hallHolds s gr p).map fun h => (p, h) with
    | some (p, h) => if ctxRests s gr.ctx then hallFault s p h else s
    | none => s

/-- After every step: each grid under the monitor. -/
def settleHalls (s : State) : State :=
  if s.ctxs.any fun e => e.2.replay.isSome then (s.grids.map (·.1)).foldl settleHall s else s

/-- Follows every step: signals that waited for their page are tried again, reverse steps that have come to their count end, a
replay in which every party waits diverges; the turn is over. -/
def afterStep (s : State) : State := { settleHalls (settleReverse (settleSignals s)) with turn := .free }

/-- What the turn's holder does. -/
def act (s : State) : Out :=
  match s.turn with
  | .free => .next (choose s)
  | .party p => partyStep p s
  | .queue q => queueStep q s
  | .cpc n => cpcStep n s
  | .event i => exec i s

/-! ### Placing an instruction -/

/-- The party that executes an instruction of a scope in the grid that `placeMember` makes. -/
def placeParty : Scope → Party
  | .grid => .grid 0
  | .cluster => .cluster 0 0
  | .block => .block 0 0
  | _ => .team 0 0 0

/-- The kernel that stands placed: one cluster-mode block of one team of 32 lanes. -/
def placedKernel : LaunchRec :=
  { csm := 0, scratch := 8, cctl := false, gctl := false, record := false, undo := false, cmode := true, nbar := 8, tiles := 8
    nteam := 1, regs := 128, team := 32, grid := 1, endpkt := 0x3FFFFFFF, entry := 0, base := 0, params := List.replicate 16 0
    fmts := [] }

/-- Places a packet's words in the instruction caches and a grid whose parties stand at its first slot with a token. -/
def placeMember (s : State) (sc : Scope) (ws : List W32) : State :=
  let tok : Token := { Token.zero with close := finalClose }
  let here (v : Lvl) : Lvl := { v with seq := { v.seq with tok := some tok } }
  let gr : Grid :=
    { lrec := placedKernel, lvl := Lvl.start 0 4, ring := [], ringBase := 0, part := 0, space := 0, queue := 0, csn := 0, prio := 0
      depth := 1, launcher := .queue 0, gseq := 0, signal := 0, ctx := 0, brks := [], allstop := false, nextBlk := 1
      doneBlk := [], status := .running, frozen := false, msgdrop := 0, counters := [], signalled := false, completing := false
      owed := none, aborted := false }
  let c : Ctx :=
    { part := 0, queue := 0, csn := 0, ckey := 0, conf := false, undo := false, record := false, fbase := 0, flg2 := 12
      fserial := 0, undisposed := [], heldRecs := [], frserial := 1, ulog := none, arb := none, replay := none, trace := none
      desc := 0, totals := [], gone := [], unapplied := [] }
  let b : Blk :=
    { lvl := here (Lvl.start 0 8), core := 0, slot := 0, inst := 0, mctx := some 0, bars := [], absent := [], held := []
      failed := [], tiles := [], tbad := [], stall := [], grans := [0], line := 0, carry := [] }
  let t := Team.start 0 0 32 0
  let ent (e : Nat) : ICacheEnt := ⟨e, 0, 0, 0, ws⟩
  { s with
    turn := .party (placeParty sc)
    grids := [(0, gr)], ctxs := [(0, c)], clusters := [(bKey 0 0, ⟨here (Lvl.start 0 4), 0, 0⟩)], blocks := [(bKey 0 0, b)]
    teams := [(tKey 0 0 0, { t with
      groups := [(0, fullMask 32)], awaiting := none, seq := { t.seq with tok := some tok } })]
    frames := [(fKey 0 2 0 0, Frame.level0 0 (List.replicate 16 0))]
    icache := [ent 0, ent 96] }

/-- Places a word in the instruction SRAM of CPC core 0 at its pc, and lets it run. -/
def placeCpc (s : State) (w : W32) : State :=
  { s.modCpc 0 fun x => { x with
      imem := writeNat x.imem x.pc.toNat 4 w.toNat, stopped := false, hardTrap := false, badWord := none, trigger := none } with
    turn := .cpc 0 }

/-- Places the instruction whose bits the operation table numbers so (log entries 3 and 29): an Xnov word for a CPC core,
any other as the first words of a packet. -/
def placeWord (s : State) (nbits w : Nat) : State :=
  let w0 := BitVec.ofNat 32 w
  let w1 := BitVec.ofNat 32 (if nbits = 64 then w / 2 ^ 32 else 0)
  if nbits = 32 ∧ (decodeXnov w0).isSome then placeCpc s w0
  else match decodeTableWord nbits w with
    | some i => placeMember s (scopeOf i) [w0, w1, 0]
    | none => placeMember s .team [w0, w1, 0]

end Sys2Proof.Machine
end

