-- ==== Sys2Proof/Machine/Step.lean ====
section
/-! DEFINITION. The step of the machine. -/

namespace Sys2Proof.Machine

/-- One step: with a free turn time passes and who moves next is chosen; else the turn's holder acts, and the turn is
free again. -/
def step (s : State) : Host.Outcome State Fault Refusal :=
  if s.turn = .free then .next (choose s)
  else match act s with
    | .next t => .next (afterStep t)
    | r => r

/-- The machine with an instruction stored where `step` fetches next (log entry 29). -/
def State.withFetchWord (s : State) (nbits w : Nat) : State := placeWord s nbits w

end Sys2Proof.Machine
end

