-- ==== Sys2Proof/Safety.lean ====
section
/-! DEFINITION. The terms that claims are stated in: the invariant of a state, when a member passes every check made
before its meaning, how a chain of one member ends, which queue or CPC core acts, what a register and a byte hold. -/

namespace Sys2Proof.Machine

/-! ### The invariant -/

/-- The memory stands in its canonical form: addresses rise strictly, and no listed byte is what an unlisted one reads
as, so that equal memories are equal data. -/
def Inv (s : State) : Prop := s.mem.wf = true

/-! ### When a member executes (R51 to R54, R66, R72, R75, R80, R97, R106, R112, R296) -/

/-- The member of a chain of one at the PC of a party. -/
def soleMember (s : State) (p : Party) (i : Instr) : Member := ⟨pcSlot (s.pcOf p), lenOf i, i, false⟩

/-- What that chain issues with. -/
def soleCx (s : State) (p : Party) (i : Instr) : Option Cx :=
  mkCx s p (pcSlot (s.pcOf p) + lenOf i - 1) (((s.seqOf p).bind (·.alone)).isSome)

/-- The checks before step 5 (R66, R72, R296): no breakpoint, a well-formed member with operands that exist, lane groups
merged where the member needs it, a level that executes it. -/
def passesEarly (c : Cx) (m : Member) : Bool :=
  !(hitBrk c.gr c.sc c.pc && !(begun c) && decide (c.seq.passBrk ≠ some c.pc)) && (earlyFault c [m]).isNone && (mergeStep c [m]).isNone &&
    executes c.sc m.ins && (match c.seq.alone with
      | some k => decide (m.slot = k)
      | none => true)

/-- The checks of step 5 that come before the member's own: its sources are there, its nesting is right; no replay runs, and no
log of the context stalls; the chain is the close chain of a token, or is none. -/
def passesEntry (close : Bool) (c : Cx) (m : Member) : Bool :=
  (match c.sources m.ins with
    | .ready | .fault _ => true
    | _ => false) && !(nestBad { c with slot := pcSlot (c.pre.pcOf c.p) } m.ins) &&
    !(c.pre.scripted c.ctx) && !(stallsFull c.pre c.ctx) && decide (atClose c = close)

/-- The member passes its own checks, and its sources are untagged (R66, R162, R176, R237). -/
def passesOwn (c : Cx) (i : Instr) : Bool := (ownCheck c i).isNone && decide (c.sources i = .ready)

/-- The party whose turn it is comes to the member, at the close chain of its token or elsewhere: what the member's checks and its
meaning are given. None where the chain waits, merges or raises a fault before them. -/
def reachWhere (close : Bool) (s : State) (p : Party) (i : Instr) : Option Cx :=
  (soleCx s p i).bind fun c =>
    if s.turn = .party p ∧ canIssue s p = true ∧ passesEarly c (soleMember s p i) = true then
      (emitFirst s c (chainEnds c [i]) (chainNarrow c [i])).bind fun pre =>
        let c := { c with pre := pre }
        if passesEntry close c (soleMember s p i) then some c else none
    else none

/-- The party executes the member: it comes to it, and the member's own checks pass. -/
def readyWhere (close : Bool) (s : State) (p : Party) (i : Instr) : Option Cx :=
  (reachWhere close s p i).bind fun c => if passesOwn c i then some c else none

/-- The party executes the member, which is not the close chain of its token. -/
abbrev ready (s : State) (p : Party) (i : Instr) : Option Cx := readyWhere false s p i

/-- The party executes the member as the close chain of its token: a lift or a branch at a rendezvous of a wider scope
(R101, R108, R110). -/
abbrev closing (s : State) (p : Party) (i : Instr) : Option Cx := readyWhere true s p i

/-! ### How a chain of one member ends (R52, R53, R101, R344) -/

/-- A chain's accumulated result with nothing but a state. -/
def accS (s : State) : ChainAcc := ⟨s, none, none, none, none, none, none, none⟩

/-- The chain's accumulated result for a member that has passed with an answer. -/
def accOf (c : Cx) (i : Instr) : MRes → Option ChainAcc
  | .ok s => some (accS (captureAll c i s))
  | .jump s pc => some { accS (captureAll c i s) with jump := some pc }
  | .split s m pc => some { accS s with split := some (m, pc) }
  | .gone s => some { accS s with gone := some c.slot }
  | .trap s f => some { accS s with trap := some (memberScope c.sc i { f with slot := c.slot }) }
  | .later s w => some { accS s with later := some (c.slot, w) }
  | .mark s sc tag => some { accS (captureAll c i s) with mark := some (sc, tag) }
  | .await s w => some { accS c.pre with await := some (s, w) }
  | _ => none

/-- The one member of the chain with its meaning. -/
def soleOf (c : Cx) (i : Instr) : List (Member × Body) := [(⟨c.slot, lenOf i, i, false⟩, bodyOf i)]

/-- How the chain ends with what its member has left: it waits as a whole where the member does (R53), else it commits. -/
def endsWith (c : Cx) (i : Instr) (a : ChainAcc) : State :=
  match a.await with
  | some (s, w) => awaitChain c (soleOf c i) a s w
  | none => commit c (soleOf c i) (soleOf c i) (chainEnds c [i]) (chainNarrow c [i]) a

/-- A transfer that a close chain refuses (R106). -/
def refusedJump (c : Cx) (i : Instr) : MRes → Bool
  | .jump .. | .split .. => closeJump c i
  | _ => false

/-- The member's chain commits: its position moves on, counters rise, a requested step lands; a close chain completes its
segment, or raises 0x06 where R106 says. -/
def finish1 (c : Cx) (i : Instr) (r : MRes) : State :=
  if refusedJump c i r then takeFault c.pre c.p (memberScope c.sc i { cls := 0x06, slot := c.slot })
  else match accOf c i r with
  | some a => endsWith c i a
  | none => c.pre

/-- The state in which a chain of one member commits that leaves nothing but its party's position: the position stands after the
chain, the counters have risen (R48, R52, R344). -/
def movedOn (c : Cx) (i : Instr) : State :=
  let s := c.pre.modSeq c.p fun q => { q with
    chains := q.chains + 1, passBrk := if q.passBrk = some c.pc then none else q.passBrk
    wait := none, alone := none, began := none }
  if c.sc = .team then
    moveTeam c (accS c.pre) (nextPc c.pkt c.last) false
      ((s.count c.g c.core 0x10 1).count c.g c.core 0x11 (passes c [i]))
  else moveLevel c (accS c.pre) (nextPc c.pkt c.last) (chainEnds c [i]) (chainNarrow c [i]) s

/-- Every contribution of the party is published when its segment completes (R173). -/
def published (c : Cx) (i : Instr) (r : MRes) : Prop :=
  ∀ a, accOf c i r = some a → unpublished (publishAll a.s c.p c.ctx c.engine c.g c.b c.k) c.p c.g c.b c.k = false

/-- EXECUTES: wherever a party executes the member, `exec` answers the next state in which its chain has committed with
the given answer of its meaning. -/
def Executes (i : Instr) (r : Cx → MRes) : Prop :=
  ∀ (s : State) (p : Party) (c : Cx), ready s p i = some c → exec i s = .next (finish1 c i (r c))

/-- EXECUTES WHERE: the same wherever a condition on the context holds. -/
def ExecutesIf (i : Instr) (when_ : Cx → Prop) (r : Cx → MRes) : Prop :=
  ∀ (s : State) (p : Party) (c : Cx), ready s p i = some c → when_ c → exec i s = .next (finish1 c i (r c))

/-- EXECUTES AT THE CLOSE: the same where the member is the close chain of its party's token; the segment completes with it. -/
def ExecutesClose (i : Instr) (when_ : Cx → Prop) (r : Cx → MRes) : Prop :=
  ∀ (s : State) (p : Party) (c : Cx), closing s p i = some c → when_ c → published c i (r c) →
    exec i s = .next (finish1 c i (r c))

/-- RAISES: wherever a party executes the member and a condition holds, it takes a fault there, and nothing of the member
stands. -/
def RaisesIf (i : Instr) (when_ : Cx → Prop) (f : Cx → FInfo) : Prop :=
  ∀ (s : State) (p : Party) (c : Cx), ready s p i = some c → when_ c →
    exec i s = .next (takeFault c.pre c.p (memberScope c.sc i { f c with slot := c.slot }))

/-- REFUSES: wherever a party comes to the member and a condition holds, a check of the member's own raises a fault there, whether
or not its sources are tagged (R66, R162). -/
def RefusesIf (i : Instr) (when_ : Cx → Prop) (cls : Nat) : Prop :=
  ∀ (s : State) (p : Party) (c : Cx), reachWhere false s p i = some c → when_ c →
    exec i s = .next (takeFault c.pre c.p (memberScope c.sc i { cls := cls, slot := c.slot }))

/-- WAITS: wherever a party executes the member and a condition holds, nothing of it happens and the party waits (R274). -/
def WaitsIf (i : Instr) (when_ : Cx → Prop) (w : Cx → Wait) : Prop :=
  ∀ (s : State) (p : Party) (c : Cx), ready s p i = some c → when_ c →
    exec i s = .next (holdParty c.pre c.p (w c))

/-! ### Transfers (R48, R70) -/

/-- BT or BF. -/
def branchOf (sense : Bool) (sc : Scope) (p : PredSel) (disp : BitVec 14) : Instr :=
  match sense with
  | true => .bt sc p disp
  | false => .bf sc p disp

/-- A displacement leads to packet k. -/
def goesTo (c : Cx) (d : Int) (k : Nat) : Prop := (c.pkt : Int) + d = k ∧ k < 2 ^ 30

/-- A displacement leads outside the packets that exist. -/
def leaves (c : Cx) (d : Int) : Prop := (c.pkt : Int) + d < 0 ∨ 2 ^ 30 ≤ (c.pkt : Int) + d

/-- The lanes of the running group whose predicate n is v. -/
def lanesWith (c : Cx) (n : Nat) (v : Bool) : List Nat := c.lanes.filter fun l => c.tm.pred n l = v

/-- The lane groups of the team once the listed lanes have left for a PC. -/
def groupsAfter (c : Cx) (taken : List Nat) (pc : W32) : List (W32 × Mask) :=
  addGroup (addGroup (c.tm.groups.filter fun (g : W32 × Mask) => decide (g.1 ≠ c.pre.pcOf c.p)) (pc, maskOf taken))
    (nextPc c.pkt c.last, c.act &&& ~~~(maskOf taken))

/-- Every team of a rendezvous has arrived, all blocks being placed (R108, R112). -/
def allArrived (c : Cx) (sc : Scope) : Prop :=
  placed c.gr sc = true ∧ ∀ e ∈ liveTeams c.pre c.g sc (instNo c.p),
    (((c.pre.lvlOf c.p).map (·.arr)).getD []).any (fun a => decide (a.blk = e.1 ∧ a.team = e.2)) = true

/-- What they have contributed: every lane's predicate. -/
def contributed (c : Cx) (sc : Scope) : List ((Nat × Nat × Nat) × Bool) :=
  gather (((c.pre.lvlOf c.p).map (·.arr)).getD []) (liveTeams c.pre c.g sc (instNo c.p))

/-- The owner's position with the arrivals of a rendezvous counted off. -/
def noArrivals (c : Cx) : State := c.pre.modLvl c.p fun v => { v with arr := [] }

/-- A party's position with a loop stack, or a call stack. -/
def withLoops (c : Cx) (l : List LoopEnt) : State := c.pre.modSeq c.p fun q => { q with loops := l }
def withCalls (c : Cx) (s : State) (l : List CallEnt) : State := s.modSeq c.p fun q => { q with calls := l }

/-! ### System members and memory accesses (R235, R257, R271) -/

/-- One access of the member passes its checks, its core having room for one request more and for the misses it has: where its
bytes stand, in which tier, what its translations leave. -/
def passesAt (c : Cx) (acc : Acc) (align : Nat) (va : W64) (n : Nat) (segs : List (Nat × Nat)) (tier : Nat)
    (bs : List Bind) : Prop :=
  c.room 1 = true ∧ c.check c.pre acc align va n = .ok segs tier bs ∧ c.missRoom (bindAll c.pre bs).misses = true

/-- The chain of the team's BAR has begun: the BAR has arrived and waited (R276). -/
def barBegun (c : Cx) : Prop := ∃ k ph n, c.seq.began = some (.bar k ph n)

/-- Barrier k of the block x accepts the team's arrival with a count (R272, R276). -/
def barAccepts (c : Cx) (x : Blk) (k cnt : Nat) : Prop :=
  k < c.gr.lrec.nbar ∧ ((barOf x k).arrived = [] ∨ (barOf x k).count = cnt) ∧ c.t ∉ (barOf x k).arrived ∧
    ¬(c.tm.detached = true ∧ cnt = 0) ∧ c.drained = true

/-- The arrival, with the phase completed where it is due. -/
def barJoined (c : Cx) (k cnt : Nat) : State :=
  barSettle (c.pre.modBlock c.g c.b fun x => { x with bars := mset x.bars k (Barrier.join (barOf x k) cnt c.t) }) c.g c.b k

/-- The barrier's phase in a state differs from the one before the chain, or its block is gone. -/
def phaseMoved (c : Cx) (x : Blk) (k : Nat) (s : State) : Bool :=
  ((s.block c.g c.b).map fun y => decide ((barOf y k).phase ≠ (barOf x k).phase)).getD true

/-! ### Accesses of several lanes (R235, R236) -/

/-- Every lane of a member passes its checks, its core having room for the requests and the misses: the accesses, in lane
order, and the state with what their translations leave. -/
def lanesPass (c : Cx) (acc : Acc) (align n : Nat) (todo : List (Nat × W64)) (xs : List LaneAcc) (tags : State) : Prop :=
  c.room todo.length = true ∧ c.checkLanes acc align n todo c.pre = (xs, none, tags) ∧ c.missRoom tags.misses = true

/-- No lane of a member has to wait for what it accesses: each passes its checks or fails them (R204, R235). -/
def noneParked (c : Cx) (acc : Acc) (align n : Nat) (todo : List (Nat × W64)) : Prop :=
  c.room todo.length = true ∧ (c.parkLanes acc align n todo c.pre).1 = 0 ∧
    c.missRoom (c.checkLanes acc align n todo c.pre).2.2.misses = true

/-- The state in which a member's accesses land: the tags bound, the requests counted. -/
def accessed (c : Cx) (tags : State) (xs : List LaneAcc) : State := c.tick (takeTags c.pre tags) 0x13 xs.length

/-- A state with the requests of a load counted, and the turns of the granules that it takes as it issues. -/
def loadedOn (c : Cx) (t : State) (xs : List LaneAcc) (d : Operand) (x : MemExt) (bytes : Nat) : State :=
  turnAll (c.countUses (c.tick t 0x13 xs.length) xs) c.ctx 2 (turnsNow xs d x bytes) c.req

/-- The same in the state in which all of a load's accesses land. -/
def loaded (c : Cx) (tags : State) (xs : List LaneAcc) (d : Operand) (x : MemExt) (bytes : Nat) : State :=
  loadedOn c (takeTags c.pre tags) xs d x bytes

/-- A word of the team's spill area as a pop reads it: n bytes at an offset, through the team's store queue (R134). -/
def spillWord (c : Cx) (off n : Nat) : Nat :=
  bytesNat ((List.range n).map fun i => fwdByte c.pre.mem c.tm.storeQ (spillKey c.g c.b c.t off + i))

/-- What performing the lanes of an atomic leaves. -/
def atomicEnd (c : Cx) (tags : State) (xs : List LaneAcc) (n : Nat) (tag : Bool) (f : Nat → Rmw) : RmwAcc :=
  xs.foldl (c.rmwLane n tag f) ⟨turnAll (accessed c tags xs) c.ctx 1 (rmwKeys xs) c.req, [], [], none⟩

/-- The one operation of ATOMS. -/
def teamRmw (c : Cx) (d a : Operand) (sz : Size) (op : BitVec 4) : Rmw :=
  if op = 12 then .cas ((c.rdS a).toNat % 2 ^ (8 * sz.bytes)) ((c.rdS d).toNat % 2 ^ (8 * sz.bytes))
  else .op op.toNat ((c.rdS a).toNat % 2 ^ (8 * sz.bytes))

/-- What performing the one access of ATOMS leaves. -/
def teamAtomicEnd (c : Cx) (bs : List Bind) (x : LaneAcc) (n : Nat) (tag : Bool) (r : Rmw) : RmwAcc :=
  c.rmwLane n tag (fun _ => r) ⟨turnAll (c.tick (bindAll c.pre bs) 0x13 1) c.ctx 1 (rmwKeys [x]) c.req, [], [], none⟩ x

/-! ### Copies, deposits and matrix members (R83, R186, R195, R205) -/

/-- A copy of the team can be issued: its flag and the tables have room, its flag holds no more faults than fit, and a
release has nothing to wait for. -/
def copyFits (c : Cx) (flag : Nat) (locks : Nat) (rel : Bool) : Prop :=
  (c.tm.flags[flag]?.getD ⟨0, []⟩).count < 15 ∧
    ((c.tm.flags[flag]?.getD ⟨0, []⟩).count + (c.tm.flags[flag]?.getD ⟨0, []⟩).faults.length < 15 ∨
      (c.tm.flags[flag]?.getD ⟨0, []⟩).faults = []) ∧
    coreCopies c.pre c.core < 64 ∧ lockCount c.pre + locks ≤ 256 ∧ (rel = true → c.tm.loads = [])

/-- The lanes of SPAWN with what each deposits. -/
def spawnList (c : Cx) (entry pay : Operand) (n1 : BitVec 2) (size1 : BitVec 5) (timeout : BitVec 11) :
    List (Nat × Deposit) :=
  c.todo.map fun l => (l, { g := c.g, b := c.b, entry := BitVec.ofNat 32 (c.entryOf entry l)
                            size := 32 * (size1.toNat + 1), timeout := binTimeout timeout.toNat
                            words := c.payload pay (n1.toNat + 1) l, tok := c.seq.tok })

/-- A matrix member passes the checks of acceptance: the types of its slots, its registers, its tiles, its metadata, and
its registers hold data. -/
def matAccepted (c : Cx) (i : Instr) (x : Nat) : Prop :=
  matSlotBad c.gr i = false ∧ matRangeBad c.gr i = false ∧ matTile i + matCount c.tm.nlane i - 1 < c.gr.lrec.tiles ∧
    c.matObstacle i = .ready ∧ c.metaBad i = none ∧ (c.pre.block c.g c.b).bind (·.mctx) = some x ∧
    ((mget c.pre.matq (2 * c.core + x)).getD []).length < 2

/-- Its entry in the queue of its matrix context: what it captures, and the tile operations to come. -/
def matEntry (c : Cx) (i : Instr) (scal : W32) : MatEnt :=
  { party := c.p, ins := i, nlane := c.tm.nlane, act := c.act, cap := c.matCapture i, scal := scal, next := 0
    count := matCount c.tm.nlane i }

/-- The state with the entry queued. -/
def matQueued (c : Cx) (i : Instr) (x : Nat) (scal : W32) : State :=
  let q := (mget c.pre.matq (2 * c.core + x)).getD [] ++ [matEntry c i scal]
  { c.pre with matq := mset c.pre.matq (2 * c.core + x) q }

/-! ### Results of lane members (R135) -/

/-- A 32-bit result in each active lane. -/
def lanes32 (d : Operand) (f : Cx → Nat → W32) (c : Cx) : MRes :=
  .ok (c.wrL c.pre d (c.lanes.map fun l => (l, f c l)))

/-- A 64-bit result in a pair of each active lane (R137). -/
def lanes64 (d : Operand) (f : Cx → Nat → W64) (c : Cx) : MRes :=
  .ok (c.wrD c.pre d (c.lanes.map fun l => (l, f c l)))

/-- A float result in each active lane, with the flags of all of them (R129, R131). -/
def lanesF (d : Operand) (f : Cx → Nat → FRes) (c : Cx) : MRes := .ok (c.float c.pre d (f c))

/-- A predicate in each active lane (R127). -/
def lanesP (n : Nat) (f : Cx → Nat → Bool) (c : Cx) : MRes :=
  .ok (c.wrP c.pre n (c.lanes.map fun l => (l, f c l)))

/-- Whether a scalar destination takes a value now: its register is there, has a free version slot, or its frame slot is
writable (R105, R120, R176). -/
def takes (c : Cx) (d : Operand) (x : W64) : Prop := ∃ t, c.scalarWrite c.pre d x = .ok t

/-- A scalar result (R120). -/
def scalarTo (d : Operand) (f : Cx → W64) (c : Cx) : MRes := c.scalarWrite c.pre d (f c)

/-- A scalar member with a result executes wherever its destination takes it. -/
def ExecutesScalar (i : Instr) (d : Operand) (f : Cx → W64) : Prop :=
  ExecutesIf i (fun c => takes c d (f c)) (scalarTo d f)

/-- The lift members at TEAM scope: the team executes the member and the destination is its own (R84). -/
def teamLift (c : Cx) (d : Operand) : Prop := c.sc = .team ∧ dstScope d [] = .team

/-- The owner opens a lift of a scope wider than TEAM: a pending version in a slot, newest from then on, its parts to come (R103). -/
def opensLift (i : Instr) (d : Operand) (slot lane : Nat) (c : Cx) : MRes :=
  .ok (fillLifts (c.pre.modLvl c.p fun v => { v with
    vregs := v.vregs.modify (regNo d) fun r => ⟨r.slots.set slot none, slot⟩
    lifts := v.lifts ++ [⟨regNo d, slot, i, lane, []⟩] }) c.p)

/-- A team gives its part of a wider lift to the owner, which leaves t (R84). -/
def givesPart (c : Cx) (d : Operand) (i : Instr) (part : Option W64) (t : State) : Prop :=
  c.sc = .team ∧ dstScope d [] ≠ .team ∧
    contribute c.pre (ownerAt c.g c.b c.k (dstScope d [])) i ⟨c.b, c.t, part⟩ = some t

/-- A lift has the part of a contribution's team. -/
def hasPart (l : Lift) (p : Contrib) : Prop := ∃ y ∈ l.got, y.blk = p.blk ∧ y.team = p.team

/-- The parts of a lift, in any order, are those of the listed blocks and teams: blocks rise, and teams within each. -/
def partsOf (bs : List (Nat × List (Nat × W64))) (cs : List Contrib) : Prop :=
  bs.Pairwise (fun x y => x.1 < y.1) ∧ (∀ b ∈ bs, b.2.Pairwise fun x y => x.1 < y.1) ∧
    cs.Perm (bs.flatMap fun b => b.2.map fun t => ⟨b.1, t.1, some t.2⟩)

/-- A lane register read at one lane by a lift: no data outstanding for it and no tag on it (R187, R237). -/
def laneClean (c : Cx) (a : Operand) (l : Nat) : Prop :=
  match a with
  | .v n => c.srcV n.toNat [l] = .ready
  | _ => True

/-! ### Events -/

/-- A party of a live grid, not stopped, that waits on something. -/
def waitsOn (s : State) (p : Party) (w : Wait) : Prop := s.acts p = true ∧ (s.seqOf p).bind (·.wait) = some w

/-- The copy a copy engine works on, of a team on a core in a grid that acts; no full log has stopped it. -/
def copyAt (s : State) (id : Nat) (c : Copy) : Prop :=
  mget s.copies id = some c ∧ s.liveFor c.party = true ∧ c.stop = none ∧ (s.coreOf c.party).isSome = true

/-- The first entry of a team's store queue may be performed: the grid acts, the team's earlier loads are back, no replay
runs, no log stalls or is written (R253, R315, R324, R337). -/
def headStore (s : State) (g b t : Nat) (gr : Grid) (x : Team) (e : StoreEnt) : Prop :=
  s.grid g = some gr ∧ s.team g b t = some x ∧ s.liveFor (.team g b t) = true ∧ x.loads = [] ∧ x.storeQ.head? = some e ∧
    s.scripted gr.ctx = false ∧ stallsFull s gr.ctx = false ∧ s.undoOn gr.ctx = false

/-- The state in which a team's first entry is written: it stands in the queue no more. -/
abbrev popped (s : State) (g b t : Nat) : State := popStore s (.team g b t)

/-- What performing the first entry leaves, its write done in the state s: the granules that its member has written whole
are not poisoned (R237), its turns are recorded. -/
def performed (s : State) (g b t : Nat) (gr : Grid) (kind : Nat) (e : StoreEnt) : State :=
  turnAll { s with poison := s.poison.filter fun k => decide (k ∉ e.heals) } gr.ctx kind e.grans (reqOf (.team g b t))

/-- A miss of an engine for a grid is under way, on the 64 KiB page of an address (R228). -/
def missUnder (s : State) (engine g : Nat) (va : W64) (m : Miss) : Prop :=
  s.misses.find? (fun x => decide (x.engine = engine ∧ x.grid = g ∧ x.page = va.toNat / 65536)) = some m

/-- An engine's TLB with one more leaf, its oldest gone where it is full (R228). -/
def tlbWith (s : State) (engine : Nat) (new : TlbEnt) : List TlbEnt :=
  (s.tlb.filter fun t => decide (t.engine ≠ engine)) ++
    (s.tlb.filter fun t => decide (t.engine = engine)).drop
      ((s.tlb.filter fun t => decide (t.engine = engine)).length + 1 - tlbRoom engine) ++ [new]

/-! ### Registers and bytes as claims read them -/

/-- Lane register r of lane l of a team; 0 where there is no such team. -/
def laneReg (s : State) (g b t r l : Nat) : W32 := ((s.team g b t).map fun x => zget x.v (vKey r l)).getD 0

/-- Register s n of a team. -/
def scalReg (s : State) (g b t n : Nat) : W64 := ((s.team g b t).map fun x => zget x.s n).getD 0

/-- Predicate n of lane l of a team. -/
def predBit (s : State) (g b t n l : Nat) : Bool := ((s.team g b t).map fun x => x.pred n l).getD false

/-- A memory key is no byte of this device's own that it reaches as a peer's (R398). -/
def reachable (s : State) (key : Nat) : Prop := unadmitted s key = false

/-- A party runs on after a chain: it is not stopped, no single step and no replay stand (R298, R327). -/
def calm (s : State) (p : Party) : Prop :=
  ∃ q gr x, s.seqOf p = some q ∧ q.stop = none ∧ q.stepping = false ∧ s.grid p.gridNo = some gr ∧
    mget s.ctxs gr.ctx = some x ∧ x.replay = none

/-- A destination's registers, n of them from a lane register on; none for one that discards its writes. -/
def destRegs (d : Operand) (n : Nat) : List Nat :=
  match d with
  | .v r => (List.range n).map (r.toNat + ·)
  | _ => []

/-- The numbers of a team: a block's and a team's fit their fields (R73, R93). -/
def teamNumbers (b u : Nat) : Prop := b < 2 ^ 32 ∧ u < 16

/-- Lane registers of teams are as they were but for registers rs of a team's lanes ls. -/
def lanesKept (s t : State) (g b u : Nat) (rs ls : List Nat) : Prop :=
  ∀ g' b' u' r l, teamNumbers b' u' → l < 1024 →
    (g', b', u') = (g, b, u) ∧ r ∈ rs ∧ l ∈ ls ∨ laneReg t g' b' u' r l = laneReg s g' b' u' r l

/-- Scalars of teams are as they were but for registers rs of a team. -/
def scalarsKept (s t : State) (g b u : Nat) (rs : List Nat) : Prop :=
  ∀ g' b' u' r, teamNumbers b' u' → (g', b', u') = (g, b, u) ∧ r ∈ rs ∨ scalReg t g' b' u' r = scalReg s g' b' u' r

/-- Predicates of teams are as they were but for predicates rs of a team's lanes ls. -/
def predsKept (s t : State) (g b u : Nat) (rs ls : List Nat) : Prop :=
  ∀ g' b' u' r l, teamNumbers b' u' →
    (g', b', u') = (g, b, u) ∧ r ∈ rs ∧ l ∈ ls ∨ predBit t g' b' u' r l = predBit s g' b' u' r l

/-- A q predicate of a team. -/
def qBit (s : State) (g b t n : Nat) : Bool := ((s.team g b t).map fun x => x.seq.q.getLsbD n).getD false

/-- The q predicates of teams are as they were but for predicates rs of a team. -/
def qsKept (s t : State) (g b u : Nat) (rs : List Nat) : Prop :=
  ∀ g' b' u' r, teamNumbers b' u' → (g', b', u') = (g, b, u) ∧ r ∈ rs ∨ qBit t g' b' u' r = qBit s g' b' u' r

/-- The fpc of a team is as it was. -/
def fpcKept (s t : State) (g b u : Nat) : Prop := (s.team g b u).map (·.fpc) = (t.team g b u).map (·.fpc)

/-- Memory, frames, scalars of the levels and every unit outside the team are as they were. -/
def outsideKept (s t : State) : Prop :=
  t.mem = s.mem ∧ t.frames = s.frames ∧ t.clusters = s.clusters ∧ t.blocks = s.blocks ∧ t.ctxs = s.ctxs ∧
    t.queues = s.queues ∧ t.lamport = s.lamport ∧ ∀ g, (t.grid g).map (·.lvl.vregs) = (s.grid g).map (·.lvl.vregs)

/-- Of all registers and all that lies outside, a member has written at most lane registers vs and predicates ps of a team's
lanes ls, its scalars ss and its q predicates qs. -/
def onlyWrites (s t : State) (g b u : Nat) (ls vs ss ps qs : List Nat) : Prop :=
  lanesKept s t g b u vs ls ∧ scalarsKept s t g b u ss ∧ predsKept s t g b u ps ls ∧ qsKept s t g b u qs ∧ outsideKept s t

/-- No log of a context grows and no trace is written: stores and atomics change their own bytes only (R315, R329, R340). -/
def unlogged (s : State) (ctx : Nat) : Prop :=
  ∃ x, mget s.ctxs ctx = some x ∧ x.undo = false ∧ x.record = false ∧ x.ulog = none ∧ x.arb = none ∧ x.trace = none

/-! ### Queues and CPC cores -/

/-- The queue whose turn it is, served, with its newest image (R357, R370). -/
def queueTurn (s : State) (q : Nat) (x : Queue) (j : JImg) : Prop :=
  s.turn = .queue q ∧ mget s.queues q = some x ∧ x.newest = some j ∧ x.served j = true

/-- The queue with nothing performed for its command yet (R373). -/
def undispatched (x : Queue) (j : JImg) : Prop := x.window.find? (fun e => decide (e.1 = j.csn)) = none

/-- A command that leaves image j is complete, in the state s: the queue moves on to the next command (R357). -/
def cmdEnds (s : State) (q : Nat) (j : JImg) : Out := .next (completeCommand s q (movePos j 1))

/-- A dispatched command is complete: its result stands in the dispatch window (R373). -/
def dispEnds (s : State) (q : Nat) (j : JImg) (v : W64) (post : JImg) : Out :=
  .next (completeCommand (enterWindow s q j.csn v) q (movePos post 1))

/-- The access of a queue's command to the aligned 8 bytes at va passes: its cell, tier and the state with the key tags
it binds (R359). -/
def qPasses (s : State) (x : Queue) (acc : Acc) (va : W64) (key tier : Nat) (t : State) : Prop :=
  va.toNat % 8 = 0 ∧ ∃ n rest, qRange s x.part x.space acc va 8 = .ok ((key, n) :: rest) tier t ∧
    (acc = .store ∨ segsPoisoned t ((key, n) :: rest) = false)

/-- The launch that a queue's command asks for (R364). -/
def launchAsked (q : Nat) (x : Queue) (j : JImg) (a b c d : BitVec 4) (prio : BitVec 2) : PLaunch :=
  { launcher := .queue q, party := none, part := x.part, space := x.space, queue := q, csn := j.csn, prio := prio.toNat
    depth := 1, recAt := j.reg a.toNat, raw := none, params := [], ctxAt := j.reg b.toNat, ctx := none, sig := j.reg c.toNat
    dreg := d.toNat }

/-- A state with one more launch waiting. -/
def asking (s : State) (pl : PLaunch) : State := { s.fresh.2 with launches := mset s.launches s.fresh.1 pl }

/-- A control block as its 64 bytes hold it (R369). -/
def ctlBlkOf (n : Nat) : CtlBlk :=
  ⟨nfield n 0 32, BitVec.ofNat 64 (nfield n 64 64), BitVec.ofNat 64 (nfield n 128 64), BitVec.ofNat 64 (nfield n 192 64),
    BitVec.ofNat 64 (nfield n 256 64)⟩

/-- The control block at ka can be read, its reserved bits are 0, and it names grid g of the queue's own partition: the
state with the key tags that reading it binds (R369). -/
def ctlNames (s : State) (x : Queue) (ka : W64) (b : CtlBlk) (g : Nat) (gr : Grid) (t : State) : Prop :=
  ka.toNat % 8 = 0 ∧ ∃ segs tier y, qRange s x.part x.space .load ka 64 = .ok segs tier t ∧ segsPoisoned t segs = false ∧
    ctlBlkOf (bytesNat (readSegs t.mem segs)) = b ∧ nfield (bytesNat (readSegs t.mem segs)) 32 32 = 0 ∧
    nfield (bytesNat (readSegs t.mem segs)) 320 192 = 0 ∧ mget t.queues b.queue = some y ∧ y.part = x.part ∧
    ctlTarget t b.queue b.csn = some g ∧ anyGrid t g = some gr ∧ gr.part = x.part

/-- The control block at ka can be read, its reserved bits are 0, and it names no grid that stands or is saved: the state with
the key tags that reading it binds (R369). -/
def ctlNothing (s : State) (x : Queue) (ka : W64) (b : CtlBlk) (t : State) : Prop :=
  ka.toNat % 8 = 0 ∧ ∃ segs tier y, qRange s x.part x.space .load ka 64 = .ok segs tier t ∧ segsPoisoned t segs = false ∧
    ctlBlkOf (bytesNat (readSegs t.mem segs)) = b ∧ nfield (bytesNat (readSegs t.mem segs)) 32 32 = 0 ∧
    nfield (bytesNat (readSegs t.mem segs)) 320 192 = 0 ∧ mget t.queues b.queue = some y ∧ y.part = x.part ∧
    ctlTarget t b.queue b.csn = none

/-- A ctrl command is complete with a status in kd. -/
def ctlEnds (s : State) (q : Nat) (j : JImg) (d : BitVec 4) (v : W64) : Out := dispEnds s q j v (j.setReg d.toNat v)

/-- A ctrl command goes on, in a phase of its own. -/
def ctlPhase (s : State) (q : Nat) (j : JImg) (n : Nat) : State := s.modQueue q fun x => { x with begun := some (j.csn, n) }

/-- The CPC core whose turn it is, running. -/
def cpcTurn (s : State) (n : Nat) (x : Cpc) : Prop := s.turn = .cpc n ∧ mget s.cpcs n = some x ∧ x.stopped = false

/-- The core after an Xnov instruction that wrote v. -/
def xnovDone (s : State) (n : Nat) (rd : BitVec 5) (v : W64) : State :=
  s.modCpc n fun y => { (y.put rd.toNat v).next 4 with mcycle := y.mcycle + 1 }

end Sys2Proof.Machine
end

