-- ==== Sys2Proof/Certificates/Slice0/Obligations.lean ====
section
/-! DEFINITION. The statements about the machine that are to be proved. `ready s p i = some c` says that the party whose
turn it is executes the member i, c being what its meaning is given; `finish1` is the state in which its chain commits. -/

open Sys2Proof Sys2Proof.Machine

/-! ### Lane members -/

/-- R135, R136: the two-source integer members write their result in every active lane. -/
def Obligations.LaneIntegerTwoSource : Prop :=
  ∀ d a b : Operand,
    Executes (.iadd d a b) (lanes32 d fun c l => c.rdL a l + c.rdL b l) ∧
    Executes (.isub d a b) (lanes32 d fun c l => c.rdL a l - c.rdL b l) ∧
    Executes (.imul d a b) (lanes32 d fun c l => c.rdL a l * c.rdL b l) ∧
    Executes (.imulhs d a b) (lanes32 d fun c l =>
      BitVec.ofInt 32 ((c.rdL a l).toInt * (c.rdL b l).toInt / 2 ^ 32)) ∧
    Executes (.imulhu d a b) (lanes32 d fun c l =>
      BitVec.ofNat 32 ((c.rdL a l).toNat * (c.rdL b l).toNat / 2 ^ 32)) ∧
    Executes (.imin d a b) (lanes32 d fun c l =>
      if (c.rdL a l).toInt ≤ (c.rdL b l).toInt then c.rdL a l else c.rdL b l) ∧
    Executes (.imax d a b) (lanes32 d fun c l =>
      if (c.rdL a l).toInt ≤ (c.rdL b l).toInt then c.rdL b l else c.rdL a l) ∧
    Executes (.umin d a b) (lanes32 d fun c l =>
      if (c.rdL a l).toNat ≤ (c.rdL b l).toNat then c.rdL a l else c.rdL b l) ∧
    Executes (.umax d a b) (lanes32 d fun c l =>
      if (c.rdL a l).toNat ≤ (c.rdL b l).toNat then c.rdL b l else c.rdL a l) ∧
    Executes (.iadds d a b) (lanes32 d fun c l =>
      let z := (c.rdL a l).toInt + (c.rdL b l).toInt
      if z < -(2 ^ 31) then 0x80000000 else if 2 ^ 31 - 1 < z then 0x7FFFFFFF else BitVec.ofInt 32 z) ∧
    Executes (.and d a b) (lanes32 d fun c l => c.rdL a l &&& c.rdL b l) ∧
    Executes (.or d a b) (lanes32 d fun c l => c.rdL a l ||| c.rdL b l) ∧
    Executes (.xor d a b) (lanes32 d fun c l => c.rdL a l ^^^ c.rdL b l) ∧
    Executes (.shl d a b) (lanes32 d fun c l => c.rdL a l <<< ((c.rdL b l).toNat % 32)) ∧
    Executes (.shr d a b) (lanes32 d fun c l => c.rdL a l >>> ((c.rdL b l).toNat % 32)) ∧
    Executes (.sar d a b) (lanes32 d fun c l => (c.rdL a l).sshiftRight ((c.rdL b l).toNat % 32))

/-- R135 to R138, R139, R140: the other integer members: one source, multiply and add, bit fields, select, immediates. -/
def Obligations.LaneIntegerOther : Prop :=
  ∀ (d a b x : Operand) (imm sgn : Bool) (pos w1 : BitVec 5) (n : Fin 48) (k : BitVec 16),
    Executes (.iabs d a) (lanes32 d fun c l => if (c.rdL a l).toInt < 0 then -(c.rdL a l) else c.rdL a l) ∧
    Executes (.popc d a) (lanes32 d fun c l =>
      BitVec.ofNat 32 (((List.range 32).filter fun i => (c.rdL a l).getLsbD i).length)) ∧
    Executes (.clz d a) (lanes32 d fun c l => leadZeros (c.rdL a l)) ∧
    Executes (.mov d a) (lanes32 d fun c l => c.rdL a l) ∧
    Executes (.imad d a b x 0) (lanes32 d fun c l => c.rdL a l * c.rdL b l + c.rdL x l) ∧
    Executes (.imad d a b x 1) (lanes64 d fun c l =>
      BitVec.ofInt 64 ((c.rdL a l).toInt * (c.rdL b l).toInt) + c.rdD x l) ∧
    Executes (.imad d a b x 2) (lanes64 d fun c l =>
      BitVec.ofNat 64 ((c.rdL a l).toNat * (c.rdL b l).toNat) + c.rdD x l) ∧
    Executes (.bfx d a b imm pos sgn w1) (lanes32 d fun c l =>
      let f := (c.rdL a l >>> (if imm then pos.toNat else (c.rdL b l).toNat % 32)) &&&
        BitVec.ofNat 32 (2 ^ (w1.toNat + 1) - 1)
      if sgn = true ∧ w1.toNat < 31 ∧ f.getLsbD w1.toNat = true then f ||| ~~~(BitVec.ofNat 32 (2 ^ (w1.toNat + 1) - 1))
      else f) ∧
    Executes (.bfi d a b imm pos w1) (lanes32 d fun c l =>
      let at_ := if imm then pos.toNat else (c.rdL b l).toNat % 32
      let m := BitVec.ofNat 32 (2 ^ (w1.toNat + 1) - 1)
      (c.rdL d l &&& ~~~(m <<< at_)) ||| ((c.rdL a l &&& m) <<< at_)) ∧
    Executes (.sel d a b (.p n)) (lanes32 d fun c l => if c.tm.pred n.val l then c.rdL a l else c.rdL b l) ∧
    Executes (.movil d k) (lanes32 d fun _ _ => k.signExtend 32) ∧
    Executes (.movih d k) (lanes32 d fun c l => (k ++ (c.rdL d l).setWidth 16 : BitVec 32))

/-- R91, R122, R128, R141: compares and PLOG write a lane predicate in every active lane, or the executing instance's
scope predicate once. -/
def Obligations.ComparesWritePredicates : Prop :=
  ∀ (cc op qs : BitVec 2) (a b : Operand) (n m k : Fin 48) (q r : BitVec 4),
    Executes (.icmp (.p n) cc a b) (lanesP n.val fun c l => condS cc (c.rdL a l) (c.rdL b l)) ∧
    Executes (.ucmp (.p n) cc a b) (lanesP n.val fun c l => condU cc (c.rdL a l) (c.rdL b l)) ∧
    Executes (.icmp (.q q) cc a b) (fun c =>
      .ok (c.wrQ c.pre q.toNat (condS cc ((c.rdS a).setWidth 32) ((c.rdS b).setWidth 32)))) ∧
    Executes (.ucmp (.q q) cc a b) (fun c =>
      .ok (c.wrQ c.pre q.toNat (condU cc ((c.rdS a).setWidth 32) ((c.rdS b).setWidth 32)))) ∧
    Executes (.scmp (.q q) cc a b) (fun c =>
      .ok (c.wrQ c.pre q.toNat (if cc = 0 then decide (c.rdS a = c.rdS b) else if cc = 1 then decide (c.rdS a ≠ c.rdS b)
        else if cc = 2 then decide ((c.rdS a).toInt < (c.rdS b).toInt) else decide ((c.rdS a).toNat < (c.rdS b).toNat)))) ∧
    Executes (.plog op (.p n) qs (.p m) (.p k)) (lanesP n.val fun c l =>
      if op = 0 then c.tm.pred m.val l && c.tm.pred k.val l else if op = 1 then c.tm.pred m.val l || c.tm.pred k.val l
      else if op = 2 then c.tm.pred m.val l != c.tm.pred k.val l else c.tm.pred m.val l && !(c.tm.pred k.val l)) ∧
    Executes (.plog op (.p n) qs (.p m) (.q r)) (lanesP n.val fun c l =>
      plogOp op (c.tm.pred m.val l) (c.rdQ (qsScope qs) r.toNat)) ∧
    Executes (.plog op (.p n) qs (.q q) (.p k)) (lanesP n.val fun c l =>
      plogOp op (c.rdQ (qsScope qs) q.toNat) (c.tm.pred k.val l)) ∧
    Executes (.plog op (.p n) qs (.q q) (.q r)) (lanesP n.val fun c _ =>
      plogOp op (c.rdQ (qsScope qs) q.toNat) (c.rdQ (qsScope qs) r.toNat))

/-- R152 to R162: the float members write the rounded result of their operation in every active lane and set the sticky
flags that the lanes raise; a compare into a scope predicate writes it once. CVTQ wants a quantized slot, a v register and an
element in range, before its data is looked at. It rests on readings of the model's own (log entries 17, 33, 114). -/
def Obligations.FloatMembers : Prop :=
  ∀ (d a b x : Operand) (np nc : Bool) (n : Fin 48) (cc mode : BitVec 2) (src dst : BitVec 4) (m : BitVec 8)
    (fmt elem : BitVec 3) (q : BitVec 4),
    Executes (.fadd d a b) (lanesF d fun c l => addF fp32 c.fenv (c.f32 a l) (c.f32 b l)) ∧
    Executes (.fsub d a b) (lanesF d fun c l => addF fp32 c.fenv (c.f32 a l) (c.f32 b l).neg) ∧
    Executes (.fmul d a b) (lanesF d fun c l => mulF fp32 c.fenv (c.f32 a l) (c.f32 b l)) ∧
    Executes (.ffma d a b x np nc) (lanesF d fun c l => fmaF fp32 c.fenv np nc (c.f32 a l) (c.f32 b l) (c.f32 x l)) ∧
    Executes (.fmin d a b) (lanesF d fun c l => minmaxF fp32 false (c.f32 a l) (c.f32 b l)
      (dazBits fp32 c.fenv.daz (c.rdL a l).toNat) (dazBits fp32 c.fenv.daz (c.rdL b l).toNat)) ∧
    Executes (.fmax d a b) (lanesF d fun c l => minmaxF fp32 true (c.f32 a l) (c.f32 b l)
      (dazBits fp32 c.fenv.daz (c.rdL a l).toNat) (dazBits fp32 c.fenv.daz (c.rdL b l).toNat)) ∧
    Executes (.fcmp (.p n) cc a b) (fun c =>
      .ok (c.setFlags (c.wrP c.pre n.val (c.lanes.map fun l => (l, (fcmpF cc (c.f32 a l) (c.f32 b l)).1)))
        (orFlags (c.lanes.map fun l => (fcmpF cc (c.f32 a l) (c.f32 b l)).2)))) ∧
    Executes (.fcmp (.q q) cc a b) (fun c =>
      .ok (if c.sc = .team then c.setFlags (c.wrQ c.pre q.toNat (fcmpF cc (c.f32 a 0) (c.f32 b 0)).1)
          (fcmpF cc (c.f32 a 0) (c.f32 b 0)).2
        else c.wrQ c.pre q.toNat (fcmpF cc (c.f32 a 0) (c.f32 b 0)).1)) ∧
    Executes (.frcp d a) (lanesF d fun c l => frcpF c.fenv (c.f32 a l)) ∧
    Executes (.frsq d a) (lanesF d fun c l => frsqF c.fenv (c.f32 a l)) ∧
    Executes (.fsqrt d a) (lanesF d fun c l => fsqrtF c.fenv (c.f32 a l)) ∧
    Executes (.fex2 d a) (lanesF d fun c l => fex2F c.fenv (c.f32 a l)) ∧
    Executes (.flg2 d a) (lanesF d fun c l => flg2F c.fenv (c.f32 a l)) ∧
    Executes (.hadd2 d a b) (lanesF d fun c l =>
      pair16 (addF fp16 c.fenv (c.f16 a l 0) (c.f16 b l 0)) (addF fp16 c.fenv (c.f16 a l 1) (c.f16 b l 1))) ∧
    Executes (.hmul2 d a b) (lanesF d fun c l =>
      pair16 (mulF fp16 c.fenv (c.f16 a l 0) (c.f16 b l 0)) (mulF fp16 c.fenv (c.f16 a l 1) (c.f16 b l 1))) ∧
    Executes (.hfma2 d a b x np nc) (lanesF d fun c l =>
      pair16 (fmaF fp16 c.fenv np nc (c.f16 a l 0) (c.f16 b l 0) (c.f16 x l 0))
        (fmaF fp16 c.fenv np nc (c.f16 a l 1) (c.f16 b l 1) (c.f16 x l 1))) ∧
    Executes (.cvt d a src dst) (lanesF d fun c l => cvtVal c.fenv src.toNat dst.toNat (c.rdL a l) (c.rdL d l)) ∧
    Executes (.frnd d a m) (lanesF d fun c l =>
      frndF (if m = 4 then c.fenv.rm else m.setWidth 2) (c.f32 a l) (dazBits fp32 c.fenv.daz (c.rdL a l).toNat)) ∧
    Executes (.fscl d a b) (lanesF d fun c l => fsclF c.fenv (c.f32 a l) (c.rdL b l).toInt) ∧
    Executes (.fcls d a m) (lanes32 d fun c l => BitVec.ofNat 32 (if m = 0 then fclsF fp32 (c.rdL a l).toNat
      else fclsF (halfCode m.toNat).1 (half (c.rdL a l) (halfCode m.toNat).2))) ∧
    ExecutesIf (.cvtq d a b fmt mode elem)
      (fun c => (fmtType (fmtSlot c.gr fmt.toNat) = 5 ∨ (fmtType (fmtSlot c.gr fmt.toNat) = 6)) ∧ opIsV a = true ∧
        elem.toNat ≤ (if fmtType (fmtSlot c.gr fmt.toNat) = 5 then 3 else 7) ∧ (mode = 1 → elem.toNat % 2 = 0))
      (lanesF d fun c l => cvtqVal c.fenv (fmtSlot c.gr fmt.toNat) mode elem.toNat (c.rdL a l) (c.rdL b l) (c.rdL d l)) ∧
    (∀ r : BitVec 7, d = .v r →
      RefusesIf (.cvtq d a b fmt mode elem)
        (fun c => ownOperandBad c.gr.lrec.regs c.gr.lrec.cmode (.cvtq d a b fmt mode elem) = false ∧
          fmtType (fmtSlot c.gr fmt.toNat) ≠ 5 ∧ fmtType (fmtSlot c.gr fmt.toNat) ≠ 6) 0x22 ∧
      RefusesIf (.cvtq d a b fmt mode elem)
        (fun c => ownOperandBad c.gr.lrec.regs c.gr.lrec.cmode (.cvtq d a b fmt mode elem) = false ∧
          (fmtType (fmtSlot c.gr fmt.toNat) = 5 ∨ fmtType (fmtSlot c.gr fmt.toNat) = 6) ∧
          (opIsV a = false ∨ (if fmtType (fmtSlot c.gr fmt.toNat) = 5 then 3 else 7) < elem.toNat ∨
            (mode = 1 ∧ elem.toNat % 2 = 1))) 0x02)

/-! ### Lane crossing and lifts -/

/-- R87, R88, R92: PFXC counts the active lanes below (or up to) a lane whose predicate is true and adds its source; SHFL
reads the source of the lane that j names, its own where that lane does not exist; ACTM reads the active mask, its summary
or the count of active lanes. It rests on a reading of the model's own (log entry 87). -/
def Obligations.LaneCrossing : Prop :=
  ∀ (d a j k : Operand) (n : Fin 48) (r : BitVec 7),
    Executes (.pfxc d a 0 (.p n)) (lanes32 d fun c l =>
      c.rdL a l + BitVec.ofNat 32 ((c.lanes.filter fun m => c.tm.pred n.val m && decide (m < l)).length)) ∧
    Executes (.pfxc d a 1 (.p n)) (lanes32 d fun c l =>
      c.rdL a l + BitVec.ofNat 32 ((c.lanes.filter fun m => c.tm.pred n.val m && decide (m ≤ l)).length)) ∧
    ExecutesIf (.shfl d (.v r) j)
      (fun c => ∀ l ∈ c.lanes, busyV c.tm r.toNat (c.shflFrom j l) = false ∧
        mget c.tm.vtag (vKey r.toNat (c.shflFrom j l)) = none)
      (lanes32 d fun c l => c.vreg r.toNat (if (c.rdL j l).toNat < c.tm.nlane then (c.rdL j l).toNat else l)) ∧
    ExecutesScalar (.actm d k 0) d (fun c =>
      (maskWord c.act (2 * ((c.rdS k).toNat % 2 ^ 32) + 1) ++ maskWord c.act (2 * ((c.rdS k).toNat % 2 ^ 32)) : BitVec 64)) ∧
    ExecutesScalar (.actm d k 1) d (fun c => BitVec.ofNat 64 (maskSum c.act)) ∧
    ExecutesScalar (.actm d k 2) d (fun c => BitVec.ofNat 64 c.lanes.length)

/-- R84 to R90: the lifts at TEAM scope, over the active lanes of the team that executes them. It rests on readings of the
model's own (log entry 10). -/
def Obligations.TeamLifts : Prop :=
  ∀ (d a j k : Operand) (n : Fin 48) (op : BitVec 8),
    ExecutesIf (.vote d k 0 (.p n)) (fun c => teamLift c d ∧ takes c d (if c.lanes.any (c.tm.pred n.val) then 1 else 0))
      (scalarTo d fun c => if c.lanes.any (c.tm.pred n.val) then 1 else 0) ∧
    ExecutesIf (.vote d k 1 (.p n)) (fun c => teamLift c d ∧ takes c d (if c.lanes.all (c.tm.pred n.val) then 1 else 0))
      (scalarTo d fun c => if c.lanes.all (c.tm.pred n.val) then 1 else 0) ∧
    ExecutesScalar (.vote d k 2 (.p n)) d (fun c =>
      BitVec.ofNat 64 ((c.lanes.filter fun l => decide (l / 64 = (c.rdS k).toNat % 16) && c.tm.pred n.val l).foldl
        (fun x l => x + 2 ^ (l % 64)) 0)) ∧
    ExecutesIf (.vote d k 3 (.p n))
      (fun c => teamLift c d ∧ takes c d (BitVec.ofNat 64 (c.lanes.filter (c.tm.pred n.val)).length))
      (scalarTo d fun c => BitVec.ofNat 64 (c.lanes.filter (c.tm.pred n.val)).length) ∧
    (∀ l ls, ExecutesIf (.rdfirst d a)
      (fun c => teamLift c d ∧ c.lanes = l :: ls ∧ laneClean c a l ∧ takes c d ((c.rdL a l).setWidth 64))
      (scalarTo d fun c => (c.rdL a l).setWidth 64)) ∧
    (∀ l, ExecutesIf (.rdlane d a j)
      (fun c => teamLift c d ∧ (c.rdS j).toNat % 2 ^ 32 = l ∧ l < c.tm.nlane ∧ laneClean c a l ∧
        takes c d ((c.rdL a l).setWidth 64))
      (scalarTo d fun c => (c.rdL a l).setWidth 64)) ∧
    (∀ l ls, ExecutesIf (.reduce d a op)
      (fun c => teamLift c d ∧ c.lanes = l :: ls ∧
        takes c d (redEnd op.toNat ((ls.map fun m => redExt op.toNat (c.rdL a m)).foldl (redStep op.toNat)
          (redExt op.toNat (c.rdL a l)))))
      (scalarTo d fun c => redEnd op.toNat ((ls.map fun m => redExt op.toNat (c.rdL a m)).foldl (redStep op.toNat)
        (redExt op.toNat (c.rdL a l)))))

/-- R84, R86, R89, R90, R103, R104, R415: a lift of a wider scope. The owner opens a pending version in a free slot, newest
from then on, RDLANE only where a live team holds its lane; each team contributes its part at its close chain, which the pending
lift keeps beside those of other teams; when all live teams have contributed, the version takes their parts combined: those of
a block in team order, those of the blocks in block order, or the empty result. It rests on readings of the model's own (log
entries 10, 11). -/
def Obligations.WideLifts : Prop :=
  ∀ (d a j k : Operand) (n : Fin 48) (op : BitVec 8) (slot x : Nat) (s t : State) (l : Nat) (ls : List Nat) (i : Instr)
    (own : Party) (v : Lvl) (gr : Grid) (p : Contrib) (before after : List Lift) (e : Lift),
    -- opened by the owner
    (∀ i ∈ [Instr.vote d k 0 (.p n), Instr.vote d k 1 (.p n), Instr.vote d k 3 (.p n), Instr.rdfirst d a, Instr.reduce d a op],
      ExecutesIf i (fun c => c.sc ≠ .team ∧ c.slotFor d = some slot) (opensLift i d slot 0)) ∧
    ExecutesIf (.rdlane d a j)
      (fun c => c.sc ≠ .team ∧ dstScope d [] ≠ .team ∧ (c.rdS j).toNat % 2 ^ 32 = x ∧ x < c.gr.lrec.team * c.gr.lrec.nteam ∧
        (c.pre.team c.g c.b (x / c.gr.lrec.team)).map (·.detached) = some false ∧ c.slotFor d = some slot)
      (opensLift (.rdlane d a j) d slot x) ∧
    RaisesIf (.rdlane d a j)
      (fun c => c.sc ≠ .team ∧ dstScope d [] ≠ .team ∧ (c.rdS j).toNat % 2 ^ 32 = x ∧
        (c.gr.lrec.team * c.gr.lrec.nteam ≤ x ∨ (c.pre.team c.g c.b (x / c.gr.lrec.team)).map (·.detached) ≠ some false))
      (fun _ => { cls := 0x02, addr := BitVec.ofNat 64 x }) ∧
    -- the part of a team
    (∀ e ∈ [(Instr.vote d k 0 (.p n), fun c : Cx => some (if c.lanes.any (c.tm.pred n.val) then (1 : W64) else 0)),
        (.vote d k 1 (.p n), fun c => some (if c.lanes.all (c.tm.pred n.val) then 1 else 0)),
        (.vote d k 3 (.p n), fun c => some (BitVec.ofNat 64 (c.lanes.filter (c.tm.pred n.val)).length)),
        (.reduce d a op, fun c => fold1 (redStep op.toNat) (c.lanes.map fun l => redExt op.toNat (c.rdL a l)))],
      ExecutesClose e.1 (fun c => givesPart c d e.1 (e.2 c) t) (fun _ => .ok t)) ∧
    ExecutesClose (.rdfirst d a)
      (fun c => c.lanes = l :: ls ∧ laneClean c a l ∧ givesPart c d (.rdfirst d a) (some ((c.rdL a l).setWidth 64)) t)
      (fun _ => .ok t) ∧
    ExecutesClose (.rdlane d a j)
      (fun c => (c.rdS j).toNat % 2 ^ 32 = x ∧ c.t = x / c.gr.lrec.team ∧ laneClean c a (x % c.gr.lrec.team) ∧
        givesPart c d (.rdlane d a j) (some ((c.rdL a (x % c.gr.lrec.team)).setWidth 64)) t)
      (fun _ => .ok t) ∧
    ExecutesClose (.rdlane d a j)
      (fun c => (c.rdS j).toNat % 2 ^ 32 = x ∧ c.t ≠ x / c.gr.lrec.team ∧ givesPart c d (.rdlane d a j) none t)
      (fun _ => .ok t) ∧
    (s.lvlOf own = some v → v.lifts = before ++ e :: after → (∀ z ∈ before, z.ins ≠ i ∨ hasPart z p) → e.ins = i → ¬hasPart e p →
      contribute s own i p = some (fillLifts (s.modLvl own fun w => { w with
        lifts := before ++ { e with got := e.got ++ [p] } :: after }) own)) ∧
    -- combined
    (s.lvlOf own = some v → s.grid own.gridNo = some gr → v.lifts = [e] → (own.scope ≠ .grid ∨ gr.lrec.grid ≤ gr.nextBlk) →
      (∀ y ∈ liveTeams s own.gridNo own.scope (instNo own), ∃ z ∈ e.got, z.blk = y.1 ∧ z.team = y.2) →
      (fillLifts s own).lvlOf own = some { v with
        lifts := []
        vregs := v.vregs.modify e.reg fun r => { r with slots := r.slots.set e.slot (some (liftResult e.ins e.got)) } }) ∧
    (∀ f ∈ [(Instr.vote d k 0 (.p n), fun x y : W64 => x ||| y), (.vote d k 1 (.p n), fun x y => x &&& y),
        (.vote d k 3 (.p n), fun x y => x + y), (.rdfirst d a, fun x _ => x), (.rdlane d a j, fun x _ => x),
        (.reduce d a op, redStep op.toNat)],
      ∀ (bs : List (Nat × List (Nat × W64))) (cs : List Contrib) (w : W64), partsOf bs cs →
        fold1 f.2 (bs.filterMap fun b => fold1 f.2 (b.2.map (·.2))) = some w →
        liftResult f.1 cs = if f.1 = .reduce d a op then redEnd op.toNat w else w) ∧
    (∀ (cs : List Contrib), (∀ z ∈ cs, z.val = none) →
      liftResult (.vote d k 0 (.p n)) cs = 0 ∧ liftResult (.vote d k 3 (.p n)) cs = 0 ∧
      liftResult (.vote d k 1 (.p n)) cs = 1 ∧ liftResult (.rdfirst d a) cs = 0 ∧ liftResult (.rdlane d a j) cs = 0 ∧
      (op.toNat ∈ [0, 1, 5, 7, 8, 9] → liftResult (.reduce d a op) cs = 0) ∧
      (op = 2 → liftResult (.reduce d a op) cs = 0x7FFFFFFF) ∧ (op = 3 ∨ op = 6 → liftResult (.reduce d a op) cs = 0xFFFFFFFF) ∧
      (op = 4 → liftResult (.reduce d a op) cs = 0xFFFFFFFF80000000) ∧
      (op = 10 ∨ op = 11 → liftResult (.reduce d a op) cs = 0x7FC00000))

/-! ### Scope scalars -/

/-- R120, R121: the scalar members write their 64-bit result to the destination, once. -/
def Obligations.ScalarMembers : Prop :=
  ∀ (d a b : Operand) (imm : BitVec 16) (k : BitVec 2) (x : BitVec 24),
    ExecutesScalar (.sadd d a b) d (fun c => c.rdS a + c.rdS b) ∧
    ExecutesScalar (.ssub d a b) d (fun c => c.rdS a - c.rdS b) ∧
    ExecutesScalar (.smul d a b) d (fun c => c.rdS a * c.rdS b) ∧
    ExecutesScalar (.sand d a b) d (fun c => c.rdS a &&& c.rdS b) ∧
    ExecutesScalar (.sor d a b) d (fun c => c.rdS a ||| c.rdS b) ∧
    ExecutesScalar (.sxor d a b) d (fun c => c.rdS a ^^^ c.rdS b) ∧
    ExecutesScalar (.sshl d a b) d (fun c => c.rdS a <<< ((c.rdS b).toNat % 64)) ∧
    ExecutesScalar (.sshr d a b) d (fun c => c.rdS a >>> ((c.rdS b).toNat % 64)) ∧
    ExecutesScalar (.smov d a) d (fun c => c.rdS a) ∧
    ExecutesScalar (.smovi d imm) d (fun _ => imm.signExtend 64) ∧
    ExecutesScalar (.smovx d a k x) d (fun c =>
      (c.rdS a &&& ~~~((0xFFFFFF : W64) <<< (24 * k.toNat))) ||| (x.setWidth 64 <<< (24 * k.toNat)))

/-- R105, R120, R170, R176: where a scalar result goes. An s register of the team takes it and loses its tag, other s registers
stand; a b, c or g register takes it in a free version slot, newest from then on, and waits where none is free; a frame
slot that its mode forbids raises 0x30. A slot of the level's own frame takes it, a team's through its store queue; an inner
instance's write joins its pending contribution to the slot under the slot's mode. -/
def Obligations.ScalarWrites : Prop :=
  ∀ (c : Cx) (x : W64),
    (∀ n : BitVec 5, (c.pre.team c.g c.b c.t).isSome = true →
      ∃ t, c.scalarWrite c.pre (.s n) x = .ok t ∧ scalReg t c.g c.b c.t n.toNat = x ∧
        (∀ m, m ≠ n.toNat → scalReg t c.g c.b c.t m = scalReg c.pre c.g c.b c.t m) ∧
        t = { c.pre with teams := t.teams }) ∧
    (∀ d : Operand, (∃ n, d = .b n) ∨ (∃ n, d = .c n) ∨ (∃ n, d = .g n) →
      (c.slotFor d = none → c.scalarWrite c.pre d x = .hold c.pre (.notReady 1)) ∧
      (∀ k, c.slotFor d = some k → c.scalarWrite c.pre d x = .ok (c.pre.modLvl c.p fun v => { v with
        vregs := v.vregs.modify (regNo d) fun r => ⟨r.slots.set k (some x), k⟩ }))) ∧
    (∀ l k, c.slotBad l.toNat k.toNat = true → c.scalarWrite c.pre (.frame l k) x = .fault c.pre { cls := 0x30 }) ∧
    (∀ l k h f, c.frameAt l.toNat = some (h, f) →
      (ownsFrame c.p f = true → f.mode k.toNat ≠ 1 → f.sealed = false →
        (c.sc = .team → c.pre.recordOn c.ctx = false → c.scalarWrite c.pre (.frame l k) x = .ok (c.onTeam c.pre fun t => { t with
          storeQ := t.storeQ ++ [{ kind := .frame (c.frameKey h) k.toNat, va := slotAddr h k.toNat, tier := 9
                                   key := slotKey (c.frameKey h) k.toNat, bytes := natBytes 8 x.toNat, ms := .team
                                   grans := [], pc := mkPc c.pkt c.slot, heals := [] }] })) ∧
        (c.sc ≠ .team → c.pre.undoOn c.ctx = false → c.scalarWrite c.pre (.frame l k) x = .ok { c.pre with
          frames := mmod c.pre.frames (c.frameKey h) fun y => { y with slots := y.slots.set k.toNat x } })) ∧
      (ownsFrame c.p f = false → 2 ≤ (f.mode k.toNat).toNat → c.scalarWrite c.pre (.frame l k) x =
        .ok (c.pre.modSeq c.p fun q => { q with
          pend := mset q.pend (pendKey f.serial k.toNat) (match mget q.pend (pendKey f.serial k.toNat) with
          | none => x
          | some y =>
            if f.mode k.toNat = 2 then y + x else if f.mode k.toNat = 3 then (if y.toInt ≤ x.toInt then x else y)
            else if f.mode k.toNat = 4 then (if y.toInt ≤ x.toInt then y else x)
            else if f.mode k.toNat = 5 then y ||| x else x) })))

/-! ### Control -/

/-- R48, R108, R109, R115: a branch on a scope predicate, on the lanes of a running group, on a whole team, and at a
rendezvous of a wider scope, for the team that arrives and for the owner that decides. -/
def Obligations.Branches : Prop :=
  ∀ (sense v : Bool) (sc : Scope) (disp : BitVec 14) (n : Fin 48) (q : BitVec 4) (k : Nat),
    -- on a scope predicate
    ExecutesIf (branchOf sense sc (.q q) disp) (fun c => c.rdQ sc q.toNat = sense ∧ goesTo c disp.toInt k)
      (fun c => .jump c.pre (mkPc k 0)) ∧
    ExecutesIf (branchOf sense sc (.q q) disp) (fun c => c.rdQ sc q.toNat ≠ sense) (fun c => .ok c.pre) ∧
    RaisesIf (branchOf sense sc (.q q) disp) (fun c => c.rdQ sc q.toNat = sense ∧ leaves c disp.toInt)
      (fun _ => { cls := 0x01 }) ∧
    -- lane by lane
    ExecutesIf (branchOf sense .lane (.p n) disp) (fun c => lanesWith c n.val sense = []) (fun c => .ok c.pre) ∧
    ExecutesIf (branchOf sense .lane (.p n) disp) (fun c => lanesWith c n.val sense ≠ [] ∧ goesTo c disp.toInt k ∧
        (groupsAfter c (lanesWith c n.val sense) (mkPc k 0)).length ≤ 32)
      (fun c => .split c.pre (maskOf (lanesWith c n.val sense)) (mkPc k 0)) ∧
    RaisesIf (branchOf sense .lane (.p n) disp) (fun c => lanesWith c n.val sense ≠ [] ∧ leaves c disp.toInt)
      (fun _ => { cls := 0x01 }) ∧
    RaisesIf (branchOf sense .lane (.p n) disp) (fun c => lanesWith c n.val sense ≠ [] ∧ goesTo c disp.toInt k ∧
        32 < (groupsAfter c (lanesWith c n.val sense) (mkPc k 0)).length)
      (fun _ => { cls := 0x05, scope := some .lane }) ∧
    -- a whole team
    ExecutesIf (branchOf sense .team (.p n) disp)
      (fun c => c.lanes ≠ [] ∧ lanesWith c n.val v = c.lanes ∧ v = sense ∧ goesTo c disp.toInt k)
      (fun c => .jump c.pre (mkPc k 0)) ∧
    ExecutesIf (branchOf sense .team (.p n) disp) (fun c => lanesWith c n.val v = c.lanes ∧ v ≠ sense)
      (fun c => .ok c.pre) ∧
    (∀ h l t u, RaisesIf (branchOf sense .team (.p n) disp)
      (fun c => c.lanes = h :: (t ++ l :: u) ∧ (∀ m ∈ t, c.tm.pred n.val m = c.tm.pred n.val h) ∧
        c.tm.pred n.val l ≠ c.tm.pred n.val h)
      (fun _ => { cls := 0x04, scope := some .team, lane := some l })) ∧
    -- a rendezvous
    (sc ≠ .lane → sc ≠ .team →
      ExecutesClose (branchOf sense sc (.p n) disp) (fun c => c.sc = .team)
        (fun c => .ok (c.pre.modLvl (ownerAt c.g c.b c.k sc) fun x => { x with arr := x.arr ++ [⟨c.b, c.t, c.lanes.map fun l => (l, c.tm.pred n.val l)⟩] })) ∧
      WaitsIf (branchOf sense sc (.p n) disp) (fun c => c.sc ≠ .team ∧ ¬allArrived c sc) (fun _ => .notReady 2) ∧
      ExecutesIf (branchOf sense sc (.p n) disp)
        (fun c => c.sc ≠ .team ∧ allArrived c sc ∧ contributed c sc ≠ [] ∧
          (∀ e ∈ contributed c sc, e.2 = v) ∧ v = sense ∧ goesTo c disp.toInt k)
        (fun c => .jump (noArrivals c) (mkPc k 0)) ∧
      ExecutesIf (branchOf sense sc (.p n) disp)
        (fun c => c.sc ≠ .team ∧ allArrived c sc ∧ contributed c sc ≠ [] ∧
          (∀ e ∈ contributed c sc, e.2 = v) ∧ v ≠ sense)
        (fun c => .ok (noArrivals c)))

/-- R48, R111, R116 to R119: JMP, LOOP and ENDL with the loop stack, CALL and RET with the call stack. -/
def Obligations.Transfers : Prop :=
  ∀ (sc : Scope) (lvl : BitVec 2) (far : BitVec 18) (near : BitVec 13) (n : Operand) (k : Nat) (e : LoopEnt)
    (rest : List LoopEnt) (x : CallEnt) (calls : List CallEnt),
    ExecutesIf (.jmp sc far) (fun c => goesTo c far.toInt k) (fun c => .jump c.pre (mkPc k 0)) ∧
    RaisesIf (.jmp sc far) (fun c => leaves c far.toInt) (fun _ => { cls := 0x01 }) ∧
    ExecutesIf (.loop sc n near) (fun c => c.rdS n = 0 ∧ goesTo c near.toInt k) (fun c => .jump c.pre (mkPc k 0)) ∧
    ExecutesIf (.loop sc n near) (fun c => c.rdS n ≠ 0 ∧ (c.rdS n).toNat < 2 ^ 32 ∧ c.seq.loops.length < 8)
      (fun c => .ok (c.pre.modSeq c.p fun q => { q with loops := ⟨0, (c.rdS n).setWidth 32⟩ :: q.loops })) ∧
    RaisesIf (.loop sc n near) (fun c => c.rdS n ≠ 0 ∧ (c.rdS n).toNat < 2 ^ 32 ∧ 8 ≤ c.seq.loops.length)
      (fun _ => { cls := 0x05 }) ∧
    RaisesIf (.loop sc n near) (fun c => 2 ^ 32 ≤ (c.rdS n).toNat) (fun c => { cls := 0x02, addr := c.rdS n }) ∧
    ExecutesIf (.endl sc near)
      (fun c => c.seq.loops = e :: rest ∧ (e.lc + 1).toNat < e.count.toNat ∧ goesTo c near.toInt k)
      (fun c => .jump (withLoops c ({ e with lc := e.lc + 1 } :: rest)) (mkPc k 0)) ∧
    ExecutesIf (.endl sc near) (fun c => c.seq.loops = e :: rest ∧ e.count.toNat ≤ (e.lc + 1).toNat)
      (fun c => .ok (withLoops c rest)) ∧
    RaisesIf (.endl sc near) (fun c => c.seq.loops = []) (fun _ => { cls := 0x06 }) ∧
    ExecutesIf (.call sc far) (fun c => c.seq.calls.length < callDepth sc ∧ goesTo c far.toInt k)
      (fun c => .jump (c.pre.modSeq c.p fun q => { q with calls := ⟨nextPc c.pkt c.last, none, 0, []⟩ :: q.calls })
        (mkPc k 0)) ∧
    RaisesIf (.call sc far) (fun c => callDepth sc ≤ c.seq.calls.length) (fun _ => { cls := 0x05 }) ∧
    RaisesIf (.callFrame sc lvl far) (fun c => callDepth sc ≤ c.seq.calls.length) (fun _ => { cls := 0x05 }) ∧
    callDepth .team = 16 ∧ callDepth .block = 8 ∧ callDepth .cluster = 4 ∧ callDepth .grid = 4 ∧
    ExecutesIf (.ret sc) (fun c => c.seq.calls = x :: calls ∧ x.frame = none ∧
        (c.sc = .grid ∨ c.tok.close ≠ c.pre.pcOf c.p))
      (fun c => .jump (withCalls c c.pre calls) x.ret) ∧
    RaisesIf (.ret sc) (fun c => c.seq.calls = []) (fun _ => { cls := 0x06 })

/-- R118, R119, R168, R175, R177 to R180: a CALL that opens a frame, the RET that closes it, FRDEF and FRFENCE. -/
def Obligations.FrameMembers : Prop :=
  ∀ (sc : Scope) (lvl : BitVec 2) (far : BitVec 18) (half : BitVec 1) (mask : BitVec 8) (modes : BitVec 24) (k n : Nat)
    (x : CallEnt) (calls : List CallEnt) (h : W32) (f : Frame) (t : State),
    ExecutesIf (.callFrame sc lvl far)
      (fun c => c.seq.calls.length < callDepth sc ∧ c.lex (lvl.toNat - 1) ≠ noFrame ∧ c.freeCell = some n ∧
        goesTo c far.toInt k)
      (fun c =>
        let s := (c.refFrame c.pre (c.lex (lvl.toNat - 1)) (· + 1)).modCtx c.ctx fun x => { x with frserial := x.frserial + 1 }
        let f := Frame.fresh (((mget c.pre.ctxs c.ctx).map (·.frserial)).getD 0) lvl.toNat (c.lex (lvl.toNat - 1)) sc
          (if sc = .team then c.t else 0)
        let s := { s with frames := mset s.frames (fKey c.g c.store.1 c.store.2.1 n) f }
        .jump (s.modSeq c.p fun q => { q with
          calls := ⟨nextPc c.pkt c.last, some (mkHandle c.store.1 n), lvl.toNat, q.disp.drop lvl.toNat⟩ :: q.calls
          disp := q.disp.take lvl.toNat ++ [some (mkHandle c.store.1 n)] ++
            (List.range (3 - lvl.toNat)).map fun _ => some noFrame }) (mkPc k 0)) ∧
    RaisesIf (.callFrame sc lvl far) (fun c => callDepth sc ≤ c.seq.calls.length) (fun _ => { cls := 0x05 }) ∧
    RaisesIf (.callFrame sc lvl far)
      (fun c => c.seq.calls.length < callDepth sc ∧ c.lex (lvl.toNat - 1) ≠ noFrame ∧ c.freeCell = none)
      (fun _ => { cls := 0x31 }) ∧
    ExecutesIf (.ret sc) (fun c => c.seq.calls = x :: calls ∧ x.frame = some h ∧
        (c.sc = .grid ∨ c.tok.close ≠ c.pre.pcOf c.p) ∧ c.slotsQueued h = false ∧ returnFrame c c.pre h = .retired t)
      (fun c => .jump (t.modSeq c.p fun q => { q with disp := q.disp.take x.lvl ++ x.saved, calls := calls }) x.ret) ∧
    (∀ c : Cx, mget c.pre.frames (c.frameKey h) = some f → (∀ q, c.pre.seqOf c.p = some q → q.pend = []) →
      c.pre.undoOn c.ctx = false → f.refcount = 0 → f.oscope = .team →
      returnFrame c c.pre h = .retired { c.pre with
        frames := mdel (mmod (mmod c.pre.frames (c.frameKey h) fun f => { f with state := 1 }) (c.frameKey f.parent)
          fun p => { p with refcount := p.refcount - 1 }) (c.frameKey h)
        poison := c.pre.poison.filter fun n => !(cellHealed (c.frameKey h) n) }) ∧
    ExecutesIf (.frdef sc lvl half mask modes)
      (fun c => c.frameAt lvl.toNat = some (h, f) ∧ ownsFrame c.p f = true ∧ f.sealed = false ∧ f.refcount = 0)
      (fun c => .ok { c.pre with frames := mmod c.pre.frames (c.frameKey h) fun f =>
        { f with modes := setModes half mask modes f.modes } }) ∧
    RaisesIf (.frdef sc lvl half mask modes)
      (fun c => c.frameAt lvl.toNat = some (h, f) ∧ (ownsFrame c.p f = false ∨ f.sealed = true ∨ f.refcount ≠ 0))
      (fun _ => { cls := 0x30 }) ∧
    ExecutesIf (.frfence sc lvl) (fun c => c.frameAt lvl.toNat = some (h, f) ∧ ownsFrame c.p f = true)
      (fun c => .ok c.pre) ∧
    ExecutesIf (.frfence sc lvl)
      (fun c => c.frameAt lvl.toNat = some (h, f) ∧ ownsFrame c.p f = false ∧ c.seq.pend = [])
      (fun c => .ok (c.pre.modSeq c.p fun q => { q with views := mset q.views f.serial.toNat f.slots }))

/-- R63, R82, R219, R245, R269: members whose effect is none, or only that earlier accesses have been performed; EXIT ends
the running lane group; RCFENCE forgets the shape records that the team's core has kept for its grid. It rests on readings
of the model's own (log entry 34). -/
def Obligations.QuietMembers : Prop :=
  ∀ (base : BitVec 5) (idx : Operand) (sz : Size) (scale : Bool) (x : MemExt) (kind : BitVec 2) (ms : MScope),
    Executes .nop (fun c => .ok c.pre) ∧
    Executes (.pref base idx sz scale) (fun c => .ok c.pre) ∧
    Executes (.prefExt base idx sz scale x) (fun c => .ok c.pre) ∧
    Executes .exit (fun c => .gone c.pre) ∧
    Executes .rcfence (fun c => .ok { c.pre with
      rcache := c.pre.rcache.filter fun e => !decide (e.core = c.core ∧ e.grid = c.g) }) ∧
    ExecutesIf (.fence kind ms) (fun c => kind = 2 ∨ (c.tm.loads = [] ∧ (kind = 0 → c.tm.storeQ = [])))
      (fun c => .ok c.pre) ∧
    WaitsIf (.fence kind ms) (fun c => kind ≠ 2 ∧ (c.tm.loads ≠ [] ∨ (kind = 0 ∧ c.tm.storeQ ≠ [])))
      (fun _ => .notReady 13)

/-! ### System members -/

/-- R285, R286, R291, R292: TRAP and BRK complete: their chain commits, its party's position moves past it, and the party stops
there with a record that names the PC after the chain. -/
def Obligations.Traps : Prop :=
  ∀ (code : BitVec 8) (s : State) (p : Party) (c : Cx),
    (ready s p (.trap code) = some c → exec (.trap code) s = .next (takeFault (movedOn c (.trap code)) c.p
      { cls := 0x50, addr := code.setWidth 64, slot := c.slot, scope := (memberScope c.sc (.trap code) { cls := 0x50 }).scope
        pc := some (nextPc c.pkt c.last), kind := .goOn })) ∧
    (ready s p (.brk code) = some c → exec (.brk code) s = .next (takeFault (movedOn c (.brk code)) c.p
      { cls := 0x51, cause := 0, addr := code.setWidth 64, slot := c.slot
        scope := (memberScope c.sc (.brk code) { cls := 0x51 }).scope, pc := some (nextPc c.pkt c.last), kind := .goOn }))

/-- R287, R288: CSRR reads the control and status registers by number and no other; CSRW writes fpc, and nothing else. -/
def Obligations.ControlRegisters : Prop :=
  ∀ (d a : Operand) (n : BitVec 12),
    ExecutesScalar (.csrr d 0x001) d (fun c => c.tm.fpc.setWidth 64) ∧
    ExecutesScalar (.csrr d 0x002) d (fun c => BitVec.ofNat 64 c.tm.hsp) ∧
    ExecutesScalar (.csrr d 0x010) d (fun c => BitVec.ofNat 64 c.gr.lrec.nbar) ∧
    ExecutesScalar (.csrr d 0x011) d (fun c => BitVec.ofNat 64 c.gr.depth) ∧
    ExecutesScalar (.csrr d 0x012) d (fun c => BitVec.ofNat 64 c.gr.prio) ∧
    (∀ x : Ctx, ExecutesIf (.csrr d 0x013) (fun c => mget c.pre.ctxs c.ctx = some x ∧ takes c d
        (BitVec.ofNat 64 ((if x.undo then 1 else 0) + (if x.record then 2 else 0) + if x.conf then 4 else 0)))
      (scalarTo d fun _ => BitVec.ofNat 64 ((if x.undo then 1 else 0) + (if x.record then 2 else 0) + if x.conf then 4 else 0))) ∧
    ExecutesScalar (.csrr d 0x014) d (fun c => BitVec.ofNat 64
      ((c.pre.grids.map (·.2) ++ c.pre.images.filterMap (·.2.grid)).filter fun x =>
        decide (x.launcher = .parent c.g ∧ x.status ≠ .retained)).length) ∧
    ExecutesScalar (.csrr d 0x015) d (fun c => c.gr.msgdrop) ∧
    ExecutesScalar (.csrr d 0x020) d (fun c => (c.lex 0).setWidth 64) ∧
    ExecutesScalar (.csrr d 0x021) d (fun c => (c.lex 1).setWidth 64) ∧
    ExecutesScalar (.csrr d 0x022) d (fun c => (c.lex 2).setWidth 64) ∧
    ExecutesScalar (.csrr d 0x023) d (fun c => (c.lex 3).setWidth 64) ∧
    (n.toNat ∉ [0x001, 0x002, 0x010, 0x011, 0x012, 0x013, 0x014, 0x015, 0x020, 0x021, 0x022, 0x023] →
      RaisesIf (.csrr d n) (fun _ => True) (fun _ => { cls := 0x02 })) ∧
    ExecutesIf (.csrw a 1) (fun c => ((c.rdS a).setWidth 32 : W32).toNat < 2 ^ 9)
      (fun c => .ok (c.onTeam c.pre fun t => { t with fpc := (c.rdS a).setWidth 32 })) ∧
    RaisesIf (.csrw a n) (fun c => n ≠ 1 ∨ 2 ^ 9 ≤ ((c.rdS a).setWidth 32 : W32).toNat) (fun _ => { cls := 0x02 })

/-- R328, R333, R344, R347: CLKR reads the core's Lamport clock or the clock count, PCNT a counter of the core, each as it
stands where the context records nothing; MARK adds a marker to the trace buffer. -/
def Obligations.ClocksAndMarks : Prop :=
  ∀ (d a : Operand) (sel : BitVec 2) (n : BitVec 8) (tag : BitVec 16) (b : Blk),
    ExecutesIf (.clkr d 0) (fun c => c.pre.recordOn c.ctx = false ∧ takes c d (c.pre.clock c.core))
      (scalarTo d fun c => c.pre.clock c.core) ∧
    ExecutesIf (.clkr d sel) (fun c => sel ≠ 0 ∧ c.pre.recordOn c.ctx = false ∧ takes c d (BitVec.ofNat 64 c.pre.clk))
      (scalarTo d fun c => BitVec.ofNat 64 c.pre.clk) ∧
    ExecutesIf (.pcnt d n) (fun c => n.toNat < 16 ∧ c.pre.block c.g c.b = some b ∧ c.pre.recordOn c.ctx = false ∧
        takes c d (BitVec.ofNat 64 ((mget b.stall n.toNat).getD 0)))
      (scalarTo d fun _ => BitVec.ofNat 64 ((mget b.stall n.toNat).getD 0)) ∧
    ExecutesIf (.pcnt d n) (fun c => 16 ≤ n.toNat ∧ n.toNat ≤ 0x18 ∧ c.pre.recordOn c.ctx = false ∧
        takes c d (BitVec.ofNat 64 ((mget c.gr.counters (c.core * 256 + n.toNat)).getD 0)))
      (scalarTo d fun c => BitVec.ofNat 64 ((mget c.gr.counters (c.core * 256 + n.toNat)).getD 0)) ∧
    RaisesIf (.pcnt d n) (fun _ => 0x18 < n.toNat) (fun _ => { cls := 0x02 }) ∧
    Executes (.mark a tag) (fun c => .ok ((c.pre.bump c.core).trace c.ctx 2
      (tracePrefix (c.pre.clock c.core + 1) c.gr.csn c.gr.queue c.core ++ (natBytes 4 (mkPc c.pkt c.slot).toNat ++
        natBytes 4 c.b ++ natBytes 2 c.t ++ natBytes 6 tag.toNat ++ natBytes 8 (c.rdS a).toNat))))

/-- R271 to R273, R276: BAR and its arriving form join a barrier of their block; the phase completes when all that are
counted have arrived; a sync form waits for it, its chain committing when the phase is over; an arrival that does not fit
raises 0x40. -/
def Obligations.Barriers : Prop :=
  ∀ (k : BitVec 7) (cnt : BitVec 5) (x : Blk) (s : State) (g b n : Nat),
    ExecutesIf (.barArr k cnt) (fun c => c.pre.block c.g c.b = some x ∧ ¬barBegun c ∧ barAccepts c x k.toNat cnt.toNat)
      (fun c => .ok (barJoined c k.toNat cnt.toNat)) ∧
    ExecutesIf (.bar k cnt) (fun c => c.pre.block c.g c.b = some x ∧ ¬barBegun c ∧ barAccepts c x k.toNat cnt.toNat ∧
        phaseMoved c x k.toNat (barJoined c k.toNat cnt.toNat) = true)
      (fun c => .ok (barJoined c k.toNat cnt.toNat)) ∧
    ExecutesIf (.bar k cnt) (fun c => c.pre.block c.g c.b = some x ∧ ¬barBegun c ∧ barAccepts c x k.toNat cnt.toNat ∧
        phaseMoved c x k.toNat (barJoined c k.toNat cnt.toNat) = false)
      (fun c => .await (barJoined c k.toNat cnt.toNat) (.bar k.toNat (barOf x k.toNat).phase c.slot)) ∧
    (∀ (k' ph m : Nat), ExecutesIf (.bar k cnt) (fun c => c.pre.block c.g c.b = some x ∧ c.seq.began = some (.bar k' ph m) ∧
        (barOf x k').phase ≠ ph) (fun c => .ok c.pre) ∧
      ExecutesIf (.bar k cnt) (fun c => c.pre.block c.g c.b = some x ∧ c.seq.began = some (.bar k' ph m) ∧
        (barOf x k').phase = ph) (fun c => .await c.pre (.bar k' ph m))) ∧
    (∀ i ∈ [Instr.bar k cnt, Instr.barArr k cnt],
      RaisesIf i (fun c => c.pre.block c.g c.b = some x ∧ ¬barBegun c ∧ c.gr.lrec.nbar ≤ k.toNat)
        (fun _ => { cls := 0x40, cause := 0 }) ∧
      RaisesIf i (fun c => c.pre.block c.g c.b = some x ∧ ¬barBegun c ∧ k.toNat < c.gr.lrec.nbar ∧
          (barOf x k.toNat).arrived ≠ [] ∧ (barOf x k.toNat).count ≠ cnt.toNat)
        (fun _ => { cls := 0x40, cause := 1 }) ∧
      RaisesIf i (fun c => c.pre.block c.g c.b = some x ∧ ¬barBegun c ∧ k.toNat < c.gr.lrec.nbar ∧
          (barOf x k.toNat).count = cnt.toNat ∧ c.t ∈ (barOf x k.toNat).arrived)
        (fun _ => { cls := 0x40, cause := 2 }) ∧
      RaisesIf i (fun c => c.pre.block c.g c.b = some x ∧ ¬barBegun c ∧ k.toNat < c.gr.lrec.nbar ∧
          ((barOf x k.toNat).arrived = [] ∨ (barOf x k.toNat).count = cnt.toNat) ∧ c.t ∉ (barOf x k.toNat).arrived ∧
          c.tm.detached = true ∧ cnt = 0)
        (fun _ => { cls := 0x40, cause := 3 })) ∧
    (s.block g b = some x → (barOf x n).arrived ≠ [] →
      ((barOf x n).count = 0 → ∀ t ∈ launchedOf s g b, t ∈ (barOf x n).arrived) →
      ((barOf x n).count ≠ 0 → (barOf x n).count ≤ (barOf x n).arrived.length) →
      ∃ y, (barSettle s g b n).block g b = some y ∧ barOf y n = ⟨(barOf x n).phase + 1, 0, []⟩)

/-- R132 to R134: PUSHM puts its registers' writes to the team's spill area into the store queue and raises hsp, POPM reads
them back through that queue and lowers it; a push that does not fit raises 0x31, a pop of more than was pushed 0x06, a pop
of a poisoned byte 0x16. It rests on readings of the model's own (log entry 8). -/
def Obligations.SpillStack : Prop :=
  ∀ (first : Operand) (cnt1 : BitVec 7) (size : Cx → Bool → Nat),
    (size = fun c v => stkSize v (cnt1.toNat + 1) c.tm.nlane) →
    ExecutesIf (.pushm first cnt1)
      (fun c => c.tm.hsp + size c (opIsV first) ≤ 64 * c.tm.nlane ∧ c.pre.recordOn c.ctx = false)
      (fun c => .ok (c.onTeam c.pre fun x => { x with
        hsp := x.hsp + size c (opIsV first)
        storeQ := x.storeQ ++ c.spillEnts c.tm.hsp (c.pushList first (cnt1.toNat + 1)) })) ∧
    ExecutesIf (.pushm first cnt1)
      (fun c => c.tm.hsp + size c (opIsV first) ≤ 64 * c.tm.nlane ∧ c.pre.recordOn c.ctx = true)
      (fun c => .ok ((c.spillEnts c.tm.hsp (c.pushList first (cnt1.toNat + 1))).foldl
        (fun s e => foldHash s c.ctx c.g c.b c.t e.va e.bytes)
        (c.onTeam c.pre fun x => { x with
          hsp := x.hsp + size c (opIsV first)
          storeQ := x.storeQ ++ c.spillEnts c.tm.hsp (c.pushList first (cnt1.toNat + 1)) }))) ∧
    RaisesIf (.pushm first cnt1) (fun c => 64 * c.tm.nlane < c.tm.hsp + size c (opIsV first)) (fun _ => { cls := 0x31 }) ∧
    (∀ f : BitVec 5, ExecutesIf (.popm (.s f) cnt1)
      (fun c => size c false ≤ c.tm.hsp ∧ c.spillBad (c.tm.hsp - size c false) (size c false) = false)
      (fun c => .ok (c.onTeam c.pre fun x => (List.range (cnt1.toNat + 1)).foldl (fun x i =>
        x.setS (f.toNat + i) (BitVec.ofNat 64 (spillWord c (c.tm.hsp - size c false + 8 * i) 8)))
        { x with hsp := c.tm.hsp - size c false }))) ∧
    (∀ f : BitVec 7, ExecutesIf (.popm (.v f) cnt1)
      (fun c => size c true ≤ c.tm.hsp ∧ c.spillBad (c.tm.hsp - size c true) (size c true) = false)
      (fun c => .ok (c.onTeam c.pre fun x => (List.range (cnt1.toNat + 1)).foldl (fun x i =>
        (List.range c.tm.nlane).foldl (fun x l => x.setV (f.toNat + i) l
          (BitVec.ofNat 32 (spillWord c (c.tm.hsp - size c true + 4 * (i * c.tm.nlane + l)) 4))) x)
        { x with hsp := c.tm.hsp - size c true }))) ∧
    RaisesIf (.popm first cnt1) (fun c => c.tm.hsp < size c (opIsV first)) (fun _ => { cls := 0x06 }) ∧
    RaisesIf (.popm first cnt1)
      (fun c => size c (opIsV first) ≤ c.tm.hsp ∧ c.spillBad (c.tm.hsp - size c (opIsV first)) (size c (opIsV first)) = true)
      (fun _ => { cls := 0x16 })

/-- R220, R278, R279, R285, R322: WAITF waits for the copies that its flags count; WAITM waits until a word in memory
meets its condition; SWI stores its payload and raises a vector; WMARK opens a window of the undo log, and has a team's
store hash checked. It rests on readings of the model's own (log entries 12, 35). -/
def Obligations.WaitsAndMarkers : Prop :=
  ∀ (mask : BitVec 12) (a : Operand) (base : BitVec 5) (idx : Operand) (sz : Size) (scale : Bool) (x : MemExt)
    (cond : BitVec 3) (vec : BitVec 11) (sc : Scope) (tag : BitVec 16) (segs : List (Nat × Nat)) (tier : Nat)
    (bs : List Bind) (t : State) (i : Nat),
    ExecutesIf (.waitf mask)
      (fun c => ∀ j < 12, mask.getLsbD j = true → (c.tm.flags[j]?.getD ⟨0, []⟩) = ⟨0, []⟩) (fun c => .ok c.pre) ∧
    WaitsIf (.waitf mask) (fun c => i < 12 ∧ mask.getLsbD i = true ∧ (c.tm.flags[i]?.getD ⟨0, []⟩).count ≠ 0)
      (fun _ => .flags mask) ∧
    ExecutesIf (.waitm a base idx sz scale x cond)
      (fun c => passesAt c .load sz.bytes (c.rdS (.s base)) sz.bytes segs tier bs ∧
        c.loadWaits [teamAcc (c.rdS (.s base)) segs tier] = false ∧
        c.laneBad (teamAcc (c.rdS (.s base)) segs tier) = false ∧
        waitCond cond.toNat sz.bytes (bytesNat (fwdBytes c.pre.mem c.tm.storeQ segs))
          ((c.rdS a).toNat % 2 ^ (8 * sz.bytes)) = true)
      (fun c => .ok (hearSignal (turnAll (c.countUses (bindAll c.pre bs) [teamAcc (c.rdS (.s base)) segs tier]) c.ctx 2
        (granules [teamAcc (c.rdS (.s base)) segs tier] sz.bytes) c.req) c.core (keyAt segs 0))) ∧
    (∀ (s : State) (p : Party) (c : Cx), ready s p (.waitm a base idx sz scale x cond) = some c →
      passesAt c .load sz.bytes (c.rdS (.s base)) sz.bytes segs tier bs →
      c.loadWaits [teamAcc (c.rdS (.s base)) segs tier] = false →
      c.laneBad (teamAcc (c.rdS (.s base)) segs tier) = false →
      waitCond cond.toNat sz.bytes (bytesNat (fwdBytes c.pre.mem c.tm.storeQ segs))
          ((c.rdS a).toNat % 2 ^ (8 * sz.bytes)) = false →
      exec (.waitm a base idx sz scale x cond) s = .next (holdParty { bindAll c.pre bs with
        poked := sdel1 c.pre.poked (tKey c.g c.b c.t) } c.p (.mem (c.rdS (.s base)) sz.bytes
        (BitVec.ofNat 64 ((c.rdS a).toNat % 2 ^ (8 * sz.bytes))) cond (keyAt segs 0 / 64) (c.pre.clk + 4096)))) ∧
    ExecutesIf (.swi a vec)
      (fun c => vec.toNat < vecCount c.fn ∧ c.drained = true ∧
        irreversible c.pre c.g c.ctx c.engine 5 (BitVec.ofNat 64 vec.toNat) (natBytes 8 (c.rdS a).toNat) = some t)
      (fun c =>
        let m : Mailbox := ⟨c.rdS a, ((mget t.mailboxes (vecKey c.fn vec.toNat)).getD ⟨0, 0⟩).count + 1⟩
        .ok (({ t with mailboxes := mset t.mailboxes (vecKey c.fn vec.toNat) m } : State).raise c.fn vec.toNat)) ∧
    RaisesIf (.swi a vec) (fun c => vecCount c.fn ≤ vec.toNat) (fun _ => { cls := 0x02 }) ∧
    ExecutesIf (.wmark sc tag) (fun c => c.pre.undoOn c.ctx = false ∧ c.sc ≠ .team) (fun c => .ok c.pre) ∧
    ExecutesIf (.wmark sc tag) (fun c => c.pre.undoOn c.ctx = false ∧ c.sc = .team ∧
        hashCheck c.pre c.ctx c.g c.b c.t = .inr t)
      (fun _ => .ok t) ∧
    ExecutesIf (.wmark sc tag) (fun c => c.pre.undoOn c.ctx = true ∧ sc ≠ .team ∧ c.sc ≠ .team ∧ canOpen c.pre c.ctx sc = true)
      (fun c => .mark c.pre sc tag) ∧
    ExecutesIf (.wmark .team tag) (fun c => c.pre.undoOn c.ctx = true ∧ c.tm.storeQ = [] ∧ canOpen c.pre c.ctx .team = true ∧
        c.sc = .team ∧ hashCheck c.pre c.ctx c.g c.b c.t = .inr t)
      (fun _ => .mark t .team tag)

/-- R283, R284: LAUNCH reads its record, its parameters where its second register is not zero, and checks the signal word
where the third is not zero; then it registers the launch and waits until it is judged. Issued again after that it writes the
status and is done. A grid at depth 10 launches nothing. -/
def Obligations.GridLaunchMember : Prop :=
  ∀ (d r p sg : BitVec 5) (segs segs2 : List (Nat × Nat)) (tier tier2 : Nat) (bs bs2 bs3 : List Bind)
    (params : List W64) (n : Nat) (status : W64),
    ExecutesIf (.launch d r p sg)
      (fun c => c.seq.began = none ∧ c.gr.depth < 10 ∧
        passesAt c .load 64 (c.rdS (.s r)) 320 segs tier bs ∧ c.loadWaits [teamAcc (c.rdS (.s r)) segs tier] = false ∧
        c.laneBad (teamAcc (c.rdS (.s r)) segs tier) = false ∧
        (c.rdS (.s p) = 0 → params = [] ∧ bs2 = []) ∧
        (c.rdS (.s p) ≠ 0 → passesAt c .load 8 (c.rdS (.s p)) 128 segs2 tier2 bs2 ∧
          c.laneBad (teamAcc (c.rdS (.s p)) segs2 tier2) = false ∧
          params = (List.range 16).map fun i =>
            BitVec.ofNat 64 (bytesNat (((fwdBytes c.pre.mem c.tm.storeQ segs2).drop (8 * i)).take 8))) ∧
        (c.rdS (.s sg) = 0 → bs3 = []) ∧
        (c.rdS (.s sg) ≠ 0 → ∃ a b, passesAt c .rmw 8 (c.rdS (.s sg)) 8 a b bs3) ∧ c.drained = true)
      (fun c =>
        let s := bindAll c.pre (bs ++ bs2 ++ bs3)
        let pl : PLaunch :=
          { launcher := .parent c.g, party := some c.p, part := c.gr.part, space := c.gr.space, queue := c.gr.queue
            csn := c.gr.csn, prio := c.gr.prio, depth := c.gr.depth + 1, recAt := c.rdS (.s r)
            raw := some (fwdBytes c.pre.mem c.tm.storeQ segs), params := params, ctxAt := 0, ctx := some c.ctx
            sig := c.rdS (.s sg), dreg := d.toNat }
        .await { s with nextId := s.nextId + 1, launches := mset s.launches s.nextId pl } (.launch s.nextId d.toNat)) ∧
    ExecutesIf (.launch d r p sg) (fun c => c.seq.began = some (.launched n status))
      (fun c => .ok (c.onTeam c.pre fun t => t.setS n status)) ∧
    RaisesIf (.launch d r p sg) (fun c => c.seq.began = none ∧ 10 ≤ c.gr.depth)
      (fun _ => { cls := 0x41 })

/-! ### Memory -/

/-- R235 to R239, R241, R242, R254, R300: a lane load whose lanes all pass lands in its registers lane by lane, or all of it at
once when the data returns from the host or a peer: each register takes its element's bytes, the low or high half of one of 8
bytes, zero- or sign-extended, as the team's own queued stores have left them, and a tag where memory has them poisoned; an
acquire finds no poison; the first lane whose address is not aligned raises 0x15 and names itself, the lanes before it having
passed. It rests on readings of the model's own (log entries 36, 40). -/
def Obligations.LaneLoads : Prop :=
  ∀ (d : Operand) (base : BitVec 5) (idx : Operand) (sz : Size) (scale sx : Bool) (x : MemExt) (n1 : BitVec 3)
    (xs : List LaneAcc) (tags : State) (l : Nat) (us ls : List Nat),
    (∀ e ∈ [(Instr.ld d base idx sz scale, 1, false, MemExt.plain), (.ldExt d base idx sz scale x sx, 1, sx, x),
      (.ldstr d base idx sz scale x n1, n1.toNat + 1, false, x)],
      ExecutesIf e.1
        (fun c => lanesPass c .load sz.bytes (e.2.1 * sz.bytes) (c.laneList base idx sz scale) xs tags ∧
          c.loadWaits xs = false ∧ (e.2.2.2.order = .acquire → ∀ y ∈ xs, c.laneBad y = false))
        (fun c => .ok (c.landLanes (loaded c tags xs d e.2.2.2 (e.2.1 * sz.bytes)) d e.2.2.1 e.2.2.2 (e.2.1 * sz.bytes)
          (regPieces sz e.2.1) xs)) ∧
      (∀ c t n, xs.any (·.far) = false ∨ e.2.2.2.order = .acquire →
        Cx.landLanes c t d e.2.2.1 e.2.2.2 n (regPieces sz e.2.1) xs =
          xs.foldl (fun s y => c.landLane s d e.2.2.1 (regPieces sz e.2.1) y) t) ∧
      (∀ c t n (r : BitVec 7), d = .v r → xs.any (·.far) = true → e.2.2.2.order ≠ .acquire →
        Cx.landLanes c t d e.2.2.1 e.2.2.2 n (regPieces sz e.2.1) xs =
          c.onTeam t fun y => { y with loads := y.loads ++ [⟨false, e.2.2.1, xs.length, xs.flatMap fun a =>
            (regPieces sz e.2.1).map fun k => ⟨vKey (r.toNat + k.1) a.lane, keyAt a.segs k.2.1, a.va, k.2.2⟩,
            granules xs n, mkPc c.pkt c.slot⟩] }) ∧
      WaitsIf e.1
        (fun c => lanesPass c .load sz.bytes (e.2.1 * sz.bytes) (c.laneList base idx sz scale) xs tags ∧
          c.loadWaits xs = true) (fun _ => .notReady 13) ∧
      (∀ (s : State) (p : Party) (c : Cx) (t : State), ready s p e.1 = some c →
        noneParked c .load sz.bytes (e.2.1 * sz.bytes) (c.laneList base idx sz scale) → c.todo = us ++ l :: ls →
        c.checkLanes .load sz.bytes (e.2.1 * sz.bytes) (us.map fun u => (u, c.laneAddr base idx sz scale u)) c.pre = (xs, none, t) →
        (c.laneAddr base idx sz scale l).toNat % sz.bytes ≠ 0 →
        failedByte c.seq.wait (c.laneAddr base idx sz scale l).toNat (e.2.1 * sz.bytes) = none →
        c.loadWaits xs = false → (e.2.2.2.order = .acquire → ∀ y ∈ xs, c.laneBad y = false) →
        exec e.1 s = .next (takeFault (if us = [] then c.pre else
            c.landLanes (loadedOn c t xs d e.2.2.2 (e.2.1 * sz.bytes)) d e.2.2.1 e.2.2.2 (e.2.1 * sz.bytes) (regPieces sz e.2.1) xs) c.p
          (memberScope c.sc e.1 { cls := 0x15, addr := c.laneAddr base idx sz scale l, lane := some l
                                  mask := fromLane c.todo l, slot := c.slot })))) ∧
    -- what a lane's registers take
    (∀ (c : Cx) (t : State) (r : BitVec 7) (y : LaneAcc) (n : Nat), t.team c.g c.b c.t = some c.tm → sz ≠ .d → n ≤ 8 →
      ∃ z, (c.landLane t (.v r) sx (regPieces sz n) y).team c.g c.b c.t = some z ∧
        (∀ i < n, zget z.v (vKey (r.toNat + i) y.lane) = (extend sx sz.bytes (bytesNat ((List.range sz.bytes).map fun k =>
          fwdByte c.pre.mem c.tm.storeQ (keyAt y.segs (sz.bytes * i) + k)))).setWidth 32) ∧
        (∀ i < n, c.keysBad (keyAt y.segs (sz.bytes * i)) sz.bytes = true → mget z.vtag (vKey (r.toNat + i) y.lane) = some y.va) ∧
        ∀ k, (∀ i < n, k ≠ vKey (r.toNat + i) y.lane) → zget z.v k = zget c.tm.v k ∧ mget z.vtag k = mget c.tm.vtag k) ∧
    (∀ (c : Cx) (t : State) (r : BitVec 7) (y : LaneAcc) (n : Nat), t.team c.g c.b c.t = some c.tm → n ≤ 8 →
      ∃ z, (c.landLane t (.v r) sx (regPieces .d n) y).team c.g c.b c.t = some z ∧
        (∀ i < 2 * n, zget z.v (vKey (r.toNat + i) y.lane) = BitVec.ofNat 32 (bytesNat ((List.range 4).map fun k =>
          fwdByte c.pre.mem c.tm.storeQ (keyAt y.segs (4 * i) + k)))) ∧
        ∀ k, (∀ i < 2 * n, k ≠ vKey (r.toNat + i) y.lane) → zget z.v k = zget c.tm.v k ∧ mget z.vtag k = mget c.tm.vtag k) ∧
    (∀ k, k ∈ [1, 2, 4] → ∀ w < 2 ^ (8 * k), ((extend false k w).setWidth 32).toNat = w ∧
      ((extend true k w).setWidth 32 : W32) = BitVec.ofInt 32 (if w < 2 ^ (8 * k - 1) then (w : Int) else w - 2 ^ (8 * k)))

/-- R239, R242, R243, R253: a lane store whose lanes all pass puts its bytes into the team's store queue in lane order,
CPST only those of the lanes whose predicate is true, at their ranks; a scope predicate in its selector raises 0x02. It rests on a reading of the model's own (log entry 36). -/
def Obligations.LaneStores : Prop :=
  ∀ (d : Operand) (base : BitVec 5) (idx : Operand) (sz : Size) (scale : Bool) (x : MemExt) (n1 : BitVec 3) (n : Fin 48)
    (q : BitVec 4) (xs : List LaneAcc) (tags : State),
    (∀ e ∈ [(Instr.st d base idx sz scale, 1, MemExt.plain), (.stExt d base idx sz scale x, 1, x),
      (.ststr d base idx sz scale x n1, n1.toNat + 1, x)],
      ExecutesIf e.1 (fun c => lanesPass c .store sz.bytes (e.2.1 * sz.bytes) (c.laneList base idx sz scale) xs tags)
        (fun c => .ok (c.enqueue (accessed c tags xs) e.2.2.ms (e.2.1 * sz.bytes)
          (xs.map fun a => (a, c.laneBytes d sz e.2.1 a.lane))))) ∧
    ExecutesIf (.cpst d base idx sz scale x (.p n))
      (fun c => lanesPass c .store sz.bytes (1 * sz.bytes) ((c.todo.filter fun l => decide (l ∈ c.lanes.filter (c.tm.pred n.val))).map
        fun l => (l, c.rdS (.s base) + BitVec.ofNat 64 (((c.lanes.filter (c.tm.pred n.val)).filter fun m => decide (m < l)).length
          * sz.bytes))) xs tags)
      (fun c => .ok (c.enqueue (accessed c tags xs) x.ms (1 * sz.bytes) (xs.map fun a => (a, c.laneBytes d sz 1 a.lane)))) ∧
    RefusesIf (.cpst d base idx sz scale x (.q q)) (fun _ => True) 0x02

/-- R241, R244, R300: LDS and STS move one value between a scalar and memory, PMOV a predicate's bits; a load from the host
or a peer is outstanding until its data returns; a scope predicate in PMOV's selector raises 0x02. It rests on a reading of the model's own (log entry 36). -/
def Obligations.TeamAccesses : Prop :=
  ∀ (d : Operand) (r base : BitVec 5) (idx : Operand) (sz : Size) (scale sx : Bool) (x : MemExt) (n : Fin 48)
    (segs : List (Nat × Nat)) (tier : Nat) (bs : List Bind),
    (∀ e ∈ [(Instr.lds (.s r) base idx sz scale, false, MemExt.plain), (.ldsExt (.s r) base idx sz scale x sx, sx, x)],
      ExecutesIf e.1
        (fun c => passesAt c .load sz.bytes (c.rdS (.s base)) sz.bytes segs tier bs ∧
          c.loadWaits [teamAcc (c.rdS (.s base)) segs tier] = false ∧
          c.laneBad (teamAcc (c.rdS (.s base)) segs tier) = false ∧ (tier < 2 ∨ tier = 9 ∨ e.2.2.order = .acquire))
        (fun c => .ok (c.onTeam (turnAll (c.countUses (c.tick (bindAll c.pre bs) 0x13 1)
          [teamAcc (c.rdS (.s base)) segs tier]) c.ctx 2 (granules [teamAcc (c.rdS (.s base)) segs tier] sz.bytes) c.req) fun t =>
            t.setS r.toNat (extend e.2.1 sz.bytes (bytesNat (fwdBytes c.pre.mem c.tm.storeQ segs))))) ∧
      ExecutesIf e.1
        (fun c => passesAt c .load sz.bytes (c.rdS (.s base)) sz.bytes segs tier bs ∧
          c.loadWaits [teamAcc (c.rdS (.s base)) segs tier] = false ∧ 2 ≤ tier ∧ tier ≠ 9 ∧ e.2.2.order ≠ .acquire)
        (fun c => .ok (c.onTeam (turnAll (c.countUses (c.tick (bindAll c.pre bs) 0x13 1)
          [teamAcc (c.rdS (.s base)) segs tier]) c.ctx 2 (granules [teamAcc (c.rdS (.s base)) segs tier] sz.bytes) c.req) fun t =>
            { t with loads := t.loads ++ [⟨true, e.2.1, 1, [⟨r.toNat, keyAt segs 0, c.rdS (.s base), sz.bytes⟩], [],
              mkPc c.pkt c.slot⟩] }))) ∧
    (∀ e ∈ [(Instr.sts d base idx sz scale, MemExt.plain), (.stsExt d base idx sz scale x, x)],
      ExecutesIf e.1 (fun c => passesAt c .store sz.bytes (c.rdS (.s base)) sz.bytes segs tier bs)
        (fun c => .ok (c.enqueue (c.tick (bindAll c.pre bs) 0x13 1) e.2.ms sz.bytes
          [(teamAcc (c.rdS (.s base)) segs tier, natBytes sz.bytes (c.rdS d).toNat)]))) ∧
    (∀ e ∈ [(Instr.pmov true (.p n) base, MemExt.plain), (.pmovExt true (.p n) base x, x)],
      ExecutesIf e.1 (fun c => passesAt c .store 4 (c.rdS (.s base)) (c.tm.nlane / 8) segs tier bs)
        (fun c => .ok (c.enqueue (c.tick (bindAll c.pre bs) 0x13 1) e.2.ms (c.tm.nlane / 8)
          [(teamAcc (c.rdS (.s base)) segs tier, predBytes c.tm n.val)]))) ∧
    (∀ i ∈ [Instr.pmov false (.p n) base, .pmovExt false (.p n) base x],
      ExecutesIf i
        (fun c => passesAt c .load 4 (c.rdS (.s base)) (c.tm.nlane / 8) segs tier bs ∧
          c.loadWaits [teamAcc (c.rdS (.s base)) segs tier] = false ∧
          c.laneBad (teamAcc (c.rdS (.s base)) segs tier) = false)
        (fun c => .ok (c.wrP (turnAll (c.countUses (c.tick (bindAll c.pre bs) 0x13 1)
          [teamAcc (c.rdS (.s base)) segs tier]) c.ctx 2
          (granules [teamAcc (c.rdS (.s base)) segs tier] (c.tm.nlane / 8)) c.req) n.val
            (c.lanes.map fun l => (l, ((fwdBytes c.pre.mem c.tm.storeQ segs)[l / 8]?.getD 0).getLsbD (l % 8)))))) ∧
    (∀ (dir : Bool) (q : BitVec 4), ∀ i ∈ [Instr.pmov dir (.q q) base, .pmovExt dir (.q q) base x],
      RefusesIf i (fun _ => True) 0x02)

/-- R250, R261 to R266: an atomic whose lanes all pass performs them in lane order and writes the words' old values; CAS
stores where the word equals its operand; ATOMS is one such operation for the team. One lane's operation on a word without
poison writes the new value of R261 and answers the old one, and a peer's word gets its operation at its home as well. It rests on readings of the model's own (log entries 32, 36). -/
def Obligations.Atomics : Prop :=
  ∀ (d : Operand) (base : BitVec 5) (idx : Operand) (sz : Size) (scale tag : Bool) (x : MemExt) (a k n : Operand)
    (op : BitVec 4) (r : BitVec 5) (xs : List LaneAcc) (tags : State) (segs : List (Nat × Nat)) (tier o : Nat)
    (bs : List Bind),
    (∀ e ∈ [(Instr.atom d base idx sz scale x tag a op, fun (c : Cx) l => Rmw.op op.toNat (c.rmwArg a sz l)),
        (.cas d base idx sz scale x tag k n, fun c l => .cas (c.rmwArg k sz l) (c.rmwArg n sz l))],
      ExecutesIf e.1
        (fun c => lanesPass c .rmw sz.bytes sz.bytes (c.laneList base idx sz scale) xs tags ∧
          (∀ y ∈ xs, y.tier = 2 → (e.2 c y.lane).hostOk = true) ∧ c.drained = true ∧
          (atomicEnd c tags xs sz.bytes tag (e.2 c)).bad = [] ∧ (atomicEnd c tags xs sz.bytes tag (e.2 c)).stall = none)
        (fun c =>
          let z := atomicEnd c tags xs sz.bytes tag (e.2 c)
          .ok (if sz = .d then c.wrD z.s d (z.olds.map fun e => (e.1, BitVec.ofNat 64 e.2))
            else c.wrL z.s d (z.olds.map fun e => (e.1, BitVec.ofNat 32 e.2))))) ∧
    ExecutesIf (.atoms (.s r) base idx sz scale x tag a op)
      (fun c => passesAt c .rmw sz.bytes (c.rdS (.s base)) sz.bytes segs tier bs ∧
        (tier = 2 → (teamRmw c (.s r) a sz op).hostOk = true) ∧ c.drained = true ∧
        (teamAtomicEnd c bs (teamAcc (c.rdS (.s base)) segs tier) sz.bytes tag (teamRmw c (.s r) a sz op)).bad = [] ∧
        (teamAtomicEnd c bs (teamAcc (c.rdS (.s base)) segs tier) sz.bytes tag (teamRmw c (.s r) a sz op)).stall = none ∧
        (teamAtomicEnd c bs (teamAcc (c.rdS (.s base)) segs tier) sz.bytes tag (teamRmw c (.s r) a sz op)).olds = [(0, o)])
      (fun c => .ok (c.onTeam
        (teamAtomicEnd c bs (teamAcc (c.rdS (.s base)) segs tier) sz.bytes tag (teamRmw c (.s r) a sz op)).s
        fun t => t.setS r.toNat (BitVec.ofNat 64 o))) ∧
    (∀ (c : Cx) (m : Nat) (f : Nat → Rmw) (z : RmwAcc) (y : LaneAcc) (v : Nat), z.stall = none → z.s.recordOn c.ctx = false →
      z.s.undoOn c.ctx = false → segsPoisoned z.s y.segs = false →
      (f y.lane).apply m (readNat z.s.mem (keyAt y.segs 0) m) = some v →
      c.rmwLane m false f z y = { z with
        s := putMem (countBank (peerAtomic z.s y.tier (keyAt y.segs 0) m (f y.lane)) c.ctx c.gr.part c.core y.va y.tier
          (keyAt y.segs 0)) (keyAt y.segs 0) (natBytes m v)
        olds := z.olds ++ [(y.lane, readNat z.s.mem (keyAt y.segs 0) m)] }) ∧
    (∀ (s : State) (key m : Nat) (f : Rmw), (∀ t < 3, peerAtomic s t key m f = s) ∧ peerAtomic s 9 key m f = s)

/-- R210, R253, R268: BOP puts one operation for each element into the team's store queue; a count of 0 does nothing, one
above 65,536 raises 0x02, a base outside the CSM window 0x18. -/
def Obligations.BankOperations : Prop :=
  ∀ (base : BitVec 5) (cnt a : Operand) (wide : Bool) (x : MemExt) (op : BitVec 4) (n k : Nat),
    n = (if wide then 8 else 4) →
    ExecutesIf (.bop base cnt a wide x op) (fun c => (c.rdS cnt).toNat = 0) (fun c => .ok c.pre) ∧
    ExecutesIf (.bop base cnt a wide x op)
      (fun c => (c.rdS cnt).toNat = k ∧ 0 < k ∧ k ≤ 65536 ∧ (c.rdS (.s base)).toNat % n = 0 ∧
        windowOf (c.rdS (.s base)).toNat = some .csm ∧ (c.rdS (.s base)).toNat % 2 ^ 52 + n * k ≤ c.gr.lrec.csm * 64 ∧
        c.pre.recordOn c.ctx = false)
      (fun c => .ok (c.onTeam c.pre fun t => { t with storeQ := t.storeQ ++ (List.range k).map fun e =>
        ⟨.bop op (BitVec.ofNat 64 ((c.rdS a).toNat % 2 ^ (8 * n))), c.rdS (.s base) + BitVec.ofNat 64 (e * n), 9,
          csmKey c.g ((c.rdS (.s base)).toNat % 2 ^ 52 + e * n), natBytes n 0, x.ms,
          [c.rdS (.s base) + BitVec.ofNat 64 (e * n)], mkPc c.pkt c.slot, []⟩ })) ∧
    RaisesIf (.bop base cnt a wide x op) (fun c => 65536 < (c.rdS cnt).toNat) (fun _ => { cls := 0x02 }) ∧
    RaisesIf (.bop base cnt a wide x op)
      (fun c => 0 < (c.rdS cnt).toNat ∧ (c.rdS cnt).toNat ≤ 65536 ∧ (c.rdS (.s base)).toNat % n = 0 ∧
        windowOf (c.rdS (.s base)).toNat ≠ some .csm)
      (fun c => { cls := 0x18, addr := c.rdS (.s base) })

/-! ### Copies, spawning, messages, matrices -/

/-- R203, R205, R206, R213, R215 to R218: COPY and COPYT register a copy where their flag and the range-lock tables have
room; their checks come first; a copy of nothing does nothing. It rests on readings of the model's own (log entries 46,
117). -/
def Obligations.CopyMembers : Prop :=
  ∀ (dst src rec : BitVec 5) (len : Operand) (flag : BitVec 4) (x : MemExt) (n : Nat) (bytes : List Byte) (sh : Shape)
    (da sa : Nat) (bd bs : Int × Int),
    ExecutesIf (.copy dst src len flag x) (fun c => (c.rdS len).toNat = 0) (fun c => .ok c.pre) ∧
    ExecutesIf (.copy dst src len flag x)
      (fun c => (c.rdS len).toNat = n ∧ 0 < n ∧ n < 2 ^ 32 ∧ (c.rdS (.s dst)).toNat % 4 = 0 ∧
        (c.rdS (.s src)).toNat % 4 = 0 ∧ n % 4 = 0 ∧
        windowFirstBad (c.gr.lrec.scratch * 128) (c.gr.lrec.csm * 64) (c.rdS (.s dst)).toNat n = none ∧
        windowFirstBad (c.gr.lrec.scratch * 128) (c.gr.lrec.csm * 64) (c.rdS (.s src)).toNat n = none ∧
        ((c.rdS (.s dst)).toNat + n ≤ (c.rdS (.s src)).toNat ∨ (c.rdS (.s src)).toNat + n ≤ (c.rdS (.s dst)).toNat) ∧
        copyFits c flag.toNat ((lockOf (spaceKey c.gr.part c.gr.space) (c.rdS (.s src)) n false ++
          lockOf (spaceKey c.gr.part c.gr.space) (c.rdS (.s dst)) n true).length) (decide (x.order = .release)))
      (fun c => .ok (c.register c.pre (c.newCopy (c.rdS (.s dst)) (c.rdS (.s src)) n none flag.toNat x.ms
        (lockOf (spaceKey c.gr.part c.gr.space) (c.rdS (.s src)) n false ++
          lockOf (spaceKey c.gr.part c.gr.space) (c.rdS (.s dst)) n true)) (BitVec.ofNat 64 n))) ∧
    RaisesIf (.copy dst src len flag x)
      (fun c => 0 < (c.rdS len).toNat ∧ (c.rdS len).toNat < 2 ^ 32 ∧ (c.rdS (.s dst)).toNat % 4 ≠ 0)
      (fun c => { cls := 0x15, addr := c.rdS (.s dst) }) ∧
    ExecutesIf (.copyt dst src rec flag x)
      (fun c => (c.rdS (.s rec)).toNat % 64 = 0 ∧
        c.pre.rcache.find? (fun e => decide (e.core = c.core ∧ e.grid = c.g ∧ e.va = c.rdS (.s rec))) =
          some ⟨c.core, c.g, c.rdS (.s rec), bytes⟩ ∧ parseShape (bytesNat bytes) = some sh ∧
        bounding sh.esize (dstDims sh) = some bd ∧ bounding sh.esize (srcDims sh) = some bs ∧
        (addOff (c.rdS (.s dst)) bd.1).toNat = da ∧ (addOff (c.rdS (.s src)) bs.1).toNat = sa ∧
        (c.rdS (.s dst)).toNat % sh.esize = 0 ∧ (c.rdS (.s src)).toNat % sh.esize = 0 ∧
        windowFirstBad (c.gr.lrec.scratch * 128) (c.gr.lrec.csm * 64) da (bd.2 - bd.1 + 1).toNat = none ∧
        windowFirstBad (c.gr.lrec.scratch * 128) (c.gr.lrec.csm * 64) sa (bs.2 - bs.1 + 1).toNat = none ∧
        rangesMeet da (bd.2 - bd.1 + 1).toNat sa (bs.2 - bs.1 + 1).toNat = false ∧
        copyFits c flag.toNat ((lockOf (spaceKey c.gr.part c.gr.space) (addOff (c.rdS (.s src)) bs.1) (bs.2 - bs.1 + 1).toNat false ++
          lockOf (spaceKey c.gr.part c.gr.space) (addOff (c.rdS (.s dst)) bd.1) (bd.2 - bd.1 + 1).toNat true).length)
          (decide (x.order = .release)))
      (fun c => .ok (c.register (cacheRecord c.pre c.core c.g (c.rdS (.s rec)) bytes)
        (c.newCopy (c.rdS (.s dst)) (c.rdS (.s src)) 0 (some sh) flag.toNat x.ms
          (lockOf (spaceKey c.gr.part c.gr.space) (addOff (c.rdS (.s src)) bs.1) (bs.2 - bs.1 + 1).toNat false ++
            lockOf (spaceKey c.gr.part c.gr.space) (addOff (c.rdS (.s dst)) bd.1) (bd.2 - bd.1 + 1).toNat true))
        (c.rdS (.s rec)))) ∧
    RaisesIf (.copyt dst src rec flag x) (fun c => (c.rdS (.s rec)).toNat % 64 ≠ 0)
      (fun c => { cls := 0x15, addr := c.rdS (.s rec) })

/-- R77 to R83, R280 to R282: SPAWN deposits one lane after another in bins of its core; AMSG sends one message for each
lane. An entry outside the packets that exist raises 0x02 in the first lane that names one. It rests on readings of the
model's own (log entries 42, 43, 45, 95). -/
def Obligations.SpawnsAndMessages : Prop :=
  ∀ (entry pay target : Operand) (n1 : BitVec 2) (size1 : BitVec 5) (timeout : BitVec 11) (t10 : BitVec 10) (x : MemExt)
    (t : State) (l : Nat) (ls : List Nat),
    ExecutesIf (.spawn entry pay n1 size1 timeout)
      (fun c => (∀ m ∈ c.lanes, c.entryOf entry m < 2 ^ 30) ∧ c.drained = true ∧ c.tm.resume = none ∧
        depositAll c.core (spawnList c entry pay n1 size1 timeout) c.pre = ([], t) ∧ t.scripted c.ctx = false)
      (fun c => .ok (turnAll t c.ctx 4 ((c.lanes.map fun m => binPoint (BitVec.ofNat 32 (c.entryOf entry m)) c.b).dedup) c.req)) ∧
    WaitsIf (.spawn entry pay n1 size1 timeout)
      (fun c => (∀ m ∈ c.lanes, c.entryOf entry m < 2 ^ 30) ∧ c.drained = false) (fun _ => .notReady 13) ∧
    RaisesIf (.spawn entry pay n1 size1 timeout) (fun c => c.lanes = l :: ls ∧ 2 ^ 30 ≤ c.entryOf entry l)
      (fun _ => { cls := 0x02, lane := some l }) ∧
    ExecutesIf (.amsg target entry pay x size1 t10 n1)
      (fun c => (∀ m ∈ c.lanes, c.msgBad (c.rdD target m) (c.entryOf entry m) x.ms = none) ∧
        (x.order = .release → c.drained = true) ∧
        c.lanes.foldl (fun o m => o.bind (c.sendMsg m (c.rdD target m) (c.entryOf entry m) (32 * (size1.toNat + 1))
          (binTimeout t10.toNat) (c.payload pay (n1.toNat + 1) m))) (some c.pre) = some t)
      (fun _ => .ok t) ∧
    (∀ f, RaisesIf (.amsg target entry pay x size1 t10 n1)
      (fun c => c.lanes = l :: ls ∧ c.msgBad (c.rdD target l) (c.entryOf entry l) x.ms = some f)
      (fun _ => { f with lane := some l }))

/-- R185, R186, R195, R199 to R201: a matrix member that passes its checks enters the queue of its block's matrix context with
the registers it captures; an ARD's registers wait for its tile operations. A slot of a wrong type raises 0x22, a tile that
the grid has not 0x21; a full queue makes the team wait. It rests on a reading of the model's own (log entry 115). -/
def Obligations.MatrixMembers : Prop :=
  ∀ (t n1 : BitVec 5) (fmt fa fb : BitVec 3) (a b m ga gb o : Operand) (cvt : BitVec 2) (cblk : BitVec 3) (k : BitVec 4)
    (r : BitVec 7) (x : Nat),
    (∀ i ∈ [Instr.mma t fmt a b, .mmaq t a b fa fb ga gb, .mmasp t fmt a b m, .aclr t n1, .awr t cvt cblk k (.v r)],
      ExecutesIf i (fun c => matAccepted c i x) (fun c => .ok (matQueued c i x 0)) ∧
      RaisesIf i (fun c => matSlotBad c.gr i = true) (fun _ => { cls := 0x22 }) ∧
      RaisesIf i (fun c => matSlotBad c.gr i = false ∧ matRangeBad c.gr i = false ∧
          c.gr.lrec.tiles ≤ matTile i + matCount c.tm.nlane i - 1)
        (fun c => { cls := 0x21, addr := BitVec.ofNat 64 (matTile i + matCount c.tm.nlane i - 1) }) ∧
      WaitsIf i (fun c => matSlotBad c.gr i = false ∧ matRangeBad c.gr i = false ∧
          matTile i + matCount c.tm.nlane i - 1 < c.gr.lrec.tiles ∧ c.matObstacle i = .ready ∧ c.metaBad i = none ∧
          (c.pre.block c.g c.b).bind (·.mctx) = some x ∧ 2 ≤ ((mget c.pre.matq (2 * c.core + x)).getD []).length)
        (fun _ => .notReady 11)) ∧
    ExecutesIf (.ascl t o) (fun c => matAccepted c (.ascl t o) x)
      (fun c => .ok (matQueued c (.ascl t o) x ((c.rdS o).setWidth 32))) ∧
    ExecutesIf (.ard t cvt cblk k (.v r)) (fun c => matAccepted c (.ard t cvt cblk k (.v r)) x)
      (fun c => .ok (c.onTeam (matQueued c (.ard t cvt cblk k (.v r)) x 0) fun y => { y with
        ardBusy := ((List.range (k.toNat + 1)).flatMap fun j => c.lanes.map fun l => vKey (r.toNat + j) l).foldl
          sadd1 y.ardBusy }))

/-! ### Events of the compute side -/

/-- R49, R50, R97, R101, R102, R175, R204, R231 to R233, R279: a fetch fills the instruction cache; a party without a
token takes the next one of its queue or of the grid's ring; the waits of parties end when what they wait on is there. It
rests on readings of the model's own (log entries 35, 48). -/
def Obligations.PartyEvents : Prop :=
  ∀ (s : State) (p : Party) (gr : Grid) (x : Team) (g b t : Nat) (pc : W32) (tk : Token) (rest : List Token) (v : Lvl)
    (h : W32) (f : Frame) (core n gran : Nat) (a w : W64) (cond : BitVec 3) (due : Nat) (ls : List Nat)
    (vas : List W64) (y : Blk) (segs : List (Nat × Nat)) (tier : Nat) (bs : List Bind),
    (s.grid p.gridNo = some gr → s.acts p = true → packetAddr gr (pcPkt (s.pcOf p)) + 12 ≤ 2 ^ 56 →
      xlRange s { originOf gr p.gridNo 0 (fetchEngine s p) with engine := fetchEngine s p } .fetch
        (packetAddr gr (pcPkt (s.pcOf p))) 12 = .ok segs tier bs →
      ∃ t, exec (.packetFetch p) s = .next t ∧ t.mem = s.mem ∧
        (⟨fetchEngine s p, gr.part, gr.space, packetAddr gr (pcPkt (s.pcOf p)), packetWords (readSegs s.mem segs)⟩ : ICacheEnt) ∈
          t.icache) ∧
    (s.acts (.team g b t) = true → s.team g b t = some x → x.awaiting = some pc → x.seq.tok = none → x.seq.queue = tk :: rest →
      exec (.tokenReceive (.team g b t)) s = .next (stepStop ((s.modSeq (.team g b t) fun q => { q with queue := rest }).modTeam
        g b t fun x => x.take tk pc) (.team g b t))) ∧
    (s.acts (.block g b) = true → s.lvlOf (.block g b) = some v → v.walkDone = false → v.seq.tok = none →
      v.seq.queue = tk :: rest → s.grid g = some gr → gr.lrec.cmode = true →
      exec (.tokenReceive (.block g b)) s = .next (stepStop (levelTake (s.modSeq (.block g b) fun q => { q with queue := rest })
        (.block g b) tk) (.block g b))) ∧
    ((∃ k, p = .cluster g k) ∨ ((∃ k, p = .block g k) ∧ gr.lrec.cmode = false) →
      s.acts p = true → s.lvlOf p = some v → v.walkDone = false → v.seq.tok = none → s.grid g = some gr →
      gr.ringBase ≤ v.seq.rd → gr.ring[v.seq.rd - gr.ringBase]? = some tk →
      exec (.tokenReceive p) s = .next (stepStop (levelTake (trimRing (s.modSeq p fun q => { q with rd := q.rd + 1 }) g) p tk) p)) ∧
    (waitsOn s p (.settle h) → mget s.frames (handleKey p.gridNo (instsOf p).1 (instsOf p).2 h) = some f →
      settled s p.gridNo (instsOf p).1 (instsOf p).2 f h = true → exec (.settleWaitEnd p) s = .next (endWait s p)) ∧
    (waitsOn s p .bin → s.coreOf p = some core → (freeBin s core).isSome = true → exec (.spawnRetry p) s = .next (endWait s p)) ∧
    (waitsOn s (.team g b t) (.mem a n w cond gran due) → tKey g b t ∈ s.poked → exec (.waitmWake (.team g b t)) s =
      .next (endWait { s with poked := sdel1 s.poked (tKey g b t) } (.team g b t))) ∧
    (waitsOn s p (.mem a n w cond gran due) → due ≤ s.clk → exec (.waitmPeriodicRead p) s = .next (endWait s p)) ∧
    (waitsOn s (.team g b t) (.parked ls vas []) → s.grid g = some gr → s.block g b = some y →
      (∀ l ∈ ls, (l ∉ y.absent ∧ l ∉ y.held) ∨ l ∈ y.failed) → (∀ z ∈ vas, pageBusy s gr z = false) →
      exec (.parkedAccessResume (.team g b t)) s = .next (endWait s (.team g b t))) ∧
    (waitsOn s p (.parked [] vas []) → s.grid p.gridNo = some gr → (∀ z ∈ vas, pageBusy s gr z = false) →
      exec (.parkedAccessResume p) s = .next (endWait s p))

/-- R77 to R80, R280: a bin whose timer has run out, or that had to wait, forms its team when the core has room and no bin of
a lower number is due; a message is deposited at its block's core, behind earlier ones of its lane, forces the core's oldest bin
where it finds none, and is counted as dropped where that block or its grid is gone. It rests on readings of the model's own
(log entries 19, 111). -/
def Obligations.BinEvents : Prop :=
  ∀ (s t : State) (core bin id : Nat) (x : Bin) (m : Msg) (gr : Grid) (y : Blk),
    (bin < 16 → mget s.bins (core * 16 + bin) = some x → s.live x.grid = true → binExpired s x = true →
      formTeam s (core * 16 + bin) true = some t → (∀ n < bin, formDue s (core * 16 + n) = none) →
      exec (.binTimerExpiry core bin) s = .next t) ∧
    (bin < 16 → mget s.bins (core * 16 + bin) = some x → s.live x.grid = true →
      formTeam s (core * 16 + bin) (binExpired s x) = some t → (∀ n < bin, formDue s (core * 16 + n) = none) →
      exec (.binFormOnSlotFree core bin) s = .next t) ∧
    (mget s.msgs id = some m → behindMsg s id m = false → s.grid m.grid = some gr → s.block m.grid m.blk = some y →
      s.live m.grid = true → s.scripted gr.ctx = false ∧ stallsFull s gr.ctx = false ∨ m.dev.isSome = true →
      (let z := messageToken (State.receive { s with msgs := mdel s.msgs id } y.core m.stamp)
       deposit z.2 y.core { g := m.grid, b := m.blk, entry := m.entry, size := m.size, timeout := m.timeout, words := m.words
                            tok := some z.1 } = some t) →
      exec (.messageDeposit id) s = .next (if m.dev.isSome then t
        else arbTurn t gr.ctx 4 (binPoint m.entry m.blk) (reqOf m.src) 1)) ∧
    (mget s.msgs id = some m → behindMsg s id m = false → s.grid m.grid = some gr → s.block m.grid m.blk = some y →
      s.live m.grid = true → s.scripted gr.ctx = false ∧ stallsFull s gr.ctx = false ∨ m.dev.isSome = true →
      (let z := messageToken (State.receive { s with msgs := mdel s.msgs id } y.core m.stamp)
       deposit z.2 y.core { g := m.grid, b := m.blk, entry := m.entry, size := m.size, timeout := m.timeout, words := m.words
                            tok := some z.1 } = none) →
      exec (.messageDeposit id) s = .next (forceOldest s y.core)) ∧
    (mget s.msgs id = some m → behindMsg s id m = false → s.grid m.grid = none → (∀ e ∈ s.images, e.2.gid ≠ m.grid) →
      exec (.messageDeposit id) s = .next (dropMsg { s with msgs := mdel s.msgs id } m.part)) ∧
    (mget s.msgs id = some m → behindMsg s id m = false → s.grid m.grid = some gr → placedBlock s m.grid m.blk = false →
      exec (.messageDeposit id) s = .next (State.modGrid { s with msgs := mdel s.msgs id } m.grid fun g =>
        { g with msgdrop := g.msgdrop + 1 }))

/-- R186, R192, R203, R208 to R214, R237, R250, R253, R268: a tile operation writes its elements, a copy starts, writes
its pieces, completes or fails, the oldest outstanding load lands, the first entry of a store queue is performed: a store, a
frame write, a bank operation, which a poisoned word loses. It rests on readings of the model's own (log entries 16, 32, 47). -/
def Obligations.DataEvents : Prop :=
  ∀ (s t : State) (core ctx id g b k : Nat) (e : MatEnt) (es : List MatEnt) (gr : Grid) (y : Blk) (c : Copy) (cls : Nat)
    (va : W64) (x : Team) (l : LoadEnt) (ls : List LoadEnt) (st : StoreEnt) (op : BitVec 4) (w : W64) (n : Nat),
    (core < 96 → ctx < 2 → mget s.matq (2 * core + ctx) = some (e :: es) → s.liveFor e.party = true →
      (matReady s core (1 - ctx) = false ∨ mget s.matLast core ≠ some ctx) → e.nextOp = some n →
      e.party = .team g b k → s.grid g = some gr → s.block g b = some y → (∀ a ∈ e.reads n, a ∉ y.tbad) →
      ∃ t z, exec (.tileOperation core ctx) s = .next t ∧ t.block g b = some z ∧ t.mem = s.mem ∧
        z.tiles = (e.writes gr y n).foldl (fun m w => zset m w.1 w.2) y.tiles) ∧
    (copyAt s id c → c.started = false → c.after = 0 → copyBlocked s id c = false →
      exec (.copyStart id) s = .next { s with
        seed := s.seed + 1
        copies := mset s.copies id { c with
          started := true, engine := 0x2000 + 4 * (((s.coreOf c.party).getD 0) / 24) + Config.freeNat s.seed % 4 } }) ∧
    (copyAt s id c → c.started = true → c.next < c.total → copyStep s id c = .wrote t → exec (.copyStart id) s = .next t) ∧
    (copyAt s id c → c.sameWord c.next = false → copyNext s id c = .wrote t → copyStep s id c = .wrote t) ∧
    (copyAt s id c → c.started = true → c.total ≤ c.next → exec (.copyComplete id) s = .next (finishCopy s id c)) ∧
    (copyAt s id c → c.started = true → c.next < c.total → copyStep s id c = .failed cls va t →
      exec (.copyFail id) s = .next (failCopy t id c cls va)) ∧
    (s.grid g = some gr → s.liveFor (.team g b k) = true → s.team g b k = some x → x.loads = l :: ls →
      s.scripted gr.ctx = false → stallsFull s gr.ctx = false →
      exec (.loadDataReturn (.team g b k)) s = .next (turnAll (feedMonitors
        (s.modTeam g b k fun y => l.parts.foldl (landPart s l) { y with loads := ls }) 0 (Config.waited 0 s.clk)) gr.ctx 2 l.grans
          (reqOf (.team g b k)))) ∧
    (∀ (d : LoadPart), l.sreg = true → (∀ i < d.n, poisoned s (d.key + i) = false) →
      landPart s l x d = { x with
        s := zset x.s d.dst (extend l.sx d.n (readNat s.mem d.key d.n)), stag := mdel x.stag d.dst }) ∧
    (∀ (d : LoadPart), l.sreg = false → (∀ i < d.n, poisoned s (d.key + i) = false) →
      landPart s l x d = { x with
        v := zset x.v d.dst ((extend l.sx d.n (readNat s.mem d.key d.n)).setWidth 32), vtag := mdel x.vtag d.dst }) ∧
    (headStore s g b k gr x st → st.kind = .store → reachable (popped s g b k) st.key → st.tier ≠ 3 →
      exec (.storePerform (.team g b k)) s = .next (performed (countUse (putMem (popped s g b k) st.key st.bytes) gr.ctx gr.part
        x.core st.va st.tier st.key) g b k gr 2 st)) ∧
    (headStore s g b k gr x st → st.kind = .store → reachable (popped s g b k) st.key → st.tier = 3 →
      exec (.storePerform (.team g b k)) s = .next (
        let z := countUse (putMem (popped s g b k) st.key st.bytes) gr.ctx gr.part x.core st.va st.tier st.key
        performed { z with outbox := z.outbox ++ [.store (st.key - memKey 3 0) st.bytes] } g b k gr 2 st)) ∧
    (headStore s g b k gr x st → st.kind = .store → ¬reachable (popped s g b k) st.key →
      exec (.storePerform (.team g b k)) s = .next (performed (dropPeerStore (popped s g b k) gr x.core st.va) g b k gr 2 st)) ∧
    (∀ cell slot, headStore s g b k gr x st → st.kind = .frame cell slot →
      writeSlot (popped s g b k) gr g b x.core st cell slot = some t →
      exec (.storePerform (.team g b k)) s = .next (performed t g b k gr 2 st)) ∧
    (headStore s g b k gr x st → st.kind = .bop op w → (∀ i < st.bytes.length, poisoned s (st.key + i) = false) →
      exec (.bankAluOperation (.team g b k)) s = .next (performed (countBank (putMem (popped s g b k) st.key
        (natBytes st.bytes.length (newValue op.toNat st.bytes.length (readNat s.mem st.key st.bytes.length) w.toNat))) gr.ctx
        gr.part x.core st.va st.tier st.key) g b k gr 1 st)) ∧
    (headStore s g b k gr x st → st.kind = .bop op w → (∃ i < st.bytes.length, poisoned s (st.key + i) = true) →
      exec (.bankAluOperation (.team g b k)) s = .next (
        let home := (homeOf s gr.part st.va st.tier st.key).getD (0, 0)
        performed ((popped s g b k).health (some gr.ctx) 3 (0x1000 + home.1) home.2 0
          (BitVec.ofNat 64 (st.va.toNat / 64 * 64))) g b k gr 1 st))

/-- R228, R231 to R234, R340 to R342, R392: a miss of a TLB ends with the leaf of the die's TLB, or of a walk, which fills both;
a fill that has ended makes its page present, or fails what waits for it; a migration marks a page, then moves it, its queue
going on behind the last one, and one that meets a page it cannot read ends there; a sample of a team is traced; a coalesced
vector sends again. It rests on readings of the model's own (log entries 22, 37, 38). -/
def Obligations.PageAndTimerEvents : Prop :=
  ∀ (s : State) (engine g id core fn vec size base due : Nat) (va e : W64) (p : Part) (f : Fill) (m : Migr)
    (ms : Miss) (v : Vector) (k : Nat),
    (∀ hit, missUnder s engine g va ms → ms.engine < 96 → pageMoving s ms.part ms.space va.toNat = false →
      tlbIn s (96 + engine / 24) ms.part ms.space (ms.page * 65536) = some hit →
      exec (.tlbMissComplete engine g va) s = .next { s with
        misses := s.misses.filter fun z => decide (z ≠ ms), tlb := tlbWith s engine { hit with engine := engine } }) ∧
    (missUnder s engine g va ms → ms.engine < 96 → pageMoving s ms.part ms.space va.toNat = false →
      tlbIn s (96 + engine / 24) ms.part ms.space (ms.page * 65536) = none → mget s.parts ms.part = some p →
      walkPage s.mem p.record ms.space (ms.page * 65536) = .leaf e size →
      exec (.tlbMissComplete engine g va) s = .next (
        let leaf : TlbEnt := ⟨96 + engine / 24, ms.part, ms.space, ms.page * 65536 / size * size, size, e⟩
        let u := { s with
          misses := s.misses.filter fun z => decide (z ≠ ms), tlb := tlbWith s (96 + engine / 24) leaf }
        { u with tlb := tlbWith u engine { leaf with engine := engine } })) ∧
    (missUnder s engine g va ms → 96 ≤ ms.engine → pageMoving s ms.part ms.space va.toNat = false →
      tlbIn s engine ms.part ms.space (ms.page * 65536) = none → mget s.parts ms.part = some p →
      walkPage s.mem p.record ms.space (ms.page * 65536) = .leaf e size →
      exec (.tlbMissComplete engine g va) s = .next { s with
        misses := s.misses.filter fun z => decide (z ≠ ms)
        tlb := tlbWith s engine ⟨engine, ms.part, ms.space, ms.page * 65536 / size * size, size, e⟩ }) ∧
    (mget s.fills id = some f → f.ended = some true → mget s.parts f.part = some p →
      walkPage s.mem p.record f.space f.base = .regen e size → leafKey s.mem p.record f.space f.base = some k →
      (∃ e' z, walkPage (putByte s.mem k (byteAt s.mem k ||| 1)) p.record f.space f.base = .leaf e' z) →
      exec (.regenFillComplete id) s = .next (wakePage { s with
        fills := mdel s.fills id, mem := putByte s.mem k (byteAt s.mem k ||| 1) } f.part f.space f.base f.size false)) ∧
    (mget s.fills id = some f → f.ended = some false ∨ f.ended = some true ∧ mget s.parts f.part = some p ∧
        (walkPage s.mem p.record f.space f.base = .absent ∨ walkPage s.mem p.record f.space f.base = .malformed) →
      (∀ y, s.grid f.grid = some y → y.queue ≠ 1024) →
      exec (.regenFillComplete id) s = .next (wakePage { s with
        fills := mdel s.fills id
        failedFills := if f.front then s.failedFills ++ [(f.part, f.space, f.base)] else s.failedFills }
        f.part f.space f.base f.size true)) ∧
    (∀ a, mget s.migrs id = some m → mget s.parts m.part = some p → m.marked = none →
      walkPage s.mem p.record m.space m.next = .leaf e size →
      (∃ t pa key, useLeaf s p.record m.next e size (permitted e .load) = .ok t pa key) →
      allocFrames s p m.tier size = some a →
      exec (.migrationPage id) s = .next { a.2 with
        migrs := mset s.migrs id { m with marked := some (m.next / size * size, size), dest := a.1 }
        tlb := s.tlb.filter fun t => !decide (t.part = m.part ∧ t.space = m.space ∧ t.base = m.next / size * size) }) ∧
    (∀ cls cause al, mget s.migrs id = some m → mget s.parts m.part = some p → m.marked = none →
      walkPage s.mem p.record m.space m.next = .leaf e size →
      useLeaf s p.record m.next e size (permitted e .load) = .fault cls cause al →
      exec (.migrationPage id) s = .next (endMigr (noteAlias s al) id m (BitVec.ofNat 64 (m.next / size * size + cls)))) ∧
    (mget s.migrs id = some m → mget s.parts m.part = some p → m.marked = none →
      walkPage s.mem p.record m.space m.next = .absent →
      exec (.migrationPage id) s = .next (endMigr s id m (BitVec.ofNat 64 (m.next / 65536 * 65536 + 0x10)))) ∧
    (mget s.migrs id = some m → mget s.parts m.part = some p → m.marked = none →
      walkPage s.mem p.record m.space m.next = .regen e size →
      exec (.migrationPage id) s = .next (endMigr s id m (BitVec.ofNat 64 (m.next / size * size + 0x10)))) ∧
    (∀ (src dst kk : Nat), mget s.migrs id = some m → mget s.parts m.part = some p → m.marked = some (base, size) →
      walkPage s.mem p.record m.space base = .leaf e k → leafKey s.mem p.record m.space base = some kk →
      src = memKey (e.extractLsb' 9 2).toNat ((e.extractLsb' 16 36).toNat * 2 ^ 16) → dst = memKey m.tier m.dest →
      s.poison.filter (fun n => decide (src ≤ n * 64 ∧ n * 64 < src + size)) = [] →
      exec (.migrationPage id) s = .next (
        let z := reaimAll (moveFrames { s with seed := s.seed + 1 } src dst size) src dst size m.tier
        let m' : Migr := { m with marked := none, next := base + size }
        let t := wakePage { z with
          mem := writeNat z.mem kk 8 (moveLeaf e m.tier m.dest).toNat
          migrs := mset z.migrs id m' } m.part m.space base size false
        if m.last < base + size then endMigr t id m' 0 else t)) ∧
    (∀ (x : Nat × Team) (tb : TraceBuf), x ∈ coreTeams s core →
      (s.grid (tkGrid x.1)).bind (fun g => (mget s.ctxs g.ctx).bind (·.trace)) = some tb → tb.period ≠ 0 →
      ∃ y ∈ coreTeams s core, ∃ gy w, s.grid (tkGrid y.1) = some gy ∧
        exec (.pcSample core) s = .next (State.traceBy { s with seed := s.seed + 2 } gy.ctx core 3
          (sampleBody { s with seed := s.seed + 2 } (tkGrid y.1) (y.1 / 16 % 2 ^ 32) (y.1 % 16) w))) ∧
    (mget s.vectors (vecKey fn vec) = some v → v.timer = some due → due ≤ s.clk → v.coalesced = true →
      exec (.coalescingTimerExpiry fn vec) s = .next (
        let y := { v with coalesced := false, timer := some (s.clk + s.coalOf fn) }
        State.sendVec { s with vectors := mset s.vectors (vecKey fn vec) y } fn vec)) ∧
    (mget s.vectors (vecKey fn vec) = some v → v.timer = some due → due ≤ s.clk → v.coalesced = false →
      exec (.coalescingTimerExpiry fn vec) s = .next (
        let y := { v with timer := none }
        { s with vectors := mset s.vectors (vecKey fn vec) y }))

/-! ### Queues -/

/-- R357, R359: the commands that only change the registers of a queue complete: each leaves its result in the register
it names, and the queue moves on. -/
def Obligations.QueueRegisters : Prop :=
  ∀ (s : State) (q : Nat) (x : Queue) (j : JImg) (a b c : BitVec 4) (imm : BitVec 44) (top : BitVec 20),
    queueTurn s q x j →
    exec .cmdNop s = cmdEnds s q j ∧
    exec (.ldi a imm) s = cmdEnds s q (j.setReg a.toNat (imm.signExtend 64)) ∧
    exec (.ldhi a top) s = cmdEnds s q (j.setReg a.toNat (top ++ (j.reg a.toNat).extractLsb' 0 44 : BitVec 64)) ∧
    exec (.add a b c) s = cmdEnds s q (j.setReg a.toNat (j.reg b.toNat + j.reg c.toNat)) ∧
    exec (.addi a b imm) s = cmdEnds s q (j.setReg a.toNat (j.reg b.toNat + imm.signExtend 64))

/-- R233, R329, R359, R362, R373: ld, st, signal, copy and migration: where their addresses are aligned and pass, they
complete with their effect; a misaligned one is QALIGN and one that fails is QACCESS; a dispatched command whose result
stands in the window is not performed again. What goes to a peer's memory also leaves for its home. It rests on readings of the
model's own (log entry 20). -/
def Obligations.QueueAccesses : Prop :=
  ∀ (s t u : State) (q key tier : Nat) (x : Queue) (j : JImg) (a b c : BitVec 4) (imm : BitVec 44) (k : BitVec 2)
    (from_ to_ : List (Nat × Nat)) (e : W64 × W64),
    queueTurn s q x j →
    (qPasses s x .load (j.reg b.toNat + imm.signExtend 64) key tier t →
      exec (.cmdLd a b imm) s = cmdEnds t q (j.setReg a.toNat (BitVec.ofNat 64 (readNat t.mem key 8)))) ∧
    ((j.reg b.toNat + imm.signExtend 64).toNat % 8 ≠ 0 → exec (.cmdLd a b imm) s = .next (coreFault s q 5)) ∧
    (∀ cls, (j.reg b.toNat + imm.signExtend 64).toNat % 8 = 0 →
      qRange s x.part x.space .load (j.reg b.toNat + imm.signExtend 64) 8 = .fault cls t →
      exec (.cmdLd a b imm) s = .next (coreFault t q 4)) ∧
    (undispatched x j → qPasses s x .store (j.reg b.toNat + imm.signExtend 64) key tier t →
      exec (.cmdSt a b imm) s = dispEnds (qStore t key (j.reg a.toNat)) q j 0 j) ∧
    (undispatched x j → (j.reg b.toNat + imm.signExtend 64).toNat % 8 ≠ 0 →
      exec (.cmdSt a b imm) s = .next (queueFault (enterWindow s q j.csn (BitVec.ofNat 64 (2 ^ 63 + 5))) q 5)) ∧
    (undispatched x j → qPasses s x .store (j.reg a.toNat) key tier t →
      exec (.signalWrite a b) s =
        dispEnds (sendClock (qStore t key (j.reg b.toNat)) (0x3000 + x.core) x.part (j.reg a.toNat) tier key) q j 0 j) ∧
    (undispatched x j → qPasses s x .rmw (j.reg a.toNat) key tier t →
      exec (.signalAdd a b) s =
        dispEnds (sendClock (addWord t key (j.reg b.toNat)) (0x3000 + x.core) x.part (j.reg a.toNat) tier key) q j 0 j) ∧
    (∀ v : W64, peerKey key = false → qStore t key v = putMem t key (natBytes 8 v.toNat) ∧
      addWord t key v = putMem t key (natBytes 8 ((readNat t.mem key 8 + v.toNat) % 2 ^ 64))) ∧
    (∀ v : W64, peerKey key = true →
      (qStore t key v).outbox = t.outbox ++ [.store (key - memKey 3 0) (readBytes (qStore t key v).mem key 8)] ∧
      (addWord t key v).outbox = t.outbox ++ [.atomic (key - memKey 3 0) 0 8 v.toNat 0]) ∧
    (undispatched x j →
      qSpan x.part x.space .load ((j.reg c.toNat).toNat / 65536 + (j.reg b.toNat).toNat % 65536 + 2) (j.reg b.toNat)
        (j.reg c.toNat).toNat s = .ok from_ key t →
      segsPoisoned t from_ = false →
      qSpan x.part x.space .store ((j.reg c.toNat).toNat / 65536 + (j.reg a.toNat).toNat % 65536 + 2) (j.reg a.toNat)
        (j.reg c.toNat).toNat t = .ok to_ tier u →
      exec (.cmdCopy a b c) s = dispEnds (sendPeer (putSegs u to_ (readSegs u.mem from_)) to_) q j 0 j) ∧
    (undispatched x j → (∀ m ∈ s.migrs, m.2.queue ≠ q) → (j.reg c.toNat).toNat = 0 →
      exec (.cmdMigrate a b c k) s = dispEnds s q j 0 (j.setReg b.toNat 0)) ∧
    (undispatched x j → (∀ m ∈ s.migrs, m.2.queue ≠ q) → (j.reg c.toNat).toNat ≠ 0 →
      exec (.cmdMigrate a b c k) s = .next { s.fresh.2 with
        migrs := mset s.migrs s.fresh.1 ⟨x.part, x.space, (j.reg a.toNat).toNat,
          (j.reg a.toNat).toNat + (j.reg c.toNat).toNat - 1, k.toNat, none, 0, q, b.toNat, j.csn⟩ }) ∧
    (x.window.find? (fun e => decide (e.1 = j.csn)) = some e →
      exec (.cmdSt a b imm) s = cmdEnds s q j ∧ exec (.signalWrite a b) s = cmdEnds s q j ∧
      exec (.signalAdd a b) s = cmdEnds s q j ∧ exec (.cmdCopy a b c) s = cmdEnds s q j ∧
      exec (.cmdMigrate a b c k) s = cmdEnds s q (j.setReg b.toNat e.2))

/-- R360, R361, R362, R416: branches, loops, buffers and waits of a queue: a branch leads forward in the ring and within its
buffer, and is QBRANCH elsewhere; calli enters a buffer and nests 8 deep; a wait completes when its condition holds and is
armed until it does, in state 3, or in state 5 where a stop is requested. It rests on readings of the model's own (log entry 56). -/
def Obligations.QueueFlow : Prop :=
  ∀ (s t : State) (q key tier : Nat) (x : Queue) (j : JImg) (a b c : BitVec 4) (imm : BitVec 44) (w : Armed),
    (queueTurn s q x j →
      (waitCond c.toNat 8 (j.reg a.toNat).toNat (j.reg b.toNat).toNat = false → exec (.br a b c imm) s = cmdEnds s q j) ∧
      (waitCond c.toNat 8 (j.reg a.toNat).toNat (j.reg b.toNat).toNat = true → j.depth = 0 → 1 ≤ imm.toInt →
        exec (.br a b c imm) s = .next (completeCommand s q (movePos j imm.toInt))) ∧
      (waitCond c.toNat 8 (j.reg a.toNat).toNat (j.reg b.toNat).toNat = true → j.depth = 0 → imm.toInt < 1 →
        exec (.br a b c imm) s = .next (coreFault s q 3)) ∧
      (∀ e, waitCond c.toNat 8 (j.reg a.toNat).toNat (j.reg b.toNat).toNat = true → topBuffer j = some e →
        exec (.br a b c imm) s = if 0 ≤ (e.2.2.toNat : Int) + imm.toInt ∧ (e.2.2.toNat : Int) + imm.toInt < e.2.1.toNat
          then .next (completeCommand s q (movePos j imm.toInt)) else .next (coreFault s q 3)) ∧
      (j.reg a.toNat = 0 → exec (.dloop a imm) s = cmdEnds s q j) ∧
      (j.reg a.toNat ≠ 0 → j.depth = 0 → 1 ≤ imm.toInt → exec (.dloop a imm) s =
        .next (completeCommand s q (movePos (j.setReg a.toNat (j.reg a.toNat - 1)) imm.toInt))) ∧
      (j.reg a.toNat ≠ 0 → j.depth = 0 → imm.toInt < 1 → exec (.dloop a imm) s = .next (coreFault s q 3)) ∧
      (j.reg b.toNat = 0 → exec (.calli a b) s = cmdEnds s q j) ∧
      (j.reg b.toNat ≠ 0 → j.depth < 8 → (j.reg a.toNat).toNat % 8 = 0 → exec (.calli a b) s =
        .next (completeCommand s q { j with
          bstack := j.bstack.set j.depth (j.reg a.toNat, (j.reg b.toNat).setWidth 32, 0), depth := j.depth + 1 })) ∧
      (j.reg b.toNat ≠ 0 → 8 ≤ j.depth → exec (.calli a b) s = .next (coreFault s q 2)) ∧
      (j.depth ≠ 0 → exec .reti s = .next (completeCommand s q (leaveBuffer j))) ∧
      (j.depth = 0 → exec .reti s = .next (coreFault s q 1)) ∧
      (qPasses s x .load (j.reg a.toNat) key tier t →
        waitCond c.toNat 8 (BitVec.ofNat 64 (readNat t.mem key 8)).toNat (j.reg b.toNat).toNat = true →
        exec (.wait a b c) s = cmdEnds (hearSignal t (0x3000 + x.core) key) q j) ∧
      (qPasses s x .load (j.reg a.toNat) key tier t →
        waitCond c.toNat 8 (BitVec.ofNat 64 (readNat t.mem key 8)).toNat (j.reg b.toNat).toNat = false →
        exec (.wait a b c) s = .next (armWait t q j ⟨j.reg a.toNat, j.reg b.toNat, c, t.clk + 4096⟩))) ∧
    -- what an armed wait and a fault of a command that the core executes itself leave
    (mget s.queues q = some x → unserved x.img = false →
      (∃ y, mget (armWait s q j w).queues q = some y ∧
        (x.stopReq = false → y.img = { j with state := 3 } ∧ y.armed = some w) ∧
        (x.stopReq = true → y.img = { j with state := 5 } ∧ y.armed = x.armed ∧ y.stopReq = false)) ∧
      ∀ n, ∃ y, mget (coreFault s q n).queues q = some y ∧
        (x.stopReq = false → y.img = { x.img with state := 4, fault := BitVec.ofNat 8 n }) ∧
        (x.stopReq = true → y.img = { x.img with state := 5, fault := BitVec.ofNat 8 n } ∧ y.stopReq = false)) ∧
    (mget s.queues q = some x → x.armed = some w → armedHolds s x w false = true →
      exec (.queueWaitWake q) s = .next ((s.modQueue q fun x => { x with armed := none }).roll q)) ∧
    (mget s.queues q = some x → x.armed = some w → armedHolds s x w true = true → w.due ≤ s.clk →
      exec (.queueWaitPeriodic q) s = .next ((s.modQueue q fun x => { x with armed := none }).roll q)) ∧
    (mget s.queues q = some x → x.armed = some w → armedHolds s x w true = false → w.due ≤ s.clk →
      exec (.queueWaitPeriodic q) s =
        .next (s.modQueue q fun x => { x with armed := some { w with due := s.clk + 4096 } }))

/-- R364, R367, R373: launch is judged: an accepted grid starts and its status 0 enters the window, a refused one gives its
status; launchg makes its timetable resident and launches the nodes that wait for none. It rests on readings of the model's
own (log entries 53, 55). -/
def Obligations.QueueLaunches : Prop :=
  ∀ (s t : State) (q tier : Nat) (x : Queue) (j : JImg) (a b c d : BitVec 4) (prio : BitVec 2) (l : LaunchRec)
    (new : Option Ctx) (brks : List Brkpt) (stop : Bool) (st : W32) (e : W64 × W64) (segs : List (Nat × Nat)),
    queueTurn s q x j →
    (undispatched x j → s.reg.isDown = false → (∀ p ∈ s.launches, p.2.launcher ≠ .queue q) →
      judge (asking s (launchAsked q x j a b c d prio)) s.nextId (launchAsked q x j a b c d prio) = .go l new brks stop t →
      exec (.cmdLaunch a b c d prio) s = .next (giveStatus (acceptGrid t s.nextId (launchAsked q x j a b c d prio) l new brks
        stop) (launchAsked q x j a b c d prio) s.nextId 0)) ∧
    (undispatched x j → s.reg.isDown = false → (∀ p ∈ s.launches, p.2.launcher ≠ .queue q) →
      judge (asking s (launchAsked q x j a b c d prio)) s.nextId (launchAsked q x j a b c d prio) = .refused st t →
      exec (.cmdLaunch a b c d prio) s =
        .next (giveStatus t (launchAsked q x j a b c d prio) s.nextId st)) ∧
    (x.window.find? (fun e => decide (e.1 = j.csn)) = some e →
      exec (.cmdLaunch a b c d prio) s = cmdEnds s q (j.setReg d.toNat e.2) ∧
      exec (.launchg a b d) s = cmdEnds s q (j.setReg d.toNat e.2)) ∧
    (undispatched x j → s.tables.length < 16 → qRange s x.part x.space .load (j.reg a.toNat) 64 = .ok segs tier t →
      segsPoisoned t segs = false →
      (2 ^ 11 ≤ bytesNat (readSegs t.mem segs) ∨ bytesNat (readSegs t.mem segs) % 2 ^ 11 = 0 ∨
        1024 < bytesNat (readSegs t.mem segs) % 2 ^ 11) →
      exec (.launchg a b d) s = dispEnds t q j 10 (j.setReg d.toNat 10)) ∧
    (∀ (n cls : Nat) (u : State), undispatched x j → s.tables.length < 16 →
      qRange s x.part x.space .load (j.reg a.toNat) 64 = .ok segs tier t → segsPoisoned t segs = false →
      bytesNat (readSegs t.mem segs) = n → 1 ≤ n → n ≤ 1024 → readNodes x n (j.reg a.toNat + 64) [] t = .refused cls u →
      exec (.launchg a b d) s = dispEnds u q j (BitVec.ofNat 64 (9 + 256 * cls))
        (j.setReg d.toNat (BitVec.ofNat 64 (9 + 256 * cls)))) ∧
    (∀ (n : Nat) (raw : List Nat) (u v : State) (pl : PLaunch),
      undispatched x j → s.tables.length < 16 → qRange s x.part x.space .load (j.reg a.toNat) 64 = .ok segs tier t →
      segsPoisoned t segs = false → bytesNat (readSegs t.mem segs) = n → 1 ≤ n → n ≤ 1024 →
      readNodes x n (j.reg a.toNat + 64) [] t = .nodes raw u → raw.any nodeBad = false → tableBad (raw.map parseNode) = false →
      pl = { launchAsked q x j 0 0 0 0 0 with recAt := 0, ctxAt := 0, sig := j.reg b.toNat } →
      (∀ c, signalBad u pl = .bad c → exec (.launchg a b d) s = dispEnds u q j (BitVec.ofNat 64 (11 + 256 * c))
        (j.setReg d.toNat (BitVec.ofNat 64 (11 + 256 * c)))) ∧
      ∀ r : State, signalBad u pl = .good r →
      v = { r.fresh.2 with tables := mset r.tables r.fresh.1 ⟨q, j.csn, j.reg b.toNat, raw.map parseNode, 0⟩ } →
      exec (.launchg a b d) s = dispEnds (((List.range n).filter fun i =>
          decide ((((raw.map parseNode)[i]?).map (·.left)).getD 1 = 0)).foldl (fun s i => launchNode s r.fresh.1 i) v)
        q j 0 (j.setReg d.toNat 0))

/-- R355, R356, R416: a portal packet of eight commands enters the ring where there is room, and is answered retry
elsewhere; another write to the page is counted; the host's writes of 2, 5 and 6 resume, stop and reset a queue. It rests
on readings of the model's own (log entry 23). -/
def Obligations.PortalAndQueueState : Prop :=
  ∀ (s : State) (q : Nat) (x : Queue) (cmds : List W64), mget s.queues q = some x →
    (cmds.length = 8 → s.reg.isReady = true → x.disabled = false → x.img.state ≠ 0 →
      8 ≤ (x.size : Int) - (x.wptr - x.img.rptr.setWidth 32).toInt →
      exec (.portalKick q cmds) s = .next (State.roll (State.modQueue { s with
        mem := cmds.zipIdx.foldl (fun m e =>
          writeNat m (memKey 0 (x.ring + 8 * ((x.wptr.toNat + e.2) % x.size))) 8 e.1.toNat) s.mem } q
            fun x => { x with wptr := x.wptr + 8 }) q)) ∧
    (cmds.length = 8 → (s.reg.isReady = false ∨ x.disabled = true ∨ x.img.state = 0 ∨
        (x.size : Int) - (x.wptr - x.img.rptr.setWidth 32).toInt < 8) →
      exec (.portalKick q cmds) s = .next (s.modQueue q fun x => { x with retries := x.retries + 1 })) ∧
    exec (.portalWriteDiscarded q) s = .next (s.modQueue q fun x => { x with dropped := x.dropped + 1 }) ∧
    (x.img.state = 4 ∨ x.img.state = 5 →
      (∃ t y, exec (.queueStateResume q) s = .next t ∧ mget t.queues q = some y ∧
        y.img = { x.img with state := 2, fault := 0 } ∧ t.mem = s.mem ∧ t.rollcall.getLsbD q = decide (q < 1024)) ∧
      ((∀ e ∈ s.grids, ¬(e.2.queue = q ∧ e.2.status = .retained ∧ e.2.depth = 1)) →
        ∃ t y, exec (.queueStateReset q) s = .next t ∧ mget t.queues q = some y ∧
        y.img = { x.img with rptr := x.wptr.setWidth 64, depth := 0, fault := 0, state := 1,
                             bstack := List.replicate 8 (0, 0, 0) })) ∧
    (x.img.state ≠ 4 → x.img.state ≠ 5 → exec (.queueStateResume q) s = .next (s.roll q) ∧
      exec (.queueStateReset q) s = .next (s.roll q)) ∧
    (x.img.state = 1 → exec (.queueStateStop q) s =
      .next ((s.modQueue q fun y => y.write { x.img with state := 5 }).roll q)) ∧
    (x.img.state = 2 ∨ x.img.state = 3 → exec (.queueStateStop q) s =
      .next ((s.modQueue q fun x => { x with stopReq := true }).roll q))

/-- R292, R295, R296, R300, R306, R324, R326, R369: ctrl on a grid of the queue's own partition: freezing and thawing,
breakpoints, translations, the dispositions, images, the log's tail, release, each with its status in kd. It rests on
readings of the model's own (log entries 25, 53, 57, 63, 64, 66). -/
def Obligations.ControlCommands : Prop :=
  ∀ (s t u : State) (q g tier k : Nat) (x : Queue) (j : JImg) (a d : BitVec 4) (b : CtlBlk) (gr : Grid) (i : Image)
    (segs : List (Nat × Nat)) (n : Nat) (lg : UndoLog) (ck : Ckpt),
    queueTurn s q x j → undispatched x j →
    (ctlNothing s x (j.reg a.toNat) b t →
      (∀ i ∈ [Instr.ctrlFreeze a d, .ctrlThaw a d, .ctrlSetBreakpoint a d, .ctrlInvalidateTlb a d, .ctrlTrimLog a d,
          .ctrlRewind a d, .ctrlDebugRead a d, .ctrlReleaseRetained a d, .ctrlHostMarker a d, .ctrlReverseStep a d],
        exec i s = ctlEnds t q j d 12) ∧
      ((∀ e ∈ t.done, ¬(e.clk = t.clk ∧ e.queue = b.queue ∧ e.csn = b.csn ∧ e.part = x.part)) →
        exec (.ctrlPreempt a d) s = ctlEnds t q j d 12) ∧
      (∀ e, t.done.find? (fun e => decide (e.clk = t.clk ∧ e.queue = b.queue ∧ e.csn = b.csn ∧ e.part = x.part)) = some e →
        qPlace t x b.a1 64 = .ok segs tier u → x.fn ≠ 0 ∨ e.conf = false →
        exec (.ctrlPreempt a d) s = ctlEnds (sendPeer (putSegs u segs (natBytes 64 e.hdr.toNat)) segs) q j d 0)) ∧
    (ctlNames s x (j.reg a.toNat) b g gr t →
    exec (.ctrlFreeze a d) s = ctlEnds (setFrozen t gr.ctx true) q j d 0 ∧
    exec (.ctrlThaw a d) s = ctlEnds (setFrozen t gr.ctx false) q j d 0 ∧
    (b.a0.toNat < 8 → exec (.ctrlSetBreakpoint a d) s = ctlEnds (modCtxGrids t gr.ctx fun y => { y with
      brks := y.brks.set b.a0.toNat ⟨b.a1.setWidth 32, b.a2.extractLsb' 0 5, b.a2.getLsbD 8⟩
      allstop := b.a2.getLsbD 9 }) q j d 0) ∧
    exec (.ctrlInvalidateTlb a d) s = ctlEnds { t with tlb := t.tlb.filter fun e => !decide (e.part = gr.part ∧
      e.space = gr.space ∧ e.base < b.a0.toNat + b.a1.toNat ∧ b.a0.toNat < e.base + e.size) } q j d 0 ∧
    (b.a1.toNat = 0 →
      (ctxGrids t gr.ctx).findSome? (fun h => (disposeStop t h b.a0.toNat false).map fun v => settleAfter v h) = some u →
      exec (.ctrlDisposeResume a d) s = ctlEnds u q j d 0) ∧
    (b.a1.toNat = 1 → (ctxGrids t gr.ctx).findSome? (fun h => disposeStop t h b.a0.toNat true) = some u →
      exec (.ctrlDisposeStep a d) s = ctlEnds u q j d 0) ∧
    (b.a1.toNat = 2 → gr.status = .retained →
      exec (.ctrlDisposeAbort a d) s = ctlEnds (abortTree t g) q j d 0) ∧
    (gr.status = .retained → exec (.ctrlReleaseRetained a d) s = ctlEnds (releaseTree t g) q j d 0) ∧
    (gr.status ≠ .retained → exec (.ctrlReleaseRetained a d) s = ctlEnds t q j d 13) ∧
    (x.phase j = none → gr.status ≠ .retained → gridImage t g = none →
      gridImage (saveTree t g false (b.a0.getLsbD 0) (some (spaceKey x.part x.space, b.a1))) g = some (k, i) →
      i.csmWanted = false → x.fn ≠ 0 ∨ (mget t.ctxs gr.ctx).map (·.conf) ≠ some true →
      qPlace (saveTree t g false (b.a0.getLsbD 0) (some (spaceKey x.part x.space, b.a1))) x b.a1
        (natBytes 64 i.hdr.toNat ++ imageBody gr.lrec i).length = .ok segs tier u →
      exec (.ctrlPreempt a d) s =
        ctlEnds (sendPeer (putSegs u segs (natBytes 64 i.hdr.toNat ++ imageBody gr.lrec i)) segs) q j d 0) ∧
    (gr.status = .retained → qPlace t x b.a1 64 = .ok segs tier u →
      x.fn ≠ 0 ∨ (mget t.ctxs gr.ctx).map (·.conf) ≠ some true →
      exec (.ctrlPreempt a d) s = ctlEnds (sendPeer (putSegs u segs (natBytes 64 (doneHeader t g gr).toNat)) segs) q j d 0) ∧
    (x.phase j = none → (t.images.filter fun e => decide (e.2.gid = g) && e.2.grid.isSome).find?
        (fun e => decide (e.2.addr = some (spaceKey x.part x.space, b.a0))) = some (k, i) → restoreGrid t k = some u →
      exec (.ctrlRestoreImage a d) s = .next (ctlPhase u q j 0)) ∧
    (x.phase j = some n → (∀ e ∈ t.images, e.2.gid = g → e.2.auto = false) →
      exec (.ctrlRestoreImage a d) s = ctlEnds t q j d 0) ∧
    ((mget t.ctxs gr.ctx).bind (·.ulog) = some lg → (lg.ckpts.find? fun c => decide (c.window.toNat = b.a0.toNat)) = some ck →
      exec (.ctrlTrimLog a d) s = ctlEnds (t.modCtx gr.ctx fun y => { y with ulog := some { lg with
        tail := ck.start, oldwin := ck.window
        ckpts := lg.ckpts.filter fun c => decide (lg.age c.window ≤ lg.age ck.window) } }) q j d 0) ∧
    (qPlace t x b.a2 (b.a1.extractLsb' 0 32).toNat = .ok segs tier u →
      x.fn ≠ 0 ∨ (mget u.ctxs gr.ctx).map (·.conf) ≠ some true →
      exec (.ctrlDebugRead a d) s =
        let r := debugBytes u g gr (b.a1.extractLsb' 32 32).toNat b.a0.toNat (b.a1.extractLsb' 0 32).toNat
        ctlEnds (sendPeer (putSegs r.2 segs r.1) segs) q j d 0))

/-- R320, R324, R325, R327, R345 to R348, R369: ctrl on an undo context and its record: a rewind restores and then replays to
its window, a replay thaws the context under the monitor, a reverse step ends one chain earlier, a host marker opens a
window, or has the grid saved where the log stalls. It rests on readings of the model's own (log entries 66, 67, 68, 69). -/
def Obligations.RewindCommands : Prop :=
  ∀ (s t : State) (q g n : Nat) (x : Queue) (j : JImg) (a d : BitVec 4) (b : CtlBlk) (gr : Grid) (lg : UndoLog) (ck : Ckpt)
    (l l' sp : List Chunk) (p : Party),
    queueTurn s q x j → undispatched x j → ctlNames s x (j.reg a.toNat) b g gr t →
    ((mget t.ctxs gr.ctx).bind (·.ulog) = some lg → x.phase j = some 0 → restoring t gr.ctx = false →
      (lg.newwin = b.a0.setWidth 32 → exec (.ctrlRewind a d) s = ctlEnds t q j d 0) ∧
      (lg.newwin ≠ b.a0.setWidth 32 → scriptHere t gr.ctx = some (l, sp) →
        exec (.ctrlRewind a d) s = .next (ctlPhase (startReplay t gr.ctx l sp (.window (b.a0.setWidth 32))) q j 1))) ∧
    ((mget t.ctxs gr.ctx).bind (·.ulog) = some lg → x.phase j = some 1 → replayOver t g gr.ctx = true →
      exec (.ctrlRewind a d) s = ctlEnds t q j d 0) ∧
    ((mget t.ctxs gr.ctx).bind (·.ulog) = some lg → x.phase j = none → atRest t g gr = true → b.a0.toNat < 2 ^ 32 →
      lg.target (b.a0.setWidth 32) = some ck → lg.reaches ck = true →
      (ck.window = b.a0.setWidth 32 ∨ scriptFor t gr.ctx ck = true) →
      exec (.ctrlRewind a d) s = .next (
        let u := rewindTo t gr.ctx g gr lg ck
        ctlPhase u q j (if ((mget u.ctxs gr.ctx).map (·.unapplied)).getD [] = [] then 0 else 10))) ∧
    (x.phase j = none → atRest t g gr = true → restoring t gr.ctx = false → scriptHere t gr.ctx = some (l, sp) →
      (b.a0.toNat = 0 → exec (.ctrlReplay a d) s = .next (ctlPhase (startReplay t gr.ctx l sp .script) q j 0)) ∧
      (b.a0.toNat = 1 → exec (.ctrlReplayToWindow a d) s =
        .next (ctlPhase (startReplay t gr.ctx l sp (.window (b.a1.setWidth 32))) q j 0)) ∧
      (b.a0.toNat = 2 → perturb l b.a1.toNat = some l' →
        exec (.ctrlReplayPerturb a d) s = .next (ctlPhase (startReplay t gr.ctx l' sp .script) q j 0)) ∧
      (b.a0.toNat = 2 → perturb l b.a1.toNat = none → exec (.ctrlReplayPerturb a d) s = ctlEnds t q j d 13)) ∧
    (x.phase j = some n →
      (replayOver t g gr.ctx = true ∨ t.scripted gr.ctx = false →
        (b.a0.toNat = 0 → exec (.ctrlReplay a d) s = ctlEnds t q j d 0) ∧
        (b.a0.toNat = 2 → exec (.ctrlReplayPerturb a d) s = ctlEnds t q j d 0)) ∧
      (replayOver t g gr.ctx = true → b.a0.toNat = 1 → exec (.ctrlReplayToWindow a d) s = ctlEnds t q j d 0)) ∧
    ((mget t.ctxs gr.ctx).bind (·.ulog) = some lg → ctlParty g b.a0 = some p →
      (x.phase j = none → (chainsOf t gr.ctx p).bind (reverseGoal p lg.ckpts.reverse) = some (ck, n) → atRest t g gr = true →
        lg.reaches ck = true → scriptFor t gr.ctx ck = true →
        exec (.ctrlReverseStep a d) s = .next (ctlPhase (rewindTo t gr.ctx g gr lg ck) q j (2 * n))) ∧
      (x.phase j = some (2 * n) → restoring t gr.ctx = false → scriptHere t gr.ctx = some (l, sp) →
        exec (.ctrlReverseStep a d) s = .next (ctlPhase (startReplay t gr.ctx l sp (.chains p n)) q j (2 * n + 1))) ∧
      (x.phase j = some (2 * n + 1) → replayOver t g gr.ctx = true → exec (.ctrlReverseStep a d) s = ctlEnds t q j d 0)) ∧
    (t.undoOn gr.ctx = true → canOpen t gr.ctx .grid = true → exec (.ctrlHostMarker a d) s =
      ctlEnds (openWindow t g gr.ctx (nextWindow t gr.ctx) .grid (b.a0.setWidth 16) (t.engineOf (.grid g))) q j d 0) ∧
    (t.undoOn gr.ctx = true → canOpen t gr.ctx .grid = false → gr.status = .running → exec (.ctrlHostMarker a d) s =
      ctlEnds (t.modGrid g fun y => if y.status = .running then { y with status := .saving } else y) q j d 13) ∧
    (t.undoOn gr.ctx = false → exec (.ctrlHostMarker a d) s = ctlEnds t q j d 13)

/-! ### Grids on the device -/

/-- R82, R93, R275, R300, R303, R306, R364: a launch that waits is judged, blocks are placed where they fit, a team that
has exited retires, a grid is saved where its pre-emption was asked for or its next block finds no room, its allocation
follows into the image, its parts come back. It rests on readings of the model's own (log entries 51, 53, 55, 57, 108). -/
def Obligations.GridEvents : Prop :=
  ∀ (s t u : State) (g core id b k : Nat) (gr : Grid) (pl : PLaunch) (l : LaunchRec) (new : Option Ctx) (brks : List Brkpt)
    (stop : Bool) (st : W32) (i : Image) (x : Team),
    (mget s.launches id = some pl → s.reg.isDown = false → judge s id pl = .go l new brks stop t →
      exec (.gridLaunchAccept id) s = .next (giveStatus (tellParent (acceptGrid t id pl l new brks stop) id pl) pl id 0)) ∧
    (mget s.launches id = some pl → s.reg.isDown = false → judge s id pl = .refused st t →
      exec (.gridLaunchAccept id) s = .next (giveStatus t pl id st)) ∧
    (s.live g = true → (∀ e ∈ s.images, restoreNext s e.1 core = none) → s.grid g = some gr → core < 96 →
      gr.nextBlk < gr.lrec.grid → clusterAllows s gr (core / 4) = true →
      (gr.lrec.cmode = false → coreFits s core ⟨gr.lrec, []⟩ = true → exec (.blockPlacement g core) s =
        .next ((placeOn s g gr core gr.nextBlk).modGrid g fun y => { y with nextBlk := gr.nextBlk + 1, owed := none })) ∧
      (gr.lrec.cmode = true → core % 4 = 0 → (clusterSlots s (core / 4)).length < 4 →
        (∀ n < (instBlocks gr.lrec (instOf gr.nextBlk)).length, coreFits s (core + n) ⟨gr.lrec, []⟩ = true) →
        exec (.blockPlacement g core) s = .next (((instBlocks gr.lrec (instOf gr.nextBlk)).foldl
          (fun s n => placeOn s g gr (core + (n - 4 * instOf gr.nextBlk)) n) { s with
            clusters := mset s.clusters (bKey g (instOf gr.nextBlk)) ⟨Lvl.start (mkPc gr.lrec.entry.toNat 0) 4, core / 4,
              ((List.range 4).find? fun n => decide (n ∉ clusterSlots s (core / 4))).getD 0⟩ }).modGrid g
                fun y => { y with nextBlk := gr.nextBlk + (instBlocks gr.lrec (instOf gr.nextBlk)).length, owed := none }))) ∧
    (mget s.images id = some i → restoreNext s id core = some t →
      exec (.savedBlockRestore id core) s = .next (afterRestore t id i.gid)) ∧
    (s.grid g = some gr → gr.status = .saving → exec (.preemption g) s = .next (saveTree s g true false none)) ∧
    (s.grid g = some gr → gr.status ≠ .saving → exec (.preemption g) s = .next s) ∧
    (s.grid g = some gr → s.live g = true → gr.lrec.cmode = false → b < gr.lrec.grid → gr.nextBlk < gr.lrec.grid →
      (s.blocksOf g).map (·.1) ≠ [] → ((s.blocksOf g).map (·.1)).foldl max 0 = b →
      (∀ n ∈ (s.blocksOf g).map (·.1), blockWaits s g n = true) → (∀ c < 96, placeNext s g c = none) →
      exec (.forwardProgressSave g b) s =
        .next ((saveParts s g (fun n => decide (n = b)) false true false none).2.modGrid g fun y =>
          { y with owed := some gr.nextBlk })) ∧
    (s.grid g = some gr → s.live g = true → (∀ n ∈ (s.blocksOf g).map (·.1), blockWaits s g n = true) →
      (s.blocksOf g).map (·.1) ≠ [] → gr.lrec.grid ≤ b → freeGseq s = none →
      (∃ e ∈ s.launches, e.2.launcher = .parent g) →
      exec (.forwardProgressSave g b) s = .next (saveTree s g true false none)) ∧
    (mget s.images id = some i → i.csmWanted = true → i.grid = some gr →
      ∃ t j, exec (.csmPartCopyComplete id) s = .next t ∧ mget t.images id = some j ∧ j.csmPart = true ∧
        j.csmWanted = false ∧
        j.hdr = (i.hdr ||| BitVec.ofNat 512 (2 ^ 13)) + BitVec.ofNat 512 (gr.lrec.csm * 64 * 2 ^ 448)) ∧
    (s.grid g = some gr → s.team g b k = some x → x.exiting = true → s.acts (.team g b k) = true →
      (∀ f ∈ x.flags, f.count = 0) → (∀ f ∈ x.flags, f.faults = []) → x.storeQ = [] → x.loads = [] →
      s.scripted gr.ctx = false → stallsFull s gr.ctx = false →
      unpublished (publishAll s (.team g b k) gr.ctx (s.engineOf (.team g b k)) g b (instOf b)) (.team g b k) g b
        (instOf b) = false →
      returnFrames (.team g b k) 17 (publishAll s (.team g b k) gr.ctx (s.engineOf (.team g b k)) g b (instOf b)) = .all t →
      hashCheck t gr.ctx g b k = .inr u →
      exec (.teamRetire (.team g b k)) s = .next (notifyBlock (dropTeam u g b k) g b))

/-! ### CPC cores -/

/-- R356, R371 to R376, R381: an Xnov instruction of a running core completes with its effect and its value in rd, on a queue
that the core owns; on another queue it traps with cause 24 and leaves the queue as it stood. It rests on readings of the
model's own (log entries 26, 27, 70, 71, 72). -/
def Obligations.XnovInstructions : Prop :=
  ∀ (s t : State) (n q : Nat) (x : Cpc) (y : Queue) (j : JImg) (rs2 rs1 rd : BitVec 5) (w csn ka kb kc va v c : W64) (i : Instr)
    (f : State → Nat → Queue → JImg → DispRes) (key tier : Nat) (e : W64 × W64),
    cpcTurn s n x →
    (∀ p k, p = ((x.get rs2.toNat).extractLsb' 0 6).toNat →
      k = (if ((x.get rs2.toNat).extractLsb' 6 6).toNat = 0 then 64 else ((x.get rs2.toNat).extractLsb' 6 6).toNat) →
      (p + k ≤ 64 → exec (.kbfx rs2 rs1 rd) s =
        .next (xnovDone s n rd (BitVec.ofNat 64 ((x.get rs1.toNat).toNat / 2 ^ p % 2 ^ k)))) ∧
      (64 < p + k → exec (.kbfx rs2 rs1 rd) s = .next (s.modCpc n fun z => z.trap 25 (x.get rs2.toNat)))) ∧
    ((x.get rs1.toNat).toNat ≤ 15 → exec (.kroll rs2 rs1 rd) s = .next (xnovDone { s with
      rollcall := s.rollcall &&& ~~~(BitVec.setWidth 1024 ((s.rollcall &&& ownMask s n).extractLsb'
        (64 * (x.get rs1.toNat).toNat) 64) <<< (64 * (x.get rs1.toNat).toNat)) } n rd
        ((s.rollcall &&& ownMask s n).extractLsb' (64 * (x.get rs1.toNat).toNat) 64))) ∧
    (15 < (x.get rs1.toNat).toNat → exec (.kroll rs2 rs1 rd) s =
      .next (s.modCpc n fun z => z.trap 24 (x.get rs1.toNat))) ∧
    ((∀ z, mget s.queues (x.get rs1.toNat).toNat = some z → (x.get rs1.toNat).toNat < 1024 → z.core ≠ n) →
      ∀ i ∈ [Instr.kfetch rs2 rs1 rd, .kwait rs2 rs1 rd, .kdisp rs2 rs1 rd, .kjrnl rs2 rs1, .kjrnlR rs2 rs1 rd,
          .khold rs2 rs1 rd, .krel rs2 rs1 rd],
        exec i s = .next (s.modCpc n fun z => z.trap 24 (x.get rs1.toNat))) ∧
    ((x.get rs1.toNat).toNat = q → q < 1024 → mget s.queues q = some y → y.core = n →
      (y.newest = some j → unserved j = false → y.hasWork j = true → fetchCommand s y j = .word w →
        exec (.kfetch rs2 rs1 rd) s = .next (xnovDone (feedMonitors s 1 (Config.waited 1 s.clk)) n rd w)) ∧
      (y.newest = some j → unserved j = false → y.hasWork j = true → fetchCommand s y j = .bad →
        exec (.kfetch rs2 rs1 rd) s = .next (xnovDone (queueFault s q 4) n rd (BitVec.allOnes 64))) ∧
      (y.newest = none → ∀ i ∈ [Instr.kfetch rs2 rs1 rd] ++ (if (x.get rs2.toNat).toNat + 320 ≤ dmemBytes then
          [.kjrnl rs2 rs1] ++ (if n = 6 then [] else [.kjrnlR rs2 rs1 rd]) else []),
        exec i s = .next (s.modCpc n fun z => z.trap 26 (x.get rs1.toNat))) ∧
      (y.newest = none → n = 6 → (x.get rs2.toNat).toNat + 320 ≤ dmemBytes → exec (.kjrnlR rs2 rs1 rd) s =
        .next ((deviceError s 8).modCpc n fun z => z.trap 26 (x.get rs1.toNat))) ∧
      (y.newest = some j → unserved j = true → exec (.kfetch rs2 rs1 rd) s =
        .next (xnovDone s n rd (BitVec.allOnes 64))) ∧
      (x.dwords (x.get rs2.toNat) 3 = some [va, v, c] → c.toNat ≤ 6 → qPasses s y .load va key tier t →
        (waitCond c.toNat 8 (BitVec.ofNat 64 (readNat t.mem key 8)).toNat v.toNat = true →
          exec (.kwait rs2 rs1 rd) s = .next (xnovDone (hearSignal t (0x3000 + y.core) key) n rd 1)) ∧
        (waitCond c.toNat 8 (BitVec.ofNat 64 (readNat t.mem key 8)).toNat v.toNat = false →
          exec (.kwait rs2 rs1 rd) s = .next (xnovDone (t.modQueue q fun z => { z with
            armed := some ⟨va, v, c.setWidth 4, t.clk + 4096⟩ }) n rd 0))) ∧
      (x.dwords (x.get rs2.toNat) 3 = some [va, v, c] → 6 < c.toNat →
        exec (.kwait rs2 rs1 rd) s = .next (s.modCpc n fun z => z.trap 27 (x.get rs1.toNat))) ∧
      (x.dwords (x.get rs2.toNat) 5 = some [csn, w, ka, kb, kc] → y.newest.isSome = true →
        (y.window.find? (fun e => decide (e.1 = csn)) = some e →
          exec (.kdisp rs2 rs1 rd) s = .next (xnovDone s n rd e.2)) ∧
        (y.window.find? (fun e => decide (e.1 = csn)) = none → (∀ e ∈ y.window.head?, csn.toNat < e.1.toNat) → y.window ≠ [] →
          exec (.kdisp rs2 rs1 rd) s = .next (s.modCpc n fun z => z.trap 28 csn)) ∧
        (y.window.find? (fun e => decide (e.1 = csn)) = none → (∀ e ∈ y.window.head?, e.1.toNat ≤ csn.toNat) →
          decodeCmd w (ctlMode s y w ka) = some i → dispatchFn i ka kb kc = some f →
          (f s q y { y.img with csn := csn } = .done v t →
            exec (.kdisp rs2 rs1 rd) s = .next (xnovDone (enterWindow t q csn v) n rd v)) ∧
          (∀ code, f s q y { y.img with csn := csn } = .fault code t → exec (.kdisp rs2 rs1 rd) s =
            .next (xnovDone (queueFault (enterWindow t q csn (BitVec.ofNat 64 (2 ^ 63 + code))) q code) n rd
              (BitVec.ofNat 64 (2 ^ 63 + code)))))) ∧
      ((x.get rs2.toNat).toNat + 320 ≤ dmemBytes → y.newest.isSome = true → exec (.kjrnl rs2 rs1) s =
        .next (xnovDone (kjournal s q (jimgOf (readBytes x.dmem (x.get rs2.toNat).toNat 320))) n 0 0)) ∧
      ((x.get rs2.toNat).toNat + 320 ≤ dmemBytes → y.newest = some j → exec (.kjrnlR rs2 rs1 rd) s =
        .next (xnovDone (s.modCpc n fun z => { z with
          dmem := writeBytes z.dmem (x.get rs2.toNat).toNat (jimgBytes j) }) n rd (if y.written then 1 else 0))) ∧
      (dmemBytes < (x.get rs2.toNat).toNat + 320 → ∀ i ∈ [Instr.kjrnl rs2 rs1, .kjrnlR rs2 rs1 rd],
        exec i s = .next (s.modCpc n fun z => z.trap 29 (x.get rs2.toNat))) ∧
      exec (.khold rs2 rs1 rd) s = .next (xnovDone (s.modQueue q fun z => { z with held := true }) n rd
        (BitVec.ofNat 64 ((s.fifo.filter fun e => decide (e.queue = q)).length))) ∧
      exec (.krel rs2 rs1 rd) s = .next (xnovDone (settleWaiting (releaseFifo s q).2) n rd
        (BitVec.ofNat 64 (releaseFifo s q).1)))

/-- R13, R376, R382, R412: a running CPC core completes an ordinary instruction or takes its trap; a word with an
uncorrectable error stops it: its queues go to the substitute, and where the substitute or the registrar fails the device
is in error. It rests on readings of the model's own (log entries 13, 74, 83). -/
def Obligations.CpcCores : Prop :=
  ∀ (s : State) (n a : Nat) (x y : Cpc) (w : BitVec 32) (c : Nat) (v : W64),
    (cpcTurn s n x → rvWord x n s.clk w.toNat = .inr y →
      exec (.cpcCoreInstruction w) s = .next { s with cpcs := mset s.cpcs n { y with mcycle := y.mcycle + 1 } }) ∧
    (cpcTurn s n x → rvWord x n s.clk w.toNat = .inl (c, v) →
      exec (.cpcCoreInstruction w) s = .next { s with cpcs := mset s.cpcs n (x.trap c v) }) ∧
    (n < 8 → a < imemBytes → exec (.eccInjection n a) s =
      .next (s.modCpc n fun z => { z with badWord := some (a / 4 * 4) })) ∧
    (mget s.cpcs n = some x → x.stopped = false → s.reg.isDead = false → n = 6 ∨ n = 7 →
      ∃ t, exec (.cpcImemUncorrectable n) s = .next t ∧ t.reg.ready.error = (if n = 7 then 9 else 8) ∧
        t.reg.isReady = false ∧ (∀ m z, mget t.cpcs m = some z → m < 7 → z.stopped = true) ∧
        (∀ q z, mget t.queues q = some z → z.held = true) ∧ t.mem = s.mem) ∧
    (mget s.cpcs n = some x → x.stopped = false → n < 6 →
      ∃ t z, exec (.cpcImemUncorrectable n) s = .next t ∧ mget t.cpcs n = some z ∧ z.stopped = true ∧ z.hardTrap = true ∧
        z.mcause = 19 ∧ z.mepc = x.pc ∧ t.mem = s.mem)

/-! ### The management path -/

/-- R231, R353, R383 to R385, R395, R398 to R400, R404: a request to a device that is ready is carried out where its
operands pass the registrar's checks, and is named wrong where they do not; a device that is not ready answers without
effect. It rests on readings of the model's own (log entry 75). -/
def Obligations.ManagementRequests : Prop :=
  ∀ (s : State) (p e dev part q fn space m core vec us k : Nat) (rec : BitVec 512) (ring first last csn : W64)
    (key : BitVec 8) (n : BitVec 10) (inb : Bool) (x : Part) (ent : BitVec 256) (bs : List Byte),
    s.reg.isReady = true →
    (p < 24 → mget s.parts p = none → recordFault s p rec = none →
      exec (.partitionCreate p rec) s = .next (State.answer { s with parts := mset s.parts p (Part.fresh rec) } 0 [0])) ∧
    (p < 24 → mget s.parts p = none → recordFault s p rec = some k →
      exec (.partitionCreate p rec) s = .next (s.answer k [1])) ∧
    (mget s.parts p = some x → recordFault s p rec = none →
      (sameSplit x.record rec = true → exec (.partitionChange p rec) s =
        .next (State.answer { s with parts := mset s.parts p { x with record := rec } } 0 [0])) ∧
      (sameSplit x.record rec = false → exec (.partitionChange p rec) s = .next (s.answer 8 [1]))) ∧
    (mget s.parts p = some x → exec (.partitionDestroy p) s =
      .next ((removePart (abortPart (recallLent s p) p) p).answer 0 [0])) ∧
    (mget s.queues q = none → mget s.parts part = some x → x.available = true → q < 1024 → fn = 0 ∨ fn = part + 1 → space < 4 →
      m ≤ 11 → core ≤ 5 → vec < vecCount fn → ring.toNat % 8 = 0 → inTier x.record 0 ring.toNat (8 * 2 ^ (m + 6)) = true →
      ∃ t y, exec (.queueCreate q fn part space m core vec ring) s = .next t ∧ mget t.queues q = some y ∧ y.fn = fn ∧
        y.part = part ∧ y.space = space ∧ y.m = m ∧ y.core = core ∧ y.vector = vec ∧ y.ring = ring.toNat ∧ y.wptr = 0 ∧
        y.img = JImg.initial ∧ y.window = [] ∧ y.held = false ∧ t.mem = s.mem) ∧
    (∀ r : RegenEnt, mget s.parts p = some x → e < 64 → (ent.extractLsb' 0 16).toNat = 0 →
      r = ⟨ent.extractLsb' 0 64, ent.extractLsb' 64 64, ent.extractLsb' 128 64, ent.extractLsb' 192 64⟩ →
      exec (.regenerationTableWrite p e ent) s = .next (State.answer { s with
        parts := mmod s.parts p fun y => { y with regen := mset y.regen e r } } 0 [0])) ∧
    (mget s.parts p = some x → (inb = true → e < 8) → dev < 1024 → exec (.messageEndpointBind p e inb dev part q csn) s =
      .next (State.answer { s with parts := mmod s.parts p fun y => { y with
        ends := mset y.ends (if inb then e else 8 + e) ⟨inb, dev, part, q, csn⟩ } } 0 [0])) ∧
    (mget s.parts p = some x → e < 16 → exec (.importTableWrite p e dev part first last key) s =
      .next (State.answer { s with parts := mmod s.parts p fun y => { y with
        imports := mset y.imports e ⟨dev, part, first, last, key⟩ } } 0 [0])) ∧
    exec (.deviceNumberAssign n) s = .next ((s.modReg fun r => { r with devno := n }).answer 0 [0]) ∧
    (1 ≤ us → us ≤ 1000 → exec (.deadlockTimeoutSet us) s = .next ((s.modReg fun r => { r with deadlockUs := us }).answer 0 [0])) ∧
    (us = 0 ∨ 1000 < us → exec (.deadlockTimeoutSet us) s = .next (s.answer 0x101 [])) ∧
    (mget s.parts p = some x → x.session.isSome = true → inKeySet x.record key.toNat = true →
      exec (.tenantKeyLoad p key bs) s = .next (State.answer { s with
        parts := mset s.parts p { x with keys := mset x.keys key.toNat (Config.unwrapKey (x.session.getD 0) bs) } } 0 [0])) ∧
    (∀ i ∈ [Instr.partitionCreate p rec, .partitionChange p rec, .partitionDestroy p,
        .queueCreate q fn part space m core vec ring, .regenerationTableWrite p e ent,
        .messageEndpointBind p e inb dev part q csn, .importTableWrite p e dev part first last key, .deviceNumberAssign n,
        .deadlockTimeoutSet us, .tenantKeyLoad p key bs, .queueExport q, .queueImport q part bs, .hostRevoke p],
      ∀ t, t.reg.isReady = false → exec i t = .next (t.answer 0x100 []))

/-- R387 to R389, R401, R408: queues leave and enter as images, an idle margin cluster is lent, revoked and returned, a
turnover scrubs a partition's ranges of both tiers, with their key tags and poison, and frees it where the image verifies
and the exam passes; where either does not, the partition stays unavailable. It rests on readings of the model's own (log
entries 28, 81). -/
def Obligations.TenantsAndLending : Prop :=
  ∀ (s u : State) (q part cl l p b : Nat) (x : Queue) (y z : Part) (img fw : List Byte) (e : Nat × Part) (images full : Bool),
    (s.reg.isReady = true → mget s.queues q = some x →
      (x.held = false → ∃ t u, exec (.queueExport q) s = .next t ∧ t.reg.mgmt = queueImage x ∧ mget t.queues q = some u ∧
        u.img = { x.img with state := 0 } ∧ u.disabled = true ∧ u.armed = none ∧ t.mem = s.mem) ∧
      (x.held = true → exec (.queueExport q) s = .next (s.answer 0x102 [])) ∧
      (x.part = part → img.length = 448 → ∃ t u, exec (.queueImport q part img) s = .next t ∧ mget t.queues q = some u ∧
        u.img = jimgOf (img.take 320) ∧ u.disabled = false ∧ u.wptr = BitVec.ofNat 32 (bytesNat ((img.drop 408).take 4)) ∧
        t.mem = s.mem)) ∧
    (lenderOf s cl = some (l, y) → clusterIdle s cl = true → mget y.lent cl = none →
      (s.parts.find? fun e => decide (e.1 ≠ l) && e.2.record.getLsbD 25 && y.record.getLsbD (96 + e.1) &&
        blockPending s e.1) = some e →
      exec (.clusterLend cl) s = .next ((State.raise { s with
        parts := mmod s.parts l fun y => { y with lent := mset y.lent cl e.1 } } (l + 1) 0).raise (e.1 + 1) 0)) ∧
    (lenderOf s cl = some (l, y) → mget y.lent cl = some b → cl ∉ y.revoking → wouldHold s cl l = true →
      exec (.clusterRevoke cl) s = .next (revoke s cl l)) ∧
    (s.reg.isReady = true → lenderOf s cl = some (l, y) → mget y.lent cl = some b → cl ∉ y.revoking →
      exec (.hostRevoke cl) s = .next ((revoke s cl l).answer 0 [0])) ∧
    (lenderOf s cl = some (l, y) → mget y.lent cl = some b → cl ∈ y.revoking → clusterIdle s cl = true →
      ∃ t, exec (.revocationReturn cl) s = .next t ∧ (∀ z, mget t.parts l = some z → mget z.lent cl = none ∧ cl ∉ z.revoking) ∧
        (∀ c ∈ t.icache, c.core / 4 ≠ cl) ∧ t.mem = s.mem) ∧
    (mget s.parts p = none → exec (.turnover p images full fw) s = .next (s.answer 0x101 [])) ∧
    (mget s.parts p = some z → s.reg.isReady = true → u = scrubPart (emptyPart s p images) p z →
      ∃ t, exec (.turnover p images full fw) s = .next t ∧
        (∀ tier ∈ [0, 1], ∀ a n k, tierRange z.record tier = (a, n) → memKey tier a ≤ k → k < memKey tier a + n →
          byteAt t.mem k = 0) ∧
        (∀ tier ∈ [0, 1], ∀ a n k, tierRange z.record tier = (a, n) → memKey tier a ≤ k * 65536 →
          k * 65536 < memKey tier a + n → mget t.keyTags k = none) ∧
        (∀ tier ∈ [0, 1], ∀ a n k, tierRange z.record tier = (a, n) → memKey tier a ≤ k * 64 →
          k * 64 < memKey tier a + n → k ∉ t.poison) ∧
        (firmwareBad u.reg fw = false → Config.stepOk (Config.freeNat u.seed) = true →
          mget t.parts p = none ∧ ∀ q y, mget t.queues q = some y → y.part ≠ p) ∧
        (firmwareBad u.reg fw = true ∨ Config.stepOk (Config.freeNat u.seed) = false →
          ∃ y, mget t.parts p = some y ∧ y.available = false ∧ y.keys = [] ∧ y.session = none))

/-- R403 to R406, R409, R410: the boot ROM's steps set the bits of READY in order, a refused configuration or image is an
error, a power-on brings the machine to its reset state, the exam sets bit 7, and one that fails makes the partition
unavailable. It rests on readings of the model's own (log entries 76, 80, 82). -/
def Obligations.BringUp : Prop :=
  ∀ (s : State) (bs : List Byte) (p : Nat) (full : Bool),
    (6 ≤ s.reg.step → exec .powerOnReset s = .next { State.reset with
      turn := s.turn, seed := s.seed, inputs := s.inputs, nextId := s.nextId, outbox := s.outbox }) ∧
    (s.reg.step = 0 → s.reg.config = some bs → Config.signatureOk bs = true → Config.configOk bs = true →
      ∃ t, exec .powerOnReset s = .next t ∧ t.reg.ready.bits = s.reg.ready.bits ||| 1 ∧ t.reg.step = 1 ∧
        t.reg.verified = some bs ∧ t.reg.identity = some (Config.identityKey bs)) ∧
    (s.reg.step = 0 → s.reg.config = some bs → Config.signatureOk bs = false →
      ∃ t, exec .powerOnReset s = .next t ∧ t.reg.ready.bits = s.reg.ready.bits ∧ t.reg.ready.error = 1 ∧ t.reg.step = 7) ∧
    (s.reg.step = 1 → Config.stepOk (Config.freeNat s.seed) = true →
      ∃ t, exec .powerOnReset s = .next t ∧ t.reg.ready.bits = s.reg.ready.bits ||| 14 ∧ t.reg.step = 2) ∧
    (s.reg.step = 1 ∨ s.reg.step = 2 → Config.stepOk (Config.freeNat s.seed) = false →
      ∃ t, exec .powerOnReset s = .next t ∧ t.reg.ready.bits = s.reg.ready.bits ∧
        t.reg.ready.error = (if s.reg.step = 1 then 3 else 4) ∧ t.reg.step = 7) ∧
    (s.reg.step = 2 → Config.stepOk (Config.freeNat s.seed) = true →
      ∃ t, exec .powerOnReset s = .next t ∧ (∀ k, k < memKey 2 0 ∨ memKey 4 0 ≤ k → byteAt t.mem k = 0) ∧
        (∀ k, memKey 2 0 ≤ k → k < memKey 4 0 → byteAt t.mem k = byteAt s.mem k) ∧
        (∀ k ∈ t.poison, memKey 2 0 ≤ k * 64 ∧ k * 64 < memKey 4 0) ∧ t.keyTags = [] ∧
        t.reg.ready.bits = s.reg.ready.bits ||| 16 ∧ t.reg.step = 3) ∧
    (s.reg.step = 3 → s.reg.image = some bs → firmwareBad s.reg bs = false →
      ∃ t, exec .powerOnReset s = .next t ∧ t.reg.firmware = some (parseFirmware bs) ∧
        t.reg.ready.bits = s.reg.ready.bits ||| 32 ∧ t.reg.step = 4) ∧
    (s.reg.step = 3 → s.reg.image = some bs → firmwareBad s.reg bs = true →
      ∃ t, exec .powerOnReset s = .next t ∧ t.reg.ready.bits = s.reg.ready.bits ∧ t.reg.ready.error = 2 ∧ t.reg.step = 7 ∧
        t.cpcs = s.cpcs) ∧
    (s.reg.step = 4 → ∃ t, exec .powerOnReset s = .next t ∧ t.reg.ready.bits = s.reg.ready.bits ||| 64 ∧ t.reg.step = 5) ∧
    exec (.configurationLoad bs) s = .next (s.modReg fun r => { r with config := some bs }) ∧
    (s.reg.step = 5 → ∃ t, exec .powerOnReset s = .next t ∧ (Config.stepOk (Config.freeNat s.seed) = true →
        t.reg.ready.bits = s.reg.ready.bits ||| 128 ∧ t.reg.exam = 1 ∧ t.reg.step = 6) ∧
      (Config.stepOk (Config.freeNat s.seed) = false →
        t.reg.ready.bits = s.reg.ready.bits &&& 127 ∧ t.reg.ready.error = 5 ∧ t.reg.step = 7)) ∧
    (s.reg.isDead = true → exec (.firmwareLoad bs) s = .next s) ∧
    (s.reg.isDead = false → s.reg.step < 4 → exec (.firmwareLoad bs) s =
      .next (s.modReg fun r => { r with image := some bs })) ∧
    (s.reg.isDead = false → 4 ≤ s.reg.step →
      (firmwareBad s.reg bs = true → exec (.firmwareLoad bs) s = .next (s.modReg fun r => setError r 2)) ∧
      (firmwareBad s.reg bs = false → (s.reg.firmware.map (·.digest)) = some (parseFirmware bs).digest →
        exec (.firmwareLoad bs) s = .next (s.modReg imageGood)) ∧
      (firmwareBad s.reg bs = false → (s.reg.firmware.map (·.digest)) ≠ some (parseFirmware bs).digest →
        exec (.firmwareLoad bs) s = .next (s.modReg fun r => imageGood { r with staged := some (parseFirmware bs) }))) ∧
    (s.reg.isReady = true ∨ examWaits s.reg = true → ∃ t, exec (.examRequest p full) s = .next t ∧
      (Config.stepOk (Config.freeNat s.seed) = true → t.reg.ready.bits = s.reg.ready.bits ||| 128 ∧ t.reg.exam = 1 ∧
        (∀ x, mget s.parts p = some x → mget t.parts p = if x.available then some x else none)) ∧
      (Config.stepOk (Config.freeNat s.seed) = false → t.reg.ready.bits = s.reg.ready.bits &&& 127 ∧ t.reg.ready.error = 5 ∧
        (∀ x, mget s.parts p = some x → mget t.parts p = some { x with available := false }))) ∧
    (s.reg.isReady = false → examWaits s.reg = false → exec (.examRequest p full) s = .next (s.answer 0x100 []))

/-- R345, R346, R395, R397, R411, R412: a sample of the rails enters the last 100, throttles where a mean over them or the
temperature passes its limit until all are below, writes a health event where a limit is newly passed, and is device error 6
where a rail or the temperature leaves its range; a monitor is answered, and cleared where that is asked; the health log is
read; a frame error counts a retry and, at the sixteenth within 2^20 clk or where a lane's counter crosses its limit, has its
link retrain; a retraining link comes back at half width, or goes down, which between die and IO is device error 7; a flow
enters the escape channel and leaves it 1 µs later at the earliest. A registrar that has stopped samples nothing. It rests on
readings of the model's own (log entries 73, 74, 78, 79, 108). -/
def Obligations.HealthAndLinks : Prop :=
  ∀ (s : State) (c w temp volt k flow m since : Nat) (x : Link) (y : Monitor) (clear : Bool)
    (rails : List (Nat × Nat × Nat × Nat)) (overI overP hot : List (Nat × Nat × Nat × Nat) → Bool) (below past bad burst : Bool)
    (recent : List Nat),
    (s.reg.isDead = true → exec (.railSample c w temp volt) s = .next s) ∧
    (s.reg.isDead = false → rails = ((c, w, temp, volt) :: s.reg.rails).take 100 →
      (∀ l, overI l = decide (3600000 < railMean l (·.1)) ∧ overP l = decide (1800000 < railMean l (·.2.1)) ∧
        hot l = decide (105 * 8 < (l.head?.map (·.2.2.1)).getD 0)) →
      below = decide (railMean rails (·.1) < 3600000 ∧ railMean rails (·.2.1) < 1800000 ∧ temp < 105 * 8) →
      past = ((overI rails && !(overI s.reg.rails)) || (overP rails && !(overP s.reg.rails))) →
      bad = decide (volt < 370 ∨ 115 * 8 < temp) →
      ∃ t, exec (.railSample c w temp volt) s = .next t ∧ t.mem = s.mem ∧ t.teams = s.teams ∧ t.reg.rails = rails ∧
        t.reg.throttle = (overI rails || overP rails || hot rails || (s.reg.throttle && !below)) ∧
        t.reg.ready.bits = s.reg.ready.bits ∧ t.reg.ready.error = (if bad then 6 else s.reg.ready.error) ∧
        t.reg.healthSerial = s.reg.healthSerial + (if past then 1 else 0) +
          (if hot rails && !(hot s.reg.rails) then 1 else 0) + (if bad then 1 else 0) ∧
        (∀ p, (mget t.parts p).map (·.energy) = (mget s.parts p).map fun z => z.energy + Config.freeWord (Config.freeNat s.seed + p)) ∧
        (bad = false → t.grids = s.grids ∧ t.queues = s.queues ∧ t.cpcs = s.cpcs) ∧
        (bad = true → (∀ q z, mget t.queues q = some z → z.held = true) ∧
          ∀ n z, mget t.cpcs n = some z → n < 7 → z.stopped = true)) ∧
    (s.reg.isReady = true → s.reg.monitors[m]? = some y →
      ∃ t, exec (.healthMonitorReadClear m clear) s = .next t ∧ t.mem = s.mem ∧
        t.reg.mgmt = Config.mgmtBytes 0 (natBytes 8 y.min ++ natBytes 8 y.max ++ natBytes 8 y.count.toNat ++
          y.bins.flatMap (natBytes 4)) ∧
        t.reg.monitors = (if clear then s.reg.monitors.set m Monitor.reset else s.reg.monitors)) ∧
    (s.reg.isReady = true → s.reg.monitors[m]? = none →
      exec (.healthMonitorReadClear m clear) s = .next (s.answer 0x101 [])) ∧
    (s.reg.isReady = true → exec .healthLogRead s =
      .next (s.modReg fun r => { r with mgmt := r.health.flatten ++ natBytes 8 r.overwritten.toNat })) ∧
    (s.reg.isReady = false → exec (.healthMonitorReadClear m clear) s = .next (s.answer 0x100 []) ∧
      exec .healthLogRead s = .next (s.answer 0x100 [])) ∧
    (mget s.links k = some x → s.reg.isDead = false → recent = s.clk :: x.recent s.clk →
      burst = (decide (16 ≤ recent.length) && !x.retraining) →
      (x.up = true → ∃ t, exec (.linkFrameError k) s = .next t ∧ mget t.links k = some { x with
          replays := recent, retries := x.retries + 1
          retraining := x.retraining || burst || Config.laneOver (Config.freeNat s.seed) } ∧
        t.mem = s.mem ∧ t.outbox = s.outbox ∧ t.parts = s.parts ∧
        t.reg.monitors = (feedMonitors s 2 recent.length).reg.monitors ∧
        t.reg.healthSerial = s.reg.healthSerial + (if burst then 1 else 0)) ∧
      (x.up = false → exec (.linkFrameError k) s = .next s)) ∧
    (mget s.links k = some x → s.reg.isDead = false → x.retraining = true →
      (x.half = false → ∃ t, exec (.linkRetrainComplete k true) s = .next t ∧ t.mem = s.mem ∧
        mget t.links k = some { x with half := true, retraining := false, replays := [] } ∧
        t.reg.monitors = (feedMonitors s 2 (x.recent s.clk).length).reg.monitors ∧
        t.reg.ready = s.reg.ready ∧ t.reg.healthSerial = s.reg.healthSerial + 1) ∧
      (∀ good : Bool, good = false ∨ x.half = true → ∃ t, exec (.linkRetrainComplete k good) s = .next t ∧ t.mem = s.mem ∧
        mget t.links k = some { x with up := false, retraining := false } ∧
        t.reg.monitors = (feedMonitors s 2 (x.recent s.clk).length).reg.monitors ∧
        t.reg.ready.error = (if 18 ≤ k then 7 else s.reg.ready.error) ∧
        (18 ≤ k → ∀ q z, mget t.queues q = some z → z.held = true))) ∧
    (mget s.flows flow = none → exec (.deadlockTimeout flow) s = .next { s with flows := mset s.flows flow s.clk } ∧
      exec (.escapeReturn flow) s = .next s) ∧
    (mget s.flows flow = some since → exec (.deadlockTimeout flow) s = .next s ∧
      (s.clk < since + 850 → exec (.escapeReturn flow) s = .next s) ∧
      (since + 850 ≤ s.clk → ∃ t, exec (.escapeReturn flow) s = .next t ∧ t.flows = mdel s.flows flow ∧ t.mem = s.mem ∧
        t.parts = s.parts ∧ t.links = s.links))

/-- R407: the responder, which has its identity key and runs, answers SPDM requests in their order and extends the transcript
with each, what it measured or is asked for and its key being covered by the answer; one out of order changes neither the
session nor the transcript; a FINISH that verifies gives the partition its session. It rests on readings of the model's own
(log entry 76). -/
def Obligations.Attestation : Prop :=
  ∀ (s : State) (p idx off len : Nat) (bs : List Byte),
    (s.reg.attests = false → ∀ i ∈ [Instr.getVersion, .getCapabilities, .negotiateAlgorithms bs, .getDigests,
        .getCertificate off len, .challenge bs, .getMeasurements p idx bs, .keyExchange p bs, .finish bs],
      exec i s = .next s) ∧
    (s.reg.attests = true →
      (∃ t, exec .getVersion s = .next t ∧ t.reg.spdmState = 1 ∧ t.reg.transcript = 0 :: t.reg.spdm ∧
        t.reg.spdm = Config.spdmBytes 0 (s.reg.identity.getD [] ++ [0])) ∧
      (s.reg.spdmState = 1 → ∃ t, exec .getCapabilities s = .next t ∧ t.reg.spdmState = 2) ∧
      (s.reg.spdmState = 2 → ∃ t, exec (.negotiateAlgorithms bs) s = .next t ∧ t.reg.spdmState = 3) ∧
      (3 ≤ s.reg.spdmState → ∀ i ∈ [Instr.getDigests, .getCertificate off len, .challenge bs, .getMeasurements p idx bs],
        ∃ t, exec i s = .next t ∧ t.reg.spdmState = s.reg.spdmState ∧ s.reg.transcript <+: t.reg.transcript ∧
          t.reg.spdm <:+ t.reg.transcript ∧ t.mem = s.mem ∧ t.parts = s.parts) ∧
      (3 ≤ s.reg.spdmState → ∃ t, exec (.getMeasurements p idx bs) s = .next t ∧
        t.reg.spdm = Config.spdmBytes 6 (s.reg.identity.getD [] ++
          (if idx = 0xFF then (List.range 6).flatMap (measured s p) else measured s p idx) ++
          s.reg.transcript ++ 6 :: (natBytes 4 idx ++ bs))) ∧
      (3 ≤ s.reg.spdmState → ∃ t, exec (.keyExchange p bs) s = .next t ∧ t.reg.spdmState = 8 + p) ∧
      (8 ≤ s.reg.spdmState → Config.finishOk (s.reg.transcript ++ bs) = true →
        ∃ t, exec (.finish bs) s = .next t ∧ t.reg.spdmState = 3 ∧ t.parts = mmod s.parts (s.reg.spdmState - 8) fun x =>
          { x with session := some (Config.freeNat s.seed) }) ∧
      (8 ≤ s.reg.spdmState → Config.finishOk (s.reg.transcript ++ bs) = false →
        ∃ t, exec (.finish bs) s = .next t ∧ t.parts = s.parts) ∧
      (s.reg.spdmState < 3 → ∀ i ∈ [Instr.getDigests, .getCertificate off len, .challenge bs, .getMeasurements p idx bs,
          .keyExchange p bs, .finish bs],
        ∃ t, exec i s = .next t ∧ t.reg.spdmState = s.reg.spdmState ∧ t.reg.transcript = s.reg.transcript ∧ t.parts = s.parts))

/-- R50, R227, R229, R237, R262, R285, R391, R398, R399: the host writes memory, reads a mailbox and unmasks a vector; a
peer's access that an import entry admits is performed under the tags of its frames, any other is answered with an error; a
message that no inbound entry names a grid for is dropped; an error of a peer tags what its load was to write, and drops a
store. The clause that ends in noSuchMemory, and the operands that the stop leaves out, are the model's own (log entry 4); the
rest rests on readings of its own too (log entries 15, 77, 111). -/
def Obligations.HostAndPeers : Prop :=
  ∀ (s : State) (tier : BitVec 2) (pa fn vec dev part target blk entry size timeout n g b t : Nat) (bs : List Byte)
    (words : List W32) (addr x c : W64) (o : BitVec 4)
    (im : ImportEnt) (y : Vector) (gr : Grid) (tm : Team) (st : StoreEnt) (rest : List StoreEnt) (l : LoadEnt) (lp : LoadPart),
    (pa + bs.length ≤ tierBytes tier.toNat → ∃ t, exec (.hostWrite tier pa bs) s = .next t ∧
      t.mem = writeBytes s.mem (memKey tier.toNat pa) bs ∧ t.icache = s.icache) ∧
    (tierBytes tier.toNat < pa + bs.length →
      exec (.hostWrite tier pa bs) s = .fault (.noSuchMemory (pa + bs.length - 1))) ∧
    (vec < vecCount fn → ∃ t, exec (.mailboxRead fn vec) s = .next t ∧
      (mget t.mailboxes (vecKey fn vec)).map (·.count) = some 0 ∧ t.mem = s.mem) ∧
    (fn < 25 → vec < vecCount fn → mget s.vectors (vecKey fn vec) = some y → y.pending = false →
      ∃ (t : State) (at_ : W64) (data : W32), exec (.msiXUnmask fn vec) s = .next t ∧ mget t.vectors (vecKey fn vec) = some { y with
          addr := at_, data := data, masked := false } ∧ t.outbox = s.outbox) ∧
    (fn < 25 → vec < vecCount fn → mget s.vectors (vecKey fn vec) = some y → y.pending = true →
      ∃ (t : State) (at_ : W64) (data : W32), exec (.msiXUnmask fn vec) s = .next t ∧ t.outbox = s.outbox ++ [.irq fn vec at_ data] ∧
        mget t.vectors (vecKey fn vec) = some { y with
          addr := at_, data := data, masked := false, pending := false, sent := y.sent + 1 }) ∧
    (∀ op ∈ [PeerOp.load n, .store bs, .atomic o n x c],
      (∀ k, importFor s dev part addr.toNat k = none) →
      exec (.peerAccess dev part addr op) s = .next (answerPeer s dev none)) ∧
    (inboundGrid s target dev part = none → exec (.peerAccess dev part addr (.msg target blk entry size timeout words)) s =
      .next (dropMsg s target)) ∧
    (∀ t a bd, peerByte addr.toNat = (t, a) → bd = ⟨tagKey t a, (a % 65536 + bs.length + 65535) / 65536, im.key, none⟩ →
      importFor s dev part addr.toNat bs.length = some im →
      ((∀ y ∈ tagsOf s bd, y.2 = ⟨im.key, false⟩) →
        exec (.peerAccess dev part addr (.store bs)) s = .next (setMem (bindTag s bd) (memKey t a) bs)) ∧
      ((∃ y ∈ tagsOf s bd, y.2.aliased = true) →
        exec (.peerAccess dev part addr (.store bs)) s = .next (answerPeer s dev none)) ∧
      ((∀ y ∈ tagsOf s bd, y.2.aliased = false) → (∃ y ∈ tagsOf s bd, y.2.key ≠ im.key) →
        exec (.peerAccess dev part addr (.store bs)) s = .next (answerPeer (setAliased s bd) dev none))) ∧
    (∀ t a bd v, peerByte addr.toNat = (t, a) → bd = ⟨tagKey t a, (a % 65536 + n + 65535) / 65536, im.key, none⟩ →
      importFor s dev part addr.toNat n = some im → (∀ y ∈ tagsOf s bd, y.2 = ⟨im.key, false⟩) → v = bindTag s bd →
      ((∀ i < n, poisoned s (memKey t a + i) = false) →
        exec (.peerAccess dev part addr (.load n)) s = .next (answerPeer v dev (some (readBytes s.mem (memKey t a) n))) ∧
        (∀ w, (peerRmw o x c).apply n (readNat s.mem (memKey t a) n) = some w →
          exec (.peerAccess dev part addr (.atomic o n x c)) s = .next (answerPeer (setMem v (memKey t a) (natBytes n w)) dev
            (some (natBytes n (readNat s.mem (memKey t a) n))))) ∧
        ((peerRmw o x c).apply n (readNat s.mem (memKey t a) n) = none →
          exec (.peerAccess dev part addr (.atomic o n x c)) s =
            .next (answerPeer v dev (some (natBytes n (readNat s.mem (memKey t a) n)))))) ∧
      ((∃ i < n, poisoned s (memKey t a + i) = true) →
        exec (.peerAccess dev part addr (.load n)) s = .next (answerPeer v dev none) ∧
        exec (.peerAccess dev part addr (.atomic o n x c)) s = .next (answerPeer v dev none))) ∧
    (s.grid g = some gr → s.team g b t = some tm → peerLoad tm addr = none → tm.storeQ = st :: rest → st.va = addr → st.tier = 3 →
      exec (.peerErrorResponse (.team g b t) addr) s =
        .next (dropPeerStore (popStore s (.team g b t)) gr tm.core addr)) ∧
    (s.grid g = some gr → s.team g b t = some tm → peerLoad tm addr = some (l, lp) → lp.key / 64 ∉ s.poison →
      exec (.peerErrorResponse (.team g b t) addr) s = .next (
        let u := { s with poison := sadd1 s.poison (lp.key / 64) }
        let v := turnAll (u.modTeam g b t fun y => landLoad u { y with loads := y.loads.filter fun k => decide (k ≠ l) } l)
          gr.ctx 2 l.grans (reqOf (.team g b t))
        { v with poison := sdel1 v.poison (lp.key / 64) })) ∧
    (∀ a bd u, s.grid g = some gr → s.team g b t = some tm → peerLoad tm addr = none → tm.storeQ = [] →
      translate s tm.core gr.part gr.space g .load addr.toNat = .ok 3 a bd → (∀ e ∈ s.copies, e.2.party ≠ .team g b t) →
      memKey 3 a / 64 ∉ s.poison →
      issueHere (.team g b t) { s with poison := sadd1 s.poison (memKey 3 a / 64) } = some u →
      issueHere (.team g b t) s ≠ some { u with poison := sdel1 u.poison (memKey 3 a / 64) } →
      exec (.peerErrorResponse (.team g b t) addr) s = .next { u with poison := sdel1 u.poison (memKey 3 a / 64) })

/-! ### Encodings -/

/-- R45, R55, R58 to R60, R63, R358, R371: words written out from the encoding tables decode to the instruction they stand
for; a reserved bit, a reserved scope code and an EXT word that is missing decode to none. -/
def Obligations.WordsDecode : Prop :=
  decodeWords [0x00000000#32] = some .nop ∧ decodeWords [0x00000001#32] = none ∧
  decodeWords [0x0101FFFF#32] = some (.bt .lane (.p 3) 0x3FFF#14) ∧ decodeWords [0x01A0C000#32] = none ∧
  decodeWords [0x05540005#32] = some (.callFrame .block 1#2 5#18) ∧
  decodeWords [0x0D022000#32] = some (.bar 2#7 4#5) ∧ decodeWords [0x10070000#32] = some (.trap 7#8) ∧
  decodeWords [0x14050607#32] = some (.iadd (.v 5) (.v 6) (.v 7)) ∧
  decodeWords [0x2E150203#32] = some (.icmp (.p 5) 1#2 (.v 2) (.v 3)) ∧
  decodeWords [0x5809201D#32] = some (.ld (.v 9) 4#5 (.v 3) .w true) ∧
  decodeWords [0x700A0810#32] = some (.mma 1#5 2#3 (.v 8) (.v 16)) ∧
  decodeWords [0x78820010#32] = some (.csrr (.s 2) 1#12) ∧
  decodeXnov 0x0011018B#32 = some (.kfetch 1#5 2#5 3#5) ∧
  decodeCmd 0x0312300000000000#64 0 = some (.add 1#4 2#4 3#4) ∧
  decodeCmd 0x1840000000000502#64 0 = some (.ctrlFreeze 4#4 5#4) ∧ decodeCmd 0x0700000000000000#64 0 = none

/-- R45 to R62: every member of a packet decodes back from its words, whatever its operands. -/
def Obligations.MembersRoundTrip : Prop := ∀ i : Instr, pipeOf i ≠ none → decodeWords (encode i) = some i

/-- R357, R358, R359, R369, R371: every queue command decodes back from its word, with the mode of its control block where that
tells rows apart, and every Xnov instruction from its own. -/
def Obligations.CommandsRoundTrip : Prop :=
  (∀ (i : Instr) (w : W64), encodeCmd i = some w →
    (∀ a b c imm, i = .br a b c imm → c.toNat ≤ 6) → (∀ a b c, i = .wait a b c → c.toNat ≤ 6) →
    decodeCmd w (match i with
      | .ctrlDisposeStep .. | .ctrlReplayToWindow .. => 1
      | .ctrlDisposeAbort .. | .ctrlReplayPerturb .. => 2
      | _ => 0) = some i) ∧
  (∀ (t s d : BitVec 5), ∀ i ∈ [Instr.kfetch t s d, .kbfx t s d, .kwait t s d, .kdisp t s d, .kjrnl t s, .kjrnlR t s d,
      .khold t s d, .krel t s d, .kroll t s d], ∃ w, encode i = [w] ∧ decodeCpc w = i)

/-- R45, R55, R58, R358: no bit of a word is dropped: words that decode to a member, with chain bit 0, are the words that it encodes
to, and the same holds of queue commands. -/
def Obligations.NoBitIsDropped : Prop :=
  (∀ (ws : List W32) (i : Instr), (∀ w ∈ ws, w.getLsbD 31 = false) → decodeWords ws = some i → encode i = ws) ∧
  (∀ (w m : W64) (i : Instr), decodeCmd w m = some i → encodeCmd i = some w)

/-! ### The step -/

/-- R46 to R66, R357, R370, R371: a step runs the instruction that the bytes of its turn's holder decode to: a party's
packet at its PC, a queue's command once its core has read the roll call, a CPC core's word, an event; with a free turn it lets
time pass and chooses. It rests on readings of the model's own (log entries 1, 5, 49). -/
def Obligations.StepRunsInstruction : Prop :=
  ∀ (s t : State) (p : Party) (gr : Grid) (ws : List W32) (m : Member) (q n k : Nat) (x : Queue) (j : JImg) (w : W64) (i : Instr)
    (y : Cpc) (u : W32),
    (s.turn = .party p → s.grid p.gridNo = some gr → canIssue s p = true → atEnd s p gr = false →
      fetchPacket s p gr = .words ws t → decodePacket (pcSlot (t.pcOf p)) ws = .ok [m] → m.badChain = false →
      step s = match exec m.ins t with
        | .next u => .next (afterStep u)
        | r => r) ∧
    (queueTurn s q x j → fetchCommand s x j = .word w → t = feedMonitors (takeRoll s x.core (q / 64)).2 1 (Config.waited 1 s.clk) →
      decodeCmd w (ctlMode t x w (j.reg (w.extractLsb' 52 4).toNat)) = some i →
      step s = match exec i t with
        | .next u => .next (afterStep u)
        | r => r) ∧
    (queueTurn s q x j → fetchCommand s x j = .bad → step s = .next (afterStep (queueFault s q 4))) ∧
    (cpcTurn s n y → y.trigger ≠ some y.pc → cpcFetch s n = some (.word u) →
      step s = match exec (decodeCpc u) s with
        | .next u => .next (afterStep u)
        | r => r) ∧
    (s.turn = .event i → step s = match exec i s with
      | .next u => .next (afterStep u)
      | r => r) ∧
    (s.turn = .free → step s = .next (choose s)) ∧
    (∀ b c d, ws = [u, b, c] → u.getLsbD 31 = false → majorOf b ≠ 0x7F#7 → decodeWords [u] = some d →
      decodePacket 0 ws = .ok [⟨0, 1, d, false⟩]) ∧
    (k < 3 → ws.length = 3 → ws[k]? = some u → u.getLsbD 31 = false → extUse (majorOf u) = .never →
      decodeWords [u] = some i → decodePacket k ws = .ok [⟨k, 1, i, false⟩])

/-- R328, R403, R404: right after reset nothing is loaded and READY is 0; no partition, queue, grid or team stands, memory
is clear, clocks are zero, the CPC cores are stopped. That memory reads 0 before the scrub of R403 is the model's choice (log
entry 6). -/
def Obligations.ResetState : Prop :=
  State.reset.mem = [] ∧ State.reset.grids = [] ∧ State.reset.teams = [] ∧ State.reset.queues = [] ∧ State.reset.parts = [] ∧
  State.reset.reg.ready.bits = 0 ∧ State.reset.reg.ready.error = 0 ∧ State.reset.reg.isReady = false ∧
  State.reset.reg.step = 0 ∧ (∀ e, State.reset.clock e = 0) ∧ (∀ n < 8, (mget State.reset.cpcs n).map (·.stopped) = some true) ∧
  (∀ a, byteAt State.reset.mem a = 0) ∧ (∃ t, step State.reset = .next t)

/-- The memory of the machine after reset stands in its canonical form (the model's own, log entry 30). -/
def Obligations.InvariantAtReset : Prop := Inv State.reset

/-- Every step keeps the memory in its canonical form (the model's own, log entry 30). -/
def Obligations.InvariantKept : Prop := ∀ s t : State, Inv s → step s = .next t → Inv t

/-! ### Faults -/

/-- R64, R291, R292, R294, R296: a fault stops its party with one record, which takes the context's next serial and is written
to the entry of the fault buffer that the serial names, or held where that is not free; a word that is no instruction
raises 0x01, behind the breakpoint there. -/
def Obligations.FaultEntry : Prop :=
  ∀ (s : State) (p : Party) (f : FInfo) (gr : Grid) (c : Ctx) (q : Machine.Seq) (r : BitVec 512) (pc : W32),
    s.grid p.gridNo = some gr → mget s.ctxs gr.ctx = some c → s.seqOf p = some q →
    pc = f.pc.getD (mkPc (pcPkt (s.pcOf p)) f.slot) →
    r = faultRecord (s.clock (s.engineOf p) + 1) gr.csn gr.queue pc (((q.tok).map fun t => t.seq.toNat).getD 0) (s.engineOf p) p
      (s.detachedOf p) c.fserial gr.depth f →
    (∃ z, (takeFault s p f).seqOf p = some z ∧ z.stop = some ⟨r, c.fserial, (keptAlone f q.alone).kind⟩ ∧
      z.wait = keptWait q.wait ∧ z.stepping = false ∧ z.alone = none ∧ canIssue (takeFault s p f) p = false) ∧
    ((mget (takeFault s p f).ctxs gr.ctx).map (·.fserial) = some (c.fserial + 1)) ∧
    (takeFault s p f).clock (s.engineOf p) = s.clock (s.engineOf p) + 1 ∧
    (c.heldRecs = [] → entryFree c c.fserial = true → c.flg2 ≠ 0 → savedStop s gr.ctx c.fserial = false →
      (c.conf = false → ∃ v, (takeFault s p f).outbox = s.outbox ++ v ∧ ∀ o ∈ v, ∃ a b w z, o = .irq a b w z) ∧
      readNat (takeFault s p f).mem (memKey 0 (c.fbase + 64 * (c.fserial % bufEntries c))) 64 = r.toNat ∧
      (∀ a, a < memKey 0 (c.fbase + 64 * (c.fserial % bufEntries c)) ∨
          memKey 0 (c.fbase + 64 * (c.fserial % bufEntries c)) + 64 ≤ a → byteAt (takeFault s p f).mem a = byteAt s.mem a)) ∧
    (c.heldRecs = [] → entryFree c c.fserial = false ∨ c.flg2 = 0 → (takeFault s p f).mem = s.mem ∧
      (mget (takeFault s p f).ctxs gr.ctx).map (·.heldRecs) = some [(c.fserial, r)]) ∧
    (s.turn = .party p → canIssue s p = true →
      (hitBrk gr p.scope (s.pcOf p) && decide (q.passBrk ≠ some (s.pcOf p))) = false →
      exec .illegalInstruction s = .next (takeFault s p { cls := 0x01, slot := pcSlot (s.pcOf p) })) ∧
    (s.turn = .party p → canIssue s p = true →
      (hitBrk gr p.scope (s.pcOf p) && decide (q.passBrk ≠ some (s.pcOf p))) = true →
      exec .illegalInstruction s = .next (takeFault s p { cls := 0x51, cause := 1, slot := pcSlot (s.pcOf p) }))

/-! ### Frames of the members -/

/-- R48, R52, R70, R82: how a team goes on after its chain: the running group moves to the next chain or to a transfer's target, a split
leaves two groups, a group that has exited is gone; nothing else of the team changes but what its members wrote. -/
def Obligations.TeamGoesOn : Prop :=
  ∀ (s st : State) (g b u : Nat) (i : Instr) (c : Cx) (tm : Team) (pc : W32) (m : Mask),
    ready s (.team g b u) i = some c → calm st (.team g b u) → st.team g b u = some tm → (fieldsOf i).srcs = [] →
    (∀ r ∈ [(MRes.ok st, addGroup (tm.groups.filter fun e => decide (e.1 ≠ c.pc)) (nextPc c.pkt c.last, c.act)),
        (MRes.jump st pc, addGroup (tm.groups.filter fun e => decide (e.1 ≠ c.pc)) (pc, c.act)),
        (MRes.split st m pc, addGroup (addGroup (tm.groups.filter fun e => decide (e.1 ≠ c.pc)) (pc, c.act &&& m))
          (nextPc c.pkt c.last, c.act &&& ~~~m))],
      ∃ x, (finish1 c i r.1).team g b u = some x ∧ x.groups = r.2 ∧ x.v = tm.v ∧ x.s = tm.s ∧ x.p = tm.p ∧ x.fpc = tm.fpc ∧
        x.exiting = false ∧ x.resume = none ∧ x.seq.chains = tm.seq.chains + 1 ∧ x.seq.wait = none ∧
        (finish1 c i r.1).mem = st.mem ∧ (finish1 c i r.1).frames = st.frames) ∧
    ((tm.groups.filter fun e => decide (e.1 ≠ c.pc)) ≠ [] → ∃ x, (finish1 c i (.gone st)).team g b u = some x ∧
      x.groups = (tm.groups.filter fun e => decide (e.1 ≠ c.pc)) ∧ x.exiting = false ∧ x.v = tm.v) ∧
    ((tm.groups.filter fun e => decide (e.1 ≠ c.pc)) = [] → ∃ x, (finish1 c i (.gone st)).team g b u = some x ∧
      x.groups = tm.groups ∧ x.exiting = true ∧ x.v = tm.v)

/-- R61, R120, R127, R128, R135, R174: what members that write registers leave alone: every register but the destination in the
active lanes, every scalar, predicate and byte of memory, every frame; a compare changes its predicate only, a scalar member
and a lift of TEAM scope its scalar only. Those that can fault do so with nothing said here. -/
def Obligations.RegisterFrame : Prop :=
  ∀ (s t : State) (g b u : Nat) (c : Cx) (d a e x : Operand) (n : Fin 48) (m : BitVec 4) (p p' : PredSel) (cc op kind qs : BitVec 2)
    (imm : BitVec 16) (imm24 : BitVec 24) (k pos w1 : BitVec 5) (flag sgn np nc : Bool) (fmt elem : BitVec 3) (cs cd : BitVec 4)
    (sel : BitVec 8),
    calm s (.team g b u) → teamNumbers b u →
    (∀ i ∈ [Instr.iadd d a e, .isub d a e, .imul d a e, .imulhs d a e, .imulhu d a e, .imin d a e, .imax d a e, .umin d a e,
        .umax d a e, .iabs d a, .iadds d a e, .and d a e, .or d a e, .xor d a e, .shl d a e, .shr d a e, .sar d a e, .popc d a,
        .clz d a, .mov d a, .imad d a e x 0, .movil d imm, .movih d imm, .bfx d a e flag pos sgn w1, .bfi d a e flag pos w1,
        .sel d a e p, .fcls d a sel, .pfxc d a op p],
      ready s (.team g b u) i = some c → exec i s = .next t → onlyWrites s t g b u c.lanes (destRegs d 1) [] [] [] ∧ fpcKept s t g b u) ∧
    (∀ i ∈ [Instr.imad d a e x 1, .imad d a e x 2], ready s (.team g b u) i = some c → exec i s = .next t →
      onlyWrites s t g b u c.lanes (destRegs d 2) [] [] [] ∧ fpcKept s t g b u) ∧
    (∀ i ∈ [Instr.fadd d a e, .fsub d a e, .fmul d a e, .ffma d a e x np nc, .fmin d a e, .fmax d a e, .frcp d a, .frsq d a,
        .fsqrt d a, .fex2 d a, .flg2 d a, .hadd2 d a e, .hmul2 d a e, .hfma2 d a e x np nc, .cvt d a cs cd,
        .cvtq d a e fmt kind elem, .frnd d a sel, .fscl d a e],
      ready s (.team g b u) i = some c → exec i s = .next t → onlyWrites s t g b u c.lanes (destRegs d 1) [] [] []) ∧
    (ready s (.team g b u) (.shfl d a e) = some c → exec (.shfl d a e) s = .next t →
      (t.seqOf (.team g b u)).bind (·.stop) = none → onlyWrites s t g b u c.lanes (destRegs d 1) [] [] []) ∧
    (∀ i ∈ [Instr.icmp (.p n) cc a e, .ucmp (.p n) cc a e, .plog op (.p n) qs p p'],
      ready s (.team g b u) i = some c → exec i s = .next t →
      onlyWrites s t g b u c.lanes [] [] [n.val] [] ∧ fpcKept s t g b u) ∧
    (ready s (.team g b u) (.fcmp (.p n) cc a e) = some c → exec (.fcmp (.p n) cc a e) s = .next t →
      onlyWrites s t g b u c.lanes [] [] [n.val] []) ∧
    (∀ i ∈ [Instr.icmp (.q m) cc a e, .ucmp (.q m) cc a e, .fcmp (.q m) cc a e, .scmp (.q m) cc a e, .plog op (.q m) qs p p'],
      ready s (.team g b u) i = some c → exec i s = .next t → onlyWrites s t g b u c.lanes [] [] [] [m.toNat]) ∧
    (∀ i ∈ [Instr.sadd (.s k) a e, .ssub (.s k) a e, .smul (.s k) a e, .sand (.s k) a e, .sor (.s k) a e, .sxor (.s k) a e,
        .sshl (.s k) a e, .sshr (.s k) a e, .smov (.s k) a, .smovi (.s k) imm, .smovx (.s k) a kind imm24, .actm (.s k) a sel,
        .vote (.s k) a kind p, .reduce (.s k) a sel],
      ready s (.team g b u) i = some c → exec i s = .next t →
      onlyWrites s t g b u c.lanes [] [k.toNat] [] [] ∧ fpcKept s t g b u) ∧
    (∀ i ∈ [Instr.rdfirst (.s k) a, .rdlane (.s k) a e], ready s (.team g b u) i = some c → exec i s = .next t →
      (t.seqOf (.team g b u)).bind (·.stop) = none → onlyWrites s t g b u c.lanes [] [k.toNat] [] [] ∧ fpcKept s t g b u)

/-- R132, R134, R237 to R244, R250, R253, R262 to R268, R359: every byte of memory but those stored to reads as before, and
those stored to read as what was stored: a load changes no byte, nor does a member that stores, which queues its store;
performing it, a bank operation, an atomic, a host's write and a queue's store change their own bytes. -/
def Obligations.MemoryFrame : Prop :=
  ∀ (s t : State) (g b k q key tier pa a : Nat) (gr : Grid) (tm : Team) (st : StoreEnt) (op : BitVec 4) (w : W64) (x : Queue) (j : JImg)
    (bs : List Byte) (ti : BitVec 2) (ka kb : BitVec 4) (imm : BitVec 44) (c : Cx) (d idx y z : Operand) (base : BitVec 5)
    (sz : Size) (sc sx tag : Bool) (ext : MemExt) (n1 : BitVec 3) (p : PredSel) (cnt1 : BitVec 7),
    (calm s (.team g b k) → (t.seqOf (.team g b k)).bind (·.stop) = none →
      ∀ i ∈ [Instr.st d base idx sz sc, .stExt d base idx sz sc ext, .ststr d base idx sz sc ext n1, .cpst d base idx sz sc ext p,
          .sts d base idx sz sc, .stsExt d base idx sz sc ext, .pmov true p base, .pmovExt true p base ext, .pushm d cnt1,
          .popm d cnt1, .bop base y z sx ext op, .pref base idx sz sc, .prefExt base idx sz sc ext],
        ready s (.team g b k) i = some c → exec i s = .next t → t.mem = s.mem) ∧
    (calm s (.team g b k) → (t.seqOf (.team g b k)).bind (·.stop) = none → s.grid g = some gr → unlogged s gr.ctx →
      (∀ i ∈ [Instr.ld d base idx sz sc, .ldExt d base idx sz sc ext sx, .lds d base idx sz sc, .ldsExt d base idx sz sc ext sx,
          .ldstr d base idx sz sc ext n1, .pmov false p base, .pmovExt false p base ext],
        ready s (.team g b k) i = some c → exec i s = .next t → t.mem = s.mem) ∧
      (ready s (.team g b k) (.atom d base idx sz sc ext tag y op) = some c →
        exec (.atom d base idx sz sc ext tag y op) s = .next t →
        (∀ l ∈ (c.checkRmw sz.bytes (fun l => .op op.toNat (c.rmwArg y sz l)) (c.laneList base idx sz sc)).1,
          a < keyAt l.segs 0 ∨ keyAt l.segs 0 + sz.bytes ≤ a) → byteAt t.mem a = byteAt s.mem a) ∧
      (ready s (.team g b k) (.cas d base idx sz sc ext tag y z) = some c →
        exec (.cas d base idx sz sc ext tag y z) s = .next t →
        (∀ l ∈ (c.checkRmw sz.bytes (fun l => .cas (c.rmwArg y sz l) (c.rmwArg z sz l)) (c.laneList base idx sz sc)).1,
          a < keyAt l.segs 0 ∨ keyAt l.segs 0 + sz.bytes ≤ a) → byteAt t.mem a = byteAt s.mem a) ∧
      (ready s (.team g b k) (.atoms d base idx sz sc ext tag y op) = some c →
        exec (.atoms d base idx sz sc ext tag y op) s = .next t →
        (∀ segs tr bd, c.check s .rmw sz.bytes (c.rdS (.s base)) sz.bytes = .ok segs tr bd →
          a < keyAt segs 0 ∨ keyAt segs 0 + sz.bytes ≤ a) → byteAt t.mem a = byteAt s.mem a)) ∧
    (headStore s g b k gr tm st → st.kind = .store → reachable s st.key → unlogged s gr.ctx → exec (.storePerform (.team g b k)) s = .next t →
      (a < st.key ∨ st.key + st.bytes.length ≤ a → byteAt t.mem a = byteAt s.mem a) ∧
      (∀ n < st.bytes.length, byteAt t.mem (st.key + n) = st.bytes[n]?.getD 0) ∧ t.frames = s.frames) ∧
    (headStore s g b k gr tm st → st.kind = .bop op w → unlogged s gr.ctx → exec (.bankAluOperation (.team g b k)) s = .next t →
      (a < st.key ∨ st.key + st.bytes.length ≤ a → byteAt t.mem a = byteAt s.mem a)) ∧
    (exec (.hostWrite ti pa bs) s = .next t →
      (a < memKey ti.toNat pa ∨ memKey ti.toNat pa + bs.length ≤ a → byteAt t.mem a = byteAt s.mem a) ∧
      (∀ n < bs.length, byteAt t.mem (memKey ti.toNat pa + n) = bs[n]?.getD 0)) ∧
    (queueTurn s q x j → undispatched x j → qPasses s x .store (j.reg kb.toNat + imm.signExtend 64) key tier t →
      ∃ u, exec (.cmdSt ka kb imm) s = .next u ∧ (a < key ∨ key + 8 ≤ a → byteAt u.mem a = byteAt s.mem a) ∧
        readNat u.mem key 8 = (j.reg ka.toNat).toNat)
end

