-- ==== Sys2Proof/Laws/Map.lean ====
section
/-! SUPPORT. The laws of tables and of memory: a read after a write, other keys and bytes left alone, the canonical form
kept by every operation. -/

namespace Sys2Proof.Machine

variable {α : Type}

/-! ### Tables -/

@[simp] theorem mget_mset_self (m : AMap α) (n : Nat) (x : α) : mget (mset m n x) n = some x := by
  induction m with
  | nil => simp [mset, mget]
  | cons e t ih => unfold mset; split_ifs <;> simp_all [mget]

theorem mget_mset_ne (m : AMap α) {n k : Nat} (x : α) (h : k ≠ n) : mget (mset m n x) k = mget m k := by
  induction m with
  | nil => simp [mset, mget, Ne.symm h]
  | cons e t ih => unfold mset; split_ifs <;> simp_all [mget, Ne.symm h]

@[simp] theorem mget_mdel_self (m : AMap α) (n : Nat) : mget (mdel m n) n = none := by
  induction m with
  | nil => rfl
  | cons e t ih =>
    unfold mdel at ih ⊢
    rw [List.filter_cons]
    split_ifs with h <;> simp_all [mget]

theorem mget_mdel_ne (m : AMap α) {n k : Nat} (h : k ≠ n) : mget (mdel m n) k = mget m k := by
  induction m with
  | nil => rfl
  | cons e t ih =>
    unfold mdel at ih ⊢
    rw [List.filter_cons]
    split_ifs with h' <;> simp_all [mget, Ne.symm h]

@[simp] theorem mget_mmod_self (m : AMap α) (n : Nat) (f : α → α) : mget (mmod m n f) n = (mget m n).map f := by
  unfold mmod
  split <;> simp_all

theorem mget_mmod_ne (m : AMap α) {n k : Nat} (f : α → α) (h : k ≠ n) : mget (mmod m n f) k = mget m k := by
  unfold mmod
  split
  · exact mget_mset_ne m _ h
  · rfl

theorem mset_mset (m : AMap α) (n : Nat) (x y : α) : mset (mset m n x) n y = mset m n y := by
  induction m with
  | nil => simp [mset]
  | cons e t ih =>
    by_cases h : e.1 = n
    · simp [mset, h]
    · by_cases h' : n < e.1
      · simp [mset, h, h']
      · simp [mset, h, h', ih]

theorem mmod_mmod (m : AMap α) (n : Nat) (f g : α → α) : mmod (mmod m n f) n g = mmod m n fun x => g (f x) := by
  unfold mmod
  cases h : mget m n with
  | none => simp [h]
  | some x => simp [mset_mset]

@[simp] theorem zget_zset_self {w : Nat} (m : ZMap w) (n : Nat) (x : BitVec w) : zget (zset m n x) n = x := by
  unfold zget zset
  split_ifs with h <;> simp [h]

theorem zget_zset_ne {w : Nat} (m : ZMap w) {n k : Nat} (x : BitVec w) (h : k ≠ n) : zget (zset m n x) k = zget m k := by
  unfold zget zset
  split_ifs
  · rw [mget_mdel_ne m h]
  · rw [mget_mset_ne m _ h]

/-! ### The rising order of keys -/

/-- The first key of a table is above a bound. -/
def above (n : Nat) : AMap α → Prop
  | [] => True
  | e :: _ => n < e.1

theorem risingKeys_cons {e : Nat × α} {t : AMap α} : risingKeys (e :: t) = true ↔ above e.1 t ∧ risingKeys t = true := by
  cases t with
  | nil => simp [risingKeys, above]
  | cons f u => simp [risingKeys, above]

theorem risingKeys_mset (m : AMap α) (n : Nat) (x : α) (h : risingKeys m = true) : risingKeys (mset m n x) = true := by
  induction m with
  | nil => rfl
  | cons e t ih =>
    obtain ⟨h1, h2⟩ := risingKeys_cons.mp h
    unfold mset
    split_ifs with he hl
    · exact risingKeys_cons.mpr ⟨he ▸ h1, h2⟩
    · exact risingKeys_cons.mpr ⟨hl, h⟩
    · refine risingKeys_cons.mpr ⟨?_, ih h2⟩
      cases t with
      | nil => simp only [mset, above]; omega
      | cons f u =>
        simp only [above] at h1
        unfold mset
        split_ifs <;> simp only [above] <;> omega

/-- All keys of a rising table lie above its first. -/
theorem above_all {n : Nat} {t : AMap α} (h : above n t) (hr : risingKeys t = true) : ∀ e ∈ t, n < e.1 := by
  induction t generalizing n with
  | nil => simp
  | cons f u ih =>
    obtain ⟨h1, h2⟩ := risingKeys_cons.mp hr
    intro e he
    rcases List.mem_cons.mp he with rfl | he
    · exact h
    · exact Nat.lt_trans h (ih h1 h2 e he)

theorem above_of_all {n : Nat} {t : AMap α} (h : ∀ e ∈ t, n < e.1) : above n t := by
  cases t with
  | nil => trivial
  | cons f u => exact h f (by simp)

/-- A part of a rising table rises. -/
theorem risingKeys_filter (m : AMap α) (p : Nat × α → Bool) (h : risingKeys m = true) : risingKeys (m.filter p) = true := by
  induction m with
  | nil => rfl
  | cons e t ih =>
    obtain ⟨h1, h2⟩ := risingKeys_cons.mp h
    rw [List.filter_cons]
    split_ifs
    · exact risingKeys_cons.mpr ⟨above_of_all fun f hf => above_all h1 h2 f (List.mem_of_mem_filter hf), ih h2⟩
    · exact ih h2

theorem risingKeys_mdel (m : AMap α) (n : Nat) (h : risingKeys m = true) : risingKeys (mdel m n) = true :=
  risingKeys_filter m _ h

theorem noZero_mset {w : Nat} (m : ZMap w) (n : Nat) (x : BitVec w) (hx : x ≠ 0) (h : noZero m = true) :
    noZero (mset m n x) = true := by
  unfold noZero at h ⊢
  rw [List.all_eq_true] at h ⊢
  induction m with
  | nil => simpa [mset] using hx
  | cons e t ih =>
    have ih := ih fun f hf => h f (List.mem_cons_of_mem _ hf)
    unfold mset
    split_ifs <;> intro f hf <;> rcases List.mem_cons.mp hf with rfl | hf
    · exact decide_eq_true hx
    · exact h f (List.mem_cons_of_mem _ hf)
    · exact decide_eq_true hx
    · exact h f hf
    · exact h _ List.mem_cons_self
    · exact ih f hf

/-! ### Memory in its canonical form -/

/-- A written byte. -/
theorem wf_putByte {m : Memory} (h : m.wf = true) (a : Nat) (x : Byte) : (putByte m a x).wf = true := by
  unfold Memory.wf at h ⊢
  rw [Bool.and_eq_true] at h ⊢
  unfold putByte zset
  split_ifs with hx
  · exact ⟨risingKeys_mdel m a h.1, by
      have := h.2
      unfold noZero mdel at *
      simp only [List.all_eq_true, List.mem_filter] at *
      exact fun e he => this e he.1⟩
  · exact ⟨risingKeys_mset m a x h.1, noZero_mset m a x hx h.2⟩

/-- A part of memory. -/
theorem wf_filter {m : Memory} (h : m.wf = true) (p : Host.Cell → Bool) : Memory.wf (m.filter p) = true := by
  unfold Memory.wf at h ⊢
  rw [Bool.and_eq_true] at h ⊢
  refine ⟨risingKeys_filter m p h.1, ?_⟩
  have := h.2
  unfold noZero at *
  simp only [List.all_eq_true, List.mem_filter] at *
  exact fun e he => this e he.1

/-- Written bytes. -/
theorem wf_writeBytes {m : Memory} (h : m.wf = true) (a : Nat) (bs : List Byte) : (writeBytes m a bs).wf = true := by
  induction bs generalizing m a with
  | nil => exact h
  | cons x t ih => exact ih (wf_putByte h a x) (a + 1)

/-- A written number. -/
theorem wf_writeNat {m : Memory} (h : m.wf = true) (a n x : Nat) : (writeNat m a n x).wf = true := wf_writeBytes h a _

/-- A scrubbed range. -/
theorem wf_scrubRange {m : Memory} (h : m.wf = true) (a n : Nat) : (scrubRange m a n).wf = true := wf_filter h _

/-- Cells written one by one, at addresses that f gives them. -/
theorem wf_foldPut {m : Memory} (h : m.wf = true) (l : Memory) (f : Nat → Nat) :
    Memory.wf (l.foldl (fun m e => putByte m (f e.1) e.2) m) = true := by
  induction l generalizing m with
  | nil => exact h
  | cons e t ih => exact ih (wf_putByte h _ _)

/-! ### Reading after writing -/

@[simp] theorem byteAt_putByte_self (m : Memory) (a : Nat) (x : Byte) : byteAt (putByte m a x) a = x :=
  zget_zset_self m a x

theorem byteAt_putByte_ne (m : Memory) {a b : Nat} (x : Byte) (h : b ≠ a) : byteAt (putByte m a x) b = byteAt m b :=
  zget_zset_ne m x h

/-- Bytes outside the written ones stand. -/
theorem byteAt_writeBytes_ne (m : Memory) {a b : Nat} (bs : List Byte) (h : b < a ∨ a + bs.length ≤ b) :
    byteAt (writeBytes m a bs) b = byteAt m b := by
  induction bs generalizing m a with
  | nil => rfl
  | cons x t ih =>
    simp only [List.length_cons] at h
    rw [writeBytes, ih _ (by omega), byteAt_putByte_ne _ _ (by omega)]

/-- A byte inside the written ones is the one written there. -/
theorem byteAt_writeBytes_in (m : Memory) (a k : Nat) (bs : List Byte) (h : k < bs.length) :
    byteAt (writeBytes m a bs) (a + k) = bs[k]'h := by
  induction bs generalizing m a k with
  | nil => simp at h
  | cons x t ih =>
    rw [writeBytes]
    cases k with
    | zero => rw [byteAt_writeBytes_ne _ _ (by omega)]; simp
    | succ n =>
      have := ih (putByte m a x) (a + 1) n (by simpa using h)
      rw [show a + (n + 1) = a + 1 + n by omega, this]; rfl

/-- Written bytes read back. -/
theorem readBytes_writeBytes (m : Memory) (a : Nat) (bs : List Byte) :
    readBytes (writeBytes m a bs) a bs.length = bs := by
  induction bs generalizing m a with
  | nil => rfl
  | cons x t ih =>
    have h := byteAt_writeBytes_in m a 0 (x :: t) (by simp)
    simp only [Nat.add_zero, List.getElem_cons_zero] at h
    simp only [List.length_cons, readBytes, h]
    rw [writeBytes, ih]

@[simp] theorem length_natBytes (n x : Nat) : (natBytes n x).length = n := by
  induction n generalizing x with
  | zero => rfl
  | succ n ih => simp [natBytes, ih]

/-- The bytes of a number hold its low n bytes. -/
theorem bytesNat_natBytes (n x : Nat) : bytesNat (natBytes n x) = x % 256 ^ n := by
  induction n generalizing x with
  | zero => simp [natBytes, bytesNat, Nat.mod_one]
  | succ n ih => simp [natBytes, bytesNat, ih, Nat.pow_succ, Nat.mul_comm (256 ^ n), Nat.mod_mul]

/-- A number as memory holds it is the number of its bytes. -/
theorem readNat_eq (m : Memory) (a n : Nat) : readNat m a n = bytesNat (readBytes m a n) := by
  induction n generalizing a with
  | zero => rfl
  | succ n ih => simp [readNat, readBytes, bytesNat, ih]

/-- A written number reads back. -/
theorem readNat_writeNat (m : Memory) (a n x : Nat) : readNat (writeNat m a n x) a n = x % 256 ^ n := by
  have h := readBytes_writeBytes m a (natBytes n x)
  rw [length_natBytes] at h
  rw [readNat_eq, writeNat, h, bytesNat_natBytes]

end Sys2Proof.Machine
end

