-- ==== Sys2Proof/Laws/Shape.lean ====
section
/-! SUPPORT. What the shared operations of the units outside the cores can change: interrupt vectors, the health log, the
queues' front end, the CPC cores. -/

namespace Sys2Proof.Machine

/-! ### Tables -/

theorem mem_of_mget {α : Type} {m : AMap α} {n : Nat} {x : α} (h : mget m n = some x) : (n, x) ∈ m := by
  induction m with
  | nil => exact absurd h (by simp [mget])
  | cons e t ih =>
    obtain ⟨k, v⟩ := e
    unfold mget at h
    split at h
    · rename_i hk
      rw [hk, Option.some.inj h]; exact List.mem_cons_self
    · exact List.mem_cons_of_mem _ (ih h)

theorem mget_map {α β : Type} (m : AMap α) (f : Nat × α → Nat × β) (hf : ∀ e, (f e).1 = e.1) (n : Nat) :
    mget (m.map f) n = (mget m n).map fun x => (f (n, x)).2 := by
  induction m with
  | nil => rfl
  | cons e t ih =>
    obtain ⟨k, v⟩ := e
    have h1 : f (k, v) = (k, (f (k, v)).2) := Prod.ext (hf (k, v)) rfl
    rw [List.map_cons, h1]
    simp only [mget]
    by_cases h : k = n
    · subst h; simp
    · simp only [if_neg h]; exact ih

/-! ### Interrupt vectors and the health log (R346, R391, R392) -/

/-- Sending a vector changes vectors and what the host has been sent. -/
theorem sendVec_shape (s : State) (fn v : Nat) : ∃ a b, s.sendVec fn v = { s with vectors := a, outbox := b } := by
  unfold State.sendVec
  simp only
  split
  · exact ⟨_, s.outbox, rfl⟩
  · exact ⟨_, _, rfl⟩

/-- Raising a vector changes vectors and what the host has been sent. -/
theorem raise_shape (s : State) (fn v : Nat) : ∃ a b, s.raise fn v = { s with vectors := a, outbox := b } := by
  unfold State.raise
  simp only
  split
  · exact ⟨_, s.outbox, rfl⟩
  · obtain ⟨a, b, h⟩ := sendVec_shape s fn v
    rw [h]
    split
    · exact ⟨a, b, rfl⟩
    · exact ⟨_, b, rfl⟩

theorem raiseFold_shape (l : List Nat) (s : State) :
    ∃ a b, l.foldl (fun s fn => s.raise fn 0) s = { s with vectors := a, outbox := b } := by
  induction l generalizing s with
  | nil => exact ⟨s.vectors, s.outbox, rfl⟩
  | cons n t ih =>
    obtain ⟨a, b, h⟩ := raise_shape s n 0
    obtain ⟨c, d, h2⟩ := ih (s.raise n 0)
    refine ⟨c, d, ?_⟩
    rw [List.foldl_cons, h2, h]

theorem raiseAll_shape (s : State) : ∃ a b, s.raiseAll = { s with vectors := a, outbox := b } := raiseFold_shape _ s

theorem raiseQueue_shape (s : State) (q : Nat) : ∃ a b, s.raiseQueue q = { s with vectors := a, outbox := b } := by
  unfold State.raiseQueue
  split
  · exact raise_shape _ _ _
  · exact ⟨s.vectors, s.outbox, rfl⟩

/-- A health record of no context changes the registrar's log, not what READY says, and a clock. -/
theorem health_none_shape (s : State) (a b c : Nat) (v w : W64) :
    ∃ l r, s.health none a b c v w = { s with lamport := l, reg := r } ∧ r.ready = s.reg.ready ∧ r.step = s.reg.step ∧
      r.mgmt = s.reg.mgmt ∧ r.throttle = s.reg.throttle := by
  unfold State.health
  split
  · exact ⟨s.lamport, s.reg, rfl, rfl, rfl, rfl, rfl⟩
  · exact ⟨_, _, rfl, rfl, rfl, rfl, rfl⟩

/-- A trace record changes memory and its context (R339, R340). -/
theorem trace_shape (s : State) (c kind : Nat) (body : List Byte) : ∃ m x, s.trace c kind body = { s with mem := m, ctxs := x } := by
  unfold State.trace
  split
  · rename_i x _
    cases x.trace with
    | none => exact ⟨s.mem, s.ctxs, rfl⟩
    | some tb =>
      dsimp only
      exact ⟨_, _, rfl⟩
  · exact ⟨s.mem, s.ctxs, rfl⟩

/-- A health record changes the registrar, a clock, what the trace of its context changes, and a vector of its partition. -/
theorem health_shape (s : State) (ctx : Option Nat) (a b c : Nat) (v w : W64) :
    ∃ l r m x p o, s.health ctx a b c v w = { s with lamport := l, reg := r, mem := m, ctxs := x, vectors := p, outbox := o } := by
  unfold State.health
  split
  · exact ⟨s.lamport, s.reg, s.mem, s.ctxs, s.vectors, s.outbox, rfl⟩
  · dsimp only
    split
    · obtain ⟨m, x, h⟩ := trace_shape _ _ _ _
      obtain ⟨p, o, h'⟩ := raise_shape _ _ _
      rw [h', h]
      exact ⟨_, _, m, x, p, o, rfl⟩
    · exact ⟨_, _, s.mem, s.ctxs, s.vectors, s.outbox, rfl⟩

/-- An error code changes nothing else that READY says, nor the throttle. -/
theorem failing_keeps (r : Registrar) (code : Nat) :
    (r.failing code).ready.bits = r.ready.bits ∧ (r.failing code).throttle = r.throttle := by
  unfold Registrar.failing
  split <;> exact ⟨rfl, rfl⟩

/-- An error code stands, but on a registrar that has stopped. -/
theorem failing_error (r : Registrar) (code : Nat) :
    (r.failing code).ready.error = if r.ready.error = 9 then 9 else BitVec.ofNat 8 code := by
  unfold Registrar.failing
  split <;> simp_all

/-- A device error leaves memory, partitions and every party's position, and stops the scheduler cores (R376, R412). -/
theorem deviceError_shape (s : State) (code : Nat) :
    ∃ v o l r, deviceError s code = { s with
        vectors := v, outbox := o, lamport := l, reg := r
        queues := s.queues.map fun e => (e.1, { e.2 with held := true })
        cpcs := s.cpcs.map fun e => if e.1 < 7 then (e.1, { e.2 with stopped := true }) else e
        grids := s.grids.map fun e => if e.2.status = .retained then e else (e.1, { e.2 with status := .aborted }) } ∧
      r.ready.error = (s.reg.failing code).ready.error ∧ r.ready.bits = s.reg.ready.bits ∧ r.throttle = s.reg.throttle := by
  obtain ⟨hb, ht⟩ := failing_keeps s.reg code
  unfold deviceError
  simp only
  generalize hs : ({ (s.modReg fun r => r.failing code) with
    queues := s.queues.map fun e => (e.1, { e.2 with held := true })
    cpcs := s.cpcs.map fun e => if e.1 < 7 then (e.1, { e.2 with stopped := true }) else e
    grids := s.grids.map fun e => if e.2.status = .retained then e else (e.1, { e.2 with status := .aborted }) } : State) = z
  obtain ⟨a, b, h⟩ := raiseAll_shape z
  have h' : State.raiseAll { (s.modReg fun r => r.failing code) with
    queues := s.queues.map fun e => (e.1, { e.2 with held := true })
    cpcs := s.cpcs.map fun e => if e.1 < 7 then (e.1, { e.2 with stopped := true }) else e
    grids := s.grids.map fun e => if e.2.status = .retained then e else (e.1, { e.2 with status := .aborted }) } =
      { z with vectors := a, outbox := b } := by rw [hs]; exact h
  split
  · refine ⟨a, b, s.lamport, z.reg, ?_, ?_, ?_, ?_⟩
    · refine h'.trans ?_
      subst hs; rfl
    · subst hs; rfl
    · subst hs; exact hb
    · subst hs; exact ht
  · obtain ⟨l, r, h2, h3, _, _, h4⟩ := health_none_shape { z with vectors := a, outbox := b } 9 0x3007 code 0 0
    refine ⟨a, b, l, r, ?_, ?_, ?_, ?_⟩
    · refine (congrArg (fun x : State => x.health none 9 0x3007 code 0 0) h').trans (h2.trans ?_)
      subst hs; rfl
    · rw [h3]; subst hs; rfl
    · rw [h3]; subst hs; exact hb
    · rw [h4]; subst hs; exact ht

/-- What a device error leaves. -/
theorem deviceError_facts (s : State) (code : Nat) (hc : BitVec.ofNat 8 code ≠ 0) :
    (deviceError s code).reg.ready.error = (if s.reg.ready.error = 9 then 9 else BitVec.ofNat 8 code) ∧ (deviceError s code).reg.isReady = false ∧
    (∀ m z, mget (deviceError s code).cpcs m = some z → m < 7 → z.stopped = true) ∧
    (∀ q z, mget (deviceError s code).queues q = some z → z.held = true) ∧ (deviceError s code).mem = s.mem := by
  obtain ⟨v, o, l, r, h1, h2, _⟩ := deviceError_shape s code
  rw [h1]
  have h2 := h2.trans (failing_error s.reg code)
  refine ⟨h2, ?_, ?_, ?_, rfl⟩
  · show r.isReady = false
    refine decide_eq_false fun h => ?_
    have h0 := h2.symm.trans h.2
    split at h0
    · exact absurd h0 (by decide)
    · exact hc h0
  · intro m z hz hm
    simp only at hz
    rw [mget_map _ _ (by intro e; split <;> rfl)] at hz
    simp only [Option.map_eq_some_iff] at hz
    obtain ⟨y, _, rfl⟩ := hz
    simp [hm]
  · intro q z hz
    simp only at hz
    replace hz := (mget_map s.queues (fun e : Nat × Queue => (e.1, { e.2 with held := true })) (fun _ => rfl) q).symm.trans hz
    simp only [Option.map_eq_some_iff] at hz
    obtain ⟨y, _, rfl⟩ := hz
    rfl

/-- Changing queues one by one changes the queues only. -/
theorem foldQueues_shape (l : List Nat) (f : Queue → Queue) (s : State) :
    ∃ qs, l.foldl (fun s q => s.modQueue q f) s = { s with queues := qs } := by
  induction l generalizing s with
  | nil => exact ⟨s.queues, rfl⟩
  | cons a t ih =>
    obtain ⟨qs, h⟩ := ih (s.modQueue a f)
    exact ⟨qs, by rw [List.foldl_cons, h]; rfl⟩

theorem foldQueues_mem (l : List Nat) (f : Queue → Queue) (s : State) :
    (l.foldl (fun s q => s.modQueue q f) s).mem = s.mem := by
  obtain ⟨qs, h⟩ := foldQueues_shape l f s
  rw [h]

theorem foldQueues_cpcs (l : List Nat) (f : Queue → Queue) (s : State) :
    (l.foldl (fun s q => s.modQueue q f) s).cpcs = s.cpcs := by
  obtain ⟨qs, h⟩ := foldQueues_shape l f s
  rw [h]

end Sys2Proof.Machine
end

