-- ==== Sys2Proof/Laws/Fault.lean ====
section
/-! SUPPORT. Everything that taking a fault can do: the record, the stop of the party, the sides of its class (R291 to
R300). -/

namespace Sys2Proof.Machine

/-- Writing held records changes memory, contexts, vectors and the outbox only, and no fault serial (R294). -/
theorem writeHeld_shape (c n : Nat) (s : State) : ∃ m x v o, writeHeld c n s = { s with mem := m, ctxs := x, vectors := v, outbox := o } ∧
    ∀ k, (mget x k).map (·.fserial) = (mget s.ctxs k).map (·.fserial) := by
  induction n generalizing s with
  | zero => exact ⟨s.mem, s.ctxs, s.vectors, s.outbox, rfl, fun _ => rfl⟩
  | succ n ih =>
    unfold writeHeld
    split
    · rename_i x hx
      split
      · rename_i k r rest hr
        split
        · obtain ⟨a, b, h1⟩ := raiseQueue_shape (putHeld s c x k r) x.queue
          obtain ⟨m, y, v, o, h2, h3⟩ := ih ((putHeld s c x k r).raiseQueue x.queue)
          refine ⟨m, y, v, o, ?_, ?_⟩
          · rw [h2, h1]; rfl
          · intro j
            rw [h3, h1]
            show (mget (mset s.ctxs c _) j).map _ = _
            by_cases hj : j = c
            · subst hj; simp [mget_mset_self, hx]
            · simp [mget_mset_ne _ _ hj]
        · exact ⟨s.mem, s.ctxs, s.vectors, s.outbox, rfl, fun _ => rfl⟩
      · exact ⟨s.mem, s.ctxs, s.vectors, s.outbox, rfl, fun _ => rfl⟩
    · exact ⟨s.mem, s.ctxs, s.vectors, s.outbox, rfl, fun _ => rfl⟩

/-- The oldest held record is written where its serial points, when that entry is free, and waits otherwise (R294). -/
theorem writeHeld_one {c : Nat} {s : State} {x : Ctx} {n : Nat} {r : BitVec 512} (h : mget s.ctxs c = some x)
    (hr : x.heldRecs = [(n, r)]) (hb : x.flg2 ≠ 0) :
    (entryFree x n = true → savedStop s c n = false → (writeHeld c 1 s).mem = writeNat s.mem (memKey 0 (x.fbase + 64 * (n % bufEntries x))) 64 r.toNat) ∧
    (entryFree x n = false → writeHeld c 1 s = s) := by
  refine ⟨fun h1 h0 => ?_, fun h1 => ?_⟩
  · simp only [writeHeld, h, hr, h1, h0, Bool.not_false, Bool.and_self, if_true, hb, ne_eq, not_false_eq_true, decide_true]
    obtain ⟨a, b, h2⟩ := raiseQueue_shape (putHeld s c x n r) x.queue
    exact congrArg State.mem h2
  · simp only [writeHeld, h, hr, h1, Bool.false_and, Bool.false_eq_true, if_false]

/-- What a fault does beside its record touches the grid and page fills, and no level of a grid (R297, R300, R232). -/
theorem faultSides_shape (s : State) (g : Nat) (gr : Grid) (cls : Nat) :
    ∃ x y, faultSides s g gr cls = { s with grids := x, fills := y } ∧ ∀ k, (mget x k).map (·.lvl) = (mget s.grids k).map (·.lvl) := by
  have hm : ∀ (m : AMap Grid) (f : Grid → Grid), (∀ y, (f y).lvl = y.lvl) → ∀ k, (mget (mmod m g f) k).map (·.lvl) = (mget m k).map (·.lvl) := by
    intro m f hf k
    by_cases h : k = g
    · subst h; rw [mget_mmod_self, Option.map_map]
      cases mget m k <;> simp [hf]
    · rw [mget_mmod_ne _ _ h]
  have h1 : ∃ x, (if cls = 0x51 ∧ gr.allstop then s.freeze g else s) = { s with grids := x } ∧
      ∀ k, (mget x k).map (·.lvl) = (mget s.grids k).map (·.lvl) := by
    split
    · exact ⟨_, rfl, hm _ _ fun _ => rfl⟩
    · exact ⟨s.grids, rfl, fun _ => rfl⟩
  obtain ⟨x1, e1, k1⟩ := h1
  have h2 : ∃ x, (if cls = 0x52 then ({ s with grids := x1 } : State).modGrid g fun x => { x with status := .saving } else { s with grids := x1 }) =
      { s with grids := x } ∧ ∀ k, (mget x k).map (·.lvl) = (mget s.grids k).map (·.lvl) := by
    split
    · exact ⟨_, rfl, fun k => (hm x1 (fun x => { x with status := .saving }) (fun _ => rfl) k).trans (k1 k)⟩
    · exact ⟨x1, rfl, k1⟩
  obtain ⟨x2, e2, k2⟩ := h2
  unfold faultSides
  rw [e1]
  dsimp only
  rw [e2]
  cases gr.launcher
  case fill => exact ⟨x2, _, rfl, k2⟩
  all_goals exact ⟨x2, s.fills, rfl, k2⟩

/-- Which member resumption issues is no part of a record. -/
theorem keptAlone_same (f : FInfo) (a : Option Nat) : ∃ k, keptAlone f a = { f with kind := k } := by
  unfold keptAlone
  split
  · exact ⟨_, rfl⟩
  · exact ⟨f.kind, rfl⟩

/-- Taking a fault, up to the writing of its record: the clock goes up, the record stands under its serial among the
held ones, and the party is stopped with it (R291 to R294). -/
theorem takeFault_eq {s : State} {p : Party} {f : FInfo} {gr : Grid} {c : Ctx} {q : Machine.Seq} (h1 : s.grid p.gridNo = some gr)
    (h2 : mget s.ctxs gr.ctx = some c) (h3 : s.seqOf p = some q) (r : BitVec 512)
    (hr : r = faultRecord (s.clock (s.engineOf p) + 1) gr.csn gr.queue (f.pc.getD (mkPc (pcPkt (s.pcOf p)) f.slot))
      (((q.tok).map fun t => t.seq.toNat).getD 0) (s.engineOf p) p (s.detachedOf p) c.fserial gr.depth f) :
    ∃ z : State, takeFault s p f = writeHeld gr.ctx (c.heldRecs.length + 1) z ∧ z.mem = s.mem ∧
      z.lamport = zset s.lamport (s.engineOf p) (s.clock (s.engineOf p) + 1) ∧
      mget z.ctxs gr.ctx = some { c with fserial := c.fserial + 1, heldRecs := mset c.heldRecs c.fserial r } ∧
      z.seqOf p = some { q with
        stop := some ⟨r, c.fserial, (keptAlone f q.alone).kind⟩, wait := keptWait q.wait, stepping := false, alone := none } := by
  obtain ⟨kd, hk⟩ := keptAlone_same f q.alone
  unfold takeFault raiseRecord
  rw [h1]; dsimp only
  rw [h2]; dsimp only
  rw [h3]; dsimp only [Option.bind_some]
  rw [hk, show faultRecord (s.clock (s.engineOf p) + 1) gr.csn gr.queue (f.pc.getD (mkPc (pcPkt (s.pcOf p)) f.slot))
      (((q.tok).map fun t => t.seq.toNat).getD 0) (s.engineOf p) p (s.detachedOf p) c.fserial gr.depth { f with kind := kd } = r
    from hr ▸ rfl]
  clear hr
  generalize { f with kind := kd } = f
  generalize hz : stopParty ((s.bump (s.engineOf p)).modCtx gr.ctx fun c' => { c' with
        fserial := c'.fserial + 1, heldRecs := mset c'.heldRecs c'.fserial r }) p f r c.fserial = z
  obtain ⟨x, y, h4, h5⟩ := faultSides_shape z p.gridNo gr f.cls
  refine ⟨_, rfl, ?_, ?_, ?_, ?_⟩
  · have : ∀ s r n, (stopParty s p f r n).mem = s.mem := by intro s r n; cases p <;> rfl
    rw [h4]; subst hz
    exact this _ _ _
  · have : ∀ s r n, (stopParty s p f r n).lamport = s.lamport := by intro s r n; cases p <;> rfl
    rw [h4]; subst hz
    exact this _ _ _
  · rw [h4]
    have : z.ctxs = mmod s.ctxs gr.ctx fun c' => { c' with
        fserial := c'.fserial + 1, heldRecs := mset c'.heldRecs c'.fserial r } := by
      have : ∀ s r n, (stopParty s p f r n).ctxs = s.ctxs := by intro s r n; cases p <;> rfl
      subst hz; exact this _ _ _
    show mget z.ctxs gr.ctx = _
    rw [this, mget_mmod_self, h2]; rfl
  · rw [h4]
    subst hz
    cases p with
    | team g b t =>
      simp only [State.seqOf, State.team] at h3 ⊢
      simp only [stopParty, State.modSeq, State.modTeam, State.modCtx, State.bump, mmod_mmod, mget_mmod_self, Option.map_map]
      cases hm : mget s.teams (tKey g b t) with
      | none => rw [hm] at h3; simp at h3
      | some w => rw [hm] at h3; simp only [Option.map_some, Option.some.injEq] at h3; simp [h3]
    | block g b =>
      simp only [State.seqOf, State.block] at h3 ⊢
      simp only [stopParty, State.modSeq, State.modBlock, State.modCtx, State.bump, mget_mmod_self, Option.map_map]
      cases hm : mget s.blocks (bKey g b) with
      | none => rw [hm] at h3; simp at h3
      | some w => rw [hm] at h3; simp only [Option.map_some, Option.some.injEq] at h3; simp [h3]
    | cluster g b =>
      simp only [State.seqOf, State.cluster] at h3 ⊢
      simp only [stopParty, State.modSeq, State.modCluster, State.modCtx, State.bump, mget_mmod_self, Option.map_map]
      cases hm : mget s.clusters (bKey g b) with
      | none => rw [hm] at h3; simp at h3
      | some w => rw [hm] at h3; simp only [Option.map_some, Option.some.injEq] at h3; simp [h3]
    | grid g =>
      simp only [State.seqOf, State.grid] at h3 ⊢
      have h6 := h5 g
      simp only [stopParty, State.modSeq, State.modGrid, State.modCtx, State.bump, mget_mmod_self] at h6
      cases hm : mget s.grids g with
      | none => rw [hm] at h3; simp at h3
      | some w =>
        rw [hm] at h3 h6; simp only [Option.map_some, Option.some.injEq] at h3 h6
        cases hx : mget x g with
        | none => rw [hx] at h6; simp at h6
        | some v => rw [hx] at h6; simp only [Option.map_some, Option.some.injEq] at h6 ⊢; rw [h6]; simp [h3]

/-- A stopped party issues nothing (R291). -/
theorem canIssue_stopped {s : State} {p : Party} {q : Machine.Seq} (h : s.seqOf p = some q) (h2 : q.stop.isSome = true) : canIssue s p = false := by
  unfold canIssue
  rw [h]
  have : q.stop.isNone = false := by cases hq : q.stop <;> simp_all
  split
  · rename_i g q' _ h4
    obtain rfl := Option.some.inj h4
    simp [this]
  · rfl

end Sys2Proof.Machine
end

