-- ==== Sys2Proof/Laws/Issue.lean ====
section
/-! SUPPORT. How a chain of one member issues: what `ready` says, and that a ready member's chain commits with the
answer of its meaning. -/

namespace Sys2Proof.Machine

/-- The slot of a sole member's context is that of the PC. -/
theorem soleCx_slot {s : State} {p : Party} {i : Instr} {c : Cx} (h : soleCx s p i = some c) :
    c.slot = pcSlot (s.pcOf p) := by
  simp only [soleCx, mkCx, Option.bind_eq_some_iff, Option.map_eq_some_iff] at h
  obtain ⟨_, _, _, _, rfl⟩ := h
  rfl

/-- What stands behind coming to a member: the context before the segment's emission, and every check before its own passed. -/
theorem reach_cases {b : Bool} {s : State} {p : Party} {i : Instr} {c : Cx} (h : reachWhere b s p i = some c) :
    ∃ c0, soleCx s p i = some c0 ∧ s.turn = .party p ∧ canIssue s p = true ∧
      passesEarly c0 (soleMember s p i) = true ∧ emitFirst s c0 (chainEnds c0 [i]) (chainNarrow c0 [i]) = some c.pre ∧ c = { c0 with pre := c.pre } ∧
      passesEntry b c (soleMember s p i) = true ∧ c.slot = pcSlot (s.pcOf p) := by
  simp only [reachWhere, Option.bind_eq_some_iff] at h
  obtain ⟨c0, h0, h⟩ := h
  split at h
  · rename_i hc
    simp only [Option.bind_eq_some_iff] at h
    obtain ⟨pre, hp, h⟩ := h
    split at h
    · rename_i he
      cases h
      exact ⟨c0, h0, hc.1, hc.2.1, hc.2.2, hp, rfl, he, soleCx_slot (c := c0) h0⟩
    · cases h
  · cases h

/-- A ready member is one that its party comes to, and whose own checks pass. -/
theorem ready_reach {b : Bool} {s : State} {p : Party} {i : Instr} {c : Cx} (h : readyWhere b s p i = some c) :
    reachWhere b s p i = some c ∧ ownCheck c i = none ∧ c.sources i = .ready := by
  simp only [readyWhere, Option.bind_eq_some_iff] at h
  obtain ⟨c', h', h⟩ := h
  split at h
  · rename_i ho
    cases h
    simp only [passesOwn, Bool.and_eq_true, Option.isNone_iff_eq_none, decide_eq_true_eq] at ho
    exact ⟨h', ho⟩
  · cases h

/-- Without a replay, and where no log stalls, no point of arbitration is held (R334, R335). -/
theorem gateAll_go {s : State} {ctx : Nat} (h : s.scripted ctx = false) (h' : stallsFull s ctx = false) (kind : Nat)
    (keys : List W64) (r : Req) : gateAll s ctx kind keys r = .go := by
  have go (k : W64) : arbGate s ctx kind k r = .go := by
    unfold arbGate
    unfold State.scripted at h
    cases hx : mget s.ctxs ctx with
    | none => rfl
    | some x =>
      cases hr : x.replay with
      | none => simp [hr]
      | some rp => simp [hx, hr] at h; simp [hr, h]
  have room : turnsFull s ctx kind keys r = false := by
    unfold turnsFull
    unfold stallsFull at h'
    cases hx : (mget s.ctxs ctx).bind (·.ulog) with
    | none => rfl
    | some u => simp [hx] at h'; simp [h']
  unfold gateAll
  have : (keys.map fun k => arbGate s ctx kind k r).find? (fun g => decide (g ≠ .go)) = none := by
    simp [List.find?_eq_none, go]
  rw [this, room]; rfl

/-- The publications of a chain are not held where no replay runs and no log stalls. -/
theorem lastGate_go {c : Cx} {ms : List (Member × Body)} {a : ChainAcc} (h : c.pre.scripted c.ctx = false)
    (h' : stallsFull c.pre c.ctx = false) : (lastGate c ms a).1 = .go := by
  unfold lastGate
  dsimp only
  split
  · exact gateAll_go h h' _ _ _
  · rfl

/-- What is left of a chain once its party comes to its member: the member, then the end. -/
theorem issue1_reaches {b : Bool} {s : State} {p : Party} {i : Instr} {c : Cx} {body : Body} (h : reachWhere b s p i = some c) :
    issue1 i body s = match runMembers c [(soleMember s p i, body)] (accS (freshFlags c [(soleMember s p i, body)] c.pre)) with
      | .done a => .next (endChain c [(soleMember s p i, body)] [(soleMember s p i, body)] (chainEnds c [i]) (chainNarrow c [i]) a)
      | .stopped s => .next s
      | .dead pa => .fault (.noSuchMemory pa) := by
  obtain ⟨c0, h0, ht, hcan, he, hem, hc, hen, hs⟩ := reach_cases h
  simp only [passesEarly, Bool.and_eq_true, Bool.not_eq_true', Option.isNone_iff_eq_none] at he
  obtain ⟨⟨⟨⟨hbrk, hearly⟩, hmerge⟩, hexec⟩, halone⟩ := he
  simp only [passesEntry, Bool.and_eq_true, Bool.not_eq_true', decide_eq_true_eq] at hen
  obtain ⟨⟨⟨⟨hsrc, hnest⟩, hscr⟩, hstall⟩, hclose⟩ := hen
  have hmk : mkCx s p ((soleMember s p i).slot + (soleMember s p i).len - 1)
      (((s.seqOf p).bind (·.alone)).isSome) = some c0 := h0
  have hms : (soleMember s p i).ins = i := rfl
  unfold issue1
  rw [ht]
  show issueChain p [(soleMember s p i, body)] s = _
  have hrun : toRun c0 [(soleMember s p i, body)] = [(soleMember s p i, body)] := by
    unfold toRun
    cases hal : c0.seq.alone with
    | none => rfl
    | some k => simp only [hal] at halone; simp [of_decide_eq_true halone]
  rw [hms] at hsrc hnest hexec
  have hmine : mineOf c0 [(soleMember s p i, body)] = [(soleMember s p i, body)] := by
    simp [mineOf, hms, hexec]
  have hnr : notReadyWait c [(soleMember s p i, body)] = none := by
    simp only [notReadyWait, List.findSome?_cons, List.findSome?_nil, hms]
    cases hx : c.sources i <;> simp [hx] at hsrc ⊢
  have h2 : chainEnds c0 [i] = chainEnds c [i] := by rw [hc]; rfl
  have h3 : chainNarrow c0 [i] = chainNarrow c [i] := by rw [hc]; rfl
  simp only [issueChain, List.getLast?_singleton, hmk, hcan, hbrk, List.map_cons, List.map_nil, hearly, hmerge, hrun,
    hms, hmine, Bool.not_true, Bool.false_eq_true, if_false, hem]
  rw [← hc]
  simp only [runChainMembers, hnr, h2, h3, accS] <;> rfl

/-- The same of a ready member. -/
theorem issue1_runs {b : Bool} {s : State} {p : Party} {i : Instr} {c : Cx} {body : Body} (h : readyWhere b s p i = some c) :
    issue1 i body s = match runMembers c [(soleMember s p i, body)] (accS (freshFlags c [(soleMember s p i, body)] c.pre)) with
      | .done a => .next (endChain c [(soleMember s p i, body)] [(soleMember s p i, body)] (chainEnds c [i]) (chainNarrow c [i]) a)
      | .stopped s => .next s
      | .dead pa => .fault (.noSuchMemory pa) := issue1_reaches (ready_reach h).1

/-- What running a member that its party comes to is: its own checks, the tags of its sources, its meaning. -/
theorem runMember_reach {b : Bool} {s : State} {p : Party} {i : Instr} {c : Cx} {body : Body} {t : State}
    (h : reachWhere b s p i = some c) : runMember c (soleMember s p i) body t = match ownCheck c i with
      | some cls => .fault c.pre { cls := cls }
      | none => match c.sources i with
        | .fault f => .fault c.pre f
        | _ => body c t := by
  obtain ⟨c0, h0, ht, hcan, he, hem, hc, hen, hs⟩ := reach_cases h
  simp only [passesEarly, Bool.and_eq_true, Bool.not_eq_true', Option.isNone_iff_eq_none] at he
  obtain ⟨⟨_, hexec⟩, _⟩ := he
  simp only [passesEntry, Bool.and_eq_true, Bool.not_eq_true', decide_eq_true_eq] at hen
  obtain ⟨⟨⟨⟨_, hnest⟩, _⟩, _⟩, _⟩ := hen
  have hslot : { c with slot := (soleMember s p i).slot } = c := by
    rw [show (soleMember s p i).slot = c.slot from hs.symm]
  have hx : executes c.sc (soleMember s p i).ins = true := by rw [hc]; exact hexec
  simp only [runMember, hslot, hnest, hx, Bool.false_eq_true, Bool.not_true, if_false]
  rfl

/-- A ready member's meaning is what running it in its chain comes to. -/
theorem runMember_ready {b : Bool} {s : State} {p : Party} {i : Instr} {c : Cx} {body : Body} {t : State}
    (h : readyWhere b s p i = some c) : runMember c (soleMember s p i) body t = body c t := by
  obtain ⟨hr, ho, hs⟩ := ready_reach h
  rw [runMember_reach hr, ho, hs]

/-- Stack depths at a close chain look at the members, not at their meanings. -/
theorem closeBad_body {c : Cx} (m : Member) (b b' : Body) (a : ChainAcc) : closeBad c a [(m, b)] = closeBad c a [(m, b')] := by
  simp only [closeBad, List.find?_cons, List.find?_nil]
  cases (closes m.ins).isSome <;> rfl

/-- A commit looks at its members, not at their meanings. -/
theorem commit_body {c : Cx} (m : Member) (b b' : Body) (e n : Bool) (a : ChainAcc) :
    commit c [(m, b)] [(m, b)] e n a = commit c [(m, b')] [(m, b')] e n a := by
  have h1 : (mineOf c [(m, b)]).map (·.1.ins) = (mineOf c [(m, b')]).map (·.1.ins) := by
    simp only [mineOf, List.filter_cons, List.filter_nil]
    split <;> rfl
  have h2 : ownChain c [(m, b)] = ownChain c [(m, b')] := by
    simp only [ownChain, mineOf, List.filter_cons, List.filter_nil]
    split <;> rfl
  simp only [commit, closeBad_body m b b', h1, h2]

/-- Nor does the end of a chain that waits as a whole. -/
theorem awaitChain_body {c : Cx} (m : Member) (b b' : Body) (a : ChainAcc) (s : State) (w : Wait) :
    awaitChain c [(m, b)] a s w = awaitChain c [(m, b')] a s w := by
  simp only [awaitChain, closeBad_body m b b']

/-- A ready member's chain ends with what the hash check makes of the answer of its meaning; `hp`: at the close of its segment
every contribution is published. -/
theorem issue1_ends {b : Bool} {s : State} {p : Party} {i : Instr} {c : Cx} {body : Body} {a a' : ChainAcc} {r : MRes}
    (h : readyWhere b s p i = some c)
    (hb : body c (freshFlags c [(soleMember s p i, body)] c.pre) = r) (ha : accOf c i r = some a)
    (hj : refusedJump c i r = false)
    (hfr : freshFlags c [(soleMember s p i, body)] c.pre = c.pre ∨ a.await = none)
    (hw : a.await = none → walkHash c [(soleMember s p i, body)] a = .inr a')
    (hs' : a.await ≠ none → a' = a) (haw : a'.await = a.await)
    (hp : b = true → unpublished (publishAll a'.s c.p c.ctx c.engine c.g c.b c.k) c.p c.g c.b c.k = false) :
    issue1 i body s = .next (endsWith c i a') := by
  rw [issue1_runs h]
  have hrm := runMember_ready (body := body) (t := freshFlags c [(soleMember s p i, body)] c.pre) h
  rw [hb] at hrm
  obtain ⟨c0, h0, ht, hcan, he, hem, hc, hen, hs⟩ := reach_cases (ready_reach h).1
  simp only [passesEntry, Bool.and_eq_true, Bool.not_eq_true', decide_eq_true_eq] at hen
  obtain ⟨⟨⟨_, hscr⟩, hstall⟩, hclose⟩ := hen
  have hms : (soleMember s p i).ins = i := rfl
  have hsl : (soleMember s p i).slot = c.slot := hs.symm
  have hm : (⟨c.slot, lenOf i, i, false⟩ : Member) = soleMember s p i := by rw [hs]; rfl
  have hend : endChain c [(soleMember s p i, body)] [(soleMember s p i, body)] (chainEnds c [i]) (chainNarrow c [i]) a =
      endsWith c i a' := by
    unfold endChain endsWith soleOf
    rw [hm, haw]
    cases haa : a.await with
    | some e =>
      obtain ⟨t, w⟩ := e
      have : a' = a := hs' (by simp [haa])
      subst this
      exact awaitChain_body _ _ _ _ _ _
    | none =>
      have hg := lastGate_go (ms := [(soleMember s p i, body)]) (a := a) hscr hstall
      generalize lastGate c _ a = x at hg
      obtain ⟨g, ks⟩ := x
      obtain rfl : g = .go := hg
      have hroom : noRoom c [(soleMember s p i, body)] a' = none := by simp [noRoom, hstall]
      simp only [hw haa, hroom]
      have hpub : (completes c a' &&
          unpublished (publishAll a'.s c.p c.ctx c.engine c.g c.b c.k) c.p c.g c.b c.k) = false := by
        cases b with
        | false => simp [completes, hclose]
        | true => rw [hp rfl]; simp
      rw [hpub]
      exact commit_body _ _ _ _ _ _
  cases r <;> simp only [accOf, reduceCtorEq, Option.some.injEq] at ha <;> simp only [refusedJump] at hj
  all_goals
    subst ha
    first
    | (simp only [runMembers, hrm, hms, hsl, accS]
       exact congrArg _ hend)
    | (simp only [runMembers, hrm, hms, hsl, accS, hj, Bool.false_eq_true, if_false]
       exact congrArg _ hend)
    | (simp only [runMembers, hrm, accS]
       rw [hfr.resolve_right (by simp)]
       exact congrArg _ hend)

/-- A ready member's chain commits with the answer of its meaning. -/
theorem issue1_commits {b : Bool} {s : State} {p : Party} {i : Instr} {c : Cx} {body : Body} {a : ChainAcc} {r : MRes}
    (h : readyWhere b s p i = some c)
    (hb : body c (freshFlags c [(soleMember s p i, body)] c.pre) = r) (ha : accOf c i r = some a)
    (hfr : freshFlags c [(soleMember s p i, body)] c.pre = c.pre ∨ a.await = none)
    (hw : a.await = none → walkHash c [(soleMember s p i, body)] a = .inr a)
    (hp : b = true → published c i r) : issue1 i body s = .next (finish1 c i r) := by
  by_cases hj : refusedJump c i r = true
  · have hrm := runMember_ready (body := body) (t := freshFlags c [(soleMember s p i, body)] c.pre) h
    rw [hb] at hrm
    obtain ⟨_, _, _, _, _, _, _, _, hs⟩ := reach_cases (ready_reach h).1
    rw [issue1_runs h]
    cases r <;> simp only [refusedJump, Bool.false_eq_true] at hj
    all_goals
      simp only [runMembers, hrm, accS, finish1, refusedJump, hj, if_true, hs]
      rw [show (soleMember s p i).ins = i from rfl, hj]
      rfl
  · rw [Bool.not_eq_true] at hj
    rw [issue1_ends h hb ha hj hfr hw (fun _ => rfl) rfl fun hb => hp hb a ha]
    simp only [finish1, ha, hj, Bool.false_eq_true, if_false]

/-- A ready member whose meaning raises a fault takes it, from the state that the meaning left beside it. -/
theorem issue1_faults {b : Bool} {s side : State} {p : Party} {i : Instr} {c : Cx} {body : Body} {f : FInfo}
    (h : readyWhere b s p i = some c)
    (hb : body c (freshFlags c [(soleMember s p i, body)] c.pre) = .fault side f) :
    issue1 i body s = .next (takeFault side c.p (memberScope c.sc i { f with slot := c.slot })) := by
  have hrm := runMember_ready (body := body) (t := freshFlags c [(soleMember s p i, body)] c.pre) h
  obtain ⟨_, _, _, _, _, _, _, _, hs⟩ := reach_cases (ready_reach h).1
  rw [issue1_runs h]
  simp only [runMembers, accS, hrm, hb, hs]
  rfl

/-- A member that its own check refuses takes the fault. -/
theorem issue1_refuses {b : Bool} {s : State} {p : Party} {i : Instr} {c : Cx} {body : Body} {k : Nat}
    (h : reachWhere b s p i = some c) (hk : ownCheck c i = some k) :
    issue1 i body s = .next (takeFault c.pre c.p (memberScope c.sc i { cls := k, slot := c.slot })) := by
  have hrm := runMember_reach (body := body) (t := freshFlags c [(soleMember s p i, body)] c.pre) h
  rw [hk] at hrm
  obtain ⟨_, _, _, _, _, _, _, _, hs⟩ := reach_cases h
  rw [issue1_reaches h]
  simp only [runMembers, accS, hrm, hs]
  rfl

/-- A ready member whose meaning waits makes its party wait, with what the meaning left beside it. -/
theorem issue1_holds {b : Bool} {s side : State} {p : Party} {i : Instr} {c : Cx} {body : Body} {w : Wait}
    (h : readyWhere b s p i = some c)
    (hb : body c (freshFlags c [(soleMember s p i, body)] c.pre) = .hold side w) :
    issue1 i body s = .next (holdParty side c.p w) := by
  have hrm := runMember_ready (body := body) (t := freshFlags c [(soleMember s p i, body)] c.pre) h
  rw [issue1_runs h]
  simp only [runMembers, accS, hrm, hb]

/-- Members whose chains end without a look at the member itself: all but WMARK, whose hash is checked (R338), and CSRW,
whose chain collects its flags anew (R131). -/
def plainMember : Instr → Bool
  | .wmark .. | .csrw .. => false
  | _ => true

/-- A plain member passes the hash check at its chain's end. -/
theorem walkHash_plain {c : Cx} {m : Member} {body : Body} {a : ChainAcc} (h : plainMember m.ins = true) :
    walkHash c [(m, body)] a = .inr a := by
  unfold walkHash
  obtain ⟨sl, ln, i, b⟩ := m
  cases i <;> first | rfl | exact absurd h Bool.false_ne_true

/-- A plain member's chain runs on the state before it. -/
theorem freshFlags_plain {c : Cx} {m : Member} {body : Body} {s : State} (h : plainMember m.ins = true) :
    freshFlags c [(m, body)] s = s := by
  unfold freshFlags
  obtain ⟨sl, ln, i, b⟩ := m
  cases i <;> first | rfl | exact absurd h Bool.false_ne_true

/-- The meaning that `exec` gives a member is its meaning within a chain, issued as a chain of one. -/
theorem exec_member {i : Instr} (h : pipeOf i ≠ none) (s : State) : exec i s = issue1 i (bodyOf i) s := by
  cases i <;> first | rfl | exact absurd rfl h

/-- Where a member's meaning answers what is claimed, and that answer commits, the member executes so. -/
theorem executes_of {i : Instr} {r : Cx → MRes} {w : Cx → Prop} (he : exec i = issue1 i (bodyOf i))
    (hp : plainMember i = true) (hb : ∀ c, w c → bodyOf i c c.pre = r c ∧ (accOf c i (r c)).isSome = true) :
    ExecutesIf i w r := by
  intro s p c h hw
  obtain ⟨hr, ha⟩ := hb c hw
  obtain ⟨a, ha⟩ := Option.isSome_iff_exists.mp ha
  rw [he]
  exact issue1_commits h (by rw [freshFlags_plain hp]; exact hr) ha (.inl (freshFlags_plain hp))
    (fun _ => walkHash_plain hp) nofun

/-- Neither a replay nor a log holds up what the context does. -/
def Cx.live (c : Cx) : Prop := c.pre.scripted c.ctx = false ∧ stallsFull c.pre c.ctx = false

/-- No replay runs and no log stalls where a member is ready. -/
theorem ready_live {b : Bool} {s : State} {p : Party} {i : Instr} {c : Cx} (h : readyWhere b s p i = some c) : c.live := by
  obtain ⟨_, _, _, _, _, _, _, hen, _⟩ := reach_cases (ready_reach h).1
  simp only [passesEntry, Bool.and_eq_true, Bool.not_eq_true'] at hen
  exact ⟨hen.1.1.2, hen.1.2⟩

/-- A ready member passes every point of arbitration. -/
theorem gated_go {c : Cx} (h : c.live) (kind : Nat) (keys : List W64) (k : Unit → MRes) : c.gated kind keys k = k () := by
  unfold Cx.gated
  rw [gateAll_go h.1 h.2]

/-- A member executes so where its meaning answers it while no replay runs. -/
theorem executes_live {i : Instr} {r : Cx → MRes} {w : Cx → Prop} (he : exec i = issue1 i (bodyOf i))
    (hp : plainMember i = true) (hb : ∀ c, c.live → w c → bodyOf i c c.pre = r c)
    (ha : ∀ c, w c → (accOf c i (r c)).isSome = true) : ExecutesIf i w r := by
  intro s p c h hw
  obtain ⟨a, ha⟩ := Option.isSome_iff_exists.mp (ha c hw)
  rw [he]
  exact issue1_commits h (by rw [freshFlags_plain hp]; exact hb c (ready_live h) hw) ha (.inl (freshFlags_plain hp))
    (fun _ => walkHash_plain hp) nofun

/-- The same at the close chain of a token. -/
theorem executes_close {i : Instr} {r : Cx → MRes} {w : Cx → Prop} (he : exec i = issue1 i (bodyOf i))
    (hp : plainMember i = true) (hb : ∀ c, c.live → w c → bodyOf i c c.pre = r c)
    (ha : ∀ c, w c → (accOf c i (r c)).isSome = true) : ExecutesClose i w r := by
  intro s p c h hw hpub
  obtain ⟨a, ha⟩ := Option.isSome_iff_exists.mp (ha c hw)
  rw [he]
  exact issue1_commits h (by rw [freshFlags_plain hp]; exact hb c (ready_live h) hw) ha (.inl (freshFlags_plain hp))
    (fun _ => walkHash_plain hp) fun _ => hpub

/-- The same without a condition. -/
theorem executes_all {i : Instr} {r : Cx → MRes} (he : exec i = issue1 i (bodyOf i)) (hp : plainMember i = true)
    (hb : ∀ c, bodyOf i c c.pre = r c ∧ (accOf c i (r c)).isSome = true) : Executes i r :=
  fun s p c h => executes_of (w := fun _ => True) he hp (fun c _ => hb c) s p c h trivial

/-- Where a member's meaning raises what is claimed, the member raises it. -/
theorem raises_of {i : Instr} {f : Cx → FInfo} {w : Cx → Prop} (he : exec i = issue1 i (bodyOf i))
    (hp : plainMember i = true) (hb : ∀ c, w c → bodyOf i c c.pre = .fault c.pre (f c)) : RaisesIf i w f := by
  intro s p c h hw
  rw [he]
  exact issue1_faults h (by rw [freshFlags_plain hp]; exact hb c hw)

/-- Where a member's own check refuses it, it is refused. -/
theorem refuses_of {i : Instr} {k : Nat} {w : Cx → Prop} (he : exec i = issue1 i (bodyOf i))
    (hk : ∀ c, w c → ownCheck c i = some k) : RefusesIf i w k := by
  intro s p c h hw
  rw [he]
  exact issue1_refuses h (hk c hw)

/-- Where a member's meaning waits, the party waits. -/
theorem waits_of {i : Instr} {r : Cx → Wait} {w : Cx → Prop} (he : exec i = issue1 i (bodyOf i))
    (hp : plainMember i = true) (hb : ∀ c, w c → bodyOf i c c.pre = .hold c.pre (r c)) : WaitsIf i w r := by
  intro s p c h hw
  rw [he]
  exact issue1_holds h (by rw [freshFlags_plain hp]; exact hb c hw)

end Sys2Proof.Machine
end

