-- ==== Sys2Proof/Laws/PerInstr.lean ====
section
/-! SUPPORT. The family EncodedOnce: no instruction has more than two words, and none has both words of a packet or a CPC core
and a queue command's word. -/

namespace Sys2Proof.Laws.EncodedOnce

/-- At most two words, and one kind of encoding (R45, R55, R358, R371). -/
def Statement (i : Instr) : Prop := (encode i).length ≤ 2 ∧ (encode i = [] ∨ encodeCmd i = none)

theorem bt (x0 : Scope) (x1 : PredSel) (x2 : BitVec 14) : Statement (.bt x0 x1 x2) := ⟨Nat.le_of_ble_eq_true rfl, .inr rfl⟩
theorem bf (x0 : Scope) (x1 : PredSel) (x2 : BitVec 14) : Statement (.bf x0 x1 x2) := ⟨Nat.le_of_ble_eq_true rfl, .inr rfl⟩
theorem jmp (x0 : Scope) (x1 : BitVec 18) : Statement (.jmp x0 x1) := ⟨Nat.le_of_ble_eq_true rfl, .inr rfl⟩
theorem loop (x0 : Scope) (x1 : Operand) (x2 : BitVec 13) : Statement (.loop x0 x1 x2) := ⟨Nat.le_of_ble_eq_true rfl, .inr rfl⟩
theorem endl (x0 : Scope) (x1 : BitVec 13) : Statement (.endl x0 x1) := ⟨Nat.le_of_ble_eq_true rfl, .inr rfl⟩
theorem call (x0 : Scope) (x1 : BitVec 18) : Statement (.call x0 x1) := ⟨Nat.le_of_ble_eq_true rfl, .inr rfl⟩
theorem callFrame (x0 : Scope) (x1 : BitVec 2) (x2 : BitVec 18) : Statement (.callFrame x0 x1 x2) := ⟨Nat.le_of_ble_eq_true rfl, .inr rfl⟩
theorem ret (x0 : Scope) : Statement (.ret x0) := ⟨Nat.le_of_ble_eq_true rfl, .inr rfl⟩
theorem frdef (x0 : Scope) (x1 : BitVec 2) (x2 : BitVec 1) (x3 : BitVec 8) (x4 : BitVec 24) : Statement (.frdef x0 x1 x2 x3 x4) := ⟨Nat.le_of_ble_eq_true rfl, .inr rfl⟩
theorem frfence (x0 : Scope) (x1 : BitVec 2) : Statement (.frfence x0 x1) := ⟨Nat.le_of_ble_eq_true rfl, .inr rfl⟩
theorem spawn (x0 x1 : Operand) (x2 : BitVec 2) (x3 : BitVec 5) (x4 : BitVec 11) : Statement (.spawn x0 x1 x2 x3 x4) := ⟨Nat.le_of_ble_eq_true rfl, .inr rfl⟩
theorem launch (x0 x1 x2 x3 : BitVec 5) : Statement (.launch x0 x1 x2 x3) := ⟨Nat.le_of_ble_eq_true rfl, .inr rfl⟩
theorem waitf (x0 : BitVec 12) : Statement (.waitf x0) := ⟨Nat.le_of_ble_eq_true rfl, .inr rfl⟩
theorem bar (x0 : BitVec 7) (x1 : BitVec 5) : Statement (.bar x0 x1) := ⟨Nat.le_of_ble_eq_true rfl, .inr rfl⟩
theorem barArr (x0 : BitVec 7) (x1 : BitVec 5) : Statement (.barArr x0 x1) := ⟨Nat.le_of_ble_eq_true rfl, .inr rfl⟩
theorem waitm (x0 : Operand) (x1 : BitVec 5) (x2 : Operand) (x3 : Size) (x4 : Bool) (x5 : MemExt) (x6 : BitVec 3) : Statement (.waitm x0 x1 x2 x3 x4 x5 x6) := ⟨Nat.le_of_ble_eq_true rfl, .inr rfl⟩
theorem swi (x0 : Operand) (x1 : BitVec 11) : Statement (.swi x0 x1) := ⟨Nat.le_of_ble_eq_true rfl, .inr rfl⟩
theorem trap (x0 : BitVec 8) : Statement (.trap x0) := ⟨Nat.le_of_ble_eq_true rfl, .inr rfl⟩
theorem brk (x0 : BitVec 8) : Statement (.brk x0) := ⟨Nat.le_of_ble_eq_true rfl, .inr rfl⟩
theorem wmark (x0 : Scope) (x1 : BitVec 16) : Statement (.wmark x0 x1) := ⟨Nat.le_of_ble_eq_true rfl, .inr rfl⟩
theorem pushm (x0 : Operand) (x1 : BitVec 7) : Statement (.pushm x0 x1) := ⟨Nat.le_of_ble_eq_true rfl, .inr rfl⟩
theorem popm (x0 : Operand) (x1 : BitVec 7) : Statement (.popm x0 x1) := ⟨Nat.le_of_ble_eq_true rfl, .inr rfl⟩
theorem iadd (x0 x1 x2 : Operand) : Statement (.iadd x0 x1 x2) := ⟨Nat.le_of_ble_eq_true rfl, .inr rfl⟩
theorem isub (x0 x1 x2 : Operand) : Statement (.isub x0 x1 x2) := ⟨Nat.le_of_ble_eq_true rfl, .inr rfl⟩
theorem imul (x0 x1 x2 : Operand) : Statement (.imul x0 x1 x2) := ⟨Nat.le_of_ble_eq_true rfl, .inr rfl⟩
theorem imulhs (x0 x1 x2 : Operand) : Statement (.imulhs x0 x1 x2) := ⟨Nat.le_of_ble_eq_true rfl, .inr rfl⟩
theorem imulhu (x0 x1 x2 : Operand) : Statement (.imulhu x0 x1 x2) := ⟨Nat.le_of_ble_eq_true rfl, .inr rfl⟩
theorem imad (x0 x1 x2 x3 : Operand) (x4 : BitVec 2) : Statement (.imad x0 x1 x2 x3 x4) := ⟨Nat.le_of_ble_eq_true rfl, .inr rfl⟩
theorem imin (x0 x1 x2 : Operand) : Statement (.imin x0 x1 x2) := ⟨Nat.le_of_ble_eq_true rfl, .inr rfl⟩
theorem imax (x0 x1 x2 : Operand) : Statement (.imax x0 x1 x2) := ⟨Nat.le_of_ble_eq_true rfl, .inr rfl⟩
theorem umin (x0 x1 x2 : Operand) : Statement (.umin x0 x1 x2) := ⟨Nat.le_of_ble_eq_true rfl, .inr rfl⟩
theorem umax (x0 x1 x2 : Operand) : Statement (.umax x0 x1 x2) := ⟨Nat.le_of_ble_eq_true rfl, .inr rfl⟩
theorem iabs (x0 x1 : Operand) : Statement (.iabs x0 x1) := ⟨Nat.le_of_ble_eq_true rfl, .inr rfl⟩
theorem iadds (x0 x1 x2 : Operand) : Statement (.iadds x0 x1 x2) := ⟨Nat.le_of_ble_eq_true rfl, .inr rfl⟩
theorem and (x0 x1 x2 : Operand) : Statement (.and x0 x1 x2) := ⟨Nat.le_of_ble_eq_true rfl, .inr rfl⟩
theorem or (x0 x1 x2 : Operand) : Statement (.or x0 x1 x2) := ⟨Nat.le_of_ble_eq_true rfl, .inr rfl⟩
theorem xor (x0 x1 x2 : Operand) : Statement (.xor x0 x1 x2) := ⟨Nat.le_of_ble_eq_true rfl, .inr rfl⟩
theorem shl (x0 x1 x2 : Operand) : Statement (.shl x0 x1 x2) := ⟨Nat.le_of_ble_eq_true rfl, .inr rfl⟩
theorem shr (x0 x1 x2 : Operand) : Statement (.shr x0 x1 x2) := ⟨Nat.le_of_ble_eq_true rfl, .inr rfl⟩
theorem sar (x0 x1 x2 : Operand) : Statement (.sar x0 x1 x2) := ⟨Nat.le_of_ble_eq_true rfl, .inr rfl⟩
theorem popc (x0 x1 : Operand) : Statement (.popc x0 x1) := ⟨Nat.le_of_ble_eq_true rfl, .inr rfl⟩
theorem clz (x0 x1 : Operand) : Statement (.clz x0 x1) := ⟨Nat.le_of_ble_eq_true rfl, .inr rfl⟩
theorem bfx (x0 x1 x2 : Operand) (x3 : Bool) (x4 : BitVec 5) (x5 : Bool) (x6 : BitVec 5) : Statement (.bfx x0 x1 x2 x3 x4 x5 x6) := ⟨Nat.le_of_ble_eq_true rfl, .inr rfl⟩
theorem bfi (x0 x1 x2 : Operand) (x3 : Bool) (x4 x5 : BitVec 5) : Statement (.bfi x0 x1 x2 x3 x4 x5) := ⟨Nat.le_of_ble_eq_true rfl, .inr rfl⟩
theorem sel (x0 x1 x2 : Operand) (x3 : PredSel) : Statement (.sel x0 x1 x2 x3) := ⟨Nat.le_of_ble_eq_true rfl, .inr rfl⟩
theorem mov (x0 x1 : Operand) : Statement (.mov x0 x1) := ⟨Nat.le_of_ble_eq_true rfl, .inr rfl⟩
theorem movil (x0 : Operand) (x1 : BitVec 16) : Statement (.movil x0 x1) := ⟨Nat.le_of_ble_eq_true rfl, .inr rfl⟩
theorem movih (x0 : Operand) (x1 : BitVec 16) : Statement (.movih x0 x1) := ⟨Nat.le_of_ble_eq_true rfl, .inr rfl⟩
theorem icmp (x0 : PredSel) (x1 : BitVec 2) (x2 x3 : Operand) : Statement (.icmp x0 x1 x2 x3) := ⟨Nat.le_of_ble_eq_true rfl, .inr rfl⟩
theorem ucmp (x0 : PredSel) (x1 : BitVec 2) (x2 x3 : Operand) : Statement (.ucmp x0 x1 x2 x3) := ⟨Nat.le_of_ble_eq_true rfl, .inr rfl⟩
theorem fadd (x0 x1 x2 : Operand) : Statement (.fadd x0 x1 x2) := ⟨Nat.le_of_ble_eq_true rfl, .inr rfl⟩
theorem fsub (x0 x1 x2 : Operand) : Statement (.fsub x0 x1 x2) := ⟨Nat.le_of_ble_eq_true rfl, .inr rfl⟩
theorem fmul (x0 x1 x2 : Operand) : Statement (.fmul x0 x1 x2) := ⟨Nat.le_of_ble_eq_true rfl, .inr rfl⟩
theorem ffma (x0 x1 x2 x3 : Operand) (x4 x5 : Bool) : Statement (.ffma x0 x1 x2 x3 x4 x5) := ⟨Nat.le_of_ble_eq_true rfl, .inr rfl⟩
theorem fmin (x0 x1 x2 : Operand) : Statement (.fmin x0 x1 x2) := ⟨Nat.le_of_ble_eq_true rfl, .inr rfl⟩
theorem fmax (x0 x1 x2 : Operand) : Statement (.fmax x0 x1 x2) := ⟨Nat.le_of_ble_eq_true rfl, .inr rfl⟩
theorem fcmp (x0 : PredSel) (x1 : BitVec 2) (x2 x3 : Operand) : Statement (.fcmp x0 x1 x2 x3) := ⟨Nat.le_of_ble_eq_true rfl, .inr rfl⟩
theorem frcp (x0 x1 : Operand) : Statement (.frcp x0 x1) := ⟨Nat.le_of_ble_eq_true rfl, .inr rfl⟩
theorem frsq (x0 x1 : Operand) : Statement (.frsq x0 x1) := ⟨Nat.le_of_ble_eq_true rfl, .inr rfl⟩
theorem fsqrt (x0 x1 : Operand) : Statement (.fsqrt x0 x1) := ⟨Nat.le_of_ble_eq_true rfl, .inr rfl⟩
theorem fex2 (x0 x1 : Operand) : Statement (.fex2 x0 x1) := ⟨Nat.le_of_ble_eq_true rfl, .inr rfl⟩
theorem flg2 (x0 x1 : Operand) : Statement (.flg2 x0 x1) := ⟨Nat.le_of_ble_eq_true rfl, .inr rfl⟩
theorem hadd2 (x0 x1 x2 : Operand) : Statement (.hadd2 x0 x1 x2) := ⟨Nat.le_of_ble_eq_true rfl, .inr rfl⟩
theorem hmul2 (x0 x1 x2 : Operand) : Statement (.hmul2 x0 x1 x2) := ⟨Nat.le_of_ble_eq_true rfl, .inr rfl⟩
theorem hfma2 (x0 x1 x2 x3 : Operand) (x4 x5 : Bool) : Statement (.hfma2 x0 x1 x2 x3 x4 x5) := ⟨Nat.le_of_ble_eq_true rfl, .inr rfl⟩
theorem cvt (x0 x1 : Operand) (x2 x3 : BitVec 4) : Statement (.cvt x0 x1 x2 x3) := ⟨Nat.le_of_ble_eq_true rfl, .inr rfl⟩
theorem cvtq (x0 x1 x2 : Operand) (x3 : BitVec 3) (x4 : BitVec 2) (x5 : BitVec 3) : Statement (.cvtq x0 x1 x2 x3 x4 x5) := ⟨Nat.le_of_ble_eq_true rfl, .inr rfl⟩
theorem frnd (x0 x1 : Operand) (x2 : BitVec 8) : Statement (.frnd x0 x1 x2) := ⟨Nat.le_of_ble_eq_true rfl, .inr rfl⟩
theorem fscl (x0 x1 x2 : Operand) : Statement (.fscl x0 x1 x2) := ⟨Nat.le_of_ble_eq_true rfl, .inr rfl⟩
theorem fcls (x0 x1 : Operand) (x2 : BitVec 8) : Statement (.fcls x0 x1 x2) := ⟨Nat.le_of_ble_eq_true rfl, .inr rfl⟩
theorem vote (x0 x1 : Operand) (x2 : BitVec 2) (x3 : PredSel) : Statement (.vote x0 x1 x2 x3) := ⟨Nat.le_of_ble_eq_true rfl, .inr rfl⟩
theorem pfxc (x0 x1 : Operand) (x2 : BitVec 2) (x3 : PredSel) : Statement (.pfxc x0 x1 x2 x3) := ⟨Nat.le_of_ble_eq_true rfl, .inr rfl⟩
theorem shfl (x0 x1 x2 : Operand) : Statement (.shfl x0 x1 x2) := ⟨Nat.le_of_ble_eq_true rfl, .inr rfl⟩
theorem rdfirst (x0 x1 : Operand) : Statement (.rdfirst x0 x1) := ⟨Nat.le_of_ble_eq_true rfl, .inr rfl⟩
theorem rdlane (x0 x1 x2 : Operand) : Statement (.rdlane x0 x1 x2) := ⟨Nat.le_of_ble_eq_true rfl, .inr rfl⟩
theorem reduce (x0 x1 : Operand) (x2 : BitVec 8) : Statement (.reduce x0 x1 x2) := ⟨Nat.le_of_ble_eq_true rfl, .inr rfl⟩
theorem plog (x0 : BitVec 2) (x1 : PredSel) (x2 : BitVec 2) (x3 x4 : PredSel) : Statement (.plog x0 x1 x2 x3 x4) := ⟨Nat.le_of_ble_eq_true rfl, .inr rfl⟩
theorem actm (x0 x1 : Operand) (x2 : BitVec 8) : Statement (.actm x0 x1 x2) := ⟨Nat.le_of_ble_eq_true rfl, .inr rfl⟩
theorem sadd (x0 x1 x2 : Operand) : Statement (.sadd x0 x1 x2) := ⟨Nat.le_of_ble_eq_true rfl, .inr rfl⟩
theorem ssub (x0 x1 x2 : Operand) : Statement (.ssub x0 x1 x2) := ⟨Nat.le_of_ble_eq_true rfl, .inr rfl⟩
theorem smul (x0 x1 x2 : Operand) : Statement (.smul x0 x1 x2) := ⟨Nat.le_of_ble_eq_true rfl, .inr rfl⟩
theorem sand (x0 x1 x2 : Operand) : Statement (.sand x0 x1 x2) := ⟨Nat.le_of_ble_eq_true rfl, .inr rfl⟩
theorem sor (x0 x1 x2 : Operand) : Statement (.sor x0 x1 x2) := ⟨Nat.le_of_ble_eq_true rfl, .inr rfl⟩
theorem sxor (x0 x1 x2 : Operand) : Statement (.sxor x0 x1 x2) := ⟨Nat.le_of_ble_eq_true rfl, .inr rfl⟩
theorem sshl (x0 x1 x2 : Operand) : Statement (.sshl x0 x1 x2) := ⟨Nat.le_of_ble_eq_true rfl, .inr rfl⟩
theorem sshr (x0 x1 x2 : Operand) : Statement (.sshr x0 x1 x2) := ⟨Nat.le_of_ble_eq_true rfl, .inr rfl⟩
theorem smov (x0 x1 : Operand) : Statement (.smov x0 x1) := ⟨Nat.le_of_ble_eq_true rfl, .inr rfl⟩
theorem smovi (x0 : Operand) (x1 : BitVec 16) : Statement (.smovi x0 x1) := ⟨Nat.le_of_ble_eq_true rfl, .inr rfl⟩
theorem smovx (x0 x1 : Operand) (x2 : BitVec 2) (x3 : BitVec 24) : Statement (.smovx x0 x1 x2 x3) := ⟨Nat.le_of_ble_eq_true rfl, .inr rfl⟩
theorem scmp (x0 : PredSel) (x1 : BitVec 2) (x2 x3 : Operand) : Statement (.scmp x0 x1 x2 x3) := ⟨Nat.le_of_ble_eq_true rfl, .inr rfl⟩
theorem ld (x0 : Operand) (x1 : BitVec 5) (x2 : Operand) (x3 : Size) (x4 : Bool) : Statement (.ld x0 x1 x2 x3 x4) := ⟨Nat.le_of_ble_eq_true rfl, .inr rfl⟩
theorem ldExt (x0 : Operand) (x1 : BitVec 5) (x2 : Operand) (x3 : Size) (x4 : Bool) (x5 : MemExt) (x6 : Bool) : Statement (.ldExt x0 x1 x2 x3 x4 x5 x6) := ⟨Nat.le_of_ble_eq_true rfl, .inr rfl⟩
theorem st (x0 : Operand) (x1 : BitVec 5) (x2 : Operand) (x3 : Size) (x4 : Bool) : Statement (.st x0 x1 x2 x3 x4) := ⟨Nat.le_of_ble_eq_true rfl, .inr rfl⟩
theorem stExt (x0 : Operand) (x1 : BitVec 5) (x2 : Operand) (x3 : Size) (x4 : Bool) (x5 : MemExt) : Statement (.stExt x0 x1 x2 x3 x4 x5) := ⟨Nat.le_of_ble_eq_true rfl, .inr rfl⟩
theorem lds (x0 : Operand) (x1 : BitVec 5) (x2 : Operand) (x3 : Size) (x4 : Bool) : Statement (.lds x0 x1 x2 x3 x4) := ⟨Nat.le_of_ble_eq_true rfl, .inr rfl⟩
theorem ldsExt (x0 : Operand) (x1 : BitVec 5) (x2 : Operand) (x3 : Size) (x4 : Bool) (x5 : MemExt) (x6 : Bool) : Statement (.ldsExt x0 x1 x2 x3 x4 x5 x6) := ⟨Nat.le_of_ble_eq_true rfl, .inr rfl⟩
theorem sts (x0 : Operand) (x1 : BitVec 5) (x2 : Operand) (x3 : Size) (x4 : Bool) : Statement (.sts x0 x1 x2 x3 x4) := ⟨Nat.le_of_ble_eq_true rfl, .inr rfl⟩
theorem stsExt (x0 : Operand) (x1 : BitVec 5) (x2 : Operand) (x3 : Size) (x4 : Bool) (x5 : MemExt) : Statement (.stsExt x0 x1 x2 x3 x4 x5) := ⟨Nat.le_of_ble_eq_true rfl, .inr rfl⟩
theorem ldstr (x0 : Operand) (x1 : BitVec 5) (x2 : Operand) (x3 : Size) (x4 : Bool) (x5 : MemExt) (x6 : BitVec 3) : Statement (.ldstr x0 x1 x2 x3 x4 x5 x6) := ⟨Nat.le_of_ble_eq_true rfl, .inr rfl⟩
theorem ststr (x0 : Operand) (x1 : BitVec 5) (x2 : Operand) (x3 : Size) (x4 : Bool) (x5 : MemExt) (x6 : BitVec 3) : Statement (.ststr x0 x1 x2 x3 x4 x5 x6) := ⟨Nat.le_of_ble_eq_true rfl, .inr rfl⟩
theorem cpst (x0 : Operand) (x1 : BitVec 5) (x2 : Operand) (x3 : Size) (x4 : Bool) (x5 : MemExt) (x6 : PredSel) : Statement (.cpst x0 x1 x2 x3 x4 x5 x6) := ⟨Nat.le_of_ble_eq_true rfl, .inr rfl⟩
theorem pmov (x0 : Bool) (x1 : PredSel) (x2 : BitVec 5) : Statement (.pmov x0 x1 x2) := ⟨Nat.le_of_ble_eq_true rfl, .inr rfl⟩
theorem pmovExt (x0 : Bool) (x1 : PredSel) (x2 : BitVec 5) (x3 : MemExt) : Statement (.pmovExt x0 x1 x2 x3) := ⟨Nat.le_of_ble_eq_true rfl, .inr rfl⟩
theorem pref (x0 : BitVec 5) (x1 : Operand) (x2 : Size) (x3 : Bool) : Statement (.pref x0 x1 x2 x3) := ⟨Nat.le_of_ble_eq_true rfl, .inr rfl⟩
theorem prefExt (x0 : BitVec 5) (x1 : Operand) (x2 : Size) (x3 : Bool) (x4 : MemExt) : Statement (.prefExt x0 x1 x2 x3 x4) := ⟨Nat.le_of_ble_eq_true rfl, .inr rfl⟩
theorem atom (x0 : Operand) (x1 : BitVec 5) (x2 : Operand) (x3 : Size) (x4 : Bool) (x5 : MemExt) (x6 : Bool) (x7 : Operand) (x8 : BitVec 4) : Statement (.atom x0 x1 x2 x3 x4 x5 x6 x7 x8) := ⟨Nat.le_of_ble_eq_true rfl, .inr rfl⟩
theorem cas (x0 : Operand) (x1 : BitVec 5) (x2 : Operand) (x3 : Size) (x4 : Bool) (x5 : MemExt) (x6 : Bool) (x7 x8 : Operand) : Statement (.cas x0 x1 x2 x3 x4 x5 x6 x7 x8) := ⟨Nat.le_of_ble_eq_true rfl, .inr rfl⟩
theorem atoms (x0 : Operand) (x1 : BitVec 5) (x2 : Operand) (x3 : Size) (x4 : Bool) (x5 : MemExt) (x6 : Bool) (x7 : Operand) (x8 : BitVec 4) : Statement (.atoms x0 x1 x2 x3 x4 x5 x6 x7 x8) := ⟨Nat.le_of_ble_eq_true rfl, .inr rfl⟩
theorem fence (x0 : BitVec 2) (x1 : MScope) : Statement (.fence x0 x1) := ⟨Nat.le_of_ble_eq_true rfl, .inr rfl⟩
theorem bop (x0 : BitVec 5) (x1 x2 : Operand) (x3 : Bool) (x4 : MemExt) (x5 : BitVec 4) : Statement (.bop x0 x1 x2 x3 x4 x5) := ⟨Nat.le_of_ble_eq_true rfl, .inr rfl⟩
theorem copy (x0 x1 : BitVec 5) (x2 : Operand) (x3 : BitVec 4) (x4 : MemExt) : Statement (.copy x0 x1 x2 x3 x4) := ⟨Nat.le_of_ble_eq_true rfl, .inr rfl⟩
theorem copyt (x0 x1 x2 : BitVec 5) (x3 : BitVec 4) (x4 : MemExt) : Statement (.copyt x0 x1 x2 x3 x4) := ⟨Nat.le_of_ble_eq_true rfl, .inr rfl⟩
theorem amsg (x0 x1 x2 : Operand) (x3 : MemExt) (x4 : BitVec 5) (x5 : BitVec 10) (x6 : BitVec 2) : Statement (.amsg x0 x1 x2 x3 x4 x5 x6) := ⟨Nat.le_of_ble_eq_true rfl, .inr rfl⟩
theorem mma (x0 : BitVec 5) (x1 : BitVec 3) (x2 x3 : Operand) : Statement (.mma x0 x1 x2 x3) := ⟨Nat.le_of_ble_eq_true rfl, .inr rfl⟩
theorem mmaq (x0 : BitVec 5) (x1 x2 : Operand) (x3 x4 : BitVec 3) (x5 x6 : Operand) : Statement (.mmaq x0 x1 x2 x3 x4 x5 x6) := ⟨Nat.le_of_ble_eq_true rfl, .inr rfl⟩
theorem mmasp (x0 : BitVec 5) (x1 : BitVec 3) (x2 x3 x4 : Operand) : Statement (.mmasp x0 x1 x2 x3 x4) := ⟨Nat.le_of_ble_eq_true rfl, .inr rfl⟩
theorem aclr (x0 x1 : BitVec 5) : Statement (.aclr x0 x1) := ⟨Nat.le_of_ble_eq_true rfl, .inr rfl⟩
theorem ard (x0 : BitVec 5) (x1 : BitVec 2) (x2 : BitVec 3) (x3 : BitVec 4) (x4 : Operand) : Statement (.ard x0 x1 x2 x3 x4) := ⟨Nat.le_of_ble_eq_true rfl, .inr rfl⟩
theorem awr (x0 : BitVec 5) (x1 : BitVec 2) (x2 : BitVec 3) (x3 : BitVec 4) (x4 : Operand) : Statement (.awr x0 x1 x2 x3 x4) := ⟨Nat.le_of_ble_eq_true rfl, .inr rfl⟩
theorem ascl (x0 : BitVec 5) (x1 : Operand) : Statement (.ascl x0 x1) := ⟨Nat.le_of_ble_eq_true rfl, .inr rfl⟩
theorem csrr (x0 : Operand) (x1 : BitVec 12) : Statement (.csrr x0 x1) := ⟨Nat.le_of_ble_eq_true rfl, .inr rfl⟩
theorem csrw (x0 : Operand) (x1 : BitVec 12) : Statement (.csrw x0 x1) := ⟨Nat.le_of_ble_eq_true rfl, .inr rfl⟩
theorem clkr (x0 : Operand) (x1 : BitVec 2) : Statement (.clkr x0 x1) := ⟨Nat.le_of_ble_eq_true rfl, .inr rfl⟩
theorem mark (x0 : Operand) (x1 : BitVec 16) : Statement (.mark x0 x1) := ⟨Nat.le_of_ble_eq_true rfl, .inr rfl⟩
theorem pcnt (x0 : Operand) (x1 : BitVec 8) : Statement (.pcnt x0 x1) := ⟨Nat.le_of_ble_eq_true rfl, .inr rfl⟩
theorem packetFetch (x0 : Party) : Statement (.packetFetch x0) := ⟨Nat.le_of_ble_eq_true rfl, .inr rfl⟩
theorem tokenReceive (x0 : Party) : Statement (.tokenReceive x0) := ⟨Nat.le_of_ble_eq_true rfl, .inr rfl⟩
theorem settleWaitEnd (x0 : Party) : Statement (.settleWaitEnd x0) := ⟨Nat.le_of_ble_eq_true rfl, .inr rfl⟩
theorem binTimerExpiry (x0 x1 : Nat) : Statement (.binTimerExpiry x0 x1) := ⟨Nat.le_of_ble_eq_true rfl, .inr rfl⟩
theorem binFormOnSlotFree (x0 x1 : Nat) : Statement (.binFormOnSlotFree x0 x1) := ⟨Nat.le_of_ble_eq_true rfl, .inr rfl⟩
theorem spawnRetry (x0 : Party) : Statement (.spawnRetry x0) := ⟨Nat.le_of_ble_eq_true rfl, .inr rfl⟩
theorem teamRetire (x0 : Party) : Statement (.teamRetire x0) := ⟨Nat.le_of_ble_eq_true rfl, .inr rfl⟩
theorem blockPlacement (x0 x1 : Nat) : Statement (.blockPlacement x0 x1) := ⟨Nat.le_of_ble_eq_true rfl, .inr rfl⟩
theorem gridLaunchAccept (x0 : Nat) : Statement (.gridLaunchAccept x0) := ⟨Nat.le_of_ble_eq_true rfl, .inr rfl⟩
theorem forwardProgressSave (x0 x1 : Nat) : Statement (.forwardProgressSave x0 x1) := ⟨Nat.le_of_ble_eq_true rfl, .inr rfl⟩
theorem savedBlockRestore (x0 x1 : Nat) : Statement (.savedBlockRestore x0 x1) := ⟨Nat.le_of_ble_eq_true rfl, .inr rfl⟩
theorem waitmWake (x0 : Party) : Statement (.waitmWake x0) := ⟨Nat.le_of_ble_eq_true rfl, .inr rfl⟩
theorem waitmPeriodicRead (x0 : Party) : Statement (.waitmPeriodicRead x0) := ⟨Nat.le_of_ble_eq_true rfl, .inr rfl⟩
theorem messageDeposit (x0 : Nat) : Statement (.messageDeposit x0) := ⟨Nat.le_of_ble_eq_true rfl, .inr rfl⟩
theorem tileOperation (x0 x1 : Nat) : Statement (.tileOperation x0 x1) := ⟨Nat.le_of_ble_eq_true rfl, .inr rfl⟩
theorem copyStart (x0 : Nat) : Statement (.copyStart x0) := ⟨Nat.le_of_ble_eq_true rfl, .inr rfl⟩
theorem copyComplete (x0 : Nat) : Statement (.copyComplete x0) := ⟨Nat.le_of_ble_eq_true rfl, .inr rfl⟩
theorem copyFail (x0 : Nat) : Statement (.copyFail x0) := ⟨Nat.le_of_ble_eq_true rfl, .inr rfl⟩
theorem parkedAccessResume (x0 : Party) : Statement (.parkedAccessResume x0) := ⟨Nat.le_of_ble_eq_true rfl, .inr rfl⟩
theorem loadDataReturn (x0 : Party) : Statement (.loadDataReturn x0) := ⟨Nat.le_of_ble_eq_true rfl, .inr rfl⟩
theorem storePerform (x0 : Party) : Statement (.storePerform x0) := ⟨Nat.le_of_ble_eq_true rfl, .inr rfl⟩
theorem bankAluOperation (x0 : Party) : Statement (.bankAluOperation x0) := ⟨Nat.le_of_ble_eq_true rfl, .inr rfl⟩
theorem tlbMissComplete (x0 x1 : Nat) (x2 : W64) : Statement (.tlbMissComplete x0 x1 x2) := ⟨Nat.le_of_ble_eq_true rfl, .inr rfl⟩
theorem regenFillComplete (x0 : Nat) : Statement (.regenFillComplete x0) := ⟨Nat.le_of_ble_eq_true rfl, .inr rfl⟩
theorem migrationPage (x0 : Nat) : Statement (.migrationPage x0) := ⟨Nat.le_of_ble_eq_true rfl, .inr rfl⟩
theorem preemption (x0 : Nat) : Statement (.preemption x0) := ⟨Nat.le_of_ble_eq_true rfl, .inr rfl⟩
theorem csmPartCopyComplete (x0 : Nat) : Statement (.csmPartCopyComplete x0) := ⟨Nat.le_of_ble_eq_true rfl, .inr rfl⟩
theorem pcSample (x0 : Nat) : Statement (.pcSample x0) := ⟨Nat.le_of_ble_eq_true rfl, .inr rfl⟩
theorem coalescingTimerExpiry (x0 x1 : Nat) : Statement (.coalescingTimerExpiry x0 x1) := ⟨Nat.le_of_ble_eq_true rfl, .inr rfl⟩
theorem queueWaitWake (x0 : Nat) : Statement (.queueWaitWake x0) := ⟨Nat.le_of_ble_eq_true rfl, .inr rfl⟩
theorem queueWaitPeriodic (x0 : Nat) : Statement (.queueWaitPeriodic x0) := ⟨Nat.le_of_ble_eq_true rfl, .inr rfl⟩
theorem portalKick (x0 : Nat) (x1 : List W64) : Statement (.portalKick x0 x1) := ⟨Nat.le_of_ble_eq_true rfl, .inr rfl⟩
theorem queueStateResume (x0 : Nat) : Statement (.queueStateResume x0) := ⟨Nat.le_of_ble_eq_true rfl, .inr rfl⟩
theorem queueStateStop (x0 : Nat) : Statement (.queueStateStop x0) := ⟨Nat.le_of_ble_eq_true rfl, .inr rfl⟩
theorem queueStateReset (x0 : Nat) : Statement (.queueStateReset x0) := ⟨Nat.le_of_ble_eq_true rfl, .inr rfl⟩
theorem portalWriteDiscarded (x0 : Nat) : Statement (.portalWriteDiscarded x0) := ⟨Nat.le_of_ble_eq_true rfl, .inr rfl⟩
theorem ldi (x0 : BitVec 4) (x1 : BitVec 44) : Statement (.ldi x0 x1) := ⟨Nat.le_of_ble_eq_true rfl, .inl rfl⟩
theorem ldhi (x0 : BitVec 4) (x1 : BitVec 20) : Statement (.ldhi x0 x1) := ⟨Nat.le_of_ble_eq_true rfl, .inl rfl⟩
theorem add (x0 x1 x2 : BitVec 4) : Statement (.add x0 x1 x2) := ⟨Nat.le_of_ble_eq_true rfl, .inl rfl⟩
theorem addi (x0 x1 : BitVec 4) (x2 : BitVec 44) : Statement (.addi x0 x1 x2) := ⟨Nat.le_of_ble_eq_true rfl, .inl rfl⟩
theorem cmdLd (x0 x1 : BitVec 4) (x2 : BitVec 44) : Statement (.cmdLd x0 x1 x2) := ⟨Nat.le_of_ble_eq_true rfl, .inl rfl⟩
theorem cmdSt (x0 x1 : BitVec 4) (x2 : BitVec 44) : Statement (.cmdSt x0 x1 x2) := ⟨Nat.le_of_ble_eq_true rfl, .inl rfl⟩
theorem br (x0 x1 x2 : BitVec 4) (x3 : BitVec 44) : Statement (.br x0 x1 x2 x3) := ⟨Nat.le_of_ble_eq_true rfl, .inl rfl⟩
theorem dloop (x0 : BitVec 4) (x1 : BitVec 44) : Statement (.dloop x0 x1) := ⟨Nat.le_of_ble_eq_true rfl, .inl rfl⟩
theorem calli (x0 x1 : BitVec 4) : Statement (.calli x0 x1) := ⟨Nat.le_of_ble_eq_true rfl, .inl rfl⟩
theorem wait (x0 x1 x2 : BitVec 4) : Statement (.wait x0 x1 x2) := ⟨Nat.le_of_ble_eq_true rfl, .inl rfl⟩
theorem signalWrite (x0 x1 : BitVec 4) : Statement (.signalWrite x0 x1) := ⟨Nat.le_of_ble_eq_true rfl, .inl rfl⟩
theorem signalAdd (x0 x1 : BitVec 4) : Statement (.signalAdd x0 x1) := ⟨Nat.le_of_ble_eq_true rfl, .inl rfl⟩
theorem cmdCopy (x0 x1 x2 : BitVec 4) : Statement (.cmdCopy x0 x1 x2) := ⟨Nat.le_of_ble_eq_true rfl, .inl rfl⟩
theorem cmdMigrate (x0 x1 x2 : BitVec 4) (x3 : BitVec 2) : Statement (.cmdMigrate x0 x1 x2 x3) := ⟨Nat.le_of_ble_eq_true rfl, .inl rfl⟩
theorem cmdLaunch (x0 x1 x2 x3 : BitVec 4) (x4 : BitVec 2) : Statement (.cmdLaunch x0 x1 x2 x3 x4) := ⟨Nat.le_of_ble_eq_true rfl, .inl rfl⟩
theorem launchg (x0 x1 x2 : BitVec 4) : Statement (.launchg x0 x1 x2) := ⟨Nat.le_of_ble_eq_true rfl, .inl rfl⟩
theorem ctrlPreempt (x0 x1 : BitVec 4) : Statement (.ctrlPreempt x0 x1) := ⟨Nat.le_of_ble_eq_true rfl, .inl rfl⟩
theorem ctrlDisposeResume (x0 x1 : BitVec 4) : Statement (.ctrlDisposeResume x0 x1) := ⟨Nat.le_of_ble_eq_true rfl, .inl rfl⟩
theorem ctrlDisposeStep (x0 x1 : BitVec 4) : Statement (.ctrlDisposeStep x0 x1) := ⟨Nat.le_of_ble_eq_true rfl, .inl rfl⟩
theorem ctrlDisposeAbort (x0 x1 : BitVec 4) : Statement (.ctrlDisposeAbort x0 x1) := ⟨Nat.le_of_ble_eq_true rfl, .inl rfl⟩
theorem ctrlFreeze (x0 x1 : BitVec 4) : Statement (.ctrlFreeze x0 x1) := ⟨Nat.le_of_ble_eq_true rfl, .inl rfl⟩
theorem ctrlThaw (x0 x1 : BitVec 4) : Statement (.ctrlThaw x0 x1) := ⟨Nat.le_of_ble_eq_true rfl, .inl rfl⟩
theorem ctrlSetBreakpoint (x0 x1 : BitVec 4) : Statement (.ctrlSetBreakpoint x0 x1) := ⟨Nat.le_of_ble_eq_true rfl, .inl rfl⟩
theorem ctrlRestoreImage (x0 x1 : BitVec 4) : Statement (.ctrlRestoreImage x0 x1) := ⟨Nat.le_of_ble_eq_true rfl, .inl rfl⟩
theorem ctrlInvalidateTlb (x0 x1 : BitVec 4) : Statement (.ctrlInvalidateTlb x0 x1) := ⟨Nat.le_of_ble_eq_true rfl, .inl rfl⟩
theorem ctrlTrimLog (x0 x1 : BitVec 4) : Statement (.ctrlTrimLog x0 x1) := ⟨Nat.le_of_ble_eq_true rfl, .inl rfl⟩
theorem ctrlRewind (x0 x1 : BitVec 4) : Statement (.ctrlRewind x0 x1) := ⟨Nat.le_of_ble_eq_true rfl, .inl rfl⟩
theorem ctrlReplay (x0 x1 : BitVec 4) : Statement (.ctrlReplay x0 x1) := ⟨Nat.le_of_ble_eq_true rfl, .inl rfl⟩
theorem ctrlReplayToWindow (x0 x1 : BitVec 4) : Statement (.ctrlReplayToWindow x0 x1) := ⟨Nat.le_of_ble_eq_true rfl, .inl rfl⟩
theorem ctrlReplayPerturb (x0 x1 : BitVec 4) : Statement (.ctrlReplayPerturb x0 x1) := ⟨Nat.le_of_ble_eq_true rfl, .inl rfl⟩
theorem ctrlDebugRead (x0 x1 : BitVec 4) : Statement (.ctrlDebugRead x0 x1) := ⟨Nat.le_of_ble_eq_true rfl, .inl rfl⟩
theorem ctrlReleaseRetained (x0 x1 : BitVec 4) : Statement (.ctrlReleaseRetained x0 x1) := ⟨Nat.le_of_ble_eq_true rfl, .inl rfl⟩
theorem ctrlHostMarker (x0 x1 : BitVec 4) : Statement (.ctrlHostMarker x0 x1) := ⟨Nat.le_of_ble_eq_true rfl, .inl rfl⟩
theorem ctrlReverseStep (x0 x1 : BitVec 4) : Statement (.ctrlReverseStep x0 x1) := ⟨Nat.le_of_ble_eq_true rfl, .inl rfl⟩
theorem kfetch (x0 x1 x2 : BitVec 5) : Statement (.kfetch x0 x1 x2) := ⟨Nat.le_of_ble_eq_true rfl, .inr rfl⟩
theorem kbfx (x0 x1 x2 : BitVec 5) : Statement (.kbfx x0 x1 x2) := ⟨Nat.le_of_ble_eq_true rfl, .inr rfl⟩
theorem kwait (x0 x1 x2 : BitVec 5) : Statement (.kwait x0 x1 x2) := ⟨Nat.le_of_ble_eq_true rfl, .inr rfl⟩
theorem kdisp (x0 x1 x2 : BitVec 5) : Statement (.kdisp x0 x1 x2) := ⟨Nat.le_of_ble_eq_true rfl, .inr rfl⟩
theorem kjrnl (x0 x1 : BitVec 5) : Statement (.kjrnl x0 x1) := ⟨Nat.le_of_ble_eq_true rfl, .inr rfl⟩
theorem kjrnlR (x0 x1 x2 : BitVec 5) : Statement (.kjrnlR x0 x1 x2) := ⟨Nat.le_of_ble_eq_true rfl, .inr rfl⟩
theorem khold (x0 x1 x2 : BitVec 5) : Statement (.khold x0 x1 x2) := ⟨Nat.le_of_ble_eq_true rfl, .inr rfl⟩
theorem krel (x0 x1 x2 : BitVec 5) : Statement (.krel x0 x1 x2) := ⟨Nat.le_of_ble_eq_true rfl, .inr rfl⟩
theorem kroll (x0 x1 x2 : BitVec 5) : Statement (.kroll x0 x1 x2) := ⟨Nat.le_of_ble_eq_true rfl, .inr rfl⟩
theorem cpcImemUncorrectable (x0 : Nat) : Statement (.cpcImemUncorrectable x0) := ⟨Nat.le_of_ble_eq_true rfl, .inr rfl⟩
theorem railSample (x0 x1 x2 x3 : Nat) : Statement (.railSample x0 x1 x2 x3) := ⟨Nat.le_of_ble_eq_true rfl, .inr rfl⟩
theorem linkFrameError (x0 : Nat) : Statement (.linkFrameError x0) := ⟨Nat.le_of_ble_eq_true rfl, .inr rfl⟩
theorem deadlockTimeout (x0 : Nat) : Statement (.deadlockTimeout x0) := ⟨Nat.le_of_ble_eq_true rfl, .inr rfl⟩
theorem escapeReturn (x0 : Nat) : Statement (.escapeReturn x0) := ⟨Nat.le_of_ble_eq_true rfl, .inr rfl⟩
theorem peerAccess (x0 x1 : Nat) (x2 : W64) (x3 : PeerOp) : Statement (.peerAccess x0 x1 x2 x3) := ⟨Nat.le_of_ble_eq_true rfl, .inr rfl⟩
theorem peerErrorResponse (x0 : Party) (x1 : W64) : Statement (.peerErrorResponse x0 x1) := ⟨Nat.le_of_ble_eq_true rfl, .inr rfl⟩
theorem clusterLend (x0 : Nat) : Statement (.clusterLend x0) := ⟨Nat.le_of_ble_eq_true rfl, .inr rfl⟩
theorem clusterRevoke (x0 : Nat) : Statement (.clusterRevoke x0) := ⟨Nat.le_of_ble_eq_true rfl, .inr rfl⟩
theorem revocationReturn (x0 : Nat) : Statement (.revocationReturn x0) := ⟨Nat.le_of_ble_eq_true rfl, .inr rfl⟩
theorem configurationLoad (x0 : List Byte) : Statement (.configurationLoad x0) := ⟨Nat.le_of_ble_eq_true rfl, .inr rfl⟩
theorem firmwareLoad (x0 : List Byte) : Statement (.firmwareLoad x0) := ⟨Nat.le_of_ble_eq_true rfl, .inr rfl⟩
theorem partitionCreate (x0 : Nat) (x1 : BitVec 512) : Statement (.partitionCreate x0 x1) := ⟨Nat.le_of_ble_eq_true rfl, .inr rfl⟩
theorem partitionChange (x0 : Nat) (x1 : BitVec 512) : Statement (.partitionChange x0 x1) := ⟨Nat.le_of_ble_eq_true rfl, .inr rfl⟩
theorem partitionDestroy (x0 : Nat) : Statement (.partitionDestroy x0) := ⟨Nat.le_of_ble_eq_true rfl, .inr rfl⟩
theorem queueCreate (x0 x1 x2 x3 x4 x5 x6 : Nat) (x7 : W64) : Statement (.queueCreate x0 x1 x2 x3 x4 x5 x6 x7) := ⟨Nat.le_of_ble_eq_true rfl, .inr rfl⟩
theorem regenerationTableWrite (x0 x1 : Nat) (x2 : BitVec 256) : Statement (.regenerationTableWrite x0 x1 x2) := ⟨Nat.le_of_ble_eq_true rfl, .inr rfl⟩
theorem messageEndpointBind (x0 x1 : Nat) (x2 : Bool) (x3 x4 x5 : Nat) (x6 : W64) : Statement (.messageEndpointBind x0 x1 x2 x3 x4 x5 x6) := ⟨Nat.le_of_ble_eq_true rfl, .inr rfl⟩
theorem importTableWrite (x0 x1 x2 x3 : Nat) (x4 x5 : W64) (x6 : BitVec 8) : Statement (.importTableWrite x0 x1 x2 x3 x4 x5 x6) := ⟨Nat.le_of_ble_eq_true rfl, .inr rfl⟩
theorem deviceNumberAssign (x0 : BitVec 10) : Statement (.deviceNumberAssign x0) := ⟨Nat.le_of_ble_eq_true rfl, .inr rfl⟩
theorem deadlockTimeoutSet (x0 : Nat) : Statement (.deadlockTimeoutSet x0) := ⟨Nat.le_of_ble_eq_true rfl, .inr rfl⟩
theorem tenantKeyLoad (x0 : Nat) (x1 : BitVec 8) (x2 : List Byte) : Statement (.tenantKeyLoad x0 x1 x2) := ⟨Nat.le_of_ble_eq_true rfl, .inr rfl⟩
theorem turnover (x0 : Nat) (x1 x2 : Bool) (x3 : List Byte) : Statement (.turnover x0 x1 x2 x3) := ⟨Nat.le_of_ble_eq_true rfl, .inr rfl⟩
theorem hostRevoke (x0 : Nat) : Statement (.hostRevoke x0) := ⟨Nat.le_of_ble_eq_true rfl, .inr rfl⟩
theorem queueExport (x0 : Nat) : Statement (.queueExport x0) := ⟨Nat.le_of_ble_eq_true rfl, .inr rfl⟩
theorem queueImport (x0 x1 : Nat) (x2 : List Byte) : Statement (.queueImport x0 x1 x2) := ⟨Nat.le_of_ble_eq_true rfl, .inr rfl⟩
theorem examRequest (x0 : Nat) (x1 : Bool) : Statement (.examRequest x0 x1) := ⟨Nat.le_of_ble_eq_true rfl, .inr rfl⟩
theorem healthMonitorReadClear (x0 : Nat) (x1 : Bool) : Statement (.healthMonitorReadClear x0 x1) := ⟨Nat.le_of_ble_eq_true rfl, .inr rfl⟩
theorem eccInjection (x0 x1 : Nat) : Statement (.eccInjection x0 x1) := ⟨Nat.le_of_ble_eq_true rfl, .inr rfl⟩
theorem negotiateAlgorithms (x0 : List Byte) : Statement (.negotiateAlgorithms x0) := ⟨Nat.le_of_ble_eq_true rfl, .inr rfl⟩
theorem getCertificate (x0 x1 : Nat) : Statement (.getCertificate x0 x1) := ⟨Nat.le_of_ble_eq_true rfl, .inr rfl⟩
theorem challenge (x0 : List Byte) : Statement (.challenge x0) := ⟨Nat.le_of_ble_eq_true rfl, .inr rfl⟩
theorem getMeasurements (x0 x1 : Nat) (x2 : List Byte) : Statement (.getMeasurements x0 x1 x2) := ⟨Nat.le_of_ble_eq_true rfl, .inr rfl⟩
theorem keyExchange (x0 : Nat) (x1 : List Byte) : Statement (.keyExchange x0 x1) := ⟨Nat.le_of_ble_eq_true rfl, .inr rfl⟩
theorem finish (x0 : List Byte) : Statement (.finish x0) := ⟨Nat.le_of_ble_eq_true rfl, .inr rfl⟩
theorem cpcCoreInstruction (x0 : BitVec 32) : Statement (.cpcCoreInstruction x0) := ⟨Nat.le_of_ble_eq_true rfl, .inr rfl⟩
theorem hostWrite (x0 : BitVec 2) (x1 : Nat) (x2 : List Byte) : Statement (.hostWrite x0 x1 x2) := ⟨Nat.le_of_ble_eq_true rfl, .inr rfl⟩
theorem mailboxRead (x0 x1 : Nat) : Statement (.mailboxRead x0 x1) := ⟨Nat.le_of_ble_eq_true rfl, .inr rfl⟩
theorem msiXUnmask (x0 x1 : Nat) : Statement (.msiXUnmask x0 x1) := ⟨Nat.le_of_ble_eq_true rfl, .inr rfl⟩
theorem linkRetrainComplete (x0 : Nat) (x1 : Bool) : Statement (.linkRetrainComplete x0 x1) := ⟨Nat.le_of_ble_eq_true rfl, .inr rfl⟩
theorem illegalInstruction : Statement .illegalInstruction := ⟨Nat.le_of_ble_eq_true rfl, .inr rfl⟩
theorem nop : Statement .nop := ⟨Nat.le_of_ble_eq_true rfl, .inr rfl⟩
theorem exit : Statement .exit := ⟨Nat.le_of_ble_eq_true rfl, .inr rfl⟩
theorem rcfence : Statement .rcfence := ⟨Nat.le_of_ble_eq_true rfl, .inr rfl⟩
theorem cmdNop : Statement .cmdNop := ⟨Nat.le_of_ble_eq_true rfl, .inl rfl⟩
theorem reti : Statement .reti := ⟨Nat.le_of_ble_eq_true rfl, .inl rfl⟩
theorem powerOnReset : Statement .powerOnReset := ⟨Nat.le_of_ble_eq_true rfl, .inr rfl⟩
theorem healthLogRead : Statement .healthLogRead := ⟨Nat.le_of_ble_eq_true rfl, .inr rfl⟩
theorem getVersion : Statement .getVersion := ⟨Nat.le_of_ble_eq_true rfl, .inr rfl⟩
theorem getCapabilities : Statement .getCapabilities := ⟨Nat.le_of_ble_eq_true rfl, .inr rfl⟩
theorem getDigests : Statement .getDigests := ⟨Nat.le_of_ble_eq_true rfl, .inr rfl⟩

end Sys2Proof.Laws.EncodedOnce
end

