-- ==== Sys2Proof/Laws/State.lean ====
section
/-! SUPPORT. What each update of the state leaves of each field, and what the accessors read after it. -/

namespace Sys2Proof.Machine

/-! ### modGrid -/

@[simp] theorem State.modGrid_turn (s : State) (g : Nat) (f : Grid → Grid) : (s.modGrid g f).turn = s.turn := rfl
@[simp] theorem State.modGrid_seed (s : State) (g : Nat) (f : Grid → Grid) : (s.modGrid g f).seed = s.seed := rfl
@[simp] theorem State.modGrid_inputs (s : State) (g : Nat) (f : Grid → Grid) : (s.modGrid g f).inputs = s.inputs := rfl
@[simp] theorem State.modGrid_nextId (s : State) (g : Nat) (f : Grid → Grid) : (s.modGrid g f).nextId = s.nextId := rfl
@[simp] theorem State.modGrid_clk (s : State) (g : Nat) (f : Grid → Grid) : (s.modGrid g f).clk = s.clk := rfl
@[simp] theorem State.modGrid_mem (s : State) (g : Nat) (f : Grid → Grid) : (s.modGrid g f).mem = s.mem := rfl
@[simp] theorem State.modGrid_poison (s : State) (g : Nat) (f : Grid → Grid) : (s.modGrid g f).poison = s.poison := rfl
@[simp] theorem State.modGrid_poked (s : State) (g : Nat) (f : Grid → Grid) : (s.modGrid g f).poked = s.poked := rfl
@[simp] theorem State.modGrid_keyTags (s : State) (g : Nat) (f : Grid → Grid) : (s.modGrid g f).keyTags = s.keyTags := rfl
@[simp] theorem State.modGrid_tlb (s : State) (g : Nat) (f : Grid → Grid) : (s.modGrid g f).tlb = s.tlb := rfl
@[simp] theorem State.modGrid_misses (s : State) (g : Nat) (f : Grid → Grid) : (s.modGrid g f).misses = s.misses := rfl
@[simp] theorem State.modGrid_icache (s : State) (g : Nat) (f : Grid → Grid) : (s.modGrid g f).icache = s.icache := rfl
@[simp] theorem State.modGrid_rcache (s : State) (g : Nat) (f : Grid → Grid) : (s.modGrid g f).rcache = s.rcache := rfl
@[simp] theorem State.modGrid_fills (s : State) (g : Nat) (f : Grid → Grid) : (s.modGrid g f).fills = s.fills := rfl
@[simp] theorem State.modGrid_failedFills (s : State) (g : Nat) (f : Grid → Grid) : (s.modGrid g f).failedFills = s.failedFills := rfl
@[simp] theorem State.modGrid_migrs (s : State) (g : Nat) (f : Grid → Grid) : (s.modGrid g f).migrs = s.migrs := rfl
@[simp] theorem State.modGrid_grids (s : State) (g : Nat) (f : Grid → Grid) : (s.modGrid g f).grids = mmod s.grids g f := rfl
@[simp] theorem State.modGrid_clusters (s : State) (g : Nat) (f : Grid → Grid) : (s.modGrid g f).clusters = s.clusters := rfl
@[simp] theorem State.modGrid_blocks (s : State) (g : Nat) (f : Grid → Grid) : (s.modGrid g f).blocks = s.blocks := rfl
@[simp] theorem State.modGrid_teams (s : State) (g : Nat) (f : Grid → Grid) : (s.modGrid g f).teams = s.teams := rfl
@[simp] theorem State.modGrid_frames (s : State) (g : Nat) (f : Grid → Grid) : (s.modGrid g f).frames = s.frames := rfl
@[simp] theorem State.modGrid_ctxs (s : State) (g : Nat) (f : Grid → Grid) : (s.modGrid g f).ctxs = s.ctxs := rfl
@[simp] theorem State.modGrid_bins (s : State) (g : Nat) (f : Grid → Grid) : (s.modGrid g f).bins = s.bins := rfl
@[simp] theorem State.modGrid_matq (s : State) (g : Nat) (f : Grid → Grid) : (s.modGrid g f).matq = s.matq := rfl
@[simp] theorem State.modGrid_matLast (s : State) (g : Nat) (f : Grid → Grid) : (s.modGrid g f).matLast = s.matLast := rfl
@[simp] theorem State.modGrid_copies (s : State) (g : Nat) (f : Grid → Grid) : (s.modGrid g f).copies = s.copies := rfl
@[simp] theorem State.modGrid_msgs (s : State) (g : Nat) (f : Grid → Grid) : (s.modGrid g f).msgs = s.msgs := rfl
@[simp] theorem State.modGrid_launches (s : State) (g : Nat) (f : Grid → Grid) : (s.modGrid g f).launches = s.launches := rfl
@[simp] theorem State.modGrid_lamport (s : State) (g : Nat) (f : Grid → Grid) : (s.modGrid g f).lamport = s.lamport := rfl
@[simp] theorem State.modGrid_images (s : State) (g : Nat) (f : Grid → Grid) : (s.modGrid g f).images = s.images := rfl
@[simp] theorem State.modGrid_parts (s : State) (g : Nat) (f : Grid → Grid) : (s.modGrid g f).parts = s.parts := rfl
@[simp] theorem State.modGrid_queues (s : State) (g : Nat) (f : Grid → Grid) : (s.modGrid g f).queues = s.queues := rfl
@[simp] theorem State.modGrid_rollcall (s : State) (g : Nat) (f : Grid → Grid) : (s.modGrid g f).rollcall = s.rollcall := rfl
@[simp] theorem State.modGrid_fifo (s : State) (g : Nat) (f : Grid → Grid) : (s.modGrid g f).fifo = s.fifo := rfl
@[simp] theorem State.modGrid_done (s : State) (g : Nat) (f : Grid → Grid) : (s.modGrid g f).done = s.done := rfl
@[simp] theorem State.modGrid_sigs (s : State) (g : Nat) (f : Grid → Grid) : (s.modGrid g f).sigs = s.sigs := rfl
@[simp] theorem State.modGrid_sigClock (s : State) (g : Nat) (f : Grid → Grid) : (s.modGrid g f).sigClock = s.sigClock := rfl
@[simp] theorem State.modGrid_tables (s : State) (g : Nat) (f : Grid → Grid) : (s.modGrid g f).tables = s.tables := rfl
@[simp] theorem State.modGrid_vectors (s : State) (g : Nat) (f : Grid → Grid) : (s.modGrid g f).vectors = s.vectors := rfl
@[simp] theorem State.modGrid_mailboxes (s : State) (g : Nat) (f : Grid → Grid) : (s.modGrid g f).mailboxes = s.mailboxes := rfl
@[simp] theorem State.modGrid_cpcs (s : State) (g : Nat) (f : Grid → Grid) : (s.modGrid g f).cpcs = s.cpcs := rfl
@[simp] theorem State.modGrid_links (s : State) (g : Nat) (f : Grid → Grid) : (s.modGrid g f).links = s.links := rfl
@[simp] theorem State.modGrid_flows (s : State) (g : Nat) (f : Grid → Grid) : (s.modGrid g f).flows = s.flows := rfl
@[simp] theorem State.modGrid_outbox (s : State) (g : Nat) (f : Grid → Grid) : (s.modGrid g f).outbox = s.outbox := rfl
@[simp] theorem State.modGrid_reg (s : State) (g : Nat) (f : Grid → Grid) : (s.modGrid g f).reg = s.reg := rfl

/-! ### modBlock -/

@[simp] theorem State.modBlock_turn (s : State) (g b : Nat) (f : Blk → Blk) : (s.modBlock g b f).turn = s.turn := rfl
@[simp] theorem State.modBlock_seed (s : State) (g b : Nat) (f : Blk → Blk) : (s.modBlock g b f).seed = s.seed := rfl
@[simp] theorem State.modBlock_inputs (s : State) (g b : Nat) (f : Blk → Blk) : (s.modBlock g b f).inputs = s.inputs := rfl
@[simp] theorem State.modBlock_nextId (s : State) (g b : Nat) (f : Blk → Blk) : (s.modBlock g b f).nextId = s.nextId := rfl
@[simp] theorem State.modBlock_clk (s : State) (g b : Nat) (f : Blk → Blk) : (s.modBlock g b f).clk = s.clk := rfl
@[simp] theorem State.modBlock_mem (s : State) (g b : Nat) (f : Blk → Blk) : (s.modBlock g b f).mem = s.mem := rfl
@[simp] theorem State.modBlock_poison (s : State) (g b : Nat) (f : Blk → Blk) : (s.modBlock g b f).poison = s.poison := rfl
@[simp] theorem State.modBlock_poked (s : State) (g b : Nat) (f : Blk → Blk) : (s.modBlock g b f).poked = s.poked := rfl
@[simp] theorem State.modBlock_keyTags (s : State) (g b : Nat) (f : Blk → Blk) : (s.modBlock g b f).keyTags = s.keyTags := rfl
@[simp] theorem State.modBlock_tlb (s : State) (g b : Nat) (f : Blk → Blk) : (s.modBlock g b f).tlb = s.tlb := rfl
@[simp] theorem State.modBlock_misses (s : State) (g b : Nat) (f : Blk → Blk) : (s.modBlock g b f).misses = s.misses := rfl
@[simp] theorem State.modBlock_icache (s : State) (g b : Nat) (f : Blk → Blk) : (s.modBlock g b f).icache = s.icache := rfl
@[simp] theorem State.modBlock_rcache (s : State) (g b : Nat) (f : Blk → Blk) : (s.modBlock g b f).rcache = s.rcache := rfl
@[simp] theorem State.modBlock_fills (s : State) (g b : Nat) (f : Blk → Blk) : (s.modBlock g b f).fills = s.fills := rfl
@[simp] theorem State.modBlock_failedFills (s : State) (g b : Nat) (f : Blk → Blk) : (s.modBlock g b f).failedFills = s.failedFills := rfl
@[simp] theorem State.modBlock_migrs (s : State) (g b : Nat) (f : Blk → Blk) : (s.modBlock g b f).migrs = s.migrs := rfl
@[simp] theorem State.modBlock_grids (s : State) (g b : Nat) (f : Blk → Blk) : (s.modBlock g b f).grids = s.grids := rfl
@[simp] theorem State.modBlock_clusters (s : State) (g b : Nat) (f : Blk → Blk) : (s.modBlock g b f).clusters = s.clusters := rfl
@[simp] theorem State.modBlock_blocks (s : State) (g b : Nat) (f : Blk → Blk) : (s.modBlock g b f).blocks = mmod s.blocks (bKey g b) f := rfl
@[simp] theorem State.modBlock_teams (s : State) (g b : Nat) (f : Blk → Blk) : (s.modBlock g b f).teams = s.teams := rfl
@[simp] theorem State.modBlock_frames (s : State) (g b : Nat) (f : Blk → Blk) : (s.modBlock g b f).frames = s.frames := rfl
@[simp] theorem State.modBlock_ctxs (s : State) (g b : Nat) (f : Blk → Blk) : (s.modBlock g b f).ctxs = s.ctxs := rfl
@[simp] theorem State.modBlock_bins (s : State) (g b : Nat) (f : Blk → Blk) : (s.modBlock g b f).bins = s.bins := rfl
@[simp] theorem State.modBlock_matq (s : State) (g b : Nat) (f : Blk → Blk) : (s.modBlock g b f).matq = s.matq := rfl
@[simp] theorem State.modBlock_matLast (s : State) (g b : Nat) (f : Blk → Blk) : (s.modBlock g b f).matLast = s.matLast := rfl
@[simp] theorem State.modBlock_copies (s : State) (g b : Nat) (f : Blk → Blk) : (s.modBlock g b f).copies = s.copies := rfl
@[simp] theorem State.modBlock_msgs (s : State) (g b : Nat) (f : Blk → Blk) : (s.modBlock g b f).msgs = s.msgs := rfl
@[simp] theorem State.modBlock_launches (s : State) (g b : Nat) (f : Blk → Blk) : (s.modBlock g b f).launches = s.launches := rfl
@[simp] theorem State.modBlock_lamport (s : State) (g b : Nat) (f : Blk → Blk) : (s.modBlock g b f).lamport = s.lamport := rfl
@[simp] theorem State.modBlock_images (s : State) (g b : Nat) (f : Blk → Blk) : (s.modBlock g b f).images = s.images := rfl
@[simp] theorem State.modBlock_parts (s : State) (g b : Nat) (f : Blk → Blk) : (s.modBlock g b f).parts = s.parts := rfl
@[simp] theorem State.modBlock_queues (s : State) (g b : Nat) (f : Blk → Blk) : (s.modBlock g b f).queues = s.queues := rfl
@[simp] theorem State.modBlock_rollcall (s : State) (g b : Nat) (f : Blk → Blk) : (s.modBlock g b f).rollcall = s.rollcall := rfl
@[simp] theorem State.modBlock_fifo (s : State) (g b : Nat) (f : Blk → Blk) : (s.modBlock g b f).fifo = s.fifo := rfl
@[simp] theorem State.modBlock_done (s : State) (g b : Nat) (f : Blk → Blk) : (s.modBlock g b f).done = s.done := rfl
@[simp] theorem State.modBlock_sigs (s : State) (g b : Nat) (f : Blk → Blk) : (s.modBlock g b f).sigs = s.sigs := rfl
@[simp] theorem State.modBlock_sigClock (s : State) (g b : Nat) (f : Blk → Blk) : (s.modBlock g b f).sigClock = s.sigClock := rfl
@[simp] theorem State.modBlock_tables (s : State) (g b : Nat) (f : Blk → Blk) : (s.modBlock g b f).tables = s.tables := rfl
@[simp] theorem State.modBlock_vectors (s : State) (g b : Nat) (f : Blk → Blk) : (s.modBlock g b f).vectors = s.vectors := rfl
@[simp] theorem State.modBlock_mailboxes (s : State) (g b : Nat) (f : Blk → Blk) : (s.modBlock g b f).mailboxes = s.mailboxes := rfl
@[simp] theorem State.modBlock_cpcs (s : State) (g b : Nat) (f : Blk → Blk) : (s.modBlock g b f).cpcs = s.cpcs := rfl
@[simp] theorem State.modBlock_links (s : State) (g b : Nat) (f : Blk → Blk) : (s.modBlock g b f).links = s.links := rfl
@[simp] theorem State.modBlock_flows (s : State) (g b : Nat) (f : Blk → Blk) : (s.modBlock g b f).flows = s.flows := rfl
@[simp] theorem State.modBlock_outbox (s : State) (g b : Nat) (f : Blk → Blk) : (s.modBlock g b f).outbox = s.outbox := rfl
@[simp] theorem State.modBlock_reg (s : State) (g b : Nat) (f : Blk → Blk) : (s.modBlock g b f).reg = s.reg := rfl

/-! ### modCluster -/

@[simp] theorem State.modCluster_turn (s : State) (g k : Nat) (f : Clus → Clus) : (s.modCluster g k f).turn = s.turn := rfl
@[simp] theorem State.modCluster_seed (s : State) (g k : Nat) (f : Clus → Clus) : (s.modCluster g k f).seed = s.seed := rfl
@[simp] theorem State.modCluster_inputs (s : State) (g k : Nat) (f : Clus → Clus) : (s.modCluster g k f).inputs = s.inputs := rfl
@[simp] theorem State.modCluster_nextId (s : State) (g k : Nat) (f : Clus → Clus) : (s.modCluster g k f).nextId = s.nextId := rfl
@[simp] theorem State.modCluster_clk (s : State) (g k : Nat) (f : Clus → Clus) : (s.modCluster g k f).clk = s.clk := rfl
@[simp] theorem State.modCluster_mem (s : State) (g k : Nat) (f : Clus → Clus) : (s.modCluster g k f).mem = s.mem := rfl
@[simp] theorem State.modCluster_poison (s : State) (g k : Nat) (f : Clus → Clus) : (s.modCluster g k f).poison = s.poison := rfl
@[simp] theorem State.modCluster_poked (s : State) (g k : Nat) (f : Clus → Clus) : (s.modCluster g k f).poked = s.poked := rfl
@[simp] theorem State.modCluster_keyTags (s : State) (g k : Nat) (f : Clus → Clus) : (s.modCluster g k f).keyTags = s.keyTags := rfl
@[simp] theorem State.modCluster_tlb (s : State) (g k : Nat) (f : Clus → Clus) : (s.modCluster g k f).tlb = s.tlb := rfl
@[simp] theorem State.modCluster_misses (s : State) (g k : Nat) (f : Clus → Clus) : (s.modCluster g k f).misses = s.misses := rfl
@[simp] theorem State.modCluster_icache (s : State) (g k : Nat) (f : Clus → Clus) : (s.modCluster g k f).icache = s.icache := rfl
@[simp] theorem State.modCluster_rcache (s : State) (g k : Nat) (f : Clus → Clus) : (s.modCluster g k f).rcache = s.rcache := rfl
@[simp] theorem State.modCluster_fills (s : State) (g k : Nat) (f : Clus → Clus) : (s.modCluster g k f).fills = s.fills := rfl
@[simp] theorem State.modCluster_failedFills (s : State) (g k : Nat) (f : Clus → Clus) : (s.modCluster g k f).failedFills = s.failedFills := rfl
@[simp] theorem State.modCluster_migrs (s : State) (g k : Nat) (f : Clus → Clus) : (s.modCluster g k f).migrs = s.migrs := rfl
@[simp] theorem State.modCluster_grids (s : State) (g k : Nat) (f : Clus → Clus) : (s.modCluster g k f).grids = s.grids := rfl
@[simp] theorem State.modCluster_clusters (s : State) (g k : Nat) (f : Clus → Clus) : (s.modCluster g k f).clusters = mmod s.clusters (bKey g k) f := rfl
@[simp] theorem State.modCluster_blocks (s : State) (g k : Nat) (f : Clus → Clus) : (s.modCluster g k f).blocks = s.blocks := rfl
@[simp] theorem State.modCluster_teams (s : State) (g k : Nat) (f : Clus → Clus) : (s.modCluster g k f).teams = s.teams := rfl
@[simp] theorem State.modCluster_frames (s : State) (g k : Nat) (f : Clus → Clus) : (s.modCluster g k f).frames = s.frames := rfl
@[simp] theorem State.modCluster_ctxs (s : State) (g k : Nat) (f : Clus → Clus) : (s.modCluster g k f).ctxs = s.ctxs := rfl
@[simp] theorem State.modCluster_bins (s : State) (g k : Nat) (f : Clus → Clus) : (s.modCluster g k f).bins = s.bins := rfl
@[simp] theorem State.modCluster_matq (s : State) (g k : Nat) (f : Clus → Clus) : (s.modCluster g k f).matq = s.matq := rfl
@[simp] theorem State.modCluster_matLast (s : State) (g k : Nat) (f : Clus → Clus) : (s.modCluster g k f).matLast = s.matLast := rfl
@[simp] theorem State.modCluster_copies (s : State) (g k : Nat) (f : Clus → Clus) : (s.modCluster g k f).copies = s.copies := rfl
@[simp] theorem State.modCluster_msgs (s : State) (g k : Nat) (f : Clus → Clus) : (s.modCluster g k f).msgs = s.msgs := rfl
@[simp] theorem State.modCluster_launches (s : State) (g k : Nat) (f : Clus → Clus) : (s.modCluster g k f).launches = s.launches := rfl
@[simp] theorem State.modCluster_lamport (s : State) (g k : Nat) (f : Clus → Clus) : (s.modCluster g k f).lamport = s.lamport := rfl
@[simp] theorem State.modCluster_images (s : State) (g k : Nat) (f : Clus → Clus) : (s.modCluster g k f).images = s.images := rfl
@[simp] theorem State.modCluster_parts (s : State) (g k : Nat) (f : Clus → Clus) : (s.modCluster g k f).parts = s.parts := rfl
@[simp] theorem State.modCluster_queues (s : State) (g k : Nat) (f : Clus → Clus) : (s.modCluster g k f).queues = s.queues := rfl
@[simp] theorem State.modCluster_rollcall (s : State) (g k : Nat) (f : Clus → Clus) : (s.modCluster g k f).rollcall = s.rollcall := rfl
@[simp] theorem State.modCluster_fifo (s : State) (g k : Nat) (f : Clus → Clus) : (s.modCluster g k f).fifo = s.fifo := rfl
@[simp] theorem State.modCluster_done (s : State) (g k : Nat) (f : Clus → Clus) : (s.modCluster g k f).done = s.done := rfl
@[simp] theorem State.modCluster_sigs (s : State) (g k : Nat) (f : Clus → Clus) : (s.modCluster g k f).sigs = s.sigs := rfl
@[simp] theorem State.modCluster_sigClock (s : State) (g k : Nat) (f : Clus → Clus) : (s.modCluster g k f).sigClock = s.sigClock := rfl
@[simp] theorem State.modCluster_tables (s : State) (g k : Nat) (f : Clus → Clus) : (s.modCluster g k f).tables = s.tables := rfl
@[simp] theorem State.modCluster_vectors (s : State) (g k : Nat) (f : Clus → Clus) : (s.modCluster g k f).vectors = s.vectors := rfl
@[simp] theorem State.modCluster_mailboxes (s : State) (g k : Nat) (f : Clus → Clus) : (s.modCluster g k f).mailboxes = s.mailboxes := rfl
@[simp] theorem State.modCluster_cpcs (s : State) (g k : Nat) (f : Clus → Clus) : (s.modCluster g k f).cpcs = s.cpcs := rfl
@[simp] theorem State.modCluster_links (s : State) (g k : Nat) (f : Clus → Clus) : (s.modCluster g k f).links = s.links := rfl
@[simp] theorem State.modCluster_flows (s : State) (g k : Nat) (f : Clus → Clus) : (s.modCluster g k f).flows = s.flows := rfl
@[simp] theorem State.modCluster_outbox (s : State) (g k : Nat) (f : Clus → Clus) : (s.modCluster g k f).outbox = s.outbox := rfl
@[simp] theorem State.modCluster_reg (s : State) (g k : Nat) (f : Clus → Clus) : (s.modCluster g k f).reg = s.reg := rfl

/-! ### modTeam -/

@[simp] theorem State.modTeam_turn (s : State) (g b t : Nat) (f : Team → Team) : (s.modTeam g b t f).turn = s.turn := rfl
@[simp] theorem State.modTeam_seed (s : State) (g b t : Nat) (f : Team → Team) : (s.modTeam g b t f).seed = s.seed := rfl
@[simp] theorem State.modTeam_inputs (s : State) (g b t : Nat) (f : Team → Team) : (s.modTeam g b t f).inputs = s.inputs := rfl
@[simp] theorem State.modTeam_nextId (s : State) (g b t : Nat) (f : Team → Team) : (s.modTeam g b t f).nextId = s.nextId := rfl
@[simp] theorem State.modTeam_clk (s : State) (g b t : Nat) (f : Team → Team) : (s.modTeam g b t f).clk = s.clk := rfl
@[simp] theorem State.modTeam_mem (s : State) (g b t : Nat) (f : Team → Team) : (s.modTeam g b t f).mem = s.mem := rfl
@[simp] theorem State.modTeam_poison (s : State) (g b t : Nat) (f : Team → Team) : (s.modTeam g b t f).poison = s.poison := rfl
@[simp] theorem State.modTeam_poked (s : State) (g b t : Nat) (f : Team → Team) : (s.modTeam g b t f).poked = s.poked := rfl
@[simp] theorem State.modTeam_keyTags (s : State) (g b t : Nat) (f : Team → Team) : (s.modTeam g b t f).keyTags = s.keyTags := rfl
@[simp] theorem State.modTeam_tlb (s : State) (g b t : Nat) (f : Team → Team) : (s.modTeam g b t f).tlb = s.tlb := rfl
@[simp] theorem State.modTeam_misses (s : State) (g b t : Nat) (f : Team → Team) : (s.modTeam g b t f).misses = s.misses := rfl
@[simp] theorem State.modTeam_icache (s : State) (g b t : Nat) (f : Team → Team) : (s.modTeam g b t f).icache = s.icache := rfl
@[simp] theorem State.modTeam_rcache (s : State) (g b t : Nat) (f : Team → Team) : (s.modTeam g b t f).rcache = s.rcache := rfl
@[simp] theorem State.modTeam_fills (s : State) (g b t : Nat) (f : Team → Team) : (s.modTeam g b t f).fills = s.fills := rfl
@[simp] theorem State.modTeam_failedFills (s : State) (g b t : Nat) (f : Team → Team) : (s.modTeam g b t f).failedFills = s.failedFills := rfl
@[simp] theorem State.modTeam_migrs (s : State) (g b t : Nat) (f : Team → Team) : (s.modTeam g b t f).migrs = s.migrs := rfl
@[simp] theorem State.modTeam_grids (s : State) (g b t : Nat) (f : Team → Team) : (s.modTeam g b t f).grids = s.grids := rfl
@[simp] theorem State.modTeam_clusters (s : State) (g b t : Nat) (f : Team → Team) : (s.modTeam g b t f).clusters = s.clusters := rfl
@[simp] theorem State.modTeam_blocks (s : State) (g b t : Nat) (f : Team → Team) : (s.modTeam g b t f).blocks = s.blocks := rfl
@[simp] theorem State.modTeam_teams (s : State) (g b t : Nat) (f : Team → Team) : (s.modTeam g b t f).teams = mmod s.teams (tKey g b t) f := rfl
@[simp] theorem State.modTeam_frames (s : State) (g b t : Nat) (f : Team → Team) : (s.modTeam g b t f).frames = s.frames := rfl
@[simp] theorem State.modTeam_ctxs (s : State) (g b t : Nat) (f : Team → Team) : (s.modTeam g b t f).ctxs = s.ctxs := rfl
@[simp] theorem State.modTeam_bins (s : State) (g b t : Nat) (f : Team → Team) : (s.modTeam g b t f).bins = s.bins := rfl
@[simp] theorem State.modTeam_matq (s : State) (g b t : Nat) (f : Team → Team) : (s.modTeam g b t f).matq = s.matq := rfl
@[simp] theorem State.modTeam_matLast (s : State) (g b t : Nat) (f : Team → Team) : (s.modTeam g b t f).matLast = s.matLast := rfl
@[simp] theorem State.modTeam_copies (s : State) (g b t : Nat) (f : Team → Team) : (s.modTeam g b t f).copies = s.copies := rfl
@[simp] theorem State.modTeam_msgs (s : State) (g b t : Nat) (f : Team → Team) : (s.modTeam g b t f).msgs = s.msgs := rfl
@[simp] theorem State.modTeam_launches (s : State) (g b t : Nat) (f : Team → Team) : (s.modTeam g b t f).launches = s.launches := rfl
@[simp] theorem State.modTeam_lamport (s : State) (g b t : Nat) (f : Team → Team) : (s.modTeam g b t f).lamport = s.lamport := rfl
@[simp] theorem State.modTeam_images (s : State) (g b t : Nat) (f : Team → Team) : (s.modTeam g b t f).images = s.images := rfl
@[simp] theorem State.modTeam_parts (s : State) (g b t : Nat) (f : Team → Team) : (s.modTeam g b t f).parts = s.parts := rfl
@[simp] theorem State.modTeam_queues (s : State) (g b t : Nat) (f : Team → Team) : (s.modTeam g b t f).queues = s.queues := rfl
@[simp] theorem State.modTeam_rollcall (s : State) (g b t : Nat) (f : Team → Team) : (s.modTeam g b t f).rollcall = s.rollcall := rfl
@[simp] theorem State.modTeam_fifo (s : State) (g b t : Nat) (f : Team → Team) : (s.modTeam g b t f).fifo = s.fifo := rfl
@[simp] theorem State.modTeam_done (s : State) (g b t : Nat) (f : Team → Team) : (s.modTeam g b t f).done = s.done := rfl
@[simp] theorem State.modTeam_sigs (s : State) (g b t : Nat) (f : Team → Team) : (s.modTeam g b t f).sigs = s.sigs := rfl
@[simp] theorem State.modTeam_sigClock (s : State) (g b t : Nat) (f : Team → Team) : (s.modTeam g b t f).sigClock = s.sigClock := rfl
@[simp] theorem State.modTeam_tables (s : State) (g b t : Nat) (f : Team → Team) : (s.modTeam g b t f).tables = s.tables := rfl
@[simp] theorem State.modTeam_vectors (s : State) (g b t : Nat) (f : Team → Team) : (s.modTeam g b t f).vectors = s.vectors := rfl
@[simp] theorem State.modTeam_mailboxes (s : State) (g b t : Nat) (f : Team → Team) : (s.modTeam g b t f).mailboxes = s.mailboxes := rfl
@[simp] theorem State.modTeam_cpcs (s : State) (g b t : Nat) (f : Team → Team) : (s.modTeam g b t f).cpcs = s.cpcs := rfl
@[simp] theorem State.modTeam_links (s : State) (g b t : Nat) (f : Team → Team) : (s.modTeam g b t f).links = s.links := rfl
@[simp] theorem State.modTeam_flows (s : State) (g b t : Nat) (f : Team → Team) : (s.modTeam g b t f).flows = s.flows := rfl
@[simp] theorem State.modTeam_outbox (s : State) (g b t : Nat) (f : Team → Team) : (s.modTeam g b t f).outbox = s.outbox := rfl
@[simp] theorem State.modTeam_reg (s : State) (g b t : Nat) (f : Team → Team) : (s.modTeam g b t f).reg = s.reg := rfl

/-! ### modCtx -/

@[simp] theorem State.modCtx_turn (s : State) (c : Nat) (f : Ctx → Ctx) : (s.modCtx c f).turn = s.turn := rfl
@[simp] theorem State.modCtx_seed (s : State) (c : Nat) (f : Ctx → Ctx) : (s.modCtx c f).seed = s.seed := rfl
@[simp] theorem State.modCtx_inputs (s : State) (c : Nat) (f : Ctx → Ctx) : (s.modCtx c f).inputs = s.inputs := rfl
@[simp] theorem State.modCtx_nextId (s : State) (c : Nat) (f : Ctx → Ctx) : (s.modCtx c f).nextId = s.nextId := rfl
@[simp] theorem State.modCtx_clk (s : State) (c : Nat) (f : Ctx → Ctx) : (s.modCtx c f).clk = s.clk := rfl
@[simp] theorem State.modCtx_mem (s : State) (c : Nat) (f : Ctx → Ctx) : (s.modCtx c f).mem = s.mem := rfl
@[simp] theorem State.modCtx_poison (s : State) (c : Nat) (f : Ctx → Ctx) : (s.modCtx c f).poison = s.poison := rfl
@[simp] theorem State.modCtx_poked (s : State) (c : Nat) (f : Ctx → Ctx) : (s.modCtx c f).poked = s.poked := rfl
@[simp] theorem State.modCtx_keyTags (s : State) (c : Nat) (f : Ctx → Ctx) : (s.modCtx c f).keyTags = s.keyTags := rfl
@[simp] theorem State.modCtx_tlb (s : State) (c : Nat) (f : Ctx → Ctx) : (s.modCtx c f).tlb = s.tlb := rfl
@[simp] theorem State.modCtx_misses (s : State) (c : Nat) (f : Ctx → Ctx) : (s.modCtx c f).misses = s.misses := rfl
@[simp] theorem State.modCtx_icache (s : State) (c : Nat) (f : Ctx → Ctx) : (s.modCtx c f).icache = s.icache := rfl
@[simp] theorem State.modCtx_rcache (s : State) (c : Nat) (f : Ctx → Ctx) : (s.modCtx c f).rcache = s.rcache := rfl
@[simp] theorem State.modCtx_fills (s : State) (c : Nat) (f : Ctx → Ctx) : (s.modCtx c f).fills = s.fills := rfl
@[simp] theorem State.modCtx_failedFills (s : State) (c : Nat) (f : Ctx → Ctx) : (s.modCtx c f).failedFills = s.failedFills := rfl
@[simp] theorem State.modCtx_migrs (s : State) (c : Nat) (f : Ctx → Ctx) : (s.modCtx c f).migrs = s.migrs := rfl
@[simp] theorem State.modCtx_grids (s : State) (c : Nat) (f : Ctx → Ctx) : (s.modCtx c f).grids = s.grids := rfl
@[simp] theorem State.modCtx_clusters (s : State) (c : Nat) (f : Ctx → Ctx) : (s.modCtx c f).clusters = s.clusters := rfl
@[simp] theorem State.modCtx_blocks (s : State) (c : Nat) (f : Ctx → Ctx) : (s.modCtx c f).blocks = s.blocks := rfl
@[simp] theorem State.modCtx_teams (s : State) (c : Nat) (f : Ctx → Ctx) : (s.modCtx c f).teams = s.teams := rfl
@[simp] theorem State.modCtx_frames (s : State) (c : Nat) (f : Ctx → Ctx) : (s.modCtx c f).frames = s.frames := rfl
@[simp] theorem State.modCtx_ctxs (s : State) (c : Nat) (f : Ctx → Ctx) : (s.modCtx c f).ctxs = mmod s.ctxs c f := rfl
@[simp] theorem State.modCtx_bins (s : State) (c : Nat) (f : Ctx → Ctx) : (s.modCtx c f).bins = s.bins := rfl
@[simp] theorem State.modCtx_matq (s : State) (c : Nat) (f : Ctx → Ctx) : (s.modCtx c f).matq = s.matq := rfl
@[simp] theorem State.modCtx_matLast (s : State) (c : Nat) (f : Ctx → Ctx) : (s.modCtx c f).matLast = s.matLast := rfl
@[simp] theorem State.modCtx_copies (s : State) (c : Nat) (f : Ctx → Ctx) : (s.modCtx c f).copies = s.copies := rfl
@[simp] theorem State.modCtx_msgs (s : State) (c : Nat) (f : Ctx → Ctx) : (s.modCtx c f).msgs = s.msgs := rfl
@[simp] theorem State.modCtx_launches (s : State) (c : Nat) (f : Ctx → Ctx) : (s.modCtx c f).launches = s.launches := rfl
@[simp] theorem State.modCtx_lamport (s : State) (c : Nat) (f : Ctx → Ctx) : (s.modCtx c f).lamport = s.lamport := rfl
@[simp] theorem State.modCtx_images (s : State) (c : Nat) (f : Ctx → Ctx) : (s.modCtx c f).images = s.images := rfl
@[simp] theorem State.modCtx_parts (s : State) (c : Nat) (f : Ctx → Ctx) : (s.modCtx c f).parts = s.parts := rfl
@[simp] theorem State.modCtx_queues (s : State) (c : Nat) (f : Ctx → Ctx) : (s.modCtx c f).queues = s.queues := rfl
@[simp] theorem State.modCtx_rollcall (s : State) (c : Nat) (f : Ctx → Ctx) : (s.modCtx c f).rollcall = s.rollcall := rfl
@[simp] theorem State.modCtx_fifo (s : State) (c : Nat) (f : Ctx → Ctx) : (s.modCtx c f).fifo = s.fifo := rfl
@[simp] theorem State.modCtx_done (s : State) (c : Nat) (f : Ctx → Ctx) : (s.modCtx c f).done = s.done := rfl
@[simp] theorem State.modCtx_sigs (s : State) (c : Nat) (f : Ctx → Ctx) : (s.modCtx c f).sigs = s.sigs := rfl
@[simp] theorem State.modCtx_sigClock (s : State) (c : Nat) (f : Ctx → Ctx) : (s.modCtx c f).sigClock = s.sigClock := rfl
@[simp] theorem State.modCtx_tables (s : State) (c : Nat) (f : Ctx → Ctx) : (s.modCtx c f).tables = s.tables := rfl
@[simp] theorem State.modCtx_vectors (s : State) (c : Nat) (f : Ctx → Ctx) : (s.modCtx c f).vectors = s.vectors := rfl
@[simp] theorem State.modCtx_mailboxes (s : State) (c : Nat) (f : Ctx → Ctx) : (s.modCtx c f).mailboxes = s.mailboxes := rfl
@[simp] theorem State.modCtx_cpcs (s : State) (c : Nat) (f : Ctx → Ctx) : (s.modCtx c f).cpcs = s.cpcs := rfl
@[simp] theorem State.modCtx_links (s : State) (c : Nat) (f : Ctx → Ctx) : (s.modCtx c f).links = s.links := rfl
@[simp] theorem State.modCtx_flows (s : State) (c : Nat) (f : Ctx → Ctx) : (s.modCtx c f).flows = s.flows := rfl
@[simp] theorem State.modCtx_outbox (s : State) (c : Nat) (f : Ctx → Ctx) : (s.modCtx c f).outbox = s.outbox := rfl
@[simp] theorem State.modCtx_reg (s : State) (c : Nat) (f : Ctx → Ctx) : (s.modCtx c f).reg = s.reg := rfl

/-! ### modQueue -/

@[simp] theorem State.modQueue_turn (s : State) (q : Nat) (f : Queue → Queue) : (s.modQueue q f).turn = s.turn := rfl
@[simp] theorem State.modQueue_seed (s : State) (q : Nat) (f : Queue → Queue) : (s.modQueue q f).seed = s.seed := rfl
@[simp] theorem State.modQueue_inputs (s : State) (q : Nat) (f : Queue → Queue) : (s.modQueue q f).inputs = s.inputs := rfl
@[simp] theorem State.modQueue_nextId (s : State) (q : Nat) (f : Queue → Queue) : (s.modQueue q f).nextId = s.nextId := rfl
@[simp] theorem State.modQueue_clk (s : State) (q : Nat) (f : Queue → Queue) : (s.modQueue q f).clk = s.clk := rfl
@[simp] theorem State.modQueue_mem (s : State) (q : Nat) (f : Queue → Queue) : (s.modQueue q f).mem = s.mem := rfl
@[simp] theorem State.modQueue_poison (s : State) (q : Nat) (f : Queue → Queue) : (s.modQueue q f).poison = s.poison := rfl
@[simp] theorem State.modQueue_poked (s : State) (q : Nat) (f : Queue → Queue) : (s.modQueue q f).poked = s.poked := rfl
@[simp] theorem State.modQueue_keyTags (s : State) (q : Nat) (f : Queue → Queue) : (s.modQueue q f).keyTags = s.keyTags := rfl
@[simp] theorem State.modQueue_tlb (s : State) (q : Nat) (f : Queue → Queue) : (s.modQueue q f).tlb = s.tlb := rfl
@[simp] theorem State.modQueue_misses (s : State) (q : Nat) (f : Queue → Queue) : (s.modQueue q f).misses = s.misses := rfl
@[simp] theorem State.modQueue_icache (s : State) (q : Nat) (f : Queue → Queue) : (s.modQueue q f).icache = s.icache := rfl
@[simp] theorem State.modQueue_rcache (s : State) (q : Nat) (f : Queue → Queue) : (s.modQueue q f).rcache = s.rcache := rfl
@[simp] theorem State.modQueue_fills (s : State) (q : Nat) (f : Queue → Queue) : (s.modQueue q f).fills = s.fills := rfl
@[simp] theorem State.modQueue_failedFills (s : State) (q : Nat) (f : Queue → Queue) : (s.modQueue q f).failedFills = s.failedFills := rfl
@[simp] theorem State.modQueue_migrs (s : State) (q : Nat) (f : Queue → Queue) : (s.modQueue q f).migrs = s.migrs := rfl
@[simp] theorem State.modQueue_grids (s : State) (q : Nat) (f : Queue → Queue) : (s.modQueue q f).grids = s.grids := rfl
@[simp] theorem State.modQueue_clusters (s : State) (q : Nat) (f : Queue → Queue) : (s.modQueue q f).clusters = s.clusters := rfl
@[simp] theorem State.modQueue_blocks (s : State) (q : Nat) (f : Queue → Queue) : (s.modQueue q f).blocks = s.blocks := rfl
@[simp] theorem State.modQueue_teams (s : State) (q : Nat) (f : Queue → Queue) : (s.modQueue q f).teams = s.teams := rfl
@[simp] theorem State.modQueue_frames (s : State) (q : Nat) (f : Queue → Queue) : (s.modQueue q f).frames = s.frames := rfl
@[simp] theorem State.modQueue_ctxs (s : State) (q : Nat) (f : Queue → Queue) : (s.modQueue q f).ctxs = s.ctxs := rfl
@[simp] theorem State.modQueue_bins (s : State) (q : Nat) (f : Queue → Queue) : (s.modQueue q f).bins = s.bins := rfl
@[simp] theorem State.modQueue_matq (s : State) (q : Nat) (f : Queue → Queue) : (s.modQueue q f).matq = s.matq := rfl
@[simp] theorem State.modQueue_matLast (s : State) (q : Nat) (f : Queue → Queue) : (s.modQueue q f).matLast = s.matLast := rfl
@[simp] theorem State.modQueue_copies (s : State) (q : Nat) (f : Queue → Queue) : (s.modQueue q f).copies = s.copies := rfl
@[simp] theorem State.modQueue_msgs (s : State) (q : Nat) (f : Queue → Queue) : (s.modQueue q f).msgs = s.msgs := rfl
@[simp] theorem State.modQueue_launches (s : State) (q : Nat) (f : Queue → Queue) : (s.modQueue q f).launches = s.launches := rfl
@[simp] theorem State.modQueue_lamport (s : State) (q : Nat) (f : Queue → Queue) : (s.modQueue q f).lamport = s.lamport := rfl
@[simp] theorem State.modQueue_images (s : State) (q : Nat) (f : Queue → Queue) : (s.modQueue q f).images = s.images := rfl
@[simp] theorem State.modQueue_parts (s : State) (q : Nat) (f : Queue → Queue) : (s.modQueue q f).parts = s.parts := rfl
@[simp] theorem State.modQueue_queues (s : State) (q : Nat) (f : Queue → Queue) : (s.modQueue q f).queues = mmod s.queues q f := rfl
@[simp] theorem State.modQueue_rollcall (s : State) (q : Nat) (f : Queue → Queue) : (s.modQueue q f).rollcall = s.rollcall := rfl
@[simp] theorem State.modQueue_fifo (s : State) (q : Nat) (f : Queue → Queue) : (s.modQueue q f).fifo = s.fifo := rfl
@[simp] theorem State.modQueue_done (s : State) (q : Nat) (f : Queue → Queue) : (s.modQueue q f).done = s.done := rfl
@[simp] theorem State.modQueue_sigs (s : State) (q : Nat) (f : Queue → Queue) : (s.modQueue q f).sigs = s.sigs := rfl
@[simp] theorem State.modQueue_sigClock (s : State) (q : Nat) (f : Queue → Queue) : (s.modQueue q f).sigClock = s.sigClock := rfl
@[simp] theorem State.modQueue_tables (s : State) (q : Nat) (f : Queue → Queue) : (s.modQueue q f).tables = s.tables := rfl
@[simp] theorem State.modQueue_vectors (s : State) (q : Nat) (f : Queue → Queue) : (s.modQueue q f).vectors = s.vectors := rfl
@[simp] theorem State.modQueue_mailboxes (s : State) (q : Nat) (f : Queue → Queue) : (s.modQueue q f).mailboxes = s.mailboxes := rfl
@[simp] theorem State.modQueue_cpcs (s : State) (q : Nat) (f : Queue → Queue) : (s.modQueue q f).cpcs = s.cpcs := rfl
@[simp] theorem State.modQueue_links (s : State) (q : Nat) (f : Queue → Queue) : (s.modQueue q f).links = s.links := rfl
@[simp] theorem State.modQueue_flows (s : State) (q : Nat) (f : Queue → Queue) : (s.modQueue q f).flows = s.flows := rfl
@[simp] theorem State.modQueue_outbox (s : State) (q : Nat) (f : Queue → Queue) : (s.modQueue q f).outbox = s.outbox := rfl
@[simp] theorem State.modQueue_reg (s : State) (q : Nat) (f : Queue → Queue) : (s.modQueue q f).reg = s.reg := rfl

/-! ### modCpc -/

@[simp] theorem State.modCpc_turn (s : State) (n : Nat) (f : Cpc → Cpc) : (s.modCpc n f).turn = s.turn := rfl
@[simp] theorem State.modCpc_seed (s : State) (n : Nat) (f : Cpc → Cpc) : (s.modCpc n f).seed = s.seed := rfl
@[simp] theorem State.modCpc_inputs (s : State) (n : Nat) (f : Cpc → Cpc) : (s.modCpc n f).inputs = s.inputs := rfl
@[simp] theorem State.modCpc_nextId (s : State) (n : Nat) (f : Cpc → Cpc) : (s.modCpc n f).nextId = s.nextId := rfl
@[simp] theorem State.modCpc_clk (s : State) (n : Nat) (f : Cpc → Cpc) : (s.modCpc n f).clk = s.clk := rfl
@[simp] theorem State.modCpc_mem (s : State) (n : Nat) (f : Cpc → Cpc) : (s.modCpc n f).mem = s.mem := rfl
@[simp] theorem State.modCpc_poison (s : State) (n : Nat) (f : Cpc → Cpc) : (s.modCpc n f).poison = s.poison := rfl
@[simp] theorem State.modCpc_poked (s : State) (n : Nat) (f : Cpc → Cpc) : (s.modCpc n f).poked = s.poked := rfl
@[simp] theorem State.modCpc_keyTags (s : State) (n : Nat) (f : Cpc → Cpc) : (s.modCpc n f).keyTags = s.keyTags := rfl
@[simp] theorem State.modCpc_tlb (s : State) (n : Nat) (f : Cpc → Cpc) : (s.modCpc n f).tlb = s.tlb := rfl
@[simp] theorem State.modCpc_misses (s : State) (n : Nat) (f : Cpc → Cpc) : (s.modCpc n f).misses = s.misses := rfl
@[simp] theorem State.modCpc_icache (s : State) (n : Nat) (f : Cpc → Cpc) : (s.modCpc n f).icache = s.icache := rfl
@[simp] theorem State.modCpc_rcache (s : State) (n : Nat) (f : Cpc → Cpc) : (s.modCpc n f).rcache = s.rcache := rfl
@[simp] theorem State.modCpc_fills (s : State) (n : Nat) (f : Cpc → Cpc) : (s.modCpc n f).fills = s.fills := rfl
@[simp] theorem State.modCpc_failedFills (s : State) (n : Nat) (f : Cpc → Cpc) : (s.modCpc n f).failedFills = s.failedFills := rfl
@[simp] theorem State.modCpc_migrs (s : State) (n : Nat) (f : Cpc → Cpc) : (s.modCpc n f).migrs = s.migrs := rfl
@[simp] theorem State.modCpc_grids (s : State) (n : Nat) (f : Cpc → Cpc) : (s.modCpc n f).grids = s.grids := rfl
@[simp] theorem State.modCpc_clusters (s : State) (n : Nat) (f : Cpc → Cpc) : (s.modCpc n f).clusters = s.clusters := rfl
@[simp] theorem State.modCpc_blocks (s : State) (n : Nat) (f : Cpc → Cpc) : (s.modCpc n f).blocks = s.blocks := rfl
@[simp] theorem State.modCpc_teams (s : State) (n : Nat) (f : Cpc → Cpc) : (s.modCpc n f).teams = s.teams := rfl
@[simp] theorem State.modCpc_frames (s : State) (n : Nat) (f : Cpc → Cpc) : (s.modCpc n f).frames = s.frames := rfl
@[simp] theorem State.modCpc_ctxs (s : State) (n : Nat) (f : Cpc → Cpc) : (s.modCpc n f).ctxs = s.ctxs := rfl
@[simp] theorem State.modCpc_bins (s : State) (n : Nat) (f : Cpc → Cpc) : (s.modCpc n f).bins = s.bins := rfl
@[simp] theorem State.modCpc_matq (s : State) (n : Nat) (f : Cpc → Cpc) : (s.modCpc n f).matq = s.matq := rfl
@[simp] theorem State.modCpc_matLast (s : State) (n : Nat) (f : Cpc → Cpc) : (s.modCpc n f).matLast = s.matLast := rfl
@[simp] theorem State.modCpc_copies (s : State) (n : Nat) (f : Cpc → Cpc) : (s.modCpc n f).copies = s.copies := rfl
@[simp] theorem State.modCpc_msgs (s : State) (n : Nat) (f : Cpc → Cpc) : (s.modCpc n f).msgs = s.msgs := rfl
@[simp] theorem State.modCpc_launches (s : State) (n : Nat) (f : Cpc → Cpc) : (s.modCpc n f).launches = s.launches := rfl
@[simp] theorem State.modCpc_lamport (s : State) (n : Nat) (f : Cpc → Cpc) : (s.modCpc n f).lamport = s.lamport := rfl
@[simp] theorem State.modCpc_images (s : State) (n : Nat) (f : Cpc → Cpc) : (s.modCpc n f).images = s.images := rfl
@[simp] theorem State.modCpc_parts (s : State) (n : Nat) (f : Cpc → Cpc) : (s.modCpc n f).parts = s.parts := rfl
@[simp] theorem State.modCpc_queues (s : State) (n : Nat) (f : Cpc → Cpc) : (s.modCpc n f).queues = s.queues := rfl
@[simp] theorem State.modCpc_rollcall (s : State) (n : Nat) (f : Cpc → Cpc) : (s.modCpc n f).rollcall = s.rollcall := rfl
@[simp] theorem State.modCpc_fifo (s : State) (n : Nat) (f : Cpc → Cpc) : (s.modCpc n f).fifo = s.fifo := rfl
@[simp] theorem State.modCpc_done (s : State) (n : Nat) (f : Cpc → Cpc) : (s.modCpc n f).done = s.done := rfl
@[simp] theorem State.modCpc_sigs (s : State) (n : Nat) (f : Cpc → Cpc) : (s.modCpc n f).sigs = s.sigs := rfl
@[simp] theorem State.modCpc_sigClock (s : State) (n : Nat) (f : Cpc → Cpc) : (s.modCpc n f).sigClock = s.sigClock := rfl
@[simp] theorem State.modCpc_tables (s : State) (n : Nat) (f : Cpc → Cpc) : (s.modCpc n f).tables = s.tables := rfl
@[simp] theorem State.modCpc_vectors (s : State) (n : Nat) (f : Cpc → Cpc) : (s.modCpc n f).vectors = s.vectors := rfl
@[simp] theorem State.modCpc_mailboxes (s : State) (n : Nat) (f : Cpc → Cpc) : (s.modCpc n f).mailboxes = s.mailboxes := rfl
@[simp] theorem State.modCpc_cpcs (s : State) (n : Nat) (f : Cpc → Cpc) : (s.modCpc n f).cpcs = mmod s.cpcs n f := rfl
@[simp] theorem State.modCpc_links (s : State) (n : Nat) (f : Cpc → Cpc) : (s.modCpc n f).links = s.links := rfl
@[simp] theorem State.modCpc_flows (s : State) (n : Nat) (f : Cpc → Cpc) : (s.modCpc n f).flows = s.flows := rfl
@[simp] theorem State.modCpc_outbox (s : State) (n : Nat) (f : Cpc → Cpc) : (s.modCpc n f).outbox = s.outbox := rfl
@[simp] theorem State.modCpc_reg (s : State) (n : Nat) (f : Cpc → Cpc) : (s.modCpc n f).reg = s.reg := rfl

/-! ### modLink -/

@[simp] theorem State.modLink_turn (s : State) (n : Nat) (f : Link → Link) : (s.modLink n f).turn = s.turn := rfl
@[simp] theorem State.modLink_seed (s : State) (n : Nat) (f : Link → Link) : (s.modLink n f).seed = s.seed := rfl
@[simp] theorem State.modLink_inputs (s : State) (n : Nat) (f : Link → Link) : (s.modLink n f).inputs = s.inputs := rfl
@[simp] theorem State.modLink_nextId (s : State) (n : Nat) (f : Link → Link) : (s.modLink n f).nextId = s.nextId := rfl
@[simp] theorem State.modLink_clk (s : State) (n : Nat) (f : Link → Link) : (s.modLink n f).clk = s.clk := rfl
@[simp] theorem State.modLink_mem (s : State) (n : Nat) (f : Link → Link) : (s.modLink n f).mem = s.mem := rfl
@[simp] theorem State.modLink_poison (s : State) (n : Nat) (f : Link → Link) : (s.modLink n f).poison = s.poison := rfl
@[simp] theorem State.modLink_poked (s : State) (n : Nat) (f : Link → Link) : (s.modLink n f).poked = s.poked := rfl
@[simp] theorem State.modLink_keyTags (s : State) (n : Nat) (f : Link → Link) : (s.modLink n f).keyTags = s.keyTags := rfl
@[simp] theorem State.modLink_tlb (s : State) (n : Nat) (f : Link → Link) : (s.modLink n f).tlb = s.tlb := rfl
@[simp] theorem State.modLink_misses (s : State) (n : Nat) (f : Link → Link) : (s.modLink n f).misses = s.misses := rfl
@[simp] theorem State.modLink_icache (s : State) (n : Nat) (f : Link → Link) : (s.modLink n f).icache = s.icache := rfl
@[simp] theorem State.modLink_rcache (s : State) (n : Nat) (f : Link → Link) : (s.modLink n f).rcache = s.rcache := rfl
@[simp] theorem State.modLink_fills (s : State) (n : Nat) (f : Link → Link) : (s.modLink n f).fills = s.fills := rfl
@[simp] theorem State.modLink_failedFills (s : State) (n : Nat) (f : Link → Link) : (s.modLink n f).failedFills = s.failedFills := rfl
@[simp] theorem State.modLink_migrs (s : State) (n : Nat) (f : Link → Link) : (s.modLink n f).migrs = s.migrs := rfl
@[simp] theorem State.modLink_grids (s : State) (n : Nat) (f : Link → Link) : (s.modLink n f).grids = s.grids := rfl
@[simp] theorem State.modLink_clusters (s : State) (n : Nat) (f : Link → Link) : (s.modLink n f).clusters = s.clusters := rfl
@[simp] theorem State.modLink_blocks (s : State) (n : Nat) (f : Link → Link) : (s.modLink n f).blocks = s.blocks := rfl
@[simp] theorem State.modLink_teams (s : State) (n : Nat) (f : Link → Link) : (s.modLink n f).teams = s.teams := rfl
@[simp] theorem State.modLink_frames (s : State) (n : Nat) (f : Link → Link) : (s.modLink n f).frames = s.frames := rfl
@[simp] theorem State.modLink_ctxs (s : State) (n : Nat) (f : Link → Link) : (s.modLink n f).ctxs = s.ctxs := rfl
@[simp] theorem State.modLink_bins (s : State) (n : Nat) (f : Link → Link) : (s.modLink n f).bins = s.bins := rfl
@[simp] theorem State.modLink_matq (s : State) (n : Nat) (f : Link → Link) : (s.modLink n f).matq = s.matq := rfl
@[simp] theorem State.modLink_matLast (s : State) (n : Nat) (f : Link → Link) : (s.modLink n f).matLast = s.matLast := rfl
@[simp] theorem State.modLink_copies (s : State) (n : Nat) (f : Link → Link) : (s.modLink n f).copies = s.copies := rfl
@[simp] theorem State.modLink_msgs (s : State) (n : Nat) (f : Link → Link) : (s.modLink n f).msgs = s.msgs := rfl
@[simp] theorem State.modLink_launches (s : State) (n : Nat) (f : Link → Link) : (s.modLink n f).launches = s.launches := rfl
@[simp] theorem State.modLink_lamport (s : State) (n : Nat) (f : Link → Link) : (s.modLink n f).lamport = s.lamport := rfl
@[simp] theorem State.modLink_images (s : State) (n : Nat) (f : Link → Link) : (s.modLink n f).images = s.images := rfl
@[simp] theorem State.modLink_parts (s : State) (n : Nat) (f : Link → Link) : (s.modLink n f).parts = s.parts := rfl
@[simp] theorem State.modLink_queues (s : State) (n : Nat) (f : Link → Link) : (s.modLink n f).queues = s.queues := rfl
@[simp] theorem State.modLink_rollcall (s : State) (n : Nat) (f : Link → Link) : (s.modLink n f).rollcall = s.rollcall := rfl
@[simp] theorem State.modLink_fifo (s : State) (n : Nat) (f : Link → Link) : (s.modLink n f).fifo = s.fifo := rfl
@[simp] theorem State.modLink_done (s : State) (n : Nat) (f : Link → Link) : (s.modLink n f).done = s.done := rfl
@[simp] theorem State.modLink_sigs (s : State) (n : Nat) (f : Link → Link) : (s.modLink n f).sigs = s.sigs := rfl
@[simp] theorem State.modLink_sigClock (s : State) (n : Nat) (f : Link → Link) : (s.modLink n f).sigClock = s.sigClock := rfl
@[simp] theorem State.modLink_tables (s : State) (n : Nat) (f : Link → Link) : (s.modLink n f).tables = s.tables := rfl
@[simp] theorem State.modLink_vectors (s : State) (n : Nat) (f : Link → Link) : (s.modLink n f).vectors = s.vectors := rfl
@[simp] theorem State.modLink_mailboxes (s : State) (n : Nat) (f : Link → Link) : (s.modLink n f).mailboxes = s.mailboxes := rfl
@[simp] theorem State.modLink_cpcs (s : State) (n : Nat) (f : Link → Link) : (s.modLink n f).cpcs = s.cpcs := rfl
@[simp] theorem State.modLink_links (s : State) (n : Nat) (f : Link → Link) : (s.modLink n f).links = mmod s.links n f := rfl
@[simp] theorem State.modLink_flows (s : State) (n : Nat) (f : Link → Link) : (s.modLink n f).flows = s.flows := rfl
@[simp] theorem State.modLink_outbox (s : State) (n : Nat) (f : Link → Link) : (s.modLink n f).outbox = s.outbox := rfl
@[simp] theorem State.modLink_reg (s : State) (n : Nat) (f : Link → Link) : (s.modLink n f).reg = s.reg := rfl

/-! ### modReg -/

@[simp] theorem State.modReg_turn (s : State) (f : Registrar → Registrar) : (s.modReg f).turn = s.turn := rfl
@[simp] theorem State.modReg_seed (s : State) (f : Registrar → Registrar) : (s.modReg f).seed = s.seed := rfl
@[simp] theorem State.modReg_inputs (s : State) (f : Registrar → Registrar) : (s.modReg f).inputs = s.inputs := rfl
@[simp] theorem State.modReg_nextId (s : State) (f : Registrar → Registrar) : (s.modReg f).nextId = s.nextId := rfl
@[simp] theorem State.modReg_clk (s : State) (f : Registrar → Registrar) : (s.modReg f).clk = s.clk := rfl
@[simp] theorem State.modReg_mem (s : State) (f : Registrar → Registrar) : (s.modReg f).mem = s.mem := rfl
@[simp] theorem State.modReg_poison (s : State) (f : Registrar → Registrar) : (s.modReg f).poison = s.poison := rfl
@[simp] theorem State.modReg_poked (s : State) (f : Registrar → Registrar) : (s.modReg f).poked = s.poked := rfl
@[simp] theorem State.modReg_keyTags (s : State) (f : Registrar → Registrar) : (s.modReg f).keyTags = s.keyTags := rfl
@[simp] theorem State.modReg_tlb (s : State) (f : Registrar → Registrar) : (s.modReg f).tlb = s.tlb := rfl
@[simp] theorem State.modReg_misses (s : State) (f : Registrar → Registrar) : (s.modReg f).misses = s.misses := rfl
@[simp] theorem State.modReg_icache (s : State) (f : Registrar → Registrar) : (s.modReg f).icache = s.icache := rfl
@[simp] theorem State.modReg_rcache (s : State) (f : Registrar → Registrar) : (s.modReg f).rcache = s.rcache := rfl
@[simp] theorem State.modReg_fills (s : State) (f : Registrar → Registrar) : (s.modReg f).fills = s.fills := rfl
@[simp] theorem State.modReg_failedFills (s : State) (f : Registrar → Registrar) : (s.modReg f).failedFills = s.failedFills := rfl
@[simp] theorem State.modReg_migrs (s : State) (f : Registrar → Registrar) : (s.modReg f).migrs = s.migrs := rfl
@[simp] theorem State.modReg_grids (s : State) (f : Registrar → Registrar) : (s.modReg f).grids = s.grids := rfl
@[simp] theorem State.modReg_clusters (s : State) (f : Registrar → Registrar) : (s.modReg f).clusters = s.clusters := rfl
@[simp] theorem State.modReg_blocks (s : State) (f : Registrar → Registrar) : (s.modReg f).blocks = s.blocks := rfl
@[simp] theorem State.modReg_teams (s : State) (f : Registrar → Registrar) : (s.modReg f).teams = s.teams := rfl
@[simp] theorem State.modReg_frames (s : State) (f : Registrar → Registrar) : (s.modReg f).frames = s.frames := rfl
@[simp] theorem State.modReg_ctxs (s : State) (f : Registrar → Registrar) : (s.modReg f).ctxs = s.ctxs := rfl
@[simp] theorem State.modReg_bins (s : State) (f : Registrar → Registrar) : (s.modReg f).bins = s.bins := rfl
@[simp] theorem State.modReg_matq (s : State) (f : Registrar → Registrar) : (s.modReg f).matq = s.matq := rfl
@[simp] theorem State.modReg_matLast (s : State) (f : Registrar → Registrar) : (s.modReg f).matLast = s.matLast := rfl
@[simp] theorem State.modReg_copies (s : State) (f : Registrar → Registrar) : (s.modReg f).copies = s.copies := rfl
@[simp] theorem State.modReg_msgs (s : State) (f : Registrar → Registrar) : (s.modReg f).msgs = s.msgs := rfl
@[simp] theorem State.modReg_launches (s : State) (f : Registrar → Registrar) : (s.modReg f).launches = s.launches := rfl
@[simp] theorem State.modReg_lamport (s : State) (f : Registrar → Registrar) : (s.modReg f).lamport = s.lamport := rfl
@[simp] theorem State.modReg_images (s : State) (f : Registrar → Registrar) : (s.modReg f).images = s.images := rfl
@[simp] theorem State.modReg_parts (s : State) (f : Registrar → Registrar) : (s.modReg f).parts = s.parts := rfl
@[simp] theorem State.modReg_queues (s : State) (f : Registrar → Registrar) : (s.modReg f).queues = s.queues := rfl
@[simp] theorem State.modReg_rollcall (s : State) (f : Registrar → Registrar) : (s.modReg f).rollcall = s.rollcall := rfl
@[simp] theorem State.modReg_fifo (s : State) (f : Registrar → Registrar) : (s.modReg f).fifo = s.fifo := rfl
@[simp] theorem State.modReg_done (s : State) (f : Registrar → Registrar) : (s.modReg f).done = s.done := rfl
@[simp] theorem State.modReg_sigs (s : State) (f : Registrar → Registrar) : (s.modReg f).sigs = s.sigs := rfl
@[simp] theorem State.modReg_sigClock (s : State) (f : Registrar → Registrar) : (s.modReg f).sigClock = s.sigClock := rfl
@[simp] theorem State.modReg_tables (s : State) (f : Registrar → Registrar) : (s.modReg f).tables = s.tables := rfl
@[simp] theorem State.modReg_vectors (s : State) (f : Registrar → Registrar) : (s.modReg f).vectors = s.vectors := rfl
@[simp] theorem State.modReg_mailboxes (s : State) (f : Registrar → Registrar) : (s.modReg f).mailboxes = s.mailboxes := rfl
@[simp] theorem State.modReg_cpcs (s : State) (f : Registrar → Registrar) : (s.modReg f).cpcs = s.cpcs := rfl
@[simp] theorem State.modReg_links (s : State) (f : Registrar → Registrar) : (s.modReg f).links = s.links := rfl
@[simp] theorem State.modReg_flows (s : State) (f : Registrar → Registrar) : (s.modReg f).flows = s.flows := rfl
@[simp] theorem State.modReg_outbox (s : State) (f : Registrar → Registrar) : (s.modReg f).outbox = s.outbox := rfl
@[simp] theorem State.modReg_reg (s : State) (f : Registrar → Registrar) : (s.modReg f).reg = f s.reg := rfl

/-! ### bump -/

@[simp] theorem State.bump_turn (s : State) (e : Nat) : (s.bump e).turn = s.turn := rfl
@[simp] theorem State.bump_seed (s : State) (e : Nat) : (s.bump e).seed = s.seed := rfl
@[simp] theorem State.bump_inputs (s : State) (e : Nat) : (s.bump e).inputs = s.inputs := rfl
@[simp] theorem State.bump_nextId (s : State) (e : Nat) : (s.bump e).nextId = s.nextId := rfl
@[simp] theorem State.bump_clk (s : State) (e : Nat) : (s.bump e).clk = s.clk := rfl
@[simp] theorem State.bump_mem (s : State) (e : Nat) : (s.bump e).mem = s.mem := rfl
@[simp] theorem State.bump_poison (s : State) (e : Nat) : (s.bump e).poison = s.poison := rfl
@[simp] theorem State.bump_poked (s : State) (e : Nat) : (s.bump e).poked = s.poked := rfl
@[simp] theorem State.bump_keyTags (s : State) (e : Nat) : (s.bump e).keyTags = s.keyTags := rfl
@[simp] theorem State.bump_tlb (s : State) (e : Nat) : (s.bump e).tlb = s.tlb := rfl
@[simp] theorem State.bump_misses (s : State) (e : Nat) : (s.bump e).misses = s.misses := rfl
@[simp] theorem State.bump_icache (s : State) (e : Nat) : (s.bump e).icache = s.icache := rfl
@[simp] theorem State.bump_rcache (s : State) (e : Nat) : (s.bump e).rcache = s.rcache := rfl
@[simp] theorem State.bump_fills (s : State) (e : Nat) : (s.bump e).fills = s.fills := rfl
@[simp] theorem State.bump_failedFills (s : State) (e : Nat) : (s.bump e).failedFills = s.failedFills := rfl
@[simp] theorem State.bump_migrs (s : State) (e : Nat) : (s.bump e).migrs = s.migrs := rfl
@[simp] theorem State.bump_grids (s : State) (e : Nat) : (s.bump e).grids = s.grids := rfl
@[simp] theorem State.bump_clusters (s : State) (e : Nat) : (s.bump e).clusters = s.clusters := rfl
@[simp] theorem State.bump_blocks (s : State) (e : Nat) : (s.bump e).blocks = s.blocks := rfl
@[simp] theorem State.bump_teams (s : State) (e : Nat) : (s.bump e).teams = s.teams := rfl
@[simp] theorem State.bump_frames (s : State) (e : Nat) : (s.bump e).frames = s.frames := rfl
@[simp] theorem State.bump_ctxs (s : State) (e : Nat) : (s.bump e).ctxs = s.ctxs := rfl
@[simp] theorem State.bump_bins (s : State) (e : Nat) : (s.bump e).bins = s.bins := rfl
@[simp] theorem State.bump_matq (s : State) (e : Nat) : (s.bump e).matq = s.matq := rfl
@[simp] theorem State.bump_matLast (s : State) (e : Nat) : (s.bump e).matLast = s.matLast := rfl
@[simp] theorem State.bump_copies (s : State) (e : Nat) : (s.bump e).copies = s.copies := rfl
@[simp] theorem State.bump_msgs (s : State) (e : Nat) : (s.bump e).msgs = s.msgs := rfl
@[simp] theorem State.bump_launches (s : State) (e : Nat) : (s.bump e).launches = s.launches := rfl
@[simp] theorem State.bump_images (s : State) (e : Nat) : (s.bump e).images = s.images := rfl
@[simp] theorem State.bump_parts (s : State) (e : Nat) : (s.bump e).parts = s.parts := rfl
@[simp] theorem State.bump_queues (s : State) (e : Nat) : (s.bump e).queues = s.queues := rfl
@[simp] theorem State.bump_rollcall (s : State) (e : Nat) : (s.bump e).rollcall = s.rollcall := rfl
@[simp] theorem State.bump_fifo (s : State) (e : Nat) : (s.bump e).fifo = s.fifo := rfl
@[simp] theorem State.bump_done (s : State) (e : Nat) : (s.bump e).done = s.done := rfl
@[simp] theorem State.bump_sigs (s : State) (e : Nat) : (s.bump e).sigs = s.sigs := rfl
@[simp] theorem State.bump_sigClock (s : State) (e : Nat) : (s.bump e).sigClock = s.sigClock := rfl
@[simp] theorem State.bump_tables (s : State) (e : Nat) : (s.bump e).tables = s.tables := rfl
@[simp] theorem State.bump_vectors (s : State) (e : Nat) : (s.bump e).vectors = s.vectors := rfl
@[simp] theorem State.bump_mailboxes (s : State) (e : Nat) : (s.bump e).mailboxes = s.mailboxes := rfl
@[simp] theorem State.bump_cpcs (s : State) (e : Nat) : (s.bump e).cpcs = s.cpcs := rfl
@[simp] theorem State.bump_links (s : State) (e : Nat) : (s.bump e).links = s.links := rfl
@[simp] theorem State.bump_flows (s : State) (e : Nat) : (s.bump e).flows = s.flows := rfl
@[simp] theorem State.bump_outbox (s : State) (e : Nat) : (s.bump e).outbox = s.outbox := rfl
@[simp] theorem State.bump_reg (s : State) (e : Nat) : (s.bump e).reg = s.reg := rfl

/-! ### receive -/

@[simp] theorem State.receive_turn (s : State) (e : Nat) (c : W64) : (s.receive e c).turn = s.turn := rfl
@[simp] theorem State.receive_seed (s : State) (e : Nat) (c : W64) : (s.receive e c).seed = s.seed := rfl
@[simp] theorem State.receive_inputs (s : State) (e : Nat) (c : W64) : (s.receive e c).inputs = s.inputs := rfl
@[simp] theorem State.receive_nextId (s : State) (e : Nat) (c : W64) : (s.receive e c).nextId = s.nextId := rfl
@[simp] theorem State.receive_clk (s : State) (e : Nat) (c : W64) : (s.receive e c).clk = s.clk := rfl
@[simp] theorem State.receive_mem (s : State) (e : Nat) (c : W64) : (s.receive e c).mem = s.mem := rfl
@[simp] theorem State.receive_poison (s : State) (e : Nat) (c : W64) : (s.receive e c).poison = s.poison := rfl
@[simp] theorem State.receive_poked (s : State) (e : Nat) (c : W64) : (s.receive e c).poked = s.poked := rfl
@[simp] theorem State.receive_keyTags (s : State) (e : Nat) (c : W64) : (s.receive e c).keyTags = s.keyTags := rfl
@[simp] theorem State.receive_tlb (s : State) (e : Nat) (c : W64) : (s.receive e c).tlb = s.tlb := rfl
@[simp] theorem State.receive_misses (s : State) (e : Nat) (c : W64) : (s.receive e c).misses = s.misses := rfl
@[simp] theorem State.receive_icache (s : State) (e : Nat) (c : W64) : (s.receive e c).icache = s.icache := rfl
@[simp] theorem State.receive_rcache (s : State) (e : Nat) (c : W64) : (s.receive e c).rcache = s.rcache := rfl
@[simp] theorem State.receive_fills (s : State) (e : Nat) (c : W64) : (s.receive e c).fills = s.fills := rfl
@[simp] theorem State.receive_failedFills (s : State) (e : Nat) (c : W64) : (s.receive e c).failedFills = s.failedFills := rfl
@[simp] theorem State.receive_migrs (s : State) (e : Nat) (c : W64) : (s.receive e c).migrs = s.migrs := rfl
@[simp] theorem State.receive_grids (s : State) (e : Nat) (c : W64) : (s.receive e c).grids = s.grids := rfl
@[simp] theorem State.receive_clusters (s : State) (e : Nat) (c : W64) : (s.receive e c).clusters = s.clusters := rfl
@[simp] theorem State.receive_blocks (s : State) (e : Nat) (c : W64) : (s.receive e c).blocks = s.blocks := rfl
@[simp] theorem State.receive_teams (s : State) (e : Nat) (c : W64) : (s.receive e c).teams = s.teams := rfl
@[simp] theorem State.receive_frames (s : State) (e : Nat) (c : W64) : (s.receive e c).frames = s.frames := rfl
@[simp] theorem State.receive_ctxs (s : State) (e : Nat) (c : W64) : (s.receive e c).ctxs = s.ctxs := rfl
@[simp] theorem State.receive_bins (s : State) (e : Nat) (c : W64) : (s.receive e c).bins = s.bins := rfl
@[simp] theorem State.receive_matq (s : State) (e : Nat) (c : W64) : (s.receive e c).matq = s.matq := rfl
@[simp] theorem State.receive_matLast (s : State) (e : Nat) (c : W64) : (s.receive e c).matLast = s.matLast := rfl
@[simp] theorem State.receive_copies (s : State) (e : Nat) (c : W64) : (s.receive e c).copies = s.copies := rfl
@[simp] theorem State.receive_msgs (s : State) (e : Nat) (c : W64) : (s.receive e c).msgs = s.msgs := rfl
@[simp] theorem State.receive_launches (s : State) (e : Nat) (c : W64) : (s.receive e c).launches = s.launches := rfl
@[simp] theorem State.receive_images (s : State) (e : Nat) (c : W64) : (s.receive e c).images = s.images := rfl
@[simp] theorem State.receive_parts (s : State) (e : Nat) (c : W64) : (s.receive e c).parts = s.parts := rfl
@[simp] theorem State.receive_queues (s : State) (e : Nat) (c : W64) : (s.receive e c).queues = s.queues := rfl
@[simp] theorem State.receive_rollcall (s : State) (e : Nat) (c : W64) : (s.receive e c).rollcall = s.rollcall := rfl
@[simp] theorem State.receive_fifo (s : State) (e : Nat) (c : W64) : (s.receive e c).fifo = s.fifo := rfl
@[simp] theorem State.receive_done (s : State) (e : Nat) (c : W64) : (s.receive e c).done = s.done := rfl
@[simp] theorem State.receive_sigs (s : State) (e : Nat) (c : W64) : (s.receive e c).sigs = s.sigs := rfl
@[simp] theorem State.receive_sigClock (s : State) (e : Nat) (c : W64) : (s.receive e c).sigClock = s.sigClock := rfl
@[simp] theorem State.receive_tables (s : State) (e : Nat) (c : W64) : (s.receive e c).tables = s.tables := rfl
@[simp] theorem State.receive_vectors (s : State) (e : Nat) (c : W64) : (s.receive e c).vectors = s.vectors := rfl
@[simp] theorem State.receive_mailboxes (s : State) (e : Nat) (c : W64) : (s.receive e c).mailboxes = s.mailboxes := rfl
@[simp] theorem State.receive_cpcs (s : State) (e : Nat) (c : W64) : (s.receive e c).cpcs = s.cpcs := rfl
@[simp] theorem State.receive_links (s : State) (e : Nat) (c : W64) : (s.receive e c).links = s.links := rfl
@[simp] theorem State.receive_flows (s : State) (e : Nat) (c : W64) : (s.receive e c).flows = s.flows := rfl
@[simp] theorem State.receive_outbox (s : State) (e : Nat) (c : W64) : (s.receive e c).outbox = s.outbox := rfl
@[simp] theorem State.receive_reg (s : State) (e : Nat) (c : W64) : (s.receive e c).reg = s.reg := rfl

/-! ### roll -/

@[simp] theorem State.roll_turn (s : State) (q : Nat) : (s.roll q).turn = s.turn := rfl
@[simp] theorem State.roll_seed (s : State) (q : Nat) : (s.roll q).seed = s.seed := rfl
@[simp] theorem State.roll_inputs (s : State) (q : Nat) : (s.roll q).inputs = s.inputs := rfl
@[simp] theorem State.roll_nextId (s : State) (q : Nat) : (s.roll q).nextId = s.nextId := rfl
@[simp] theorem State.roll_clk (s : State) (q : Nat) : (s.roll q).clk = s.clk := rfl
@[simp] theorem State.roll_mem (s : State) (q : Nat) : (s.roll q).mem = s.mem := rfl
@[simp] theorem State.roll_poison (s : State) (q : Nat) : (s.roll q).poison = s.poison := rfl
@[simp] theorem State.roll_poked (s : State) (q : Nat) : (s.roll q).poked = s.poked := rfl
@[simp] theorem State.roll_keyTags (s : State) (q : Nat) : (s.roll q).keyTags = s.keyTags := rfl
@[simp] theorem State.roll_tlb (s : State) (q : Nat) : (s.roll q).tlb = s.tlb := rfl
@[simp] theorem State.roll_misses (s : State) (q : Nat) : (s.roll q).misses = s.misses := rfl
@[simp] theorem State.roll_icache (s : State) (q : Nat) : (s.roll q).icache = s.icache := rfl
@[simp] theorem State.roll_rcache (s : State) (q : Nat) : (s.roll q).rcache = s.rcache := rfl
@[simp] theorem State.roll_fills (s : State) (q : Nat) : (s.roll q).fills = s.fills := rfl
@[simp] theorem State.roll_failedFills (s : State) (q : Nat) : (s.roll q).failedFills = s.failedFills := rfl
@[simp] theorem State.roll_migrs (s : State) (q : Nat) : (s.roll q).migrs = s.migrs := rfl
@[simp] theorem State.roll_grids (s : State) (q : Nat) : (s.roll q).grids = s.grids := rfl
@[simp] theorem State.roll_clusters (s : State) (q : Nat) : (s.roll q).clusters = s.clusters := rfl
@[simp] theorem State.roll_blocks (s : State) (q : Nat) : (s.roll q).blocks = s.blocks := rfl
@[simp] theorem State.roll_teams (s : State) (q : Nat) : (s.roll q).teams = s.teams := rfl
@[simp] theorem State.roll_frames (s : State) (q : Nat) : (s.roll q).frames = s.frames := rfl
@[simp] theorem State.roll_ctxs (s : State) (q : Nat) : (s.roll q).ctxs = s.ctxs := rfl
@[simp] theorem State.roll_bins (s : State) (q : Nat) : (s.roll q).bins = s.bins := rfl
@[simp] theorem State.roll_matq (s : State) (q : Nat) : (s.roll q).matq = s.matq := rfl
@[simp] theorem State.roll_matLast (s : State) (q : Nat) : (s.roll q).matLast = s.matLast := rfl
@[simp] theorem State.roll_copies (s : State) (q : Nat) : (s.roll q).copies = s.copies := rfl
@[simp] theorem State.roll_msgs (s : State) (q : Nat) : (s.roll q).msgs = s.msgs := rfl
@[simp] theorem State.roll_launches (s : State) (q : Nat) : (s.roll q).launches = s.launches := rfl
@[simp] theorem State.roll_lamport (s : State) (q : Nat) : (s.roll q).lamport = s.lamport := rfl
@[simp] theorem State.roll_images (s : State) (q : Nat) : (s.roll q).images = s.images := rfl
@[simp] theorem State.roll_parts (s : State) (q : Nat) : (s.roll q).parts = s.parts := rfl
@[simp] theorem State.roll_queues (s : State) (q : Nat) : (s.roll q).queues = s.queues := rfl
@[simp] theorem State.roll_fifo (s : State) (q : Nat) : (s.roll q).fifo = s.fifo := rfl
@[simp] theorem State.roll_done (s : State) (q : Nat) : (s.roll q).done = s.done := rfl
@[simp] theorem State.roll_sigs (s : State) (q : Nat) : (s.roll q).sigs = s.sigs := rfl
@[simp] theorem State.roll_sigClock (s : State) (q : Nat) : (s.roll q).sigClock = s.sigClock := rfl
@[simp] theorem State.roll_tables (s : State) (q : Nat) : (s.roll q).tables = s.tables := rfl
@[simp] theorem State.roll_vectors (s : State) (q : Nat) : (s.roll q).vectors = s.vectors := rfl
@[simp] theorem State.roll_mailboxes (s : State) (q : Nat) : (s.roll q).mailboxes = s.mailboxes := rfl
@[simp] theorem State.roll_cpcs (s : State) (q : Nat) : (s.roll q).cpcs = s.cpcs := rfl
@[simp] theorem State.roll_links (s : State) (q : Nat) : (s.roll q).links = s.links := rfl
@[simp] theorem State.roll_flows (s : State) (q : Nat) : (s.roll q).flows = s.flows := rfl
@[simp] theorem State.roll_outbox (s : State) (q : Nat) : (s.roll q).outbox = s.outbox := rfl
@[simp] theorem State.roll_reg (s : State) (q : Nat) : (s.roll q).reg = s.reg := rfl

/-! ### count -/

@[simp] theorem State.count_turn (s : State) (g core n k : Nat) : (s.count g core n k).turn = s.turn := rfl
@[simp] theorem State.count_seed (s : State) (g core n k : Nat) : (s.count g core n k).seed = s.seed := rfl
@[simp] theorem State.count_inputs (s : State) (g core n k : Nat) : (s.count g core n k).inputs = s.inputs := rfl
@[simp] theorem State.count_nextId (s : State) (g core n k : Nat) : (s.count g core n k).nextId = s.nextId := rfl
@[simp] theorem State.count_clk (s : State) (g core n k : Nat) : (s.count g core n k).clk = s.clk := rfl
@[simp] theorem State.count_mem (s : State) (g core n k : Nat) : (s.count g core n k).mem = s.mem := rfl
@[simp] theorem State.count_poison (s : State) (g core n k : Nat) : (s.count g core n k).poison = s.poison := rfl
@[simp] theorem State.count_poked (s : State) (g core n k : Nat) : (s.count g core n k).poked = s.poked := rfl
@[simp] theorem State.count_keyTags (s : State) (g core n k : Nat) : (s.count g core n k).keyTags = s.keyTags := rfl
@[simp] theorem State.count_tlb (s : State) (g core n k : Nat) : (s.count g core n k).tlb = s.tlb := rfl
@[simp] theorem State.count_misses (s : State) (g core n k : Nat) : (s.count g core n k).misses = s.misses := rfl
@[simp] theorem State.count_icache (s : State) (g core n k : Nat) : (s.count g core n k).icache = s.icache := rfl
@[simp] theorem State.count_rcache (s : State) (g core n k : Nat) : (s.count g core n k).rcache = s.rcache := rfl
@[simp] theorem State.count_fills (s : State) (g core n k : Nat) : (s.count g core n k).fills = s.fills := rfl
@[simp] theorem State.count_failedFills (s : State) (g core n k : Nat) : (s.count g core n k).failedFills = s.failedFills := rfl
@[simp] theorem State.count_migrs (s : State) (g core n k : Nat) : (s.count g core n k).migrs = s.migrs := rfl
@[simp] theorem State.count_clusters (s : State) (g core n k : Nat) : (s.count g core n k).clusters = s.clusters := rfl
@[simp] theorem State.count_blocks (s : State) (g core n k : Nat) : (s.count g core n k).blocks = s.blocks := rfl
@[simp] theorem State.count_teams (s : State) (g core n k : Nat) : (s.count g core n k).teams = s.teams := rfl
@[simp] theorem State.count_frames (s : State) (g core n k : Nat) : (s.count g core n k).frames = s.frames := rfl
@[simp] theorem State.count_ctxs (s : State) (g core n k : Nat) : (s.count g core n k).ctxs = s.ctxs := rfl
@[simp] theorem State.count_bins (s : State) (g core n k : Nat) : (s.count g core n k).bins = s.bins := rfl
@[simp] theorem State.count_matq (s : State) (g core n k : Nat) : (s.count g core n k).matq = s.matq := rfl
@[simp] theorem State.count_matLast (s : State) (g core n k : Nat) : (s.count g core n k).matLast = s.matLast := rfl
@[simp] theorem State.count_copies (s : State) (g core n k : Nat) : (s.count g core n k).copies = s.copies := rfl
@[simp] theorem State.count_msgs (s : State) (g core n k : Nat) : (s.count g core n k).msgs = s.msgs := rfl
@[simp] theorem State.count_launches (s : State) (g core n k : Nat) : (s.count g core n k).launches = s.launches := rfl
@[simp] theorem State.count_lamport (s : State) (g core n k : Nat) : (s.count g core n k).lamport = s.lamport := rfl
@[simp] theorem State.count_images (s : State) (g core n k : Nat) : (s.count g core n k).images = s.images := rfl
@[simp] theorem State.count_parts (s : State) (g core n k : Nat) : (s.count g core n k).parts = s.parts := rfl
@[simp] theorem State.count_queues (s : State) (g core n k : Nat) : (s.count g core n k).queues = s.queues := rfl
@[simp] theorem State.count_rollcall (s : State) (g core n k : Nat) : (s.count g core n k).rollcall = s.rollcall := rfl
@[simp] theorem State.count_fifo (s : State) (g core n k : Nat) : (s.count g core n k).fifo = s.fifo := rfl
@[simp] theorem State.count_done (s : State) (g core n k : Nat) : (s.count g core n k).done = s.done := rfl
@[simp] theorem State.count_sigs (s : State) (g core n k : Nat) : (s.count g core n k).sigs = s.sigs := rfl
@[simp] theorem State.count_sigClock (s : State) (g core n k : Nat) : (s.count g core n k).sigClock = s.sigClock := rfl
@[simp] theorem State.count_tables (s : State) (g core n k : Nat) : (s.count g core n k).tables = s.tables := rfl
@[simp] theorem State.count_vectors (s : State) (g core n k : Nat) : (s.count g core n k).vectors = s.vectors := rfl
@[simp] theorem State.count_mailboxes (s : State) (g core n k : Nat) : (s.count g core n k).mailboxes = s.mailboxes := rfl
@[simp] theorem State.count_cpcs (s : State) (g core n k : Nat) : (s.count g core n k).cpcs = s.cpcs := rfl
@[simp] theorem State.count_links (s : State) (g core n k : Nat) : (s.count g core n k).links = s.links := rfl
@[simp] theorem State.count_flows (s : State) (g core n k : Nat) : (s.count g core n k).flows = s.flows := rfl
@[simp] theorem State.count_outbox (s : State) (g core n k : Nat) : (s.count g core n k).outbox = s.outbox := rfl
@[simp] theorem State.count_reg (s : State) (g core n k : Nat) : (s.count g core n k).reg = s.reg := rfl

/-! ### modSeq -/

@[simp] theorem State.modSeq_turn (s : State) (p : Party) (f : Seq → Seq) : (s.modSeq p f).turn = s.turn := by cases p <;> rfl
@[simp] theorem State.modSeq_seed (s : State) (p : Party) (f : Seq → Seq) : (s.modSeq p f).seed = s.seed := by cases p <;> rfl
@[simp] theorem State.modSeq_inputs (s : State) (p : Party) (f : Seq → Seq) : (s.modSeq p f).inputs = s.inputs := by cases p <;> rfl
@[simp] theorem State.modSeq_nextId (s : State) (p : Party) (f : Seq → Seq) : (s.modSeq p f).nextId = s.nextId := by cases p <;> rfl
@[simp] theorem State.modSeq_clk (s : State) (p : Party) (f : Seq → Seq) : (s.modSeq p f).clk = s.clk := by cases p <;> rfl
@[simp] theorem State.modSeq_mem (s : State) (p : Party) (f : Seq → Seq) : (s.modSeq p f).mem = s.mem := by cases p <;> rfl
@[simp] theorem State.modSeq_poison (s : State) (p : Party) (f : Seq → Seq) : (s.modSeq p f).poison = s.poison := by cases p <;> rfl
@[simp] theorem State.modSeq_poked (s : State) (p : Party) (f : Seq → Seq) : (s.modSeq p f).poked = s.poked := by cases p <;> rfl
@[simp] theorem State.modSeq_keyTags (s : State) (p : Party) (f : Seq → Seq) : (s.modSeq p f).keyTags = s.keyTags := by cases p <;> rfl
@[simp] theorem State.modSeq_tlb (s : State) (p : Party) (f : Seq → Seq) : (s.modSeq p f).tlb = s.tlb := by cases p <;> rfl
@[simp] theorem State.modSeq_icache (s : State) (p : Party) (f : Seq → Seq) : (s.modSeq p f).icache = s.icache := by cases p <;> rfl
@[simp] theorem State.modSeq_rcache (s : State) (p : Party) (f : Seq → Seq) : (s.modSeq p f).rcache = s.rcache := by cases p <;> rfl
@[simp] theorem State.modSeq_fills (s : State) (p : Party) (f : Seq → Seq) : (s.modSeq p f).fills = s.fills := by cases p <;> rfl
@[simp] theorem State.modSeq_migrs (s : State) (p : Party) (f : Seq → Seq) : (s.modSeq p f).migrs = s.migrs := by cases p <;> rfl
@[simp] theorem State.modSeq_frames (s : State) (p : Party) (f : Seq → Seq) : (s.modSeq p f).frames = s.frames := by cases p <;> rfl
@[simp] theorem State.modSeq_ctxs (s : State) (p : Party) (f : Seq → Seq) : (s.modSeq p f).ctxs = s.ctxs := by cases p <;> rfl
@[simp] theorem State.modSeq_bins (s : State) (p : Party) (f : Seq → Seq) : (s.modSeq p f).bins = s.bins := by cases p <;> rfl
@[simp] theorem State.modSeq_matq (s : State) (p : Party) (f : Seq → Seq) : (s.modSeq p f).matq = s.matq := by cases p <;> rfl
@[simp] theorem State.modSeq_matLast (s : State) (p : Party) (f : Seq → Seq) : (s.modSeq p f).matLast = s.matLast := by cases p <;> rfl
@[simp] theorem State.modSeq_copies (s : State) (p : Party) (f : Seq → Seq) : (s.modSeq p f).copies = s.copies := by cases p <;> rfl
@[simp] theorem State.modSeq_msgs (s : State) (p : Party) (f : Seq → Seq) : (s.modSeq p f).msgs = s.msgs := by cases p <;> rfl
@[simp] theorem State.modSeq_launches (s : State) (p : Party) (f : Seq → Seq) : (s.modSeq p f).launches = s.launches := by cases p <;> rfl
@[simp] theorem State.modSeq_lamport (s : State) (p : Party) (f : Seq → Seq) : (s.modSeq p f).lamport = s.lamport := by cases p <;> rfl
@[simp] theorem State.modSeq_images (s : State) (p : Party) (f : Seq → Seq) : (s.modSeq p f).images = s.images := by cases p <;> rfl
@[simp] theorem State.modSeq_parts (s : State) (p : Party) (f : Seq → Seq) : (s.modSeq p f).parts = s.parts := by cases p <;> rfl
@[simp] theorem State.modSeq_queues (s : State) (p : Party) (f : Seq → Seq) : (s.modSeq p f).queues = s.queues := by cases p <;> rfl
@[simp] theorem State.modSeq_rollcall (s : State) (p : Party) (f : Seq → Seq) : (s.modSeq p f).rollcall = s.rollcall := by cases p <;> rfl
@[simp] theorem State.modSeq_fifo (s : State) (p : Party) (f : Seq → Seq) : (s.modSeq p f).fifo = s.fifo := by cases p <;> rfl
@[simp] theorem State.modSeq_done (s : State) (p : Party) (f : Seq → Seq) : (s.modSeq p f).done = s.done := by cases p <;> rfl
@[simp] theorem State.modSeq_sigs (s : State) (p : Party) (f : Seq → Seq) : (s.modSeq p f).sigs = s.sigs := by cases p <;> rfl
@[simp] theorem State.modSeq_sigClock (s : State) (p : Party) (f : Seq → Seq) : (s.modSeq p f).sigClock = s.sigClock := by cases p <;> rfl
@[simp] theorem State.modSeq_tables (s : State) (p : Party) (f : Seq → Seq) : (s.modSeq p f).tables = s.tables := by cases p <;> rfl
@[simp] theorem State.modSeq_vectors (s : State) (p : Party) (f : Seq → Seq) : (s.modSeq p f).vectors = s.vectors := by cases p <;> rfl
@[simp] theorem State.modSeq_mailboxes (s : State) (p : Party) (f : Seq → Seq) : (s.modSeq p f).mailboxes = s.mailboxes := by cases p <;> rfl
@[simp] theorem State.modSeq_cpcs (s : State) (p : Party) (f : Seq → Seq) : (s.modSeq p f).cpcs = s.cpcs := by cases p <;> rfl
@[simp] theorem State.modSeq_links (s : State) (p : Party) (f : Seq → Seq) : (s.modSeq p f).links = s.links := by cases p <;> rfl
@[simp] theorem State.modSeq_flows (s : State) (p : Party) (f : Seq → Seq) : (s.modSeq p f).flows = s.flows := by cases p <;> rfl
@[simp] theorem State.modSeq_outbox (s : State) (p : Party) (f : Seq → Seq) : (s.modSeq p f).outbox = s.outbox := by cases p <;> rfl
@[simp] theorem State.modSeq_reg (s : State) (p : Party) (f : Seq → Seq) : (s.modSeq p f).reg = s.reg := by cases p <;> rfl

/-! ### modLvl -/

@[simp] theorem State.modLvl_turn (s : State) (p : Party) (f : Lvl → Lvl) : (s.modLvl p f).turn = s.turn := by cases p <;> rfl
@[simp] theorem State.modLvl_seed (s : State) (p : Party) (f : Lvl → Lvl) : (s.modLvl p f).seed = s.seed := by cases p <;> rfl
@[simp] theorem State.modLvl_inputs (s : State) (p : Party) (f : Lvl → Lvl) : (s.modLvl p f).inputs = s.inputs := by cases p <;> rfl
@[simp] theorem State.modLvl_nextId (s : State) (p : Party) (f : Lvl → Lvl) : (s.modLvl p f).nextId = s.nextId := by cases p <;> rfl
@[simp] theorem State.modLvl_clk (s : State) (p : Party) (f : Lvl → Lvl) : (s.modLvl p f).clk = s.clk := by cases p <;> rfl
@[simp] theorem State.modLvl_mem (s : State) (p : Party) (f : Lvl → Lvl) : (s.modLvl p f).mem = s.mem := by cases p <;> rfl
@[simp] theorem State.modLvl_poison (s : State) (p : Party) (f : Lvl → Lvl) : (s.modLvl p f).poison = s.poison := by cases p <;> rfl
@[simp] theorem State.modLvl_poked (s : State) (p : Party) (f : Lvl → Lvl) : (s.modLvl p f).poked = s.poked := by cases p <;> rfl
@[simp] theorem State.modLvl_keyTags (s : State) (p : Party) (f : Lvl → Lvl) : (s.modLvl p f).keyTags = s.keyTags := by cases p <;> rfl
@[simp] theorem State.modLvl_tlb (s : State) (p : Party) (f : Lvl → Lvl) : (s.modLvl p f).tlb = s.tlb := by cases p <;> rfl
@[simp] theorem State.modLvl_icache (s : State) (p : Party) (f : Lvl → Lvl) : (s.modLvl p f).icache = s.icache := by cases p <;> rfl
@[simp] theorem State.modLvl_rcache (s : State) (p : Party) (f : Lvl → Lvl) : (s.modLvl p f).rcache = s.rcache := by cases p <;> rfl
@[simp] theorem State.modLvl_fills (s : State) (p : Party) (f : Lvl → Lvl) : (s.modLvl p f).fills = s.fills := by cases p <;> rfl
@[simp] theorem State.modLvl_migrs (s : State) (p : Party) (f : Lvl → Lvl) : (s.modLvl p f).migrs = s.migrs := by cases p <;> rfl
@[simp] theorem State.modLvl_frames (s : State) (p : Party) (f : Lvl → Lvl) : (s.modLvl p f).frames = s.frames := by cases p <;> rfl
@[simp] theorem State.modLvl_ctxs (s : State) (p : Party) (f : Lvl → Lvl) : (s.modLvl p f).ctxs = s.ctxs := by cases p <;> rfl
@[simp] theorem State.modLvl_bins (s : State) (p : Party) (f : Lvl → Lvl) : (s.modLvl p f).bins = s.bins := by cases p <;> rfl
@[simp] theorem State.modLvl_matq (s : State) (p : Party) (f : Lvl → Lvl) : (s.modLvl p f).matq = s.matq := by cases p <;> rfl
@[simp] theorem State.modLvl_matLast (s : State) (p : Party) (f : Lvl → Lvl) : (s.modLvl p f).matLast = s.matLast := by cases p <;> rfl
@[simp] theorem State.modLvl_copies (s : State) (p : Party) (f : Lvl → Lvl) : (s.modLvl p f).copies = s.copies := by cases p <;> rfl
@[simp] theorem State.modLvl_msgs (s : State) (p : Party) (f : Lvl → Lvl) : (s.modLvl p f).msgs = s.msgs := by cases p <;> rfl
@[simp] theorem State.modLvl_launches (s : State) (p : Party) (f : Lvl → Lvl) : (s.modLvl p f).launches = s.launches := by cases p <;> rfl
@[simp] theorem State.modLvl_lamport (s : State) (p : Party) (f : Lvl → Lvl) : (s.modLvl p f).lamport = s.lamport := by cases p <;> rfl
@[simp] theorem State.modLvl_images (s : State) (p : Party) (f : Lvl → Lvl) : (s.modLvl p f).images = s.images := by cases p <;> rfl
@[simp] theorem State.modLvl_parts (s : State) (p : Party) (f : Lvl → Lvl) : (s.modLvl p f).parts = s.parts := by cases p <;> rfl
@[simp] theorem State.modLvl_queues (s : State) (p : Party) (f : Lvl → Lvl) : (s.modLvl p f).queues = s.queues := by cases p <;> rfl
@[simp] theorem State.modLvl_rollcall (s : State) (p : Party) (f : Lvl → Lvl) : (s.modLvl p f).rollcall = s.rollcall := by cases p <;> rfl
@[simp] theorem State.modLvl_fifo (s : State) (p : Party) (f : Lvl → Lvl) : (s.modLvl p f).fifo = s.fifo := by cases p <;> rfl
@[simp] theorem State.modLvl_done (s : State) (p : Party) (f : Lvl → Lvl) : (s.modLvl p f).done = s.done := by cases p <;> rfl
@[simp] theorem State.modLvl_sigs (s : State) (p : Party) (f : Lvl → Lvl) : (s.modLvl p f).sigs = s.sigs := by cases p <;> rfl
@[simp] theorem State.modLvl_sigClock (s : State) (p : Party) (f : Lvl → Lvl) : (s.modLvl p f).sigClock = s.sigClock := by cases p <;> rfl
@[simp] theorem State.modLvl_tables (s : State) (p : Party) (f : Lvl → Lvl) : (s.modLvl p f).tables = s.tables := by cases p <;> rfl
@[simp] theorem State.modLvl_vectors (s : State) (p : Party) (f : Lvl → Lvl) : (s.modLvl p f).vectors = s.vectors := by cases p <;> rfl
@[simp] theorem State.modLvl_mailboxes (s : State) (p : Party) (f : Lvl → Lvl) : (s.modLvl p f).mailboxes = s.mailboxes := by cases p <;> rfl
@[simp] theorem State.modLvl_cpcs (s : State) (p : Party) (f : Lvl → Lvl) : (s.modLvl p f).cpcs = s.cpcs := by cases p <;> rfl
@[simp] theorem State.modLvl_links (s : State) (p : Party) (f : Lvl → Lvl) : (s.modLvl p f).links = s.links := by cases p <;> rfl
@[simp] theorem State.modLvl_flows (s : State) (p : Party) (f : Lvl → Lvl) : (s.modLvl p f).flows = s.flows := by cases p <;> rfl
@[simp] theorem State.modLvl_outbox (s : State) (p : Party) (f : Lvl → Lvl) : (s.modLvl p f).outbox = s.outbox := by cases p <;> rfl
@[simp] theorem State.modLvl_reg (s : State) (p : Party) (f : Lvl → Lvl) : (s.modLvl p f).reg = s.reg := by cases p <;> rfl

/-! ### Accessors after updates -/

@[simp] theorem State.grid_modGrid (s : State) (g : Nat) (f : Grid → Grid) : (s.modGrid g f).grid g = (s.grid g).map f :=
  mget_mmod_self _ _ _
@[simp] theorem State.block_modBlock (s : State) (g b : Nat) (f : Blk → Blk) : (s.modBlock g b f).block g b = (s.block g b).map f :=
  mget_mmod_self _ _ _
@[simp] theorem State.cluster_modCluster (s : State) (g k : Nat) (f : Clus → Clus) :
    (s.modCluster g k f).cluster g k = (s.cluster g k).map f := mget_mmod_self _ _ _
@[simp] theorem State.team_modTeam (s : State) (g b t : Nat) (f : Team → Team) :
    (s.modTeam g b t f).team g b t = (s.team g b t).map f := mget_mmod_self _ _ _
theorem State.grid_modGrid_ne (s : State) {g k : Nat} (f : Grid → Grid) (h : k ≠ g) : (s.modGrid g f).grid k = s.grid k :=
  mget_mmod_ne _ _ h
@[simp] theorem State.seqOf_modSeq (s : State) (p : Party) (f : Seq → Seq) : (s.modSeq p f).seqOf p = (s.seqOf p).map f := by
  cases p <;> simp [State.seqOf, State.modSeq, State.team, State.block, State.cluster, State.grid, Function.comp_def]

end Sys2Proof.Machine
end

