-- ==== Sys2Proof/Laws/Team.lean ====
section
/-! SUPPORT. What a team's chain can change when its member only writes the team: the team itself and counters of grids
(R48, R52, R70, R82, R344). -/

namespace Sys2Proof.Machine

/-- A grid without its counters. -/
def Grid.uncounted (x : Grid) : Grid := { x with counters := [] }

/-- t is s but for the team at key n, which goes from y to a z with R y z, and for the counters of grids. -/
def teamOnly (s t : State) (n : Nat) (R : Team → Team → Prop) : Prop :=
  ∃ x G, t = { s with teams := x, grids := G } ∧ (∀ k, k ≠ n → mget x k = mget s.teams k) ∧
    (∀ y, mget s.teams n = some y → ∃ z, mget x n = some z ∧ R y z) ∧
    (∀ k, (mget G k).map Grid.uncounted = (mget s.grids k).map Grid.uncounted)

theorem teamOnly_refl (s : State) (n : Nat) : teamOnly s s n (fun y z => z = y) :=
  ⟨s.teams, s.grids, rfl, fun _ _ => rfl, fun y h => ⟨y, h, rfl⟩, fun _ => rfl⟩

theorem teamOnly_mono {s t : State} {n : Nat} {R S : Team → Team → Prop} (h : teamOnly s t n R) (hs : ∀ y z, R y z → S y z) :
    teamOnly s t n S := by
  obtain ⟨x, G, e, h1, h2, h3⟩ := h
  exact ⟨x, G, e, h1, fun y hy => (h2 y hy).imp fun z hz => ⟨hz.1, hs _ _ hz.2⟩, h3⟩

theorem teamOnly_trans {s t u : State} {n : Nat} {R S : Team → Team → Prop} (h : teamOnly s t n R) (h' : teamOnly t u n S) :
    teamOnly s u n fun y z => ∃ w, R y w ∧ S w z := by
  obtain ⟨x, G, e, h1, h2, h3⟩ := h
  obtain ⟨x', G', e', h1', h2', h3'⟩ := h'
  subst e
  refine ⟨x', G', by rw [e'], fun k hk => (h1' k hk).trans (h1 k hk), ?_, fun k => (h3' k).trans (h3 k)⟩
  intro y hy
  obtain ⟨z, hz, hr⟩ := h2 y hy
  obtain ⟨w, hw, hs⟩ := h2' z hz
  exact ⟨w, hw, z, hr, hs⟩

/-- Changing the team changes the team only. -/
theorem teamOnly_modTeam (s : State) (g b u : Nat) (f : Team → Team) :
    teamOnly s (s.modTeam g b u f) (tKey g b u) (fun y z => z = f y) :=
  ⟨mmod s.teams (tKey g b u) f, s.grids, rfl, fun k hk => mget_mmod_ne _ _ hk,
    fun y hy => ⟨f y, by rw [mget_mmod_self, hy]; rfl, rfl⟩, fun _ => rfl⟩

/-- Changing the position of the team changes the team's position only. -/
theorem teamOnly_modSeq (s : State) (g b u : Nat) (f : Seq → Seq) :
    teamOnly s (s.modSeq (.team g b u) f) (tKey g b u) (fun y z => z = { y with seq := f y.seq }) :=
  teamOnly_modTeam s g b u _

/-- Counting changes counters only. -/
theorem teamOnly_count (s : State) (g core n k m : Nat) : teamOnly s (s.count g core n k) m (fun y z => z = y) := by
  refine ⟨s.teams, _, rfl, fun _ _ => rfl, fun y h => ⟨y, h, rfl⟩, fun j => ?_⟩
  by_cases h : j = g
  · subst h
    rw [mget_mmod_self, Option.map_map]
    cases mget s.grids j <;> rfl
  · rw [mget_mmod_ne _ _ h]

/-- What such a step keeps. -/
theorem teamOnly_rest {s t : State} {n : Nat} {R : Team → Team → Prop} (h : teamOnly s t n R) :
    t.mem = s.mem ∧ t.frames = s.frames ∧ t.clusters = s.clusters ∧ t.blocks = s.blocks ∧ t.ctxs = s.ctxs ∧
    t.queues = s.queues ∧ t.lamport = s.lamport := by
  obtain ⟨x, G, rfl, _⟩ := h
  exact ⟨rfl, rfl, rfl, rfl, rfl, rfl, rfl⟩

/-! ### Capturing views (R174) -/

/-- The team but for the views that it has captured. -/
def Team.unviewed (x : Team) : Team := { x with seq := { x.seq with views := [] } }

theorem teamOnly_capture {c : Cx} {g b u : Nat} (hp : c.p = .team g b u) (s : State) (o : Operand) :
    teamOnly s (c.capture s o) (tKey g b u) (fun y z => z.unviewed = y.unviewed) := by
  have hr := teamOnly_mono (S := fun y z => z.unviewed = y.unviewed) (teamOnly_refl s (tKey g b u)) (fun y z h => by rw [h])
  unfold Cx.capture
  split
  · split
    · split
      · exact hr
      · rw [hp]
        exact teamOnly_mono (teamOnly_modSeq s g b u _) (fun y z h => by rw [h]; rfl)
    · exact hr
  · exact hr

theorem teamOnly_captureAll {c : Cx} {g b u : Nat} (hp : c.p = .team g b u) (s : State) (i : Instr) :
    teamOnly s (captureAll c i s) (tKey g b u) (fun y z => z.unviewed = y.unviewed) := by
  unfold captureAll
  split
  case isFalse => exact teamOnly_mono (teamOnly_refl s _) (fun y z h => by rw [h])
  generalize (fieldsOf i).srcs = l
  induction l generalizing s with
  | nil => exact teamOnly_mono (teamOnly_refl s _) (fun y z h => by rw [h])
  | cons o l ih =>
    rw [List.foldl_cons]
    exact teamOnly_mono (teamOnly_trans (teamOnly_capture hp s o) (ih _)) (fun y z ⟨w, h1, h2⟩ => h2.trans h1)

/-! ### The commit of a team's chain -/

/-- The context of a ready member of a team. -/
theorem ready_team {s : State} {g b u : Nat} {i : Instr} {c : Cx} (h : ready s (.team g b u) i = some c) :
    c.p = .team g b u ∧ c.g = g ∧ c.b = b ∧ c.t = u ∧ c.sc = .team ∧ c.pre = s ∧ atClose c = false ∧
      chainEnds c [i] = false ∧ s.grid g = some c.gr ∧ c.lanes = lanesOf c.tm.nlane c.act := by
  obtain ⟨c0, h0, _, _, _, hem, hc, hen, _⟩ := reach_cases (ready_reach h).1
  simp only [soleCx, mkCx, Option.bind_eq_some_iff, Option.map_eq_some_iff] at h0
  obtain ⟨gr, hgr, q, hq, hc0⟩ := h0
  have hp : c.p = .team g b u := by rw [hc, ← hc0]
  have hsc : c0.sc = .team := by rw [← hc0]; rfl
  have he : chainEnds c0 [i] = false := by unfold chainEnds; simp [hsc]
  have hpre0 : c0.pre = s := by rw [← hc0]
  unfold emitFirst at hem
  rw [he] at hem
  have hpre : c.pre = s := (Option.some.inj hem).symm
  simp only [passesEntry, Bool.and_eq_true, Bool.not_eq_true'] at hen
  refine ⟨hp, by rw [hc, ← hc0]; rfl, by rw [hc, ← hc0]; rfl, by rw [hc, ← hc0], by unfold Cx.sc; rw [hp]; rfl, hpre, of_decide_eq_true hen.2, ?_, ?_, ?_⟩
  · unfold chainEnds Cx.sc; rw [hp]; simp [Party.scope]
  · rw [hc, ← hc0]; exact hgr
  · rw [hc, ← hc0]

/-- A party that runs on is not stopped by a single step or a replay's end. -/
theorem stepStop_calm {s : State} {p : Party} (h : calm s p) : stepStop s p = s := by
  obtain ⟨q, gr, x, h1, h2, h3, h4, h5, h6⟩ := h
  unfold stepStop
  rw [h1]
  dsimp only
  have hb : backThere s p q = false := by
    unfold backThere
    rw [h4]
    simp only [Option.bind_some, h5, h6]
  rw [hb, h2, h3]
  simp

/-- A team runs on after a step that keeps its stop and its single step. -/
theorem calm_teamOnly {s t : State} {g b u : Nat} {R : Team → Team → Prop} (h : calm s (.team g b u))
    (ht : teamOnly s t (tKey g b u) R) (hR : ∀ y z, R y z → z.seq.stop = y.seq.stop ∧ z.seq.stepping = y.seq.stepping) :
    calm t (.team g b u) := by
  obtain ⟨q, gr, x, h1, h2, h3, h4, h5, h6⟩ := h
  obtain ⟨ts, G, rfl, _, k2, k3⟩ := ht
  simp only [State.seqOf, State.team, Option.map_eq_some_iff] at h1
  obtain ⟨y, hy, rfl⟩ := h1
  obtain ⟨z, hz, hr⟩ := k2 y hy
  have hg : ∃ w, mget G g = some w ∧ w.uncounted = gr.uncounted := by
    have := k3 g
    rw [show mget s.grids g = some gr from h4] at this
    cases hG : mget G g with
    | none => rw [hG] at this; simp at this
    | some w => rw [hG] at this; exact ⟨w, rfl, Option.some.inj this⟩
  obtain ⟨w, hw, hw2⟩ := hg
  have hctx : w.ctx = gr.ctx := by have := congrArg Grid.ctx hw2; exact this
  refine ⟨z.seq, w, x, ?_, ?_, ?_, hw, ?_, h6⟩
  · show (mget ts (tKey g b u)).map _ = _
    rw [hz]; rfl
  · rw [(hR _ _ hr).1, h2]
  · rw [(hR _ _ hr).2, h3]
  · rw [hctx]; exact h5

/-- What the position of a team becomes at a commit (R52, R70). -/
def teamMoved (c : Cx) (a : ChainAcc) (y z : Team) : Prop :=
  z = (let x : Team := { y with seq := { y.seq with
        chains := y.seq.chains + 1, passBrk := if y.seq.passBrk = some c.pc then none else y.seq.passBrk
        wait := none, alone := none, began := none } }
    let rest := x.groups.filter fun (g : W32 × Mask) => decide (g.1 ≠ c.pc)
    let leaves := a.gone.isSome && rest.isEmpty
    let groups := if leaves then x.groups
      else if a.gone.isSome then rest
      else match a.split with
        | some (taken, pc) => addGroup (addGroup rest (pc, c.act &&& taken)) (nextPc c.pkt c.last, c.act &&& ~~~taken)
        | none => addGroup rest (a.jump.getD (nextPc c.pkt c.last), c.act)
    { x with
      groups := groups
      mergeAt := match x.mergeAt with
        | some m => if decide (m = c.pc) || groups.length ≤ 1 then none else some m
        | none => none
      awaiting := none
      resume := none
      exiting := leaves
      seq := if leaves then { x.seq with alone := a.gone, wait := some .exit } else x.seq })

/-- A chain of a team that neither traps, marks nor waits on commits: the team moves on, counters rise. -/
theorem commit_team {s : State} {g b u : Nat} {i : Instr} {c : Cx} (h : ready s (.team g b u) i = some c)
    (ms run : List (Member × Body)) (e n : Bool) {a : ChainAcc} (hc : calm a.s (.team g b u)) (ht : a.trap = none) (hm : a.mark = none) (hl : a.later = none) :
    teamOnly a.s (commit c ms run e n a) (tKey g b u) (teamMoved c a) := by
  obtain ⟨hp, hg, hb, hu, hsc, hpre, hcl, _⟩ := ready_team h
  have hbad : closeBad c a ms = none := by
    unfold closeBad
    rw [hcl]
    split <;> rfl
  have hcomp : completes c a = false := by unfold completes; rw [hcl]; rfl
  have key : ∃ w, (stepStop w c.p = commit c ms run e n a ∨ w = commit c ms run e n a) ∧
      teamOnly a.s w (tKey g b u) (teamMoved c a) := by
    refine ⟨moveTeam c a (nextPc c.pkt c.last) false (((a.s.modSeq c.p fun q => { q with
      chains := q.chains + 1, passBrk := if q.passBrk = some c.pc then none else q.passBrk
      wait := none, alone := none, began := none }).count c.g c.core 0x10 1).count c.g c.core 0x11
        (passes c ((mineOf c run).map (·.1.ins)))), ?_, ?_⟩
    · unfold commit
      simp only [hbad, hcomp, hsc, ht, hm, hl, if_true, Bool.false_or, Bool.false_eq_true, if_false]
      split
      · exact .inr rfl
      · exact .inl rfl
    · rw [hp]
      have h1 := teamOnly_modSeq a.s g b u fun q => { q with
        chains := q.chains + 1, passBrk := if q.passBrk = some c.pc then none else q.passBrk
        wait := none, alone := none, began := none }
      have h2 := teamOnly_trans h1 (teamOnly_count _ c.g c.core 0x10 1 (tKey g b u))
      have h3 := teamOnly_trans h2 (teamOnly_count _ c.g c.core 0x11 (passes c ((mineOf c run).map (·.1.ins))) (tKey g b u))
      unfold moveTeam Cx.onTeam
      rw [hg] at h3 ⊢
      rw [hb, hu]
      refine teamOnly_mono (teamOnly_trans h3 (teamOnly_modTeam _ g b u _)) ?_
      rintro y z ⟨w3, ⟨w2, ⟨w1, h1, h2⟩, h3⟩, h4⟩
      subst h1 h2 h3 h4
      unfold teamMoved
      simp only [Bool.false_and, Bool.false_eq_true, if_false] <;> rfl
  obtain ⟨w, hw1, hw2⟩ := key
  have hcw : calm w (.team g b u) := calm_teamOnly hc hw2 (by
    intro y z hz
    unfold teamMoved at hz
    rw [hz]
    dsimp only
    split <;> exact ⟨rfl, rfl⟩)
  rw [hp, stepStop_calm hcw, or_self] at hw1
  rw [← hw1]
  exact hw2

/-- A member that writes its team only, and then commits, writes its team only; its registers are as it left them (R52, R174). -/
theorem teamOnly_finish {s st : State} {g b u : Nat} {i : Instr} {c : Cx} {R : Team → Team → Prop}
    (h : ready s (.team g b u) i = some c) (hc : calm s (.team g b u)) (ht : teamOnly s st (tKey g b u) R)
    (hR : ∀ y z, R y z → z.seq.stop = y.seq.stop ∧ z.seq.stepping = y.seq.stepping) :
    teamOnly s (finish1 c i (.ok st)) (tKey g b u) fun y z =>
      ∃ w, R y w ∧ z.v = w.v ∧ z.s = w.s ∧ z.p = w.p ∧ z.fpc = w.fpc := by
  have h1 := teamOnly_trans ht (teamOnly_captureAll (ready_team h).1 st i)
  have h2 := calm_teamOnly hc h1 (by
    rintro y z ⟨w, hw, hz⟩
    have e1 : z.unviewed.seq.stop = w.unviewed.seq.stop := by rw [hz]
    have e2 : z.unviewed.seq.stepping = w.unviewed.seq.stepping := by rw [hz]
    exact ⟨e1.trans (hR _ _ hw).1, e2.trans (hR _ _ hw).2⟩)
  have h3 := commit_team h (soleOf c i) (soleOf c i) (chainEnds c [i]) (chainNarrow c [i])
    (a := accS (captureAll c i st)) h2 rfl rfl rfl
  have h4 := teamOnly_trans h1 h3
  refine teamOnly_mono h4 ?_
  rintro y z ⟨w, ⟨v, hv, hw⟩, hz⟩
  have e1 : w.unviewed.v = v.unviewed.v := by rw [hw]
  have e2 : w.unviewed.s = v.unviewed.s := by rw [hw]
  have e3 : w.unviewed.p = v.unviewed.p := by rw [hw]
  have e4 : w.unviewed.fpc = v.unviewed.fpc := by rw [hw]
  unfold teamMoved at hz
  subst hz
  exact ⟨v, hv, e1, e2, e3, e4⟩

end Sys2Proof.Machine
end

