-- ==== Sys2Proof/Tests/Slice0.lean ====
section
/-! SUPPORT. Tests: ill-formed instructions that WellFormed refuses, words of the spec's encodings that decode to the
instruction they stand for, single results that the spec works out, and for the statements about the machine a small state
and operands that meet their hypotheses. -/

namespace Sys2Proof.Tests

-- One test after the other: side by side each evaluation would hold a thread of its own while it waits for the kernel.
set_option Elab.async false

open Sys2Proof.Machine

abbrev v (n : Nat) : Operand := .v (BitVec.ofNat 7 n)
abbrev r (n : Nat) : Operand := .s (BitVec.ofNat 5 n)
abbrev pt : PredSel := .p 47

/-- One block of one team of 32 lanes, the turn with the party of a scope at the first slot of packet 0. -/
def spot (sc : Scope) : State := placeMember State.reset sc [0, 0, 0]

/-- The party executes the member there, and what its meaning is given meets a condition. -/
def can (i : Instr) (w : Cx → Bool := fun _ => true) (f : State → State := id) (sc : Scope := scopeOf i) : Bool :=
  (ready (f (spot sc)) (placeParty sc) i).any w

/-- The party comes to the member there, whose own check refuses it with a class. -/
def refuses (i : Instr) (cls : Nat) (w : Cx → Bool := fun _ => true) (f : State → State := id) (sc : Scope := scopeOf i) : Bool :=
  (reachWhere false (f (spot sc)) (placeParty sc) i).any fun c => w c && decide (ownCheck c i = some cls)

/-- Every contribution is published where the member's answer stands. -/
def pubOk (c : Cx) (i : Instr) (x : MRes) : Bool := (accOf c i x).all fun a =>
  !(unpublished (publishAll a.s c.p c.ctx c.engine c.g c.b c.k) c.p c.g c.b c.k)

/-- The team executes the member as the close chain of its token, with an answer of its meaning. -/
def canClose (i : Instr) (w : Cx → Bool) (x : Cx → MRes) (f : State → State := id) : Bool :=
  (closing ((f (spot .team)).modTeam 0 0 0 fun t => { t with seq := { t.seq with tok := some { Token.zero with close := 0 } } })
    (placeParty .team) i).any fun c => w c && pubOk c i (x c)

/-- The team with some of it changed. -/
def onTeam (f : Team → Team) (s : State) : State := s.modTeam 0 0 0 f
def onCtx (f : Ctx → Ctx) (s : State) : State := s.modCtx 0 f
/-- Registers s n of the team. -/
def withS (l : List (Nat × W64)) : State → State := onTeam fun t => l.foldl (fun t e => t.setS e.1 e.2) t
/-- Register v n of a lane. -/
def withV (l : List (Nat × Nat × W32)) : State → State := onTeam fun t => l.foldl (fun t e => t.setV e.1 e.2.1 e.2.2) t
/-- A predicate of lanes. -/
def withP (n : Nat) (m : Mask) : State → State := onTeam fun t => { t with p := zset t.p n m }
/-- A result passes. -/
def okay : MRes → Bool
  | .ok _ => true
  | _ => false
def takesB (c : Cx) (d : Operand) (x : W64) : Bool := okay (c.scalarWrite c.pre d x)

/-! ### Statements 1 to 4, 5, 8: members that execute without further conditions -/

theorem test_ready_integer : [Instr.iadd (v 3) (v 1) (v 2), .isub (v 3) (v 1) (r 2), .imul (v 3) (v 1) (v 2), .imulhs (v 3) (v 1) (v 2),
    .imulhu (v 3) (v 1) (v 2), .imin (v 3) (v 1) (v 2), .imax (v 3) (v 1) (v 2), .umin (v 3) (v 1) (v 2), .umax (v 3) (v 1) (v 2),
    .iadds (v 3) (v 1) (v 2), .and (v 3) (v 1) (v 2), .or (v 3) (v 1) (v 2), .xor (v 3) (v 1) (v 2), .shl (v 3) (v 1) (v 2),
    .shr (v 3) (v 1) (v 2), .sar .vz (v 1) (v 127)].all can = true := by decide +kernel

theorem test_ready_integer_other : ([Instr.iabs (v 3) (v 1), .popc (v 3) (v 1), .clz (v 3) (v 1), .mov (v 3) .lane, .imad (v 4) (v 1) (v 2) (v 3) 0,
    .imad (v 126) (v 1) (v 2) (v 6) 1, .imad (v 4) (v 1) (v 2) .vz 2, .bfx (v 5) (v 1) (v 0) true 31 true 31, .bfx (v 5) (v 1) (v 2) false 0 false 0,
    .bfi (v 5) (v 1) (v 0) true 28 3, .sel (v 6) (v 1) (v 2) (.p 47), .movil (v 4) 0x8000, .movih (v 4) 0xFFFF] : List Instr).all can = true := by
  decide +kernel

theorem test_ready_compares : [Instr.icmp (.p 47) 3 (v 1) (v 2), .ucmp (.p 0) 2 (v 1) .vz, .icmp (.q 15) 2 (r 1) (r 2), .ucmp (.q 0) 1 (r 1) (r 2),
    .scmp (.q 3) 0 (r 1) (r 2), .plog 3 (.p 1) 0 (.p 2) (.p 46), .plog 0 (.p 1) 0 (.p 2) (.q 1), .plog 1 (.p 1) 3 (.q 2) (.p 3),
    .plog 2 (.p 1) 1 (.q 2) (.q 15)].all can = true := by decide +kernel

theorem test_ready_float : [Instr.fadd (v 3) (v 1) (v 2), .fsub (v 3) (v 1) (v 2), .fmul (v 3) (v 1) (v 2), .ffma (v 3) (v 1) (v 2) (v 4) true true,
    .fmin (v 3) (v 1) (v 2), .fmax (v 3) (v 1) (v 2), .fcmp (.p 47) 3 (v 1) (v 2), .frcp (v 3) (v 1), .frsq (v 3) (v 1), .fsqrt (v 3) (v 1),
    .fex2 (v 3) (v 1), .flg2 (v 3) (v 1), .hadd2 (v 3) (v 1) (v 2), .hmul2 (v 3) (v 1) (v 2), .hfma2 (v 3) (v 1) (v 2) (v 4) false true,
    .cvt (v 3) (v 1) 6 0, .frnd (v 3) (v 1) 4, .fscl (v 3) (v 1) (v 2), .fcls (v 3) (v 1) 4].all can = true := by decide +kernel

/-- Format slots of the grid. -/
def withFmt (l : List (BitVec 128)) (s : State) : State := s.modGrid 0 fun g => { g with lrec := { g.lrec with fmts := l } }

/-- CVTQ at the last element of its word, at a slot that is not quantized, past the last element, at an odd element of a pair. -/
theorem test_ready_cvtq : can (.cvtq (v 3) (v 1) (v 2) 0 0 3) (fun c => fmtType (fmtSlot c.gr 0) = 5) (withFmt [5]) = true ∧
    refuses (.cvtq (v 3) (v 1) (v 2) 7 0 0) 0x22 (fun c => fmtType (fmtSlot c.gr 7) ≠ 5 ∧ fmtType (fmtSlot c.gr 7) ≠ 6) = true ∧
    refuses (.cvtq (v 3) (v 1) (v 2) 0 0 4) 0x02 (fun c => fmtType (fmtSlot c.gr 0) = 5) (withFmt [5]) = true ∧
    refuses (.cvtq (v 3) (v 1) (v 2) 0 1 1) 0x02 (fun c => fmtType (fmtSlot c.gr 0) = 5) (withFmt [5]) = true ∧
    refuses (.cvtq (v 3) (r 1) (v 2) 0 0 0) 0x02 (fun c => fmtType (fmtSlot c.gr 0) = 5) (withFmt [5]) = true := by
  decide +kernel

theorem test_ready_crossing : can (.pfxc (v 3) (v 1) 0 (.p 2)) = true ∧ can (.pfxc (v 3) (v 1) 1 (.p 47)) = true ∧
    can (.shfl (v 3) (.v 1) .lane) (fun c => c.lanes.all fun l => !busyV c.tm 1 (c.shflFrom .lane l) &&
      (mget c.tm.vtag (vKey 1 (c.shflFrom .lane l))).isNone) = true ∧
    [(.vz, 0), (v 0, 1), (v 0, 2)].all (fun (e : Operand × BitVec 8) => can (.actm (r 31) e.1 e.2) fun c => takesB c (r 31) 0) = true := by decide +kernel

theorem test_ready_team_lifts : [Instr.vote (r 5) (v 0) 0 (.p 3), .vote (r 5) (v 0) 1 (.p 3), .vote (r 5) .vz 2 (.p 3), .vote (r 5) (v 0) 3 (.p 3),
    .rdfirst (r 5) (v 1), .rdlane (r 5) (v 1) (r 0), .reduce (r 5) (v 1) 11].all (fun i => can i fun c =>
      c.sc = .team ∧ dstScope (r 5) [] = .team ∧ takesB c (r 5) 1 ∧ c.lanes.head? = some 0 ∧ c.srcV 1 [0] = .ready) = true ∧
    can (.rdlane (r 5) (v 1) (r 0)) (fun c => (c.rdS (r 0)).toNat = 31 ∧ 31 < c.tm.nlane) (withS [(0, 31)]) = true := by decide +kernel

/-- A wider lift: the owner, and then a team that reaches the lift. -/
theorem test_ready_wide_lifts : [Instr.vote (.b 2) (v 0) 0 pt, .vote (.b 2) (v 0) 1 pt, .vote (.c 3) (v 0) 3 pt, .rdfirst (.g 1) (v 1),
      .reduce (.b 7) (v 1) 0].all (fun i => can i fun c => c.sc ≠ .team ∧ (fieldsOf i).dsts.all fun d => (c.slotFor d).isSome) = true ∧
    canClose (.reduce (.b 7) (v 1) 0) (fun c => c.sc = .team ∧ dstScope (.b 7) [] ≠ .team ∧
      (contribute c.pre (ownerAt c.g c.b c.k .block) (.reduce (.b 7) (v 1) 0) ⟨c.b, c.t,
        fold1 (redStep 0) (c.lanes.map fun l => redExt 0 (c.rdL (v 1) l))⟩).isSome)
      (fun c => .ok ((contribute c.pre (ownerAt c.g c.b c.k .block) (.reduce (.b 7) (v 1) 0) ⟨c.b, c.t,
        fold1 (redStep 0) (c.lanes.map fun l => redExt 0 (c.rdL (v 1) l))⟩).getD c.pre))
      (fun s => s.modLvl (.block 0 0) fun x => { x with lifts := [⟨7, 1, .reduce (.b 7) (v 1) 0, 0, []⟩] }) = true := by
  decide +kernel

theorem test_ready_scalar : [Instr.sadd (r 3) (r 1) (r 2), .ssub (r 3) (r 1) (r 2), .smul (r 3) (r 1) (r 2), .sand (r 3) (r 1) (r 2),
    .sor (r 3) (r 1) (r 2), .sxor (r 3) (r 1) (r 2), .sshl (r 3) (r 1) (r 2), .sshr (r 3) (r 1) (r 2), .smov (r 3) .nlane, .smovi (r 3) 0x8000,
    .smovx (r 3) .vz 2 0xFFFF].all (fun i => can i fun c => takesB c (r 3) 0) = true := by decide +kernel

/-- A scalar result: to an s register, to a version, where no version is free, to a frame slot of the grid's own level-0 frame. -/
theorem test_scalar_writes : can .nop (fun c => (c.pre.team c.g c.b c.t).isSome) id .team = true ∧
    can (.smovi (.b 7) 1) (fun c => (c.slotFor (.b 7)) = some 1) = true ∧
    can .nop (fun c => c.slotFor (.b 7) = none) (fun s => s.modLvl (.block 0 0) fun x => { x with
      vregs := x.vregs.map fun _ => ⟨[none, none, none, none], 0⟩ }) .block = true ∧
    can .nop (fun c => c.slotBad 0 15) id .team = true := by decide +kernel

/-- The team stands at packet n. -/
def atPkt (n : Nat) : State → State := onTeam fun t => { t with groups := [(mkPc n 0, fullMask 32)] }
def goes (c : Cx) (d : Int) (k : Nat) : Bool := decide ((c.pkt : Int) + d = k ∧ k < 2 ^ 30)
def gone (c : Cx) (d : Int) : Bool := decide ((c.pkt : Int) + d < 0 ∨ 2 ^ 30 ≤ (c.pkt : Int) + d)

/-- Branches on a scope predicate: taken to the last packet, not taken, and past each end. -/
theorem test_branch_scope : can (.bt .team (.q 15) 5) (fun c => c.rdQ .team 15 && goes c 5 (2 ^ 30 - 1)) (fun s =>
      (atPkt (2 ^ 30 - 6) s).modSeq (placeParty .team) fun q => { q with q := 0x8000 }) = true ∧
    can (.bf .team (.q 0) 0) (fun c => !(c.rdQ .team 0) && goes c 0 0) = true ∧
    can (.bt .block (.q 0) 0) (fun c => !(c.rdQ .block 0)) = true ∧
    can (.bf .grid (.q 0) (-1)) (fun c => !(c.rdQ .grid 0) && gone c (-1)) = true ∧
    can (.bf .team (.q 0) 1) (fun c => gone c 1) (atPkt (2 ^ 30 - 1)) = true := by decide +kernel

/-- Lane branches: no lane, some lanes, 32 and 33 groups; a whole team that agrees, and one that does not. -/
theorem test_branch_lanes : can (.bt .lane (.p 0) 1) (fun c => lanesWith c 0 true = []) = true ∧
    can (.bt .lane (.p 0) 1) (fun c => lanesWith c 0 true = [31] ∧ goes c 1 1 ∧ (groupsAfter c [31] (mkPc 1 0)).length = 2) (withP 0 0x80000000) = true ∧
    can (.bf .lane (.p 0) (-1)) (fun c => lanesWith c 0 false ≠ [] ∧ gone c (-1)) = true ∧
    can (.bt .lane (.p 0) 1) (fun c => lanesWith c 0 true = [31] ∧ (groupsAfter c [31] (mkPc 1 0)).length = 33) (fun s =>
      withP 0 0x80000000 (onTeam (fun t => { t with groups := (0, fullMask 32) :: (List.range 31).map fun k => (mkPc (10 + k) 0, fullMask 32) }) s))
      = true ∧
    can (.bt .team pt 1) (fun c => c.lanes ≠ [] ∧ lanesWith c 47 true = c.lanes ∧ goes c 1 1) = true ∧
    can (.bt .team (.p 0) 1) (fun c => lanesWith c 0 false = c.lanes) = true ∧
    can (.bf .team (.p 0) 1) (fun c => (c.lanes.take 2 = [0, 1] ∧ c.tm.pred 0 0 = false ∧ c.tm.pred 0 1 = true)) (withP 0 2) = true := by
  decide +kernel

/-- A rendezvous: a team arrives, its owner waits, and decides each way. -/
theorem test_branch_rendezvous : canClose (.bt .block (.p 0) 1) (fun c => c.sc = .team)
      (fun c => .ok (c.pre.modLvl (ownerAt c.g c.b c.k .block) fun x => { x with arr := x.arr ++ [⟨c.b, c.t, c.lanes.map fun l => (l, true)⟩] })) = true ∧
    can (.bt .block (.p 0) 1) (fun c => c.sc ≠ .team ∧ !((((c.pre.lvlOf c.p).map (·.arr)).getD []).any fun a => decide (a.blk = 0 ∧ a.team = 0)) ∧
      liveTeams c.pre c.g .block (instNo c.p) = [(0, 0)]) = true ∧
    [true, false].all (fun sense => can (branchOf sense .block pt 1) (fun c => c.sc ≠ .team ∧ placed c.gr .block ∧
      (liveTeams c.pre c.g .block (instNo c.p)).all (fun e => (c.pre.team c.g e.1 e.2).isSome && (((c.pre.lvlOf c.p).map (·.arr)).getD []).any fun a =>
        decide (a.blk = e.1 ∧ a.team = e.2)) ∧ contributed c .block ≠ [] ∧ (contributed c .block).all (·.2) ∧ goes c 1 1)
      (fun s => (onTeam (fun t => { t with awaiting := some 0 }) s).modLvl (.block 0 0) fun x => { x with arr := [⟨0, 0, [(0, true)]⟩] })) = true := by
  decide +kernel

/-- The loop and call stacks of a team: empty, one below full, full; counts at and past 32 bits. -/
theorem test_transfers : can (.jmp .team 1) (fun c => goes c 1 1) = true ∧ can (.jmp .lane (-1)) (fun c => gone c (-1)) = true ∧
    can (.loop .team (r 1) 1) (fun c => c.rdS (r 1) = 0 ∧ goes c 1 1) = true ∧
    can (.loop .team (r 1) 1) (fun c => c.rdS (r 1) ≠ 0 ∧ (c.rdS (r 1)).toNat < 2 ^ 32 ∧ c.seq.loops.length = 7) (fun s =>
      withS [(1, 0xFFFFFFFF)] (s.modSeq (placeParty .team) fun q => { q with loops := List.replicate 7 ⟨0, 1⟩ })) = true ∧
    can (.loop .team (r 1) 1) (fun c => c.rdS (r 1) ≠ 0 ∧ (c.rdS (r 1)).toNat < 2 ^ 32 ∧ c.seq.loops.length = 8) (fun s =>
      withS [(1, 1)] (s.modSeq (placeParty .team) fun q => { q with loops := List.replicate 8 ⟨0, 1⟩ })) = true ∧
    can (.loop .team (r 1) 1) (fun c => 2 ^ 32 ≤ (c.rdS (r 1)).toNat) (withS [(1, 0x100000000)]) = true ∧
    [((0 : W32), true), (1, false)].all (fun e => can (.endl .team 0) (fun c => c.seq.loops = [⟨e.1, 2⟩] ∧
      decide ((e.1 + 1).toNat < 2) = e.2 ∧ goes c 0 0) fun s => s.modSeq (placeParty .team) fun q => { q with loops := [⟨e.1, 2⟩] }) = true ∧
    can (.endl .team 0) (fun c => c.seq.loops = []) = true ∧
    can (.call .team 1) (fun c => c.seq.calls.length + 1 = callDepth .team ∧ goes c 1 1) (fun s =>
      s.modSeq (placeParty .team) fun q => { q with calls := List.replicate 15 ⟨0, none, 0, []⟩ }) = true ∧
    [Instr.call .team 1, .callFrame .team 1 1].all (fun i => can i (fun c => callDepth .team ≤ c.seq.calls.length) fun s =>
      s.modSeq (placeParty .team) fun q => { q with calls := List.replicate 16 ⟨0, none, 0, []⟩ }) = true ∧
    can (.ret .team) (fun c => c.seq.calls = [⟨3, none, 0, []⟩] ∧ c.tok.close ≠ c.pre.pcOf c.p) (fun s =>
      s.modSeq (placeParty .team) fun q => { q with calls := [⟨3, none, 0, []⟩] }) = true ∧
    can (.ret .team) (fun c => c.seq.calls = []) = true := by decide +kernel

/-- A team's own frame at cell 1, level 1, as a CALL opens it. -/
def withFrame (f : Frame → Frame) (s : State) : State :=
  let s := { s with frames := mset s.frames (fKey 0 0 0 1) (f (Frame.fresh 1 1 (mkHandle 2 0) .team 0)) }
  s.modSeq (placeParty .team) fun q => { q with
    disp := [none, some (mkHandle 0 1), some noFrame, some noFrame]
    calls := [⟨3, some (mkHandle 0 1), 1, [some noFrame, some noFrame, some noFrame]⟩] }

def retires : FrameRet → Bool
  | .retired _ => true
  | _ => false

/-- Frames: a CALL with a cell and without one, RET of a frame without users, FRDEF, FRFENCE of an owner and of a reader. -/
theorem test_frames : can (.callFrame .team 1 1) (fun c => c.seq.calls.length < callDepth .team ∧ c.lex 0 ≠ noFrame ∧ c.freeCell.isSome ∧
      goes c 1 1) = true ∧
    can (.callFrame .grid 1 1) (fun c => c.seq.calls.length < callDepth .grid ∧ c.lex 0 ≠ noFrame ∧ c.freeCell = none) (fun s =>
      { s with frames := (List.range 1024).map fun k => (fKey 0 2 0 k, Frame.level0 0 []) }) = true ∧
    can (.ret .team) (fun c => (c.seq.calls.head?.bind (·.frame)) = some (mkHandle 0 1) ∧ c.tok.close ≠ c.pre.pcOf c.p ∧
      !(c.slotsQueued (mkHandle 0 1)) ∧ retires (returnFrame c c.pre (mkHandle 0 1)) ∧ c.seq.pend = [] ∧ c.pre.undoOn c.ctx = false ∧
      ((mget c.pre.frames (c.frameKey (mkHandle 0 1))).any fun f => decide (f.refcount = 0 ∧ f.oscope = .team)) = true) (withFrame id) = true ∧
    can (.frdef .team 1 0 0x80 0xC00000) (fun c => (c.frameAt 1).any fun e => ownsFrame c.p e.2 ∧ !e.2.sealed ∧ e.2.refcount = 0) (withFrame id)
      = true ∧
    can (.frdef .team 1 0 0 0) (fun c => (c.frameAt 1).any fun e => e.2.refcount ≠ 0) (withFrame fun f => { f with refcount := 1 }) = true ∧
    can (.frfence .team 1) (fun c => (c.frameAt 1).any fun e => ownsFrame c.p e.2) (withFrame id) = true ∧
    can (.frfence .team 0) (fun c => ((c.frameAt 0).any fun e => !ownsFrame c.p e.2) && c.seq.pend.isEmpty) = true := by decide +kernel

def aStore : StoreEnt := ⟨.store, 0xFF00000000000000, 9, scrKey 0 0 0, [1, 2, 3, 4], .team, [0xFF00000000000000], 0, []⟩
/-- A load to s3 from a tier. -/
def loadOf (tier : Nat) (va : W64) : LoadEnt := ⟨true, false, 1, [⟨3, memKey tier 0, va, 4⟩], [], 0⟩
abbrev aLoad : LoadEnt := loadOf 2 0

theorem test_quiet : [Instr.nop, .pref 0 (v 1) .w true, .prefExt 0 .vz .w false MemExt.plain, .exit, .rcfence].all can = true ∧
    [0, 1, 2, 3].all (fun k => can (.fence k .device) fun c => c.tm.loads.isEmpty ∧ c.tm.storeQ.isEmpty) = true ∧
    can (.fence 2 .system) (fun c => !c.tm.loads.isEmpty) (onTeam fun t => { t with loads := [aLoad] }) = true ∧
    can (.fence 1 .device) (fun c => !c.tm.loads.isEmpty) (onTeam fun t => { t with loads := [aLoad] }) = true ∧
    can (.fence 0 .device) (fun c => !c.tm.storeQ.isEmpty) (onTeam fun t => { t with storeQ := [aStore] }) = true ∧
    can (.trap 0xFF) = true ∧ can (.brk 0) = true := by decide +kernel

theorem test_control_registers : [0x001, 0x002, 0x010, 0x011, 0x012, 0x013, 0x014, 0x015, 0x020, 0x021, 0x022, 0x023].all (fun n =>
      can (.csrr (r 3) n) fun c => takesB c (r 3) 0 ∧ (mget c.pre.ctxs c.ctx).isSome) = true ∧
    can (.csrr (r 3) 0x000) = true ∧ can (.csrr (r 3) 0x024) = true ∧
    can (.csrw (r 2) 1) (fun c => ((c.rdS (r 2)).setWidth 32 : W32).toNat = 2 ^ 9 - 1) (withS [(2, 0x1FF)]) = true ∧
    can (.csrw (r 2) 1) (fun c => ((c.rdS (r 2)).setWidth 32 : W32).toNat = 2 ^ 9) (withS [(2, 0x200)]) = true ∧
    can (.csrw (r 2) 2) = true := by decide +kernel

theorem test_clocks : [0, 1].all (fun k => can (.clkr (r 3) k) fun c => !c.pre.recordOn c.ctx ∧ takesB c (r 3) 0) = true ∧
    [0, 15, 16, 0x18].all (fun n => can (.pcnt (r 3) n) fun c => (c.pre.block c.g c.b).isSome ∧ !c.pre.recordOn c.ctx ∧ takesB c (r 3) 0) = true ∧
    can (.pcnt (r 3) 0x19) = true ∧ can (.mark (r 3) 0xFFFF) = true := by decide +kernel

/-- The block with barrier k. -/
def withBar (k : Nat) (x : Barrier) (s : State) : State := s.modBlock 0 0 fun b => { b with bars := mset b.bars k x }

theorem test_barriers : [Instr.barArr 7 1, .bar 7 1, .barArr 0 16].all (fun i => can i fun c => c.seq.began = none ∧ c.drained ∧
      (c.pre.block c.g c.b).any fun x => (barOf x 7).arrived = [] ∧ c.gr.lrec.nbar = 8) = true ∧
    can (.bar 7 1) (fun c => (c.pre.block c.g c.b).any fun x => phaseMoved c x 7 (barJoined c 7 1)) = true ∧
    can (.bar 7 2) (fun c => (c.pre.block c.g c.b).any fun x => !phaseMoved c x 7 (barJoined c 7 2)) = true ∧
    [(0 : Nat), 1].all (fun n => can (.bar 7 2) (fun c => c.seq.began = some (.bar 7 0 0) ∧ (c.pre.block c.g c.b).any fun x => (barOf x 7).phase = n)
      (fun s => withBar 7 ⟨n, 0, []⟩ (s.modSeq (placeParty .team) fun q => { q with began := some (.bar 7 0 0) }))) = true ∧
    can (.bar 8 0) (fun c => c.gr.lrec.nbar ≤ 8) = true ∧
    can (.bar 7 2) (fun c => (c.pre.block c.g c.b).any fun x => (barOf x 7).arrived ≠ [] ∧ (barOf x 7).count = 3) (withBar 7 ⟨0, 3, [5]⟩) = true ∧
    can (.barArr 7 3) (fun c => (c.pre.block c.g c.b).any fun x => (barOf x 7).count = 3 ∧ c.t ∈ (barOf x 7).arrived) (withBar 7 ⟨0, 3, [0]⟩)
      = true ∧
    can (.bar 7 0) (fun c => c.tm.detached ∧ (c.pre.block c.g c.b).any fun x => (barOf x 7).arrived = []) (onTeam fun t => { t with detached := true })
      = true ∧
    ((withBar 7 ⟨9, 0, [0]⟩ (spot .team)).block 0 0).any (fun x => (barOf x 7).arrived ≠ [] ∧
      (launchedOf (withBar 7 ⟨9, 0, [0]⟩ (spot .team)) 0 0).all fun t => t ∈ (barOf x 7).arrived) = true := by decide +kernel

/-- PUSHM that fits to the last byte, with and without a record, and one that is too long; POPM of what was pushed, of a
poisoned byte and of more. -/
theorem test_spill : [true, false].all (fun rec => can (.pushm (v 8) 15) (fun c => c.tm.hsp + stkSize true 16 32 = 64 * c.tm.nlane ∧
      c.pre.recordOn c.ctx = rec) (onCtx fun x => { x with record := rec, arb := if rec then some ⟨0x50000, 24, 0, [], []⟩ else none })) = true ∧
    can (.pushm (v 8) 16) (fun c => 64 * c.tm.nlane < c.tm.hsp + stkSize true 17 32) = true ∧
    can (.popm (r 4) 2) (fun c => stkSize false 3 32 = c.tm.hsp ∧ c.spillBad 0 128 = false) (onTeam fun t => { t with hsp := 128 }) = true ∧
    can (.popm (v 8) 0) (fun c => stkSize true 1 32 = c.tm.hsp ∧ c.spillBad 0 128 = false) (onTeam fun t => { t with hsp := 128 }) = true ∧
    can (.popm (v 8) 0) (fun c => c.spillBad 0 128) (fun s => { onTeam (fun t => { t with hsp := 128 }) s with
      poison := [(spillKey 0 0 0 0 + 127) / 64] }) = true ∧
    can (.popm (r 4) 2) (fun c => c.tm.hsp = 0 ∧ 0 < stkSize false 3 32) = true := by decide +kernel

abbrev scr : W64 := 0xFF00000000000000
abbrev csm : W64 := 0xFF10000000000000
def passB : AccRes → Bool
  | .ok _ _ _ => true
  | _ => false
/-- The registers hold addresses; the grid has CSM lines. -/
def withCsm (s : State) : State := s.modGrid 0 fun g => { g with lrec := { g.lrec with csm := 1 } }
def marked (s : State) : State := onCtx (fun x => { x with undo := true, ulog := some ⟨0x10000, 16, false, 4, 0x30000, 0, 0, 0, 0, 0, 0, 0, 0, [], []⟩ }) s

theorem test_waits : can (.waitf 0x800) (fun c => (List.range 12).all fun j => (c.tm.flags[j]?.getD ⟨0, []⟩) = (⟨0, []⟩ : CFlag)) = true ∧
    can (.waitf 0x800) (fun c => (c.tm.flags[11]?.map (·.count)) = some 1) (onTeam fun t => { t with flags := t.flags.set 11 { count := 1, faults := [] } }) = true ∧
    [((0 : W64), true), (1, false)].all (fun e => can (.waitm (r 1) 0 .vz .d false MemExt.plain 0) (fun c =>
      match checkAccess c.pre c.origin .load 8 (c.rdS (r 0)) 8 with
      | .ok segs tier _ => c.room 1 && !c.loadWaits [teamAcc (c.rdS (r 0)) segs tier] && !c.laneBad (teamAcc (c.rdS (r 0)) segs tier) &&
          (waitCond 0 8 (bytesNat (fwdBytes c.pre.mem c.tm.storeQ segs)) (c.rdS (r 1)).toNat == e.2)
      | _ => false) (withS [(0, scr), (1, e.1)])) = true ∧
    can (.swi (r 2) 3) (fun c => 3 < vecCount c.fn ∧ c.drained ∧ (irreversible c.pre c.g c.ctx c.engine 5 3 (natBytes 8 0)).isSome) = true ∧
    can (.swi (r 2) 2047) (fun c => vecCount c.fn ≤ 2047) = true := by decide +kernel

def inRight {α β : Type} : Sum α β → Bool
  | .inr _ => true
  | _ => false
theorem test_wmark : can (.wmark .team 1) (fun c => !c.pre.undoOn c.ctx && inRight (hashCheck c.pre c.ctx c.g c.b c.t)) = true ∧
    can (.wmark .block 1) (fun c => !c.pre.undoOn c.ctx ∧ c.sc ≠ .team) = true ∧
    can (.wmark .block 1) (fun c => c.pre.undoOn c.ctx ∧ c.sc ≠ .team ∧ canOpen c.pre c.ctx .block) marked = true ∧
    can (.wmark .team 1) (fun c => c.pre.undoOn c.ctx ∧ c.tm.storeQ.isEmpty ∧ canOpen c.pre c.ctx .team ∧
      inRight (hashCheck c.pre c.ctx c.g c.b c.t)) marked = true := by decide +kernel

/-- LAUNCH of a record in the scratchpad with parameters and a signal word; the same judged; at depth 10. -/
theorem test_launch_member : [((0 : W64), (0 : W64)), (scr + 384, scr + 512)].all (fun e => can (.launch 3 0 1 2) (fun c => c.seq.began.isNone && c.gr.depth < 10 && c.drained && c.room 1 &&
      passB (checkAccess c.pre c.origin .load 64 (c.rdS (r 0)) 320) && (c.rdS (r 1) = 0 || passB (checkAccess c.pre c.origin .load 8 (c.rdS (r 1)) 128)) &&
      (c.rdS (r 2) = 0 || passB (checkAccess c.pre c.origin .rmw 8 (c.rdS (r 2)) 8))) (withS [(0, scr), (1, e.1), (2, e.2)])) = true ∧
    can (.launch 3 0 1 2) (fun c => c.seq.began = some (.launched 3 7)) (fun s => s.modSeq (placeParty .team) fun q =>
      { q with began := some (.launched 3 7) }) = true ∧
    can (.launch 3 0 1 2) (fun c => c.seq.began = none ∧ 10 ≤ c.gr.depth) (fun s => s.modGrid 0 fun g => { g with depth := 10 }) = true := by decide +kernel

/-- The page tables of partition 0: virtual page 0 of 64 KiB with the given leaf. -/
def paged (leaf : Nat) (s : State) : State := { s with
  mem := [(0x1000, 0x2001), (0x2000, 0x3001), (0x3000, 0x4001), (0x4000, 0x5001), (0x5000, leaf)].foldl (fun m (e : Nat × Nat) => writeNat m e.1 8 e.2) []
  parts := [(0, Part.fresh (BitVec.ofNat 512 (2 ^ 144 + 2 ^ 208 + 0x1001 * 2 ^ 256)))] }
abbrev leaf0 : Nat := 0x001000000010001F

/-- Lane accesses that all pass, at the last word of the scratchpad; one that waits for a queued store; one that is not aligned. -/
theorem test_lane_accesses : [Instr.ld (v 3) 0 .vz .w false, .ldExt (v 3) 0 .vz .w false ⟨.acquire, .device, 0⟩ false, .ldstr (v 3) 0 .vz .w false MemExt.plain 0].all
      (fun i => can i (fun c => let z := c.checkLanes .load 4 4 (c.laneList 0 .vz .w false) c.pre
        c.room 32 && z.2.1.isNone && !c.loadWaits z.1 && (z.1.all fun y => !c.laneBad y) && !(z.1.any (·.far))) (withS [(0, scr + 1020)])) = true ∧
    -- the data of a load from the host returns later
    can (.ld (v 3) 0 .vz .w false) (fun c => let z := c.checkLanes .load 4 4 (c.laneList 0 .vz .w false) c.pre
        c.room 32 && z.2.1.isNone && !c.loadWaits z.1 && z.1.any (·.far)) (paged (2 ^ 10 + leaf0 - 0x0010000000000000)) = true ∧
    can (.ld (v 3) 0 .vz .w false) (fun c => let z := c.checkLanes .load 4 4 (c.laneList 0 .vz .w false) c.pre
      c.room 32 && z.2.1.isNone && c.loadWaits z.1) (fun s => withS [(0, scr)] (onTeam (fun t => { t with storeQ := [{ aStore with kind := .bop 0 1 }] }) s)) = true ∧
    [Instr.ld (v 3) 0 .vz .w false, .ldstr (v 3) 0 .vz .w false MemExt.plain 0].all (fun i => can i (fun c => c.todo.head? = some 0 ∧ c.room 32 ∧ (c.parkLanes .load 4 4 (c.laneList 0 .vz .w false) c.pre).1 = 0 ∧
      (c.laneAddr 0 .vz .w false 0).toNat % 4 = 1) (withS [(0, scr + 1)])) = true ∧
    [Instr.st (v 3) 0 .vz .w false, .stExt (v 3) 0 .vz .w false ⟨.release, .block, 0⟩, .ststr (v 3) 0 .vz .w false MemExt.plain 0].all
      (fun i => can i (fun c => c.room 32 ∧ (c.checkLanes .store 4 4 (c.laneList 0 .vz .w false) c.pre).2.1.isNone) (withS [(0, scr + 1020)])) = true ∧
    can (.cpst (v 3) 0 .vz .w false MemExt.plain (.p 0)) (fun c => c.room 1 ∧ (c.checkLanes .store 4 4 [(31, c.rdS (r 0))] c.pre).2.1.isNone)
      (fun s => withP 0 0x80000000 (withS [(0, scr + 1020)] s)) = true := by decide +kernel

theorem test_team_accesses : [Instr.lds (r 3) 0 .vz .d false, .ldsExt (r 3) 0 .vz .d false ⟨.acquire, .device, 0⟩ false].all (fun i => can i (fun c =>
      match checkAccess c.pre c.origin .load 8 (c.rdS (r 0)) 8 with
      | .ok segs tier _ => c.room 1 && decide (tier = 9) && !c.loadWaits [teamAcc (c.rdS (r 0)) segs tier] && !c.laneBad (teamAcc (c.rdS (r 0)) segs tier)
      | _ => false) (withS [(0, scr + 1016)])) = true ∧
    [Instr.sts (r 3) 0 .vz .d false, .stsExt (r 3) 0 .vz .d false MemExt.plain, .pmov true (.p 3) 0, .pmovExt true (.p 3) 0 MemExt.plain,
      .pmov false (.p 3) 0, .pmovExt false (.p 47) 0 MemExt.plain].all (fun i => can i (fun c =>
        c.room 1 && passB (checkAccess c.pre c.origin .store 8 (c.rdS (r 0)) 8)) (withS [(0, scr + 1016)])) = true := by decide +kernel

theorem test_atomics : [Instr.atom (v 3) 0 .vz .w false MemExt.plain false (v 5) 11, .cas (v 3) 0 .vz .w false MemExt.plain false (v 5) (v 6)].all (fun i => can i (fun c =>
      let z := c.checkLanes .rmw 4 4 (c.laneList 0 .vz .w false) c.pre
      c.room 32 && z.2.1.isNone && (z.1.all fun y => decide (y.tier ≠ 2)) && c.drained &&
        (let e := atomicEnd c z.2.2 z.1 4 false fun l => .op 0 (c.rmwArg (v 5) .w l); e.bad.isEmpty && e.stall.isNone)) (withS [(0, scr)])) = true ∧
    [(0 : BitVec 4), 12].all (fun op => can (.atoms (r 3) 0 .vz .d false MemExt.plain true (r 4) op) (fun c =>
      match checkAccess c.pre c.origin .rmw 8 (c.rdS (r 0)) 8 with
      | .ok segs tier bs => let e := teamAtomicEnd c bs (teamAcc (c.rdS (r 0)) segs tier) 8 true (teamRmw c (r 3) (r 4) .d op)
          c.room 1 && decide (tier = 9) && c.drained && e.bad.isEmpty && e.stall.isNone && decide (e.olds = [(0, 0)])
      | _ => false) (withS [(0, scr)])) = true := by decide +kernel

theorem test_bank : can (.bop 0 (r 1) (r 2) false MemExt.plain 0) (fun c => c.rdS (r 1) = 0) = true ∧
    can (.bop 0 (r 1) (r 2) true MemExt.plain 0) (fun c => (c.rdS (r 1)).toNat = 8 ∧ windowOf (c.rdS (r 0)).toNat = some .csm ∧
      (c.rdS (r 0)).toNat % 2 ^ 52 + 8 * 8 ≤ c.gr.lrec.csm * 64 ∧ c.pre.recordOn c.ctx = false) (fun s => withS [(0, csm), (1, 8)] (withCsm s)) = true ∧
    can (.bop 0 (r 1) (r 2) false MemExt.plain 0) (fun c => (c.rdS (r 1)).toNat = 65537) (withS [(1, 65537)]) = true ∧
    can (.bop 0 (r 1) (r 2) false MemExt.plain 0) (fun c => (c.rdS (r 1)).toNat = 1 ∧ windowOf (c.rdS (r 0)).toNat ≠ some .csm)
      (withS [(0, scr), (1, 1)]) = true := by decide +kernel

def aShape : List Byte := natBytes 192 (2 + 1 * 2 ^ 8 + 8 * 2 ^ 256 + 4 * 2 ^ 320 + 4 * 2 ^ 384)
/-- COPY of nothing, of scratch to scratch with a full flag's worth of room, to an address that is not aligned; COPYT of a kept record. -/
theorem test_copies : can (.copy 0 1 (r 2) 3 MemExt.plain) (fun c => c.rdS (r 2) = 0) = true ∧
    can (.copy 0 1 (r 2) 11 MemExt.plain) (fun c => (c.rdS (r 2)).toNat = 512 ∧
      windowFirstBad (c.gr.lrec.scratch * 128) (c.gr.lrec.csm * 64) (c.rdS (r 0)).toNat 512 = none ∧
      windowFirstBad (c.gr.lrec.scratch * 128) (c.gr.lrec.csm * 64) (c.rdS (r 1)).toNat 512 = none ∧
      (c.rdS (r 1)).toNat + 512 ≤ (c.rdS (r 0)).toNat ∧ (c.tm.flags[11]?.map (·.count)) = some 14 ∧
      coreCopies c.pre c.core < 64 ∧ lockCount c.pre + 2 ≤ 256) (fun s => withS [(0, scr + 512), (1, scr), (2, 512)]
        (onTeam (fun t => { t with flags := t.flags.set 11 { count := 14, faults := [] } }) s)) = true ∧
    can (.copy 0 1 (r 2) 3 MemExt.plain) (fun c => 0 < (c.rdS (r 2)).toNat ∧ (c.rdS (r 0)).toNat % 4 ≠ 0) (withS [(0, scr + 2), (1, scr), (2, 4)]) = true ∧
    can (.copyt 0 1 2 3 MemExt.plain) (fun c => (c.pre.rcache.find? fun e => decide (e.core = c.core ∧ e.grid = c.g ∧ e.va = c.rdS (r 2))).any
      fun e => (parseShape (bytesNat e.bytes)).any fun sh => sh.esize = 4 ∧ bounding sh.esize (dstDims sh) = some (0, 31) ∧
        windowFirstBad (c.gr.lrec.scratch * 128) (c.gr.lrec.csm * 64) (c.rdS (r 0)).toNat 32 = none ∧
        rangesMeet (c.rdS (r 0)).toNat 32 (c.rdS (r 1)).toNat 32 = false) (fun s =>
      { withS [(0, scr + 32), (1, scr), (2, scr + 64)] s with rcache := [⟨0, 0, scr + 64, aShape⟩] }) = true ∧
    can (.copyt 0 1 2 3 MemExt.plain) (fun c => (c.rdS (r 2)).toNat % 64 = 63) (withS [(2, scr + 63)]) = true := by decide +kernel

/-- SPAWN whose lanes all find a bin, one that waits for stores, one with an entry past the last packet; AMSG to block 0. -/
theorem test_spawn : can (.spawn .vz (v 1) 0 0 0) (fun c => (c.lanes.all fun m => c.entryOf .vz m < 2 ^ 30) ∧ c.drained ∧ c.tm.resume = none ∧
      (depositAll c.core (spawnList c .vz (v 1) 0 0 0) c.pre).1 = []) = true ∧
    can (.spawn .vz (v 1) 0 0 0) (fun c => !c.drained) (onTeam fun t => { t with storeQ := [aStore] }) = true ∧
    can (.spawn (r 1) (v 1) 0 0 0) (fun c => c.lanes.head? = some 0 ∧ c.entryOf (r 1) 0 = 2 ^ 30) (withS [(1, 0x40000000)]) = true ∧
    can (.amsg .vz .vz (v 1) MemExt.plain 0 0 0) (fun c => (c.lanes.all fun m => (c.msgBad (c.rdD .vz m) (c.entryOf .vz m) .block).isNone) ∧
      (c.lanes.foldl (fun o m => o.bind (c.sendMsg m (c.rdD .vz m) (c.entryOf .vz m) 32 (binTimeout 0) (c.payload (v 1) 1 m))) (some c.pre)).isSome) = true ∧
    can (.amsg (r 1) .vz (v 1) MemExt.plain 0 0 0) (fun c => (c.msgBad (c.rdD (r 1) 0) 0 .block).isSome ∧ c.lanes.head? = some 0)
      (withS [(1, 0x00000001)]) = true := by decide +kernel

/-- FP16 in slot 0, and the operands of one member of each kind. -/
def accepts (c : Cx) (i : Instr) : Bool := !(matSlotBad c.gr i) && !(matRangeBad c.gr i) && decide (c.matObstacle i = .ready) && (c.metaBad i).isNone &&
  ((c.pre.block c.g c.b).bind (·.mctx)).isSome
theorem test_matrix : [Instr.mma 7 0 (v 16) (v 32), .aclr 0 7, .awr 7 0 0 15 (.v 16), .ard 7 0 0 15 (.v 16), .ascl 7 (v 9)].all (fun i => can i (fun c =>
      accepts c i ∧ matTile i + matCount c.tm.nlane i = c.gr.lrec.tiles ∧ (mget c.pre.matq 0).isNone) (withFmt [2])) = true ∧
    can (.mma 7 1 (v 16) (v 32)) (fun c => matSlotBad c.gr (.mma 7 1 (v 16) (v 32))) (withFmt [2]) = true ∧
    can (.mma 8 0 (v 16) (v 32)) (fun c => c.gr.lrec.tiles = matTile (.mma 8 0 (v 16) (v 32)) + matCount c.tm.nlane (.mma 8 0 (v 16) (v 32)) - 1)
      (withFmt [2]) = true ∧
    can (.aclr 0 7) (fun c => accepts c (.aclr 0 7) ∧ ((mget c.pre.matq 0).getD []).length = 2) (fun s => { s with matq := [(0, List.replicate 2
      ⟨.team 0 0 0, .aclr 0 0, 32, 0, [], 0, 0, 1⟩)] }) = true := by decide +kernel

/-! ### Events -/

/-- Partition 0 with key 1, and one leaf cached by core 0, die 0 and the front end: virtual 0 is frame 0 of tier 1. -/
def world (s : State) : State :=
  let ent (e : Nat) : TlbEnt := ⟨e, 0, 0, 0, 0x200000, 0x001000000000001D⟩
  { s with parts := [(0, Part.fresh (BitVec.ofNat 512 (2 ^ 144)))], tlb := [ent 0, ent 96, ent 97] }
def nexts : Host.Outcome State Fault Refusal → Bool
  | .next _ => true
  | _ => false
def waiting (w : Wait) (s : State) : State := s.modSeq (placeParty .team) fun q => { q with wait := some w }
def team0 : Party := .team 0 0 0
def aBin (lanes : Nat) : Bin := ⟨0, 0, 0, 32, 0, 0, List.replicate lanes [0], none, 0, false⟩

theorem test_party_events : (let s := world (spot .team);
      (s.grid 0).any fun gr => s.acts team0 ∧ packetAddr gr (pcPkt (s.pcOf team0)) + 12 ≤ 2 ^ 56 ∧
        passB (xlRange s { originOf gr 0 0 (fetchEngine s team0) with engine := fetchEngine s team0 } .fetch (packetAddr gr 0) 12)) = true ∧
    (let s := onTeam (fun t => { t with awaiting := some 0, seq := { t.seq with tok := none, queue := [Token.zero] } }) (spot .team);
      s.acts team0) = true ∧
    (let s := (spot .block).modLvl (.block 0 0) fun v => { v with seq := { v.seq with tok := none, queue := [Token.zero] } };
      s.acts (.block 0 0) ∧ (s.lvlOf (.block 0 0)).any fun v => !v.walkDone) = true ∧
    (let s := ((spot .cluster).modGrid 0 fun g => { g with ring := [Token.zero] }).modLvl (.cluster 0 0) fun v => { v with seq := { v.seq with tok := none } };
      s.acts (.cluster 0 0) ∧ (s.lvlOf (.cluster 0 0)).any fun v => !v.walkDone ∧ v.seq.rd = 0) = true ∧
    (let s := waiting (.settle (mkHandle 0 1)) (withFrame id (spot .team));
      (mget s.frames (handleKey 0 0 0 (mkHandle 0 1))).any fun f => settled s 0 0 0 f (mkHandle 0 1)) = true ∧
    (let s := spot .team;
      s.acts team0 ∧ (freeBin s 0).isSome ∧ (s.grid 0).any fun gr => !pageBusy s gr 0) = true ∧
    (let s := { waiting (.mem scr 8 0 0 0 0) (spot .team) with poked := [tKey 0 0 0] }; s.acts team0 ∧ tKey 0 0 0 ∈ s.poked) = true ∧
    ((waiting (.parked [7] [0] []) (spot .team)).block 0 0).any (fun y => 7 ∉ y.absent ∧ 7 ∉ y.held) = true := by decide +kernel

theorem test_bin_events : (let s := { spot .team with bins := [(15, aBin 32)] };
      s.live 0 ∧ binExpired s (aBin 32) ∧ (formTeam s 15 true).isSome ∧ (List.range 15).all fun n => formDue s n = none) = true ∧
    (let s := spot .team;
      placedBlock s 0 0 ∧ s.live 0 ∧ !s.scripted 0 ∧ (let z := messageToken (State.receive s 0 0);
        (deposit z.2 0 { g := 0, b := 0, entry := 0, size := 32, timeout := 0, words := [0], tok := some z.1 }).isSome) ∧ !placedBlock s 0 1) = true := by
  decide +kernel

def aCopy (started : Bool) (next : Nat) : Copy :=
  { party := team0, dst := scr + 512, src := scr, len := 128, shape := none, flag := 3, ms := .block, locks := [], started := started, engine := 0x2000
    next := next, after := 0, dlines := [], slines := [], bads := [], badAt := (0, 0), parkedOn := none, failedFill := none, pc := 0, stop := none }
def withCopy (c : Copy) : State := { spot .team with copies := [(0, c)] }
def aTile : MatEnt := ⟨team0, .aclr 0 0, 32, 0xFFFFFFFF, [], 0, 0, 1⟩
def headed (e : StoreEnt) : State := onTeam (fun t => { t with storeQ := [e] }) (spot .team)

theorem test_data_events : (let s := { spot .team with matq := [(0, [aTile])] };
      s.live 0 ∧ (mget s.matq 1).isNone ∧ aTile.nextOp = some 0 ∧ (s.block 0 0).any fun y => (aTile.reads 0).all fun a => a ∉ y.tbad) = true ∧
    ((aCopy true 1).total = 2 ∧ copyBlocked (withCopy (aCopy false 0)) 0 (aCopy false 0) = false ∧ (withCopy (aCopy false 0)).live 0 = true) ∧
    (match copyStep (withCopy (aCopy true 1)) 0 (aCopy true 1) with
      | .wrote _ => !(aCopy true 1).sameWord 1
      | _ => false) = true ∧
    (match copyStep (withCopy { aCopy true 1 with src := 0 }) 0 { aCopy true 1 with src := 0 } with
      | .failed _ _ _ => true
      | _ => false) = true ∧
    [aStore, { aStore with tier := 3, key := memKey 3 (2 ^ 42) }, { aStore with kind := .bop 0 1 }].all (fun e =>
      (headed e).live 0 ∧ !(unadmitted (headed e) e.key) ∧ !(headed e).scripted 0 ∧ !(headed e).undoOn 0 ∧ !(stallsFull (headed e) 0) ∧ (List.range 4).all fun i => !poisoned (headed e) (e.key + i)) = true ∧
    unadmitted (headed { aStore with tier := 3, key := memKey 3 0 }) (memKey 3 0) = true ∧
    (let e := { aStore with kind := .frame (fKey 0 0 0 1) 2, bytes := natBytes 8 7 }; let s := withFrame id (headed e);
      (s.grid 0).any fun gr => (writeSlot s gr 0 0 0 e (fKey 0 0 0 1) 2).isSome) = true ∧
    poisoned { headed { aStore with kind := .bop 0 1 } with poison := [aStore.key / 64] } aStore.key = true ∧
    ((onTeam (fun t => { t with loads := [aLoad] }) (spot .team)).team 0 0 0).any (fun t => t.loads.length = 1) = true := by decide +kernel

/-- A core's and a die's engine have a miss under way on page 0. -/
def missUnderB (s : State) : Bool := [(71, 0), (99, 7)].all fun (e : Nat × Nat) =>
  (s.misses.find? fun x => decide (x.engine = e.1 ∧ x.grid = e.2 ∧ x.page = (0xFFFF : W64).toNat / 65536)).isSome && !pageMoving s 0 0 0xFFFF

abbrev regen0 : Nat := 0x001000000010011E
def rec0 : BitVec 512 := BitVec.ofNat 512 (2 ^ 144 + 2 ^ 208 + 0x1001 * 2 ^ 256)

theorem test_page_events : (let s := paged leaf0 (spot .team);
      walkPage s.mem rec0 0 0 = .leaf (BitVec.ofNat 64 leaf0) 65536 ∧ tlbIn s 0 0 0 0xFFFF = none ∧ tlbIn s 99 0 0 0 = none ∧
        missUnderB { s with misses := [⟨71, 0, 0, 0, 0⟩, ⟨99, 0, 0, 0, 7⟩] } = true ∧
        leafKey s.mem rec0 0 0 = some 0x5000 ∧
        (match useLeaf s rec0 0 (BitVec.ofNat 64 leaf0) 65536 (permitted (BitVec.ofNat 64 leaf0) .load) with
          | .ok _ _ _ => true
          | _ => false) = true ∧ (allocFrames s (Part.fresh rec0) 0 65536).isSome = true ∧ s.poison = []) ∧
    (let s := paged regen0 (spot .team);
      walkPage s.mem rec0 0 0 = .regen (BitVec.ofNat 64 regen0) 65536 ∧ leafKey s.mem rec0 0 0 = some 0x5000 ∧
        (match walkPage (putByte s.mem 0x5000 (byteAt s.mem 0x5000 ||| 1)) rec0 0 0 with
          | .leaf _ _ => true
          | _ => false) = true) ∧
    -- the leaf in the TLB of the die of the core
    (let s := { paged leaf0 (spot .team) with tlb := [⟨96, 0, 0, 0, 65536, BitVec.ofNat 64 leaf0⟩] };
      tlbIn s 0 0 0 0xFFFF = none ∧ (tlbIn s 96 0 0 0).isSome = true ∧ pageMoving s 0 0 0xFFFF = false) ∧
    -- a page that cannot be read, and none
    (let s := paged (leaf0 - 4) (spot .team);
      match useLeaf s rec0 0 (BitVec.ofNat 64 (leaf0 - 4)) 65536 (permitted (BitVec.ofNat 64 (leaf0 - 4)) .load) with
        | .fault c _ _ => c == 0x11
        | _ => false) = true ∧
    walkPage (paged 0 (spot .team)).mem rec0 0 0 = .absent ∧
    -- a team whose context has a trace buffer
    (let s := onCtx (fun c => { c with trace := some ⟨0x60000, 12, 1, 0, 0, [], 0, 0, false⟩ }) (spot .team);
      (coreTeams s 0).any fun x => ((s.grid (tkGrid x.1)).bind fun g => (mget s.ctxs g.ctx).bind (·.trace)).any fun t => decide (t.period ≠ 0)) = true := by
  decide +kernel

/-! ### Queues -/

/-- The queue 0 of a kernel function at an image, with work, the turn its own. -/
def queued (j : JImg) (s : State) : State := { world s with
  turn := .queue 0
  queues := [(0, { fn := 0, part := 0, space := 0, m := 0, core := 0, vector := 0, ring := 0x10000, wptr := 8, retries := 0, dropped := 0, stopReq := false
                   held := false, disabled := false, armed := none, halfA := j, halfB := JImg.initial, badA := false, badB := false, written := true
                   newestB := false, window := [], begun := none })] }
def ks (l : List W64) : JImg := { JImg.initial with state := 2, k := l ++ List.replicate (16 - l.length) 0 }
/-- The queue's turn, its image read back, nothing in its window. -/
def served (s : State) (j : JImg) : Bool := (mget s.queues 0).any fun x => decide (x.newest = some j) && x.served j &&
  (x.window.find? fun e => decide (e.1 = j.csn)).isNone
def goesQ (i : Instr) (j : JImg) (w : State → Bool := fun _ => true) : Bool :=
  let s := queued j (spot .team)
  served s j && nexts (exec i s) && w s
def qOk (acc : Acc) (va : W64) (s : State) : Bool := match qRange s 0 0 acc va 8 with
  | .ok ((_, _) :: _) _ _ => true
  | _ => false

theorem test_queue_registers : [Instr.cmdNop, .ldi 15 (-1), .ldhi 1 0xFFFFF, .add 1 2 3, .addi 1 1 1].all (goesQ · (ks [])) = true := by decide +kernel

theorem test_queue_accesses : [Instr.cmdLd 1 0 8, .cmdSt 1 0 8, .signalWrite 0 1, .signalAdd 0 1].all (goesQ · (ks [0x1FFFF0]) fun s =>
      qOk .load 0x1FFFF8 s && qOk .rmw 0x1FFFF0 s) = true ∧
    [Instr.cmdLd 1 0 1, .cmdSt 1 0 7].all (goesQ · (ks [0x100])) = true ∧
    goesQ (.cmdLd 1 0 0) (ks [0x200000]) (fun s => match qRange s 0 0 .load 0x200000 8 with
      | .fault _ _ => true
      | _ => false) = true ∧
    goesQ (.cmdCopy 0 1 2) (ks [0x1000, 0x2000, 16]) = true ∧
    goesQ (.cmdMigrate 0 1 2 1) (ks [0, 0, 0]) = true ∧ goesQ (.cmdMigrate 0 1 2 1) (ks [0, 0, 65536]) (fun s => s.migrs.isEmpty) = true := by
  decide +kernel

def inBuffer (j : JImg) (n : Nat) : JImg := { j with depth := n, bstack := j.bstack.set (n - 1) (0x100, 4, 3) }
theorem test_queue_flow : goesQ (.br 0 1 0 1) (ks [1, 0]) (fun _ => !(waitCond 0 8 1 0)) = true ∧
    [(1 : BitVec 44), 0].all (fun n => goesQ (.br 0 1 0 n) (ks []) fun _ => waitCond 0 8 0 0) = true ∧
    [(0 : BitVec 44), 1].all (fun n => goesQ (.br 0 1 0 n) (inBuffer (ks []) 1) fun _ => (topBuffer (inBuffer (ks []) 1)).isSome) = true ∧
    goesQ (.dloop 0 1) (ks []) = true ∧ goesQ (.dloop 0 1) (ks [1]) = true ∧ goesQ (.dloop 0 0) (ks [1]) = true ∧
    goesQ (.calli 0 1) (ks []) = true ∧ goesQ (.calli 0 1) (inBuffer (ks [0x100, 1]) 7) = true ∧ goesQ (.calli 0 1) (inBuffer (ks [0x100, 1]) 8) = true ∧
    goesQ .reti (inBuffer (ks []) 1) = true ∧ goesQ .reti (ks []) = true ∧ goesQ (.wait 0 1 0) (ks [0x100, 0]) (qOk .load 0x100) = true ∧
    goesQ (.wait 0 1 0) (ks [0x100, 1]) (qOk .load 0x100) = true := by decide +kernel

theorem test_queue_waits : [(0, true), (1, false)].all (fun (e : W64 × Bool) =>
      let w : Armed := ⟨0x100, e.1, 0, 5⟩
      let s := { (queued (ks []) (spot .team)).modQueue 0 fun x => { x with armed := some w } with clk := 5 }
      (mget s.queues 0).any fun x => decide (x.armed = some w) && armedHolds s x w false == e.2 && armedHolds s x w true == e.2) = true := by
  decide +kernel


/-- A launch record at virtual 0x40000 and a context descriptor at 0x40180, with the page tables that the ring of its fault buffer
is checked against. -/
def goodRec : Nat := 2 ^ 96 + 2 ^ 128 + 32 * 2 ^ 160 + 8 * 2 ^ 176 + 2 ^ 184
def goodCtx : Nat := 0x1000 + 12 * 2 ^ 64 + 2 ^ 72
def withBytes (l : List (Nat × Nat × Nat)) (s : State) : State := { s with mem := l.foldl (fun m e => writeNat m e.1 e.2.1 e.2.2) s.mem }
def ordered (rc : Nat) (j : JImg) : State :=
  withBytes [(0x40000, 64, rc), (0x40180, 64, goodCtx)] (paged leaf0 (queued j (spot .team)))
def asked (s : State) (j : JImg) : Verdict := match mget s.queues 0 with
  | some x => let pl := launchAsked 0 x j 0 1 2 3 0; judge (asking s pl) s.nextId pl
  | none => .waits s
def judged : Verdict → Nat
  | .go _ _ _ _ _ => 1
  | .refused st _ => 2 ^ 32 + st.toNat
  | _ => 0
abbrev jl : JImg := ks [0x40000, 0x40180, 0]
/-- A timetable of one node at 0x40000, and headers that name none and too many. -/
def tabled (h : Nat) : State := withBytes [(0x40000, 64, h), (0x40040, 64, 0x40100)] (paged leaf0 (queued (ks [0x40000, 0]) (spot .team)))
def goodSignal : SigCheck → Bool
  | .good _ => true
  | _ => false
def tableGoes (h n : Nat) (bad : Bool) : Bool := (mget (tabled h).queues 0).any fun x =>
  (match qRange (tabled h) 0 0 .load 0x40000 64 with
    | .ok segs _ t => !segsPoisoned t segs && decide (bytesNat (readSegs t.mem segs) = n) && (bad || (match readNodes x n 0x40040 [] t with
      | .nodes raw u => !(raw.any nodeBad) && !(tableBad (raw.map parseNode)) &&
          goodSignal (signalBad u { launchAsked 0 x (ks [0x40000, 0]) 0 0 0 0 0 with recAt := 0, ctxAt := 0, sig := 0 })
      | _ => false))
    | _ => false)

theorem test_queue_launches : (judged (asked (ordered goodRec jl) jl) = 1 ∧ judged (asked (ordered 0 jl) jl) = 2 ^ 32 + 1 ∧
      served (ordered goodRec jl) jl = true ∧ (ordered goodRec jl).launches = []) ∧
    (tableGoes 1 1 false ∧ tableGoes 0 0 true ∧ tableGoes 1025 1025 true ∧ served (tabled 1) (ks [0x40000, 0])) = true ∧
    goesQ (.launchg 0 1 2) (ks [0x40000, 0]) = true ∧
    (((queued (ks []) (spot .team)).modQueue 0 fun x => { x with window := [(0, 7)] }).queues.any fun e =>
      (e.2.window.find? fun w => decide (w.1 = (ks []).csn)).isSome) = true := by decide +kernel

theorem test_portal : (let s := queued (ks []) (spot .team); let up := { s with reg := { s.reg with ready := { s.reg.ready with bits := 0xFF } } };
      (mget up.queues 0).any (fun x => !x.disabled && decide (x.img.state ≠ 0 ∧ 8 ≤ (x.size : Int) - (x.wptr - x.img.rptr.setWidth 32).toInt)) &&
        up.reg.isReady && nexts (exec (.portalKick 0 (List.replicate 8 0)) up)) = true ∧
    (let s := queued (ks []) (spot .team); !s.reg.isReady && nexts (exec (.portalKick 0 (List.replicate 8 0)) s)) = true ∧
    [(1, 0), (2, 0), (3, 0), (4, 3), (5, 3)].all (fun (e : Nat × Nat) =>
      let j := { ks [] with state := BitVec.ofNat 4 e.1, fault := BitVec.ofNat 8 e.2 }
      let s := queued j (spot .team)
      (mget s.queues 0).any (fun x => decide (x.img.state.toNat = e.1)) &&
        [Instr.queueStateResume 0, .queueStateStop 0, .queueStateReset 0, .portalWriteDiscarded 0].all fun i => nexts (exec i s)) = true := by
  decide +kernel

/-- A control block at 0x40000 that names queue 0 and csn 5, whose grid is grid 0. -/
def ctlJ : JImg := ks [0x40000]
def commanded (a0 a1 a2 : Nat) (f : State → State := id) : State := withBytes
    [(0x40000, 64, 5 * 2 ^ 64 + a0 * 2 ^ 128 + a1 * 2 ^ 192 + a2 * 2 ^ 256)] (f (queued ctlJ ((spot .team).modGrid 0 fun g =>
      { g with launcher := .queue 0, queue := 0, csn := 5, depth := 1 })))
def names (s : State) : Bool := served s ctlJ && (mget s.queues 0).any fun x => match qRange s 0 0 .load 0x40000 64 with
  | .ok segs _ t => let n := bytesNat (readSegs t.mem segs)
    !segsPoisoned t segs && decide (nfield n 32 32 = 0 ∧ nfield n 320 192 = 0 ∧ (ctlBlkOf n).queue = 0 ∧ x.part = 0) &&
      decide (ctlTarget t 0 (ctlBlkOf n).csn = some 0) && (anyGrid t 0).any fun gr => decide (gr.part = 0)
  | _ => false
def doneCtl (i : Instr) (s : State) (w : State → Bool := fun _ => true) : Bool := names s && nexts (exec i s) && w s
def withUndo (f : UndoLog → UndoLog) (s : State) : State := (marked s).modCtx 0 fun c => { c with ulog := c.ulog.map f }
def aCkpt : Ckpt := ⟨0, 0, 0, 0, [], [], [], []⟩
def stopped0 (s : State) : State := (s.modSeq team0 fun q => { q with stop := some ⟨0, 3, .alone 0⟩ }).modCtx 0 fun c => { c with undisposed := [3] }

theorem test_control : ([Instr.ctrlFreeze 0 1, .ctrlThaw 0 1, .ctrlInvalidateTlb 0 1, .ctrlReleaseRetained 0 1, .ctrlHostMarker 0 1].all
      fun i => doneCtl i (commanded 0 0 0)) = true ∧
    doneCtl (.ctrlSetBreakpoint 0 1) (commanded 7 0x80000001 0x3FF) = true ∧
    doneCtl (.ctrlDisposeResume 0 1) (commanded 3 0 0 stopped0) (fun s => ((ctxGrids s 0).findSome? fun h => disposeStop s h 3 false).isSome) = true ∧
    doneCtl (.ctrlDisposeStep 0 1) (commanded 3 1 0 stopped0) (fun s => ((ctxGrids s 0).findSome? fun h => disposeStop s h 3 true).isSome) = true ∧
    doneCtl (.ctrlDisposeAbort 0 1) (commanded 0 2 0 fun s => s.modGrid 0 fun g => { g with status := .retained, signalled := true }) = true ∧
    doneCtl (.ctrlReleaseRetained 0 1) (commanded 0 0 0 fun s => s.modGrid 0 fun g => { g with status := .retained }) = true := by decide +kernel

/-- The block names no grid: none has completed in this clk, or one has. -/
def namesNone (s : State) : Bool := served s ctlJ && (mget s.queues 0).any fun x => match qRange s 0 0 .load 0x40000 64 with
  | .ok segs _ t => let n := bytesNat (readSegs t.mem segs)
    !segsPoisoned t segs && decide (nfield n 32 32 = 0 ∧ nfield n 320 192 = 0 ∧ (ctlBlkOf n).queue = 0 ∧ x.part = 0) &&
      decide (ctlTarget t 0 (ctlBlkOf n).csn = none)
  | _ => false
theorem test_control_nothing : [Instr.ctrlFreeze 0 1, .ctrlThaw 0 1, .ctrlSetBreakpoint 0 1, .ctrlInvalidateTlb 0 1, .ctrlTrimLog 0 1, .ctrlRewind 0 1,
      .ctrlDebugRead 0 1, .ctrlReleaseRetained 0 1, .ctrlHostMarker 0 1, .ctrlReverseStep 0 1, .ctrlPreempt 0 1].all (fun i =>
        let s := commanded 0 0x40100 0 fun s => s.modGrid 0 fun g => { g with csn := 4 };
        namesNone s && s.done.isEmpty && nexts (exec i s)) = true ∧
    (let s := { commanded 0 0x40100 0 (fun s => s.modGrid 0 fun g => { g with csn := 4 }) with done := [⟨0, 0, 5, 0, 0, false⟩] };
      namesNone s && (s.done.find? fun e => decide (e.clk = s.clk ∧ e.queue = 0 ∧ e.csn = 5 ∧ e.part = 0)).any (fun e => !e.conf) &&
        (match qSpan 0 0 .store (64 / 65536 + 0x40100 % 65536 + 2) 0x40100 64 s with
          | .ok _ tier _ => tier ≠ 3
          | _ => false) && nexts (exec (.ctrlPreempt 0 1) s)) = true ∧
    doneCtl (.ctrlPreempt 0 1) (commanded 0 0x40100 0 fun s => s.modGrid 0 fun g => { g with status := .retained }) (fun s =>
      (s.grid 0).any fun g => decide (g.status = .retained)) = true := by decide +kernel

/-- The state once the control block has been read, and the grid saved whole there for an image at 0x60000. -/
def toSave : State := commanded 0 0x60000 0 fun s => s.modGrid 0 fun g => { g with lrec := { g.lrec with tiles := 0 } }
def readBlock (s : State) : State := match qRange s 0 0 .load 0x40000 64 with
  | .ok _ _ t => t
  | _ => s
def preempted : State := saveTree (readBlock toSave) 0 false false (some (0, 0x60000))
theorem test_preempt : names toSave = true ∧ (gridImage (readBlock toSave) 0).isNone = true ∧
    (gridImage preempted 0).any (fun e => !e.2.csmWanted && !e.2.csmPart) = true ∧
    ((readBlock toSave).grid 0).any (fun g => decide (imax g.lrec ≤ 65536 ∧ g.lrec.csm = 0 ∧ g.status ≠ .retained)) = true := by decide +kernel

/-- The page at 0x60000 of the state is stored to, and is no peer's. -/
def pageOpen (s : State) : Bool := match translate s 96 0 0 (noGrid s) .store 0x60000 with
  | .ok t pa _ => !unadmitted s (memKey t pa)
  | _ => false

/-- A range from 0x60000 on, of any length up to 64 KiB, has its place in a state whose page there is open. -/
theorem place_of_pageOpen (s : State) (x : Queue) (hp : x.part = 0) (hs : x.space = 0) (ho : pageOpen s = true) (n : Nat) (h1 : 1 ≤ n)
    (h2 : n ≤ 65536) : ∃ segs tier u, qPlace s x 0x60000 n = .ok segs tier u := by
  unfold pageOpen at ho
  split at ho <;> simp at ho
  next t pa b tr =>
  have hn : min n 65536 = n := by omega
  have hq : ∃ segs tier u, qRange s 0 0 .store (0x60000#64) n = .ok segs tier u := by
    simp [qRange, xlRange, tr, ownPeer, ho, h2, show ¬72057594037927936 < 393216 + n by omega]
  obtain ⟨segs, tier, u, hq⟩ := hq
  refine ⟨segs, tier, u, ?_⟩
  rw [qPlace, hp, hs, show n / 65536 + (0x60000 : W64).toNat % 65536 + 2 = n / 65536 + 1 + 1 from rfl]
  simp [qSpan, hq, hn, show n ≠ 0 by omega]

theorem imageBytes_length (l : LaunchRec) (i : Image) (h : i.csmPart = false) (hl : 64 ≤ imax l) :
    1 ≤ (natBytes 64 i.hdr.toNat ++ imageBody l i).length ∧ (natBytes 64 i.hdr.toNat ++ imageBody l i).length ≤ imax l := by
  simp [imageBody, h, natBytes]
  omega

theorem test_preempt_place : pageOpen preempted = true ∧ (mget (readBlock toSave).queues 0).any (fun x => decide (x.part = 0 ∧ x.space = 0)) = true ∧
    ((readBlock toSave).grid 0).any (fun g => decide (64 ≤ imax g.lrec)) = true := by decide +kernel

theorem test_preempt_goes : ∃ x gr k i segs tier u, mget (readBlock toSave).queues 0 = some x ∧ (readBlock toSave).grid 0 = some gr ∧
    gr.status ≠ .retained ∧ gridImage preempted 0 = some (k, i) ∧ i.csmWanted = false ∧
    qPlace preempted x 0x60000 (natBytes 64 i.hdr.toNat ++ imageBody gr.lrec i).length = .ok segs tier u := by
  have h1 := test_preempt
  have h2 := test_preempt_place
  simp only [Option.any_eq_true, decide_eq_true_eq, Bool.and_eq_true, Bool.not_eq_true'] at h1 h2
  obtain ⟨-, -, ⟨⟨k, i⟩, hi, hw, hc⟩, gr, hg, hm, -, hr⟩ := h1
  obtain ⟨ho, ⟨x, hx, hp, hs⟩, gr', hg', hl⟩ := h2
  obtain rfl : gr = gr' := Option.some.inj (hg.symm.trans hg')
  have hb := imageBytes_length gr.lrec i hc hl
  obtain ⟨segs, tier, u, h⟩ := place_of_pageOpen preempted x hp hs ho _ hb.1 (Nat.le_trans hb.2 hm)
  exact ⟨x, gr, k, i, segs, tier, u, hx, hg, hr, hi, hw, h⟩

theorem test_control_images : doneCtl (.ctrlRestoreImage 0 1) (commanded 0x40100 0 0 fun s => saveTree s 0 false false (some (0, 0x40100))) (fun s =>
      (s.images.find? fun e => decide (e.2.gid = 0 ∧ e.2.addr = some (0, 0x40100)) && e.2.grid.isSome).any fun e => (restoreGrid s e.1).isSome) = true ∧
    doneCtl (.ctrlRestoreImage 0 1) (commanded 0 0 0 fun s => s.modQueue 0 fun x => { x with begun := some (0, 0) }) (fun s => s.images.isEmpty) = true ∧
    doneCtl (.ctrlTrimLog 0 1) (commanded 0 0 0 (withUndo fun u => { u with ckpts := [aCkpt] })) = true ∧
    doneCtl (.ctrlDebugRead 0 1) (commanded 0xFF20000000000000 16 0x40100) (fun s => match qSpan 0 0 .store (16 / 65536 + 0x40100 % 65536 + 2) 0x40100 16 s with
      | .ok _ tier _ => tier ≠ 3
      | _ => false) = true := by decide +kernel

def recorded (s : State) : State := (withUndo (fun u => { u with ckpts := [aCkpt] }) s).modCtx 0 fun c => { c with record := true, arb := some ⟨0x50000, 24, 0, [], []⟩ }
def frozen0 (s : State) : State := s.modGrid 0 fun g => { g with frozen := true }
def chunkOf (team : Nat) : Nat := 8 * 2 ^ 64 + 2 * 2 ^ 60 + 2 ^ 40 + 2 ^ 37 + team
theorem test_rewind : doneCtl (.ctrlRewind 0 1) (commanded 0 0 0 fun s => (withUndo id s).modQueue 0 fun x => { x with begun := some (0, 0) }) (fun s =>
      !restoring s 0) = true ∧
    doneCtl (.ctrlRewind 0 1) (commanded 0 0 0 fun s => frozen0 (withUndo (fun u => { u with ckpts := [aCkpt] }) s)) (fun s =>
      ((s.grid 0).bind fun gr => ((mget s.ctxs 0).bind (·.ulog)).map fun u => atRest s 0 gr && decide (u.target 0 = some aCkpt) && u.reaches aCkpt) =
        some true) = true := by decide +kernel

theorem test_rewind_phases : doneCtl (.ctrlRewind 0 1) (commanded 5 0 0 fun s => (recorded s).modQueue 0 fun x => { x with begun := some (0, 0) }) (fun s =>
      !restoring s 0 && decide (scriptHere s 0 = some ([], []))) = true ∧
    doneCtl (.ctrlRewind 0 1) (commanded 0 0 0 fun s => (frozen0 (withUndo id s)).modQueue 0 fun x => { x with begun := some (0, 1) }) (fun s =>
      replayOver s 0 0) = true := by decide +kernel

theorem test_replay : [(Instr.ctrlReplay 0 1, 0, 0), (.ctrlReplayToWindow 0 1, 1, 2), (.ctrlReplayPerturb 0 1, 2, 0)].all (fun (e : Instr × Nat × Nat) =>
      doneCtl e.1 (commanded e.2.1 e.2.2 0 fun s => frozen0 (recorded s)) fun s =>
        !restoring s 0 && decide (scriptHere s 0 = some ([], []))) = true ∧
    doneCtl (.ctrlReplayPerturb 0 1) (commanded 2 0 0 fun s => withBytes [(0x50000, 16, chunkOf 0), (0x50010, 16, chunkOf 1)] (frozen0
      ((recorded s).modCtx 0 fun c => { c with arb := some ⟨0x50000, 24, 32, [], []⟩ }))) (fun s =>
        !restoring s 0 && (scriptHere s 0).any fun l => decide (l.1.length = 2 ∧ l.2 = []) && (perturb l.1 0).isSome) = true := by decide +kernel

theorem test_host_marker : doneCtl (.ctrlHostMarker 0 1) (commanded 7 0 0 (withUndo id)) (fun s => s.undoOn 0 && canOpen s 0 .grid) = true ∧
    doneCtl (.ctrlHostMarker 0 1) (commanded 7 0 0 (withUndo fun u => { u with stall := true, head := 2 ^ 16 })) (fun s =>
      s.undoOn 0 && !(canOpen s 0 .grid) && (s.grid 0).any fun gr => decide (gr.status = .running)) = true := by decide +kernel

theorem test_reverse_step : doneCtl (.ctrlReverseStep 0 1) (commanded 1 0 0 fun s => (frozen0 (recorded s)).modSeq team0 fun q => { q with chains := 1 }) (fun s =>
      decide (ctlParty 0 1 = some team0 ∧ (chainsOf s 0 team0).bind (reverseGoal team0 [aCkpt]) = some (aCkpt, 0)) && scriptFor s 0 aCkpt &&
        ((s.grid 0).any fun gr => atRest s 0 gr) && ((mget s.ctxs 0).bind (·.ulog)).any fun u => u.reaches aCkpt) = true ∧
    doneCtl (.ctrlReverseStep 0 1) (commanded 1 0 0 fun s => (recorded s).modQueue 0 fun x => { x with begun := some (0, 0) }) (fun s =>
      !restoring s 0 && decide (ctlParty 0 1 = some team0) && decide (scriptHere s 0 = some ([], []))) = true ∧
    doneCtl (.ctrlReverseStep 0 1) (commanded 1 0 0 fun s => (frozen0 (recorded s)).modQueue 0 fun x => { x with begun := some (0, 1) }) (fun s =>
      replayOver s 0 0) = true := by decide +kernel

/-! ### Grids, cores, the management path -/

def goodPart : BitVec 512 := BitVec.ofNat 512 (2 ^ 32 + 6 * 2 ^ 8 + 2 ^ 12 + 2 ^ 16 + 2 ^ 20 + 2 ^ 144 + 2 ^ 160 + 2 ^ 208)
def isReady (s : State) : State := { s with reg := { s.reg with ready := ⟨0xFF, 0⟩ } }
/-- The grid with two blocks, the second to be placed, in a partition that has cluster 0. -/
def placing (f : LaunchRec → LaunchRec) (s : State) : State :=
  { s.modGrid 0 (fun g => { g with lrec := f { g.lrec with grid := 2, cmode := false }, nextBlk := 1 }) with parts := [(0, Part.fresh goodPart)] }
def launchesOne (raw : Nat) (s : State) : State := { s with
  launches := [(3, ⟨.fill 9, none, 0, 0, 0, 0, 0, 1, 0x40, some (natBytes 320 raw), [], 0, some 0, 0, 0⟩)], parts := [(0, Part.fresh goodPart)] }

theorem test_grid_events : [(goodRec, 1), (0, 2 ^ 32 + 1)].all (fun e => let s := launchesOne e.1 (spot .team);
      (mget s.launches 3).any (fun pl => decide (judged (judge s 3 pl) = e.2)) && nexts (exec (.gridLaunchAccept 3) s)) = true ∧
    (let s := placing (fun l => { l with regs := 8 }) (spot .team);
      s.live 0 && s.images.isEmpty && (s.grid 0).any (fun gr => decide (gr.nextBlk < gr.lrec.grid) && clusterAllows s gr 0 && coreFits s 3 ⟨gr.lrec, []⟩)) = true ∧
    (let s := { placing (fun l => { l with cmode := true, grid := 5 }) (spot .team) with clusters := [] };
      (s.grid 0).any fun gr => clusterAllows s gr 0 && decide ((clusterSlots s 0).length < 4) &&
        (List.range (instBlocks gr.lrec (instOf gr.nextBlk)).length).all fun n => coreFits s n ⟨gr.lrec, []⟩) = true ∧
    (let s := { saveTree (spot .team) 0 true false none with parts := [(0, Part.fresh goodPart)] };
      s.images.any fun e => e.2.auto && (restoreNext s e.1 0).isSome) = true ∧
    (let s := waiting (.settle 0) (placing (fun l => { l with csm := 2 ^ 30 }) { spot .team with parts := [] });
      let s := { s with parts := [] };
      s.live 0 && blockWaits s 0 0 && (List.range 96).all fun c => (placeNext s 0 c).isNone) = true ∧
    -- a parent that waits, with a launch that finds no grid sequencer
    (let s := launchesOne goodRec (waiting (.settle 0) (spot .team));
      let s := { s with
        grids := s.grids ++ s.grids.flatMap fun e => (List.range 63).map fun k => (k + 1, { e.2 with gseq := k + 1 })
        launches := s.launches.map fun e => (e.1, { e.2 with launcher := .parent 0 }) };
      s.live 0 && blockWaits s 0 0 && (freeGseq s).isNone && s.launches.any fun e => decide (e.2.launcher = .parent 0)) = true ∧
    (let s := saveTree (spot .team) 0 true true none; s.images.any fun e => e.2.csmWanted && e.2.grid.isSome) = true ∧
    ((spot .team).modGrid 0 fun g => { g with status := .saving }).grids.any (fun e => decide (e.2.status = .saving)) = true ∧
    (let s := onTeam (fun t => { t with exiting := true }) (spot .team);
      s.acts team0 && !s.scripted 0 && (s.team 0 0 0).any (fun x => x.storeQ.isEmpty && x.loads.isEmpty && x.flags.all fun f => decide (f = ⟨0, []⟩)) &&
        !(unpublished (publishAll s team0 0 (s.engineOf team0) 0 0 0) team0 0 0 0) &&
        (match returnFrames team0 17 (publishAll s team0 0 (s.engineOf team0) 0 0 0) with
          | .all t => inRight (hashCheck t 0 0 0 0)
          | _ => false)) = true := by decide +kernel

/-- CPC core 0 runs with registers x n. -/
def coreOf (l : List (Nat × W64)) (d : List (Nat × Nat × Nat)) (s : State) : State := { s.modCpc 0 (fun x => { l.foldl (fun x e => x.put e.1 e.2) x with
  stopped := false, dmem := d.foldl (fun m e => writeNat m e.1 e.2.1 e.2.2) [] }) with turn := .cpc 0 }
def runsX (i : Instr) (s : State) (w : Cpc → Queue → Bool) : Bool :=
  nexts (exec i s) && (mget s.cpcs 0).any fun x => !x.stopped && (mget s.queues 0).any fun y => decide (y.core = 0) && w x y

theorem test_xnov : (let s := coreOf [(1, 0x123456789ABCDEF0), (2, 64 * 32 + 32), (3, 64 * 33 + 32)] [] State.reset;
      (mget s.cpcs 0).any fun x => decide ((x.get 2).extractLsb' 0 6 = 32#6 ∧ (x.get 2).extractLsb' 6 6 = 32#6 ∧ (x.get 3).extractLsb' 6 6 = 33#6)) = true ∧
    [(15, true), (16, false)].all (fun (e : W64 × Bool) => let s := coreOf [(1, e.1)] [] State.reset;
      (mget s.cpcs 0).any fun x => decide (decide ((x.get 1).toNat ≤ 15) = e.2)) = true ∧
    (let s := coreOf [(1, 0x3FF)] [] State.reset; (mget s.cpcs 0).any fun x => (mget s.queues (x.get 1).toNat).isNone) = true ∧
    (let s := coreOf [] [] (queued (ks []) (spot .team));
      runsX (.kfetch 0 0 5) s fun _ y => y.hasWork (ks []) && decide (fetchCommand s y (ks []) = .word 0)) = true ∧
    (let s := coreOf [] [] (queued { ks [] with state := 5 } (spot .team)); runsX (.kfetch 0 0 5) s fun _ _ => unserved { ks [] with state := 5 }) = true ∧
    [0, 1, 6].all (fun (c : Nat) => let s := coreOf [(2, 0x100)] [(0x100, 8, 0x40000), (0x110, 8, c)] (queued (ks []) (spot .team));
      runsX (.kwait 2 0 5) s fun x y => (x.dwords (x.get 2) 3).any fun l => decide (l = [0x40000, 0, BitVec.ofNat 64 c]) &&
        (match qRange s y.part y.space .load 0x40000 8 with
          | .ok segs _ t => !segsPoisoned t segs
          | _ => false)) = true ∧
    (let s := coreOf [(2, 0x100)] [(0x110, 8, 7)] (queued (ks []) (spot .team)); runsX (.kwait 2 0 5) s fun x _ => x.dwords (x.get 2) 3 = some [0, 0, 7]) = true ∧
    (let s := coreOf [(2, 0x100)] [(0x100, 8, 4), (0x108, 8, 0x1100000000000000), (0x118, 8, 0x40000)] (queued (ks []) (spot .team));
      runsX (.kdisp 2 0 5) s fun x y => (x.dwords (x.get 2) 5).any fun l => match l with
        | [csn, w, ka, kb, kc] => y.window.isEmpty && (decodeCmd w (ctlMode s y w ka)).any fun i => (dispatchFn i ka kb kc).any fun f =>
            (match f s 0 y { y.img with csn := csn } with
              | .done _ _ => true
              | _ => false)
        | _ => false) = true := by decide +kernel

theorem test_xnov_journal : (let s := coreOf [(2, 0x7FEC0)] [] (queued (ks []) (spot .team));
      [Instr.kjrnl 2 0, .kjrnlR 2 0 5, .khold 0 0 5, .krel 0 0 5].all fun i => runsX i s fun x y => decide ((x.get 2).toNat + 320 = dmemBytes ∧ y.newest = some (ks []))) = true ∧
    (let s := coreOf [(2, 0x7FEC1)] [] (queued (ks []) (spot .team)); runsX (.kjrnl 2 0) s fun x _ => decide (dmemBytes < (x.get 2).toNat + 320)) = true ∧
    [(7, true), (4, false)].all (fun (e : W64 × Bool) => let s := coreOf [(2, 0x100)] [(0x100, 8, 5)] ((queued (ks []) (spot .team)).modQueue 0 fun y => { y with window := [(e.1, 9), (5, 8)].drop (if e.2 then 0 else 2) ++ [(6, 1)] });
      runsX (.kdisp 2 0 5) s fun x y => (y.window.find? fun w => decide (w.1 = (5 : W64))).isSome == e.2 && decide (x.dwords (x.get 2) 5 = some [5, 0, 0, 0, 0])) = true ∧
    (let s := coreOf [] [] State.reset; (mget s.cpcs 0).any fun x => (match rvWord x 0 s.clk 0x00100093 with
      | .inr y => decide (y.get 1 = 1)
      | _ => false) && (match rvWord x 0 s.clk 0x00000073 with
      | .inl e => decide (e.1 = 11)
      | _ => false)) = true ∧
    [0, 5, 6, 7].all (fun n => nexts (exec (.cpcImemUncorrectable n) (coreOf [] [] { State.reset with cpcs := State.reset.cpcs.map fun e => (e.1, { e.2 with stopped := false }) }))) = true := by
  decide +kernel

def aPart (f : Part → Part := id) (s : State) : State := { isReady s with parts := [(0, f (Part.fresh goodPart))] }
theorem test_management : recordFault State.reset 0 goodPart = none ∧ recordFault State.reset 0 0 = some 32 ∧
    recordFault State.reset 0 (goodPart ||| 0x1) = some 0 ∧ (isReady State.reset).reg.isReady = true ∧ State.reset.reg.isReady = false ∧
    nexts (exec (.partitionCreate 23 goodPart) (isReady State.reset)) = true ∧
    [Instr.partitionChange 0 goodPart, .partitionDestroy 0, .regenerationTableWrite 0 63 0, .messageEndpointBind 0 7 true 1023 0 0 0,
      .messageEndpointBind 0 8 false 0 0 0 0, .importTableWrite 0 15 0 0 0 0 1, .deviceNumberAssign 1023, .deadlockTimeoutSet 1, .deadlockTimeoutSet 1000,
      .deadlockTimeoutSet 0, .deadlockTimeoutSet 1001].all (fun i => nexts (exec i (aPart id State.reset))) = true ∧
    [(0, 0, 63), (1, 0, 31)].all (fun (e : Nat × Nat × Nat) => let s := aPart id State.reset;
      decide (e.2.2 < vecCount e.1) && inTier goodPart 0 (2 ^ 30 - 8 * 2 ^ 17) (8 * 2 ^ 17) &&
        (match exec (.queueCreate 1023 e.1 e.2.1 3 11 5 e.2.2 (2 ^ 30 - 8 * 2 ^ 17)) s with
          | .next t => (mget t.queues 1023).isSome
          | _ => false)) = true ∧
    (let s := aPart (fun p => { p with session := some 0 }) State.reset;
      (mget s.parts 0).any fun x => x.session.isSome && inKeySet x.record 1) = true := by decide +kernel

def lender (f : Part → Part) (s : State) : State := { isReady (s.modGrid 0 fun g => { g with part := 1, nextBlk := 0 }) with
  parts := [(0, f (Part.fresh (goodPart ||| BitVec.ofNat 512 (2 ^ (64 + 5) + 2 ^ (96 + 1))))), (1, Part.fresh (BitVec.ofNat 512 (2 ^ 25 + 2 ^ 33)))] }
theorem test_tenants : (let s := lender id (spot .team);
      (lenderOf s 5).any (fun e => decide (e.1 = 0 ∧ mget e.2.lent 5 = none)) && clusterIdle s 5 && blockPending s 1 &&
        nexts (exec (.clusterLend 5) s)) = true ∧
    (let s := (lender (fun p => { p with lent := [(5, 1)] }) (spot .team)).modGrid 0 fun g => { g with part := 0, lrec := { g.lrec with cmode := false, grid := 2 }, nextBlk := 1 };
      (lenderOf s 5).any (fun e => decide (mget e.2.lent 5 = some 1 ∧ 5 ∉ e.2.revoking)) && wouldHold s 5 0 &&
        nexts (exec (.clusterRevoke 5) s) && nexts (exec (.hostRevoke 5) s)) = true ∧
    (let s := lender (fun p => { p with lent := [(5, 1)], revoking := [5] }) (spot .team);
      (lenderOf s 5).any (fun e => decide (5 ∈ e.2.revoking)) && clusterIdle s 5 && nexts (exec (.revocationReturn 5) s)) = true ∧
    (let s := isReady (queued (ks []) (spot .team)); nexts (exec (.queueExport 0) s) && (mget s.queues 0).any fun x => !x.held) = true ∧
    ((isReady ((queued (ks []) (spot .team)).modQueue 0 fun x => { x with held := true })).queues.any fun e => e.2.held) = true ∧
    (let s := isReady (queued (ks []) (spot .team)); nexts (exec (.queueImport 0 0 (List.replicate 448 0)) s)) = true ∧
    nexts (exec (.turnover 0 false true []) (isReady State.reset)) = true ∧ nexts (exec (.turnover 0 false true []) (aPart id State.reset)) = true := by
  decide +kernel

def atBoot (n : Nat) : State := State.reset.modReg fun r => { r with step := n }
theorem test_bring_up : [1, 2, 4, 5, 6, 7].all (fun n => nexts (exec .powerOnReset (atBoot n))) = true ∧
    nexts (exec .powerOnReset ((atBoot 0).modReg fun r => { r with config := some [1] })) = true ∧
    nexts (exec .powerOnReset ((atBoot 3).modReg fun r => { r with image := some [1] })) = true ∧
    nexts (exec (.configurationLoad [1]) State.reset) = true ∧ (mget State.reset.parts 0).isNone = true ∧
    (examWaits ((atBoot 6).modReg fun r => { r with ready := ⟨0x7F, 5⟩ }).reg = true ∧ examWaits State.reset.reg = false ∧ State.reset.reg.isDead = false ∧
      (State.reset.modReg fun r => { r with ready := ⟨0, 9⟩ }).reg.isDead = true) ∧
    (State.reset.reg.firmware.map (·.digest)) = none := by decide +kernel

theorem test_health : [(0, 370, 115 * 8), (3600001, 369, 840), (0, 800, 921)].all (fun (e : Nat × Nat × Nat) => nexts (exec (.railSample e.1 0 e.2.2 e.2.1) State.reset)) = true ∧
    (isReady State.reset).reg.monitors.isEmpty = false ∧
    (let s := { State.reset with links := [(18, ⟨false, true, List.replicate 15 0, false, 0⟩)] };
      (mget s.links 18).any (fun x => x.up && decide ((s.clk :: x.replays.filter fun t => decide (s.clk < t + 2 ^ 20)).length = 16)) &&
        nexts (exec (.linkFrameError 18) s)) = true ∧
    [false, true].all (fun half => let s := { State.reset with links := [(18, ⟨half, true, [], true, 0⟩)] };
      nexts (exec (.linkRetrainComplete 18 true) s) && nexts (exec (.linkRetrainComplete 18 false) s)) = true ∧
    (let s := { State.reset with links := [(18, ⟨false, false, [], false, 0⟩)] }; (mget s.links 18).any fun x => !x.up) = true ∧
    (isReady State.reset).reg.monitors[99999]? = none ∧
    (mget State.reset.flows 3 = none ∧ nexts (exec (.deadlockTimeout 3) State.reset) = true) ∧
    [850, 849].all (fun clk => let s := { State.reset with flows := [(3, 0)], clk := clk };
      decide (mget s.flows 3 = some 0) && nexts (exec (.escapeReturn 3) s)) = true := by decide +kernel

theorem test_attestation : [0, 1, 2, 3, 8].all (fun n => let x := (State.reset.modReg fun r => { r with identity := some [1], spdmState := n }).reg;
      x.attests && x.spdmState == n) = true ∧ State.reset.reg.attests = false := by decide +kernel

def withLine (k : BitVec 8) (s : State) : State := { aPart (fun p => { p with imports := [(0, ⟨5, 6, 0x100, 0x1FF, k⟩)] }) s with keyTags := [(tagKey 0 0, ⟨1, false⟩)] }
theorem test_host_and_peers : [(0, 768 * 2 ^ 30), (1, 2048 * 2 ^ 30), (3, 2 ^ 52)].all (fun (e : Nat × Nat) =>
      nexts (exec (.hostWrite (BitVec.ofNat 2 e.1) (e.2 - 2) [1, 2]) State.reset) && !nexts (exec (.hostWrite (BitVec.ofNat 2 e.1) (e.2 - 1) [1, 2]) State.reset)) = true ∧
    nexts (exec (.mailboxRead 0 63) State.reset) = true ∧
    [false, true].all (fun p => let s := { State.reset with vectors := [(vecKey 24 31, ⟨1, 2, true, p, false, none, 0⟩)] };
      (mget s.vectors (vecKey 24 31)).any (fun y => y.pending == p) && nexts (exec (.msiXUnmask 24 31) s)) = true ∧
    -- tags of the access's frame: its own key, none, another key, aliased
    [([((1 : BitVec 8), false)], 0), ([], 0), ([(2, false)], 1), ([(1, true)], 2)].all (fun (e : List (BitVec 8 × Bool) × Nat) =>
      let s := { withLine 1 State.reset with keyTags := e.1.map fun t => (tagKey 0 0, ⟨t.1, t.2⟩) };
      (importFor s 5 6 0x1FC 4).any fun im => let ts := tagsOf s ⟨tagKey (peerByte 0x1FC).1 (peerByte 0x1FC).2, 1, im.key, none⟩;
        (match e.2 with
          | 0 => ts.all fun y => decide (y.2 = ⟨im.key, false⟩)
          | 1 => (ts.all fun y => !y.2.aliased) && ts.any fun y => decide (y.2.key ≠ im.key)
          | _ => ts.any fun y => y.2.aliased) && (List.range 4).all fun i => !poisoned s (memKey 0 0x1FC + i)) = true ∧
    ((peerRmw 12 7 3).apply 4 3 = some 7 ∧ (peerRmw 12 7 3).apply 4 4 = none ∧ inboundGrid State.reset 0 5 6 = none) ∧
    (poisoned { withLine 1 State.reset with poison := [0x1FC / 64] } (memKey 0 0x1FC + 3)) = true ∧
    ((importFor (withLine 1 State.reset) 5 6 0x1FD 4).isNone ∧ (importFor (withLine 1 State.reset) 5 7 0x100 1).isNone ∧ (importFor State.reset 5 6 0x100 1).isNone) ∧
    (let s := headed { aStore with tier := 3, va := 9 }; (s.team 0 0 0).any fun t => t.loads.isEmpty && (t.storeQ.head?).any fun e => decide (e.va = 9 ∧ e.tier = 3)) = true ∧
    (let s := onTeam (fun t => { t with loads := [loadOf 3 9] }) (spot .team);
      (s.team 0 0 0).any fun t => peerLoad t 9 = some (loadOf 3 9, ⟨3, memKey 3 0, 9, 4⟩)) = true ∧
    -- an acquire from a peer's page as the member of the team
    (let s := withS [(0, 16)] (paged (3 * 2 ^ 9 + leaf0 + 2 ^ 42 - 0x0010000000000000) (placeMember State.reset .team (encode (.ldsExt (.s 3) 0 .vz .d false ⟨.acquire, .device, 0⟩ false))));
      let at_ := memKey 3 (2 ^ 42 + 0x100010) / 64;
      (match translate s 0 0 0 0 .load 16 with
        | .ok 3 a _ => decide (memKey 3 a / 64 = at_)
        | _ => false) && ((issueHere team0 { s with poison := sadd1 s.poison at_ }).any fun u =>
          decide (issueHere team0 s ≠ some { u with poison := sdel1 u.poison at_ }))) = true := by
  decide +kernel

/-- The worked route of R393: 7 hops from slice (1, 0) to core (4, 6), each over a link. -/
theorem test_route : route ⟨1, 0⟩ ⟨4, 6⟩ = [⟨2, 0⟩, ⟨3, 1⟩, ⟨4, 2⟩, ⟨4, 3⟩, ⟨4, 4⟩, ⟨4, 5⟩, ⟨4, 6⟩] ∧
    (dieSites.all fun x => dieSites.all fun y => (route x y).getLast?.getD x = y &&
      ((x :: route x y).zip (route x y)).all fun e => meshLink e.1 e.2) = true := by decide +kernel

/-! ### The step, faults, frames -/

/-- A packet of one `movil v4, 0x8000` runs as a step; a queue's nop, an addi of a core, an event. -/
theorem test_step : (let s := placeMember State.reset .team [0x2C048000, 0, 0];
      decide (s.turn = .party team0) && canIssue s team0 && (s.grid 0).any fun gr => !atEnd s team0 gr && (match fetchPacket s team0 gr with
        | .words ws t => (match decodePacket (pcSlot (t.pcOf team0)) ws with
          | .ok [m] => decide (m.ins = .movil (v 4) 0x8000) && !m.badChain && nexts (step s)
          | _ => false)
        | _ => false)) = true ∧
    (let s := queued (ks []) (spot .team); served s (ks []) && (mget s.queues 0).any fun x => decide (fetchCommand s x (ks []) = .word 0 ∧ decodeCmd 0 0 = some .cmdNop)) = true ∧
    (let s := placeCpc State.reset 0x00100093; (mget s.cpcs 0).any (fun y => !y.stopped && decide (y.trigger ≠ some y.pc)) && nexts (step s) &&
      (match cpcFetch s 0 with
        | some (.word u) => decide (u = 0x00100093)
        | _ => false)) = true ∧
    nexts (step { State.reset with turn := .event (.deviceNumberAssign 3) }) = true ∧
    [(3 : Nat), 31].all (fun k => (decodeTableWord 32 (0x14000000 + k * 65536)).isSome) = true := by decide +kernel

theorem test_reset_inv : Inv State.reset := by
  show State.reset.mem.wf = true
  decide +kernel

/-- A fault of the team: its context's entry is free, or held by a record not disposed of; records are held. -/
theorem test_fault : [(0, [], true), (64, [0], false)].all (fun (e : Nat × NSet × Bool) => let s := onCtx (fun c => { c with fserial := e.1, undisposed := e.2.1 }) (spot .team);
      (mget s.ctxs 0).any fun c => c.heldRecs.isEmpty && decide (c.flg2 ≠ 0) && entryFree c c.fserial == e.2.2) = true ∧
    (let s := spot .team; canIssue s team0 && !(savedStop s 0 0) && (s.grid 0).any fun gr => !hitBrk gr .team (s.pcOf team0)) = true ∧
    (let s := (spot .team).modGrid 0 fun g => { g with brks := [⟨0, 0x1F, true⟩] }; canIssue s team0 && ((s.grid 0).any fun gr => hitBrk gr .team (s.pcOf team0)) &&
      (s.seqOf team0).any fun q => decide (q.passBrk = none)) = true ∧ (spot .team |>.seqOf team0).isSome = true := by
  decide +kernel

def calmB (s : State) : Bool := (s.seqOf team0).any fun q => decide (q.stop = none) && !q.stepping && (mget s.ctxs 0).any fun x => x.replay.isNone
theorem test_frames_of_members : calmB (spot .team) = true ∧ (spot .team).team 0 0 0 ≠ none ∧
    [Instr.iadd .vz (v 1) (r 2), .imad (v 126) (v 1) (v 2) (v 6) 1, .icmp (.p 47) 3 (v 1) (v 2), .sadd (r 31) (r 1) (r 2), .nop, .st (v 3) 0 .vz .w false].all (fun i =>
      can i fun c => nexts (exec i c.pre)) = true ∧ (fieldsOf .nop).srcs = [] ∧
    can .nop (fun c => ((c.pre.team 0 0 0).any fun t => (t.groups.filter fun e => decide (e.1 ≠ c.pc)) = [(mkPc 9 0, 1)])) (onTeam fun t =>
      { t with groups := [(mkPc 0 0, 0xFFFFFFFE), (mkPc 9 0, 1)] }) .team = true := by decide +kernel

def quietB (s : State) : Bool := (mget s.ctxs 0).any fun x => !x.undo && !x.record && x.ulog.isNone && x.arb.isNone && x.trace.isNone
theorem test_memory_frames : [Instr.storePerform team0, .bankAluOperation team0].all (fun i =>
      let s := headed (if i = .storePerform team0 then aStore else { aStore with kind := .bop 0 1 });
      s.live 0 && quietB s && nexts (exec i s) && (s.team 0 0 0).any fun t => t.loads.isEmpty && decide (t.storeQ.length = 1)) = true ∧
    goesQ (.cmdSt 1 0 8) (ks [0x1FFFF0]) (fun s => qOk .store 0x1FFFF8 s) = true := by decide +kernel

/-- The member runs to a next state in which its team does not stand stopped and memory is as before. -/
def runsOn (f : State → State) (i : Instr) : Bool :=
  can i (fun c => match exec i c.pre with
    | .next t => ((t.seqOf team0).any fun q => decide (q.stop = none)) && decide (t.mem = c.pre.mem)
    | _ => false) f .team
theorem test_register_frames : [Instr.bfx (v 3) (v 1) (v 2) false 0 false 0, .bfi (v 3) (v 1) (v 0) true 28 3, .sel (v 3) (v 1) (v 2) pt, .fcls (v 3) (v 1) 0,
      .pfxc (v 3) (v 1) 0 pt, .cvt (v 3) (v 1) 6 0, .fscl (v 3) (v 1) (v 2), .shfl (v 3) (v 1) .lane, .fcmp (.p 4) 1 (v 1) (v 2), .fcmp (.q 4) 1 (r 1) (r 2),
      .plog 1 (.p 1) 0 (.p 2) (.p 3), .plog 1 (.q 1) 0 (.q 2) (.q 3), .scmp (.q 4) 1 (r 1) (r 2), .actm (r 3) .vz 0, .vote (r 3) (v 0) 0 pt,
      .reduce (r 3) (v 1) 0, .rdfirst (r 3) (v 1), .rdlane (r 3) (v 1) (r 0)].all (runsOn id) = true := by decide +kernel

theorem test_memory_kept : [Instr.stExt (v 3) 0 .vz .w false MemExt.plain, .ststr (v 3) 0 .vz .w false MemExt.plain 1, .cpst (v 3) 0 .vz .w false MemExt.plain pt,
      .sts (r 3) 0 .vz .d false, .stsExt (r 3) 0 .vz .d false MemExt.plain, .pmov true (.p 3) 0, .pmovExt true (.p 3) 0 MemExt.plain, .pushm (v 8) 0,
      .bop 0 (r 1) (r 2) false MemExt.plain 0, .pref 0 .vz .w false, .prefExt 0 .vz .w false MemExt.plain, .ld (v 3) 0 .vz .w false,
      .ldExt (v 3) 0 .vz .w false MemExt.plain true, .lds (r 3) 0 .vz .d false, .ldsExt (r 3) 0 .vz .d false MemExt.plain false,
      .ldstr (v 3) 0 .vz .w false MemExt.plain 1, .pmov false (.p 3) 0, .pmovExt false (.p 3) 0 MemExt.plain].all (runsOn (withS [(0, scr)])) = true ∧
    runsOn (onTeam fun t => { t with hsp := 128 }) (.popm (v 8) 0) = true ∧
    [Instr.atom (v 3) 0 .vz .w false MemExt.plain false (v 5) 0, .cas (v 3) 0 .vz .w false MemExt.plain false (v 5) (v 6),
      .atoms (r 3) 0 .vz .d false MemExt.plain true (r 4) 0].all (runsOn (withS [(0, scr)])) = true ∧
    quietB (spot .team) = true := by decide +kernel

/-- A lane load whose second lane is not aligned: the lanes before it have passed. -/
theorem test_lane_later : can (.ld (v 3) 0 (v 1) .w false) (fun c => c.todo.take 2 = [0, 1] ∧
      (c.parkLanes .load 4 4 (c.laneList 0 (v 1) .w false) c.pre).1 = 0 ∧ (c.laneAddr 0 (v 1) .w false 1).toNat % 4 = 1 ∧
      (let z := c.checkLanes .load 4 4 [(0, c.laneAddr 0 (v 1) .w false 0)] c.pre
       z.2.1.isNone && !c.loadWaits z.1 && (z.1.all fun y => !c.laneBad y)) ∧
      failedByte c.seq.wait (c.laneAddr 0 (v 1) .w false 1).toNat 4 = none) (fun s => withV [(1, 1, 1)] (withS [(0, scr)] s)) = true := by decide +kernel

/-- A level with one pending lift of register 7, in slot 1. -/
def lifting (i : Instr) (l : Nat) (got : List Contrib) (s : State) : State :=
  s.modLvl (.block 0 0) fun x => { x with lifts := [⟨7, 1, i, l, got⟩] }
def gives (c : Cx) (i : Instr) (part : Option W64) : Option State := contribute c.pre (ownerAt c.g c.b c.k .block) i ⟨c.b, c.t, part⟩
/-- Register 0 of the level names lane 32. -/
def atLane (s : State) : State := s.modLvl (.block 0 0) fun x => { x with vregs := x.vregs.modify 0 fun _ => ⟨[some 32, some 32, some 32, some 32], 0⟩ }
/-- Parts of a team for a pending lift of its block, of the lane's own team and of another; RDLANE's owner; the lift complete. -/
theorem test_wide_parts : [Instr.vote (.b 7) (v 0) 0 pt, .vote (.b 7) (v 0) 1 pt, .vote (.b 7) (v 0) 3 pt, .rdfirst (.b 7) (v 1), .rdlane (.b 7) (v 1) (.b 0),
      .reduce (.b 7) (v 1) 0].all (fun i => canClose i (fun c => c.sc = .team ∧ (gives c i (some 1)).isSome ∧ c.lanes.head? = some 0 ∧
        c.srcV 1 [0] = .ready ∧ (c.rdS (.b 0)).toNat / c.gr.lrec.team = c.t) (fun c => .ok ((gives c i (some 1)).getD c.pre)) (lifting i 0 [])) = true ∧
    canClose (.rdlane (.b 7) (v 1) (.b 0)) (fun c => (c.rdS (.b 0)).toNat / c.gr.lrec.team ≠ c.t ∧ (gives c (.rdlane (.b 7) (v 1) (.b 0)) none).isSome)
      (fun c => .ok ((gives c (.rdlane (.b 7) (v 1) (.b 0)) none).getD c.pre)) (fun s => atLane (lifting (.rdlane (.b 7) (v 1) (.b 0)) 32 [] s)) = true ∧
    can (.rdlane (.b 7) (v 1) (.b 0)) (fun c => c.sc ≠ .team ∧ (c.slotFor (.b 7)).isSome ∧
      decide ((c.pre.team c.g c.b ((c.rdS (.b 0)).toNat / c.gr.lrec.team)).map (·.detached) = some false)) id .block = true ∧
    can (.rdlane (.b 7) (v 1) (.b 0)) (fun c => c.sc ≠ .team ∧ (c.rdS (.b 0)).toNat = 32 ∧ c.gr.lrec.team * c.gr.lrec.nteam ≤ 32) atLane .block = true ∧
    liveTeams (spot .team) 0 .block 0 = [(0, 0)] := by decide +kernel

/-- A slot of the team's own frame, and one that an inner instance contributes to under ADD. -/
theorem test_frame_writes : can .nop (fun c => (c.frameAt 1).any fun e => ownsFrame c.p e.2 && decide (e.2.mode 3 ≠ 1) && !e.2.sealed && !(c.pre.recordOn c.ctx))
      (withFrame id) .team = true ∧
    can .nop (fun c => (c.frameAt 1).any fun e => !(ownsFrame c.p e.2) && decide (2 ≤ (e.2.mode 3).toNat)) (withFrame fun f =>
      { f with oscope := .block, modes := f.modes.set 3 2 }) .team = true := by decide +kernel

/-- Core 0 with every bin open and every team slot held. -/
def fullBins : AMap Bin := (List.range 16).map fun k => (k, { aBin 1 with entry := 1 })
def fullSlots : AMap Team := (spot .team).teams.flatMap fun e => (List.range 16).map fun k => (tKey 0 0 k, { e.2 with slot := k })
/-- A message to a block of a grid that is not there, one for which no bin is to be had, one of a peer. -/
theorem test_messages : (let m : Msg := { src := team0, lane := 0, pc := 0, grid := 9, blk := 0, entry := 0, size := 32, timeout := 0, words := [0], stamp := 0, dev := none, engine := 0, part := 0 };
      let s := { spot .team with msgs := [(3, m)] };
      !(behindMsg s 3 m) && (s.grid 9).isNone && s.images.isEmpty && nexts (exec (.messageDeposit 3) s) &&
      (let n := { m with grid := 0 }; let u := { spot .team with msgs := [(3, n)], bins := fullBins, teams := fullSlots };
        !(behindMsg u 3 n) && placedBlock u 0 0 && (let z := messageToken (State.receive u 0 0);
          (deposit z.2 0 { g := 0, b := 0, entry := 0, size := 32, timeout := 0, words := [0], tok := some z.1 }).isNone) && nexts (exec (.messageDeposit 3) u)) &&
      (let n := { m with grid := 0, dev := some 5 }; nexts (exec (.messageDeposit 3) { spot .team with msgs := [(3, n)] }))) = true := by decide +kernel

/-! ### Decoding: words of the spec's worked examples, by family -/

def reads (l : List (List W32 × Instr)) : Bool := l.all fun e => decide (decodeWords e.1 = some e.2)

theorem test_decode_control : reads [([0x0139FFFB], .bt .team (.q 3) (-5)), ([0x0142C003], .bt .block (.p 5) 3), ([0x0223FFFC], .jmp .team (-4)),
    ([0x0395A002], .loop .grid (.g 1) 2), ([0x04800000], .endl .grid 0), ([0x05740004], .callFrame .cluster 1 4), ([0x06200000], .ret .team),
    ([0x08280000], .frfence .team 1), ([0x09000000], .exit), ([0x0A060240, 0x7F380000], .spawn (v 6) (v 2) 1 7 0), ([0x0B090A60], .launch 1 4 5 6),
    ([0x0C000009], .waitf 9), ([0x0D000000], .bar 0 0), ([0x0D851000], .barArr 5 2), ([0x0E871D84, 0x7F580000], .waitm (r 7) 3 .vz .w false ⟨.acquire, .device, 0⟩ 0),
    ([0x0F820003], .swi (r 2) 3), ([0x102A0000], .trap 0x2A), ([0x11000000], .brk 0), ([0x12800007], .wmark .grid 7), ([0x12200011], .wmark .team 0x11),
    ([0x1300080F], .pushm (v 8) 15), ([0x1380080F], .popm (v 8) 15)] = true := by decide +kernel

theorem test_decode_frdef : reads [([0x07683C00, 0x7F000449], .frdef .cluster 1 0 0x0F 0x449)] = true := by decide +kernel

theorem test_decode_integer : reads [([0x14050607], .iadd (v 5) (v 6) (v 7)), ([0x140503B1], .iadd (v 5) (v 3) .lane), ([0x19040102, 0x7F030000], .imad (v 4) (v 1) (v 2) (v 3) 0),
    ([0x19040102, 0x7F064000], .imad (v 4) (v 1) (v 2) (v 6) 1), ([0x28050100, 0x7F000A23], .bfx (v 5) (v 1) (v 0) true 8 true 3),
    ([0x2A060102, 0x7F000004], .sel (v 6) (v 1) (v 2) (.p 4)), ([0x2C048000], .movil (v 4) 0x8000), ([0x2D041234], .movih (v 4) 0x1234),
    ([0x2E0E0102], .icmp (.p 3) 2 (v 1) (v 2)), ([0x2FC98183], .ucmp (.q 2) 1 (r 1) (r 3))] = true := by decide +kernel

theorem test_decode_float : reads [([0x30050607], .fadd (v 5) (v 6) (v 7)), ([0x32050607], .fmul (v 5) (v 6) (v 7)), ([0x33040102, 0x7F030000], .ffma (v 4) (v 1) (v 2) (v 3) false false),
    ([0x33040102, 0x7F034000], .ffma (v 4) (v 1) (v 2) (v 3) false true), ([0x36090102], .fcmp (.p 2) 1 (v 1) (v 2)), ([0x39020900], .fsqrt (v 2) (v 9)),
    ([0x3C030102], .hadd2 (v 3) (v 1) (v 2)), ([0x3F030103], .cvt (v 3) (v 1) 0 3), ([0x41020104], .frnd (v 2) (v 1) 4), ([0x43070102], .fcls (v 7) (v 1) 2)] = true := by
  decide +kernel

theorem test_decode_scalar : reads [([0x44A200C3], .vote (.b 2) (v 0) 3 (.p 3)), ([0x49840909], .reduce (r 4) (v 9) 9), ([0x4A717233], .plog 1 (.q 1) 1 (.q 2) (.q 3)),
    ([0x4C828283], .sadd (r 2) (r 2) (r 3)), ([0x4C81D382], .sadd (r 1) (.frame 1 3) (r 2)), ([0x55AD0003], .smovi (.g 1) 3),
    ([0x56848401, 0x7F012345], .smovx (r 4) (r 4) 1 0x012345), ([0x57C6A0AE], .scmp (.q 1) 2 (.b 0) (.g 2))] = true := by decide +kernel

theorem test_decode_memory : reads [([0x5802201D, 0x7F580000], .ldExt (v 2) 4 (v 3) .w true ⟨.acquire, .device, 0⟩ false), ([0x5801101D], .ld (v 1) 2 (v 3) .w true),
    ([0x58060813, 0x7F180001], .ldExt (v 6) 1 (v 2) .h true ⟨.relaxed, .device, 0⟩ true), ([0x5907202D, 0x7F980000], .stExt (v 7) 4 (v 5) .w true ⟨.release, .device, 0⟩),
    ([0x5A833586], .lds (r 3) 6 .vz .d false), ([0x5C08100D, 0x7F180003], .ldstr (v 8) 2 (v 1) .w true ⟨.relaxed, .device, 0⟩ 3),
    ([0x5E022D84, 0x7F180003], .cpst (v 2) 5 .vz .w false ⟨.relaxed, .device, 0⟩ (.p 3)), ([0x5F833000], .pmov true (.p 3) 6),
    ([0x61B01815, 0x7F180500], .atom .vz 3 (v 2) .w true ⟨.relaxed, .device, 0⟩ false (v 5) 0), ([0x61012584, 0x7F180208], .atom (v 1) 4 .vz .w false ⟨.relaxed, .device, 0⟩ false (v 2) 8),
    ([0x6206100D, 0x7FD80708], .cas (v 6) 2 (v 1) .w true ⟨.acqRel, .device, 0⟩ false (v 7) (v 8)),
    ([0x63853586, 0x7F188700], .atoms (r 5) 6 .vz .d false ⟨.relaxed, .device, 0⟩ false (r 7) 0), ([0x64180000], .fence 0 .device), ([0x64880000], .fence 2 .block),
    ([0x65243438, 0x7F180000], .bop 4 (r 6) (r 7) false ⟨.relaxed, .device, 0⟩ 0), ([0x66292184, 0x7F180000], .copy 5 4 (r 6) 1 ⟨.relaxed, .device, 0⟩),
    ([0x67290E40, 0x7F080000], .copyt 5 4 7 2 ⟨.relaxed, .block, 0⟩), ([0x68000000], .rcfence), ([0x69040508, 0x7F981001], .amsg (v 4) (v 5) (v 8) ⟨.release, .device, 0⟩ 1 0 1)]
    = true := by decide +kernel

theorem test_decode_matrix_system : reads [([0x70201020], .mma 4 0 (v 16) (v 32)), ([0x71001020, 0x7F283032], .mmaq 0 (v 16) (v 32) 1 2 (v 48) (v 50)),
    ([0x72001020, 0x7F080000], .mmasp 0 0 (v 16) (v 32) (v 8)), ([0x7301C000], .aclr 0 7), ([0x74129C28], .ard 2 1 2 7 (v 40)), ([0x76180900], .ascl 3 (v 9)),
    ([0x78830010], .csrr (r 3) 1), ([0x79820010], .csrw (r 2) 1), ([0x7A850001], .clkr (r 5) 1), ([0x7B830042], .mark (r 3) 0x42), ([0x7C860012], .pcnt (r 6) 0x12)] = true := by
  decide +kernel

/-- The words that the spec's table of faulting packets names: none decodes. -/
theorem test_decode_refused : ([[0x00000001], [0x7F580000], [0x71000000], [0x6A000000], [0x01A00005]] : List (List W32)).all (fun l => (decodeWords l).isNone) = true := by
  decide +kernel

theorem test_decode_queue_and_core : decodeCpc 0x0005E50B = .kroll 0 11 10 ∧ decodeCmd 0x1110000000000001 0 = some (.signalAdd 1 0) := by decide +kernel

theorem test_decode_launch_command : decodeCmd 0x1312300000000024 0 = some (.cmdLaunch 1 2 3 4 2) := by decide +kernel

/-! ### Results that the spec works out -/

/-- Lane register n of lane l after a member. -/
def laneAfter (i : Instr) (n : Nat) (f : State → State) (l : Nat := 0) : Option W32 := match exec i (f (spot .team)) with
  | .next t => some (laneReg t 0 0 0 n l)
  | _ => none
def scalAfter (i : Instr) (n : Nat) (f : State → State) : Option W64 := match exec i (f (spot .team)) with
  | .next t => some (scalReg t 0 0 0 n)
  | _ => none

/-- The rows of the integer table for A = 0x80000000 and B = 0xFFFFFFFF. -/
theorem test_integer_results : ([(Instr.iadd (v 4) (v 1) (v 2), 0x7FFFFFFF), (.isub (v 4) (v 1) (v 2), 0x80000001), (.imul (v 4) (v 1) (v 2), 0x80000000),
      (.imulhs (v 4) (v 1) (v 2), 0), (.imulhu (v 4) (v 1) (v 2), 0x7FFFFFFF), (.imin (v 4) (v 1) (v 2), 0x80000000), (.imax (v 4) (v 1) (v 2), 0xFFFFFFFF),
      (.umin (v 4) (v 1) (v 2), 0x80000000), (.umax (v 4) (v 1) (v 2), 0xFFFFFFFF), (.iabs (v 4) (v 1), 0x80000000), (.iadds (v 4) (v 1) (v 2), 0x80000000),
      (.and (v 4) (v 1) (v 2), 0x80000000), (.or (v 4) (v 1) (v 2), 0xFFFFFFFF), (.xor (v 4) (v 1) (v 2), 0x7FFFFFFF), (.shl (v 4) (v 1) (v 2), 0),
      (.shr (v 4) (v 1) (v 2), 1), (.sar (v 4) (v 1) (v 2), 0xFFFFFFFF)] : List (Instr × W32)).all (fun e =>
        laneAfter e.1 4 (withV [(1, 0, 0x80000000), (2, 0, 0xFFFFFFFF)]) == some e.2) = true ∧
    laneAfter (.imad (v 4) (v 1) (v 2) (v 6) 1) 4 (withV [(1, 0, 0xFFFFFFFF), (2, 0, 3), (6, 0, 10)]) = some 7 ∧
    laneAfter (.bfx (v 5) (v 1) (v 0) true 8 true 3) 5 (withV [(1, 0, 0xA50)]) = some 0xFFFFFFFA ∧
    laneAfter (.bfi (v 5) (v 2) (v 0) true 28 3) 5 (withV [(5, 0, 0xFFFFFFFA), (2, 0, 9)]) = some 0x9FFFFFFA ∧
    laneAfter (.movil (v 4) 0x8000) 4 id = some 0xFFFF8000 := by decide +kernel

theorem test_float_results : laneAfter (.fadd (v 4) (v 1) (v 2)) 4 (withV [(1, 0, 0x3F800000), (2, 0, 0x33800000)]) = some 0x3F800000 ∧
    laneAfter (.fadd (v 4) (v 1) (v 2)) 4 (fun s => withV [(1, 0, 0x3F800000), (2, 0, 0x33800000)] (onTeam (fun t => { t with fpc := 3 }) s)) = some 0x3F800001 ∧
    laneAfter (.ffma (v 4) (v 1) (v 2) (v 3) false false) 4 (withV [(1, 0, 0x3F800800), (2, 0, 0x3F800800), (3, 0, 0xBF800000)]) = some 0x3A000400 ∧
    laneAfter (.hadd2 (v 3) (v 1) (v 2)) 3 (withV [(1, 0, 0x3C003E00), (2, 0, 0x40003800)]) = some 0x42004000 ∧
    laneAfter (.cvt (v 3) (v 1) 0 3) 3 (withV [(1, 0, 0x3DCCCCCD), (3, 0, 0x12345678)]) = some 0x12343DCD ∧
    laneAfter (.fcls (v 7) (v 1) 2) 7 (withV [(1, 0, 0x7C010000)]) = some 0x100 := by decide +kernel

theorem test_scalar_results : scalAfter (.actm (r 5) (v 0) 1) 5 (fun s => onTeam (fun t => { t with groups := [(0, 0x00FF0000)] }) s) = some 1 ∧
    scalAfter (.actm (r 5) (v 0) 2) 5 (fun s => onTeam (fun t => { t with groups := [(0, 0x00FF0000)] }) s) = some 8 ∧
    scalAfter (.smovx (r 4) (r 4) 1 0x012345) 4 (withS [(4, 0x6789AB)]) = some 0x00000123456789AB := by decide +kernel

/-! ### Well-formedness: each check refuses a term -/

abbrev rel : MemExt := ⟨.release, .device, 0⟩
abbrev acq : MemExt := ⟨.acquire, .device, 0⟩

theorem test_wf_control : ([.loop .lane (r 1) 1, .endl .lane 0, .call .lane 0, .callFrame .lane 1 0, .callFrame .team 0 0, .ret .lane, .frdef .lane 1 0 0 0,
    .frdef .team 1 0 1 7, .frdef .team 1 0 0 1, .frfence .lane 1, .wmark .lane 0, .waitf 0, .bar 96 0, .bar 0 17, .barArr 96 1, .barArr 0 17, .barArr 0 0,
    .waitm (r 7) 3 .vz .h false MemExt.plain 0, .waitm (r 7) 3 .vz .w true MemExt.plain 0, .waitm (r 7) 3 .vz .w false rel 0,
    .waitm (r 7) 3 .vz .w false MemExt.plain 6] : List Instr).all (fun i => !i.wf) = true := by decide +kernel

theorem test_wf_lanes : ([.imad (v 4) (v 1) (v 2) (v 3) 3, .bfx (v 4) (v 1) (v 1) true 0 false 0, .bfx (v 4) (v 1) (v 1) false 1 false 0, .bfi (v 4) (v 1) (v 1) true 0 0,
    .bfi (v 4) (v 1) (v 1) false 1 0, .cvt (v 3) (v 1) 7 0, .cvt (v 3) (v 1) 0 7, .cvtq (v 3) (v 1) (v 2) 0 3 0, .frnd (v 3) (v 1) 5, .fcls (v 3) (v 1) 5,
    .vote (r 5) (v 1) 0 (.p 3), .pfxc (v 3) (v 1) 2 (.p 2), .reduce (r 5) (v 1) 12, .plog 0 (.p 1) 1 (.p 2) (.p 3), .actm (r 5) (v 0) 3, .actm (r 5) (v 1) 1,
    .smovx (r 3) .vz 3 0, .smovx (r 3) .vz 2 0x10000] : List Instr).all (fun i => !i.wf) = true := by decide +kernel

theorem test_wf_memory : ([.ldExt (v 3) 0 .vz .w false rel false, .ldExt (v 3) 0 .vz .d false MemExt.plain true, .ldsExt (r 3) 0 .vz .w false rel false,
    .ldsExt (r 3) 0 .vz .d false MemExt.plain true, .stExt (v 3) 0 .vz .w false acq, .stsExt (r 3) 0 .vz .w false acq, .ldstr (v 3) 0 .vz .h false MemExt.plain 0,
    .ldstr (v 3) 0 .vz .w false rel 0, .ststr (v 3) 0 .vz .b false MemExt.plain 0, .ststr (v 3) 0 .vz .w false acq 0, .cpst (v 3) 0 .vz .w false acq (.p 0),
    .pmovExt true (.p 3) 0 acq, .pmovExt false (.p 3) 0 rel, .prefExt 0 .vz .w false acq, .atom (v 3) 0 .vz .h false MemExt.plain false (v 5) 0,
    .atom (v 3) 0 .vz .d false MemExt.plain false (v 5) 9, .atom (v 3) 0 .vz .w false MemExt.plain false (v 5) 12, .cas (v 3) 0 .vz .b false MemExt.plain false (v 5) (v 6),
    .atoms (r 3) 0 .vz .h false MemExt.plain false (r 4) 0, .atoms (r 3) 0 .vz .w false MemExt.plain false (r 4) 13, .bop 0 (r 1) (r 2) false acq 0,
    .bop 0 (r 1) (r 2) true MemExt.plain 9, .copy 0 1 (r 2) 12 MemExt.plain, .copy 0 1 (r 2) 3 acq, .copyt 0 1 2 12 MemExt.plain, .copyt 0 1 2 3 acq,
    .amsg .vz .vz (v 1) acq 0 0 0, .amsg .vz .vz (v 1) ⟨.relaxed, .team, 0⟩ 0 0 0, .amsg .vz .vz (v 1) ⟨.relaxed, .system, 0⟩ 0 0 0, .ard 0 3 0 0 (v 1),
    .awr 0 3 0 0 (v 1), .clkr (r 5) 2] : List Instr).all (fun i => !i.wf) = true := by decide +kernel

end Sys2Proof.Tests
end

/-! ## O42: a CPC core runs its program, traps, or fails over to the substitute -/

section
namespace Sys2Proof.Machine

/-! ### The core whose turn it is -/

theorem withCpc_of_cpcTurn {s : State} {n : Nat} {x : Cpc} (h : cpcTurn s n x) (f : Nat → Cpc → Out) :
    withCpc s f = f n x := by
  obtain ⟨hturn, hget, hrun⟩ := h
  simp [withCpc, hturn, hget, hrun]

theorem exec_cpcCoreInstruction_of_cpcTurn {s : State} {n : Nat} {x : Cpc} (h : cpcTurn s n x) (w : BitVec 32) :
    exec (.cpcCoreInstruction w) s = cpcDone s n x (rvWord x n s.clk w.toNat) :=
  withCpc_of_cpcTurn h _

theorem exec_eccInjection_of_lt (s : State) {n a : Nat} (hn : n < 8) (ha : a < imemBytes) :
    exec (.eccInjection n a) s = .next (s.modCpc n fun z => { z with badWord := some (a / 4 * 4) }) := by
  have hexec : exec (.eccInjection n a) s = execEccInjection n a s := rfl
  rw [hexec, execEccInjection, if_pos ⟨hn, ha⟩, happens]

/-! ### A core that stops with the hardware error trap (R376) -/

/-- The core after the hardware error trap of R376. -/
def Cpc.hardStop (x : Cpc) : Cpc :=
  { x with stopped := true, hardTrap := true, mcause := 19, mepc := x.pc, badWord := none }

/-- The queues that a core owns. -/
def queuesOf (s : State) (n : Nat) : List Nat := (s.queues.filter fun e => decide (e.2.core = n)).map (·.1)

/-- The state in which the registrar finds a scheduler core that took the hardware error trap: the core is stopped and its
queues are held. -/
def stopAndHold (s : State) (n : Nat) : State :=
  (queuesOf s n).foldl (fun s q => s.modQueue q fun y => { y with held := true }) (s.modCpc n Cpc.hardStop)

/-- The queues that a core owned, given to the substitute, core 6. -/
def giveToSubstitute (s : State) (n : Nat) : State :=
  (queuesOf s n).foldl (fun s q => s.modQueue q fun y => { y with core := 6 }) (stopAndHold s n)

/-- The substitute starts at the adoption entry for core n, with a mask of queues at an address of its data SRAM, unless it
failed itself. -/
def Cpc.startAdoption (n at_ mask : Nat) (entry : W64) (y : Cpc) : Cpc :=
  if y.hardTrap then y else
    { (y.put 10 (BitVec.ofNat 64 n)).put 11 (BitVec.ofNat 64 at_) with
      pc := entry, stopped := false, dmem := writeNat y.dmem at_ 128 mask }

/-- The fail-over of a scheduler core (R376). -/
def failOver (s : State) (n : Nat) : State :=
  let u := giveToSubstitute s n
  u.draw.2.modCpc 6 (Cpc.startAdoption n (u.draw.1 % (dmemBytes / 8 - 16) * 8) ((queuesOf s n).map fun q => 2 ^ q).sum
    ((u.reg.firmware.map (·.adopt)).getD 0))

theorem foldQueues_reg (l : List Nat) (f : Queue → Queue) (s : State) :
    (l.foldl (fun s q => s.modQueue q f) s).reg = s.reg := by
  obtain ⟨qs, h⟩ := foldQueues_shape l f s
  rw [h]

@[simp] theorem stopAndHold_mem (s : State) (n : Nat) : (stopAndHold s n).mem = s.mem := foldQueues_mem _ _ _
@[simp] theorem stopAndHold_reg (s : State) (n : Nat) : (stopAndHold s n).reg = s.reg := foldQueues_reg _ _ _
@[simp] theorem stopAndHold_cpcs (s : State) (n : Nat) : (stopAndHold s n).cpcs = mmod s.cpcs n Cpc.hardStop :=
  foldQueues_cpcs _ _ _

theorem failOver_mem (s : State) (n : Nat) : (failOver s n).mem = s.mem :=
  (foldQueues_mem _ _ _).trans (stopAndHold_mem s n)

/-- Of the cores other than the substitute, the fail-over changes only the failed one. -/
theorem mget_failOver_cpcs (s : State) {n k : Nat} (hk : k ≠ 6) :
    mget (failOver s n).cpcs k = mget (mmod s.cpcs n Cpc.hardStop) k := by
  rw [failOver, State.modCpc_cpcs, mget_mmod_ne _ _ hk, State.draw, giveToSubstitute, foldQueues_cpcs, stopAndHold_cpcs]

section
variable {s : State} {n : Nat} {x : Cpc} (hget : mget s.cpcs n = some x) (hrun : x.stopped = false)
include hget hrun

theorem exec_cpcImemUncorrectable_registrar (hn : n = 7) :
    exec (.cpcImemUncorrectable n) s = .next (deviceError (s.modCpc n Cpc.hardStop) 9) := by
  have hexec : exec (.cpcImemUncorrectable n) s = execCpcImemUncorrectable n s := rfl
  rw [hexec, execCpcImemUncorrectable, hget, Option.bind_some, hrun, if_neg Bool.false_ne_true, if_pos hn]
  rfl

theorem exec_cpcImemUncorrectable_substitute (hn : n = 6) :
    exec (.cpcImemUncorrectable n) s = .next (deviceError (stopAndHold s n) 8) := by
  have hexec : exec (.cpcImemUncorrectable n) s = execCpcImemUncorrectable n s := rfl
  rw [hexec, execCpcImemUncorrectable, hget, Option.bind_some, hrun, if_neg Bool.false_ne_true, if_neg (by omega), if_pos hn]
  rfl

theorem exec_cpcImemUncorrectable_scheduler (hn : n < 6) :
    exec (.cpcImemUncorrectable n) s = .next (failOver s n) := by
  have hexec : exec (.cpcImemUncorrectable n) s = execCpcImemUncorrectable n s := rfl
  rw [hexec, execCpcImemUncorrectable, hget, Option.bind_some, hrun, if_neg Bool.false_ne_true, if_neg (by omega),
    if_neg (by omega)]
  rfl

/-- A failed substitute or registrar puts the device in error from a state with the core stopped. -/
theorem exec_cpcImemUncorrectable_deviceError (hn : n = 6 ∨ n = 7) :
    ∃ u, exec (.cpcImemUncorrectable n) s = .next (deviceError u (if n = 7 then 9 else 8)) ∧ u.reg = s.reg ∧ u.mem = s.mem := by
  rcases hn with h6 | h7
  · exact ⟨_, by rw [exec_cpcImemUncorrectable_substitute hget hrun h6, if_neg (by omega)], by simp, by simp⟩
  · exact ⟨_, by rw [exec_cpcImemUncorrectable_registrar hget hrun h7, if_pos h7], by simp, by simp⟩

theorem cpcImemUncorrectable_fails_device (hdead : s.reg.isDead = false) (hn : n = 6 ∨ n = 7) :
    ∃ t, exec (.cpcImemUncorrectable n) s = .next t ∧ t.reg.ready.error = (if n = 7 then 9 else 8) ∧
      t.reg.isReady = false ∧ (∀ m z, mget t.cpcs m = some z → m < 7 → z.stopped = true) ∧
      (∀ q z, mget t.queues q = some z → z.held = true) ∧ t.mem = s.mem := by
  obtain ⟨u, hexec, hreg, hmem⟩ := exec_cpcImemUncorrectable_deviceError hget hrun hn
  have hcode : BitVec.ofNat 8 (if n = 7 then 9 else 8) ≠ 0 := by split <;> decide
  obtain ⟨herror, hready, hcores, hqueues, hkeep⟩ := deviceError_facts u _ hcode
  have hlive : u.reg.ready.error ≠ 9 := by rw [hreg]; exact of_decide_eq_false hdead
  rw [if_neg hlive, apply_ite (BitVec.ofNat 8)] at herror
  exact ⟨_, hexec, herror, hready, hcores, hqueues, hkeep.trans hmem⟩

theorem cpcImemUncorrectable_stops_scheduler (hn : n < 6) :
    ∃ t, exec (.cpcImemUncorrectable n) s = .next t ∧ mget t.cpcs n = some x.hardStop ∧ t.mem = s.mem := by
  refine ⟨failOver s n, exec_cpcImemUncorrectable_scheduler hget hrun hn, ?_, failOver_mem s n⟩
  rw [mget_failOver_cpcs s (by omega), mget_mmod_self, hget, Option.map_some]

end

/-- Settles O42: the turn's core runs what `rvWord` says, and the three places of a core that fails (scheduler, substitute,
registrar) have a lemma each. -/
theorem cpcCores : Obligations.CpcCores := by
  intro s n a x y w c v
  refine ⟨?result, ?trap, exec_eccInjection_of_lt s, cpcImemUncorrectable_fails_device, ?scheduler⟩
  case result =>
    intro hturn hword
    rw [exec_cpcCoreInstruction_of_cpcTurn hturn, hword, cpcDone]
  case trap =>
    intro hturn hword
    rw [exec_cpcCoreInstruction_of_cpcTurn hturn, hword, cpcDone]
  case scheduler =>
    intro hget hrun hn
    obtain ⟨t, hexec, hcore, hmem⟩ := cpcImemUncorrectable_stops_scheduler hget hrun hn
    exact ⟨t, x.hardStop, hexec, hcore, rfl, rfl, rfl, rfl, hmem⟩

end Sys2Proof.Machine
end

/-! ## O50, O52, O49: the encoder and the decoders agree bit by bit -/

section
namespace Sys2Proof
open Machine

/-! ### Field codes: what a code reads as, and what it came from (R1, R57, R59, R60) -/

@[simp] theorem Operand.ofByte_toByte (o : Operand) : Operand.ofByte o.toByte = o := by
  cases o with
  | v n | s n | b n | c n | g n => revert n; decide
  | frame l k => revert l k; decide
  | _ => rfl

@[simp] theorem Operand.toByte_ofByte (x : Byte) : (Operand.ofByte x).toByte = x := by revert x; decide

@[simp] theorem PredSel.ofCode_code (p : PredSel) : PredSel.ofCode p.code = p := by
  cases p with
  | p n | q n => revert n; decide

@[simp] theorem PredSel.code_ofCode (x : BitVec 6) : (PredSel.ofCode x).code = x := by revert x; decide

@[simp] theorem Scope.ofCode_code (s : Scope) : Scope.ofCode s.code = some s := by cases s <;> rfl
@[simp] theorem Size.ofCode_code (z : Size) : Size.ofCode z.code = z := by cases z <;> rfl
@[simp] theorem Size.code_ofCode (x : BitVec 2) : (Size.ofCode x).code = x := by revert x; decide
@[simp] theorem Order.ofCode_code (o : Order) : Order.ofCode o.code = o := by cases o <;> rfl
@[simp] theorem Order.code_ofCode (x : BitVec 2) : (Order.ofCode x).code = x := by revert x; decide
@[simp] theorem MScope.ofCode_code (m : MScope) : MScope.ofCode m.code = some m := by cases m <;> rfl

theorem Scope.ofCode_eq_some_iff {x : BitVec 3} {s : Scope} : Scope.ofCode x = some s ↔ s.code = x := by
  revert x
  cases s <;> decide

theorem MScope.ofCode_eq_some_iff {x : BitVec 3} {m : MScope} : MScope.ofCode x = some m ↔ m.code = x := by
  revert x
  cases m <;> decide

theorem flag_bit1 (b : Bool) {n : Nat} (h : n = 0) : flag (bit1 b) n = b := by
  subst h
  cases b <;> rfl

/-! ### Fields of words put together (R2) -/

section
variable {u v n k : Nat}

theorem fld_full (x : BitVec u) (h : n = 0) : fld x n u = x := by
  subst h
  exact BitVec.extractLsb'_eq_self

theorem fld_self (x : BitVec u) : fld x 0 u = x := fld_full x rfl

theorem fld_append_low (x : BitVec u) (y : BitVec v) (h : n + k ≤ v) : fld (x ++ y) n k = fld y n k :=
  BitVec.extractLsb'_append_eq_of_add_le h

theorem fld_append_high (x : BitVec u) (y : BitVec v) (h : v ≤ n) : fld (x ++ y) n k = fld x (n - v) k :=
  BitVec.extractLsb'_append_eq_of_le h

theorem flag_append_low (x : BitVec u) (y : BitVec v) (h : n < v) : flag (x ++ y) n = flag y n := by
  simp [BitVec.getLsbD_append, h]

theorem flag_append_high (x : BitVec u) (y : BitVec v) (h : v ≤ n) : flag (x ++ y) n = flag x (n - v) := by
  simp [BitVec.getLsbD_append, Nat.not_lt.2 h]

theorem append_eq_fld {x : BitVec u} {y : BitVec v} {w : BitVec n} (hx : x = fld w (k + v) u) (hy : y = fld w k v) :
    x ++ y = fld w k (u + v) := by
  rw [hx, hy]
  exact BitVec.extractLsb'_append_extractLsb'_eq_extractLsb' rfl

theorem fld_one (w : BitVec n) : fld w k 1 = bit1 (flag w k) := by
  refine BitVec.eq_of_getLsbD_eq fun i hi => ?_
  obtain rfl : i = 0 := by omega
  rw [BitVec.getLsbD_extractLsb']
  exact (flag_bit1 _ rfl).symm

end

theorem majorOf_wordOf (m : BitVec 7) (p : BitVec 24) : majorOf (wordOf m p) = m := by
  unfold majorOf wordOf
  rw [fld_append_high _ _ (by decide), fld_append_low _ _ (by decide), fld_self]

/-- A word with chain bit 0 is its major and its payload. -/
theorem wordOf_eq {w : W32} {m : BitVec 7} {p : BitVec 24} (hc : chainBit w = false) (hm : majorOf w = m)
    (hp : p = fld w 0 24) : wordOf m p = w := by
  have h0 : 0#1 = fld w 31 1 := by rw [fld_one, show flag w 31 = false from hc]; rfl
  have h : wordOf m p = fld w 0 32 := append_eq_fld (append_eq_fld h0 hm.symm) hp
  rw [h, fld_self]

/-! ### Which decoder reads a word -/

section
variable {m : BitVec 7} (p : BitVec 24)

theorem decodeControl_wordOf_eq_none (h : 0x13 < m.toNat ∧ m.toNat < 0x64 ∨ 0x68 < m.toNat ∧ m.toNat < 0x78) :
    decodeControl (wordOf m p) = none := by
  rw [decodeControl, majorOf_wordOf]
  split <;> simp_all

theorem decodeAlu_wordOf_eq_none (h : 0x57 < m.toNat) : decodeAlu (wordOf m p) = none := by
  rw [decodeAlu, majorOf_wordOf]
  split <;> simp_all

theorem decodeMem_wordOf_eq_none (h : 0x60 < m.toNat) : decodeMem (wordOf m p) = none := by
  rw [decodeMem, majorOf_wordOf]
  split <;> simp_all

theorem decodeOwnExt_wordOf_eq_none (h : m = 0x0E ∨ 0x56 < m.toNat ∧ m.toNat < 0x71) (x : BitVec 24) :
    decodeOwnExt (wordOf m p) x = none := by
  rw [decodeOwnExt, majorOf_wordOf]
  split <;> simp_all

theorem decodeWords_wordOf (h : extUse m ≠ .always) : decodeWords [wordOf m p] = decodeMember (wordOf m p) none := by
  rw [decodeWords, majorOf_wordOf, if_neg h]

theorem decodeWords_extWord (h : extUse m ≠ .never) (x : BitVec 24) :
    decodeWords [wordOf m p, extWord x] = decodeMember (wordOf m p) (some x) := by
  have hx : fld (extWord x) 0 24 = x := (fld_append_low _ _ le_rfl).trans (fld_self x)
  rw [decodeWords, majorOf_wordOf, majorOf_wordOf, if_pos ⟨rfl, h⟩, hx]

end

section
variable {m : BitVec 7} {p x : BitVec 24} {i : Instr}

theorem decodeWords_of_control (hm : extUse m ≠ .always) (h : decodeControl (wordOf m p) = some i) :
    decodeWords [wordOf m p] = some i := by
  rw [decodeWords_wordOf p hm, decodeMember, h, Option.some_or]

theorem decodeWords_of_alu (hm : extUse m ≠ .always ∧ 0x13 < m.toNat ∧ m.toNat < 0x64)
    (h : decodeAlu (wordOf m p) = some i) : decodeWords [wordOf m p] = some i := by
  rw [decodeWords_wordOf p hm.1, decodeMember, decodeControl_wordOf_eq_none p (.inl hm.2), h, Option.none_or, Option.some_or]

theorem decodeWords_of_mem (hm : extUse m ≠ .always ∧ 0x57 < m.toNat ∧ m.toNat < 0x64)
    (h : decodeMem (wordOf m p) = some i) : decodeWords [wordOf m p] = some i := by
  rw [decodeWords_wordOf p hm.1, decodeMember, decodeControl_wordOf_eq_none p (.inl ⟨by omega, hm.2.2⟩),
    decodeAlu_wordOf_eq_none p hm.2.1, h, Option.none_or, Option.none_or, Option.some_or]

theorem decodeWords_of_matrix (hm : extUse m ≠ .always ∧ 0x68 < m.toNat ∧ m.toNat < 0x78)
    (h : decodeMatrix (wordOf m p) = some i) : decodeWords [wordOf m p] = some i := by
  rw [decodeWords_wordOf p hm.1, decodeMember, decodeControl_wordOf_eq_none p (.inr hm.2),
    decodeAlu_wordOf_eq_none p (by omega), decodeMem_wordOf_eq_none p (by omega), h, Option.none_or, Option.none_or,
    Option.none_or]

theorem decodeWords_of_ownExt (hm : extUse m ≠ .never) (h : decodeOwnExt (wordOf m p) x = some i) :
    decodeWords [wordOf m p, extWord x] = some i := by
  rw [decodeWords_extWord p hm, decodeMember, h, Option.some_or]

theorem decodeWords_of_memExt (hm : extUse m ≠ .never ∧ (m = 0x0E ∨ 0x56 < m.toNat ∧ m.toNat < 0x71))
    (h : decodeMemExt (wordOf m p) x = some i) : decodeWords [wordOf m p, extWord x] = some i := by
  rw [decodeWords_extWord p hm.1, decodeMember, decodeOwnExt_wordOf_eq_none p hm.2, h, Option.none_or]

end

/-! ### Each pipe's members decode back -/

theorem memExt_append (x : MemExt) (own : BitVec 17) :
    memExt (x.order.code ++ x.ms.code ++ x.policy ++ own : BitVec 24) = some x := by
  simp (disch := decide) only [memExt, fld_append_low, fld_append_high, fld_full, MScope.ofCode_code,
    Order.ofCode_code, Option.map_some]

theorem decodeWords_encode_scalar {i : Instr} (h : pipeOf i = some .S) : decodeWords (encode i) = some i := by
  cases i with
  | sadd | ssub | smul | sand | sor | sxor | sshl | sshr | smovi | scmp =>
    refine decodeWords_of_alu (by decide) ?_
    rw [decodeAlu, majorOf_wordOf]
    show some _ = _
    simp (disch := decide) only [opnd, fld_append_low, fld_append_high, fld_full, Operand.ofByte_toByte, PredSel.ofCode_code]
  | smov =>
    refine decodeWords_of_alu (by decide) ?_
    rw [decodeAlu, majorOf_wordOf]
    show (if _ then _ else _) = _
    simp (disch := decide) only [opnd, fld_append_low, fld_append_high, fld_full, Operand.ofByte_toByte]
    rfl
  | smovx =>
    refine decodeWords_of_ownExt (by decide) ?_
    rw [decodeOwnExt, majorOf_wordOf]
    show (if _ then _ else _) = _
    simp (disch := decide) only [opnd, fld_append_low, fld_append_high, fld_full, Operand.ofByte_toByte]
    rfl
  | _ => nomatch h

theorem decodeWords_encode_vector {i : Instr} (h : pipeOf i = some .V) : decodeWords (encode i) = some i := by
  cases i with
  | iadd | isub | imul | imulhs | imulhu | imin | imax | umin | umax | iadds | and | or | xor | shl | shr | sar | movil
  | movih | icmp | ucmp | fadd | fsub | fmul | fmin | fmax | fcmp | hadd2 | hmul2 | cvt | frnd | fscl | fcls | vote | pfxc | shfl
  | rdlane | reduce | actm =>
    refine decodeWords_of_alu (by decide) ?_
    rw [decodeAlu, majorOf_wordOf]
    show some _ = _
    simp (disch := decide) only [opnd, fld_append_low, fld_append_high, fld_full, Operand.ofByte_toByte, PredSel.ofCode_code]
  | iabs | popc | clz | mov | frcp | frsq | fsqrt | fex2 | flg2 | rdfirst | plog =>
    refine decodeWords_of_alu (by decide) ?_
    rw [decodeAlu, majorOf_wordOf]
    show (if _ then _ else _) = _
    simp (disch := decide) only [opnd, fld_append_low, fld_append_high, fld_full, Operand.ofByte_toByte, PredSel.ofCode_code]
    rfl
  | imad | bfx | bfi | sel | ffma | hfma2 | cvtq =>
    refine decodeWords_of_ownExt (by decide) ?_
    rw [decodeOwnExt, majorOf_wordOf]
    show (if _ then _ else _) = _
    simp (disch := decide) only [opnd, fld_append_low, fld_append_high, fld_full, flag_append_low, flag_append_high,
      Operand.ofByte_toByte, PredSel.ofCode_code, flag_bit1]
    rfl
  | _ => nomatch h

theorem decodeWords_encode_matrix {i : Instr} (h : pipeOf i = some .X) : decodeWords (encode i) = some i := by
  cases i with
  | mma =>
    refine decodeWords_of_matrix (by decide) ?_
    rw [decodeMatrix, majorOf_wordOf]
    show some _ = _
    simp (disch := decide) only [opnd, fld_append_low, fld_append_high, fld_full, Operand.ofByte_toByte]
  | aclr | ard | awr | ascl =>
    refine decodeWords_of_matrix (by decide) ?_
    rw [decodeMatrix, majorOf_wordOf]
    show (if _ then _ else _) = _
    simp (disch := decide) only [opnd, fld_append_low, fld_append_high, fld_full, Operand.ofByte_toByte]
    rfl
  | mmaq | mmasp =>
    refine decodeWords_of_ownExt (by decide) ?_
    rw [decodeOwnExt, majorOf_wordOf]
    show (if _ then _ else _) = _
    simp (disch := decide) only [opnd, fld_append_low, fld_append_high, fld_full, Operand.ofByte_toByte]
    rfl
  | _ => nomatch h

theorem decodeWords_encode_memory {i : Instr} (h : pipeOf i = some .M) : decodeWords (encode i) = some i := by
  cases i with
  | ld | st | lds | sts =>
    refine decodeWords_of_mem (by decide) ?_
    rw [decodeMem, majorOf_wordOf]
    show some _ = _
    simp (disch := decide) only [opnd, fld_append_low, fld_append_high, fld_full, flag_append_low,
      Operand.ofByte_toByte, Size.ofCode_code, flag_bit1]
  | pmov | pref =>
    refine decodeWords_of_mem (by decide) ?_
    rw [decodeMem, majorOf_wordOf]
    show (if _ then _ else _) = _
    simp (disch := decide) only [opnd, fld_append_low, fld_append_high, fld_full, flag_append_low, flag_append_high,
      Operand.ofByte_toByte, Size.ofCode_code, PredSel.ofCode_code, flag_bit1]
    rfl
  | fence | rcfence =>
    refine decodeWords_of_control (by decide) ?_
    rw [decodeControl, majorOf_wordOf]
    show (if _ then _ else _) = _
    simp (disch := decide) only [fld_append_low, fld_append_high, fld_full, MScope.ofCode_code]
    rfl
  | cas | amsg =>
    refine decodeWords_of_memExt (by decide) ?_
    rw [decodeMemExt, memExt_append, Option.bind_some, majorOf_wordOf]
    show some _ = _
    simp (disch := decide) only [opnd, fld_append_low, fld_append_high, fld_full, flag_append_low, flag_append_high,
      Operand.ofByte_toByte, Size.ofCode_code, flag_bit1]
  | ldExt | stExt | ldsExt | stsExt | ldstr | ststr | cpst | pmovExt | prefExt | atom | atoms | bop | copy | copyt =>
    refine decodeWords_of_memExt (by decide) ?_
    rw [decodeMemExt, memExt_append, Option.bind_some, majorOf_wordOf]
    show (if _ then _ else _) = _
    simp (disch := decide) only [opnd, fld_append_low, fld_append_high, fld_full, flag_append_low, flag_append_high,
      Operand.ofByte_toByte, Size.ofCode_code, PredSel.ofCode_code, flag_bit1]
    rfl
  | _ => nomatch h

theorem decodeWords_encode_control {i : Instr} (h : pipeOf i = some .C) : decodeWords (encode i) = some i := by
  cases i with
  | mark =>
    refine decodeWords_of_control (by decide) ?_
    rw [decodeControl, majorOf_wordOf]
    show some _ = _
    simp (disch := decide) only [opnd, fld_append_low, fld_append_high, fld_full, Operand.ofByte_toByte]
  | bt | bf | loop =>
    refine decodeWords_of_control (by decide) ?_
    rw [decodeControl, majorOf_wordOf]
    show Option.map _ _ = _
    simp (disch := decide) only [opnd, fld_append_low, fld_append_high, fld_full, flag_append_low, flag_append_high,
      Operand.ofByte_toByte, PredSel.ofCode_code, Scope.ofCode_code]
    rfl
  | jmp | endl | call | callFrame | ret | frfence | wmark | launch | waitf | bar | barArr | swi | trap | brk | pushm | popm
  | csrr | csrw | clkr | pcnt | nop | exit =>
    refine decodeWords_of_control (by decide) ?_
    rw [decodeControl, majorOf_wordOf]
    show (if _ then _ else _) = _
    simp (disch := decide) only [opnd, fld_append_low, fld_append_high, fld_full, flag_append_low, flag_append_high,
      Operand.ofByte_toByte, Scope.ofCode_code]
    rfl
  | frdef | spawn =>
    refine decodeWords_of_ownExt (by decide) ?_
    rw [decodeOwnExt, majorOf_wordOf]
    show (if _ then _ else _) = _
    simp (disch := decide) only [opnd, fld_append_low, fld_append_high, fld_full, Operand.ofByte_toByte, Scope.ofCode_code]
    rfl
  | waitm =>
    refine decodeWords_of_memExt (by decide) ?_
    rw [decodeMemExt, memExt_append, Option.bind_some, majorOf_wordOf]
    show (if _ then _ else _) = _
    simp (disch := decide) only [opnd, fld_append_low, fld_append_high, fld_full, flag_append_low,
      Operand.ofByte_toByte, Size.ofCode_code, flag_bit1]
    rfl
  | _ => nomatch h

/-- Settles O50: the members of each pipe decode back. -/
theorem membersRoundTrip : Obligations.MembersRoundTrip := by
  intro i h
  obtain ⟨pipe, hp⟩ := Option.ne_none_iff_exists'.1 h
  cases pipe with
  | C => exact decodeWords_encode_control hp
  | V => exact decodeWords_encode_vector hp
  | S => exact decodeWords_encode_scalar hp
  | M => exact decodeWords_encode_memory hp
  | X => exact decodeWords_encode_matrix hp

/-! ### What a decoder answers encodes to the word it read -/

section
variable {α β : Type} {P : α → Prop}

theorem forall_some_iff {x : α} : (∀ i, some x = some i → P i) ↔ P x := by simp

theorem forall_none_iff : (∀ i, none = some i → P i) ↔ True := by simp

theorem forall_ite_iff {c : Prop} [Decidable c] {o o' : Option α} :
    (∀ i, (if c then o else o') = some i → P i) ↔ (c → ∀ i, o = some i → P i) ∧ (¬ c → ∀ i, o' = some i → P i) := by
  split <;> simp [*]

theorem forall_map_iff {f : β → α} {o : Option β} : (∀ i, o.map f = some i → P i) ↔ ∀ a, o = some a → P (f a) := by
  cases o <;> simp

theorem forall_bind_iff {f : β → Option α} {o : Option β} :
    (∀ i, o.bind f = some i → P i) ↔ ∀ a, o = some a → ∀ i, f a = some i → P i := by
  cases o <;> simp

theorem encode_ite {c : Prop} [Decidable c] {i j : Instr} {ws : List W32} :
    encode (if c then i else j) = ws ↔ (c → encode i = ws) ∧ (¬ c → encode j = ws) := by
  split <;> simp [*]

end

/-! In each of the following, a branch of the decoder fixes the major, and gives the word's fields, or what they must be:
`append_eq_fld` puts them together again. -/

theorem encode_of_decodeAlu {w : W32} (hc : chainBit w = false) : ∀ i, decodeAlu w = some i → encode i = [w] := by
  unfold decodeAlu
  dsimp only
  split <;> simp only [forall_some_iff, forall_ite_iff, forall_none_iff, implies_true, and_true] <;> intros
  all_goals
    refine congrArg ([·]) (wordOf_eq hc ‹_› ?_)
    repeat' apply append_eq_fld
    all_goals simp only [opnd, Operand.toByte_ofByte, PredSel.code_ofCode, *] <;> rfl

theorem encode_of_decodeMatrix {w : W32} (hc : chainBit w = false) : ∀ i, decodeMatrix w = some i → encode i = [w] := by
  unfold decodeMatrix
  dsimp only
  split <;> simp only [forall_some_iff, forall_ite_iff, forall_none_iff, implies_true, and_true] <;> intros
  all_goals
    refine congrArg ([·]) (wordOf_eq hc ‹_› ?_)
    repeat' apply append_eq_fld
    all_goals simp only [opnd, Operand.toByte_ofByte, *] <;> rfl

theorem encode_of_decodeMem {w : W32} (hc : chainBit w = false) : ∀ i, decodeMem w = some i → encode i = [w] := by
  unfold decodeMem
  dsimp only
  split <;> simp only [forall_some_iff, forall_ite_iff, forall_none_iff, implies_true, and_true, and_imp] <;> intros
  all_goals
    refine congrArg ([·]) (wordOf_eq hc ‹_› ?_)
    repeat' apply append_eq_fld
    all_goals simp only [opnd, Operand.toByte_ofByte, PredSel.code_ofCode, Size.code_ofCode, fld_one, *] <;> rfl

theorem encode_of_decodeControl {w : W32} (hc : chainBit w = false) :
    ∀ i, decodeControl w = some i → encode i = [w] := by
  unfold decodeControl
  dsimp only
  split <;> simp only [forall_some_iff, forall_ite_iff, forall_map_iff, forall_none_iff, implies_true, and_true, and_imp,
    encode_ite, Scope.ofCode_eq_some_iff, MScope.ofCode_eq_some_iff] <;> intros
  case h_6 hm => -- CALL: the frame bit and the level, or three zero bits (R58)
    refine ⟨fun hf s hs => ?_, fun hf h0 s hs => ?_⟩
    · refine congrArg ([·]) (wordOf_eq hc hm (append_eq_fld (append_eq_fld (append_eq_fld hs ?_) rfl) rfl))
      rw [fld_one, hf]; rfl
    · have hz : 0#3 = fld w 18 3 := append_eq_fld (x := 0#1) (by rw [fld_one, Bool.eq_false_of_not_eq_true hf]; rfl) h0.symm
      exact congrArg ([·]) (wordOf_eq hc hm (append_eq_fld (append_eq_fld hs hz) rfl))
  case h_17 hm h0 h1 => -- PUSHM and POPM: bit 23 tells them apart, the seven bits below it are zero
    refine ⟨fun hf => ?_, fun hf => ?_⟩
    all_goals
      have hz : _ ++ 0#7 = fld w 16 8 := append_eq_fld (fld_one w).symm h0.symm
      refine congrArg ([·]) (wordOf_eq hc hm (append_eq_fld (append_eq_fld (append_eq_fld (.trans ?_ hz) ?_) h1.symm) rfl))
    all_goals simp only [opnd, Operand.toByte_ofByte, *] <;> rfl
  case h_2 | h_12 => -- BT and BF, BAR with and without arrival: one bit tells them apart
    constructor <;> intros
    all_goals
      refine congrArg ([·]) (wordOf_eq hc ‹_› ?_)
      repeat' apply append_eq_fld
      all_goals simp only [PredSel.code_ofCode, fld_one, *] <;> rfl
  all_goals
    refine congrArg ([·]) (wordOf_eq hc ‹_› ?_)
    repeat' apply append_eq_fld
    all_goals simp only [opnd, Operand.toByte_ofByte, *] <;> rfl

theorem encode_of_decodeOwnExt {w : W32} {x : BitVec 24} (hc : chainBit w = false) :
    ∀ i, decodeOwnExt w x = some i → encode i = [w, extWord x] := by
  unfold decodeOwnExt
  dsimp only
  split <;> simp only [forall_some_iff, forall_ite_iff, forall_map_iff, forall_none_iff, implies_true, and_true, and_imp,
    Scope.ofCode_eq_some_iff] <;> intros
  all_goals
    refine congrArg₂ ([·, ·]) (wordOf_eq hc ‹_› ?_) (congrArg extWord (.trans ?_ (fld_self x)))
    all_goals repeat' apply append_eq_fld
    all_goals simp only [opnd, Operand.toByte_ofByte, PredSel.code_ofCode, fld_one, fld_self, *] <;> rfl

theorem memExt_eq_some {x : BitVec 24} {m : MemExt} (h : memExt x = some m) :
    m.order.code = fld x 22 2 ∧ m.ms.code = fld x 19 3 ∧ m.policy = fld x 17 2 := by
  obtain ⟨ms, hms, rfl⟩ := Option.map_eq_some_iff.1 h
  exact ⟨Order.code_ofCode _, MScope.ofCode_eq_some_iff.1 hms, rfl⟩

theorem encode_of_decodeMemExt {w : W32} {x : BitVec 24} (hc : chainBit w = false) :
    ∀ i, decodeMemExt w x = some i → encode i = [w, extWord x] := by
  unfold decodeMemExt
  dsimp only
  rw [forall_bind_iff]
  intro m hm
  obtain ⟨horder, hms, hpolicy⟩ := memExt_eq_some hm
  split <;> simp only [forall_some_iff, forall_ite_iff, forall_none_iff, implies_true, and_true, and_imp] <;> intros
  all_goals
    refine congrArg₂ ([·, ·]) (wordOf_eq hc ‹_› ?_) (congrArg extWord (.trans ?_ (fld_self x)))
    all_goals repeat' apply append_eq_fld
    all_goals simp only [opnd, Operand.toByte_ofByte, PredSel.code_ofCode, Size.code_ofCode, fld_one, *] <;> rfl

theorem cmdWord_eq {w : W64} {op : BitVec 8} {a b c : BitVec 4} {imm : BitVec 44} (ho : op = fld w 56 8)
    (ha : a = fld w 52 4) (hb : b = fld w 48 4) (hc : c = fld w 44 4) (hi : imm = fld w 0 44) :
    cmdWord op a b c imm = w := by
  have h : cmdWord op a b c imm = fld w 0 64 :=
    append_eq_fld (append_eq_fld (append_eq_fld (append_eq_fld ho ha) hb) hc) hi
  rw [h, fld_self]

theorem encodeCmd_of_decodeCmd (w m : W64) : ∀ i, decodeCmd w m = some i → encodeCmd i = some w := by
  unfold decodeCmd
  dsimp only
  split <;> simp only [forall_some_iff, forall_ite_iff, forall_none_iff, implies_true, and_true, and_imp] <;> intros
  case h_13 ho hc h1 => -- signal: bit 0 tells a write from an add
    have hz : 0#43 ++ bit1 (flag w 0) = fld w 0 44 := append_eq_fld h1.symm (fld_one w).symm
    split
    case isTrue hf => exact congrArg some (cmdWord_eq ho.symm rfl rfl hc.symm (by rw [← hz, hf]; rfl))
    case isFalse hf =>
      exact congrArg some (cmdWord_eq ho.symm rfl rfl hc.symm (by rw [← hz, Bool.eq_false_of_not_eq_true hf]; rfl))
  case h_14 ho => -- copy and migrate
    refine ⟨fun _ h0 => ?_, fun _ h2 h4 => ?_⟩
    · exact congrArg some (cmdWord_eq ho.symm rfl rfl rfl h0.symm)
    · exact congrArg some (cmdWord_eq ho.symm rfl rfl rfl (append_eq_fld (append_eq_fld h4.symm rfl) h2.symm))
  case h_17 ho hb hc h12 i h => -- ctrl: the control block's mode tells rows apart, no bit of the word
    have key (k : BitVec 8) (hk : fld w 0 8 = k) : encodeCmd.ctrl (fld w 52 4) (fld w 8 4) k = w :=
      cmdWord_eq ho.symm rfl hb.symm hc.symm (append_eq_fld (append_eq_fld h12.symm rfl) hk.symm)
    revert i
    split <;> simp only [forall_some_iff, forall_ite_iff, forall_none_iff, implies_true, and_true]
    case h_2 hk | h_10 hk =>
      have hk := congrArg some (key _ hk)
      exact ⟨fun _ => hk, fun _ => ⟨fun _ => hk, fun _ _ => hk⟩⟩
    all_goals exact congrArg some (key _ ‹_›)
  all_goals
    refine congrArg some (cmdWord_eq (.symm ‹_›) ?_ ?_ ?_ ?_)
    all_goals repeat' apply append_eq_fld
    all_goals simp only [*] <;> rfl

theorem encode_of_decodeMember_none {w : W32} {i : Instr} (hc : chainBit w = false) (h : decodeMember w none = some i) :
    encode i = [w] := by
  simp only [decodeMember, Option.or_eq_some_iff] at h
  rcases h with h | ⟨-, h | ⟨-, h | ⟨-, h⟩⟩⟩
  · exact encode_of_decodeControl hc i h
  · exact encode_of_decodeAlu hc i h
  · exact encode_of_decodeMem hc i h
  · exact encode_of_decodeMatrix hc i h

theorem encode_of_decodeMember_some {w : W32} {x : BitVec 24} {i : Instr} (hc : chainBit w = false)
    (h : decodeMember w (some x) = some i) : encode i = [w, extWord x] := by
  simp only [decodeMember, Option.or_eq_some_iff] at h
  rcases h with h | ⟨-, h⟩
  · exact encode_of_decodeOwnExt hc i h
  · exact encode_of_decodeMemExt hc i h

/-- Settles O52: each decoder keeps every bit of the word that it reads. -/
theorem noBitIsDropped : Obligations.NoBitIsDropped := by
  refine ⟨fun ws i hchain h => ?_, fun w m i => encodeCmd_of_decodeCmd w m i⟩
  unfold decodeWords at h
  split at h
  case h_1 w =>
    rw [Option.ite_none_left_eq_some] at h
    exact encode_of_decodeMember_none (hchain w (by simp)) h.2
  case h_2 w x =>
    rw [Option.ite_none_right_eq_some] at h
    obtain ⟨⟨hx, -⟩, h⟩ := h
    exact (encode_of_decodeMember_some (hchain w (by simp)) h).trans
      (congrArg ([w, ·]) (wordOf_eq (hchain x (by simp)) hx rfl))
  case h_3 => cases h

/-- Settles O49: the words are closed terms, and the decoders compute. -/
theorem wordsDecode : Obligations.WordsDecode := by
  unfold Obligations.WordsDecode
  decide

end Sys2Proof
end

/-! ## O13: NOP, PREF, EXIT, RCFENCE and FENCE -/

section
namespace Sys2Proof.Machine

/-- A fence lets its chain go on once what it orders behind it has been performed (R269). -/
theorem bodyFence_go {kind : BitVec 2} {ms : MScope} {c : Cx} {s : State}
    (h : kind = 2 ∨ (c.tm.loads = [] ∧ (kind = 0 → c.tm.storeQ = []))) : bodyFence kind ms c s = .ok s := by
  rcases h with rfl | ⟨hl, hq⟩
  · rfl
  · unfold bodyFence Cx.drained
    by_cases h0 : kind = 0
    · rw [if_pos h0, hl, hq h0]; rfl
    · rw [if_neg h0, hl]; exact ite_self _

/-- A fence waits while anything that it orders behind it has still to be performed (R269). -/
theorem bodyFence_hold {kind : BitVec 2} {ms : MScope} {c : Cx} {s : State}
    (h : kind ≠ 2 ∧ (c.tm.loads ≠ [] ∨ (kind = 0 ∧ c.tm.storeQ ≠ []))) :
    bodyFence kind ms c s = .hold c.pre (.notReady 13) := by
  obtain ⟨h2, hw⟩ := h
  unfold bodyFence Cx.drained
  by_cases h0 : kind = 0
  · have hd : (c.tm.storeQ.isEmpty && c.tm.loads.isEmpty) = false := by
      rcases hw with hl | ⟨-, hq⟩ <;> simp [*]
    rw [if_pos h0, hd, if_neg Bool.false_ne_true]
  · have hl : c.tm.loads.isEmpty = false := by simpa using hw.resolve_right fun h => h0 h.1
    rw [if_neg h0, if_neg h2, hl, if_neg Bool.false_ne_true]

/-- Settles O13: each member's meaning answers at once what is claimed of it; FENCE by what the team has outstanding. -/
theorem quietMembers : Obligations.QuietMembers := by
  unfold Obligations.QuietMembers
  intro base idx sz scale x kind ms
  refine ⟨executes_all rfl rfl fun c => ⟨rfl, rfl⟩, executes_all rfl rfl fun c => ⟨rfl, rfl⟩,
    executes_all rfl rfl fun c => ⟨rfl, rfl⟩, executes_all rfl rfl fun c => ⟨rfl, rfl⟩,
    executes_all rfl rfl fun c => ⟨rfl, rfl⟩,
    executes_of rfl rfl fun c h => ⟨bodyFence_go (ms := ms) h, rfl⟩, waits_of rfl rfl fun c h => bodyFence_hold (ms := ms) h⟩

end Sys2Proof.Machine
end

/-! ## O53: a step runs the instruction of its turn's holder -/

section
namespace Sys2Proof
open Machine

/-! ### The decoder at one word (R45, R51, R55, R56) -/

/-- A word that decodes by itself, with chain bit 0 and not before an EXT word that it could take, heads a chain of its own
one word. -/
theorem decodeHead_single {k : Nat} {u : W32} {rest : List W32} {i : Instr} (hc : chainBit u = false)
    (hi : decodeWords [u] = some i) (hx : ∀ x xs, rest = x :: xs → extUse (majorOf u) = .never ∨ majorOf x ≠ 0x7F#7) :
    decodeHead k u rest = .mem ⟨k, 1, i, false⟩ false := by
  have hne : extUse (majorOf u) ≠ .always := fun h => by simp [decodeWords, h] at hi
  have hm : decodeMember u none = some i := by simpa [decodeWords, hne] using hi
  have hs : headSingle k u = .mem ⟨k, 1, i, false⟩ false := by
    simp only [headSingle, hm]
    rw [hc]; rfl
  unfold decodeHead
  split
  · next h => exact absurd h hne
  · next h => exact absurd h hne
  · next x xs h =>
    rw [if_neg ((hx x xs rfl).resolve_left (by simp [h])), hs]
  · exact hs

/-- A chain of one member that ends there. -/
theorem decodePacket_of_head {k : Nat} {u : W32} {ws rest : List W32} {m : Member} (hd : ws.drop k = u :: rest)
    (hh : decodeHead k u rest = .mem m false) : decodePacket k ws = .ok [m] := by
  simp only [decodePacket, hd, decodeChain, hh]
  rfl

/-- In the first slot a word that takes no EXT word from the slot behind it is a chain of its own. -/
theorem decodePacket_first {u b c : W32} {d : Instr} (hc : chainBit u = false) (hb : majorOf b ≠ 0x7F#7)
    (hd : decodeWords [u] = some d) : decodePacket 0 [u, b, c] = .ok [⟨0, 1, d, false⟩] :=
  decodePacket_of_head rfl (decodeHead_single hc hd (by rintro x xs ⟨⟩; exact .inr hb))

/-- A word that takes no EXT word is a chain of its own in any slot. -/
theorem decodePacket_never {k : Nat} {u : W32} {ws : List W32} {i : Instr} (hk : ws[k]? = some u) (hc : chainBit u = false)
    (hn : extUse (majorOf u) = .never) (hi : decodeWords [u] = some i) : decodePacket k ws = .ok [⟨k, 1, i, false⟩] := by
  obtain ⟨hlt, rfl⟩ := List.getElem?_eq_some_iff.mp hk
  exact decodePacket_of_head (List.drop_eq_getElem_cons hlt) (decodeHead_single hc hi fun _ _ _ => .inl hn)

namespace Machine

/-! ### What the turn's holder runs -/

/-- What a step makes of the outcome of its turn's holder. -/
def stepped (o : Out) : Out :=
  match o with
  | .next u => .next (afterStep u)
  | r => r

/-- With a turn that is not free, a step is what its holder does, and what follows every step. -/
theorem step_of_act {s : State} {h : Turn} {o : Out} (ht : s.turn = h) (hn : h ≠ .free) (ha : act s = o) :
    step s = stepped o := by
  subst ht ha
  rw [step, if_neg hn]
  rfl

/-- A party whose packet decodes to one member at its PC executes that member (R46, R66). -/
theorem partyStep_member {s t : State} {p : Party} {gr : Grid} {ws : List W32} {m : Member} (hg : s.grid p.gridNo = some gr)
    (hi : canIssue s p = true) (he : atEnd s p gr = false) (hf : fetchPacket s p gr = .words ws t)
    (hd : decodePacket (pcSlot (t.pcOf p)) ws = .ok [m]) (hb : m.badChain = false) : partyStep p s = exec m.ins t := by
  simp [partyStep, hg, hi, he, hf, hd, runChain, hb]

/-- A served queue whose command is read and decodes executes it (R357, R370). -/
theorem queueStep_command {s t : State} {q : Nat} {x : Queue} {j : JImg} {w : W64} {i : Instr} (hq : queueTurn s q x j)
    (hf : fetchCommand s x j = .word w) (ht : t = feedMonitors (takeRoll s x.core (q / 64)).2 1 (Config.waited 1 s.clk))
    (hd : decodeCmd w (ctlMode t x w (j.reg (w.extractLsb' 52 4).toNat)) = some i) : queueStep q s = exec i t := by
  obtain ⟨-, hx, hj, hs⟩ := hq
  subst ht
  simp only [queueStep, hx, hj, hs, hf, hd]
  rfl

/-- A served queue whose command cannot be read faults (R357). -/
theorem queueStep_unreadable {s : State} {q : Nat} {x : Queue} {j : JImg} (hq : queueTurn s q x j)
    (hf : fetchCommand s x j = .bad) : queueStep q s = .next (queueFault s q 4) := by
  obtain ⟨-, hx, hj, hs⟩ := hq
  simp only [queueStep, hx, hj, hs, hf]
  rfl

/-- A running CPC core executes the word at its pc (R371). -/
theorem cpcStep_word {s : State} {n : Nat} {y : Cpc} {u : W32} (hc : cpcTurn s n y) (ht : y.trigger ≠ some y.pc)
    (hf : cpcFetch s n = some (.word u)) : cpcStep n s = exec (decodeCpc u) s := by
  obtain ⟨-, hy, hs⟩ := hc
  simp [cpcStep, hy, hf, hs, ht]

/-- Settles O53: `step` unfolds to what the turn's holder does; the decoder's two clauses are those of a word that heads a
chain of one. -/
theorem stepRunsInstruction : Obligations.StepRunsInstruction := by
  unfold Obligations.StepRunsInstruction
  intro s t p gr ws m q n k x j w i y u
  refine ⟨fun ht hg hi he hf hd hb => ?_, fun hq hf ht hd => ?_, fun hq hf => ?_, fun hc ht hf => ?_, fun ht => ?_,
    fun ht => ?_, ?_, fun _ _ hu hc hn hi => decodePacket_never hu hc hn hi⟩
  · exact step_of_act ht nofun (by rw [act, ht]; exact partyStep_member hg hi he hf hd hb)
  · exact step_of_act hq.1 nofun (by rw [act, hq.1]; exact queueStep_command hq hf ht hd)
  · exact step_of_act (o := .next (queueFault s q 4)) hq.1 nofun (by rw [act, hq.1]; exact queueStep_unreadable hq hf)
  · exact step_of_act hc.1 nofun (by rw [act, hc.1]; exact cpcStep_word hc ht hf)
  · exact step_of_act ht nofun (by rw [act, ht])
  · rw [step, if_pos ht]
  · rintro b c d rfl hc hb hd
    exact decodePacket_first hc hb hd

end Machine
end Sys2Proof
end

/-! ## O58: how a team goes on after its chain -/

section
namespace Sys2Proof.Machine

/-- No transfer of a ready member is refused: its chain is not the close chain of its token (R106). -/
theorem refusedJump_ready {s : State} {g b u : Nat} {i : Instr} {c : Cx} (h : ready s (.team g b u) i = some c) (r : MRes) :
    refusedJump c i r = false := by
  obtain ⟨-, -, -, -, -, -, hclose, -⟩ := ready_team h
  have hj : closeJump c i = false := by simp only [closeJump, hclose, Bool.false_and]
  cases r <;> first | rfl | exact hj

/-- A member with no sources captures no view (R174). -/
theorem captureAll_no_srcs {c : Cx} {i : Instr} (h : (fieldsOf i).srcs = []) (st : State) : captureAll c i st = st := by
  unfold captureAll
  rw [h, List.foldl_nil, ite_self]

/-- The lane groups besides the running one. -/
def otherGroups (c : Cx) (tm : Team) : List (W32 × Mask) :=
  tm.groups.filter fun e => decide (e.1 ≠ c.pc)

/-- Where a chain ends in the state st and its team neither traps, marks nor waits, the team has moved on from what it was
there, and memory and frames stand as they did. -/
theorem finish1_moves {s st : State} {g b u : Nat} {i : Instr} {c : Cx} {tm : Team} {r : MRes} {a : ChainAcc}
    (h : ready s (.team g b u) i = some c) (hc : calm st (.team g b u)) (htm : st.team g b u = some tm)
    (ha : accOf c i r = some a) (hs : a.s = st) (haw : a.await = none) (ht : a.trap = none) (hm : a.mark = none)
    (hl : a.later = none) :
    ∃ x, (finish1 c i r).team g b u = some x ∧ teamMoved c a tm x ∧ (finish1 c i r).mem = st.mem ∧
      (finish1 c i r).frames = st.frames := by
  subst hs
  have hmove := commit_team h (soleOf c i) (soleOf c i) (chainEnds c [i]) (chainNarrow c [i]) hc ht hm hl
  have hfin : finish1 c i r = commit c (soleOf c i) (soleOf c i) (chainEnds c [i]) (chainNarrow c [i]) a := by
    simp only [finish1, refusedJump_ready h, ha, endsWith, haw]
    rfl
  rw [hfin]
  obtain ⟨hmem, hframes, -⟩ := teamOnly_rest hmove
  obtain ⟨x, G, e, -, hteam, -⟩ := hmove
  obtain ⟨z, hz, hmoved⟩ := hteam tm htm
  exact ⟨z, by rw [e]; exact hz, hmoved, hmem, hframes⟩

/-- The groups of a team whose running group has not exited: it stands after the chain or at the target of its jump, or has
split. -/
def goneOn (c : Cx) (a : ChainAcc) (tm : Team) : List (W32 × Mask) :=
  match a.split with
  | some (taken, pc) => addGroup (addGroup (otherGroups c tm) (pc, c.act &&& taken)) (nextPc c.pkt c.last, c.act &&& ~~~taken)
  | none => addGroup (otherGroups c tm) (a.jump.getD (nextPc c.pkt c.last), c.act)

/-- A team whose running group has not exited goes on with the groups that its chain has left; nothing of it but groups and
position changes. -/
theorem teamMoved_goes_on {c : Cx} {a : ChainAcc} {y z : Team} (h : teamMoved c a y z) (hg : a.gone = none) :
    z.groups = goneOn c a y ∧
    z.v = y.v ∧ z.s = y.s ∧ z.p = y.p ∧ z.fpc = y.fpc ∧ z.exiting = false ∧ z.resume = none ∧
    z.seq.chains = y.seq.chains + 1 ∧ z.seq.wait = none := by
  unfold goneOn otherGroups
  subst h
  cases a.split <;> simp [hg]

/-- Where a team's chain ends without an exit, a trap, a mark or a wait, the team goes on with the groups that it leaves. -/
theorem finish1_goes_on {s st : State} {g b u : Nat} {i : Instr} {c : Cx} {tm : Team} {r : MRes} {a : ChainAcc}
    (h : ready s (.team g b u) i = some c) (hc : calm st (.team g b u)) (htm : st.team g b u = some tm)
    (ha : accOf c i r = some a) (hs : a.s = st) (haw : a.await = none) (ht : a.trap = none) (hm : a.mark = none)
    (hl : a.later = none) (hg : a.gone = none) :
    ∃ x, (finish1 c i r).team g b u = some x ∧ x.groups = goneOn c a tm ∧ x.v = tm.v ∧ x.s = tm.s ∧ x.p = tm.p ∧
      x.fpc = tm.fpc ∧ x.exiting = false ∧ x.resume = none ∧ x.seq.chains = tm.seq.chains + 1 ∧ x.seq.wait = none ∧
      (finish1 c i r).mem = st.mem ∧ (finish1 c i r).frames = st.frames := by
  obtain ⟨x, hx, hmoved, hmem, hframes⟩ := finish1_moves h hc htm ha hs haw ht hm hl
  obtain ⟨hgroups, hv, hss, hp, hfpc, hex, hres, hch, hw⟩ := teamMoved_goes_on hmoved hg
  exact ⟨x, hx, hgroups, hv, hss, hp, hfpc, hex, hres, hch, hw, hmem, hframes⟩

/-- The running group of a team with others exits: the others stay. -/
theorem teamMoved_group_gone {c : Cx} {a : ChainAcc} {y z : Team} (h : teamMoved c a y z) (hg : a.gone.isSome = true)
    (ho : otherGroups c y ≠ []) : z.groups = otherGroups c y ∧ z.exiting = false ∧ z.v = y.v := by
  have hleaves : (a.gone.isSome && (otherGroups c y).isEmpty) = false := by
    rw [hg, Bool.true_and, List.isEmpty_eq_false_iff]; exact ho
  unfold otherGroups at hleaves ⊢
  subst h
  simp only [hleaves]
  simp [hg]

/-- The last group of a team exits: the team is exiting, its group still there. -/
theorem teamMoved_team_gone {c : Cx} {a : ChainAcc} {y z : Team} (h : teamMoved c a y z) (hg : a.gone.isSome = true)
    (ho : otherGroups c y = []) : z.groups = y.groups ∧ z.exiting = true ∧ z.v = y.v := by
  have hleaves : (a.gone.isSome && (otherGroups c y).isEmpty) = true := by rw [hg, ho]; rfl
  unfold otherGroups at hleaves
  subst h
  simp only [hleaves]
  simp

/-- Settles O58: each answer leads to a commit, and a commit moves the team on as its answer says. -/
theorem teamGoesOn : Obligations.TeamGoesOn := by
  unfold Obligations.TeamGoesOn
  intro s st g b u i c tm pc m h hc htm hsrc
  have hcap : ∀ t, captureAll c i t = t := captureAll_no_srcs hsrc
  have goes {r : MRes} {a : ChainAcc} (ha : accOf c i r = some a) := finish1_goes_on (a := a) h hc htm ha
  refine ⟨?_, fun ho => ?_, fun ho => ?_⟩
  · simp only [List.forall_mem_cons, List.not_mem_nil, false_implies, implies_true, and_true]
    exact ⟨goes (a := accS st) (by simp [accOf, hcap]) rfl rfl rfl rfl rfl rfl,
      goes (a := { accS st with jump := some pc }) (by simp [accOf, hcap]) rfl rfl rfl rfl rfl rfl,
      goes (a := { accS st with split := some (m, pc) }) rfl rfl rfl rfl rfl rfl rfl⟩
  · obtain ⟨x, hx, hmoved, -⟩ := finish1_moves h hc htm (r := .gone st) rfl rfl rfl rfl rfl rfl
    exact ⟨x, hx, teamMoved_group_gone hmoved rfl ho⟩
  · obtain ⟨x, hx, hmoved, -⟩ := finish1_moves h hc htm (r := .gone st) rfl rfl rfl rfl rfl rfl
    exact ⟨x, hx, teamMoved_team_gone hmoved rfl ho⟩

end Sys2Proof.Machine
end

/-! ## O57: a fault stops its party with one record -/

section
namespace Sys2Proof.Machine

/-! ### Interrupts reach the host only (R391, R392) -/

/-- A state whose outbox is another's with some interrupts behind it. -/
def irqsBehind (s t : State) : Prop :=
  ∃ v, t.outbox = s.outbox ++ v ∧ ∀ o ∈ v, ∃ a b w z, o = Outgoing.irq a b w z

theorem irqsBehind_refl {s t : State} (h : t.outbox = s.outbox) : irqsBehind s t :=
  ⟨[], by simp [h], by simp⟩

/-- Sending a vector sends its interrupt, or nothing where it is masked. -/
theorem sendVec_irqs (s : State) (fn v : Nat) : irqsBehind s (s.sendVec fn v) := by
  unfold State.sendVec
  dsimp only
  split
  · exact irqsBehind_refl rfl
  · exact ⟨_, rfl, fun o ho => ⟨_, _, _, _, List.mem_singleton.mp ho⟩⟩

theorem raise_irqs (s : State) (fn v : Nat) : irqsBehind s (s.raise fn v) := by
  unfold State.raise
  dsimp only
  split
  · exact irqsBehind_refl rfl
  · split
    · exact sendVec_irqs s fn v
    · exact sendVec_irqs s fn v

theorem raiseQueue_irqs (s : State) (q : Nat) : irqsBehind s (s.raiseQueue q) := by
  unfold State.raiseQueue
  split
  · exact raise_irqs s _ _
  · exact irqsBehind_refl rfl

/-! ### What a fault leaves alone before its record is written -/

/-- z is s but for parties, clocks, contexts' records and fills: memory, what has left the device, images and the contexts of
grids stand. -/
def recordsAside (s z : State) : Prop :=
  z.mem = s.mem ∧ z.outbox = s.outbox ∧ z.images = s.images ∧ ∀ k, (mget z.grids k).map (·.ctx) = (mget s.grids k).map (·.ctx)

theorem recordsAside_trans {s y z : State} (h : recordsAside s y) (h' : recordsAside y z) : recordsAside s z :=
  ⟨h'.1.trans h.1, h'.2.1.trans h.2.1, h'.2.2.1.trans h.2.2.1, fun k => (h'.2.2.2 k).trans (h.2.2.2 k)⟩

/-- Changing a grid but for its context. -/
theorem recordsAside_modGrid (s : State) (g : Nat) (f : Grid → Grid) (hf : ∀ y, (f y).ctx = y.ctx) :
    recordsAside s (s.modGrid g f) := by
  refine ⟨rfl, rfl, rfl, fun k => ?_⟩
  show (mget (mmod s.grids g f) k).map _ = _
  by_cases hk : k = g
  · subst hk
    rw [mget_mmod_self, Option.map_map]
    exact congrArg (Option.map · _) (funext hf)
  · rw [mget_mmod_ne _ _ hk]

theorem recordsAside_modSeq (s : State) (p : Party) (f : Machine.Seq → Machine.Seq) : recordsAside s (s.modSeq p f) := by
  cases p with
  | grid g => exact recordsAside_modGrid s g _ fun _ => rfl
  | _ => exact ⟨rfl, rfl, rfl, fun _ => rfl⟩

theorem recordsAside_stopParty (s : State) (p : Party) (f : FInfo) (r : BitVec 512) (n : Nat) :
    recordsAside s (stopParty s p f r n) := by
  unfold stopParty
  cases p with
  | team g b t => exact recordsAside_trans (recordsAside_modSeq s _ _) ⟨rfl, rfl, rfl, fun _ => rfl⟩
  | _ => exact recordsAside_modSeq s _ _

theorem recordsAside_faultSides (s : State) (g : Nat) (gr : Grid) (cls : Nat) : recordsAside s (faultSides s g gr cls) := by
  have frozen (t : State) : recordsAside t (if cls = 0x51 ∧ gr.allstop then t.freeze g else t) := by
    split
    · exact recordsAside_modGrid t g _ fun _ => rfl
    · exact ⟨rfl, rfl, rfl, fun _ => rfl⟩
  have saving (t : State) : recordsAside t (if cls = 0x52 then t.modGrid g fun x => { x with status := .saving } else t) := by
    split
    · exact recordsAside_modGrid t g _ fun _ => rfl
    · exact ⟨rfl, rfl, rfl, fun _ => rfl⟩
  unfold faultSides
  dsimp only
  split
  · exact recordsAside_trans (recordsAside_trans (frozen s) (saving _)) ⟨rfl, rfl, rfl, fun _ => rfl⟩
  · exact recordsAside_trans (frozen s) (saving _)

/-- Nothing of what is saved changes by it. -/
theorem savedStop_recordsAside {s z : State} (h : recordsAside s z) (c n : Nat) : savedStop z c n = savedStop s c n := by
  obtain ⟨-, -, himg, hctx⟩ := h
  unfold savedStop
  rw [himg]
  congr 1
  funext e
  rw [show (z.grid e.2.gid).map (·.ctx) = (s.grid e.2.gid).map (·.ctx) from hctx e.2.gid]

/-- The state of a fault whose record is still held: its engine's clock has gone up, the context has the record under its
serial, the party is stopped (R291, R292). -/
def faultHeld (s : State) (p : Party) (f : FInfo) (gr : Grid) (q : Machine.Seq) (c : Ctx) (r : BitVec 512) : State :=
  faultSides (stopParty ((s.bump (s.engineOf p)).modCtx gr.ctx fun x => { x with
    fserial := x.fserial + 1, heldRecs := mset x.heldRecs x.fserial r }) p (keptAlone f q.alone) r c.fserial) p.gridNo gr f.cls

/-- The record of a fault of a party. -/
def recordOf (s : State) (p : Party) (f : FInfo) (gr : Grid) (q : Machine.Seq) (c : Ctx) : BitVec 512 :=
  faultRecord (s.clock (s.engineOf p) + 1) gr.csn gr.queue (f.pc.getD (mkPc (pcPkt (s.pcOf p)) f.slot))
    (((q.tok).map fun t => t.seq.toNat).getD 0) (s.engineOf p) p (s.detachedOf p) c.fserial gr.depth f

section
variable {s : State} {p : Party} {f : FInfo} {gr : Grid} {c : Ctx} {q : Machine.Seq}

theorem recordsAside_faultHeld (r : BitVec 512) : recordsAside s (faultHeld s p f gr q c r) :=
  recordsAside_trans (y := (s.bump (s.engineOf p)).modCtx gr.ctx fun x => { x with
      fserial := x.fserial + 1, heldRecs := mset x.heldRecs x.fserial r }) ⟨rfl, rfl, rfl, fun _ => rfl⟩
    (recordsAside_trans (recordsAside_stopParty _ _ _ _ _) (recordsAside_faultSides _ _ _ _))

theorem stopParty_ctxs (s : State) (p : Party) (f : FInfo) (r : BitVec 512) (n : Nat) : (stopParty s p f r n).ctxs = s.ctxs := by
  cases p <;> rfl

theorem faultSides_ctxs (s : State) (g : Nat) (gr : Grid) (cls : Nat) : (faultSides s g gr cls).ctxs = s.ctxs := by
  obtain ⟨x, y, h, -⟩ := faultSides_shape s g gr cls
  rw [h]

/-- A context with one more record held, under its next serial. -/
def Ctx.holding (c : Ctx) (r : BitVec 512) : Ctx :=
  { c with fserial := c.fserial + 1, heldRecs := mset c.heldRecs c.fserial r }

theorem faultHeld_ctx (hc : mget s.ctxs gr.ctx = some c) (r : BitVec 512) :
    mget (faultHeld s p f gr q c r).ctxs gr.ctx = some (c.holding r) := by
  rw [faultHeld, faultSides_ctxs, stopParty_ctxs]
  show mget (mmod s.ctxs gr.ctx _) gr.ctx = _
  rw [mget_mmod_self, hc]
  rfl

theorem holding_first {r : BitVec 512} (h : c.heldRecs = []) : (c.holding r).heldRecs = [(c.fserial, r)] := by
  simp only [Ctx.holding, h]
  rfl

/-! ### Writing the only record that a context holds (R294) -/

/-- It enters the buffer where its entry is free and what it stopped is not saved, and the queue's vector is raised. -/
theorem writeHeld_enters {k n : Nat} {x : Ctx} {r : BitVec 512} (hx : mget s.ctxs k = some x) (hr : x.heldRecs = [(n, r)])
    (hf : entryFree x n = true) (hb : x.flg2 ≠ 0) (hs : savedStop s k n = false) :
    writeHeld k 1 s = (putHeld s k x n r).raiseQueue x.queue := by
  simp only [writeHeld, hx, hr, hf, hs, hb, ne_eq, not_false_eq_true, decide_true, Bool.not_false, Bool.and_self, if_true]

/-- It stays held where its entry is not free, or there is no buffer. -/
theorem writeHeld_stays {k n : Nat} {x : Ctx} {r : BitVec 512} (hx : mget s.ctxs k = some x) (hr : x.heldRecs = [(n, r)])
    (h : entryFree x n = false ∨ x.flg2 = 0) : writeHeld k 1 s = s := by
  have hno : (entryFree x n && decide (x.flg2 ≠ 0) && !(savedStop s k n)) = false := by
    rcases h with h | h <;> simp [h]
  simp only [writeHeld, hx, hr, hno, Bool.false_eq_true, if_false]

/-- A record fills 64 bytes. -/
theorem record_fits (r : BitVec 512) : r.toNat < 256 ^ 64 := by
  rw [show (256 : Nat) = 2 ^ 8 from rfl, ← Nat.pow_mul, show 8 * 64 = 512 from rfl]
  exact r.isLt

/-! ### Taking a fault -/

/-- Taking a fault is holding its record, then writing what can be written. -/
theorem takeFault_eq_writeHeld (hg : s.grid p.gridNo = some gr) (hc : mget s.ctxs gr.ctx = some c) (hq : s.seqOf p = some q) :
    takeFault s p f = writeHeld gr.ctx (c.heldRecs.length + 1) (faultHeld s p f gr q c (recordOf s p f gr q c)) := by
  obtain ⟨k, hk⟩ := keptAlone_same f q.alone
  simp only [takeFault, raiseRecord, hg, hc, hq, faultHeld, recordOf, Option.bind_some, hk]
  rfl

/-- The party stands stopped with the record. -/
theorem takeFault_seqOf (hg : s.grid p.gridNo = some gr) (hc : mget s.ctxs gr.ctx = some c) (hq : s.seqOf p = some q) :
    (takeFault s p f).seqOf p = some { q with
      stop := some ⟨recordOf s p f gr q c, c.fserial, (keptAlone f q.alone).kind⟩, wait := keptWait q.wait, stepping := false
      alone := none } := by
  obtain ⟨z, hz, -, -, -, hseq⟩ := takeFault_eq hg hc hq (recordOf s p f gr q c) rfl
  obtain ⟨m, x, v, o, hw, -⟩ := writeHeld_shape gr.ctx (c.heldRecs.length + 1) z
  rw [hz, hw, ← hseq]
  cases p <;> rfl

/-- The context's next serial is taken. -/
theorem takeFault_fserial (hg : s.grid p.gridNo = some gr) (hc : mget s.ctxs gr.ctx = some c) (hq : s.seqOf p = some q) :
    (mget (takeFault s p f).ctxs gr.ctx).map (·.fserial) = some (c.fserial + 1) := by
  obtain ⟨z, hz, -, -, hctx, -⟩ := takeFault_eq hg hc hq (recordOf s p f gr q c) rfl
  obtain ⟨m, x, v, o, hw, hser⟩ := writeHeld_shape gr.ctx (c.heldRecs.length + 1) z
  rw [hz, hw]
  exact (hser gr.ctx).trans (by rw [hctx]; rfl)

/-- The raising engine's clock goes up. -/
theorem takeFault_clock (hg : s.grid p.gridNo = some gr) (hc : mget s.ctxs gr.ctx = some c) (hq : s.seqOf p = some q) :
    (takeFault s p f).clock (s.engineOf p) = s.clock (s.engineOf p) + 1 := by
  obtain ⟨z, hz, -, hlam, -⟩ := takeFault_eq hg hc hq (recordOf s p f gr q c) rfl
  obtain ⟨m, x, v, o, hw, -⟩ := writeHeld_shape gr.ctx (c.heldRecs.length + 1) z
  rw [hz, hw]
  show zget z.lamport _ = _
  rw [hlam, zget_zset_self]

/-- Where the context holds no record and the serial's entry is free, the record enters it. -/
theorem takeFault_enters (hg : s.grid p.gridNo = some gr) (hc : mget s.ctxs gr.ctx = some c) (hq : s.seqOf p = some q)
    (hr : c.heldRecs = []) (hf : entryFree c c.fserial = true) (hb : c.flg2 ≠ 0) (hs : savedStop s gr.ctx c.fserial = false) :
    takeFault s p f = (putHeld (faultHeld s p f gr q c (recordOf s p f gr q c)) gr.ctx (c.holding (recordOf s p f gr q c))
      c.fserial (recordOf s p f gr q c)).raiseQueue c.queue := by
  rw [takeFault_eq_writeHeld hg hc hq, hr]
  exact writeHeld_enters (faultHeld_ctx hc _) (holding_first hr) hf hb
    ((savedStop_recordsAside (recordsAside_faultHeld _) _ _).trans hs)

/-- Where its entry is not free, or there is no buffer, the record stays held. -/
theorem takeFault_stays (hg : s.grid p.gridNo = some gr) (hc : mget s.ctxs gr.ctx = some c) (hq : s.seqOf p = some q)
    (hr : c.heldRecs = []) (h : entryFree c c.fserial = false ∨ c.flg2 = 0) :
    takeFault s p f = faultHeld s p f gr q c (recordOf s p f gr q c) := by
  rw [takeFault_eq_writeHeld hg hc hq, hr]
  exact writeHeld_stays (faultHeld_ctx hc _) (holding_first hr) h

/-- Memory then differs in the entry alone. -/
theorem takeFault_enters_mem (hg : s.grid p.gridNo = some gr) (hc : mget s.ctxs gr.ctx = some c) (hq : s.seqOf p = some q)
    (hr : c.heldRecs = []) (hf : entryFree c c.fserial = true) (hb : c.flg2 ≠ 0) (hs : savedStop s gr.ctx c.fserial = false) :
    (takeFault s p f).mem = writeNat s.mem (memKey 0 (c.fbase + 64 * (c.fserial % bufEntries c))) 64
      (recordOf s p f gr q c).toNat := by
  rw [takeFault_enters hg hc hq hr hf hb hs]
  obtain ⟨a, b, h⟩ := raiseQueue_shape (putHeld (faultHeld s p f gr q c (recordOf s p f gr q c)) gr.ctx
    (c.holding (recordOf s p f gr q c)) c.fserial (recordOf s p f gr q c)) c.queue
  rw [h]
  exact congrArg (fun m => writeNat m _ 64 _) (recordsAside_faultHeld _).1

/-- Of a context that is not confidential nothing but interrupts leaves the device. -/
theorem takeFault_enters_irqs (hg : s.grid p.gridNo = some gr) (hc : mget s.ctxs gr.ctx = some c) (hq : s.seqOf p = some q)
    (hr : c.heldRecs = []) (hf : entryFree c c.fserial = true) (hb : c.flg2 ≠ 0) (hs : savedStop s gr.ctx c.fserial = false)
    (hconf : c.conf = false) : irqsBehind s (takeFault s p f) := by
  rw [takeFault_enters hg hc hq hr hf hb hs]
  have hout : (putHeld (faultHeld s p f gr q c (recordOf s p f gr q c)) gr.ctx (c.holding (recordOf s p f gr q c)) c.fserial
      (recordOf s p f gr q c)).outbox = s.outbox := by
    simp only [putHeld, Ctx.holding, hconf, Bool.false_eq_true, if_false]
    exact (recordsAside_faultHeld _).2.1
  obtain ⟨v, hv, hirq⟩ := raiseQueue_irqs (putHeld (faultHeld s p f gr q c (recordOf s p f gr q c)) gr.ctx
    (c.holding (recordOf s p f gr q c)) c.fserial (recordOf s p f gr q c)) c.queue
  exact ⟨v, by rw [hv, hout], hirq⟩

/-! ### A word that is no instruction (R64, R296) -/

/-- At the PC of a party that can issue: the breakpoint there first, else 0x01. -/
theorem exec_illegalInstruction (hg : s.grid p.gridNo = some gr) (hq : s.seqOf p = some q) (ht : s.turn = .party p)
    (hi : canIssue s p = true) : exec .illegalInstruction s = .next (takeFault s p
      (if hitBrk gr p.scope (s.pcOf p) && decide (q.passBrk ≠ some (s.pcOf p)) then
        { cls := 0x51, cause := 1, slot := pcSlot (s.pcOf p) }
      else { cls := 0x01, slot := pcSlot (s.pcOf p) })) := by
  show execIllegalInstruction s = _
  simp only [execIllegalInstruction, ht, illegalAt, hg, hq, hi, Bool.not_true, Bool.false_eq_true, if_false, List.find?_nil]
  split <;> rfl

end

/-- Settles O57: `takeFault` holds the record and then writes what can be written; the entry is written where it is free. -/
theorem faultEntry : Obligations.FaultEntry := by
  unfold Obligations.FaultEntry
  rintro s p f gr c q r pc hg hc hq rfl hr
  obtain rfl : r = recordOf s p f gr q c := hr
  refine ⟨⟨_, takeFault_seqOf hg hc hq, rfl, rfl, rfl, rfl, canIssue_stopped (takeFault_seqOf hg hc hq) rfl⟩,
    takeFault_fserial hg hc hq, takeFault_clock hg hc hq, fun hh hf hb hs => ⟨?_, ?_, fun a ha => ?_⟩, fun hh hn => ?_,
    fun ht hi hb => ?_, fun ht hi hb => ?_⟩
  · exact takeFault_enters_irqs hg hc hq hh hf hb hs
  · rw [takeFault_enters_mem hg hc hq hh hf hb hs, readNat_writeNat]
    exact Nat.mod_eq_of_lt (record_fits _)
  · rw [takeFault_enters_mem hg hc hq hh hf hb hs]
    exact byteAt_writeBytes_ne _ _ (by simpa using ha)
  · rw [takeFault_stays hg hc hq hh hn]
    exact ⟨(recordsAside_faultHeld _).1, by rw [faultHeld_ctx hc, Option.map_some, holding_first hh]⟩
  · rw [exec_illegalInstruction hg hq ht hi, hb]; rfl
  · rw [exec_illegalInstruction hg hq ht hi, hb]; rfl

end Sys2Proof.Machine
end

/-! ## O59: what members that write registers leave unchanged -/

section
namespace Sys2Proof.Machine

/-! ### Lanes and masks (R68) -/

/-- Lane numbers of a mask are below 1,024. -/
theorem lanesOf_lt {n : Nat} {m : Mask} {l : Nat} (h : l ∈ lanesOf n m) : l < 1024 :=
  BitVec.lt_of_getLsbD (List.mem_filter.mp h).2

theorem lanesOf_nodup (n : Nat) (m : Mask) : (lanesOf n m).Nodup := List.nodup_range.filter _

theorem ofNat_pow_eq_twoPow (w l : Nat) : BitVec.ofNat w (2 ^ l) = BitVec.twoPow w l :=
  BitVec.eq_of_toNat_eq (by rw [BitVec.toNat_ofNat, BitVec.toNat_twoPow])

/-- Adding 2^l to a number with bit l clear sets that bit only. -/
theorem getLsbD_add_two_pow {w a l : Nat} (h : (BitVec.ofNat w a).getLsbD l = false) (k : Nat)
    (hk : (BitVec.ofNat w (a + 2 ^ l)).getLsbD k = true) : (BitVec.ofNat w a).getLsbD k = true ∨ k = l := by
  have hand : BitVec.ofNat w a &&& BitVec.twoPow w l = 0#w := by
    simp [BitVec.and_twoPow, h]
  have hsum : BitVec.ofNat w (a + 2 ^ l) = BitVec.ofNat w a ||| BitVec.twoPow w l := by
    rw [← BitVec.add_eq_or_of_and_eq_zero _ _ hand, BitVec.ofNat_add, ofNat_pow_eq_twoPow]
  rw [hsum, BitVec.getLsbD_or, BitVec.getLsbD_twoPow] at hk
  simp only [Bool.or_eq_true, Bool.and_eq_true, decide_eq_true_eq] at hk
  exact hk.imp_right fun h => h.2.symm

/-- A sum of different powers of two has only their bits, over those of the number that it starts from. -/
theorem getLsbD_foldl_two_pow {w : Nat} {ls : List Nat} (hn : ls.Nodup) (a : Nat)
    (ha : ∀ l ∈ ls, (BitVec.ofNat w a).getLsbD l = false) (k : Nat)
    (hk : (BitVec.ofNat w (ls.foldl (fun a l => a + 2 ^ l) a)).getLsbD k = true) :
    (BitVec.ofNat w a).getLsbD k = true ∨ k ∈ ls := by
  induction ls generalizing a with
  | nil => exact .inl hk
  | cons l ls ih =>
    obtain ⟨hl, hn⟩ := List.nodup_cons.mp hn
    have hstep := getLsbD_add_two_pow (ha l List.mem_cons_self)
    have hclear : ∀ j ∈ ls, (BitVec.ofNat w (a + 2 ^ l)).getLsbD j = false := by
      intro j hj
      by_contra hb
      rcases hstep j (by simpa using hb) with hb | rfl
      · rw [ha j (List.mem_cons_of_mem _ hj)] at hb; exact absurd hb Bool.false_ne_true
      · exact hl hj
    rcases ih hn _ hclear hk with h | h
    · exact (hstep k h).imp_right (by rintro rfl; exact List.mem_cons_self)
    · exact .inr (List.mem_cons_of_mem _ h)

/-- A mask has only the lanes that it is made of. -/
theorem mem_of_maskOf {ls : List Nat} (hn : ls.Nodup) {k : Nat} (h : (maskOf ls).getLsbD k = true) : k ∈ ls :=
  (getLsbD_foldl_two_pow hn 0 (by simp) k h).resolve_left (by simp)

/-! ### What a team keeps -/

/-- The registers, predicates and stop of a team are as they were but for lane registers vs and predicates ps of lanes ls,
scalars ss and q predicates qs; its fpc is, unless fl. -/
structure Team.Keeps (fl : Prop) (ls vs ss ps qs : List Nat) (y z : Team) : Prop where
  lane : ∀ r l, l < 1024 → r ∈ vs ∧ l ∈ ls ∨ zget z.v (vKey r l) = zget y.v (vKey r l)
  scal : ∀ r, r ∈ ss ∨ zget z.s r = zget y.s r
  pred : ∀ r l, r ∈ ps ∧ l ∈ ls ∨ z.pred r l = y.pred r l
  qpred : ∀ r, r ∈ qs ∨ z.seq.q.getLsbD r = y.seq.q.getLsbD r
  fpc : fl ∨ z.fpc = y.fpc
  stop : z.seq.stop = y.seq.stop
  stepping : z.seq.stepping = y.seq.stepping

section
variable {fl : Prop} {ls vs ss ps qs : List Nat} {x y z : Team}

theorem Team.Keeps.refl : y.Keeps fl ls vs ss ps qs y :=
  ⟨fun _ _ _ => .inr rfl, fun _ => .inr rfl, fun _ _ => .inr rfl, fun _ => .inr rfl, .inr rfl, rfl, rfl⟩

/-- A register of neither of two lists of changes is as it was. -/
theorem or_eq_trans {α : Type} {p : Prop} {a b c : α} (h : p ∨ b = a) (h' : p ∨ c = b) : p ∨ c = a := by
  rcases h with h | rfl
  · exact .inl h
  · exact h'

theorem Team.Keeps.trans (h : Team.Keeps fl ls vs ss ps qs x y) (h' : Team.Keeps fl ls vs ss ps qs y z) :
    Team.Keeps fl ls vs ss ps qs x z :=
  ⟨fun r l hl => or_eq_trans (h.lane r l hl) (h'.lane r l hl), fun r => or_eq_trans (h.scal r) (h'.scal r),
    fun r l => or_eq_trans (h.pred r l) (h'.pred r l), fun r => or_eq_trans (h.qpred r) (h'.qpred r), or_eq_trans h.fpc h'.fpc,
    h'.stop.trans h.stop, h'.stepping.trans h.stepping⟩

/-- A team whose registers, predicates and stop are another's. -/
theorem Team.Keeps.of_eq (hv : z.v = y.v) (hs : z.s = y.s) (hp : z.p = y.p) (hq : z.seq.q = y.seq.q)
    (hf : fl ∨ z.fpc = y.fpc) (hst : z.seq.stop = y.seq.stop) (hsp : z.seq.stepping = y.seq.stepping) : Team.Keeps fl ls vs ss ps qs y z :=
  ⟨fun _ _ _ => .inr (by rw [hv]), fun _ => .inr (by rw [hs]), fun _ _ => .inr (by simp only [Team.pred, hp]),
    fun _ => .inr (by rw [hq]), hf, hst, hsp⟩

/-! ### The writes of members -/

/-- Registers and lanes below 1,024 number different words. -/
theorem vKey_inj {r l r' l' : Nat} (hl : l < 1024) (hl' : l' < 1024) (h : vKey r l = vKey r' l') : r = r' ∧ l = l' := by
  unfold vKey at h
  omega

theorem Team.Keeps.setV {r l : Nat} (hr : r ∈ vs) (hl : l ∈ ls) (hlt : l < 1024) (v : W32) :
    Team.Keeps fl ls vs ss ps qs y (y.setV r l v) := by
  refine ⟨fun r' l' hl' => ?_, fun _ => .inr rfl, fun _ _ => .inr rfl, fun _ => .inr rfl, .inr rfl, rfl, rfl⟩
  by_cases hk : vKey r' l' = vKey r l
  · obtain ⟨rfl, rfl⟩ := vKey_inj hl' hlt hk
    exact .inl ⟨hr, hl⟩
  · exact .inr (zget_zset_ne _ _ hk)

/-- A fold of writes that each keep the rest keeps the rest. -/
theorem Team.Keeps.foldl {α : Type} {f : Team → α → Team} {xs : List α}
    (h : ∀ e ∈ xs, ∀ t, Team.Keeps fl ls vs ss ps qs t (f t e)) (y : Team) : Team.Keeps fl ls vs ss ps qs y (xs.foldl f y) := by
  induction xs generalizing y with
  | nil => exact .refl
  | cons e xs ih =>
    exact (h e List.mem_cons_self y).trans (ih (fun e he => h e (List.mem_cons_of_mem _ he)) _)

theorem Team.Keeps.setS {n : Nat} (hn : n ∈ ss) (v : W64) : Team.Keeps fl ls vs ss ps qs y (y.setS n v) := by
  refine ⟨fun _ _ _ => .inr rfl, fun r => ?_, fun _ _ => .inr rfl, fun _ => .inr rfl, .inr rfl, rfl, rfl⟩
  by_cases hr : r = n
  · exact .inl (hr ▸ hn)
  · exact .inr (zget_zset_ne _ _ hr)

/-- A predicate's bits change in the lanes of the masks only. -/
theorem Team.Keeps.setP {n : Nat} {clr set : Mask} (hn : n ∈ ps) (hc : ∀ l, clr.getLsbD l = true → l ∈ ls)
    (hs : ∀ l, set.getLsbD l = true → l ∈ ls) :
    Team.Keeps fl ls vs ss ps qs y { y with p := zset y.p n ((zget y.p n &&& ~~~clr) ||| set) } := by
  refine ⟨fun _ _ _ => .inr rfl, fun _ => .inr rfl, fun r l => ?_, fun _ => .inr rfl, .inr rfl, rfl, rfl⟩
  by_cases hr : r = n
  · subst hr
    by_cases hl : l ∈ ls
    · exact .inl ⟨hn, hl⟩
    · have hcl : clr.getLsbD l = false := by simpa using mt (hc l) hl
      have hsl : set.getLsbD l = false := by simpa using mt (hs l) hl
      refine .inr ?_
      simp only [Team.pred, zget_zset_self, BitVec.getLsbD_or, BitVec.getLsbD_and, BitVec.getLsbD_not, hcl, hsl,
        Bool.or_false, Bool.not_false, Bool.and_true]
      by_cases hlt : l < 1024
      · simp only [hlt, decide_true, Bool.and_true]
      · simp only [hlt, decide_false, Bool.and_false, BitVec.getLsbD_of_ge _ _ (Nat.le_of_not_lt hlt)]
  · exact .inr (by simp only [Team.pred, zget_zset_ne _ _ hr])

theorem getLsbD_setQ_ne {q : BitVec 16} {n r : Nat} (h : r ≠ n) (v : Bool) : (setQ q n v).getLsbD r = q.getLsbD r := by
  have hb : (BitVec.ofNat 16 (2 ^ n)).getLsbD r = false := by
    rw [ofNat_pow_eq_twoPow, BitVec.getLsbD_twoPow]
    simp [Ne.symm h]
  unfold setQ
  dsimp only
  split
  · rw [BitVec.getLsbD_or, hb, Bool.or_false]
  · rw [BitVec.getLsbD_and, BitVec.getLsbD_not, hb]
    by_cases hlt : r < 16
    · simp [hlt]
    · simp [hlt, BitVec.getLsbD_of_ge _ _ (Nat.le_of_not_lt hlt)]

theorem Team.Keeps.setQ {n : Nat} (hn : n ∈ qs) (v : Bool) :
    Team.Keeps fl ls vs ss ps qs y { y with seq := { y.seq with q := Machine.setQ y.seq.q n v } } := by
  refine ⟨fun _ _ _ => .inr rfl, fun _ => .inr rfl, fun _ _ => .inr rfl, fun r => ?_, .inr rfl, rfl, rfl⟩
  by_cases hr : r = n
  · exact .inl (hr ▸ hn)
  · exact .inr (getLsbD_setQ_ne hr v)

end

/-! ### A team's context -/

/-- The context of a chain of a team. -/
structure Cx.OfTeam (c : Cx) (g b u : Nat) : Prop where
  p : c.p = .team g b u
  g : c.g = g
  b : c.b = b
  t : c.t = u
  sc : c.sc = .team
  lanes : c.lanes = lanesOf c.tm.nlane c.act

theorem ready_ofTeam {s : State} {g b u : Nat} {i : Instr} {c : Cx} (h : ready s (.team g b u) i = some c) :
    c.OfTeam g b u := by
  obtain ⟨hp, hg, hb, ht, hsc, -, -, -, -, hl⟩ := ready_team h
  exact ⟨hp, hg, hb, ht, hsc, hl⟩

section
variable {g b u : Nat} {c : Cx} {fl : Prop} {vs ss ps qs : List Nat}

/-- Of a state only one team has changed, counters aside, and it keeps all but what a member of lanes ls writes. -/
abbrev keepsBut (s t : State) (g b u : Nat) (fl : Prop) (ls vs ss ps qs : List Nat) : Prop :=
  teamOnly s t (tKey g b u) (Team.Keeps fl ls vs ss ps qs)

theorem keepsBut_refl (s : State) (ls : List Nat) : keepsBut s s g b u fl ls vs ss ps qs :=
  teamOnly_mono (teamOnly_refl s _) fun _ _ h => h ▸ .refl

theorem keepsBut_trans {s t w : State} {ls : List Nat} (h : keepsBut s t g b u fl ls vs ss ps qs)
    (h' : keepsBut t w g b u fl ls vs ss ps qs) : keepsBut s w g b u fl ls vs ss ps qs :=
  teamOnly_mono (teamOnly_trans h h') fun _ _ ⟨_, h1, h2⟩ => h1.trans h2

theorem keepsBut_onTeam (hc : c.OfTeam g b u) (s : State) {ls : List Nat} {f : Team → Team}
    (hf : ∀ y, Team.Keeps fl ls vs ss ps qs y (f y)) : keepsBut s (c.onTeam s f) g b u fl ls vs ss ps qs := by
  rw [Cx.onTeam, hc.g, hc.b, hc.t]
  exact teamOnly_mono (teamOnly_modTeam s g b u f) fun y _ h => h ▸ hf y

theorem keepsBut_modSeq (s : State) {ls : List Nat} {f : Machine.Seq → Machine.Seq}
    (hf : ∀ y : Team, Team.Keeps fl ls vs ss ps qs y { y with seq := f y.seq }) :
    keepsBut s (s.modSeq (.team g b u) f) g b u fl ls vs ss ps qs :=
  teamOnly_mono (teamOnly_modSeq s g b u f) fun y _ h => h ▸ hf y

/-- Writing lanes of a destination writes its register in those lanes (R60). -/
theorem keepsBut_wrL (hc : c.OfTeam g b u) (s : State) (d : Operand) (f : Nat → W32) :
    keepsBut s (c.wrL s d (c.lanes.map fun l => (l, f l))) g b u fl c.lanes (destRegs d 1) ss ps qs := by
  unfold Cx.wrL
  split
  · refine keepsBut_onTeam hc s fun y => .foldl (fun e he t => ?_) y
    obtain ⟨l, hl, rfl⟩ := List.mem_map.mp he
    exact .setV (by simp [destRegs]) hl (lanesOf_lt (hc.lanes ▸ hl)) _
  · exact keepsBut_refl s _

/-- Writing pairs writes two registers in the lanes (R137). -/
theorem keepsBut_wrD (hc : c.OfTeam g b u) (s : State) (d : Operand) (f : Nat → W64) :
    keepsBut s (c.wrD s d (c.lanes.map fun l => (l, f l))) g b u fl c.lanes (destRegs d 2) ss ps qs := by
  unfold Cx.wrD
  split
  · refine keepsBut_onTeam hc s fun y => .foldl (fun e he t => ?_) y
    obtain ⟨l, hl, rfl⟩ := List.mem_map.mp he
    have hlt := lanesOf_lt (hc.lanes ▸ hl)
    exact .trans (.setV (by simp [destRegs, List.range_succ]) hl hlt _) (.setV (by simp [destRegs, List.range_succ]) hl hlt _)
  · exact keepsBut_refl s _

/-- Writing a predicate writes it in the lanes; p47 takes no write (R127). -/
theorem keepsBut_wrP (hc : c.OfTeam g b u) (s : State) (n : Nat) (f : Nat → Bool) :
    keepsBut s (c.wrP s n (c.lanes.map fun l => (l, f l))) g b u fl c.lanes vs ss [n] qs := by
  have hnd : c.lanes.Nodup := hc.lanes ▸ lanesOf_nodup _ _
  have hall : (c.lanes.map fun l => (l, f l)).map (·.1) = c.lanes := by simp [Function.comp_def]
  have hset : (((c.lanes.map fun l => (l, f l)).filter (·.2)).map (·.1)).Sublist c.lanes := by
    have h := (List.filter_sublist (l := c.lanes.map fun l => (l, f l)) (p := (·.2))).map (·.1)
    rwa [hall] at h
  unfold Cx.wrP
  split
  · exact keepsBut_refl s _
  · refine keepsBut_onTeam hc s fun y => .setP List.mem_cons_self (fun l hl => ?_) fun l hl => ?_
    · rw [hall] at hl
      exact mem_of_maskOf hnd hl
    · exact hset.subset (mem_of_maskOf (hnd.sublist hset) hl)

theorem keepsBut_wrQ (hc : c.OfTeam g b u) (s : State) (n : Nat) (v : Bool) {ls : List Nat} :
    keepsBut s (c.wrQ s n v) g b u fl ls vs ss ps [n] := by
  rw [Cx.wrQ, hc.p]
  exact keepsBut_modSeq s fun y => .setQ List.mem_cons_self v

/-- Sticky flags change the fpc only (R131). -/
theorem keepsBut_setFlags (hc : c.OfTeam g b u) (s : State) (w : W32) {ls : List Nat} :
    keepsBut s (c.setFlags s w) g b u True ls vs ss ps qs :=
  keepsBut_onTeam hc s fun _ => .of_eq rfl rfl rfl rfl (.inl trivial) rfl rfl

theorem keepsBut_float (hc : c.OfTeam g b u) (s : State) (d : Operand) (f : Nat → FRes) :
    keepsBut s (c.float s d f) g b u True c.lanes (destRegs d 1) ss ps qs := by
  unfold Cx.float
  dsimp only
  rw [List.map_map]
  exact keepsBut_trans (keepsBut_wrL hc s d _) (keepsBut_setFlags hc _ _)

/-- A scalar member that writes an s register writes it only (R120). -/
theorem scalarWrite_keeps (hc : c.OfTeam g b u) (s : State) (k : BitVec 5) (v : W64) {ls : List Nat} :
    ∃ st, c.scalarWrite s (.s k) v = .ok st ∧ keepsBut s st g b u fl ls vs [k.toNat] ps qs :=
  ⟨_, rfl, keepsBut_onTeam hc s fun _ => .setS List.mem_cons_self v⟩

end

/-! ### From the team to all registers -/

/-- A team has one key. -/
theorem tKey_inj {g b u g' b' u' : Nat} (h : teamNumbers b u) (h' : teamNumbers b' u') (hk : tKey g' b' u' = tKey g b u) :
    (g', b', u') = (g, b, u) := by
  obtain ⟨hb, hu⟩ := h
  obtain ⟨hb', hu'⟩ := h'
  unfold tKey bKey at hk
  simp only [Prod.mk.injEq]
  omega

section
variable {s t : State} {g b u : Nat} {fl : Prop} {ls vs ss ps qs : List Nat}

/-- What every team reads as, where only one team has changed, and that one only so far. -/
theorem read_kept {α : Type} {y : Team} (hn : teamNumbers b u) (hy : s.team g b u = some y)
    (h : keepsBut s t g b u fl ls vs ss ps qs) (f : Team → α) (z : α) {p : Prop}
    (hf : ∀ w, Team.Keeps fl ls vs ss ps qs y w → p ∨ f w = f y) {g' b' u' : Nat} (hn' : teamNumbers b' u') :
    (g', b', u') = (g, b, u) ∧ p ∨ ((t.team g' b' u').map f).getD z = ((s.team g' b' u').map f).getD z := by
  obtain ⟨x, G, rfl, hother, hteam, -⟩ := h
  by_cases hk : tKey g' b' u' = tKey g b u
  · obtain ⟨w, hw, hkeep⟩ := hteam y hy
    refine (hf w hkeep).imp (fun hp => ⟨tKey_inj hn hn' hk, hp⟩) fun hfw => ?_
    simp only [State.team, hk] at hy ⊢
    simp [hw, hy, hfw]
  · exact .inr (by simp only [State.team, hother _ hk])

theorem onlyWrites_of_keepsBut {y : Team} (hn : teamNumbers b u) (hy : s.team g b u = some y)
    (h : keepsBut s t g b u fl ls vs ss ps qs) : onlyWrites s t g b u ls vs ss ps qs := by
  refine ⟨fun g' b' u' r l hn' hl => ?_, fun g' b' u' r hn' => ?_, fun g' b' u' r l hn' => ?_, fun g' b' u' r hn' => ?_, ?_⟩
  · exact read_kept hn hy h (fun x => zget x.v (vKey r l)) 0 (fun w hw => hw.lane r l hl) hn'
  · exact read_kept hn hy h (fun x => zget x.s r) 0 (fun w hw => hw.scal r) hn'
  · exact read_kept hn hy h (fun x => x.pred r l) false (fun w hw => hw.pred r l) hn'
  · exact read_kept hn hy h (fun x => x.seq.q.getLsbD r) false (fun w hw => hw.qpred r) hn'
  · obtain ⟨hmem, hfr, hcl, hbl, hctx, hqu, hlam⟩ := teamOnly_rest h
    obtain ⟨x, G, rfl, -, -, hgrids⟩ := h
    refine ⟨hmem, hfr, hcl, hbl, hctx, hqu, hlam, fun k => ?_⟩
    have hk := congrArg (Option.map fun x : Grid => x.lvl.vregs) (hgrids k)
    rw [Option.map_map, Option.map_map] at hk
    exact hk

theorem fpcKept_of_keepsBut {y : Team} (hy : s.team g b u = some y)
    (h : keepsBut s t g b u False ls vs ss ps qs) : fpcKept s t g b u := by
  obtain ⟨x, G, rfl, -, hteam, -⟩ := h
  obtain ⟨w, hw, hkeep⟩ := hteam y hy
  unfold fpcKept
  rw [hy, show State.team { s with teams := x, grids := G } g b u = some w from hw]
  exact congrArg some (hkeep.fpc.resolve_left id).symm

end

/-! ### Members -/

/-- The team's registers after its chain has committed with the state that the member left. -/
theorem keepsBut_finish {s st : State} {g b u : Nat} {i : Instr} {c : Cx} {fl : Prop} {ls vs ss ps qs : List Nat}
    (h : ready s (.team g b u) i = some c) (hc : calm s (.team g b u)) (hk : keepsBut s st g b u fl ls vs ss ps qs) :
    keepsBut s (finish1 c i (.ok st)) g b u fl ls vs ss ps qs := by
  have hcap : keepsBut s (captureAll c i st) g b u fl ls vs ss ps qs :=
    keepsBut_trans hk (teamOnly_mono (teamOnly_captureAll (ready_team h).1 st i) fun y z hyz => by
      have same {α : Type} (f : Team → α) : f z.unviewed = f y.unviewed := by rw [hyz]
      exact .of_eq (same (·.v)) (same (·.s)) (same (·.p)) (same (·.seq.q)) (.inr (same (·.fpc))) (same (·.seq.stop))
        (same (·.seq.stepping)))
  refine keepsBut_trans hcap (teamOnly_mono (commit_team h (soleOf c i) (soleOf c i) (chainEnds c [i]) (chainNarrow c [i])
    (a := accS (captureAll c i st)) (calm_teamOnly hc hcap fun y z hyz => ⟨hyz.stop, hyz.stepping⟩) rfl rfl rfl) ?_)
  rintro y z rfl
  exact .of_eq rfl rfl rfl rfl (.inr rfl) rfl rfl

/-- A member answers with a state in which its team keeps all but what it says it writes. -/
structure Writes (g b u : Nat) (fl : Prop) (vs ss ps qs : List Nat) (i : Instr) : Prop where
  exec_eq : exec i = issue1 i (bodyOf i)
  plain : plainMember i = true
  answer : ∀ c s, Cx.OfTeam c g b u → ∃ st, bodyOf i c s = .ok st ∧ keepsBut s st g b u fl c.lanes vs ss ps qs

/-- A ready party has its team. -/
theorem ready_has_team {s : State} {g b u : Nat} {i : Instr} {c : Cx} (h : ready s (.team g b u) i = some c) :
    ∃ y, s.team g b u = some y := by
  obtain ⟨c0, h0, -⟩ := reach_cases (ready_reach h).1
  simp only [soleCx, mkCx, Option.bind_eq_some_iff, Option.map_eq_some_iff] at h0
  obtain ⟨_, _, q, hq, -⟩ := h0
  simp only [State.seqOf, Option.map_eq_some_iff] at hq
  exact hq.imp fun y hy => hy.1

section
variable {s t : State} {g b u : Nat} {i : Instr} {c : Cx} {fl : Prop} {vs ss ps qs : List Nat}

/-- Where such a member has executed, its team keeps all but what it writes. -/
theorem keepsBut_of_writes (hi : Writes g b u fl vs ss ps qs i) (hc : calm s (.team g b u))
    (h : ready s (.team g b u) i = some c) (he : exec i s = .next t) : keepsBut s t g b u fl c.lanes vs ss ps qs := by
  obtain ⟨hex, hp, hb⟩ := hi
  obtain ⟨st, hst, hk⟩ := hb c c.pre (ready_ofTeam h)
  have hpre : c.pre = s := (ready_team h).2.2.2.2.2.1
  have hrun := executes_of (r := fun _ => .ok st) (w := fun x => x = c) hex hp
    (by rintro _ rfl; exact ⟨hst, rfl⟩) s _ c h rfl
  rw [he] at hrun
  obtain rfl := Host.Outcome.next.inj hrun
  exact keepsBut_finish h hc (hpre ▸ hk)

theorem onlyWrites_of_ready (hn : teamNumbers b u) (h : ready s (.team g b u) i = some c) {ls : List Nat}
    (hk : keepsBut s t g b u fl ls vs ss ps qs) : onlyWrites s t g b u ls vs ss ps qs :=
  onlyWrites_of_keepsBut hn (ready_has_team h).choose_spec hk

theorem fpcKept_of_ready (h : ready s (.team g b u) i = some c) {ls : List Nat}
    (hk : keepsBut s t g b u False ls vs ss ps qs) : fpcKept s t g b u :=
  fpcKept_of_keepsBut (ready_has_team h).choose_spec hk

/-- A member answers as one that writes, or makes its party wait, or raises a fault, and then leaves nothing else. -/
inductive Answers (g b u : Nat) (fl : Prop) (vs ss ps qs : List Nat) (c : Cx) : MRes → Prop where
  | ok {st : State} (h : keepsBut c.pre st g b u fl c.lanes vs ss ps qs) : Answers g b u fl vs ss ps qs c (.ok st)
  | hold (w : Wait) : Answers g b u fl vs ss ps qs c (.hold c.pre w)
  | fault (f : FInfo) : Answers g b u fl vs ss ps qs c (.fault c.pre f)

/-- Where such a member has not stopped its team, the team keeps all but what it writes. -/
theorem keepsBut_of_answers (hex : exec i = issue1 i (bodyOf i)) (hp : plainMember i = true) (hc : calm s (.team g b u))
    (h : ready s (.team g b u) i = some c) (ha : Answers g b u fl vs ss ps qs c (bodyOf i c c.pre))
    (he : exec i s = .next t) (hstop : (t.seqOf (.team g b u)).bind (·.stop) = none) :
    keepsBut s t g b u fl c.lanes vs ss ps qs := by
  have hpre : c.pre = s := (ready_team h).2.2.2.2.2.1
  generalize hr : bodyOf i c c.pre = r at ha
  cases ha with
  | @ok st hk =>
    have hrun := executes_of (r := fun _ => .ok st) (w := fun x => x = c) hex hp
      (by rintro _ rfl; exact ⟨hr, rfl⟩) s _ c h rfl
    rw [he] at hrun
    obtain rfl := Host.Outcome.next.inj hrun
    exact keepsBut_finish h hc (hpre ▸ hk)
  | hold w =>
    have hrun := waits_of (r := fun _ => w) (w := fun x => x = c) hex hp (by rintro _ rfl; exact hr) s _ c h rfl
    rw [he] at hrun
    obtain rfl := Host.Outcome.next.inj hrun
    rw [hpre, (ready_ofTeam h).p]
    exact keepsBut_modSeq s fun y => .of_eq rfl rfl rfl rfl (.inr rfl) rfl rfl
  | fault f =>
    have hrun := raises_of (f := fun _ => f) (w := fun x => x = c) hex hp (by rintro _ rfl; exact hr) s _ c h rfl
    rw [he] at hrun
    obtain rfl := Host.Outcome.next.inj hrun
    obtain ⟨q, gr, x, hq, -, -, hgr, hx, -⟩ := hc
    rw [hpre, (ready_ofTeam h).p, takeFault_seqOf hgr hx hq] at hstop
    exact absurd hstop (by simp)

end

section
variable {g b u : Nat} {fl : Prop} {vs ss ps qs : List Nat} {i : Instr}

/-! ### The members of each kind -/

theorem writes_lanes {d : Operand} (he : exec i = issue1 i (bodyOf i)) (hp : plainMember i = true)
    (hb : ∀ c s, ∃ f : Nat → W32, bodyOf i c s = .ok (c.wrL s d (c.lanes.map fun l => (l, f l)))) :
    Writes g b u fl (destRegs d 1) ss ps qs i :=
  ⟨he, hp, fun c s hc => (hb c s).elim fun f h => ⟨_, h, keepsBut_wrL hc s d f⟩⟩

theorem writes_pairs {d : Operand} (he : exec i = issue1 i (bodyOf i)) (hp : plainMember i = true)
    (hb : ∀ c s, ∃ f : Nat → W64, bodyOf i c s = .ok (c.wrD s d (c.lanes.map fun l => (l, f l)))) :
    Writes g b u fl (destRegs d 2) ss ps qs i :=
  ⟨he, hp, fun c s hc => (hb c s).elim fun f h => ⟨_, h, keepsBut_wrD hc s d f⟩⟩

theorem writes_float {d : Operand} (he : exec i = issue1 i (bodyOf i)) (hp : plainMember i = true)
    (hb : ∀ c s, ∃ f : Nat → FRes, bodyOf i c s = .ok (c.float s d f)) : Writes g b u True (destRegs d 1) ss ps qs i :=
  ⟨he, hp, fun c s hc => (hb c s).elim fun f h => ⟨_, h, keepsBut_float hc s d f⟩⟩

theorem writes_pred {n : Nat} (he : exec i = issue1 i (bodyOf i)) (hp : plainMember i = true)
    (hb : ∀ c s, ∃ f : Nat → Bool, bodyOf i c s = .ok (c.wrP s n (c.lanes.map fun l => (l, f l)))) :
    Writes g b u fl vs ss [n] qs i :=
  ⟨he, hp, fun c s hc => (hb c s).elim fun f h => ⟨_, h, keepsBut_wrP hc s n f⟩⟩

theorem writes_q {n : Nat} (he : exec i = issue1 i (bodyOf i)) (hp : plainMember i = true)
    (hb : ∀ c s, ∃ v, bodyOf i c s = .ok (c.wrQ s n v)) : Writes g b u fl vs ss ps [n] i :=
  ⟨he, hp, fun c s hc => (hb c s).elim fun v h => ⟨_, h, keepsBut_wrQ hc s n v⟩⟩

theorem writes_scalar {k : BitVec 5} (he : exec i = issue1 i (bodyOf i)) (hp : plainMember i = true)
    (hb : ∀ c s, c.sc = .team → ∃ v, bodyOf i c s = c.scalarWrite s (.s k) v) :
    Writes g b u fl vs [k.toNat] ps qs i :=
  ⟨he, hp, fun c s hc => (hb c s hc.sc).elim fun v h => h ▸ scalarWrite_keeps hc s k v⟩

/-- A lift of TEAM scope is a scalar member of its team (R84). -/
theorem liftBody_team {c : Cx} (hsc : c.sc = .team) (s : State) (i : Instr) (k : BitVec 5) (lane : Nat)
    (part : Cx → Option W64) :
    liftBody i (.s k) lane part c s = c.scalarWrite s (.s k) (liftResult i [⟨c.b, c.t, part c⟩]) := by
  simp only [liftBody, hsc, dstScope, if_true]

/-- VOTE and REDUCE of TEAM scope write their scalar. -/
theorem bodyVote_scalar {c : Cx} (hsc : c.sc = .team) (s : State) (k : BitVec 5) (a : Operand) (kind : BitVec 2)
    (p : PredSel) : ∃ v, bodyVote (.s k) a kind p c s = c.scalarWrite s (.s k) v := by
  unfold bodyVote
  dsimp only
  split
  · exact ⟨_, rfl⟩
  · exact ⟨_, liftBody_team hsc s _ k 0 _⟩

theorem bodyReduce_scalar {c : Cx} (hsc : c.sc = .team) (s : State) (k : BitVec 5) (a : Operand) (op : BitVec 8) :
    ∃ v, bodyReduce (.s k) a op c s = c.scalarWrite s (.s k) v :=
  ⟨_, liftBody_team hsc s _ k 0 _⟩

/-- A lift that reads one lane answers as one that writes its scalar, or what stands in the lane's way. -/
theorem oneLane_answers {c : Cx} (a : Operand) (l : Nat) {r : MRes} (h : Answers g b u fl vs ss ps qs c r) :
    Answers g b u fl vs ss ps qs c (c.oneLane a l r) := by
  unfold Cx.oneLane
  split
  · split
    · exact .hold _
    · exact .fault _
    · exact h
  · exact h

theorem liftBody_answers {c : Cx} (hc : c.OfTeam g b u) (i : Instr) (k : BitVec 5) (lane : Nat)
    (part : Cx → Option W64) : Answers g b u fl vs [k.toNat] ps qs c (liftBody i (.s k) lane part c c.pre) := by
  rw [liftBody_team hc.sc]
  obtain ⟨st, hst, hk⟩ := scalarWrite_keeps hc c.pre k (liftResult i [⟨c.b, c.t, part c⟩])
  rw [hst]
  exact .ok hk

theorem bodyRdfirst_answers {c : Cx} (hc : c.OfTeam g b u) (k : BitVec 5) (a : Operand) :
    Answers g b u fl vs [k.toNat] ps qs c (bodyRdfirst (.s k) a c c.pre) := by
  unfold bodyRdfirst
  dsimp only
  split
  · exact oneLane_answers a _ (liftBody_answers hc _ k 0 _)
  · exact liftBody_answers hc _ k 0 _

theorem bodyRdlane_answers {c : Cx} (hc : c.OfTeam g b u) (k : BitVec 5) (a j : Operand) :
    Answers g b u fl vs [k.toNat] ps qs c (bodyRdlane (.s k) a j c c.pre) := by
  unfold bodyRdlane
  simp only [dstScope, if_true]
  split
  · exact .fault _
  · exact oneLane_answers a _ (liftBody_answers hc _ k _ _)

theorem bodyShfl_answers {c : Cx} (hc : c.OfTeam g b u) (d a j : Operand) :
    Answers g b u fl (destRegs d 1) ss ps qs c (bodyShfl d a j c c.pre) := by
  unfold bodyShfl
  split
  · next r =>
    dsimp only
    split
    · exact .hold _
    · split
      · exact .fault _
      · rw [List.map_map]
        exact .ok (keepsBut_wrL hc c.pre d fun l => c.vreg r.toNat (c.shflFrom j l))
  · exact .fault _

/-- FCMP writes its predicate and flags (R149). -/
theorem writes_fcmp_pred (n : Fin 48) (cc : BitVec 2) (a e : Operand) :
    Writes g b u True vs ss [n.val] qs (.fcmp (.p n) cc a e) := by
  refine ⟨rfl, rfl, fun c s hc => ⟨_, rfl, ?_⟩⟩
  rw [List.map_map]
  exact keepsBut_trans (keepsBut_wrP hc s n.val _) (keepsBut_setFlags hc _ _)

theorem writes_fcmp_q (m : BitVec 4) (cc : BitVec 2) (a e : Operand) :
    Writes g b u True vs ss ps [m.toNat] (.fcmp (.q m) cc a e) := by
  refine ⟨rfl, rfl, fun c s hc => ⟨_, rfl, ?_⟩⟩
  rw [if_pos hc.sc]
  exact keepsBut_trans (keepsBut_wrQ hc s m.toNat _) (keepsBut_setFlags hc _ _)

end

section
variable {g b u : Nat} (d a e x : Operand) (n : Fin 48) (m : BitVec 4) (p p' : PredSel) (cc op kind qs : BitVec 2)
  (imm : BitVec 16) (imm24 : BitVec 24) (k pos w1 : BitVec 5) (flag sgn np nc : Bool) (fmt elem : BitVec 3) (cs cd : BitVec 4)
  (sel : BitVec 8)

/-- Lane integer members write their destination (R135). -/
theorem laneMembers_write : ∀ i ∈ [Instr.iadd d a e, .isub d a e, .imul d a e, .imulhs d a e, .imulhu d a e, .imin d a e,
    .imax d a e, .umin d a e, .umax d a e, .iabs d a, .iadds d a e, .and d a e, .or d a e, .xor d a e, .shl d a e, .shr d a e,
    .sar d a e, .popc d a, .clz d a, .mov d a, .imad d a e x 0, .movil d imm, .movih d imm, .bfx d a e flag pos sgn w1,
    .bfi d a e flag pos w1, .sel d a e p, .fcls d a sel, .pfxc d a op p], Writes g b u False (destRegs d 1) [] [] [] i := by
  simp only [List.forall_mem_cons, List.not_mem_nil, false_implies, implies_true, and_true]
  and_intros <;> exact writes_lanes rfl rfl fun c s => ⟨_, rfl⟩

/-- The wide IMAD writes a pair (R137). -/
theorem wideMembers_write : ∀ i ∈ [Instr.imad d a e x 1, .imad d a e x 2], Writes g b u False (destRegs d 2) [] [] [] i := by
  simp only [List.forall_mem_cons, List.not_mem_nil, false_implies, implies_true, and_true]
  and_intros <;> exact writes_pairs rfl rfl fun c s => ⟨_, rfl⟩

/-- Lane float members write their destination and flags (R129, R152 to R162). -/
theorem floatMembers_write : ∀ i ∈ [Instr.fadd d a e, .fsub d a e, .fmul d a e, .ffma d a e x np nc, .fmin d a e, .fmax d a e,
    .frcp d a, .frsq d a, .fsqrt d a, .fex2 d a, .flg2 d a, .hadd2 d a e, .hmul2 d a e, .hfma2 d a e x np nc, .cvt d a cs cd,
    .cvtq d a e fmt kind elem, .frnd d a sel, .fscl d a e], Writes g b u True (destRegs d 1) [] [] [] i := by
  simp only [List.forall_mem_cons, List.not_mem_nil, false_implies, implies_true, and_true]
  and_intros <;> exact writes_float rfl rfl fun c s => ⟨_, rfl⟩

/-- Integer compares and PLOG write their predicate (R91, R141). -/
theorem predMembers_write : ∀ i ∈ [Instr.icmp (.p n) cc a e, .ucmp (.p n) cc a e, .plog op (.p n) qs p p'],
    Writes g b u False [] [] [n.val] [] i := by
  simp only [List.forall_mem_cons, List.not_mem_nil, false_implies, implies_true, and_true]
  and_intros <;> exact writes_pred rfl rfl fun c s => ⟨_, rfl⟩

/-- Compares and PLOG of TEAM scope write their q predicate (R91, R122, R128). -/
theorem qMembers_write : ∀ i ∈ [Instr.icmp (.q m) cc a e, .ucmp (.q m) cc a e, .fcmp (.q m) cc a e, .scmp (.q m) cc a e,
    .plog op (.q m) qs p p'], Writes g b u True [] [] [] [m.toNat] i := by
  simp only [List.forall_mem_cons, List.not_mem_nil, false_implies, implies_true, and_true]
  refine ⟨?_, ?_, writes_fcmp_q m cc a e, ?_, ?_⟩
  all_goals exact writes_q rfl rfl fun c s => ⟨_, rfl⟩

/-- Scalar members and lifts of TEAM scope write their s register (R84, R120). -/
theorem scalarMembers_write : ∀ i ∈ [Instr.sadd (.s k) a e, .ssub (.s k) a e, .smul (.s k) a e, .sand (.s k) a e,
    .sor (.s k) a e, .sxor (.s k) a e, .sshl (.s k) a e, .sshr (.s k) a e, .smov (.s k) a, .smovi (.s k) imm,
    .smovx (.s k) a kind imm24, .actm (.s k) a sel, .vote (.s k) a kind p, .reduce (.s k) a sel],
    Writes g b u False [] [k.toNat] [] [] i := by
  simp only [List.forall_mem_cons, List.not_mem_nil, false_implies, implies_true, and_true]
  refine ⟨?_, ?_, ?_, ?_, ?_, ?_, ?_, ?_, ?_, ?_, ?_, ?_, writes_scalar rfl rfl fun c s hsc => bodyVote_scalar hsc s k a kind p,
    writes_scalar rfl rfl fun c s hsc => bodyReduce_scalar hsc s k a sel⟩
  all_goals exact writes_scalar rfl rfl fun c s _ => ⟨_, rfl⟩

end

/-- Settles O59: each member's answer writes its team's destination only, a commit writes no register, and a team's keys are
its own. -/
theorem registerFrame : Obligations.RegisterFrame := by
  unfold Obligations.RegisterFrame
  intro s t g b u c d a e x n m p p' cc op kind qs imm imm24 k pos w1 flag sgn np nc fmt elem cs cd sel hc hn
  have frame {fl : Prop} {vs ss ps qs : List Nat} {i : Instr} (hi : Writes g b u fl vs ss ps qs i)
      (h : ready s (.team g b u) i = some c) (he : exec i s = .next t) : onlyWrites s t g b u c.lanes vs ss ps qs :=
    onlyWrites_of_ready hn h (keepsBut_of_writes hi hc h he)
  have integral {vs ss ps qs : List Nat} {i : Instr} (h : ready s (.team g b u) i = some c)
      (hk : keepsBut s t g b u False c.lanes vs ss ps qs) :
      onlyWrites s t g b u c.lanes vs ss ps qs ∧ fpcKept s t g b u :=
    ⟨onlyWrites_of_ready hn h hk, fpcKept_of_ready h hk⟩
  have both {vs ss ps qs : List Nat} {i : Instr} (hi : Writes g b u False vs ss ps qs i)
      (h : ready s (.team g b u) i = some c) (he : exec i s = .next t) :=
    integral h (keepsBut_of_writes hi hc h he)
  refine ⟨fun i hi => both (laneMembers_write d a e x p op imm pos w1 flag sgn sel i hi),
    fun i hi => both (wideMembers_write d a e x i hi),
    fun i hi => frame (floatMembers_write d a e x kind np nc fmt elem cs cd sel i hi), fun h he hstop => ?_,
    fun i hi => both (predMembers_write a e n p p' cc op qs i hi), frame (writes_fcmp_pred n cc a e),
    fun i hi => frame (qMembers_write a e m p p' cc op qs i hi),
    fun i hi => both (scalarMembers_write a e p kind imm imm24 k sel i hi), ?_⟩
  · exact onlyWrites_of_ready (fl := False) hn h
      (keepsBut_of_answers rfl rfl hc h (bodyShfl_answers (ready_ofTeam h) d a e) he hstop)
  · simp only [List.forall_mem_cons, List.not_mem_nil, false_implies, implies_true, and_true]
    exact ⟨fun h he hstop => integral h
        (keepsBut_of_answers rfl rfl hc h (bodyRdfirst_answers (ready_ofTeam h) k a) he hstop),
      fun h he hstop => integral h
        (keepsBut_of_answers rfl rfl hc h (bodyRdlane_answers (ready_ofTeam h) k a e) he hstop)⟩

end Sys2Proof.Machine
end

/-! ## O29: fetches, tokens and waits that end -/

section
namespace Sys2Proof
namespace Machine

/-! ### What a translation leaves writes no memory (R227, R228) -/

theorem endMiss_mem (s : State) (m : Miss) : (endMiss s m).mem = s.mem := by
  have hleaf {u : State} {t : TlbEnt} {w : State} (h : missLeaf u m = some (t, w)) : w.mem = u.mem := by
    unfold missLeaf at h
    dsimp only at h
    split at h
    · cases h; rfl
    · obtain ⟨p, -, hp⟩ := Option.bind_eq_some_iff.mp h
      split at hp
      · cases hp; rfl
      · cases hp
  unfold endMiss
  dsimp only
  split
  · next t w hw =>
    have hmem := hleaf hw
    split <;> exact hmem
  · rfl

theorem noteMiss_mem (s : State) (m : Option Miss) : (noteMiss s m).mem = s.mem := by
  unfold noteMiss
  split
  · rfl
  · next m =>
    have hroom : ∀ u : State, (match missesOf u m.engine with
        | x :: rest => if m.engine < 96 ∧ 63 ≤ rest.length then endMiss u x else u
        | [] => u).mem = u.mem := by
      intro u
      split
      · split
        · exact endMiss_mem u _
        · rfl
      · rfl
    split
    · rfl
    · dsimp only
      split <;> exact hroom s

theorem bindOne_mem (s : State) (b : Bind) : (bindOne s b).mem = s.mem := by
  unfold bindOne
  rw [noteMiss_mem]
  unfold bindTag
  dsimp only
  split <;> rfl

theorem bindAll_mem (s : State) (bs : List Bind) : (bindAll s bs).mem = s.mem := by
  unfold bindAll
  induction bs generalizing s with
  | nil => rfl
  | cons b bs ih => exact (ih _).trans (bindOne_mem s b)

/-! ### Fetches (R46, R49) -/

/-- A translation does not look at the instruction caches. -/
theorem xlRange_icache (s : State) (l : List ICacheEnt) (o : Origin) (acc : Acc) (a n : Nat) :
    xlRange { s with icache := l } o acc a n = xlRange s o acc a n := rfl

/-- The line that a fetch fills: one packet. -/
def packetLine (s : State) (p : Party) (gr : Grid) (segs : List (Nat × Nat)) : ICacheEnt :=
  ⟨fetchEngine s p, gr.part, gr.space, packetAddr gr (pcPkt (s.pcOf p)), packetWords (readSegs s.mem segs)⟩

/-- A packet that can be read is read into its line, and no memory is written. -/
theorem readPacket_fills {s : State} {e g pkt tier : Nat} {gr : Grid} {segs : List (Nat × Nat)} {bs : List Bind}
    (ha : packetAddr gr pkt + 12 ≤ 2 ^ 56)
    (hx : xlRange s { originOf gr g 0 e with engine := e } .fetch (packetAddr gr pkt) 12 = .ok segs tier bs) :
    ∃ t, readPacket s e gr g pkt = .words (packetWords (readSegs s.mem segs)) t ∧ t.mem = s.mem ∧
      (⟨e, gr.part, gr.space, packetAddr gr pkt, packetWords (readSegs s.mem segs)⟩ : ICacheEnt) ∈ t.icache := by
  unfold readPacket
  dsimp only
  rw [if_neg (Nat.not_lt.mpr ha), hx]
  exact ⟨_, rfl, bindAll_mem s bs, List.mem_append_right _ List.mem_cons_self⟩

theorem exec_packetFetch {s : State} {p : Party} {gr : Grid} {segs : List (Nat × Nat)} {tier : Nat} {bs : List Bind}
    (hg : s.grid p.gridNo = some gr) (hp : s.acts p = true) (ha : packetAddr gr (pcPkt (s.pcOf p)) + 12 ≤ 2 ^ 56)
    (hx : xlRange s { originOf gr p.gridNo 0 (fetchEngine s p) with engine := fetchEngine s p } .fetch
      (packetAddr gr (pcPkt (s.pcOf p))) 12 = .ok segs tier bs) :
    ∃ t, exec (.packetFetch p) s = .next t ∧ t.mem = s.mem ∧ packetLine s p gr segs ∈ t.icache := by
  show ∃ t, execPacketFetch p s = _ ∧ _
  unfold execPacketFetch
  simp only [hg, hp, Bool.not_true, Bool.false_eq_true, if_false]
  obtain ⟨t, ht, hmem, hline⟩ := readPacket_fills (s := { s with icache := s.icache.filter (fun x => !decide (x.core = fetchEngine s p ∧
      x.part = gr.part ∧ x.space = gr.space ∧ x.va = packetAddr gr (pcPkt (s.pcOf p)))) })
    ha ((xlRange_icache s _ _ _ _ _).trans hx)
  rw [ht]
  exact ⟨t, rfl, hmem, hline⟩

/-! ### Tokens (R97, R101, R102) -/

/-- The next token of a queue is its first. -/
theorem nextToken_team {s : State} {g b t : Nat} {x : Team} {tk : Token} {rest : List Token} (hx : s.team g b t = some x)
    (hq : x.seq.queue = tk :: rest) :
    nextToken s (.team g b t) = some (tk, s.modSeq (.team g b t) fun q => { q with queue := rest }) := by
  simp only [nextToken, State.seqOf, hx, Option.map_some, Option.bind_some, hq]

/-- The position of a level is the one that it keeps with its registers. -/
theorem seqOf_of_lvlOf {s : State} {p : Party} {v : Lvl} (h : s.lvlOf p = some v) : s.seqOf p = some v.seq := by
  cases p with
  | team g b t => cases h
  | block g b => obtain ⟨x, hx, rfl⟩ := Option.map_eq_some_iff.mp h; exact congrArg (Option.map _) hx
  | cluster g k => obtain ⟨x, hx, rfl⟩ := Option.map_eq_some_iff.mp h; exact congrArg (Option.map _) hx
  | grid g => obtain ⟨x, hx, rfl⟩ := Option.map_eq_some_iff.mp h; exact congrArg (Option.map _) hx

/-- A block in cluster mode takes the first token of its queue. -/
theorem nextToken_block {s : State} {g b : Nat} {gr : Grid} {v : Lvl} {tk : Token} {rest : List Token}
    (hv : s.lvlOf (.block g b) = some v) (hg : s.grid g = some gr) (hm : gr.lrec.cmode = true) (hq : v.seq.queue = tk :: rest) :
    nextToken s (.block g b) = some (tk, s.modSeq (.block g b) fun q => { q with queue := rest }) := by
  simp only [nextToken, seqOf_of_lvlOf hv, Option.bind_some, hq, hg, Option.map_some, hm, Option.getD_some, if_true]

/-- Whether a level reads the grid's ring (R102): a cluster, or a block without cluster mode. -/
def readsRing (p : Party) (gr : Grid) (g : Nat) : Prop :=
  (∃ k, p = .cluster g k) ∨ ((∃ k, p = .block g k) ∧ gr.lrec.cmode = false)

/-- A level that reads the ring takes the entry it has come to. -/
theorem nextToken_ring {s : State} {p : Party} {g : Nat} {gr : Grid} {v : Lvl} {tk : Token} (hp : readsRing p gr g)
    (hv : s.lvlOf p = some v) (hg : s.grid g = some gr) (hb : gr.ringBase ≤ v.seq.rd)
    (ht : gr.ring[v.seq.rd - gr.ringBase]? = some tk) :
    nextToken s p = some (tk, trimRing (s.modSeq p fun q => { q with rd := q.rd + 1 }) g) := by
  rcases hp with ⟨k, rfl⟩ | ⟨⟨k, rfl⟩, hm⟩
  · simp only [nextToken, seqOf_of_lvlOf hv, Option.bind_some, Party.gridNo, hg, hb, if_true, ht, Option.map_some]
  · simp only [nextToken, seqOf_of_lvlOf hv, Option.bind_some, Party.gridNo, hg, hb, if_true, ht, Option.map_some, hm,
      Option.getD_some, Bool.false_eq_true, if_false]

/-- A waiting team without a token takes the next one. -/
theorem exec_tokenReceive_team {s u : State} {g b t : Nat} {x : Team} {pc : W32} {tk : Token} (ha : s.acts (.team g b t) = true)
    (hx : s.team g b t = some x) (hw : x.awaiting = some pc) (hn : x.seq.tok = none)
    (ht : nextToken s (.team g b t) = some (tk, u)) : exec (.tokenReceive (.team g b t)) s =
      .next (stepStop (u.modTeam g b t fun x => x.take tk pc) (.team g b t)) := by
  show execTokenReceive _ s = _
  simp only [execTokenReceive, ha, Bool.not_true, Bool.false_eq_true, if_false, hx, Option.bind_some, hw, hn,
    Option.isSome_none, ht, Option.map_some, happens]

/-- A level without a token takes the next one. -/
theorem exec_tokenReceive_level {s u : State} {p : Party} {v : Lvl} {tk : Token} (ha : s.acts p = true) (hv : s.lvlOf p = some v)
    (hw : v.walkDone = false) (hn : v.seq.tok = none) (ht : nextToken s p = some (tk, u)) :
    exec (.tokenReceive p) s = .next (stepStop (levelTake u p tk) p) := by
  show execTokenReceive _ s = _
  cases p with
  | team g b t => cases hv
  | _ => simp only [execTokenReceive, ha, Bool.not_true, Bool.false_eq_true, if_false, hv, Option.bind_some, hw, hn,
      Option.isSome_none, Bool.or_self, ht, Option.map_some, happens]

/-! ### Waits that end (R79, R175, R204, R232, R279) -/

theorem waitOf_of_waitsOn {s : State} {p : Party} {w : Wait} (h : waitsOn s p w) : s.waitOf p = some w := by
  rw [State.waitOf, h.1, if_pos rfl, h.2]

section
variable {s : State} {p : Party}

theorem exec_settleWaitEnd {h : W32} {f : Frame} (hw : waitsOn s p (.settle h))
    (hf : mget s.frames (handleKey p.gridNo (instsOf p).1 (instsOf p).2 h) = some f)
    (hs : settled s p.gridNo (instsOf p).1 (instsOf p).2 f h = true) : exec (.settleWaitEnd p) s = .next (endWait s p) := by
  show execSettleWaitEnd p s = _
  simp only [execSettleWaitEnd, waitOf_of_waitsOn hw, hf, hs, if_true, happens]

theorem exec_spawnRetry {core : Nat} (hw : waitsOn s p .bin) (hc : s.coreOf p = some core)
    (hb : (freeBin s core).isSome = true) : exec (.spawnRetry p) s = .next (endWait s p) := by
  show execSpawnRetry p s = _
  simp only [execSpawnRetry, waitOf_of_waitsOn hw, hc, hb, if_true, happens]

theorem exec_waitmWake {g b t n gran due : Nat} {a w : W64} {cond : BitVec 3}
    (hw : waitsOn s (.team g b t) (.mem a n w cond gran due)) (hp : tKey g b t ∈ s.poked) :
    exec (.waitmWake (.team g b t)) s = .next (endWait { s with poked := sdel1 s.poked (tKey g b t) } (.team g b t)) := by
  show execWaitmWake _ s = _
  simp only [execWaitmWake, waitOf_of_waitsOn hw, hp, if_true, happens]

theorem exec_waitmPeriodicRead {n gran due : Nat} {a w : W64} {cond : BitVec 3}
    (hw : waitsOn s p (.mem a n w cond gran due)) (hd : due ≤ s.clk) :
    exec (.waitmPeriodicRead p) s = .next (endWait s p) := by
  show execWaitmPeriodicRead p s = _
  simp only [execWaitmPeriodicRead, waitOf_of_waitsOn hw, hd, if_true, happens]

theorem exec_parkedAccessResume {gr : Grid} {ls : List Nat} {vas : List W64} (hw : waitsOn s p (.parked ls vas []))
    (hg : s.grid p.gridNo = some gr) (hs : stillParked s p gr ls vas = false) :
    exec (.parkedAccessResume p) s = .next (endWait s p) := by
  show execParkedAccessResume p s = _
  simp only [execParkedAccessResume, waitOf_of_waitsOn hw, hg, hs, Bool.false_eq_true, if_false, happens]

/-- Nothing holds up an access any longer whose lines are there or have failed, and whose pages rest. -/
theorem stillParked_lines {g b t : Nat} {gr : Grid} {y : Blk} {ls : List Nat} {vas : List W64} (hy : s.block g b = some y)
    (hl : ∀ l ∈ ls, (l ∉ y.absent ∧ l ∉ y.held) ∨ l ∈ y.failed) (hz : ∀ z ∈ vas, pageBusy s gr z = false) :
    stillParked s (.team g b t) gr ls vas = false := by
  have hlines : (ls.any fun l => decide ((l ∈ y.absent ∨ l ∈ y.held) ∧ l ∉ y.failed)) = false := by
    rw [List.any_eq_false]
    intro l hm
    have := hl l hm
    simp only [decide_eq_true_eq]
    tauto
  have hpages : vas.any (pageBusy s gr) = false := List.any_eq_false.mpr fun z hm => by simp [hz z hm]
  simp only [stillParked, hy, Option.map_some, Option.getD_some, hlines, hpages, Bool.or_self]

theorem stillParked_pages {gr : Grid} {vas : List W64} (hz : ∀ z ∈ vas, pageBusy s gr z = false) :
    stillParked s p gr [] vas = false := by
  have hpages : vas.any (pageBusy s gr) = false := List.any_eq_false.mpr fun z hm => by simp [hz z hm]
  unfold stillParked
  rw [hpages, Bool.or_false]
  split
  · cases s.block _ _ <;> rfl
  · rfl

end

end Machine
open Machine

/-- Settles O29: each event's function, given that what it waits on is there, answers the state claimed of it. -/
theorem partyEvents : Obligations.PartyEvents := by
  unfold Obligations.PartyEvents
  intro s p gr x g b t pc tk rest v h f core n gran a w cond due ls vas y segs tier bs
  refine ⟨exec_packetFetch, fun ha hx hw hn hq => exec_tokenReceive_team ha hx hw hn (nextToken_team hx hq),
    fun ha hv hw hn hq hg hm => exec_tokenReceive_level ha hv hw hn (nextToken_block hv hg hm hq),
    fun hp ha hv hw hn hg hb ht => exec_tokenReceive_level ha hv hw hn (nextToken_ring hp hv hg hb ht),
    exec_settleWaitEnd, exec_spawnRetry, exec_waitmWake, exec_waitmPeriodicRead,
    fun hw hg hy hl hz => exec_parkedAccessResume hw hg (stillParked_lines hy hl hz),
    fun hw hg hz => exec_parkedAccessResume hw hg (stillParked_pages hz)⟩

end Sys2Proof
end

/-! ## O48: accesses of the host and of peers -/

section
namespace Sys2Proof
namespace Machine

/-! ### The host (R50, R285, R391) -/

section
variable {s : State} {tier : BitVec 2} {pa fn vec : Nat} {bs : List Byte}

theorem exec_hostWrite_in (h : pa + bs.length ≤ tierBytes tier.toNat) :
    exec (.hostWrite tier pa bs) s = .next (setMem s (memKey tier.toNat pa) bs) := by
  show execHostWrite tier pa bs s = _
  rw [execHostWrite, if_neg (Nat.not_lt.mpr h)]

theorem exec_hostWrite_outside (h : tierBytes tier.toNat < pa + bs.length) :
    exec (.hostWrite tier pa bs) s = .fault (.noSuchMemory (pa + bs.length - 1)) := by
  show execHostWrite tier pa bs s = _
  rw [execHostWrite, if_pos h]

/-- Reading a mailbox starts its count anew. -/
theorem exec_mailboxRead (h : vec < vecCount fn) : ∃ t, exec (.mailboxRead fn vec) s = .next t ∧
    (mget t.mailboxes (vecKey fn vec)).map (·.count) = some 0 ∧ t.mem = s.mem := by
  show ∃ t, execMailboxRead fn vec s = _ ∧ _
  simp only [execMailboxRead, if_neg (Nat.not_le.mpr h), happens]
  exact ⟨_, rfl, by rw [mget_mset_self]; rfl, rfl⟩

/-- The vector that a guest has unmasked with an address and data. -/
def Vector.unmasked (y : Vector) (at_ : W64) (data : W32) : Vector :=
  { y with addr := at_, data := data, masked := false, pending := false }

/-- The state once the guest has written the vector's entry. -/
def unmaskedState (s : State) (fn vec : Nat) (y : Vector) : State :=
  { s with
    seed := s.seed + 2
    vectors := mset s.vectors (vecKey fn vec)
      (y.unmasked (Config.freeWord s.seed) ((Config.freeWord (s.seed + 1)).setWidth 32)) }

/-- A vector with nothing pending has only its entry changed. -/
theorem unmaskedState_quiet {y : Vector} (hp : y.pending = false) : mget (unmaskedState s fn vec y).vectors (vecKey fn vec) =
    some { y with addr := Config.freeWord s.seed, data := (Config.freeWord (s.seed + 1)).setWidth 32, masked := false } := by
  rw [unmaskedState, mget_mset_self, Vector.unmasked, ← hp]

theorem exec_msiXUnmask {y : Vector} (hf : fn < 25) (hv : vec < vecCount fn) (hy : mget s.vectors (vecKey fn vec) = some y) :
    exec (.msiXUnmask fn vec) s =
      .next (if y.pending then (unmaskedState s fn vec y).sendVec fn vec else unmaskedState s fn vec y) := by
  show execMsiXUnmask fn vec s = _
  have hno : ¬(25 ≤ fn ∨ vecCount fn ≤ vec) := by omega
  simp only [execMsiXUnmask, if_neg hno, hy, Option.getD_some]
  rfl

/-- An unmasked vector sends its message. -/
theorem sendVec_unmasked (y : Vector) : ((unmaskedState s fn vec y).sendVec fn vec).outbox = s.outbox ++
      [.irq fn vec (Config.freeWord s.seed) ((Config.freeWord (s.seed + 1)).setWidth 32)] ∧
    mget ((unmaskedState s fn vec y).sendVec fn vec).vectors (vecKey fn vec) = some
      { y.unmasked (Config.freeWord s.seed) ((Config.freeWord (s.seed + 1)).setWidth 32) with sent := y.sent + 1 } := by
  have hx : (mget (unmaskedState s fn vec y).vectors (vecKey fn vec)).getD Vector.idle =
      y.unmasked (Config.freeWord s.seed) ((Config.freeWord (s.seed + 1)).setWidth 32) := by
    simp only [unmaskedState, mget_mset_self, Option.getD_some]
  simp only [State.sendVec, hx]
  exact ⟨rfl, mget_mset_self _ _ _⟩

end

/-! ### Peers (R227, R262, R398, R399) -/

section
variable {s : State} {dev part n t a : Nat} {bs : List Byte} {addr x c : W64} {o : BitVec 4} {im : ImportEnt} {bd : Bind}

/-- What a peer's access of n bytes does once an entry admits it and its frames' tags agree. -/
def admittedAccess (dev key : Nat) (op : PeerOp) (s : State) : State :=
  let bad (n : Nat) : Bool := (List.range n).any fun i => poisoned s (key + i)
  match op with
  | .load n => answerPeer s dev (if bad n then none else some (readBytes s.mem key n))
  | .store d => setMem s key d
  | .atomic o n x c =>
    if bad n then answerPeer s dev none
    else answerPeer (match (peerRmw o x c).apply n (readNat s.mem key n) with
      | some v => setMem s key (natBytes n v)
      | none => s) dev (some (natBytes n (readNat s.mem key n)))
  | .msg .. => s

/-- Bytes that a peer's access reaches; none for a message. -/
def accessBytes : PeerOp → Option Nat
  | .load n => some n
  | .store d => some d.length
  | .atomic _ n _ _ => some n
  | .msg .. => none

/-- An access is performed where an entry admits it, and answered with an error elsewhere. -/
theorem exec_peerAccess {op : PeerOp} (hn : accessBytes op = some n) : exec (.peerAccess dev part addr op) s =
    .next (match importFor s dev part addr.toNat n with
      | some e => peerPerform s dev (peerByte addr.toNat).1 (peerByte addr.toNat).2 n e.key
          (admittedAccess dev (memKey (peerByte addr.toNat).1 (peerByte addr.toNat).2) op)
      | none => answerPeer s dev none) := by
  show execPeerAccess dev part addr op s = _
  cases op <;> cases hn <;> rfl

/-- The frames of a peer's access of n bytes, with the key of the entry that admits it (R227). -/
def peerFrames (t a n : Nat) (key : BitVec 8) : Bind := ⟨tagKey t a, (a % 65536 + n + 65535) / 65536, key, none⟩

/-- Where every tag of the frames has the key and is not aliased, the access is performed. -/
theorem peerPerform_agree {key : BitVec 8} (h : ∀ y ∈ tagsOf s (peerFrames t a n key), y.2 = ⟨key, false⟩) (f : State → State) :
    peerPerform s dev t a n key f = f (bindTag s (peerFrames t a n key)) := by
  have halias : (tagsOf s (peerFrames t a n key)).any (fun x => x.2.aliased) = false :=
    List.any_eq_false.mpr fun y hy => by rw [h y hy]; simp
  have hkey : (tagsOf s (peerFrames t a n key)).any (fun x => decide (x.2.key ≠ key)) = false :=
    List.any_eq_false.mpr fun y hy => by rw [h y hy]; simp
  simp only [peerFrames] at halias hkey
  simp only [peerPerform, halias, hkey, peerFrames, Bool.false_eq_true, if_false]

/-- An aliased frame answers with an error. -/
theorem peerPerform_aliased {key : BitVec 8} (h : ∃ y ∈ tagsOf s (peerFrames t a n key), y.2.aliased = true) (f : State → State) :
    peerPerform s dev t a n key f = answerPeer s dev none := by
  have halias : (tagsOf s (peerFrames t a n key)).any (fun x => x.2.aliased) = true := List.any_eq_true.mpr h
  simp only [peerFrames] at halias
  simp only [peerPerform, halias, if_true]

/-- A frame of another key becomes aliased, and the access is answered with an error. -/
theorem peerPerform_mismatch {key : BitVec 8} (h : ∀ y ∈ tagsOf s (peerFrames t a n key), y.2.aliased = false)
    (h' : ∃ y ∈ tagsOf s (peerFrames t a n key), y.2.key ≠ key) (f : State → State) :
    peerPerform s dev t a n key f = answerPeer (setAliased s (peerFrames t a n key)) dev none := by
  have halias : (tagsOf s (peerFrames t a n key)).any (fun x => x.2.aliased) = false :=
    List.any_eq_false.mpr fun y hy => by rw [h y hy]; exact Bool.false_ne_true
  have hkey : (tagsOf s (peerFrames t a n key)).any (fun x => decide (x.2.key ≠ key)) = true :=
    List.any_eq_true.mpr (h'.imp fun y hy => ⟨hy.1, decide_eq_true hy.2⟩)
  simp only [peerFrames] at halias hkey
  simp only [peerPerform, halias, hkey, peerFrames, Bool.false_eq_true, if_false, if_true]

/-- Binding tags changes tags only. -/
theorem bindTag_shape (s : State) (b : Bind) : ∃ k, bindTag s b = { s with keyTags := k } := by
  unfold bindTag
  dsimp only
  split
  · exact ⟨s.keyTags, rfl⟩
  · exact ⟨_, rfl⟩

theorem bindTag_mem (s : State) (b : Bind) : (bindTag s b).mem = s.mem := by
  obtain ⟨k, h⟩ := bindTag_shape s b
  rw [h]

theorem poisoned_bindTag (s : State) (b : Bind) (key : Nat) : poisoned (bindTag s b) key = poisoned s key := by
  obtain ⟨k, h⟩ := bindTag_shape s b
  rw [h]
  rfl

/-- Whether a byte of those that a peer reads is poisoned. -/
theorem anyPoisoned_bindTag (s : State) (b : Bind) (key n : Nat) :
    ((List.range n).any fun i => poisoned (bindTag s b) (key + i)) = (List.range n).any fun i => poisoned s (key + i) := by
  simp only [poisoned_bindTag]

theorem anyPoisoned_false {key : Nat} (h : ∀ i < n, poisoned s (key + i) = false) :
    ((List.range n).any fun i => poisoned s (key + i)) = false :=
  List.any_eq_false.mpr fun i hi => by simp [h i (List.mem_range.mp hi)]

theorem anyPoisoned_true {key : Nat} (h : ∃ i < n, poisoned s (key + i) = true) :
    ((List.range n).any fun i => poisoned s (key + i)) = true :=
  List.any_eq_true.mpr (h.imp fun _ hi => ⟨List.mem_range.mpr hi.1, hi.2⟩)

/-- An admitted access runs under the tags of its frames. -/
theorem exec_peerAccess_admitted {op : PeerOp} (hn : accessBytes op = some n) (hp : peerByte addr.toNat = (t, a))
    (hi : importFor s dev part addr.toNat n = some im) :
    exec (.peerAccess dev part addr op) s = .next (peerPerform s dev t a n im.key (admittedAccess dev (memKey t a) op)) := by
  rw [exec_peerAccess hn, hi, hp]

/-- An access that no entry admits is answered with an error. -/
theorem exec_peerAccess_refused {op : PeerOp} (hn : accessBytes op = some n) (hi : importFor s dev part addr.toNat n = none) :
    exec (.peerAccess dev part addr op) s = .next (answerPeer s dev none) := by
  rw [exec_peerAccess hn, hi]

/-- A load or an atomic of clean bytes reads memory as it was before its tags were bound. -/
theorem admittedAccess_load {key : Nat} (b : Bind) (h : ∀ i < n, poisoned s (key + i) = false) :
    admittedAccess dev key (.load n) (bindTag s b) = answerPeer (bindTag s b) dev (some (readBytes s.mem key n)) := by
  simp only [admittedAccess, anyPoisoned_bindTag, anyPoisoned_false h, bindTag_mem, Bool.false_eq_true, if_false]

theorem admittedAccess_atomic {key : Nat} (b : Bind) (h : ∀ i < n, poisoned s (key + i) = false) :
    admittedAccess dev key (.atomic o n x c) (bindTag s b) = answerPeer
      (match (peerRmw o x c).apply n (readNat s.mem key n) with
        | some v => setMem (bindTag s b) key (natBytes n v)
        | none => bindTag s b) dev (some (natBytes n (readNat s.mem key n))) := by
  simp only [admittedAccess, anyPoisoned_bindTag, anyPoisoned_false h, bindTag_mem, Bool.false_eq_true, if_false]

/-- Of poisoned bytes they are answered with an error. -/
theorem admittedAccess_poisoned {key : Nat} (b : Bind) (h : ∃ i < n, poisoned s (key + i) = true) {op : PeerOp}
    (hop : op = .load n ∨ op = .atomic o n x c) : admittedAccess dev key op (bindTag s b) = answerPeer (bindTag s b) dev none := by
  rcases hop with rfl | rfl <;>
    simp only [admittedAccess, anyPoisoned_bindTag, anyPoisoned_true h, if_true]

/-- A message that no inbound entry names a grid for is dropped (R399). -/
theorem exec_peerAccess_msg_dropped {target blk entry size timeout : Nat} {words : List W32}
    (h : inboundGrid s target dev part = none) :
    exec (.peerAccess dev part addr (.msg target blk entry size timeout words)) s = .next (dropMsg s target) := by
  show execPeerAccess dev part addr (.msg target blk entry size timeout words) s = _
  simp only [execPeerAccess, peerMessage, h]

end

/-! ### Error responses of peers (R237, R398) -/

section
variable {s : State} {g b t : Nat} {gr : Grid} {tm : Team} {addr : W64}

/-- With a granule that was clean, what counts as poisoned meanwhile is clean again. -/
theorem underPoison_clean {gran : Nat} (h : gran ∉ s.poison) (f : State → Option State) : underPoison gran f s =
    (f { s with poison := sadd1 s.poison gran }).map fun t => { t with poison := sdel1 t.poison gran } := by
  rw [underPoison, if_neg h]

/-- A load that reads the peer's word lands while its granule counts as poisoned. -/
theorem exec_peerErrorResponse_load {l : LoadEnt} {lp : LoadPart} (hg : s.grid g = some gr) (ht : s.team g b t = some tm)
    (hl : peerLoad tm addr = some (l, lp)) (hp : lp.key / 64 ∉ s.poison) :
    exec (.peerErrorResponse (.team g b t) addr) s = .next (
      let u := { s with poison := sadd1 s.poison (lp.key / 64) }
      let v := turnAll (u.modTeam g b t fun y => landLoad u { y with loads := y.loads.filter fun k => decide (k ≠ l) } l)
        gr.ctx 2 l.grans (reqOf (.team g b t))
      { v with poison := sdel1 v.poison (lp.key / 64) }) := by
  show execPeerErrorResponse _ _ _ = _
  simp only [execPeerErrorResponse, Party.gridNo, hg, ht, Option.bind_some, hl, underPoison_clean hp, Option.map_some, happens]

/-- The peer's store that stands first in its queue is dropped. -/
theorem exec_peerErrorResponse_store {st : StoreEnt} {rest : List StoreEnt} (hg : s.grid g = some gr)
    (ht : s.team g b t = some tm) (hl : peerLoad tm addr = none) (hq : tm.storeQ = st :: rest) (ha : st.va = addr)
    (h3 : st.tier = 3) : exec (.peerErrorResponse (.team g b t) addr) s =
      .next (dropPeerStore (popStore s (.team g b t)) gr tm.core addr) := by
  show execPeerErrorResponse _ _ _ = _
  simp only [execPeerErrorResponse, Party.gridNo, hg, ht, Option.bind_some, hl, hq, ha, h3, and_self, decide_true, if_true, happens]

/-- The member at the team's PC meets the granule poisoned where that makes a difference to it. -/
theorem exec_peerErrorResponse_member {a : Nat} {bd : Bind} {u : State} (hg : s.grid g = some gr) (ht : s.team g b t = some tm)
    (hl : peerLoad tm addr = none) (hq : tm.storeQ = []) (hx : translate s tm.core gr.part gr.space g .load addr.toNat = .ok 3 a bd)
    (hc : ∀ e ∈ s.copies, e.2.party ≠ .team g b t) (hp : memKey 3 a / 64 ∉ s.poison)
    (hu : issueHere (.team g b t) { s with poison := sadd1 s.poison (memKey 3 a / 64) } = some u)
    (hd : issueHere (.team g b t) s ≠ some { u with poison := sdel1 u.poison (memKey 3 a / 64) }) :
    exec (.peerErrorResponse (.team g b t) addr) s = .next { u with poison := sdel1 u.poison (memKey 3 a / 64) } := by
  have hnone : s.copies.filter (fun e => decide (e.2.party = .team g b t)) = [] :=
    List.filter_eq_nil_iff.mpr fun e he => by simpa using hc e he
  show execPeerErrorResponse _ _ _ = _
  simp only [execPeerErrorResponse, Party.gridNo, hg, ht, Option.bind_some, hl, hq, Bool.false_eq_true, if_false, hx, hnone,
    List.findSome?_nil, Option.orElse_none, underPoison_clean hp, hu, Option.map_some, if_neg hd, happens]

end

end Machine
open Machine

/-- Settles O48: the host's events act as they are written; a peer's access is decided by its import entry, then by the tags of
its frames, then by poison; an error response by what the team has outstanding. -/
theorem hostAndPeers : Obligations.HostAndPeers := by
  unfold Obligations.HostAndPeers
  intro s tier pa fn vec dev part target blk entry size timeout n g b t bs words addr x c o im y gr tm st rest l lp
  refine ⟨fun h => ⟨_, exec_hostWrite_in h, rfl, rfl⟩, exec_hostWrite_outside, exec_mailboxRead,
    fun hf hv hy hp => ?_, fun hf hv hy hp => ?_, ?_, exec_peerAccess_msg_dropped, ?_, ?_,
    exec_peerErrorResponse_store, exec_peerErrorResponse_load, fun a bd u => exec_peerErrorResponse_member⟩
  · exact ⟨_, _, _, (exec_msiXUnmask hf hv hy).trans (by rw [hp]; rfl), unmaskedState_quiet hp, rfl⟩
  · obtain ⟨hout, hvec⟩ := sendVec_unmasked (s := s) (fn := fn) (vec := vec) y
    exact ⟨_, _, _, (exec_msiXUnmask hf hv hy).trans (by rw [hp]; rfl), hout, hvec⟩
  · simp only [List.forall_mem_cons, List.not_mem_nil, false_implies, implies_true, and_true]
    exact ⟨fun h => exec_peerAccess_refused rfl (h n), fun h => exec_peerAccess_refused rfl (h bs.length),
      fun h => exec_peerAccess_refused rfl (h n)⟩
  · rintro t a _ hp rfl hi
    have hadm := exec_peerAccess_admitted (op := .store bs) rfl hp hi
    exact ⟨fun h => by rw [hadm, peerPerform_agree h]; rfl, fun h => by rw [hadm, peerPerform_aliased h],
      fun h h' => by rw [hadm, peerPerform_mismatch h h']; rfl⟩
  · rintro t a _ v hp rfl hi htags rfl
    have hload := exec_peerAccess_admitted (op := .load n) rfl hp hi
    have hatom := exec_peerAccess_admitted (op := .atomic o n x c) rfl hp hi
    rw [peerPerform_agree htags] at hload hatom
    refine ⟨fun hclean => ⟨?_, fun w hw => ?_, fun hw => ?_⟩, fun hbad => ⟨?_, ?_⟩⟩
    · rw [hload, admittedAccess_load _ hclean]; rfl
    · rw [hatom, admittedAccess_atomic _ hclean, hw]; rfl
    · rw [hatom, admittedAccess_atomic _ hclean, hw]; rfl
    · rw [hload, admittedAccess_poisoned (o := o) (x := x) (c := c) _ hbad (.inl rfl)]; rfl
    · rw [hatom, admittedAccess_poisoned _ hbad (.inr rfl)]; rfl

end Sys2Proof
end

/-! ## O3: compares and PLOG write the predicate they name -/

section
namespace Sys2Proof.Machine

/-- A member whose meaning always answers a state executes so. -/
theorem executes_ok {i : Instr} {f : Cx → State} (he : exec i = issue1 i (bodyOf i)) (hp : plainMember i = true)
    (hb : ∀ c, bodyOf i c c.pre = .ok (f c)) : Executes i fun c => .ok (f c) :=
  executes_all he hp fun c => ⟨hb c, rfl⟩

/-- A compare into a lane predicate compares in every active lane (R141). -/
theorem compare_lane (c : Cx) (s : State) (n : Fin 48) (a b : Operand) (f : W32 → W32 → Bool) :
    c.compare s (.p n) a b f = c.wrP s n.val (c.lanes.map fun l => (l, f (c.rdL a l) (c.rdL b l))) := rfl

/-- A compare into a scope predicate compares the low words of its scalars, once (R141). -/
theorem compare_scope (c : Cx) (s : State) (q : BitVec 4) (a b : Operand) (f : W32 → W32 → Bool) :
    c.compare s (.q q) a b f = c.wrQ s q.toNat (f ((c.rdS a).setWidth 32) ((c.rdS b).setWidth 32)) := rfl

/-- What PLOG reads of a predicate in a lane: its own, or the same scope predicate in all (R91). -/
def plogRead (c : Cx) (qs : BitVec 2) (p : PredSel) (l : Nat) : Bool :=
  match p with
  | .p n => c.tm.pred n.val l
  | .q n => c.rdQ (qsScope qs) n.toNat

/-- PLOG into a lane predicate operates on what each active lane reads (R91). -/
theorem bodyPlog_lane (c : Cx) (s : State) (op qs : BitVec 2) (n : Fin 48) (a b : PredSel) :
    bodyPlog op (.p n) qs a b c s =
      .ok (c.wrP s n.val (c.lanes.map fun l => (l, plogOp op (plogRead c qs a l) (plogRead c qs b l)))) := rfl

theorem executes_plog_lane (op qs : BitVec 2) (n : Fin 48) (a b : PredSel) :
    Executes (.plog op (.p n) qs a b) (lanesP n.val fun c l => plogOp op (plogRead c qs a l) (plogRead c qs b l)) :=
  executes_ok rfl rfl fun c => bodyPlog_lane c c.pre op qs n a b

/-- Settles O3: a compare answers the predicate that its destination selects; PLOG reads each selector as it stands. -/
theorem comparesWritePredicates : Obligations.ComparesWritePredicates := by
  unfold Obligations.ComparesWritePredicates
  intro cc op qs a b n m k q r
  have lane (f : W32 → W32 → Bool) (c : Cx) := congrArg MRes.ok (compare_lane c c.pre n a b f)
  have scope (f : W32 → W32 → Bool) (c : Cx) := congrArg MRes.ok (compare_scope c c.pre q a b f)
  refine ⟨executes_ok rfl rfl (lane (condS cc)), executes_ok rfl rfl (lane (condU cc)), executes_ok rfl rfl (scope (condS cc)),
    executes_ok rfl rfl (scope (condU cc)), executes_ok rfl rfl fun c => rfl, executes_plog_lane op qs n (.p m) (.p k),
    executes_plog_lane op qs n (.p m) (.q r), executes_plog_lane op qs n (.q q) (.p k),
    executes_plog_lane op qs n (.q q) (.q r)⟩

end Sys2Proof.Machine
end

/-! ## O5: lanes read other lanes: PFXC, SHFL, ACTM -/

section
namespace Sys2Proof.Machine

/-! ### Members with a scalar result -/

/-- A scalar answer that its destination takes lets the chain commit. -/
theorem accOf_scalarTo {c : Cx} {d : Operand} {f : Cx → W64} (h : takes c d (f c)) (i : Instr) :
    (accOf c i (scalarTo d f c)).isSome = true := by
  obtain ⟨t, ht⟩ := h
  rw [scalarTo, ht]; rfl

/-- A member whose meaning writes a scalar executes wherever a condition lets its destination take it. -/
theorem executes_scalarTo {i : Instr} {d : Operand} {f : Cx → W64} {w : Cx → Prop} (he : exec i = issue1 i (bodyOf i))
    (hp : plainMember i = true) (ht : ∀ c, w c → takes c d (f c))
    (hb : ∀ c, w c → bodyOf i c c.pre = c.scalarWrite c.pre d (f c)) : ExecutesIf i w (scalarTo d f) :=
  executes_of he hp fun c h => ⟨hb c h, accOf_scalarTo (ht c h) i⟩

theorem executes_scalar {i : Instr} {d : Operand} {f : Cx → W64} (he : exec i = issue1 i (bodyOf i))
    (hp : plainMember i = true) (hb : ∀ c, bodyOf i c c.pre = c.scalarWrite c.pre d (f c)) : ExecutesScalar i d f :=
  executes_scalarTo he hp (fun _ h => h) fun c _ => hb c

/-! ### PFXC (R87) -/

/-- PFXC adds to each active lane's source the count of active lanes with the predicate below it, or up to it with mode 1. -/
theorem bodyPfxc_eq (c : Cx) (d a : Operand) (mode : BitVec 2) (n : Fin 48) : bodyPfxc d a mode (.p n) c c.pre =
    lanes32 d (fun c l => c.rdL a l + BitVec.ofNat 32
      (c.lanes.filter fun m => c.tm.pred n.val m && decide (m < l ∨ (m = l ∧ mode = 1))).length) c := by
  simp only [bodyPfxc, lanes32, List.filter_filter, Bool.and_comm]

/-! ### SHFL (R88) -/

/-- SHFL writes what each lane reads of the lane that it names, none of the registers read being outstanding or tagged. -/
theorem bodyShfl_eq {c : Cx} (d j : Operand) {r : BitVec 7} (h : ∀ l ∈ c.lanes, busyV c.tm r.toNat (c.shflFrom j l) = false ∧
      mget c.tm.vtag (vKey r.toNat (c.shflFrom j l)) = none) :
    bodyShfl d (.v r) j c c.pre = lanes32 d (fun c l => c.vreg r.toNat (c.shflFrom j l)) c := by
  have hbusy : ((c.lanes.map fun l => (l, c.shflFrom j l)).any fun e => busyV c.tm r.toNat e.2) = false := by
    simp only [List.any_map, List.any_eq_false, Function.comp]
    exact fun l hl => by simp [(h l hl).1]
  have htag : ((c.lanes.map fun l => (l, c.shflFrom j l)).find? fun e => (mget c.tm.vtag (vKey r.toNat e.2)).isSome) = none := by
    simp only [List.find?_map, Option.map_eq_none_iff, List.find?_eq_none, Function.comp]
    exact fun l hl => by simp [(h l hl).2]
  simp only [bodyShfl, hbusy, htag, Bool.false_eq_true, if_false, List.map_map]
  rfl

/-- Settles O5: PFXC and SHFL answer a value in every active lane, ACTM a scalar by its selector. -/
theorem laneCrossing : Obligations.LaneCrossing := by
  unfold Obligations.LaneCrossing
  intro d a j k n r
  refine ⟨executes_all rfl rfl fun c => ⟨?below, rfl⟩, executes_all rfl rfl fun c => ⟨?upto, rfl⟩,
    executes_of rfl rfl fun c h => ⟨bodyShfl_eq d j h, rfl⟩, executes_scalar rfl rfl fun c => rfl,
    executes_scalar rfl rfl fun c => rfl, executes_scalar rfl rfl fun c => rfl⟩
  case below =>
    refine (bodyPfxc_eq c d a 0 n).trans ?_
    simp [lanes32]
  case upto =>
    refine (bodyPfxc_eq c d a 1 n).trans ?_
    simp [lanes32, Nat.le_iff_lt_or_eq]

end Sys2Proof.Machine
end

/-! ## O6: lifts at TEAM scope -/

section
namespace Sys2Proof.Machine

/-! ### The result of a lift (R86, R90) -/

/-- What a lift makes of the combined value: a REDUCE ends it (R90). -/
def liftEnd (i : Instr) (x : W64) : W64 :=
  match i with
  | .reduce _ _ op => redEnd op.toNat x
  | _ => x

/-- The parts of one team alone are its value, ended. -/
theorem liftResult_one (i : Instr) (b t : Nat) (x : W64) : liftResult i [⟨b, t, some x⟩] = liftEnd i x := by
  cases i <;> rfl

/-- At TEAM scope a lift with a value writes it. -/
theorem liftBody_teamLift {c : Cx} {d : Operand} (h : teamLift c d) (i : Instr) (lane : Nat) {part : Cx → Option W64} {x : W64}
    (hx : part c = some x) (s : State) : liftBody i d lane part c s = c.scalarWrite s d (liftEnd i x) := by
  obtain ⟨hsc, hd⟩ := h
  simp only [liftBody, hsc, hd, if_true, hx, liftResult_one]

/-! ### VOTE (R86) -/

/-- The part of VOTE in one team: any, all, how many of the active lanes have the predicate. -/
def votePart (kind : BitVec 2) (n : Nat) (c : Cx) : W64 :=
  if kind = 0 then (if c.lanes.any (c.tm.pred n) then 1 else 0)
  else if kind = 1 then (if c.lanes.all (c.tm.pred n) then 1 else 0)
  else BitVec.ofNat 64 (c.lanes.filter (c.tm.pred n)).length

/-- But for its mask form VOTE is a lift of that part. -/
theorem bodyVote_lift {kind : BitVec 2} (hk : kind ≠ 2) (c : Cx) (s : State) (d k : Operand) (n : Fin 48) :
    bodyVote d k kind (.p n) c s = liftBody (.vote d k kind (.p n)) d 0 (fun c => some (votePart kind n.val c)) c s := by
  have hany (c : Cx) : (c.lanes.filter (c.tm.pred n.val)).length = 0 ↔ ¬c.lanes.any (c.tm.pred n.val) = true := by
    simp
  have hall (c : Cx) : (c.lanes.filter (c.tm.pred n.val)).length = c.lanes.length ↔ c.lanes.all (c.tm.pred n.val) = true := by
    rw [List.length_filter_eq_length_iff, List.all_eq_true]
  simp only [bodyVote, if_neg hk, hany, hall, ite_not]
  rfl

/-! ### RDFIRST and RDLANE (R89) -/

/-- A clean register stands in no lift's way. -/
theorem oneLane_clean {c : Cx} {a : Operand} {l : Nat} (h : laneClean c a l) (k : MRes) : c.oneLane a l k = k := by
  unfold Cx.oneLane
  cases a with
  | v n =>
    have hr : c.srcV n.toNat [l] = .ready := h
    simp only [hr]
  | _ => rfl

theorem bodyRdfirst_team {c : Cx} {a : Operand} {l : Nat} {ls : List Nat} (hsc : c.sc = .team) (hl : c.lanes = l :: ls)
    (hc : laneClean c a l) (d : Operand) (s : State) : bodyRdfirst d a c s =
      liftBody (.rdfirst d a) d 0 (fun c => c.lanes.head?.map fun l => (c.rdL a l).setWidth 64) c s := by
  simp only [bodyRdfirst, hsc, hl, List.head?_cons, oneLane_clean hc]

theorem bodyRdlane_team {c : Cx} {d a j : Operand} (hd : dstScope d [] = .team) (hn : (c.rdS j).toNat % 2 ^ 32 < c.tm.nlane)
    (hc : laneClean c a ((c.rdS j).toNat % 2 ^ 32)) (s : State) : bodyRdlane d a j c s =
      liftBody (.rdlane d a j) d ((c.rdS j).toNat % 2 ^ 32)
        (fun c' => some ((c'.rdL a ((c.rdS j).toNat % 2 ^ 32)).setWidth 64)) c s := by
  simp only [bodyRdlane, hd, if_true, if_neg (Nat.not_le.mpr hn), oneLane_clean hc]

/-! ### REDUCE (R90) -/

/-- The part of REDUCE in one team: its active lanes' values combined in lane order; none where no lane is active. -/
def reducePart (a : Operand) (op : BitVec 8) (c : Cx) : Option W64 :=
  fold1 (redStep op.toNat) (c.lanes.map fun l => redExt op.toNat (c.rdL a l))

theorem reducePart_cons {c : Cx} {l : Nat} {ls : List Nat} (hl : c.lanes = l :: ls) (a : Operand) (op : BitVec 8) :
    reducePart a op c = some ((ls.map fun m => redExt op.toNat (c.rdL a m)).foldl (redStep op.toNat)
      (redExt op.toNat (c.rdL a l))) := by
  rw [reducePart, hl]; rfl

/-- Settles O6: each member is a lift of its team's part, which at TEAM scope is the result. -/
theorem teamLifts : Obligations.TeamLifts := by
  unfold Obligations.TeamLifts
  intro d a j k n op
  have vote {kind : BitVec 2} (hk : kind ≠ 2) : ExecutesIf (.vote d k kind (.p n))
      (fun c => teamLift c d ∧ takes c d (votePart kind n.val c)) (scalarTo d (votePart kind n.val)) :=
    executes_scalarTo rfl rfl (fun c h => h.2) fun c h =>
      (bodyVote_lift hk c c.pre d k n).trans (liftBody_teamLift h.1 (.vote d k kind (.p n)) 0 rfl c.pre)
  refine ⟨vote (kind := 0) (by decide), vote (kind := 1) (by decide), executes_scalar rfl rfl fun c => rfl,
    vote (kind := 3) (by decide), fun l ls => ?rdfirst, fun l => ?rdlane, fun l ls => ?reduce⟩
  case rdfirst =>
    refine executes_scalarTo rfl rfl (fun c h => h.2.2.2) ?_
    rintro c ⟨hlift, hl, hc, -⟩
    refine (bodyRdfirst_team hlift.1 hl hc d c.pre).trans (liftBody_teamLift hlift (.rdfirst d a) 0 ?_ c.pre)
    rw [hl]; rfl
  case rdlane =>
    refine executes_scalarTo rfl rfl (fun c h => h.2.2.2.2) ?_
    rintro c ⟨hlift, rfl, hn, hc, -⟩
    exact (bodyRdlane_team hlift.2 hn hc c.pre).trans (liftBody_teamLift hlift (.rdlane d a j) _ rfl c.pre)
  case reduce =>
    refine executes_scalarTo rfl rfl (fun c h => h.2.2) ?_
    rintro c ⟨hlift, hl, -⟩
    exact liftBody_teamLift hlift (.reduce d a op) 0 (reducePart_cons hl a op) c.pre

end Sys2Proof.Machine
end

/-! ## O10: branches -/

section
namespace Sys2Proof.Machine

/-! ### BT and BF as members -/

section
variable (sense : Bool) (sc : Scope) (p : PredSel) (disp : BitVec 14)

theorem exec_branchOf : exec (branchOf sense sc p disp) =
    issue1 (branchOf sense sc p disp) (bodyOf (branchOf sense sc p disp)) := by
  cases sense <;> rfl

theorem plainMember_branchOf : plainMember (branchOf sense sc p disp) = true := by cases sense <;> rfl

theorem bodyOf_branchOf : bodyOf (branchOf sense sc p disp) = branch sc p sense disp := by cases sense <;> rfl

end

section
variable {sense : Bool} {sc : Scope} {p : PredSel} {disp : BitVec 14} {w : Cx → Prop}

theorem executes_branchOf {r : Cx → MRes} (ha : ∀ c, (accOf c (branchOf sense sc p disp) (r c)).isSome = true)
    (hb : ∀ c, w c → branch sc p sense disp c c.pre = r c) : ExecutesIf (branchOf sense sc p disp) w r :=
  executes_of (exec_branchOf ..) (plainMember_branchOf ..) fun c h => ⟨by rw [bodyOf_branchOf, hb c h], ha c⟩

theorem raises_branchOf {f : Cx → FInfo} (hb : ∀ c, w c → branch sc p sense disp c c.pre = .fault c.pre (f c)) :
    RaisesIf (branchOf sense sc p disp) w f :=
  raises_of (exec_branchOf ..) (plainMember_branchOf ..) fun c h => by rw [bodyOf_branchOf, hb c h]

theorem waits_branchOf {r : Cx → Wait} (hb : ∀ c, w c → branch sc p sense disp c c.pre = .hold c.pre (r c)) :
    WaitsIf (branchOf sense sc p disp) w r :=
  waits_of (exec_branchOf ..) (plainMember_branchOf ..) fun c h => by rw [bodyOf_branchOf, hb c h]

theorem executes_close_branchOf {r : Cx → MRes} (ha : ∀ c, (accOf c (branchOf sense sc p disp) (r c)).isSome = true)
    (hb : ∀ c, w c → branch sc p sense disp c c.pre = r c) : ExecutesClose (branchOf sense sc p disp) w r :=
  executes_close (exec_branchOf ..) (plainMember_branchOf ..) (fun c _ h => by rw [bodyOf_branchOf, hb c h]) fun c _ => ha c

end

/-! ### Targets (R48) -/

theorem target_of_goesTo {c : Cx} {d : Int} {k : Nat} (h : goesTo c d k) : target c.pkt d = some (mkPc k 0) := by
  obtain ⟨hk, hlt⟩ := h
  have hin : (0 : Int) ≤ c.pkt + d ∧ (c.pkt : Int) + d < 2 ^ 30 := by omega
  unfold target
  rw [if_pos hin, hk, Int.toNat_natCast]

theorem target_of_leaves {c : Cx} {d : Int} (h : leaves c d) : target c.pkt d = none := by
  have hout : ¬((0 : Int) ≤ c.pkt + d ∧ (c.pkt : Int) + d < 2 ^ 30) := by unfold leaves at h; omega
  simp only [target, if_neg hout]

theorem jumpTo_of_goesTo {c : Cx} {d : Int} {k : Nat} (h : goesTo c d k) (s : State) :
    c.jumpTo s d = .jump s (mkPc k 0) := by
  simp only [Cx.jumpTo, target_of_goesTo h]

theorem jumpTo_of_leaves {c : Cx} {d : Int} (h : leaves c d) (s : State) : c.jumpTo s d = .fault c.pre { cls := 0x01 } := by
  simp only [Cx.jumpTo, target_of_leaves h]

/-! ### The odd one out (R109) -/

theorem firstOdd_of_all {α : Type} {l : List (α × Bool)} {v : Bool} (h : ∀ e ∈ l, e.2 = v) : firstOdd l = none := by
  cases l with
  | nil => rfl
  | cons a t =>
    have ha : a.2 = v := h a List.mem_cons_self
    have ht : t.find? (fun e => e.2 != a.2) = none :=
      List.find?_eq_none.mpr fun e he => by simp [h e (List.mem_cons_of_mem a he), ha]
    rw [firstOdd, ht]; rfl

/-- Behind values that agree with the first one stands the first that differs. -/
theorem firstOdd_of_odd {α : Type} {a x : α × Bool} {t u : List (α × Bool)} (ht : ∀ e ∈ t, e.2 = a.2) (hx : x.2 ≠ a.2) :
    firstOdd (a :: (t ++ x :: u)) = some x.1 := by
  have hnone : t.find? (fun e => e.2 != a.2) = none := List.find?_eq_none.mpr fun e he => by simp [ht e he]
  rw [firstOdd, List.find?_append, hnone, Option.none_or, List.find?_cons_of_pos (by simpa using hx)]
  rfl

/-- Of values that are all v one is wanted where there is one and v is wanted. -/
theorem any_of_all {α : Type} {l : List (α × Bool)} {v : Bool} (h : ∀ e ∈ l, e.2 = v) (hne : l ≠ []) (w : Bool) :
    l.any (fun e => decide (e.2 = w)) = decide (v = w) := by
  cases l with
  | nil => exact absurd rfl hne
  | cons a t =>
    rw [Bool.eq_iff_iff, List.any_eq_true, decide_eq_true_iff]
    exact ⟨fun ⟨e, he, hw⟩ => h e he ▸ of_decide_eq_true hw,
      fun hw => ⟨a, List.mem_cons_self, decide_eq_true ((h a List.mem_cons_self).trans hw)⟩⟩

/-! ### A branch on a scope predicate (R115) -/

theorem branch_scope (sc : Scope) (q : BitVec 4) (sense : Bool) (disp : BitVec 14) (c : Cx) (s : State) :
    branch sc (.q q) sense disp c s = if c.rdQ sc q.toNat = sense then c.jumpTo s disp.toInt else .ok s := rfl

/-! ### A branch on the lanes of the running group (R70, R71, R115) -/

section
variable {c : Cx} {n : Fin 48} {sense : Bool} {disp : BitVec 14}

theorem branch_lane_none (h : lanesWith c n.val sense = []) (s : State) : branch .lane (.p n) sense disp c s = .ok s := by
  unfold lanesWith at h
  simp only [branch, if_true, h, List.isEmpty_nil]

/-- The lanes that take the branch leave for its target, where the team's groups do not become too many. -/
theorem branch_lane_some (h : lanesWith c n.val sense ≠ []) (s : State) : branch .lane (.p n) sense disp c s =
    match target c.pkt disp.toInt with
    | none => .fault c.pre { cls := 0x01 }
    | some pc =>
      if 32 < (groupsAfter c (lanesWith c n.val sense) pc).length then .fault c.pre { cls := 0x05, scope := some .lane }
      else .split s (maskOf (lanesWith c n.val sense)) pc := by
  have hne : (c.lanes.filter fun l => decide (c.tm.pred n.val l = sense)).isEmpty = false := List.isEmpty_eq_false_iff.mpr h
  simp only [branch, if_true, hne, Bool.false_eq_true, if_false]
  rfl

/-! ### A branch of a whole team (R109) -/

/-- Each active lane with its predicate. -/
def lanePreds (c : Cx) (n : Nat) : List (Nat × Bool) := c.lanes.map fun l => (l, c.tm.pred n l)

theorem branch_team (s : State) : branch .team (.p n) sense disp c s =
    match firstOdd (lanePreds c n.val) with
    | some l => .fault c.pre { cls := 0x04, scope := some .team, lane := some l }
    | none => if (lanePreds c n.val).any fun e => decide (e.2 = sense) then c.jumpTo s disp.toInt else .ok s := rfl

/-- Where all active lanes agree, the lane predicates do. -/
theorem lanePreds_eq {v : Bool} (h : lanesWith c n.val v = c.lanes) : ∀ e ∈ lanePreds c n.val, e.2 = v := by
  intro e he
  obtain ⟨l, hl, rfl⟩ := List.mem_map.mp he
  rw [← h] at hl
  exact of_decide_eq_true (List.mem_filter.mp hl).2

theorem branch_team_taken {k : Nat} (hne : c.lanes ≠ []) (h : lanesWith c n.val sense = c.lanes) (hk : goesTo c disp.toInt k)
    (s : State) : branch .team (.p n) sense disp c s = .jump s (mkPc k 0) := by
  have hall := lanePreds_eq h
  rw [branch_team, firstOdd_of_all hall]
  simp only [any_of_all hall (by simpa [lanePreds] using hne), decide_true, if_true, jumpTo_of_goesTo hk]

theorem branch_team_passed {v : Bool} (h : lanesWith c n.val v = c.lanes) (hv : v ≠ sense) (s : State) :
    branch .team (.p n) sense disp c s = .ok s := by
  have hall := lanePreds_eq h
  have hany : ((lanePreds c n.val).any fun e => decide (e.2 = sense)) = false :=
    List.any_eq_false.mpr fun e he => by rw [hall e he]; simpa using hv
  rw [branch_team, firstOdd_of_all hall]
  simp only [hany, Bool.false_eq_true, if_false]

theorem branch_team_odd {h l : Nat} {t u : List Nat} (hl : c.lanes = h :: (t ++ l :: u))
    (ht : ∀ m ∈ t, c.tm.pred n.val m = c.tm.pred n.val h) (hx : c.tm.pred n.val l ≠ c.tm.pred n.val h) (s : State) :
    branch .team (.p n) sense disp c s = .fault c.pre { cls := 0x04, scope := some .team, lane := some l } := by
  have hodd : firstOdd (lanePreds c n.val) = some l := by
    rw [lanePreds, hl, List.map_cons, List.map_append, List.map_cons, firstOdd_of_odd (by simpa using ht) hx]
  rw [branch_team, hodd]

/-! ### A branch at a rendezvous of a wider scope (R108, R109) -/

variable {sc : Scope} (hlane : sc ≠ .lane) (hteam : sc ≠ .team)
include hlane hteam

/-- A team arrives with the predicates of its active lanes. -/
theorem branch_arrives (hc : c.sc = .team) (s : State) : branch sc (.p n) sense disp c s =
    .ok (s.modLvl (ownerAt c.g c.b c.k sc) fun x => { x with arr := x.arr ++ [⟨c.b, c.t, lanePreds c n.val⟩] }) := by
  simp only [branch, if_neg hlane, if_neg hteam, hc, if_true]
  rfl

theorem branch_waits (hc : c.sc ≠ .team) (h : ¬allArrived c sc) (s : State) :
    branch sc (.p n) sense disp c s = .hold c.pre (.notReady 2) := by
  have hmiss : (!(placed c.gr sc) || (liveTeams c.pre c.g sc (instNo c.p)).any fun e =>
      !((((c.pre.lvlOf c.p).map (·.arr)).getD []).any fun a => decide (a.blk = e.1 ∧ a.team = e.2))) = true := by
    by_contra hno
    exact h (by simpa [allArrived] using hno)
  simp only [branch, if_neg hlane, if_neg hteam, if_neg hc, hmiss, if_true]

/-- Once all teams have arrived the owner decides by what they have contributed. -/
theorem branch_decides (hc : c.sc ≠ .team) (h : allArrived c sc) : branch sc (.p n) sense disp c c.pre =
    match firstOdd (contributed c sc) with
    | some (b, t, l) => .fault c.pre { cls := 0x04, scope := some sc, lane := some l, team := some (b, t) }
    | none =>
      if ((contributed c sc).any fun e => e.2) = sense then c.jumpTo (noArrivals c) disp.toInt else .ok (noArrivals c) := by
  obtain ⟨hplaced, harr⟩ := h
  have hmiss : (!(placed c.gr sc) || (liveTeams c.pre c.g sc (instNo c.p)).any fun e =>
      !((((c.pre.lvlOf c.p).map (·.arr)).getD []).any fun a => decide (a.blk = e.1 ∧ a.team = e.2))) = false := by
    rw [hplaced, Bool.not_true, Bool.false_or, List.any_eq_false]
    exact fun e he => by rw [harr e he]; exact Bool.false_ne_true
  simp only [branch, if_neg hlane, if_neg hteam, if_neg hc, hmiss, Bool.false_eq_true, if_false]
  rfl

/-- Where they agree, by the value that they share. -/
theorem branch_agreed {v : Bool} (hc : c.sc ≠ .team) (h : allArrived c sc) (hne : contributed c sc ≠ [])
    (hall : ∀ e ∈ contributed c sc, e.2 = v) : branch sc (.p n) sense disp c c.pre =
      if v = sense then c.jumpTo (noArrivals c) disp.toInt else .ok (noArrivals c) := by
  have hany : ((contributed c sc).any fun e => e.2) = v := by
    simpa using any_of_all hall hne true
  rw [branch_decides hlane hteam hc h, firstOdd_of_all hall]
  simp only [hany]

end

/-- Settles O10: a branch decides by a scope predicate, by the lanes that take it, by lanes that must agree, or by the teams
that have arrived. -/
theorem branches : Obligations.Branches := by
  unfold Obligations.Branches
  intro sense v sc disp n q k
  refine ⟨?_, ?_, ?_, ?_, ?_, ?_, ?_, ?_, ?_, fun h l t u => ?_, fun hlane hteam => ⟨?_, ?_, ?_, ?_⟩⟩
  · exact executes_branchOf (fun _ => rfl) fun c ⟨hq, hk⟩ => by rw [branch_scope, if_pos hq, jumpTo_of_goesTo hk]
  · exact executes_branchOf (fun _ => rfl) fun c hq => by rw [branch_scope, if_neg hq]
  · exact raises_branchOf fun c ⟨hq, hk⟩ => by rw [branch_scope, if_pos hq, jumpTo_of_leaves hk]
  · exact executes_branchOf (fun _ => rfl) fun c h => branch_lane_none h _
  · exact executes_branchOf (fun _ => rfl) fun c ⟨hl, hk, hg⟩ => by
      simp only [branch_lane_some hl, target_of_goesTo hk, if_neg (Nat.not_lt.mpr hg)]
  · exact raises_branchOf fun c ⟨hl, hk⟩ => by simp only [branch_lane_some hl, target_of_leaves hk]
  · exact raises_branchOf fun c ⟨hl, hk, hg⟩ => by simp only [branch_lane_some hl, target_of_goesTo hk, if_pos hg]
  · exact executes_branchOf (fun _ => rfl) fun c ⟨hne, hl, hv, hk⟩ => branch_team_taken hne (hv ▸ hl) hk _
  · exact executes_branchOf (fun _ => rfl) fun c ⟨hl, hv⟩ => branch_team_passed hl hv _
  · exact raises_branchOf fun c ⟨hl, ht, hx⟩ => branch_team_odd hl ht hx _
  · exact executes_close_branchOf (fun _ => rfl) fun c hc => branch_arrives hlane hteam hc _
  · exact waits_branchOf fun c ⟨hc, h⟩ => branch_waits hlane hteam hc h _
  · exact executes_branchOf (fun _ => rfl) fun c ⟨hc, h, hne, hall, hv, hk⟩ => by
      rw [branch_agreed hlane hteam hc h hne hall, if_pos hv, jumpTo_of_goesTo hk]
  · exact executes_branchOf (fun _ => rfl) fun c ⟨hc, h, hne, hall, hv⟩ => by
      rw [branch_agreed hlane hteam hc h hne hall, if_neg hv]

end Sys2Proof.Machine
end

/-! ## O27: SPAWN and AMSG -/

section
namespace Sys2Proof.Machine

/-- Without a replay no point of arbitration is held (R334, R335). -/
theorem arbGate_go {s : State} {ctx : Nat} (h : s.scripted ctx = false) (kind : Nat) (key : W64) (r : Req) :
    arbGate s ctx kind key r = .go := by
  unfold State.scripted at h
  unfold arbGate
  cases hx : mget s.ctxs ctx with
  | none => rfl
  | some x =>
    rw [hx] at h
    cases hr : x.replay with
    | none => simp only [hr]
    | some rp =>
      have hempty : rp.script.isEmpty = true := by simpa [hr] using h
      simp only [hr, hempty, if_true]

/-! ### SPAWN (R79, R83) -/

section
variable {c : Cx} {entry : Operand}

theorem todo_of_no_resume (h : c.tm.resume = none) : c.todo = c.lanes := by simp only [Cx.todo, h]

/-- Where every lane names a packet that exists, no entry is bad. -/
theorem no_bad_entry (h : ∀ m ∈ c.lanes, c.entryOf entry m < 2 ^ 30) :
    (c.lanes.map fun l => (l, c.entryOf entry l)).find? (fun e => decide (2 ^ 30 ≤ e.2)) = none := by
  rw [List.find?_map, Option.map_eq_none_iff, List.find?_eq_none]
  exact fun l hl => by simpa using h l hl

/-- The points of arbitration of a SPAWN that starts: its lanes' bins (R333). -/
def spawnPoints (c : Cx) (entry : Operand) : List W64 :=
  (c.lanes.map fun m => binPoint (BitVec.ofNat 32 (c.entryOf entry m)) c.b).dedup

variable (pay : Operand) (n1 : BitVec 2) (size1 : BitVec 5) (timeout : BitVec 11)

/-- Deposits of lanes that find their bins without a replay diverge nowhere. -/
theorem formDiverges_false {s : State} {ctx : Nat} (h : s.scripted ctx = false) (core g b e : Nat) :
    formDiverges s ctx core g b e = false := by
  simp [formDiverges, arbGate_go h]

theorem bodySpawn_waits (he : ∀ m ∈ c.lanes, c.entryOf entry m < 2 ^ 30) (hd : c.drained = false) (s : State) :
    bodySpawn entry pay n1 size1 timeout c s = .hold c.pre (.notReady 13) := by
  simp only [bodySpawn, no_bad_entry he, hd, Bool.not_false, if_true]

theorem bodySpawn_bad_entry {l : Nat} {ls : List Nat} (hl : c.lanes = l :: ls) (he : 2 ^ 30 ≤ c.entryOf entry l) (s : State) :
    bodySpawn entry pay n1 size1 timeout c s = .fault c.pre { cls := 0x02, lane := some l } := by
  have hbad : (c.lanes.map fun l => (l, c.entryOf entry l)).find? (fun e => decide (2 ^ 30 ≤ e.2)) =
      some (l, c.entryOf entry l) := by
    rw [hl, List.map_cons]
    exact List.find?_cons_of_pos (decide_eq_true he)
  simp only [bodySpawn, hbad]

/-- Where every lane finds a bin, all are deposited, with a turn at each bin. -/
theorem bodySpawn_deposits {t : State} (hlive : c.live) (he : ∀ m ∈ c.lanes, c.entryOf entry m < 2 ^ 30)
    (hd : c.drained = true) (hr : c.tm.resume = none)
    (hdep : depositAll c.core (spawnList c entry pay n1 size1 timeout) c.pre = ([], t)) (ht : t.scripted c.ctx = false) :
    bodySpawn entry pay n1 size1 timeout c c.pre = .ok (turnAll t c.ctx 4 (spawnPoints c entry) c.req) := by
  have htodo := todo_of_no_resume hr
  unfold spawnList at hdep
  rw [htodo] at hdep
  have hpast : c.lanes.filter (fun l => decide (l ∉ c.lanes)) = [] :=
    List.filter_eq_nil_iff.mpr fun l hl => by simpa using hl
  simp only [bodySpawn, no_bad_entry he, hd, htodo, gated_go hlive, hdep, formDiverges_false ht, hpast, Bool.not_true,
    Bool.false_eq_true, if_false]
  simp [spawnPoints, Function.comp_def]

end

/-! ### AMSG (R281, R282) -/

section
variable {c : Cx} {target entry : Operand} (pay : Operand) {x : MemExt} (size1 : BitVec 5) (t10 : BitVec 10) (n1 : BitVec 2)

/-- Where every lane may send, and the stores before a release are performed, all lanes send, in lane order. -/
theorem bodyAmsg_sends {s t : State} (hgood : ∀ m ∈ c.lanes, c.msgBad (c.rdD target m) (c.entryOf entry m) x.ms = none)
    (hrel : x.order = .release → c.drained = true)
    (hsend : c.lanes.foldl (fun o m => o.bind (c.sendMsg m (c.rdD target m) (c.entryOf entry m) (32 * (size1.toNat + 1))
      (binTimeout t10.toNat) (c.payload pay (n1.toNat + 1) m))) (some s) = some t) :
    bodyAmsg target entry pay x size1 t10 n1 c s = .ok t := by
  have hbad : (c.lanes.findSome? fun l => (c.msgBad (c.rdD target l) (c.entryOf entry l) x.ms).map fun f => (l, f)) = none :=
    List.findSome?_eq_none_iff.mpr fun l hl => by rw [hgood l hl]; rfl
  have hwait : (decide (x.order = .release) && !c.drained) = false := by
    by_cases h : x.order = .release
    · rw [hrel h, Bool.not_true, Bool.and_false]
    · rw [decide_eq_false h, Bool.false_and]
  simp only [bodyAmsg, hbad, hwait, hsend, Bool.false_eq_true, if_false]

theorem bodyAmsg_bad {l : Nat} {ls : List Nat} {f : FInfo} (hl : c.lanes = l :: ls)
    (hf : c.msgBad (c.rdD target l) (c.entryOf entry l) x.ms = some f) (s : State) :
    bodyAmsg target entry pay x size1 t10 n1 c s = .fault c.pre { f with lane := some l } := by
  have hbad : (c.lanes.findSome? fun l => (c.msgBad (c.rdD target l) (c.entryOf entry l) x.ms).map fun f => (l, f)) =
      some (l, f) := by
    rw [hl, List.findSome?_cons_of_isSome (by rw [hf]; rfl), hf]; rfl
  simp only [bodyAmsg, hbad]

end

/-- Settles O27: SPAWN and AMSG look for a bad lane first; without one SPAWN waits for its stores, deposits and takes its turns,
AMSG sends. -/
theorem spawnsAndMessages : Obligations.SpawnsAndMessages := by
  unfold Obligations.SpawnsAndMessages
  intro entry pay target n1 size1 timeout t10 x t l ls
  refine ⟨executes_live rfl rfl (fun c hlive ⟨he, hd, hr, hdep, ht⟩ =>
      bodySpawn_deposits pay n1 size1 timeout hlive he hd hr hdep ht)
      fun c _ => rfl,
    waits_of rfl rfl fun c ⟨he, hd⟩ => bodySpawn_waits pay n1 size1 timeout he hd _,
    raises_of rfl rfl fun c ⟨hl, he⟩ => bodySpawn_bad_entry pay n1 size1 timeout hl he _,
    executes_of rfl rfl fun c ⟨hgood, hrel, hsend⟩ => ⟨bodyAmsg_sends pay size1 t10 n1 hgood hrel hsend, rfl⟩,
    fun f => raises_of rfl rfl fun c ⟨hl, hf⟩ => bodyAmsg_bad pay size1 t10 n1 hl hf _⟩

end Sys2Proof.Machine
end

/-! ## O30: bins form their teams, messages are deposited or dropped -/

section
namespace Sys2Proof
namespace Machine

/-! ### Bins (R77 to R79) -/

section
variable {s t : State} {core bin : Nat} {x : Bin}

theorem lowerDue_false (hb : bin < 16) (h : ∀ n < bin, formDue s (core * 16 + n) = none) :
    lowerDue s (core * 16 + bin) = false := by
  rw [lowerDue, List.any_eq_false, show (core * 16 + bin) % 16 = bin by omega,
    show (core * 16 + bin) / 16 * 16 = core * 16 by omega]
  exact fun n hn => by rw [h n (List.mem_range.mp hn)]; exact Bool.false_ne_true

theorem liveBin_of_live {key : Nat} (hx : mget s.bins key = some x) (hl : s.live x.grid = true) : liveBin s key = some x := by
  rw [liveBin, hx, Option.bind_some, if_pos hl]

variable (hb : bin < 16) (hx : mget s.bins (core * 16 + bin) = some x) (hl : s.live x.grid = true)
  (hlow : ∀ n < bin, formDue s (core * 16 + n) = none)
include hb hx hl hlow

theorem exec_binTimerExpiry (he : binExpired s x = true) (hf : formTeam s (core * 16 + bin) true = some t) :
    exec (.binTimerExpiry core bin) s = .next t := by
  show execBinTimerExpiry core bin s = _
  simp only [execBinTimerExpiry, liveBin_of_live hx hl, Option.bind_some, hb, he, decide_true, Bool.and_self, if_true,
    formInTurn,
    lowerDue_false hb hlow, Bool.false_eq_true, if_false, hf, happens]

theorem exec_binFormOnSlotFree (hf : formTeam s (core * 16 + bin) (binExpired s x) = some t) :
    exec (.binFormOnSlotFree core bin) s = .next t := by
  have hdue : formDue s (core * 16 + bin) = some t := by rw [formDue, liveBin_of_live hx hl, Option.bind_some, hf]
  show execBinFormOnSlotFree core bin s = _
  simp only [execBinFormOnSlotFree, hb, lowerDue_false hb hlow, Bool.not_false, and_self, if_true, hdue, happens]

end

/-! ### Messages (R280) -/

/-- The deposit of a message at a core, its turn not yet taken. -/
def landMsg (s : State) (core : Nat) (m : Msg) : Option State :=
  let z := messageToken (s.receive core m.stamp)
  deposit z.2 core { g := m.grid, b := m.blk, entry := m.entry, size := m.size, timeout := m.timeout, words := m.words
                     tok := some z.1 }

theorem depositMsg_eq (s : State) (ctx core : Nat) (m : Msg) : depositMsg s ctx core m =
    (landMsg s core m).map fun t => if m.dev.isSome then t else arbTurn t ctx 4 (binPoint m.entry m.blk) (reqOf m.src) 1 := rfl

/-- A message of a peer, or one that neither a replay nor a log holds up, is let through (R332). -/
theorem msgGate_go {s : State} {ctx : Nat} {m : Msg}
    (h : s.scripted ctx = false ∧ stallsFull s ctx = false ∨ m.dev.isSome = true) : msgGate s ctx m = .go := by
  unfold msgGate
  split
  · rfl
  · next hdev =>
    obtain ⟨hs, hf⟩ := h.resolve_right hdev
    exact gateAll_go hs hf _ _ _

/-- A block that stands nowhere is not on the device. -/
theorem block_none_of_placedBlock {s : State} {g b : Nat} (h : placedBlock s g b = false) : s.block g b = none := by
  simp only [placedBlock, Bool.or_eq_false_iff] at h
  exact Option.not_isSome_iff_eq_none.mp (by simp [h.1])

section
variable {s t : State} {id : Nat} {m : Msg} {gr : Grid} {y : Blk} (hm : mget s.msgs id = some m) (hb : behindMsg s id m = false)
include hm hb

/-- At the core of its block a message is deposited, or forces the core's oldest bin. -/
theorem exec_messageDeposit_arrives (hg : s.grid m.grid = some gr) (hy : s.block m.grid m.blk = some y)
    (hl : s.live m.grid = true) (hgate : s.scripted gr.ctx = false ∧ stallsFull s gr.ctx = false ∨ m.dev.isSome = true) :
    exec (.messageDeposit id) s =
      .next ((depositMsg { s with msgs := mdel s.msgs id } gr.ctx y.core m).getD (forceOldest s y.core)) := by
  show execMessageDeposit id s = _
  simp only [execMessageDeposit, hm, Option.bind_some, hb, hg, hy, hl, msgGate_go hgate, Bool.not_true, Bool.false_eq_true,
    if_false]
  cases depositMsg { s with msgs := mdel s.msgs id } gr.ctx y.core m <;> rfl

theorem exec_messageDeposit_no_grid (hg : s.grid m.grid = none) (hi : ∀ e ∈ s.images, e.2.gid ≠ m.grid) :
    exec (.messageDeposit id) s = .next (dropMsg { s with msgs := mdel s.msgs id } m.part) := by
  have hsaved : (s.images.any fun e => decide (e.2.gid = m.grid)) = false :=
    List.any_eq_false.mpr fun e he => by simpa using hi e he
  show execMessageDeposit id s = _
  simp only [execMessageDeposit, hm, Option.bind_some, hb, hg, hsaved, Bool.false_eq_true, if_false, happens]

theorem exec_messageDeposit_no_block (hg : s.grid m.grid = some gr) (hp : placedBlock s m.grid m.blk = false) :
    exec (.messageDeposit id) s = .next (State.modGrid { s with msgs := mdel s.msgs id } m.grid fun g =>
      { g with msgdrop := g.msgdrop + 1 }) := by
  show execMessageDeposit id s = _
  simp only [execMessageDeposit, hm, Option.bind_some, hb, hg, block_none_of_placedBlock hp, hp, Bool.false_eq_true,
    if_false, happens]

end

end Machine
open Machine

/-- Settles O30: a bin forms where none of a lower number is due; a message is deposited or forces a bin where its block
stands, and is dropped where that is gone. -/
theorem binEvents : Obligations.BinEvents := by
  unfold Obligations.BinEvents
  intro s t core bin id x m gr y
  refine ⟨fun hb hx hl he hf hlow => exec_binTimerExpiry hb hx hl hlow he hf,
    fun hb hx hl hf hlow => exec_binFormOnSlotFree hb hx hl hlow hf, fun hm hb hg hy hl hgate hdep => ?deposited,
    fun hm hb hg hy hl hgate hdep => ?forced, exec_messageDeposit_no_grid, exec_messageDeposit_no_block⟩
  case deposited =>
    have hland : landMsg { s with msgs := mdel s.msgs id } y.core m = some t := hdep
    rw [exec_messageDeposit_arrives hm hb hg hy hl hgate, depositMsg_eq, hland]
    rfl
  case forced =>
    have hland : landMsg { s with msgs := mdel s.msgs id } y.core m = none := hdep
    rw [exec_messageDeposit_arrives hm hb hg hy hl hgate, depositMsg_eq, hland]
    rfl

end Sys2Proof
end

/-! ## O40: grids on the device -/

section
namespace Sys2Proof
namespace Machine

theorem modGrid_modGrid (s : State) (g : Nat) (f f' : Grid → Grid) :
    (s.modGrid g f).modGrid g f' = s.modGrid g fun x => f' (f x) := by
  simp only [State.modGrid, mmod_mmod]

/-! ### Launches that wait (R364) -/

section
variable {s t : State} {id : Nat} {pl : PLaunch} {l : LaunchRec} {new : Option Ctx} {brks : List Brkpt} {stop : Bool} {st : W32}
  (hp : mget s.launches id = some pl) (hd : s.reg.isDown = false)
include hp hd

theorem exec_gridLaunchAccept_go (hj : judge s id pl = .go l new brks stop t) : exec (.gridLaunchAccept id) s =
    .next (giveStatus (tellParent (acceptGrid t id pl l new brks stop) id pl) pl id 0) := by
  show execGridLaunchAccept id s = _
  simp only [execGridLaunchAccept, tryLaunch, hp, hd, Option.map_some, Option.bind_some, hj, Bool.false_eq_true, if_false,
    happens]

theorem exec_gridLaunchAccept_refused (hj : judge s id pl = .refused st t) :
    exec (.gridLaunchAccept id) s = .next (giveStatus t pl id st) := by
  show execGridLaunchAccept id s = _
  simp only [execGridLaunchAccept, tryLaunch, hp, hd, Option.map_some, Option.bind_some, hj, Bool.false_eq_true, if_false,
    happens]

end

/-! ### Placement (R93, R275) -/

section
variable {s t : State} {g core : Nat} {gr : Grid}

/-- With no saved block that could be restored the next block is placed, and is owed no more. -/
theorem exec_blockPlacement (hl : s.live g = true) (hi : ∀ e ∈ s.images, restoreNext s e.1 core = none)
    (ht : placeNext s g core = some t) :
    exec (.blockPlacement g core) s = .next (t.modGrid g fun y => { y with owed := none }) := by
  have hsaved : (s.images.any fun e => (restoreNext s e.1 core).isSome) = false :=
    List.any_eq_false.mpr fun e he => by rw [hi e he]; exact Bool.false_ne_true
  show execBlockPlacement g core s = _
  simp only [execBlockPlacement, hl, hsaved, Bool.not_true, Bool.or_self, Bool.false_eq_true, if_false, ht, Option.map_some,
    happens]

variable (hc : core < 96) (hn : gr.nextBlk < gr.lrec.grid) (ha : clusterAllows s gr (core / 4) = true)
include hc hn ha

/-- A core of a cluster that the grid may use is not refused for itself, nor is the grid's next block. -/
theorem placement_allowed : ¬(96 ≤ core ∨ gr.lrec.grid ≤ gr.nextBlk ∨ (!clusterAllows s gr (core / 4)) = true) := by
  simp only [ha, Bool.not_true, Bool.false_eq_true, or_false]
  omega

variable (hg : s.grid g = some gr)
include hg

theorem placeNext_block (hm : gr.lrec.cmode = false) (hf : coreFits s core ⟨gr.lrec, []⟩ = true) : placeNext s g core =
    some ((placeOn s g gr core gr.nextBlk).modGrid g fun y => { y with nextBlk := gr.nextBlk + 1 }) := by
  simp only [placeNext, hg, Option.bind_some, if_neg (placement_allowed hc hn ha), hm, Bool.false_eq_true, if_false, hf,
    if_true]

/-- What stands for a grid on the cluster that a core begins: in the lowest free slot there (R93). -/
def newCluster (s : State) (gr : Grid) (core : Nat) : Clus :=
  ⟨Lvl.start (mkPc gr.lrec.entry.toNat 0) 4, core / 4,
    ((List.range 4).find? fun n => decide (n ∉ clusterSlots s (core / 4))).getD 0⟩

theorem placeNext_instance (hm : gr.lrec.cmode = true) (h4 : core % 4 = 0) (hs : (clusterSlots s (core / 4)).length < 4)
    (hf : ∀ n < (instBlocks gr.lrec (instOf gr.nextBlk)).length, coreFits s (core + n) ⟨gr.lrec, []⟩ = true) :
    placeNext s g core = some (((instBlocks gr.lrec (instOf gr.nextBlk)).foldl
      (fun s n => placeOn s g gr (core + (n - 4 * instOf gr.nextBlk)) n)
      { s with clusters := mset s.clusters (bKey g (instOf gr.nextBlk)) (newCluster s gr core) }).modGrid g
        fun y => { y with nextBlk := gr.nextBlk + (instBlocks gr.lrec (instOf gr.nextBlk)).length }) := by
  have hfit : ((List.range (instBlocks gr.lrec (instOf gr.nextBlk)).length).all fun i =>
      coreFits s (core + i) ⟨gr.lrec, []⟩) = true :=
    List.all_eq_true.mpr fun n hn => hf n (List.mem_range.mp hn)
  simp only [placeNext, hg, Option.bind_some, if_neg (placement_allowed hc hn ha), hm, if_true, h4, hs, hfit, and_self,
    newCluster]

end

/-! ### Saving and restoring (R275, R300, R303, R306) -/

section
variable {s t : State} {g b id core : Nat} {gr : Grid} {i : Image}

theorem exec_savedBlockRestore (hi : mget s.images id = some i) (ht : restoreNext s id core = some t) :
    exec (.savedBlockRestore id core) s = .next (afterRestore t id i.gid) := by
  show execSavedBlockRestore id core s = _
  simp only [execSavedBlockRestore, hi, Option.bind_some, ht, Option.map_some, happens]

theorem exec_preemption (hg : s.grid g = some gr) :
    exec (.preemption g) s = .next (if gr.status = .saving then saveTree s g true false none else s) := by
  show execPreemption g s = _
  simp only [execPreemption, hg, Option.bind_some]
  split <;> rfl

section
variable (hl : s.live g = true) (hw : ∀ n ∈ (s.blocksOf g).map (·.1), blockWaits s g n = true)
  (hne : (s.blocksOf g).map (·.1) ≠ [])
include hl hw hne

/-- A running grid with blocks, all of which wait, may be saved for its progress. -/
theorem progress_possible : (!(s.live g) || !(((s.blocksOf g).map (·.1)).all (blockWaits s g)) ||
    ((s.blocksOf g).map (·.1)).isEmpty) = false := by
  rw [hl, List.all_eq_true.mpr hw, List.isEmpty_eq_false_iff.mpr hne]
  rfl

variable (hg : s.grid g = some gr)
include hg

/-- In free mode the block placed last is saved where the next one finds no room. -/
theorem exec_forwardProgressSave_block (hm : gr.lrec.cmode = false) (hb : b < gr.lrec.grid) (hn : gr.nextBlk < gr.lrec.grid)
    (hlast : ((s.blocksOf g).map (·.1)).foldl max 0 = b) (hroom : ∀ c < 96, placeNext s g c = none) :
    exec (.forwardProgressSave g b) s =
      .next ((saveParts s g (fun n => decide (n = b)) false true false none).2.modGrid g fun y =>
        { y with owed := some gr.nextBlk }) := by
  have hfull : ((List.range 96).all fun c => (placeNext s g c).isNone) = true :=
    List.all_eq_true.mpr fun c hc => by rw [hroom c (List.mem_range.mp hc)]; rfl
  have hpos := progress_possible hl hw hne
  show execForwardProgressSave g b s = _
  simp only [execForwardProgressSave, hg, Option.bind_some, hpos, Bool.false_eq_true, if_false, hb, if_true, hm, hn, hlast,
    decide_true, hfull, and_self, happens]

/-- The whole grid is saved for a child that finds no grid sequencer. -/
theorem exec_forwardProgressSave_grid (hb : gr.lrec.grid ≤ b) (hf : freeGseq s = none)
    (hc : ∃ e ∈ s.launches, e.2.launcher = .parent g) :
    exec (.forwardProgressSave g b) s = .next (saveTree s g true false none) := by
  have hchild : (s.launches.any fun e => decide (e.2.launcher = .parent g)) = true :=
    List.any_eq_true.mpr (hc.imp fun e he => ⟨he.1, decide_eq_true he.2⟩)
  have hpos := progress_possible hl hw hne
  show execForwardProgressSave g b s = _
  simp only [execForwardProgressSave, hg, Option.bind_some, hpos, Bool.false_eq_true, if_false, if_neg (Nat.not_lt.mpr hb), hf,
    Option.isNone_none, hchild, and_self, if_true, happens]

end

section
variable (hi : mget s.images id = some i) (hw : i.csmWanted = true) (hg : i.grid = some gr)
include hi hw hg

theorem exec_csmPartCopyComplete : exec (.csmPartCopyComplete id) s = .next (copyCsm s id) := by
  show execCsmPartCopyComplete id s = _
  simp only [execCsmPartCopyComplete, hi, Option.bind_some, hw, hg, Option.isNone_some, Bool.not_true, Bool.or_self,
    Bool.false_eq_true, if_false, happens]

/-- The header of the image says so (R302). -/
theorem copyCsm_image : ∃ j, mget (copyCsm s id).images id = some j ∧ j.csmPart = true ∧ j.csmWanted = false ∧
    j.hdr = (i.hdr ||| BitVec.ofNat 512 (2 ^ 13)) + BitVec.ofNat 512 (gr.lrec.csm * 64 * 2 ^ 448) := by
  simp only [copyCsm, hi, hw, hg, Option.isNone_some, Bool.not_true, Bool.or_self, Bool.false_eq_true, if_false,
    Option.map_some, Option.getD_some]
  exact ⟨_, mget_mset_self _ _ _, rfl, rfl, rfl⟩

end

end

/-! ### A team retires (R82) -/

section
variable {s t u : State} {g b k : Nat} {gr : Grid} {x : Team}

/-- What a retiring team has published. -/
def publishedBy (s : State) (gr : Grid) (g b k : Nat) : State :=
  publishAll s (.team g b k) gr.ctx (s.engineOf (.team g b k)) g b (instOf b)

theorem leaveTeam_gone (hp : unpublished (publishedBy s gr g b k) (.team g b k) g b (instOf b) = false)
    (hr : returnFrames (.team g b k) 17 (publishedBy s gr g b k) = .all t) (hh : hashCheck t gr.ctx g b k = .inr u)
    (stop : State → FInfo → State) : leaveTeam s (.team g b k) gr g b k stop = some (notifyBlock (dropTeam u g b k) g b) := by
  unfold publishedBy at hp hr
  simp only [leaveTeam, hp, Bool.false_eq_true, if_false, hr, hh]

theorem exec_teamRetire (hg : s.grid g = some gr) (hx : s.team g b k = some x) (he : x.exiting = true)
    (ha : s.acts (.team g b k) = true) (hcount : ∀ f ∈ x.flags, f.count = 0) (hfault : ∀ f ∈ x.flags, f.faults = [])
    (hq : x.storeQ = []) (hl : x.loads = []) (hs : s.scripted gr.ctx = false) (hst : stallsFull s gr.ctx = false)
    (hleave : ∀ stop, leaveTeam s (.team g b k) gr g b k stop = some u) : exec (.teamRetire (.team g b k)) s = .next u := by
  have hbusy : (x.flags.any fun f => decide (f.count ≠ 0)) = false :=
    List.any_eq_false.mpr fun f hf => by simpa using hcount f hf
  have hgate (keys : List W64) :
      (if s.recordOn gr.ctx then gateAll s gr.ctx 3 keys (reqOf (.team g b k)) else .go) = .go := by
    rw [gateAll_go hs hst, ite_self]
  show execTeamRetire (.team g b k) s = _
  simp only [execTeamRetire, Party.gridNo, hg, hx, Option.bind_some, he, ha, hbusy, Bool.not_true, Bool.or_self,
    Bool.false_eq_true, if_false, hq, hl, List.isEmpty_nil, hgate, hleave, happens]
  rw [List.find?_eq_none.mpr ?noFault]
  case noFault =>
    intro i _
    cases hf : x.flags[i]? with
    | none => exact Bool.false_ne_true
    | some f => simp [hfault f (List.mem_of_getElem? hf)]

end

end Machine
open Machine

/-- Settles O40: each event's function, given that what it needs is there, answers the state claimed of it. -/
theorem gridEvents : Obligations.GridEvents := by
  unfold Obligations.GridEvents
  intro s t u g core id b k gr pl l new brks stop st i x
  refine ⟨exec_gridLaunchAccept_go, exec_gridLaunchAccept_refused, fun hl hi hg hc hn ha => ⟨fun hm hf => ?block,
    fun hm h4 hs hf => ?inst⟩, exec_savedBlockRestore, fun hg hs => ?saving, fun hg hs => ?notSaving,
    fun hg hl hm hb hn hne hlast hw hroom => exec_forwardProgressSave_block hl hw hne hg hm hb hn hlast hroom,
    fun hg hl hw hne hb hf hc => exec_forwardProgressSave_grid hl hw hne hg hb hf hc, fun hi hw hg => ?csm,
    fun hg hx he ha hcount hfault hq hld hs hst hp hr hh =>
      exec_teamRetire hg hx he ha hcount hfault hq hld hs hst (leaveTeam_gone hp hr hh)⟩
  case block => rw [exec_blockPlacement hl hi (placeNext_block hc hn ha hg hm hf), modGrid_modGrid]
  case inst => rw [exec_blockPlacement hl hi (placeNext_instance hc hn ha hg hm h4 hs hf), modGrid_modGrid]; rfl
  case csm =>
    obtain ⟨j, hj, hpart, hwanted, hhdr⟩ := copyCsm_image hi hw hg
    exact ⟨_, j, exec_csmPartCopyComplete hi hw hg, hj, hpart, hwanted, hhdr⟩
  case saving => rw [exec_preemption hg, if_pos hs]
  case notSaving => rw [exec_preemption hg, if_neg hs]

end Sys2Proof
end

/-! ## O7: lifts of a scope wider than TEAM -/

section
namespace Sys2Proof.Machine

/-! ### The owner opens a lift (R84, R89, R103) -/

section
variable {c : Cx} {d : Operand} {slot : Nat}

/-- The owner of a wider lift opens it in the slot that it finds free. -/
theorem liftBody_opens (hsc : c.sc ≠ .team) (hs : c.slotFor d = some slot) (i : Instr) (lane : Nat) (part : Cx → Option W64) :
    liftBody i d lane part c c.pre = opensLift i d slot lane c := by
  simp only [liftBody, if_neg hsc, hs]
  rfl

/-- A lift that its owner opens lets its chain commit. -/
theorem executes_opensLift {i : Instr} {lane : Nat} {w : Cx → Prop} (he : exec i = issue1 i (bodyOf i))
    (hp : plainMember i = true) (hb : ∀ c, w c → bodyOf i c c.pre = opensLift i d slot lane c) :
    ExecutesIf i w (opensLift i d slot lane) :=
  executes_of he hp fun c h => ⟨hb c h, rfl⟩

theorem bodyVote_opens (hsc : c.sc ≠ .team) (hs : c.slotFor d = some slot) {kind : BitVec 2} (hk : kind ≠ 2) (k : Operand)
    (n : Fin 48) : bodyVote d k kind (.p n) c c.pre = opensLift (.vote d k kind (.p n)) d slot 0 c := by
  rw [bodyVote_lift hk]
  exact liftBody_opens hsc hs _ _ _

/-- RDFIRST at its owner looks at no lane. -/
theorem bodyRdfirst_opens (hsc : c.sc ≠ .team) (hs : c.slotFor d = some slot) (a : Operand) :
    bodyRdfirst d a c c.pre = opensLift (.rdfirst d a) d slot 0 c := by
  unfold bodyRdfirst
  dsimp only
  split
  · next hteam _ => exact absurd hteam hsc
  · exact liftBody_opens hsc hs _ _ _

theorem bodyReduce_opens (hsc : c.sc ≠ .team) (hs : c.slotFor d = some slot) (a : Operand) (op : BitVec 8) :
    bodyReduce d a op c c.pre = opensLift (.reduce d a op) d slot 0 c :=
  liftBody_opens hsc hs _ _ _

/-- The launched team that holds lane x of the block is live (R415). -/
def holdsLane (c : Cx) (x : Nat) : Prop :=
  x < c.gr.lrec.team * c.gr.lrec.nteam ∧ (c.pre.team c.g c.b (x / c.gr.lrec.team)).map (·.detached) = some false

variable {a j : Operand} (hsc : c.sc ≠ .team) (hd : dstScope d [] ≠ .team)
include hsc hd

theorem bodyRdlane_opens (h : holdsLane c ((c.rdS j).toNat % 2 ^ 32)) (hs : c.slotFor d = some slot) :
    bodyRdlane d a j c c.pre = opensLift (.rdlane d a j) d slot ((c.rdS j).toNat % 2 ^ 32) c := by
  obtain ⟨hlt, hlive⟩ := h
  obtain ⟨tm, htm, hdet⟩ := Option.map_eq_some_iff.mp hlive
  simp only [bodyRdlane, if_neg hd, if_neg hsc, if_neg (Nat.not_le.mpr hlt), htm, Option.map_some, hdet, Bool.not_false,
    ne_eq, not_true_eq_false, or_false]
  exact liftBody_opens hsc hs _ _ _

theorem bodyRdlane_refuses (h : ¬holdsLane c ((c.rdS j).toNat % 2 ^ 32)) : bodyRdlane d a j c c.pre =
    .fault c.pre { cls := 0x02, addr := BitVec.ofNat 64 ((c.rdS j).toNat % 2 ^ 32) } := by
  have hbad : c.gr.lrec.team * c.gr.lrec.nteam ≤ (c.rdS j).toNat % 2 ^ 32 ∨
      (c.pre.team c.g c.b ((c.rdS j).toNat % 2 ^ 32 / c.gr.lrec.team)).map (fun t => !t.detached) ≠ some true := by
    by_contra hno
    simp only [not_or, Nat.not_le, ne_eq, not_not] at hno
    exact h ⟨hno.1, by simpa [Option.map_eq_some_iff] using hno.2⟩
  simp only [bodyRdlane, if_neg hd, if_neg hsc, if_pos hbad]

end

/-! ### A team gives its part (R84) -/

section
variable {c : Cx} {d a j : Operand} {t : State}

theorem liftBody_gives {i : Instr} {part : Cx → Option W64} (h : givesPart c d i (part c) t) (lane : Nat) :
    liftBody i d lane part c c.pre = .ok t := by
  obtain ⟨hsc, hd, hc⟩ := h
  simp only [liftBody, if_pos hsc, if_neg hd, hc]

theorem bodyVote_gives {kind : BitVec 2} (hk : kind ≠ 2) {k : Operand} {n : Fin 48}
    (h : givesPart c d (.vote d k kind (.p n)) (some (votePart kind n.val c)) t) : bodyVote d k kind (.p n) c c.pre = .ok t := by
  rw [bodyVote_lift hk]
  refine liftBody_gives ?_ 0
  exact h

theorem bodyRdfirst_gives {l : Nat} {ls : List Nat} (hl : c.lanes = l :: ls) (hc : laneClean c a l)
    (h : givesPart c d (.rdfirst d a) (some ((c.rdL a l).setWidth 64)) t) : bodyRdfirst d a c c.pre = .ok t := by
  rw [bodyRdfirst_team h.1 hl hc]
  refine liftBody_gives ?_ 0
  rw [hl]
  exact h

theorem bodyReduce_gives {op : BitVec 8} (h : givesPart c d (.reduce d a op) (reducePart a op c) t) :
    bodyReduce d a op c c.pre = .ok t := liftBody_gives (part := reducePart a op) h 0

theorem executes_gives {i : Instr} {w : Cx → Prop} (he : exec i = issue1 i (bodyOf i)) (hp : plainMember i = true)
    (hb : ∀ c, w c → bodyOf i c c.pre = .ok t) : ExecutesClose i w fun _ => .ok t :=
  executes_close he hp (fun c _ h => hb c h) fun _ _ => rfl

/-- The team that holds the lane gives its register there. -/
theorem bodyRdlane_gives (ht : c.t = (c.rdS j).toNat % 2 ^ 32 / c.gr.lrec.team)
    (hc : laneClean c a ((c.rdS j).toNat % 2 ^ 32 % c.gr.lrec.team))
    (h : givesPart c d (.rdlane d a j) (some ((c.rdL a ((c.rdS j).toNat % 2 ^ 32 % c.gr.lrec.team)).setWidth 64)) t) :
    bodyRdlane d a j c c.pre = .ok t := by
  simp only [bodyRdlane, if_neg h.2.1, if_pos h.1, ← ht, decide_true, if_true, oneLane_clean hc]
  refine liftBody_gives ?_ _
  exact h

/-- Another gives none. -/
theorem bodyRdlane_gives_none (ht : c.t ≠ (c.rdS j).toNat % 2 ^ 32 / c.gr.lrec.team)
    (h : givesPart c d (.rdlane d a j) none t) : bodyRdlane d a j c c.pre = .ok t := by
  simp only [bodyRdlane, if_neg h.2.1, if_pos h.1, decide_eq_false ht, Bool.false_eq_true, if_false]
  refine liftBody_gives ?_ _
  exact h

end

/-! ### Levels (R103) -/

theorem mmod_congr {α : Type} {m : AMap α} {n : Nat} {x : α} {f f' : α → α} (h : mget m n = some x) (hf : f x = f' x) :
    mmod m n f = mmod m n f' := by
  simp only [mmod, h, hf]

/-- Two changes of a level that agree on what it is are the same. -/
theorem modLvl_congr {s : State} {p : Party} {v : Lvl} {f f' : Lvl → Lvl} (h : s.lvlOf p = some v) (hf : f v = f' v) :
    s.modLvl p f = s.modLvl p f' := by
  cases p with
  | team => rfl
  | block g b =>
    obtain ⟨x, hx, rfl⟩ := Option.map_eq_some_iff.mp h
    refine congrArg (fun m => { s with blocks := m }) (mmod_congr hx ?_)
    rw [hf]
  | cluster g k =>
    obtain ⟨x, hx, rfl⟩ := Option.map_eq_some_iff.mp h
    refine congrArg (fun m => { s with clusters := m }) (mmod_congr hx ?_)
    rw [hf]
  | grid g =>
    obtain ⟨x, hx, rfl⟩ := Option.map_eq_some_iff.mp h
    refine congrArg (fun m => { s with grids := m }) (mmod_congr hx ?_)
    rw [hf]

@[simp] theorem State.lvlOf_modLvl (s : State) (p : Party) (f : Lvl → Lvl) : (s.modLvl p f).lvlOf p = (s.lvlOf p).map f := by
  cases p <;> simp [State.lvlOf, State.modLvl, Function.comp_def]

/-! ### Parts kept beside each other (R84) -/

/-- Of a list the first element that a test passes is found and changed. -/
theorem findIdx?_append_cons {α : Type} {q : α → Bool} {before after : List α} {e : α} (hb : ∀ z ∈ before, q z = false)
    (he : q e = true) : (before ++ e :: after).findIdx? q = some before.length := by
  induction before with
  | nil => simp [List.findIdx?_cons, he]
  | cons z zs ih =>
    rw [List.cons_append, List.findIdx?_cons, hb z List.mem_cons_self, ih fun y hy => hb y (List.mem_cons_of_mem z hy)]
    rfl

theorem modify_append_cons {α : Type} (before after : List α) (e : α) (f : α → α) :
    (before ++ e :: after).modify before.length f = before ++ f e :: after := by
  induction before with
  | nil => rfl
  | cons z zs ih => exact congrArg (z :: ·) ih

theorem any_hasPart (l : Lift) (p : Contrib) :
    (l.got.any fun y => decide (y.blk = p.blk ∧ y.team = p.team)) = true ↔ hasPart l p := by
  simp [hasPart]

/-- A part goes to the first pending lift of its member that lacks one of its team. -/
theorem contribute_adds {s : State} {own : Party} {v : Lvl} {before after : List Lift} {e : Lift} {i : Instr} {p : Contrib}
    (hv : s.lvlOf own = some v) (hl : v.lifts = before ++ e :: after) (hb : ∀ z ∈ before, z.ins ≠ i ∨ hasPart z p)
    (hi : e.ins = i) (he : ¬hasPart e p) : contribute s own i p = some (fillLifts (s.modLvl own fun w => { w with
      lifts := before ++ { e with got := e.got ++ [p] } :: after }) own) := by
  have hskip : ∀ z ∈ before,
      (decide (z.ins = i) && !(z.got.any fun y => decide (y.blk = p.blk ∧ y.team = p.team))) = false := by
    intro z hz
    rcases hb z hz with hne | hhas
    · rw [decide_eq_false hne, Bool.false_and]
    · rw [(any_hasPart z p).mpr hhas, Bool.not_true, Bool.and_false]
  have htake : (decide (e.ins = i) && !(e.got.any fun y => decide (y.blk = p.blk ∧ y.team = p.team))) = true := by
    rw [decide_eq_true hi, Bool.true_and, Bool.not_eq_true', ← Bool.not_eq_true, any_hasPart]
    exact he
  simp only [contribute, hv, hl, findIdx?_append_cons hskip htake]
  refine congrArg (fun t => some (fillLifts t own)) (modLvl_congr hv ?_)
  rw [hl, modify_append_cons]

/-- The only pending lift of an owner, with the parts of all live teams, fills its version. -/
theorem fillLifts_full {s : State} {own : Party} {v : Lvl} {gr : Grid} {e : Lift} (hv : s.lvlOf own = some v)
    (hg : s.grid own.gridNo = some gr) (hl : v.lifts = [e]) (hp : own.scope ≠ .grid ∨ gr.lrec.grid ≤ gr.nextBlk)
    (hall : ∀ y ∈ liveTeams s own.gridNo own.scope (instNo own), ∃ z ∈ e.got, z.blk = y.1 ∧ z.team = y.2) :
    (fillLifts s own).lvlOf own = some { v with
      lifts := []
      vregs := v.vregs.modify e.reg fun r => { r with slots := r.slots.set e.slot (some (liftResult e.ins e.got)) } } := by
  have hfull : ((own.scope ≠ .grid || decide (gr.lrec.grid ≤ gr.nextBlk)) &&
      (liveTeams s own.gridNo own.scope (instNo own)).all fun y =>
        e.got.any fun z => decide (z.blk = y.1 ∧ z.team = y.2)) = true := by
    simp only [Bool.and_eq_true, Bool.or_eq_true, decide_eq_true_eq, List.all_eq_true, List.any_eq_true]
    exact ⟨hp, hall⟩
  simp only [fillLifts, hv, hg, hl, List.filter_cons, hfull, if_true, List.filter_nil, List.foldl_cons, List.foldl_nil,
    State.lvlOf_modLvl, Option.map_some, Bool.not_true, Bool.false_eq_true, if_false]

/-! ### Parts combined in the order of R84 (R84, R90) -/

/-- The order of R84. -/
abbrev partLe (x y : Contrib) : Prop := x.blk < y.blk ∨ (x.blk = y.blk ∧ x.team ≤ y.team)

/-- The parts of blocks and their teams as a list. -/
def partList (bs : List (Nat × List (Nat × W64))) : List Contrib := bs.flatMap fun b => b.2.map fun t => ⟨b.1, t.1, some t.2⟩

/-- The parts of one block. -/
theorem partList_cons (b : Nat × List (Nat × W64)) (bs : List (Nat × List (Nat × W64))) :
    partList (b :: bs) = b.2.map (fun t => ⟨b.1, t.1, some t.2⟩) ++ partList bs := List.flatMap_cons

theorem blk_of_mem_partList {bs : List (Nat × List (Nat × W64))} {x : Contrib} (h : x ∈ partList bs) : ∃ b ∈ bs, b.1 = x.blk := by
  obtain ⟨b, hb, hx⟩ := List.mem_flatMap.mp h
  obtain ⟨t, -, rfl⟩ := List.mem_map.mp hx
  exact ⟨b, hb, rfl⟩

/-- Of rising blocks with rising teams the parts rise strictly. -/
theorem partList_rises {bs : List (Nat × List (Nat × W64))} (hb : bs.Pairwise fun x y => x.1 < y.1)
    (ht : ∀ b ∈ bs, b.2.Pairwise fun x y => x.1 < y.1) :
    (partList bs).Pairwise fun x y => x.blk < y.blk ∨ (x.blk = y.blk ∧ x.team < y.team) := by
  refine List.pairwise_flatMap.mpr ⟨fun b hm => ?_, hb.imp fun {x y} hlt p hp q hq => ?_⟩
  · exact List.pairwise_map.mpr ((ht b hm).imp fun h => .inr ⟨rfl, h⟩)
  · obtain ⟨_, -, rfl⟩ := List.mem_map.mp hp
    obtain ⟨_, -, rfl⟩ := List.mem_map.mp hq
    exact .inl hlt

/-- Parts that rise strictly and agree in block and team are the same. -/
theorem eq_of_partLe {l : List Contrib} (hr : l.Pairwise fun x y => x.blk < y.blk ∨ (x.blk = y.blk ∧ x.team < y.team))
    {x y : Contrib} (hx : x ∈ l) (hy : y ∈ l) (h : partLe x y) (h' : partLe y x) : x = y := by
  have hkeys : (l.map fun z => (z.blk, z.team)).Nodup :=
    List.pairwise_map.mpr (hr.imp fun {a b} hab heq => by simp only [Prod.mk.injEq] at heq; omega)
  refine List.inj_on_of_nodup_map hkeys hx hy ?_
  unfold partLe at h h'
  simp only [Prod.mk.injEq]
  omega

/-- Sorting the parts, in whatever order they came, restores that list. -/
theorem insertionSort_parts {bs : List (Nat × List (Nat × W64))} {cs : List Contrib} (h : partsOf bs cs) :
    cs.insertionSort partLe = partList bs := by
  obtain ⟨hb, ht, hperm⟩ := h
  have hrise := partList_rises hb ht
  have htotal : Std.Total partLe := ⟨fun x y => by unfold partLe; omega⟩
  have htrans : IsTrans Contrib partLe := ⟨fun x y z hxy hyz => by unfold partLe at *; omega⟩
  have hsort := (List.perm_insertionSort partLe cs).trans hperm
  refine hsort.eq_of_pairwise (fun x y hx hy => eq_of_partLe hrise (hsort.mem_iff.mp hx) hy)
    (List.pairwise_insertionSort partLe cs) ?_
  exact hrise.imp fun h => h.imp_right fun h => ⟨h.1, h.2.le⟩

/-- What a part makes of the blocks of the parts behind it: it joins the first where that is its own. -/
def withPart (c : Contrib) : List (List W64) → List Contrib → List (List W64)
  | g :: gs, d :: _ => if c.blk = d.blk then (c.val.toList ++ g) :: gs else c.val.toList :: g :: gs
  | gs, _ => c.val.toList :: gs

theorem byBlock_cons (c : Contrib) (l : List Contrib) : byBlock (c :: l) = withPart c (byBlock l) l := rfl

theorem withPart_new {c : Contrib} {l : List Contrib} (h : ∀ d ∈ l, d.blk ≠ c.blk) (gs : List (List W64)) :
    withPart c gs l = c.val.toList :: gs := by
  cases l with
  | nil => cases gs <;> rfl
  | cons d r =>
    cases gs with
    | nil => rfl
    | cons g gs => exact if_neg (h d List.mem_cons_self).symm

theorem withPart_same {c d : Contrib} (h : c.blk = d.blk) (l : List Contrib) (g : List W64) (gs : List (List W64)) :
    withPart c (g :: gs) (d :: l) = (c.val.toList ++ g) :: gs := if_pos h

/-- The parts of a block of some teams stand together. -/
theorem byBlock_block {b : Nat} {t : Nat × W64} {ts : List (Nat × W64)} {l : List Contrib} (h : ∀ d ∈ l, d.blk ≠ b) :
    byBlock ((t :: ts).map (fun t => ⟨b, t.1, some t.2⟩) ++ l) = (t :: ts).map (·.2) :: byBlock l := by
  induction ts generalizing t with
  | nil => exact withPart_new h _
  | cons u us ih =>
    have hus := ih (t := u)
    simp only [List.map_cons, List.cons_append] at hus ⊢
    rw [byBlock_cons, hus]
    exact withPart_same (c := ⟨b, t.1, some t.2⟩) (d := ⟨b, u.1, some u.2⟩) rfl _ _ _

/-- The parts of the blocks, each combined; a block without parts has none. -/
theorem byBlock_partList (f : W64 → W64 → W64) {bs : List (Nat × List (Nat × W64))} (hb : bs.Pairwise fun x y => x.1 < y.1) :
    (byBlock (partList bs)).filterMap (fold1 f) = bs.filterMap fun b => fold1 f (b.2.map (·.2)) := by
  induction bs with
  | nil => rfl
  | cons b bs ih =>
    obtain ⟨hlt, hrest⟩ := List.pairwise_cons.mp hb
    have hother : ∀ d ∈ partList bs, d.blk ≠ b.1 := by
      intro d hd
      obtain ⟨b', hb', heq⟩ := blk_of_mem_partList hd
      have := hlt b' hb'
      omega
    obtain ⟨n, ts⟩ := b
    cases ts with
    | nil => exact ih hrest
    | cons t ts =>
      rw [partList_cons, byBlock_block hother, List.filterMap_cons, List.filterMap_cons, ih hrest]

/-- Parts combined, block by block, are the result of their lift once it is ended. -/
theorem liftResult_parts {i : Instr} {bs : List (Nat × List (Nat × W64))} {cs : List Contrib} {w : W64} (h : partsOf bs cs)
    (hw : fold1 (liftStep i) (bs.filterMap fun b => fold1 (liftStep i) (b.2.map (·.2))) = some w) :
    liftResult i cs = liftEnd i w := by
  simp only [liftResult, insertionSort_parts h, byBlock_partList (liftStep i) h.1, hw]
  rfl

/-- The same of a lift whose combined value is its result. -/
theorem liftResult_parts_plain {i : Instr} (hi : ∀ w, liftEnd i w = w) {bs : List (Nat × List (Nat × W64))} {cs : List Contrib}
    {w : W64} (h : partsOf bs cs)
    (hw : fold1 (liftStep i) (bs.filterMap fun b => fold1 (liftStep i) (b.2.map (·.2))) = some w) : liftResult i cs = w :=
  (liftResult_parts h hw).trans (hi w)

/-! ### The empty result (R415) -/

/-- A part that is none adds nothing to the blocks behind it. -/
theorem withPart_none {c : Contrib} (hc : c.val = none) {gs : List (List W64)} (h : ∀ g ∈ gs, g = []) (l : List Contrib) :
    ∀ g ∈ withPart c gs l, g = [] := by
  unfold withPart
  rw [hc]
  split
  · split
    · exact h
    · exact List.forall_mem_cons.mpr ⟨rfl, h⟩
  · exact List.forall_mem_cons.mpr ⟨rfl, h⟩

theorem byBlock_none {l : List Contrib} (h : ∀ z ∈ l, z.val = none) : ∀ g ∈ byBlock l, g = [] := by
  induction l with
  | nil => exact fun g hg => absurd hg List.not_mem_nil
  | cons c l ih =>
    obtain ⟨hc, hl⟩ := List.forall_mem_cons.mp h
    exact withPart_none hc (ih hl) l

theorem liftResult_empty {cs : List Contrib} (h : ∀ z ∈ cs, z.val = none) (i : Instr) : liftResult i cs = liftEmpty i := by
  have hnone : (byBlock (cs.insertionSort partLe)).filterMap (fold1 (liftStep i)) = [] :=
    List.filterMap_eq_nil_iff.mpr fun g hg => by
      rw [byBlock_none (fun z hz => h z ((List.mem_insertionSort _).mp hz)) g hg]; rfl
  simp only [liftResult, hnone]
  rfl

/-- Settles O7: the owner opens each lift alike and each team gives its part alike; the parts are kept, fill the version, and are
combined in their order. -/
theorem wideLifts : Obligations.WideLifts := by
  unfold Obligations.WideLifts
  intro d a j k n op slot x s t l ls i own v gr p before after e
  have opens {kind : BitVec 2} (hk : kind ≠ 2) : ExecutesIf (.vote d k kind (.p n))
      (fun c => c.sc ≠ .team ∧ c.slotFor d = some slot) (opensLift (.vote d k kind (.p n)) d slot 0) :=
    executes_opensLift rfl rfl fun c ⟨hsc, hs⟩ => bodyVote_opens hsc hs hk k n
  have gives {kind : BitVec 2} (hk : kind ≠ 2) : ExecutesClose (.vote d k kind (.p n))
      (fun c => givesPart c d (.vote d k kind (.p n)) (some (votePart kind n.val c)) t) (fun _ => .ok t) :=
    executes_gives rfl rfl fun _ h => bodyVote_gives hk h
  refine ⟨?opened, ?openedLane, ?refused, ?given, ?givenFirst, ?givenLane, ?givenNone, contribute_adds, fillLifts_full, ?combined,
    fun cs h => ?empty⟩
  case opened =>
    simp only [List.forall_mem_cons, List.not_mem_nil, false_implies, implies_true, and_true]
    exact ⟨opens (by decide), opens (by decide), opens (by decide),
      executes_opensLift rfl rfl fun c ⟨hsc, hs⟩ => bodyRdfirst_opens hsc hs a,
      executes_opensLift rfl rfl fun c ⟨hsc, hs⟩ => bodyReduce_opens hsc hs a op⟩
  case openedLane =>
    refine executes_opensLift rfl rfl ?_
    rintro c ⟨hsc, hd, rfl, hlt, hlive, hs⟩
    exact bodyRdlane_opens hsc hd ⟨hlt, hlive⟩ hs
  case refused =>
    refine raises_of rfl rfl ?_
    rintro c ⟨hsc, hd, rfl, hbad⟩
    exact bodyRdlane_refuses hsc hd fun ⟨hlt, hlive⟩ => hbad.elim (Nat.not_le.mpr hlt) (· hlive)
  case given =>
    simp only [List.forall_mem_cons, List.not_mem_nil, false_implies, implies_true, and_true]
    exact ⟨gives (by decide), gives (by decide), gives (by decide), executes_gives rfl rfl fun _ h => bodyReduce_gives h⟩
  case givenFirst => exact executes_gives rfl rfl fun _ ⟨hl, hc, h⟩ => bodyRdfirst_gives hl hc h
  case givenLane =>
    refine executes_gives rfl rfl ?_
    rintro c ⟨rfl, ht, hc, h⟩
    exact bodyRdlane_gives ht hc h
  case givenNone =>
    refine executes_gives rfl rfl ?_
    rintro c ⟨rfl, ht, h⟩
    exact bodyRdlane_gives_none ht h
  case combined =>
    simp only [List.forall_mem_cons, List.not_mem_nil, false_implies, implies_true, and_true, reduceCtorEq, if_false, if_true]
    exact ⟨fun bs cs w => liftResult_parts_plain (i := .vote d k 0 (.p n)) fun _ => rfl,
      fun bs cs w => liftResult_parts_plain (i := .vote d k 1 (.p n)) fun _ => rfl,
      fun bs cs w => liftResult_parts_plain (i := .vote d k 3 (.p n)) fun _ => rfl,
      fun bs cs w => liftResult_parts_plain (i := .rdfirst d a) fun _ => rfl,
      fun bs cs w => liftResult_parts_plain (i := .rdlane d a j) fun _ => rfl,
      fun bs cs w => liftResult_parts (i := .reduce d a op)⟩
  case empty =>
    have empty := liftResult_empty h
    refine ⟨empty _, empty _, empty _, empty _, empty _, fun hop => (empty _).trans ?zero, ?_, ?_, ?_, ?_⟩
    case zero =>
      simp only [List.mem_cons, List.not_mem_nil, or_false] at hop
      show redEmpty op.toNat = 0
      rcases hop with hop | hop | hop | hop | hop | hop <;> rw [hop] <;> rfl
    · rintro rfl; exact empty _
    · rintro (rfl | rfl) <;> exact empty _
    · rintro rfl; exact empty _
    · rintro (rfl | rfl) <;> exact empty _

end Sys2Proof.Machine
end

/-! ## O8: scalar members -/

section
namespace Sys2Proof.Machine

/-- Settles O8: the meaning of each scalar member is one scalar write of its result. -/
theorem scalarMembers : Obligations.ScalarMembers := by
  unfold Obligations.ScalarMembers
  intro d a b imm k x
  refine ⟨?sadd, ?ssub, ?smul, ?sand, ?sor, ?sxor, ?sshl, ?sshr, ?smov, ?smovi, ?smovx⟩
  all_goals exact executes_scalar rfl rfl fun c => rfl

end Sys2Proof.Machine
end

/-! ## O9: where a scalar result goes -/

section
namespace Sys2Proof.Machine

/-! ### s registers (R120) -/

/-- An s register that a team's scalar write names reads as written, every other one as before. -/
theorem scalReg_setS {s : State} {g b t : Nat} (h : (s.team g b t).isSome = true) (n m : Nat) (x : W64) :
    scalReg (s.modTeam g b t fun y => y.setS n x) g b t m = if m = n then x else scalReg s g b t m := by
  obtain ⟨y, hy⟩ := Option.isSome_iff_exists.mp h
  simp only [scalReg, State.team_modTeam, hy, Option.map_some, Option.getD_some, Team.setS]
  split
  next hm => rw [hm, zget_zset_self]
  next hm => exact zget_zset_ne _ _ hm

/-! ### b, c and g registers (R105) -/

/-- A register with versions takes a scalar result in a free slot, or its chain waits. -/
theorem scalarWrite_version {d : Operand} (hd : (∃ n, d = .b n) ∨ (∃ n, d = .c n) ∨ (∃ n, d = .g n)) (c : Cx) (s : State)
    (x : W64) : c.scalarWrite s d x = match c.slotFor d with
      | none => .hold c.pre (.notReady 1)
      | some k => .ok (s.modLvl c.p fun v => { v with vregs := v.vregs.modify (regNo d) fun r => putVersion r k (some x) }) := by
  obtain ⟨n, rfl⟩ | ⟨n, rfl⟩ | ⟨n, rfl⟩ := hd <;> rfl

/-! ### Frame slots (R170, R176) -/

/-- The frame that the display names at a level stands in the table under its handle's key. -/
theorem mget_of_frameAt {c : Cx} {l : Nat} {h : W32} {f : Frame} (hf : c.frameAt l = some (h, f)) :
    mget c.pre.frames (c.frameKey h) = some f := by
  simp only [Cx.frameAt] at hf
  split at hf
  · cases hf
  · obtain ⟨f', hm, he⟩ := Option.map_eq_some_iff.mp hf
    cases he
    exact hm

/-- Of two values one may choose by < or by ≤, where it does not matter which of equal values is chosen. -/
theorem ite_toInt_lt {y x a b : W64} (h : y = x → a = b) :
    (if y.toInt < x.toInt then a else b) = if y.toInt ≤ x.toInt then a else b := by
  by_cases he : y = x
  · rw [h he, ite_self, ite_self]
  · have hne : y.toInt ≠ x.toInt := fun hi => he (BitVec.toInt_inj.mp hi)
    simp only [Int.le_iff_lt_or_eq, hne, or_false]

/-- The folds of R170 case by case. -/
theorem foldMode_eq (m : BitVec 3) (y x : W64) : foldMode m y x =
    if m = 2 then y + x else if m = 3 then (if y.toInt ≤ x.toInt then x else y)
    else if m = 4 then (if y.toInt ≤ x.toInt then y else x) else if m = 5 then y ||| x else x := by
  rw [foldMode, smax, smin, ite_toInt_lt Eq.symm, ite_toInt_lt id]

section
variable {c : Cx} {l : BitVec 2} {k : BitVec 4} {h : W32} {f : Frame} (hf : c.frameAt l.toNat = some (h, f))

theorem scalarWrite_slotBad (hbad : c.slotBad l.toNat k.toNat = true) (s : State) (x : W64) :
    c.scalarWrite s (.frame l k) x = .fault c.pre { cls := 0x30 } := by
  simp only [Cx.scalarWrite, hbad, if_true]

/-- A slot that its mode allows to be written takes a frame write. -/
theorem scalarWrite_slot {s t : State} {x : W64} (hgood : c.slotBad l.toNat k.toNat = false)
    (hw : c.frameWrite s l.toNat k.toNat x = some t) : c.scalarWrite s (.frame l k) x = .ok t := by
  simp only [Cx.scalarWrite, hgood, Bool.false_eq_true, if_false, hw]

include hf

theorem slotBad_own (hown : ownsFrame c.p f = true) (hm : f.mode k.toNat ≠ 1) (hs : f.sealed = false) :
    c.slotBad l.toNat k.toNat = false := by
  simp only [Cx.slotBad, hf, hown, if_true, hm, hs, decide_false, Bool.or_self]

theorem slotBad_other (hown : ownsFrame c.p f = false) (hm : 2 ≤ (f.mode k.toNat).toNat) :
    c.slotBad l.toNat k.toNat = false := by
  simp only [Cx.slotBad, hf, hown, Bool.false_eq_true, if_false, decide_eq_false_iff_not]
  omega

/-- A team's write of its own frame's slot enters its store queue; where its context records nothing, that is all. -/
theorem frameWrite_own_team (hown : ownsFrame c.p f = true) (hsc : c.sc = .team) {s : State} (hrec : s.recordOn c.ctx = false)
    (x : W64) : c.frameWrite s l.toNat k.toNat x =
      some (c.onTeam s fun t => { t with storeQ := t.storeQ ++ [c.slotEntry h k.toNat x] }) := by
  have hrec' (g : Team → Team) : (c.onTeam s g).recordOn c.ctx = false := hrec
  simp only [Cx.frameWrite, hf, hown, hsc, if_true, foldHash, hrec', Bool.false_eq_true, if_false]

/-- A level's write of its own frame's slot is performed at once. -/
theorem frameWrite_own_level (hown : ownsFrame c.p f = true) (hsc : c.sc ≠ .team) (hundo : c.pre.undoOn c.ctx = false)
    (x : W64) : c.frameWrite c.pre l.toNat k.toNat x =
      some { c.pre with frames := mmod c.pre.frames (c.frameKey h) fun y => { y with slots := y.slots.set k.toNat x } } := by
  have hm : mget c.pre.frames (handleKey c.g c.b c.k h) = some f := mget_of_frameAt hf
  simp only [Cx.frameWrite, hf, hown, if_true, if_neg hsc, storeSlot, hm, hundo, Bool.false_eq_true, if_false, Option.map_some]
  rfl

/-- A write of another's slot joins the pending contribution of its position. -/
theorem frameWrite_other (hown : ownsFrame c.p f = false) (s : State) (x : W64) : c.frameWrite s l.toNat k.toNat x =
      some (s.modSeq c.p fun q => { q with
        pend := mset q.pend (pendKey f.serial k.toNat) (match mget q.pend (pendKey f.serial k.toNat) with
        | some y => foldMode (f.mode k.toNat) y x
        | none => x) }) := by
  simp only [Cx.frameWrite, hf, hown, Bool.false_eq_true, if_false] <;> rfl

end

/-- Settles O9: a scalar write by the kind of its destination; a slot by whose frame it is. -/
theorem scalarWrites : Obligations.ScalarWrites := by
  unfold Obligations.ScalarWrites
  intro c x
  refine ⟨fun n hteam => ⟨_, rfl, ?same, fun m hm => ?others, rfl⟩, fun d hd => ⟨fun hk => ?waits, fun k hk => ?version⟩,
    fun l k hbad => scalarWrite_slotBad hbad c.pre x,
    fun l k h f hf => ⟨fun hown hm hs => ⟨fun hsc hrec => ?team, fun hsc hundo => ?level⟩, fun hown hm => ?other⟩⟩
  case same => exact (scalReg_setS hteam ..).trans (if_pos rfl)
  case others => exact (scalReg_setS hteam ..).trans (if_neg hm)
  case waits => rw [scalarWrite_version hd, hk]
  case version => rw [scalarWrite_version hd, hk]; rfl
  case team => exact scalarWrite_slot (slotBad_own hf hown hm hs) (frameWrite_own_team hf hown hsc hrec x)
  case level => exact scalarWrite_slot (slotBad_own hf hown hm hs) (frameWrite_own_level hf hown hsc hundo x)
  case other =>
    refine (scalarWrite_slot (slotBad_other hf hown hm) (frameWrite_other hf hown c.pre x)).trans ?_
    refine congrArg (fun g => MRes.ok (c.pre.modSeq c.p g)) (funext fun q => ?_)
    cases hp : mget q.pend (pendKey f.serial k.toNat) with
    | none => rfl
    | some y => simp only [foldMode_eq]

end Sys2Proof.Machine
end

/-! ## O11: JMP, LOOP, ENDL, CALL and RET -/

section
namespace Sys2Proof.Machine

section
variable {c : Cx} (sc : Scope) {n : Operand} {near : BitVec 13} {far : BitVec 18}

/-! ### LOOP and ENDL (R117) -/

theorem bodyLoop_zero (h : c.rdS n = 0) (s : State) : bodyLoop sc n near c s = c.jumpTo s near.toInt := by
  simp [bodyLoop, h]

theorem bodyLoop_tooMany (h : 2 ^ 32 ≤ (c.rdS n).toNat) (s : State) :
    bodyLoop sc n near c s = .fault c.pre { cls := 0x02, addr := c.rdS n } := by
  simp only [bodyLoop, if_pos h]

/-- A count that fits is pushed where the loop stack has room (R111). -/
theorem bodyLoop_pushes (h0 : c.rdS n ≠ 0) (h : (c.rdS n).toNat < 2 ^ 32) (s : State) : bodyLoop sc n near c s =
    if 8 ≤ c.seq.loops.length then .fault c.pre { cls := 0x05 }
    else .ok (s.modSeq c.p fun q => { q with loops := ⟨0, (c.rdS n).setWidth 32⟩ :: q.loops }) := by
  simp only [bodyLoop, if_neg (Nat.not_le.mpr h), if_neg h0]

theorem bodyEndl_empty (h : c.seq.loops = []) (s : State) : bodyEndl sc near c s = .fault c.pre { cls := 0x06 } := by
  simp only [bodyEndl, h]

/-- ENDL goes round again, or leaves the loop. -/
theorem bodyEndl_top {e : LoopEnt} {rest : List LoopEnt} (h : c.seq.loops = e :: rest) : bodyEndl sc near c c.pre =
    if (e.lc + 1).toNat < e.count.toNat then c.jumpTo (withLoops c ({ e with lc := e.lc + 1 } :: rest)) near.toInt
    else .ok (withLoops c rest) := by
  simp only [bodyEndl, h, withLoops]

/-! ### CALL (R118) -/

theorem bodyCall_full (h : callDepth sc ≤ c.seq.calls.length) (s : State) :
    bodyCall sc far c s = .fault c.pre { cls := 0x05 } := by
  simp only [bodyCall, if_pos h]

theorem bodyCall_pushes (h : c.seq.calls.length < callDepth sc) (s : State) : bodyCall sc far c s =
    c.jumpTo (s.modSeq c.p fun q => { q with calls := ⟨nextPc c.pkt c.last, none, 0, []⟩ :: q.calls }) far.toInt := by
  simp only [bodyCall, if_neg (Nat.not_le.mpr h)]

theorem bodyCallFrame_full {lvl : BitVec 2} (h : callDepth sc ≤ c.seq.calls.length) (s : State) :
    bodyCallFrame sc lvl far c s = .fault c.pre { cls := 0x05 } := by
  simp only [bodyCallFrame, if_pos h]

/-! ### RET (R106, R119) -/

theorem bodyRet_empty (h : c.seq.calls = []) (s : State) : bodyRet sc c s = .fault c.pre { cls := 0x06 } := by
  simp only [bodyRet, h]

variable {e : CallEnt} {calls : List CallEnt} (h : c.seq.calls = e :: calls)
  (hopen : c.sc = .grid ∨ c.tok.close ≠ c.pre.pcOf c.p)

include hopen in
/-- Away from its token's close a RET is not refused. -/
theorem not_at_close : (decide (c.sc ≠ .grid) && decide (c.tok.close = c.pre.pcOf c.p)) = false := by
  rcases hopen with hg | hc
  · simp only [hg, ne_eq, not_true_eq_false, decide_false, Bool.false_and]
  · simp only [hc, decide_false, Bool.and_false]

include h hopen

/-- Where its call has opened no frame RET only pops the call. -/
theorem bodyRet_plain (hnone : e.frame = none) : bodyRet sc c c.pre = .jump (withCalls c c.pre calls) e.ret := by
  simp only [bodyRet, h, not_at_close hopen, Bool.false_eq_true, if_false, hnone, restoreDisp, Option.isSome_none, withCalls]

/-- Where its call has opened a frame that can be returned now, RET returns it and restores the display. -/
theorem bodyRet_frame {f : W32} {t : State} (hsome : e.frame = some f) (hsole : c.sole = true)
    (hq : c.slotsQueued f = false) (hret : returnFrame c c.pre f = .retired t) : bodyRet sc c c.pre =
      .jump (t.modSeq c.p fun q => { q with disp := q.disp.take e.lvl ++ e.saved, calls := calls }) e.ret := by
  simp only [bodyRet, h, not_at_close hopen, Bool.false_eq_true, if_false, hsome, hsole, hq, Bool.not_true, Bool.or_self, hret,
    restoreDisp, Option.isSome_some, if_true]

end

/-- Settles O11: a transfer goes where its displacement leads; a loop or call is pushed where its stack has room. -/
theorem transfers : Obligations.Transfers := by
  unfold Obligations.Transfers
  intro sc lvl far near n k e rest x calls
  refine ⟨?_, ?_, ?_, ?_, ?_, ?_, ?_, ?_, ?_, ?_, ?_, ?_, rfl, rfl, rfl, rfl, ?_, ?_⟩
  · exact executes_of rfl rfl fun c hk => ⟨jumpTo_of_goesTo hk c.pre, rfl⟩
  · exact raises_of rfl rfl fun c hk => jumpTo_of_leaves hk c.pre
  · exact executes_of rfl rfl fun c ⟨h0, hk⟩ => ⟨(bodyLoop_zero sc h0 c.pre).trans (jumpTo_of_goesTo hk c.pre), rfl⟩
  · exact executes_of rfl rfl fun c ⟨h0, hn, hl⟩ => ⟨(bodyLoop_pushes sc h0 hn c.pre).trans (if_neg (Nat.not_le.mpr hl)), rfl⟩
  · exact raises_of rfl rfl fun c ⟨h0, hn, hl⟩ => (bodyLoop_pushes sc h0 hn c.pre).trans (if_pos hl)
  · exact raises_of rfl rfl fun c hn => bodyLoop_tooMany sc hn c.pre
  · exact executes_of rfl rfl fun c ⟨he, hlt, hk⟩ =>
      ⟨(bodyEndl_top sc he).trans ((if_pos hlt).trans (jumpTo_of_goesTo hk _)), rfl⟩
  · exact executes_of rfl rfl fun c ⟨he, hle⟩ => ⟨(bodyEndl_top sc he).trans (if_neg (Nat.not_lt.mpr hle)), rfl⟩
  · exact raises_of rfl rfl fun c he => bodyEndl_empty sc he c.pre
  · exact executes_of rfl rfl fun c ⟨hl, hk⟩ => ⟨(bodyCall_pushes sc hl c.pre).trans (jumpTo_of_goesTo hk _), rfl⟩
  · exact raises_of rfl rfl fun c hl => bodyCall_full sc hl c.pre
  · exact raises_of rfl rfl fun c hl => bodyCallFrame_full sc hl c.pre
  · exact executes_of rfl rfl fun c ⟨hx, hnone, hopen⟩ => ⟨bodyRet_plain sc hx hopen hnone, rfl⟩
  · exact raises_of rfl rfl fun c hx => bodyRet_empty sc hx c.pre

end Sys2Proof.Machine
end

/-! ## O12: calls that open frames, FRDEF and FRFENCE -/

section
namespace Sys2Proof.Machine

/-! ### The emission before a chain leaves its party's position (R97) -/

/-- A fold reads as its start does, where every step of it reads as before it. -/
theorem read_foldl {α σ ρ : Type} (read : σ → ρ) {f : σ → α → σ} (h : ∀ s e, read (f s e) = read s) (l : List α) (s : σ) :
    read (l.foldl f s) = read s :=
  (List.foldl_hom read (g₂ := fun x _ => x) fun s e => (h s e).symm).symm.trans (List.foldl_fixed l)

/-- A level's record changes without its PC. -/
theorem pcOf_modLvl (s : State) (p : Party) {f : Lvl → Lvl} (h : ∀ v, (f v).seq = v.seq) : (s.modLvl p f).pcOf p = s.pcOf p := by
  cases p <;> simp [State.pcOf, State.seqOf, State.modLvl, h, Function.comp_def]

theorem pcOf_trimRing (s : State) (g : Nat) : (trimRing s g).pcOf (.grid g) = s.pcOf (.grid g) := by
  unfold trimRing
  split
  · rfl
  · simp [State.pcOf, State.seqOf, Function.comp_def]

theorem pcOf_sealFrames (s : State) (c : Cx) (t : Token) (p : Party) : (sealFrames s c t).pcOf p = s.pcOf p := by
  refine read_foldl (fun s => s.pcOf p) (fun s h => ?_) t.disp s
  dsimp only
  split
  · split
    · cases p <;> rfl
    · rfl
  · rfl

/-- A token goes to the queues of narrower parties or to the grid's ring. -/
theorem pcOf_pushToken {s t : State} {c : Cx} {tk : Token} (h : pushToken s c tk = some t) : t.pcOf c.p = s.pcOf c.p := by
  unfold pushToken at h
  cases hp : c.p with
  | team g b u =>
    simp only [hp, Option.some.injEq] at h
    rw [h]
  | block g b =>
    simp only [hp] at h
    split at h
    · cases h
    · cases h
      refine read_foldl (fun s => s.pcOf (.block g b)) (fun s e => ?_) _ s
      rfl
  | cluster g k =>
    simp only [hp] at h
    split at h
    · cases h
    · cases h
      refine read_foldl (fun s => s.pcOf (.cluster g k)) (fun s e => ?_) _ s
      rfl
  | grid g =>
    simp only [hp] at h
    refine Eq.trans ?_ (pcOf_trimRing s g)
    split at h
    · split at h
      · cases h
      · cases h
        simp [State.pcOf, State.seqOf, Function.comp_def]
    · cases h

theorem pcOf_emitSegment {s t : State} {c : Cx} {close : W32} {has : Bool} (h : emitSegment s c close has = some t) :
    t.pcOf c.p = s.pcOf c.p := by
  unfold emitSegment at h
  split at h
  · cases h; rfl
  · split at h
    · cases h; rfl
    · split at h
      · cases h
        exact pcOf_modLvl s c.p fun v => rfl
      · obtain ⟨u, hu, rfl⟩ := Option.map_eq_some_iff.mp h
        refine (pcOf_modLvl _ c.p ?_).trans ((pcOf_sealFrames ..).trans (pcOf_pushToken hu))
        exact fun v => rfl

theorem pcOf_emitFirst {s t : State} {c : Cx} {ends narrow : Bool} (h : emitFirst s c ends narrow = some t) :
    t.pcOf c.p = s.pcOf c.p := by
  unfold emitFirst at h
  split at h
  · exact pcOf_emitSegment h
  · cases h; rfl

/-! ### A chain of one word -/

/-- The last slot of a sole member's chain is the last of the member's words. -/
theorem soleCx_last {s : State} {p : Party} {i : Instr} {c : Cx} (h : soleCx s p i = some c) :
    c.p = p ∧ c.last = pcSlot (s.pcOf p) + lenOf i - 1 := by
  simp only [soleCx, mkCx, Option.bind_eq_some_iff, Option.map_eq_some_iff] at h
  obtain ⟨_, _, _, _, rfl⟩ := h
  exact ⟨rfl, rfl⟩

/-- A ready member of one word is the only one of its chain. -/
theorem ready_sole {s : State} {p : Party} {i : Instr} {c : Cx} (hl : lenOf i = 1) (h : ready s p i = some c) :
    c.sole = true := by
  obtain ⟨c0, h0, _, _, _, hem, hc, _, hslot⟩ := reach_cases (ready_reach h).1
  obtain ⟨hp0, hlast⟩ := soleCx_last h0
  have hp : c.p = c0.p := by rw [hc]
  have hpc : c.pre.pcOf c.p = s.pcOf p := by rw [hp, pcOf_emitFirst hem, hp0]
  have hend : c.last = pcSlot (s.pcOf p) := by rw [hc, hlast, hl, Nat.add_sub_cancel]
  simp only [Cx.sole, hslot, hend, hpc, and_self, decide_true, Bool.or_true]

/-- What holds of every ready member may be assumed where it executes. -/
theorem executes_where {i : Instr} {w always : Cx → Prop} {r : Cx → MRes}
    (ha : ∀ (s : State) (p : Party) (c : Cx), ready s p i = some c → always c)
    (h : ExecutesIf i (fun c => always c ∧ w c) r) : ExecutesIf i w r :=
  fun s p c hc hw => h s p c hc ⟨ha s p c hc, hw⟩

/-! ### CALL with a frame (R118, R177) -/

section
variable {c : Cx} (sc : Scope) {lvl : BitVec 2} {far : BitVec 18}

/-- The state in which a CALL has opened a frame in a free cell. -/
def frameOpened (c : Cx) (sc : Scope) (lvl n : Nat) (s : State) : State :=
  let t := (c.refFrame s (c.lex (lvl - 1)) (· + 1)).modCtx c.ctx fun x => { x with frserial := x.frserial + 1 }
  let f := Frame.fresh (((mget s.ctxs c.ctx).map (·.frserial)).getD 0) lvl (c.lex (lvl - 1)) sc (if sc = .team then c.t else 0)
  { t with frames := mset t.frames (fKey c.g c.store.1 c.store.2.1 n) f }

theorem bodyCallFrame_opens {n : Nat} (hl : c.seq.calls.length < callDepth sc) (hp : c.lex (lvl.toNat - 1) ≠ noFrame)
    (hn : c.freeCell = some n) (s : State) : bodyCallFrame sc lvl far c s =
      c.jumpTo ((frameOpened c sc lvl.toNat n s).modSeq c.p fun q => { q with
        calls := ⟨nextPc c.pkt c.last, some (mkHandle c.store.1 n), lvl.toNat, q.disp.drop lvl.toNat⟩ :: q.calls
        disp := q.disp.take lvl.toNat ++ [some (mkHandle c.store.1 n)] ++
          (List.range (3 - lvl.toNat)).map fun _ => some noFrame }) far.toInt := by
  simp only [bodyCallFrame, if_neg (Nat.not_le.mpr hl), if_neg hp, hn]
  rfl

theorem bodyCallFrame_noCell (hl : c.seq.calls.length < callDepth sc) (hp : c.lex (lvl.toNat - 1) ≠ noFrame)
    (hn : c.freeCell = none) (s : State) : bodyCallFrame sc lvl far c s = .fault c.pre { cls := 0x31 } := by
  simp only [bodyCallFrame, if_neg (Nat.not_le.mpr hl), if_neg hp, hn]

end

/-! ### The return of a frame (R178) -/

/-- A position without contributions publishes nothing. -/
theorem publishAll_of_no_pend {s : State} {p : Party} (h : ∀ q, s.seqOf p = some q → q.pend = []) (ctx engine g b k : Nat) :
    publishAll s p ctx engine g b k = s := by
  have hnone : pendHandles s p g b k = [] := by
    unfold pendHandles
    cases hq : s.seqOf p with
    | none => rfl
    | some q => simp [h q hq]
  rw [publishAll, hnone, List.foldl_nil]

/-- The scrub of a cell leaves no record where nothing is logged. -/
theorem scrubRecords_of_no_undo {s : State} {c : Cx} (h : s.undoOn c.ctx = false) (a : W32) (f : Frame) :
    scrubRecords s c a f = some s := by
  simp only [scrubRecords, h, Bool.false_eq_true, if_false]

/-- A frame whose settle wait is over leaves the table, scrubbed, and its parent counts one child less. -/
theorem returnFrame_settled {c : Cx} {s u v : State} {h : W32} {f : Frame}
    (hpub : publishAll { s with frames := mmod s.frames (c.frameKey h) fun f => { f with state := 1 } } c.p c.ctx c.engine
      c.g c.b c.k = u)
    (hf : mget u.frames (c.frameKey h) = some f) (hset : settled u c.g c.b c.k f h = true)
    (hscrub : scrubRecords (c.refFrame u f.parent (· - 1)) c h f = some v) :
    returnFrame c s h = .retired { v with
      frames := mdel v.frames (c.frameKey h), poison := v.poison.filter fun n => !(cellHealed (c.frameKey h) n) } := by
  simp only [returnFrame, hpub, hf, hset, if_true, hscrub]

/-- A team's frame that waits for no contribution of its owner is retired at once. -/
theorem returnFrame_team {c : Cx} {h : W32} {f : Frame} (hm : mget c.pre.frames (c.frameKey h) = some f)
    (hpend : ∀ q, c.pre.seqOf c.p = some q → q.pend = []) (hundo : c.pre.undoOn c.ctx = false) (hteam : f.oscope = .team) :
    returnFrame c c.pre h = .retired { c.pre with
      frames := mdel (mmod (mmod c.pre.frames (c.frameKey h) fun f => { f with state := 1 }) (c.frameKey f.parent)
        fun p => { p with refcount := p.refcount - 1 }) (c.frameKey h)
      poison := c.pre.poison.filter fun n => !(cellHealed (c.frameKey h) n) } := by
  let s : State := { c.pre with frames := mmod c.pre.frames (c.frameKey h) fun f => { f with state := 1 } }
  have hseq : s.seqOf c.p = c.pre.seqOf c.p := by cases c.p <;> rfl
  have hpub : publishAll s c.p c.ctx c.engine c.g c.b c.k = s := publishAll_of_no_pend (by rwa [hseq]) ..
  have hf : mget s.frames (c.frameKey h) = some { f with state := 1 } := by
    rw [show s.frames = _ from rfl, mget_mmod_self, hm]; rfl
  have hset : settled s c.g c.b c.k { f with state := 1 } h = true := by simp only [settled, hteam, decide_true, Bool.true_or]
  exact returnFrame_settled hpub hf hset (scrubRecords_of_no_undo (s := c.refFrame s f.parent (· - 1)) hundo h _)

/-! ### FRDEF and FRFENCE (R179, R180) -/

section
variable {c : Cx} (sc : Scope) {lvl : BitVec 2} {h : W32} {f : Frame} (hf : c.frameAt lvl.toNat = some (h, f))
include hf

/-- FRDEF sets modes of its own level's frame while that is neither sealed nor a parent. -/
theorem bodyFrdef_frame (half : BitVec 1) (mask : BitVec 8) (modes : BitVec 24) (s : State) :
    bodyFrdef sc lvl half mask modes c s =
      if ownsFrame c.p f = false ∨ f.sealed = true ∨ f.refcount ≠ 0 then .fault c.pre { cls := 0x30 }
      else .ok { s with frames := mmod s.frames (c.frameKey h) fun f => { f with modes := setModes half mask modes f.modes } } := by
  simp only [bodyFrdef, hf, Bool.or_eq_true, Bool.not_eq_true', decide_eq_true_eq, or_assoc]

theorem bodyFrfence_own (hown : ownsFrame c.p f = true) (s : State) : bodyFrfence sc lvl c s = .ok s := by
  simp only [bodyFrfence, hf, hown, if_true]

/-- Without contributions an FRFENCE only captures the frame's slots. -/
theorem bodyFrfence_captures (hown : ownsFrame c.p f = false) (hpend : c.seq.pend = []) : bodyFrfence sc lvl c c.pre =
    .ok (c.pre.modSeq c.p fun q => { q with views := mset q.views f.serial.toNat f.slots }) := by
  have hm := mget_of_frameAt hf
  have hq : ∀ q, c.pre.seqOf c.p = some q → q.pend = [] := fun q hq => by simpa only [Cx.seq, hq, Option.getD_some] using hpend
  have hpub : publishFrame c.pre c.p c.ctx c.engine c.g c.b c.k h = c.pre := by
    unfold publishFrame
    split
    next f' q hf' hsq =>
      simp only [hq q hsq, mget]
      exact List.foldl_fixed _
    · rfl
  have hleft : ((c.pre.seqOf c.p).map fun q => q.pend.any fun e => decide (e.1 / 16 = f.serial.toNat)).getD false = false := by
    cases hsq : c.pre.seqOf c.p with
    | none => rfl
    | some q => rw [Option.map_some, Option.getD_some, hq q hsq, List.any_nil]
  simp only [bodyFrfence, hf, hown, hpub, hleft, hm, Bool.false_eq_true, if_false, Option.map_some, Option.getD_some]

end

/-- Settles O12: a CALL opens a frame in a free cell of its level; a ready RET is the only member of its chain, and so returns the
frame; FRDEF and FRFENCE by whose frame they name. -/
theorem frameMembers : Obligations.FrameMembers := by
  unfold Obligations.FrameMembers
  intro sc lvl far half mask modes k n x calls h f t
  refine ⟨?opens, ?full, ?noCell, ?ret, ?returns, ?frdef, ?refused, ?fence, ?captures⟩
  case opens =>
    exact executes_of rfl rfl fun c ⟨hl, hp, hn, hk⟩ =>
      ⟨(bodyCallFrame_opens sc hl hp hn c.pre).trans (jumpTo_of_goesTo hk _), rfl⟩
  case full => exact raises_of rfl rfl fun c hl => bodyCallFrame_full sc hl c.pre
  case noCell => exact raises_of rfl rfl fun c ⟨hl, hp, hn⟩ => bodyCallFrame_noCell sc hl hp hn c.pre
  case ret =>
    refine executes_where (fun s p c hc => ready_sole (i := .ret sc) rfl hc) ?_
    exact executes_of rfl rfl fun c ⟨hsole, hx, hframe, hopen, hq, hret⟩ => ⟨bodyRet_frame sc hx hopen hframe hsole hq hret, rfl⟩
  case returns => exact fun c hm hpend hundo _ hteam => returnFrame_team hm hpend hundo hteam
  case frdef =>
    exact executes_of rfl rfl fun c ⟨hf, hown, hs, hr⟩ =>
      ⟨(bodyFrdef_frame sc hf half mask modes c.pre).trans (if_neg (by simp [hown, hs, hr])), rfl⟩
  case refused => exact raises_of rfl rfl fun c ⟨hf, hbad⟩ => (bodyFrdef_frame sc hf half mask modes c.pre).trans (if_pos hbad)
  case fence => exact executes_of rfl rfl fun c ⟨hf, hown⟩ => ⟨bodyFrfence_own sc hf hown c.pre, rfl⟩
  case captures => exact executes_of rfl rfl fun c ⟨hf, hown, hpend⟩ => ⟨bodyFrfence_captures sc hf hown hpend, rfl⟩

end Sys2Proof.Machine
end

/-! ## O1, O2: the lane integer members -/

section
namespace Sys2Proof.Machine

/-- A member that applies a two-source operation executes it in every active lane (R135). -/
theorem executes_alu2 {i : Instr} {d a b : Operand} (f : W32 → W32 → W32) (he : exec i = issue1 i (bodyOf i))
    (hp : plainMember i = true) (hb : ∀ c s, bodyOf i c s = c.alu2 s d a b f) :
    Executes i (lanes32 d fun c l => f (c.rdL a l) (c.rdL b l)) :=
  executes_ok he hp fun c => hb c c.pre

/-- The same of a one-source operation. -/
theorem executes_alu1 {i : Instr} {d a : Operand} (f : W32 → W32) (he : exec i = issue1 i (bodyOf i))
    (hp : plainMember i = true) (hb : ∀ c s, bodyOf i c s = c.alu1 s d a f) :
    Executes i (lanes32 d fun c l => f (c.rdL a l)) :=
  executes_ok he hp fun c => hb c c.pre

/-- Settles O1: each member is `alu2` with the operation of its row in R135's table. -/
theorem laneIntegerTwoSource : Obligations.LaneIntegerTwoSource := by
  unfold Obligations.LaneIntegerTwoSource
  intro d a b
  exact ⟨executes_alu2 (· + ·) rfl rfl fun _ _ => rfl,
    executes_alu2 (· - ·) rfl rfl fun _ _ => rfl,
    executes_alu2 (· * ·) rfl rfl fun _ _ => rfl,
    executes_alu2 mulHs rfl rfl fun _ _ => rfl,
    executes_alu2 mulHu rfl rfl fun _ _ => rfl,
    executes_alu2 (fun x y => if x.toInt ≤ y.toInt then x else y) rfl rfl fun _ _ => rfl,
    executes_alu2 (fun x y => if x.toInt ≤ y.toInt then y else x) rfl rfl fun _ _ => rfl,
    executes_alu2 (fun x y => if x.toNat ≤ y.toNat then x else y) rfl rfl fun _ _ => rfl,
    executes_alu2 (fun x y => if x.toNat ≤ y.toNat then y else x) rfl rfl fun _ _ => rfl,
    executes_alu2 (fun x y => sat32 (x.toInt + y.toInt)) rfl rfl fun _ _ => rfl,
    executes_alu2 (· &&& ·) rfl rfl fun _ _ => rfl,
    executes_alu2 (· ||| ·) rfl rfl fun _ _ => rfl,
    executes_alu2 (· ^^^ ·) rfl rfl fun _ _ => rfl,
    executes_alu2 (fun x y => x <<< (y.toNat % 32)) rfl rfl fun _ _ => rfl,
    executes_alu2 (fun x y => x >>> (y.toNat % 32)) rfl rfl fun _ _ => rfl,
    executes_alu2 (fun x y => x.sshiftRight (y.toNat % 32)) rfl rfl fun _ _ => rfl⟩

/-- The sign bit is the sign: the absolute value of R135. -/
theorem ite_msb_neg (x : W32) : (if x.msb then -x else x) = if x.toInt < 0 then -x else x := by
  simp only [BitVec.msb_eq_toInt, decide_eq_true_eq]

/-- The field that BFX takes is extended where it is signed, narrower than 32 bits and negative (R138). -/
theorem bfxVal_eq (a : W32) (pos : Nat) (sgn : Bool) (w1 : BitVec 5) : bfxVal a pos sgn w1 =
    let f := (a >>> pos) &&& BitVec.ofNat 32 (2 ^ (w1.toNat + 1) - 1)
    if sgn = true ∧ w1.toNat < 31 ∧ f.getLsbD w1.toNat = true then f ||| ~~~(BitVec.ofNat 32 (2 ^ (w1.toNat + 1) - 1))
    else f := by
  simp only [bfxVal, widthMask, Bool.and_eq_true, decide_eq_true_eq, and_assoc]

/-- BFX takes its field at the immediate or at the low 5 bits of its second source (R138). -/
theorem bodyBfx_eq (d a b : Operand) (imm sgn : Bool) (pos w1 : BitVec 5) (c : Cx) (s : State) :
    bodyBfx d a b imm pos sgn w1 c s = .ok (c.wrL s d (c.lanes.map fun l =>
      (l, bfxVal (c.rdL a l) (if imm then pos.toNat else (c.rdL b l).toNat % 32) sgn w1))) := rfl

/-- Settles O2: one-source members are `alu1`; IMAD goes by its mode, a pair for the wide ones; the others each write a value of
their own in every lane. -/
theorem laneIntegerOther : Obligations.LaneIntegerOther := by
  unfold Obligations.LaneIntegerOther
  intro d a b x imm sgn pos w1 n k
  refine ⟨?iabs, executes_alu1 popCount rfl rfl fun _ _ => rfl, executes_alu1 leadZeros rfl rfl fun _ _ => rfl,
    executes_alu1 id rfl rfl fun _ _ => rfl, executes_ok rfl rfl fun c => rfl, executes_ok rfl rfl fun c => rfl,
    executes_ok rfl rfl fun c => rfl, executes_ok rfl rfl fun c => ?bfx, executes_ok rfl rfl fun c => rfl,
    executes_ok rfl rfl fun c => rfl, executes_ok rfl rfl fun c => rfl, executes_ok rfl rfl fun c => rfl⟩
  case iabs =>
    have habs := executes_alu1 (i := .iabs d a) (fun x => if x.msb then -x else x) rfl rfl fun _ _ => rfl
    simpa only [ite_msb_neg] using habs
  case bfx =>
    refine (bodyBfx_eq d a b imm sgn pos w1 c c.pre).trans ?_
    simp only [bfxVal_eq]

end Sys2Proof.Machine
end

/-! ## O18: PUSHM and POPM -/

section
namespace Sys2Proof.Machine

/-- Nothing folds into the hash of a team whose context does not record (R338). -/
theorem foldHash_off {s : State} {ctx : Nat} (h : s.recordOn ctx = false) (g b t : Nat) (va : W64) (bytes : List Byte) :
    foldHash s ctx g b t va bytes = s := by
  simp only [foldHash, h, Bool.false_eq_true, if_false]

/-- The state after a push of registers onto the spill area. -/
def pushed (c : Cx) (first : Operand) (cnt : Nat) : State :=
  c.onTeam c.pre fun x => { x with
    hsp := x.hsp + stkSize (opIsV first) cnt c.tm.nlane
    storeQ := x.storeQ ++ c.spillEnts c.tm.hsp (c.pushList first cnt) }

section
variable (c : Cx) (first : Operand) (cnt1 : BitVec 7)

/-- A push that fits queues its writes and folds them into the team's hash (R132, R134, R338). -/
theorem bodyPushm_fits (h : c.tm.hsp + stkSize (opIsV first) (cnt1.toNat + 1) c.tm.nlane ≤ 64 * c.tm.nlane) :
    bodyPushm first cnt1 c c.pre = .ok ((c.spillEnts c.tm.hsp (c.pushList first (cnt1.toNat + 1))).foldl
      (fun s e => foldHash s c.ctx c.g c.b c.t e.va e.bytes) (pushed c first (cnt1.toNat + 1))) := by
  simp only [bodyPushm, if_neg (Nat.not_lt.mpr h)]
  rfl

theorem bodyPushm_unrecorded (h : c.tm.hsp + stkSize (opIsV first) (cnt1.toNat + 1) c.tm.nlane ≤ 64 * c.tm.nlane)
    (hr : c.pre.recordOn c.ctx = false) :
    bodyPushm first cnt1 c c.pre = .ok (pushed c first (cnt1.toNat + 1)) := by
  rw [bodyPushm_fits c first cnt1 h]
  exact congrArg MRes.ok (List.foldl_fixed' (fun e => foldHash_off (s := pushed c first (cnt1.toNat + 1)) hr _ _ _ e.va e.bytes) _)

theorem bodyPushm_full (h : 64 * c.tm.nlane < c.tm.hsp + stkSize (opIsV first) (cnt1.toNat + 1) c.tm.nlane) :
    bodyPushm first cnt1 c c.pre = .fault c.pre { cls := 0x31 } := by
  simp only [bodyPushm, if_pos h]

variable {c first cnt1}

theorem bodyPopm_clean (h : stkSize (opIsV first) (cnt1.toNat + 1) c.tm.nlane ≤ c.tm.hsp)
    (hb : c.spillBad (c.tm.hsp - stkSize (opIsV first) (cnt1.toNat + 1) c.tm.nlane)
      (stkSize (opIsV first) (cnt1.toNat + 1) c.tm.nlane) = false) :
    bodyPopm first cnt1 c c.pre = .ok (c.onTeam c.pre (c.popTeam first (cnt1.toNat + 1)
      (c.tm.hsp - stkSize (opIsV first) (cnt1.toNat + 1) c.tm.nlane))) := by
  simp only [bodyPopm, if_neg (Nat.not_lt.mpr h), hb, Bool.false_eq_true, if_false]

theorem bodyPopm_empty (h : c.tm.hsp < stkSize (opIsV first) (cnt1.toNat + 1) c.tm.nlane) :
    bodyPopm first cnt1 c c.pre = .fault c.pre { cls := 0x06 } := by
  simp only [bodyPopm, if_pos h]

theorem bodyPopm_poisoned (h : stkSize (opIsV first) (cnt1.toNat + 1) c.tm.nlane ≤ c.tm.hsp)
    (hb : c.spillBad (c.tm.hsp - stkSize (opIsV first) (cnt1.toNat + 1) c.tm.nlane)
      (stkSize (opIsV first) (cnt1.toNat + 1) c.tm.nlane) = true) :
    bodyPopm first cnt1 c c.pre = .fault c.pre { cls := 0x16 } := by
  simp only [bodyPopm, if_neg (Nat.not_lt.mpr h), hb, if_true]

end

/-- Settles O18: a push fits or does not, and records or does not; a pop has enough below it or has not, and meets poison or
does not. -/
theorem spillStack : Obligations.SpillStack := by
  unfold Obligations.SpillStack
  rintro first cnt1 size rfl
  exact ⟨executes_of rfl rfl fun c ⟨hfit, hrec⟩ => ⟨bodyPushm_unrecorded c first cnt1 hfit hrec, rfl⟩,
    executes_of rfl rfl fun c ⟨hfit, _⟩ => ⟨bodyPushm_fits c first cnt1 hfit, rfl⟩,
    raises_of rfl rfl fun c hfull => bodyPushm_full c first cnt1 hfull,
    fun f => executes_of rfl rfl fun c ⟨hdeep, hclean⟩ => ⟨bodyPopm_clean (first := .s f) hdeep hclean, rfl⟩,
    fun f => executes_of rfl rfl fun c ⟨hdeep, hclean⟩ => ⟨bodyPopm_clean (first := .v f) hdeep hclean, rfl⟩,
    raises_of rfl rfl fun c hempty => bodyPopm_empty hempty,
    raises_of rfl rfl fun c ⟨hdeep, hbad⟩ => bodyPopm_poisoned hdeep hbad⟩

end Sys2Proof.Machine
end

/-! ## O60: the bytes that members and events leave unchanged -/

section
namespace Sys2Proof.Machine

/-! ### What stands beside memory -/

/-- A value of an entry that a change keeps is kept in the whole table. -/
theorem map_mget_mmod {α β : Type} (m : AMap α) (n : Nat) {f : α → α} (v : α → β) (hf : ∀ y, v (f y) = v y) (k : Nat) :
    (mget (mmod m n f) k).map v = (mget m k).map v := by
  by_cases h : k = n
  · subst h
    rw [mget_mmod_self, Option.map_map]
    exact congrArg (Option.map · _) (funext hf)
  · rw [mget_mmod_ne _ _ h]

/-- What a team's running on and its logging depend on: its stop and single step, its grid's context, and what each context logs,
records and replays (R298, R315, R327, R332). -/
def State.standing (s : State) (g b u : Nat) : Option (Option Stop × Bool) × Option Nat × (Nat → Option (Bool × Bool × Option Replay)) :=
  ((s.team g b u).map fun x => (x.seq.stop, x.seq.stepping), (s.grid g).map (·.ctx),
    fun n => (mget s.ctxs n).map fun x => (x.undo, x.record, x.replay))

section
variable {g b u : Nat}

theorem standing_modTeam (s : State) (g' b' u' : Nat) {f : Team → Team} (hf : ∀ y, (f y).seq = y.seq) :
    (s.modTeam g' b' u' f).standing g b u = s.standing g b u := by
  refine Prod.ext ?_ rfl
  exact map_mget_mmod s.teams (tKey g' b' u') (fun x : Team => (x.seq.stop, x.seq.stepping)) (fun y => by rw [hf]) (tKey g b u)

theorem standing_modGrid (s : State) (g' : Nat) {f : Grid → Grid} (hf : ∀ y, (f y).ctx = y.ctx) :
    (s.modGrid g' f).standing g b u = s.standing g b u :=
  Prod.ext rfl (Prod.ext (map_mget_mmod s.grids g' (·.ctx) hf g) rfl)

theorem standing_modCtx (s : State) (c : Nat) {f : Ctx → Ctx}
    (hf : ∀ y, (f y).undo = y.undo ∧ (f y).record = y.record ∧ (f y).replay = y.replay) :
    (s.modCtx c f).standing g b u = s.standing g b u := by
  refine Prod.ext rfl (Prod.ext rfl (funext fun n => ?_))
  exact map_mget_mmod s.ctxs c (fun x : Ctx => (x.undo, x.record, x.replay))
    (fun y => by obtain ⟨hu, hr, hp⟩ := hf y; rw [hu, hr, hp]) n

variable {s t : State}

/-- A team runs on where it ran on before. -/
theorem calm_of_standing (h : t.standing g b u = s.standing g b u) (hc : calm s (.team g b u)) : calm t (.team g b u) := by
  obtain ⟨q, gr, x, hq, hstop, hstep, hgr, hx, hrep⟩ := hc
  simp only [State.standing, Prod.mk.injEq] at h
  obtain ⟨hteam, hgrid, hctx⟩ := h
  simp only [State.seqOf, Option.map_eq_some_iff] at hq
  obtain ⟨y, hy, rfl⟩ := hq
  rw [hy, Option.map_some, Option.map_eq_some_iff] at hteam
  obtain ⟨z, hz, hzy⟩ := hteam
  rw [show s.grid g = some gr from hgr, Option.map_some, Option.map_eq_some_iff] at hgrid
  obtain ⟨gr', hgr', hgc⟩ := hgrid
  have hctx := congrFun hctx gr.ctx
  rw [hx, Option.map_some, Option.map_eq_some_iff] at hctx
  obtain ⟨x', hx', hxx⟩ := hctx
  simp only [Prod.mk.injEq] at hzy hxx
  exact ⟨z.seq, gr', x', by simp only [State.seqOf, hz, Option.map_some], hzy.1.trans hstop, hzy.2.trans hstep, hgr', hgc ▸ hx',
    hxx.2.2.trans hrep⟩

/-- Nothing of a context is logged, recorded or replayed. -/
def unwatched (s : State) (ctx : Nat) : Prop := s.undoOn ctx = false ∧ s.recordOn ctx = false ∧ s.scripted ctx = false

theorem unwatched_of_standing (h : t.standing g b u = s.standing g b u) {ctx : Nat} (hw : unwatched s ctx) :
    unwatched t ctx := by
  have hctx := congrFun (congrArg (·.2.2) h) ctx
  simp only [State.standing] at hctx
  obtain ⟨hundo, hrec, hscr⟩ := hw
  have eq (f : Bool × Bool × Option Replay → Bool) :
      ((mget t.ctxs ctx).map fun x => f (x.undo, x.record, x.replay)) =
        (mget s.ctxs ctx).map fun x => f (x.undo, x.record, x.replay) := by
    have := congrArg (Option.map f) hctx
    rwa [Option.map_map, Option.map_map] at this
  refine ⟨?_, ?_, ?_⟩
  · rw [State.undoOn, eq fun x => x.1]; exact hundo
  · rw [State.recordOn, eq fun x => x.2.1]; exact hrec
  · have hrep : (mget t.ctxs ctx).bind (·.replay) = (mget s.ctxs ctx).bind (·.replay) := by
      have := congrArg (Option.bind · fun x => x.2.2) hctx
      simpa only [Option.bind_map, Function.comp_def] using this
    rw [State.scripted, hrep]; exact hscr

theorem unwatched_of_calm {gr : Grid} (hc : calm s (.team g b u)) (hg : s.grid g = some gr) (hl : unlogged s gr.ctx) :
    unwatched s gr.ctx := by
  obtain ⟨x, hx, hundo, hrec, -⟩ := hl
  obtain ⟨q, gr', x', -, -, -, hgr', hx', hrep⟩ := hc
  obtain rfl : gr = gr' := Option.some.inj (hg.symm.trans hgr')
  obtain rfl : x = x' := Option.some.inj (hx.symm.trans hx')
  refine ⟨by simp only [State.undoOn, hx, Option.map_some, hundo, Option.getD_some],
    by simp only [State.recordOn, hx, Option.map_some, hrec, Option.getD_some],
    by simp only [State.scripted, hx, Option.bind_some, hrep]⟩

/-! ### Steps beside memory -/

/-- t has the memory and the frames of s, and a team and the contexts stand in it as in s. -/
structure Idle (g b u : Nat) (s t : State) : Prop where
  mem : t.mem = s.mem
  frames : t.frames = s.frames
  standing : t.standing g b u = s.standing g b u

theorem Idle.refl (s : State) : Idle g b u s s := ⟨rfl, rfl, rfl⟩

theorem Idle.trans {w : State} (h : Idle g b u s t) (h' : Idle g b u t w) : Idle g b u s w :=
  ⟨h'.mem.trans h.mem, h'.frames.trans h.frames, h'.standing.trans h.standing⟩

theorem Idle.after {w : State} (h' : Idle g b u t w) (h : Idle g b u s t) : Idle g b u s w := h.trans h'

/-- A fold of such steps is one. -/
theorem idle_foldl {α : Type} {f : State → α → State} (h : ∀ s e, Idle g b u s (f s e)) (l : List α) (s : State) :
    Idle g b u s (l.foldl f s) := by
  induction l generalizing s with
  | nil => exact .refl s
  | cons e l ih => exact (h s e).trans (ih _)

theorem idle_modTeam (s : State) (g' b' u' : Nat) {f : Team → Team} (hf : ∀ y, (f y).seq = y.seq) :
    Idle g b u s (s.modTeam g' b' u' f) := ⟨rfl, rfl, standing_modTeam s g' b' u' hf⟩

theorem idle_onTeam (c : Cx) (s : State) {f : Team → Team} (hf : ∀ y, (f y).seq = y.seq) : Idle g b u s (c.onTeam s f) :=
  idle_modTeam s c.g c.b c.t hf

theorem idle_modBlock (s : State) (g' b' : Nat) (f : Blk → Blk) : Idle g b u s (s.modBlock g' b' f) := ⟨rfl, rfl, rfl⟩

theorem idle_count (s : State) (g' core n k : Nat) : Idle g b u s (s.count g' core n k) :=
  ⟨rfl, rfl, standing_modGrid s g' fun _ => rfl⟩

theorem idle_tick (c : Cx) (s : State) (n k : Nat) : Idle g b u s (c.tick s n k) := idle_count s c.g c.core n k

theorem idle_foldHash (s : State) (ctx g' b' u' : Nat) (va : W64) (bytes : List Byte) :
    Idle g b u s (foldHash s ctx g' b' u' va bytes) := by
  unfold foldHash
  split
  · exact idle_modTeam s g' b' u' fun _ => rfl
  · exact .refl s

/-! ### Translations (R227, R228, R231) -/

theorem idle_endMiss (s : State) (m : Miss) : Idle g b u s (endMiss s m) := by
  have hleaf {v w : State} {t : TlbEnt} (h : missLeaf v m = some (t, w)) : Idle g b u v w := by
    simp only [missLeaf] at h
    split at h
    · cases h; exact .refl v
    · obtain ⟨p, -, hp⟩ := Option.bind_eq_some_iff.mp h
      split at hp
      · cases hp; exact ⟨rfl, rfl, rfl⟩
      · cases hp
  unfold endMiss
  dsimp only
  split
  · next t w hw =>
    refine Idle.trans (t := { s with misses := s.misses.filter fun x => decide (x ≠ m) }) ⟨rfl, rfl, rfl⟩ ((hleaf hw).trans ?_)
    split
    · exact ⟨rfl, rfl, rfl⟩
    · exact .refl w
  · exact ⟨rfl, rfl, rfl⟩

theorem idle_noteMiss (s : State) (m : Option Miss) : Idle g b u s (noteMiss s m) := by
  unfold noteMiss
  split
  · exact .refl s
  · next m =>
    split
    · exact .refl s
    · have hroom : Idle g b u s (match missesOf s m.engine with
          | x :: rest => if m.engine < 96 ∧ 63 ≤ rest.length then endMiss s x else s
          | [] => s) := by
        split
        · split
          · exact idle_endMiss s _
          · exact .refl s
        · exact .refl s
      dsimp only
      split
      · exact hroom.trans ((idle_count _ _ _ _ _).after ⟨rfl, rfl, rfl⟩)
      · exact hroom.trans ⟨rfl, rfl, rfl⟩

theorem idle_bindAll (s : State) (bs : List Bind) : Idle g b u s (bindAll s bs) :=
  idle_foldl (fun s bd => by
    obtain ⟨k, hk⟩ := bindTag_shape s bd
    exact Idle.trans (t := bindTag s bd) (hk ▸ ⟨rfl, rfl, rfl⟩) (idle_noteMiss _ _)) bs s

theorem idle_takeTags (s src : State) : Idle g b u s (takeTags s src) :=
  Idle.trans (t := { s with keyTags := src.keyTags }) ⟨rfl, rfl, rfl⟩ (idle_foldl (fun s m => idle_noteMiss s (some m)) _ _)

theorem idle_noteAlias (s : State) (o : Option Bind) : Idle g b u s (noteAlias s o) := by
  cases o <;> exact ⟨rfl, rfl, rfl⟩

theorem idle_startFill {gr : Grid} {base size va : Nat} (h : startFill s gr base size va = .inr t) : Idle g b u s t := by
  unfold startFill at h
  split at h
  · cases h
  · split at h
    · cases h; exact .refl s
    · dsimp only at h
      split at h
      · cases h
      · cases h; exact ⟨rfl, rfl, rfl⟩

/-- Delivering a copy's fault changes the team's flags and the block's lines (R210). -/
theorem idle_deliverLine {g' b' u' i n : Nat} {f : FInfo} (h : deliverLine s g' b' u' i n = some (f, t)) : Idle g b u s t := by
  simp only [deliverLine, Option.bind_eq_some_iff, Option.map_eq_some_iff] at h
  obtain ⟨fl, -, e, -, h⟩ := h
  cases h
  exact (idle_modBlock _ _ _ _).after (idle_modTeam s g' b' u' fun _ => rfl)

/-- The state that an access which has not passed leaves. -/
def Stuck.side : Stuck → Option State
  | .fault s _ => some s
  | .hold s _ => some s
  | .dead _ => none

theorem idle_stuck (c : Cx) (s : State) (va : W64) (r : AccRes) : ∀ t ∈ (c.stuck s va r).side, Idle g b u s t := by
  unfold Cx.stuck
  intro t ht
  split at ht
  · cases ht; exact idle_noteAlias s _
  · split at ht
    · next hl =>
      cases ht
      obtain ⟨e, -, he⟩ := Option.bind_eq_some_iff.mp hl
      exact idle_deliverLine he
    · cases ht; exact .refl s
  · cases ht; exact .refl s
  · dsimp only at ht
    split at ht
    · cases ht; exact .refl s
    · next hf => cases ht; exact idle_startFill hf
  · cases ht
  · cases ht; exact .refl s

theorem idle_checkLanes (c : Cx) (acc : Acc) (align n : Nat) (todo : List (Nat × W64)) (s : State) :
    Idle g b u s (c.checkLanes acc align n todo s).2.2 := by
  induction todo generalizing s with
  | nil => exact .refl s
  | cons e todo ih =>
    simp only [Cx.checkLanes]
    split
    · exact (idle_bindAll s _).trans (ih _)
    · exact .refl s

theorem idle_parkLanes (c : Cx) (acc : Acc) (align n : Nat) (todo : List (Nat × W64)) (s : State) :
    Idle g b u s (c.parkLanes acc align n todo s).2.2.2 := by
  induction todo generalizing s with
  | nil => exact .refl s
  | cons e todo ih =>
    simp only [Cx.parkLanes]
    split
    · exact (idle_bindAll s _).trans (ih _)
    · split
      · next hs => exact (idle_stuck c s _ _ _ (by rw [hs]; rfl)).trans (ih _)
      · exact ih _

/-! ### Counts (R344) -/

theorem idle_countTotal (s : State) (c kind engine k : Nat) : Idle g b u s (countTotal s c kind engine k) :=
  ⟨rfl, rfl, standing_modCtx s c fun _ => ⟨rfl, rfl, rfl⟩⟩

theorem idle_countFlits (s : State) (c die slice : Nat) : Idle g b u s (countFlits s c die slice) := by
  unfold countFlits
  split
  · exact .refl s
  · exact (idle_countTotal _ _ _ _ _).after ((idle_countTotal _ _ _ _ _).after ⟨rfl, rfl, rfl⟩)

theorem idle_countUse (s : State) (c part core : Nat) (va : W64) (tier key : Nat) :
    Idle g b u s (countUse s c part core va tier key) := by
  unfold countUse
  split
  · exact .refl s
  · dsimp only
    split
    · exact (idle_countFlits s _ _ _).trans (idle_countTotal _ _ _ _ _)
    · exact (idle_countFlits s _ _ _).trans ((idle_countTotal _ _ _ _ _).after ⟨rfl, rfl, rfl⟩)

theorem idle_countUses (c : Cx) (s : State) (xs : List LaneAcc) : Idle g b u s (c.countUses s xs) :=
  idle_foldl (fun s _ => idle_countUse s _ _ _ _ _ _) xs s

theorem idle_countBank (s : State) (c part core : Nat) (va : W64) (tier key : Nat) :
    Idle g b u s (countBank s c part core va tier key) := by
  unfold countBank
  split
  · exact .refl s
  · exact (idle_countUse s _ _ _ _ _ _).trans (idle_countTotal _ _ _ _ _)

/-- Without a record or a replay a turn leaves nothing (R334, R335). -/
theorem turnAll_unwatched {ctx : Nat} (hw : unwatched s ctx) (kind : Nat) (keys : List W64) (r : Req) :
    turnAll s ctx kind keys r = s := by
  obtain ⟨-, hrec, hscr⟩ := hw
  refine List.foldl_fixed' (fun key => ?_) keys
  unfold arbTurn
  unfold State.recordOn at hrec
  unfold State.scripted at hscr
  cases hx : mget s.ctxs ctx with
  | none => rfl
  | some x =>
    have hx' : x.record = false := by simpa [hx] using hrec
    cases hr : x.replay with
    | none => simp [hr, hx']
    | some rp =>
      have : rp.script.isEmpty = true := by simpa [hx, hr] using hscr
      simp [hr, this, hx']

/-! ### Answers of members -/

/-- A member's answer whose states differ from s in memory only, as far as its team's running on and its logs go; memory, where the
team goes on with it, meets K. -/
inductive Leaves (g b u : Nat) (K : Memory → Prop) (s : State) : MRes → Prop where
  | ok {t : State} (h : t.standing g b u = s.standing g b u) (hm : K t.mem) : Leaves g b u K s (.ok t)
  | hold {t : State} (w : Wait) (hm : K t.mem) : Leaves g b u K s (.hold t w)
  | fault {t : State} (f : FInfo) (h : t.standing g b u = s.standing g b u) : Leaves g b u K s (.fault t f)
  | part {t : State} (f : FInfo) (h : t.standing g b u = s.standing g b u) : Leaves g b u K s (.part t f)
  | dead (pa : Nat) : Leaves g b u K s (.dead pa)

/-- A member that completes some of its lanes raises its fault with them (R236). -/
theorem issue1_part {e : Bool} {p : Party} {i : Instr} {c : Cx} {body : Body} {f : FInfo} (h : readyWhere e s p i = some c)
    (hp : plainMember i = true) (hb : body c c.pre = .part t f) :
    issue1 i body s = .next (takeFault t c.p (memberScope c.sc i { f with slot := c.slot })) := by
  have hrm := runMember_ready (body := body) (t := c.pre) h
  obtain ⟨_, _, _, _, _, _, _, _, hs⟩ := reach_cases (ready_reach h).1
  rw [issue1_runs h, freshFlags_plain hp]
  simp only [runMembers, accS, hrm, hb, hs]
  rfl

/-- A member that reaches memory past the module's has no next state (R16). -/
theorem issue1_dead {e : Bool} {p : Party} {i : Instr} {c : Cx} {body : Body} {pa : Nat} (h : readyWhere e s p i = some c)
    (hp : plainMember i = true) (hb : body c c.pre = .dead pa) : issue1 i body s = .fault (.noSuchMemory pa) := by
  have hrm := runMember_ready (body := body) (t := c.pre) h
  rw [issue1_runs h, freshFlags_plain hp]
  simp only [runMembers, accS, hrm, hb]

/-- The commit of a member of a team writes no memory. -/
theorem finish1_mem {i : Instr} {c : Cx} (h : ready s (.team g b u) i = some c) (hc : calm t (.team g b u)) :
    (finish1 c i (.ok t)).mem = t.mem := by
  have hcap := teamOnly_captureAll (ready_team h).1 t i
  have hcalm : calm (captureAll c i t) (.team g b u) := calm_teamOnly hc hcap fun y z hyz =>
    have same {α : Type} (f : Team → α) : f z.unviewed = f y.unviewed := by rw [hyz]
    ⟨same (·.seq.stop), same (·.seq.stepping)⟩
  have hcommit := commit_team h (soleOf c i) (soleOf c i) (chainEnds c [i]) (chainNarrow c [i])
    (a := accS (captureAll c i t)) hcalm rfl rfl rfl
  exact (teamOnly_rest hcommit).1.trans (teamOnly_rest hcap).1

/-- A fault stops its team. -/
theorem takeFault_stops (hc : calm s (.team g b u)) (f : FInfo) :
    ((takeFault s (.team g b u) f).seqOf (.team g b u)).bind (·.stop) ≠ none := by
  obtain ⟨q, gr, x, hq, -, -, hgr, hx, -⟩ := hc
  rw [takeFault_seqOf hgr hx hq]
  simp

/-- What holds of the memory that a member leaves holds after its chain, where the member has not stopped its team. -/
theorem mem_of_leaves {K : Memory → Prop} {i : Instr} {c : Cx} (hex : exec i = issue1 i (bodyOf i)) (hp : plainMember i = true)
    (hc : calm s (.team g b u)) (hr : ready s (.team g b u) i = some c) (ha : Leaves g b u K c.pre (bodyOf i c c.pre))
    (he : exec i s = .next t) (hstop : (t.seqOf (.team g b u)).bind (·.stop) = none) : K t.mem := by
  obtain ⟨hparty, -, -, -, -, hpre, -⟩ := ready_team hr
  have hcalm {v : State} (h : v.standing g b u = c.pre.standing g b u) : calm v (.team g b u) :=
    calm_of_standing (hpre ▸ h) hc
  generalize hres : bodyOf i c c.pre = r at ha
  have hfresh : bodyOf i c (freshFlags c [(soleMember s (.team g b u) i, bodyOf i)] c.pre) = r := by
    rw [freshFlags_plain hp]; exact hres
  rw [hex] at he
  cases ha with
  | ok h hm =>
    rw [issue1_commits hr hfresh rfl (.inl (freshFlags_plain hp)) (fun _ => walkHash_plain hp) nofun] at he
    obtain rfl := Host.Outcome.next.inj he
    rw [finish1_mem hr (hcalm h)]
    exact hm
  | hold w hm =>
    rw [issue1_holds hr hfresh, hparty] at he
    obtain rfl := Host.Outcome.next.inj he
    exact hm
  | fault f h =>
    rw [issue1_faults hr hfresh, hparty] at he
    obtain rfl := Host.Outcome.next.inj he
    exact absurd hstop (takeFault_stops (hcalm h) _)
  | part f h =>
    rw [issue1_part hr hp hres, hparty] at he
    obtain rfl := Host.Outcome.next.inj he
    exact absurd hstop (takeFault_stops (hcalm h) _)
  | dead pa =>
    rw [issue1_dead hr hp hres] at he
    cases he

/-! ### The shapes of members -/

variable {K : Memory → Prop} {c : Cx}

theorem Leaves.okIdle (hK : K s.mem) (h : Idle g b u s t) : Leaves g b u K s (.ok t) := .ok h.standing (h.mem ▸ hK)

theorem Leaves.holdIdle (hK : K s.mem) (h : Idle g b u s t) (w : Wait) : Leaves g b u K s (.hold t w) := .hold w (h.mem ▸ hK)

theorem leaves_stuck (hK : K s.mem) {r : Stuck} (h : ∀ t ∈ r.side, Idle g b u s t) : Leaves g b u K s r.res := by
  cases r with
  | fault t f => exact .fault f (h t rfl).standing
  | hold t w => exact .holdIdle hK (h t rfl) w
  | dead pa => exact .dead pa

theorem leaves_park (hK : K s.mem) (h : Idle g b u s t) (n : Nat) (ls : List Nat) (ps : List W64) :
    Leaves g b u K s (c.park t n ls ps) := by
  unfold Cx.park
  refine .holdIdle hK ?_ _
  split
  · exact h
  · exact h.trans (idle_tick c t _ _)

theorem leaves_gated (hK : K c.pre.mem) (kind : Nat) (keys : List W64) {k : Unit → MRes}
    (hk : Leaves g b u K c.pre (k ())) : Leaves g b u K c.pre (c.gated kind keys k) := by
  unfold Cx.gated
  split
  · exact hk
  · exact .hold _ hK
  · exact .fault _ rfl

/-- A member of one access: it passes, or leaves no trace in memory. -/
theorem leaves_one (hK : K c.pre.mem) {acc : Acc} {align : Nat} {va : W64} {n : Nat} {k : List (Nat × Nat) → Nat → List Bind → MRes}
    (hk : ∀ segs tier bs, c.check c.pre acc align va n = .ok segs tier bs → Leaves g b u K c.pre (k segs tier bs)) :
    Leaves g b u K c.pre (c.one acc align va n k) := by
  unfold Cx.one
  split
  · exact .hold _ hK
  · split
    · next hchk =>
      split
      · exact hk _ _ _ hchk
      · exact .hold _ hK
    · split
      · next hs => exact leaves_park hK (idle_stuck c c.pre va _ _ (by rw [hs]; rfl)) 1 _ _
      · exact leaves_stuck hK (idle_stuck c c.pre va _)

/-- A member with a parked lane leaves its fills under way, and its counts (R204). -/
theorem leaves_parked (hK : K c.pre.mem) {acc : Acc} {align n k : Nat} {todo : List (Nat × W64)} {ls : List Nat} {ps : List W64}
    {side : State} (hs : c.parkLanes acc align n todo c.pre = (k, ls, ps, side)) :
    Leaves g b u K c.pre (c.park { side with keyTags := c.pre.keyTags } k ls ps) := by
  have hside : Idle g b u c.pre side := by
    have := idle_parkLanes (g := g) (b := b) (u := u) c acc align n todo c.pre
    rwa [hs] at this
  exact leaves_park hK (hside.trans (w := { side with keyTags := c.pre.keyTags }) ⟨rfl, rfl, rfl⟩) k ls ps

/-- A member of lane accesses: those that pass are performed, and the others leave no trace in memory. -/
theorem leaves_lanewise (hK : K c.pre.mem) {acc : Acc} {align n : Nat} {todo : List (Nat × W64)}
    {perform : List LaneAcc → State → MRes} (hp : ∀ xs t, Idle g b u c.pre t → Leaves g b u K c.pre (perform xs t)) :
    Leaves g b u K c.pre (c.lanewise acc align n todo c.pre perform) := by
  have htags := idle_checkLanes (g := g) (b := b) (u := u) c acc align n todo c.pre
  unfold Cx.lanewise
  split
  · exact .hold _ hK
  · split
    · dsimp only
      split
      · exact .hold _ hK
      · split
        · exact hp _ _ (idle_takeTags _ _)
        · next x _ =>
          unfold Cx.failLane
          split
          · next side f hs =>
            have hside := htags.trans (idle_stuck c _ _ _ side (by rw [hs]; rfl))
            dsimp only
            split
            · exact .fault _ hside.standing
            · have hperf := hp (c.checkLanes acc align n todo c.pre).1 side hside
              generalize perform _ side = r at hperf ⊢
              cases hperf with
              | ok h hm => exact .part _ h
              | hold w hm => exact .hold w hm
              | fault f h => exact .fault f h
              | part f h => exact .part f h
              | dead pa => exact .dead pa
          · next hs => exact leaves_stuck hK fun t ht => htags.trans (idle_stuck c _ _ _ t ht)
    · next hs => exact leaves_parked hK hs

/-! ### Members that store: their writes are queued (R134, R244, R253, R268) -/

theorem seq_foldl {α : Type} {f : Team → α → Team} (h : ∀ t e, (f t e).seq = t.seq) (l : List α) (y : Team) :
    (l.foldl f y).seq = y.seq := by
  induction l generalizing y with
  | nil => rfl
  | cons e l ih => exact (ih _).trans (h y e)

theorem idle_enqueue (c : Cx) (s : State) (ms : MScope) (n : Nat) (ws : List (LaneAcc × List Byte)) :
    Idle g b u s (c.enqueue s ms n ws) :=
  (idle_foldl (fun s _ => idle_foldHash s _ _ _ _ _ _) ws _).after (idle_onTeam c s fun _ => rfl)

theorem leaves_storeLanes (hK : K c.pre.mem) (d : Operand) (sz : Size) (n : Nat) (x : MemExt) (todo : List (Nat × W64)) :
    Leaves g b u K c.pre (c.storeLanes c.pre d sz n x todo) :=
  leaves_lanewise hK fun _ t ht => .okIdle hK (ht.trans ((idle_tick c t _ _).trans (idle_enqueue c _ _ _ _)))

theorem leaves_storeTeam (hK : K c.pre.mem) (d : Operand) (base : BitVec 5) (sz : Size) (x : MemExt) :
    Leaves g b u K c.pre (c.storeTeam c.pre d base sz x) :=
  leaves_one hK fun _ _ bs _ =>
    .okIdle hK ((idle_bindAll c.pre bs).trans ((idle_tick c _ _ _).trans (idle_enqueue c _ _ _ _)))

theorem leaves_pushm (hK : K c.pre.mem) (first : Operand) (cnt1 : BitVec 7) :
    Leaves g b u K c.pre (bodyPushm first cnt1 c c.pre) := by
  unfold bodyPushm
  dsimp only
  split
  · exact .fault _ rfl
  · exact .okIdle hK ((idle_foldl (fun s _ => idle_foldHash s _ _ _ _ _ _) _ _).after (idle_onTeam c c.pre fun _ => rfl))

theorem seq_setV (y : Team) (n l : Nat) (v : W32) : (y.setV n l v).seq = y.seq := rfl

theorem seq_setS (y : Team) (n : Nat) (v : W64) : (y.setS n v).seq = y.seq := rfl

theorem popTeam_seq (c : Cx) (first : Operand) (cnt base : Nat) (y : Team) : (c.popTeam first cnt base y).seq = y.seq := by
  unfold Cx.popTeam
  dsimp only
  split
  · rw [seq_foldl fun t i => seq_foldl (fun t l => seq_setV t _ _ _) _ t]
  · rw [seq_foldl fun t i => seq_setS t _ _]
  · rfl

theorem leaves_popm (hK : K c.pre.mem) (first : Operand) (cnt1 : BitVec 7) :
    Leaves g b u K c.pre (bodyPopm first cnt1 c c.pre) := by
  unfold bodyPopm
  dsimp only
  split
  · exact .fault _ rfl
  · split
    · exact .fault _ rfl
    · exact .okIdle hK (idle_onTeam c c.pre fun y => popTeam_seq c first _ _ y)

theorem leaves_bop (hK : K c.pre.mem) (base : BitVec 5) (cnt a : Operand) (wide : Bool) (x : MemExt) (op : BitVec 4) :
    Leaves g b u K c.pre (bodyBop base cnt a wide x op c c.pre) := by
  unfold bodyBop
  dsimp only
  generalize (if wide = true then 8 else 4) = n
  split
  · exact .okIdle hK (.refl _)
  iterate 4
    split
    · exact .fault _ rfl
  exact .okIdle hK ((idle_foldl (fun s _ => idle_foldHash s _ _ _ _ _ _) _ c.pre).trans (idle_onTeam c _ fun _ => rfl))

/-! ### Loads (R237 to R242, R244) -/

theorem idle_turnAll {ctx : Nat} (hw : unwatched s ctx) (kind : Nat) (keys : List W64) (r : Req) :
    Idle g b u s (turnAll s ctx kind keys r) := by
  rw [turnAll_unwatched hw]
  exact .refl s

/-- The uses and turns of an access of an unwatched context. -/
theorem idle_uses (hw : unwatched c.pre c.ctx) (h : Idle g b u c.pre t) (xs : List LaneAcc) (kind : Nat) (keys : List W64) (r : Req) :
    Idle g b u c.pre (turnAll (c.countUses t xs) c.ctx kind keys r) :=
  have huses := h.trans (idle_countUses c t xs)
  huses.trans (idle_turnAll (unwatched_of_standing huses.standing hw) kind keys r)

theorem idle_landLane (c : Cx) (s : State) (d : Operand) (sx : Bool) (ps : List (Nat × Nat × Nat)) (x : LaneAcc) :
    Idle g b u s (c.landLane s d sx ps x) := by
  unfold Cx.landLane
  split
  · refine idle_foldl (fun s p => idle_onTeam c s fun y => ?_) ps s
    dsimp only
    split <;> rfl
  · exact .refl s

theorem idle_landLanes (c : Cx) (s : State) (d : Operand) (sx : Bool) (x : MemExt) (n : Nat) (ps : List (Nat × Nat × Nat))
    (xs : List LaneAcc) : Idle g b u s (c.landLanes s d sx x n ps xs) := by
  unfold Cx.landLanes
  split
  · exact idle_onTeam c s fun _ => rfl
  · exact idle_foldl (fun s x => idle_landLane c s d sx ps x) xs s

theorem leaves_loadLanes (hK : K c.pre.mem) (hw : unwatched c.pre c.ctx) (d : Operand) (base : BitVec 5) (idx : Operand)
    (sz : Size) (scale : Bool) (n : Nat) (sx : Bool) (x : MemExt) :
    Leaves g b u K c.pre (c.loadLanes c.pre d base idx sz scale n sx x) := by
  unfold Cx.loadLanes
  refine leaves_lanewise hK fun xs t ht => ?_
  dsimp only
  split
  · exact .hold _ hK
  · refine leaves_gated hK _ _ ?_
    split
    · exact .fault _ (idle_takeTags c.pre t).standing
    · exact .okIdle hK ((idle_uses hw (ht.trans (idle_tick c t _ _)) xs _ _ _).trans (idle_landLanes c _ d sx x _ _ xs))

theorem leaves_loadTeam (hK : K c.pre.mem) (hw : unwatched c.pre c.ctx) (d : Operand) (base : BitVec 5) (sz : Size) (sx : Bool)
    (x : MemExt) : Leaves g b u K c.pre (c.loadTeam c.pre d base sz sx x) := by
  refine leaves_one hK fun segs tier bs _ => ?_
  have hbind : Idle g b u c.pre (bindAll c.pre bs) := idle_bindAll c.pre bs
  have huses := idle_uses hw (hbind.trans (idle_tick c _ 0x13 1)) [teamAcc (c.rdS (.s base)) segs tier] 2
    (granules [teamAcc (c.rdS (.s base)) segs tier] sz.bytes) c.req
  dsimp only
  split
  · exact .hold _ hK
  · refine leaves_gated hK _ _ ?_
    split
    · exact .fault _ hbind.standing
    · cases d with
      | s n =>
        dsimp only
        split
        · exact .okIdle hK (huses.trans (idle_onTeam c _ fun _ => rfl))
        · refine .okIdle hK (huses.trans (idle_onTeam c _ fun y => ?_))
          split <;> rfl
      | _ => exact .okIdle hK huses

theorem idle_wrP (c : Cx) (s : State) (n : Nat) (xs : List (Nat × Bool)) : Idle g b u s (c.wrP s n xs) := by
  unfold Cx.wrP
  split
  · exact .refl s
  · exact idle_onTeam c s fun _ => rfl

/-- PMOV stores in any context, and loads in an unwatched one. -/
theorem leaves_pmov (hK : K c.pre.mem) {dir : Bool} (hw : dir = false → unwatched c.pre c.ctx) (p : PredSel) (base : BitVec 5)
    (x : MemExt) : Leaves g b u K c.pre (c.pmov c.pre dir p base x) := by
  refine leaves_one hK fun segs tier bs _ => ?_
  have hbind : Idle g b u c.pre (bindAll c.pre bs) := idle_bindAll c.pre bs
  have htick := hbind.trans (idle_tick c _ 0x13 1)
  cases dir with
  | true => exact .okIdle hK (htick.trans (idle_enqueue c _ _ _ _))
  | false =>
    dsimp only
    split
    · next h => cases h
    · split
      · exact .hold _ hK
      · refine leaves_gated hK _ _ ?_
        split
        · exact .fault _ hbind.standing
        · exact .okIdle hK ((idle_uses (hw rfl) htick _ _ _ _).trans (idle_wrP c _ _ _))

/-! ### Atomics (R262 to R266) -/

/-- t differs from s in memory only, as far as its team's running on and its logs go, and its memory meets K. -/
def keepsTo (g b u : Nat) (K : Memory → Prop) (s t : State) : Prop := t.standing g b u = s.standing g b u ∧ K t.mem

theorem keepsTo_idle {w : State} (h : keepsTo g b u K s t) (h' : Idle g b u t w) : keepsTo g b u K s w :=
  ⟨h'.standing.trans h.1, h'.mem ▸ h.2⟩

/-- K goes on to hold as n bytes are written at a key. -/
def stableAt (K : Memory → Prop) (key n : Nat) : Prop := ∀ m bs, List.length bs = n → K m → K (writeBytes m key bs)

theorem keepsTo_putMem {key : Nat} {bytes : List Byte} (h : keepsTo g b u K s t) (hst : stableAt K key bytes.length) :
    keepsTo g b u K s (putMem t key bytes) := ⟨h.1, hst _ _ rfl h.2⟩

/-- A byte elsewhere is not touched. -/
theorem stableAt_byteAt {a key n : Nat} (h : a < key ∨ key + n ≤ a) (x : Byte) : stableAt (fun m => byteAt m a = x) key n := by
  rintro m bs rfl hm
  rw [byteAt_writeBytes_ne m bs h]
  exact hm

theorem idle_receive (s : State) (e : Nat) (n : W64) : Idle g b u s (s.receive e n) := ⟨rfl, rfl, rfl⟩

theorem idle_stampClocks (s : State) (core part tier key : Nat) (va : W64) : Idle g b u s (stampClocks s core part tier key va) := by
  unfold stampClocks
  dsimp only
  split
  · refine Idle.after (idle_receive _ core _) ?_
    exact idle_receive s _ _
  · exact idle_receive s core _

theorem idle_peerAtomic (s : State) (tier key n : Nat) (r : Rmw) : Idle g b u s (peerAtomic s tier key n r) := by
  unfold peerAtomic
  split
  · exact .refl s
  · exact ⟨rfl, rfl, rfl⟩

/-- Without an undo log an atomic writes its word only (R315). -/
theorem writeWord_unwatched (hw : unwatched s c.ctx) (va : W64) (tier key n v sent : Nat) :
    writeWord s c va tier key n v sent = some (putMem s key (natBytes n v)) := by
  simp only [writeWord, irreversible, undoWrite, hw.1, Bool.false_eq_true, if_false, ite_self, Option.map_some]

/-- One lane of an atomic writes its word only. -/
theorem keepsTo_rmwLane (hw : unwatched c.pre c.ctx) {n : Nat} {x : LaneAcc} (hst : stableAt K (keyAt x.segs 0) n) (tag : Bool)
    (f : Nat → Rmw) {a : RmwAcc} (ha : keepsTo g b u K c.pre a.s) : keepsTo g b u K c.pre (c.rmwLane n tag f a x).s := by
  unfold Cx.rmwLane
  split
  · exact ha
  · dsimp only
    generalize hv : countBank _ _ _ _ _ _ _ = v
    have hcount : Idle g b u a.s v := by
      rw [← hv]
      refine (idle_countBank _ _ _ _ _ _ _).after ?_
      split
      · exact (idle_stampClocks _ _ _ _ _ _).after (idle_foldHash _ _ _ _ _ _ _)
      · exact idle_foldHash _ _ _ _ _ _ _
    have hk := keepsTo_idle ha hcount
    split
    · exact hk
    · split
      · exact keepsTo_idle hk (idle_peerAtomic _ _ _ _ _)
      · rw [writeWord_unwatched (unwatched_of_standing hk.1 hw)]
        exact keepsTo_idle (keepsTo_putMem hk (by rw [length_natBytes]; exact hst)) (idle_peerAtomic _ _ _ _ _)

theorem keepsTo_rmwLanes (hw : unwatched c.pre c.ctx) {n : Nat} {xs : List LaneAcc}
    (hst : ∀ x ∈ xs, stableAt K (keyAt x.segs 0) n) (tag : Bool) (f : Nat → Rmw) {a : RmwAcc} (ha : keepsTo g b u K c.pre a.s) :
    keepsTo g b u K c.pre (xs.foldl (c.rmwLane n tag f) a).s := by
  induction xs generalizing a with
  | nil => exact ha
  | cons x xs ih =>
    exact ih (fun y hy => hst y (List.mem_cons_of_mem _ hy)) (keepsTo_rmwLane hw (hst x List.mem_cons_self) tag f ha)

theorem idle_wrL (c : Cx) (s : State) (d : Operand) (xs : List (Nat × W32)) : Idle g b u s (c.wrL s d xs) := by
  unfold Cx.wrL
  split
  · exact idle_onTeam c s fun y => seq_foldl (fun t _ => seq_setV t _ _ _) xs y
  · exact .refl s

theorem idle_wrD (c : Cx) (s : State) (d : Operand) (xs : List (Nat × W64)) : Idle g b u s (c.wrD s d xs) := by
  unfold Cx.wrD
  split
  · exact idle_onTeam c s fun y => seq_foldl (fun t _ => (seq_setV _ _ _ _).trans (seq_setV t _ _ _)) xs y
  · exact .refl s

theorem leaves_rmwEnd (h : keepsTo g b u K s t) (todo : List Nat) (a : RmwAcc) (stuck : Option (Nat × FInfo)) :
    Leaves g b u K s (rmwEnd todo a stuck t) := by
  unfold rmwEnd
  dsimp only
  split
  · exact .part _ h.1
  · exact .part _ h.1
  · exact .part _ h.1
  · exact .ok h.1 h.2

/-- A lane atomic writes the words of the lanes that it performs only. -/
theorem leaves_atomic (hK : K c.pre.mem) (hw : unwatched c.pre c.ctx) (d : Operand) (base : BitVec 5) (idx : Operand) (sz : Size)
    (scale tag : Bool) (f : Nat → Rmw)
    (hst : ∀ x ∈ (c.checkRmw sz.bytes f (c.laneList base idx sz scale)).1, stableAt K (keyAt x.segs 0) sz.bytes) :
    Leaves g b u K c.pre (c.atomic c.pre d base idx sz scale tag f) := by
  have hrun {t : State} (ht : Idle g b u c.pre t) (xs : List LaneAcc) (hxs : ∀ x ∈ xs, stableAt K (keyAt x.segs 0) sz.bytes)
      (keys : List W64) : keepsTo g b u K c.pre (xs.foldl (c.rmwLane sz.bytes tag f)
        ⟨turnAll (c.tick t 0x13 xs.length) c.ctx 1 keys c.req, [], [], none⟩).s := by
    have htick := ht.trans (idle_tick c t 0x13 xs.length)
    have hturn := htick.trans (idle_turnAll (unwatched_of_standing htick.standing hw) 1 keys c.req)
    exact keepsTo_rmwLanes hw hxs tag f ⟨hturn.standing, hturn.mem ▸ hK⟩
  have htags : Idle g b u c.pre (c.checkRmw sz.bytes f (c.laneList base idx sz scale)).2.2 := by
    unfold Cx.checkRmw
    dsimp only
    split <;> exact idle_checkLanes c _ _ _ _ _
  unfold Cx.atomic
  extract_lets n todo
  split
  · exact .hold _ hK
  · split
    · split
      · exact .hold _ hK
      · generalize c.checkRmw n f todo = chk at *
        obtain ⟨xs, r, tags⟩ := chk
        dsimp -zeta only
        split
        · exact .hold _ hK
        · extract_lets go
          have hgo (t : State) (stuck : Option (Nat × FInfo)) (ht : Idle g b u c.pre t) : Leaves g b u K c.pre (go t stuck) := by
            refine leaves_gated hK _ _ ?_
            extract_lets run a left a'
            have ha : keepsTo g b u K c.pre a'.s := by
              unfold a'
              split
              · exact hrun ht xs hst _
              · exact hrun ht xs hst _
            refine leaves_rmwEnd ?_ _ _ _
            split
            · exact keepsTo_idle ha (idle_wrD c _ d _)
            · exact keepsTo_idle ha (idle_wrL c _ d _)
          cases r with
          | none => exact hgo _ _ (idle_takeTags _ _)
          | some x =>
            have hside := idle_stuck (g := g) (b := b) (u := u) c tags x.2.1 x.2.2
            dsimp only
            generalize c.stuck tags x.2.1 x.2.2 = m at hside
            cases m with
            | fault side fi => exact hgo _ _ (htags.trans (hside _ rfl))
            | hold side w => exact .holdIdle hK (htags.trans (hside _ rfl)) w
            | dead pa => exact .dead pa
    · next hs => exact leaves_parked hK hs

theorem leaves_atoms (hK : K c.pre.mem) (hw : unwatched c.pre c.ctx) (d : Operand) (base : BitVec 5) (idx : Operand) (sz : Size)
    (scale : Bool) (x : MemExt) (tag : Bool) (a : Operand) (op : BitVec 4)
    (hst : ∀ segs tier bs, c.check c.pre .rmw sz.bytes (c.rdS (.s base)) sz.bytes = .ok segs tier bs →
      stableAt K (keyAt segs 0) sz.bytes) :
    Leaves g b u K c.pre (bodyAtoms d base idx sz scale x tag a op c c.pre) := by
  unfold bodyAtoms
  extract_lets n va low r
  refine leaves_one hK fun segs tier bs hchk => ?_
  have hbind : Idle g b u c.pre (bindAll c.pre bs) := idle_bindAll c.pre bs
  have htick := hbind.trans (idle_tick c (bindAll c.pre bs) 0x13 1)
  split
  · exact .fault _ rfl
  · split
    · exact .hold _ hK
    · refine leaves_gated hK _ _ ?_
      have hturn := htick.trans (idle_turnAll (unwatched_of_standing htick.standing hw) 1
        (rmwKeys [teamAcc (c.rdS (.s base)) segs tier]) c.req)
      have hlane := keepsTo_rmwLane (x := teamAcc (c.rdS (.s base)) segs tier) hw (hst _ _ _ hchk) tag
        (fun _ => r)
        (a := ⟨turnAll (c.tick (bindAll c.pre bs) 0x13 1) c.ctx 1 (rmwKeys [teamAcc (c.rdS (.s base)) segs tier]) c.req, [], [], none⟩)
        ⟨hturn.standing, hturn.mem ▸ hK⟩
      dsimp only
      split
      · exact .fault _ hbind.standing
      · exact .fault _ rfl
      · split
        · obtain ⟨hs, hm⟩ := keepsTo_idle hlane (idle_onTeam c _ fun y => seq_setS y _ _)
          exact .ok hs hm
        · exact .ok hlane.1 hlane.2
      · exact .ok hlane.1 hlane.2

/-! ### The members, member by member -/

/-- A member that leaves memory as it stands, where its team goes on. -/
def BesideMemory (g b u : Nat) (c : Cx) (i : Instr) : Prop :=
  exec i = issue1 i (bodyOf i) ∧ plainMember i = true ∧ Leaves g b u (Eq c.pre.mem) c.pre (bodyOf i c c.pre)

/-- Stores are queued, and a pop, a bank operation and a prefetch write no memory either. -/
theorem storers_beside (d idx y z : Operand) (base : BitVec 5) (sz : Size) (sc sx : Bool) (x : MemExt) (n1 : BitVec 3) (p : PredSel)
    (cnt1 : BitVec 7) (op : BitVec 4) :
    ∀ i ∈ [Instr.st d base idx sz sc, .stExt d base idx sz sc x, .ststr d base idx sz sc x n1, .cpst d base idx sz sc x p,
      .sts d base idx sz sc, .stsExt d base idx sz sc x, .pmov true p base, .pmovExt true p base x, .pushm d cnt1,
      .popm d cnt1, .bop base y z sx x op, .pref base idx sz sc, .prefExt base idx sz sc x], BesideMemory g b u c i := by
  simp only [List.forall_mem_cons, List.not_mem_nil, false_implies, implies_true, and_true]
  have hstore (x : MemExt) : Leaves g b u (Eq c.pre.mem) c.pre (c.pmov c.pre true p base x) :=
    leaves_pmov (dir := true) rfl nofun p base x
  exact ⟨⟨rfl, rfl, leaves_storeLanes rfl _ _ _ _ _⟩, ⟨rfl, rfl, leaves_storeLanes rfl _ _ _ _ _⟩,
    ⟨rfl, rfl, leaves_storeLanes rfl _ _ _ _ _⟩, ⟨rfl, rfl, leaves_storeLanes rfl _ _ _ _ _⟩,
    ⟨rfl, rfl, leaves_storeTeam rfl _ _ _ _⟩, ⟨rfl, rfl, leaves_storeTeam rfl _ _ _ _⟩,
    ⟨rfl, rfl, hstore _⟩, ⟨rfl, rfl, hstore x⟩, ⟨rfl, rfl, leaves_pushm rfl _ _⟩,
    ⟨rfl, rfl, leaves_popm rfl _ _⟩, ⟨rfl, rfl, leaves_bop rfl base y z sx x op⟩, ⟨rfl, rfl, .okIdle rfl (.refl _)⟩,
    ⟨rfl, rfl, .okIdle rfl (.refl _)⟩⟩

/-- A load writes no memory where nothing is logged or recorded. -/
theorem loaders_beside (hw : unwatched c.pre c.ctx) (d idx : Operand) (base : BitVec 5) (sz : Size) (sc sx : Bool) (x : MemExt)
    (n1 : BitVec 3) (p : PredSel) :
    ∀ i ∈ [Instr.ld d base idx sz sc, .ldExt d base idx sz sc x sx, .lds d base idx sz sc, .ldsExt d base idx sz sc x sx,
      .ldstr d base idx sz sc x n1, .pmov false p base, .pmovExt false p base x], BesideMemory g b u c i := by
  simp only [List.forall_mem_cons, List.not_mem_nil, false_implies, implies_true, and_true]
  have hload (x : MemExt) : Leaves g b u (Eq c.pre.mem) c.pre (c.pmov c.pre false p base x) :=
    leaves_pmov rfl (fun _ => hw) p base x
  exact ⟨⟨rfl, rfl, leaves_loadLanes rfl hw _ _ _ _ _ _ _ _⟩, ⟨rfl, rfl, leaves_loadLanes rfl hw _ _ _ _ _ _ _ _⟩,
    ⟨rfl, rfl, leaves_loadTeam rfl hw _ _ _ _ _⟩, ⟨rfl, rfl, leaves_loadTeam rfl hw _ _ _ _ _⟩,
    ⟨rfl, rfl, leaves_loadLanes rfl hw _ _ _ _ _ _ _ _⟩, ⟨rfl, rfl, hload _⟩, ⟨rfl, rfl, hload x⟩⟩

theorem mem_eq_of_beside {i : Instr} (hi : BesideMemory g b u c i) (hc : calm s (.team g b u))
    (hr : ready s (.team g b u) i = some c) (he : exec i s = .next t) (hstop : (t.seqOf (.team g b u)).bind (·.stop) = none) :
    t.mem = s.mem := by
  obtain ⟨hex, hp, ha⟩ := hi
  obtain ⟨-, -, -, -, -, hpre, -⟩ := ready_team hr
  exact (mem_of_leaves (K := Eq c.pre.mem) hex hp hc hr ha he hstop).symm.trans (by rw [hpre])

/-- The member of a team that runs on in an unlogged context runs in an unwatched one. -/
theorem unwatched_of_ready {i : Instr} {gr : Grid} (hc : calm s (.team g b u)) (hg : s.grid g = some gr) (hl : unlogged s gr.ctx)
    (hr : ready s (.team g b u) i = some c) : unwatched c.pre c.ctx := by
  obtain ⟨-, -, -, -, -, hpre, -, -, hcg, -⟩ := ready_team hr
  rw [hpre, Cx.ctx, ← Option.some.inj (hg.symm.trans hcg)]
  exact unwatched_of_calm hc hg hl

/-- An atomic keeps each byte outside the words that it may write. -/
theorem atomic_keeps {i : Instr} {gr : Grid} {a : Nat} {sz : Size} {d idx : Operand} {base : BitVec 5} {sc tag : Bool} {f : Nat → Rmw}
    (hex : exec i = issue1 i (bodyOf i)) (hp : plainMember i = true)
    (hb : bodyOf i c c.pre = c.atomic c.pre d base idx sz sc tag f) (hc : calm s (.team g b u)) (hg : s.grid g = some gr)
    (hl : unlogged s gr.ctx) (hr : ready s (.team g b u) i = some c) (he : exec i s = .next t)
    (hstop : (t.seqOf (.team g b u)).bind (·.stop) = none)
    (hout : ∀ l ∈ (c.checkRmw sz.bytes f (c.laneList base idx sz sc)).1,
      a < keyAt l.segs 0 ∨ keyAt l.segs 0 + sz.bytes ≤ a) : byteAt t.mem a = byteAt s.mem a := by
  obtain ⟨-, -, -, -, -, hpre, -⟩ := ready_team hr
  have ha : Leaves g b u (fun m => byteAt m a = byteAt c.pre.mem a) c.pre (bodyOf i c c.pre) := by
    rw [hb]
    exact leaves_atomic (K := fun m => byteAt m a = byteAt c.pre.mem a) rfl (unwatched_of_ready hc hg hl hr) d base idx sz sc
      tag f fun l hmem => stableAt_byteAt (hout l hmem) _
  exact (mem_of_leaves hex hp hc hr ha he hstop).trans (by rw [hpre])

/-- A team's atomic keeps each byte outside its word. -/
theorem atoms_keeps {gr : Grid} {a : Nat} {sz : Size} {d idx y : Operand} {base : BitVec 5} {sc tag : Bool} {x : MemExt}
    {op : BitVec 4} (hc : calm s (.team g b u)) (hg : s.grid g = some gr) (hl : unlogged s gr.ctx)
    (hr : ready s (.team g b u) (.atoms d base idx sz sc x tag y op) = some c)
    (he : exec (.atoms d base idx sz sc x tag y op) s = .next t) (hstop : (t.seqOf (.team g b u)).bind (·.stop) = none)
    (hout : ∀ segs tr bd, c.check s .rmw sz.bytes (c.rdS (.s base)) sz.bytes = .ok segs tr bd →
      a < keyAt segs 0 ∨ keyAt segs 0 + sz.bytes ≤ a) : byteAt t.mem a = byteAt s.mem a := by
  obtain ⟨-, -, -, -, -, hpre, -⟩ := ready_team hr
  have ha : Leaves g b u (fun m => byteAt m a = byteAt c.pre.mem a) c.pre (bodyAtoms d base idx sz sc x tag y op c c.pre) :=
    leaves_atoms (K := fun m => byteAt m a = byteAt c.pre.mem a) rfl (unwatched_of_ready hc hg hl hr) d base idx sz sc x tag y op
      fun segs tr bd h => stableAt_byteAt (hout segs tr bd (hpre ▸ h)) _
  exact (mem_of_leaves rfl rfl hc hr ha he hstop).trans (by rw [hpre])

/-! ### The head of a store queue (R253, R268) -/

theorem idle_popStore (s : State) (g' b' k : Nat) : Idle g b u s (popStore s (.team g' b' k)) :=
  have h := idle_modTeam (g := g) (b := b) (u := u) s g' b' k (f := fun x => { x with storeQ := x.storeQ.drop 1 }) fun _ => rfl
  ⟨h.mem, h.frames, h.standing⟩

/-- A health record of a context without a trace buffer writes no memory (R345). -/
theorem idle_health {ctx : Nat} {x : Ctx} (hx : mget s.ctxs ctx = some x) (ht : x.trace = none) (source unit index : Nat)
    (v w : W64) : Idle g b u s (s.health (some ctx) source unit index v w) := by
  unfold State.health
  split
  · exact .refl s
  · simp only [Option.bind_some, hx, State.bump, State.trace, ht]
    obtain ⟨vs, o, h⟩ := raise_shape _ _ _
    rw [h]
    exact ⟨rfl, rfl, rfl⟩

/-- A store that is not a peer's own writes its bytes. -/
theorem writeStore_unlogged {gr : Grid} {core : Nat} {e : StoreEnt} (hr : reachable s e.key) (hu : s.undoOn gr.ctx = false)
    (g' b' : Nat) : ∃ v, writeStore s gr g' b' core e = some v ∧ Idle g b u (putMem s e.key e.bytes) v := by
  have hrec : storeRecords s gr g' b' core e e.bytes = some s := by
    simp only [storeRecords, irreversible, undoWrite, hu, Bool.false_eq_true, if_false, ite_self]
  rw [writeStore, if_neg (Bool.eq_false_iff.mp hr), hrec, Option.map_some]
  refine ⟨_, rfl, ?_⟩
  have huse := idle_countUse (g := g) (b := b) (u := u) (putMem s e.key e.bytes) gr.ctx gr.part core e.va e.tier e.key
  split
  · exact huse.trans ⟨rfl, rfl, rfl⟩
  · exact huse

/-- A bank operation writes its word, or loses its element on a poisoned one. -/
theorem writeBop_unlogged {K : Memory → Prop} {gr : Grid} {core : Nat} {e : StoreEnt} (hl : unlogged s gr.ctx)
    (hst : stableAt K e.key e.bytes.length) (hK : K s.mem) (g' : Nat) (op : BitVec 4) (x : W64) :
    ∃ v, writeBop s gr g' core e op x = some v ∧ keepsTo g b u K s v := by
  obtain ⟨y, hy, hundo, -, -, -, htrace⟩ := hl
  have hs : keepsTo g b u K s s := ⟨rfl, hK⟩
  unfold writeBop
  dsimp only
  split
  · exact ⟨_, rfl, keepsTo_idle hs (idle_health hy htrace _ _ _ _ _)⟩
  · have hoff : s.undoOn gr.ctx = false := by rw [State.undoOn, hy, Option.map_some, hundo, Option.getD_some]
    rw [undoWrite, hoff, if_neg Bool.false_ne_true, Option.map_some]
    exact ⟨_, rfl, keepsTo_idle (keepsTo_putMem hs (by rw [length_natBytes]; exact hst)) (idle_countBank _ _ _ _ _ _ _)⟩

variable {gr : Grid} {tm : Team} {e : StoreEnt}

theorem unwatched_of_headStore (hs : headStore s g b u gr tm e) (hl : unlogged s gr.ctx) : unwatched s gr.ctx := by
  obtain ⟨-, -, -, -, -, hscr, -, hundo⟩ := hs
  obtain ⟨x, hx, -, hrec, -⟩ := hl
  exact ⟨hundo, by rw [State.recordOn, hx, Option.map_some, hrec, Option.getD_some], hscr⟩

/-- The head of a store queue is performed where its kind is asked for: its entry is written, and its granules lose their poison. -/
theorem performEntry_head (hs : headStore s g b u gr tm e) {sel : StoreKind → Bool} (hsel : sel e.kind = true) {v : State}
    (hv : writeEntry (popStore s (.team g b u)) gr g b tm.core e = some v) :
    performEntry (.team g b u) sel s = some (turnAll v gr.ctx e.kind.arb e.grans (reqOf (.team g b u))) := by
  obtain ⟨hgr, htm, hlive, hloads, hhead, hscr, hstall, -⟩ := hs
  obtain ⟨rest, hq⟩ := List.head?_eq_some_iff.mp hhead
  simp only [performEntry, Party.gridNo, hgr, htm, Option.bind_some, hq, hsel, hloads, hlive, gateAll_go hscr hstall, hv,
    List.isEmpty_nil, Bool.not_true, Bool.or_false, Bool.false_eq_true, if_false]

/-- Healing a granule touches poison only. -/
theorem idle_heal (s : State) (hs : List Nat) :
    Idle g b u s (if hs.isEmpty then s else { s with poison := s.poison.filter fun k => decide (k ∉ hs) }) := by
  split
  · exact .refl s
  · exact ⟨rfl, rfl, rfl⟩

/-- An entry's write heals its granules. -/
theorem writeEntry_store {core : Nat} {v : State} (hk : e.kind = .store) (hv : writeStore s gr g b core e = some v) :
    ∃ w, writeEntry s gr g b core e = some w ∧ Idle g b u v w := by
  rw [writeEntry, hk]
  dsimp only
  rw [hv, Option.map_some]
  exact ⟨_, rfl, idle_heal v e.heals⟩

theorem writeEntry_bop {core : Nat} {op : BitVec 4} {x : W64} {v : State} (hk : e.kind = .bop op x)
    (hv : writeBop s gr g core e op x = some v) : ∃ w, writeEntry s gr g b core e = some w ∧ Idle g b u v w := by
  rw [writeEntry, hk]
  dsimp only
  rw [hv, Option.map_some]
  exact ⟨_, rfl, idle_heal v e.heals⟩

/-- The store at the head of a queue writes its bytes and nothing else. -/
theorem storePerform_writes (hs : headStore s g b u gr tm e) (hk : e.kind = .store) (hr : reachable s e.key)
    (hl : unlogged s gr.ctx) (he : exec (.storePerform (.team g b u)) s = .next t) :
    t.mem = writeBytes s.mem e.key e.bytes ∧ t.frames = s.frames := by
  have hpop : Idle g b u s (popStore s (.team g b u)) := idle_popStore s g b u
  have hw := unwatched_of_headStore hs hl
  obtain ⟨v, hv, hidle⟩ := writeStore_unlogged (g := g) (b := b) (u := u) (s := popStore s (.team g b u)) (core := tm.core) hr
    (unwatched_of_standing hpop.standing hw).1 g b
  obtain ⟨w, hwrite, hvw⟩ := writeEntry_store (b := b) (u := u) hk hv
  have hheal := hidle.trans hvw
  have hperf := performEntry_head hs (sel := fun k => match k with
    | .bop _ _ => false
    | _ => true) (by rw [hk]) hwrite
  rw [show exec (.storePerform (.team g b u)) s = happens s _ from congrArg (happens s) hperf] at he
  obtain rfl := Host.Outcome.next.inj he
  rw [turnAll_unwatched (unwatched_of_standing (hheal.standing.trans hpop.standing) hw)]
  exact ⟨hheal.mem.trans (congrArg (writeBytes · e.key e.bytes) hpop.mem), hheal.frames.trans hpop.frames⟩

/-- The bank operation at the head of a queue keeps what the write of its word keeps. -/
theorem bankAluOperation_keeps {K : Memory → Prop} {op : BitVec 4} {x : W64} (hs : headStore s g b u gr tm e)
    (hk : e.kind = .bop op x) (hl : unlogged s gr.ctx) (hst : stableAt K e.key e.bytes.length) (hK : K s.mem)
    (he : exec (.bankAluOperation (.team g b u)) s = .next t) : K t.mem := by
  have hpop : Idle g b u s (popStore s (.team g b u)) := idle_popStore s g b u
  have hw := unwatched_of_headStore hs hl
  obtain ⟨v, hv, hkeeps⟩ := writeBop_unlogged (g := g) (b := b) (u := u) (s := popStore s (.team g b u)) (core := tm.core)
    (K := K) hl hst (hpop.mem ▸ hK) g op x
  obtain ⟨w, hwrite, hvw⟩ := writeEntry_bop (b := b) (u := u) hk hv
  have hheal := keepsTo_idle hkeeps hvw
  have hperf := performEntry_head hs (sel := fun k => match k with
    | .bop _ _ => true
    | _ => false) (by rw [hk]) hwrite
  rw [show exec (.bankAluOperation (.team g b u)) s = happens s _ from congrArg (happens s) hperf] at he
  obtain rfl := Host.Outcome.next.inj he
  rw [turnAll_unwatched (unwatched_of_standing (hheal.1.trans hpop.standing) hw)]
  exact hheal.2

end

/-! ### Hosts and queues (R285, R359) -/

section
variable {s t : State}

/-- A host's write that its tier holds writes its bytes; another one has no next state. -/
theorem hostWrite_writes {ti : BitVec 2} {pa : Nat} {bs : List Byte} (he : exec (.hostWrite ti pa bs) s = .next t) :
    t.mem = writeBytes s.mem (memKey ti.toNat pa) bs := by
  by_cases h : pa + bs.length ≤ tierBytes ti.toNat
  · rw [exec_hostWrite_in h] at he
    obtain rfl := Host.Outcome.next.inj he
    rfl
  · rw [exec_hostWrite_outside (Nat.not_le.mp h)] at he
    cases he

/-- A passing access of a queue binds key tags and writes no memory. -/
theorem qRange_ok_mem {part space : Nat} {acc : Acc} {va : W64} {n : Nat} {segs : List (Nat × Nat)} {tier : Nat}
    (h : qRange s part space acc va n = .ok segs tier t) : t.mem = s.mem := by
  unfold qRange at h
  split at h
  · cases h
  · split at h
    · cases h; exact bindAll_mem s _
    · cases h
    · split at h <;> cases h
    · cases h
    · cases h
    · cases h

/-- A queue's store that passes is performed at once. -/
theorem exec_cmdSt_passes {q key tier : Nat} {x : Queue} {j : JImg} {ka kb : BitVec 4} {imm : BitVec 44} (hq : queueTurn s q x j)
    (hd : undispatched x j) (hp : qPasses s x .store (j.reg kb.toNat + imm.signExtend 64) key tier t) :
    exec (.cmdSt ka kb imm) s = dispEnds (qStore t key (j.reg ka.toNat)) q j 0 j := by
  obtain ⟨hturn, hx, hj, hserved⟩ := hq
  obtain ⟨halign, n, rest, hok, -⟩ := hp
  have hdo : doSt s x (j.reg kb.toNat + imm.signExtend 64) (j.reg ka.toNat) = .done 0 (qStore t key (j.reg ka.toNat)) := by
    simp only [doSt, qWord, halign, hok, ne_eq, not_true_eq_false, if_false, decide_false, Bool.false_and, Bool.false_eq_true]
  show execCmdSt ka kb imm s = _
  simp only [execCmdSt, dispatched, withQueue, hturn, hx, hj, hserved, if_true, show x.window.find? _ = none from hd, hdo]
  rfl

theorem dispEnds_mem (q : Nat) (j post : JImg) (v : W64) : ∃ w, dispEnds s q j v post = .next w ∧ w.mem = s.mem := ⟨_, rfl, rfl⟩

end

/-- Settles O60: a member's answer leaves memory as it stands but for the words of an atomic, and each performed write is one
`writeBytes`. -/
theorem memoryFrame : Obligations.MemoryFrame := by
  unfold Obligations.MemoryFrame
  intro s t g b k q key tier pa a gr tm st op w x j bs ti ka kb imm c d idx y z base sz sc sx tag ext n1 p cnt1
  have bytes {m : Memory} {n : Nat} {l : List Byte} (hm : m = writeBytes s.mem n l) :
      (a < n ∨ n + l.length ≤ a → byteAt m a = byteAt s.mem a) ∧ ∀ i < l.length, byteAt m (n + i) = l[i]?.getD 0 := by
    subst hm
    refine ⟨byteAt_writeBytes_ne _ _, fun i hi => ?_⟩
    rw [byteAt_writeBytes_in _ _ _ _ hi, List.getElem?_eq_getElem hi, Option.getD_some]
  refine ⟨fun hc hstop i hi hr he => ?_, fun hc hstop hg hl => ⟨fun i hi hr he => ?_, fun hr he hout => ?_, fun hr he hout => ?_,
    fun hr he hout => ?_⟩, fun hs hk hreach hl he => ?_, fun hs hk hl he hout => ?_, fun he => bytes (hostWrite_writes he),
    fun hq hd hp => ?_⟩
  · exact mem_eq_of_beside (storers_beside d idx y z base sz sc sx ext n1 p cnt1 op i hi) hc hr he hstop
  · exact mem_eq_of_beside (loaders_beside (unwatched_of_ready hc hg hl hr) d idx base sz sc sx ext n1 p i hi) hc hr he hstop
  · exact atomic_keeps rfl rfl rfl hc hg hl hr he hstop hout
  · exact atomic_keeps rfl rfl rfl hc hg hl hr he hstop hout
  · exact atoms_keeps hc hg hl hr he hstop hout
  · obtain ⟨hm, hf⟩ := storePerform_writes hs hk hreach hl he
    exact ⟨(bytes hm).1, (bytes hm).2, hf⟩
  · exact bankAluOperation_keeps (K := fun m => byteAt m a = byteAt s.mem a) hs hk hl (stableAt_byteAt hout _) rfl he
  · obtain ⟨u, hu, hmem⟩ := dispEnds_mem (s := qStore t key (j.reg ka.toNat)) q j j 0
    obtain ⟨-, n, rest, hok, -⟩ := id hp
    have hwrite : u.mem = writeNat s.mem key 8 (j.reg ka.toNat).toNat := by
      rw [← qRange_ok_mem hok]; exact hmem
    refine ⟨u, (exec_cmdSt_passes hq hd hp).trans hu, fun hout => (bytes hwrite).1 (by rwa [length_natBytes]), ?_⟩
    rw [hwrite, readNat_writeNat]
    exact Nat.mod_eq_of_lt (j.reg ka.toNat).isLt

end Sys2Proof.Machine
end

/-! ## O4: float members -/

section
namespace Sys2Proof.Machine

/-! ### Members with a float result (R129, R131) -/

/-- A member that leaves a float result with its flags in every active lane executes so. -/
theorem executes_float {i : Instr} {d : Operand} {f : Cx → Nat → FRes} (he : exec i = issue1 i (bodyOf i))
    (hp : plainMember i = true) (hb : ∀ c s, bodyOf i c s = .ok (c.float s d (f c))) : Executes i (lanesF d f) :=
  executes_ok he hp fun c => hb c c.pre

/-- FCMP into a lane predicate writes each active lane's result and sets the flags of all of them (R155). -/
theorem bodyFcmp_lane (c : Cx) (s : State) (n : Fin 48) (cc : BitVec 2) (a b : Operand) : bodyFcmp (.p n) cc a b c s =
    .ok (c.setFlags (c.wrP s n.val (c.lanes.map fun l => (l, (fcmpF cc (c.f32 a l) (c.f32 b l)).1)))
      (orFlags (c.lanes.map fun l => (fcmpF cc (c.f32 a l) (c.f32 b l)).2))) := by
  simp only [bodyFcmp, List.map_map, Function.comp_def]

/-! ### CVTQ's own checks (R162) -/

section
variable {c : Cx} {gr : Grid} {d a b : Operand} {r : BitVec 7} {fmt : BitVec 3} {mode : BitVec 2} {elem : BitVec 3}

/-- A CVTQ into a v register whose operands exist comes to its own checks: it writes no frame slot. -/
theorem ownCheck_cvtq (h : ownOperandBad c.gr.lrec.regs c.gr.lrec.cmode (.cvtq (.v r) a b fmt mode elem) = false) :
    ownCheck c (.cvtq (.v r) a b fmt mode elem) = cvtqBad c.gr a fmt mode elem := by
  rw [ownCheck, h]
  rfl

/-- A slot of neither quantized type is refused first. -/
theorem cvtqBad_type (h5 : fmtType (fmtSlot gr fmt.toNat) ≠ 5) (h6 : fmtType (fmtSlot gr fmt.toNat) ≠ 6) :
    cvtqBad gr a fmt mode elem = some 0x22 :=
  if_pos ⟨h5, h6⟩

/-- Under a quantized slot, a source that is no v register is refused, an element past the register's last, and an odd first
element of a pair. -/
theorem cvtqBad_field (ht : fmtType (fmtSlot gr fmt.toNat) = 5 ∨ fmtType (fmtSlot gr fmt.toNat) = 6)
    (h : opIsV a = false ∨ (if fmtType (fmtSlot gr fmt.toNat) = 5 then 3 else 7) < elem.toNat ∨
      (mode = 1 ∧ elem.toNat % 2 = 1)) : cvtqBad gr a fmt mode elem = some 0x02 := by
  have htype : ¬(fmtType (fmtSlot gr fmt.toNat) ≠ 5 ∧ fmtType (fmtSlot gr fmt.toNat) ≠ 6) := by tauto
  have hfield : (!(opIsV a) || decide ((if fmtType (fmtSlot gr fmt.toNat) = 5 then 3 else 7) < elem.toNat) ||
      (decide (mode = 1) && decide (elem.toNat % 2 = 1))) = true := by
    simpa [or_assoc] using h
  simp only [cvtqBad, if_neg htype, hfield, if_true]

end

/-- Settles O4: the meaning of each float member is its result in every lane with the flags; FCMP goes by its destination; CVTQ's
own checks come before its data. -/
theorem floatMembers : Obligations.FloatMembers := by
  unfold Obligations.FloatMembers
  intro d a b x np nc n cc mode src dst m fmt elem q
  refine ⟨?fadd, ?fsub, ?fmul, ?ffma, ?fmin, ?fmax, ?fcmpLane, ?fcmpScope, ?frcp, ?frsq, ?fsqrt, ?fex2, ?flg2, ?hadd2, ?hmul2,
    ?hfma2, ?cvt, ?frnd, ?fscl, ?fcls, ?cvtq, ?cvtqRefused⟩
  case fcmpLane => exact executes_ok rfl rfl fun c => bodyFcmp_lane c c.pre n cc a b
  case fcmpScope => exact executes_ok rfl rfl fun c => rfl
  case fcls => exact executes_ok rfl rfl fun c => rfl
  case cvtq => exact executes_of rfl rfl fun c _ => ⟨rfl, rfl⟩
  case cvtqRefused =>
    rintro r rfl
    exact ⟨refuses_of rfl fun c ⟨hown, h5, h6⟩ => (ownCheck_cvtq hown).trans (cvtqBad_type h5 h6),
      refuses_of rfl fun c ⟨hown, ht, hfield⟩ => (ownCheck_cvtq hown).trans (cvtqBad_field ht hfield)⟩
  all_goals exact executes_float rfl rfl fun _ _ => rfl

end Sys2Proof.Machine
end

/-! ## O28: matrix members enter their queue -/

section
namespace Sys2Proof.Machine

/-- A member of the matrix queue's kinds: its chain ends as a plain member's, and its meaning is acceptance. -/
structure MatrixMember (i : Instr) : Prop where
  issues : exec i = issue1 i (bodyOf i)
  plain : plainMember i = true
  meaning : bodyOf i = matBody i

/-- The scalar that a member captures: that of ASCL (R201). -/
def matScal (c : Cx) : Instr → W32
  | .ascl _ o => (c.rdS o).setWidth 32
  | _ => 0

/-- The registers that an ARD writes wait for its tile operations (R187). -/
def ardWaits (c : Cx) (s : State) : Instr → State
  | .ard _ _ _ n (.v r) => c.onTeam s fun y => { y with
      ardBusy := ((List.range (n.toNat + 1)).flatMap fun j => c.lanes.map fun l => vKey (r.toNat + j) l).foldl sadd1 y.ardBusy }
  | _ => s

theorem ardWaits_of_ne {c : Cx} {i : Instr} (h : ∀ t cvt cblk n r, i ≠ .ard t cvt cblk n (.v r)) (s : State) :
    ardWaits c s i = s := by
  unfold ardWaits
  split
  · exact absurd rfl (h _ _ _ _ _)
  · rfl

section
variable {c : Cx} {i : Instr} {x : Nat}

/-! ### The checks of acceptance (R195) -/

theorem matBody_slotBad (h : matSlotBad c.gr i = true) (s : State) : matBody i c s = .fault c.pre { cls := 0x22 } := if_pos h

variable (hslot : matSlotBad c.gr i = false) (hrange : matRangeBad c.gr i = false)
include hslot hrange

theorem matBody_noTile (htile : c.gr.lrec.tiles ≤ matTile i + matCount c.tm.nlane i - 1) (s : State) : matBody i c s =
    .fault c.pre { cls := 0x21, addr := BitVec.ofNat 64 (matTile i + matCount c.tm.nlane i - 1) } := by
  simp only [matBody, hslot, hrange, htile, Bool.false_eq_true, if_false, if_true]

variable (htile : matTile i + matCount c.tm.nlane i - 1 < c.gr.lrec.tiles) (hobs : c.matObstacle i = .ready)
  (hmeta : c.metaBad i = none) (hctx : (c.pre.block c.g c.b).bind (·.mctx) = some x)
include htile hobs hmeta hctx

theorem matBody_full (hfull : 2 ≤ ((mget c.pre.matq (2 * c.core + x)).getD []).length) :
    matBody i c c.pre = .hold c.pre (.notReady 11) := by
  simp only [matBody, hslot, hrange, Nat.not_le.mpr htile, hobs, hmeta, hctx, hfull, Bool.false_eq_true, if_false, if_true]

end

/-- A member that passes every check, its queue having room, is queued. -/
theorem matBody_accepted {c : Cx} {i : Instr} {x : Nat} (h : matAccepted c i x) :
    matBody i c c.pre = .ok (ardWaits c (matQueued c i x (matScal c i)) i) := by
  obtain ⟨hslot, hrange, htile, hobs, hmeta, hctx, hroom⟩ := h
  simp only [matBody, hslot, hrange, Nat.not_le.mpr htile, hobs, hmeta, hctx, Nat.not_le.mpr hroom, Bool.false_eq_true,
    if_false]
  split
  · rfl
  · next hne => exact congrArg MRes.ok (ardWaits_of_ne (fun _ _ _ _ _ h => hne _ _ _ _ _ h) _).symm

/-! ### Members -/

section
variable {i : Instr} (hi : MatrixMember i) (x : Nat)
include hi

theorem executes_matrix : ExecutesIf i (fun c => matAccepted c i x)
    fun c => .ok (ardWaits c (matQueued c i x (matScal c i)) i) :=
  executes_of hi.issues hi.plain fun _ h => ⟨hi.meaning ▸ matBody_accepted h, rfl⟩

theorem raises_matrix_slot : RaisesIf i (fun c => matSlotBad c.gr i = true) fun _ => { cls := 0x22 } :=
  raises_of hi.issues hi.plain fun _ h => hi.meaning ▸ matBody_slotBad h _

theorem raises_matrix_tile : RaisesIf i
    (fun c => matSlotBad c.gr i = false ∧ matRangeBad c.gr i = false ∧
      c.gr.lrec.tiles ≤ matTile i + matCount c.tm.nlane i - 1)
    fun c => { cls := 0x21, addr := BitVec.ofNat 64 (matTile i + matCount c.tm.nlane i - 1) } :=
  raises_of hi.issues hi.plain fun _ ⟨hslot, hrange, htile⟩ => hi.meaning ▸ matBody_noTile hslot hrange htile _

theorem waits_matrix : WaitsIf i
    (fun c => matSlotBad c.gr i = false ∧ matRangeBad c.gr i = false ∧
      matTile i + matCount c.tm.nlane i - 1 < c.gr.lrec.tiles ∧ c.matObstacle i = .ready ∧ c.metaBad i = none ∧
      (c.pre.block c.g c.b).bind (·.mctx) = some x ∧ 2 ≤ ((mget c.pre.matq (2 * c.core + x)).getD []).length)
    fun _ => .notReady 11 :=
  waits_of hi.issues hi.plain fun _ ⟨hslot, hrange, htile, hobs, hmeta, hctx, hfull⟩ =>
    hi.meaning ▸ matBody_full hslot hrange htile hobs hmeta hctx hfull

end

/-- Settles O28: every matrix member has the one meaning `matBody`, whose checks come in the order of R195; all but ASCL capture no
scalar, and all but ARD leave no register waiting. -/
theorem matrixMembers : Obligations.MatrixMembers := by
  unfold Obligations.MatrixMembers
  intro t n1 fmt fa fb a b m ga gb o cvt cblk k r x
  refine ⟨fun i hi => ?_, executes_matrix ⟨rfl, rfl, rfl⟩ x, executes_matrix ⟨rfl, rfl, rfl⟩ x⟩
  have hmember : MatrixMember i ∧ ∀ c s, ardWaits c s i = s ∧ matScal c i = 0 := by
    simp only [List.mem_cons, List.not_mem_nil, or_false] at hi
    obtain rfl | rfl | rfl | rfl | rfl := hi <;> exact ⟨⟨rfl, rfl, rfl⟩, fun _ _ => ⟨rfl, rfl⟩⟩
  obtain ⟨hmat, hnone⟩ := hmember
  have hqueued : (fun c => MRes.ok (ardWaits c (matQueued c i x (matScal c i)) i)) = fun c => .ok (matQueued c i x 0) :=
    funext fun c => by rw [(hnone c _).1, (hnone c c.pre).2]
  exact ⟨hqueued ▸ executes_matrix hmat x, raises_matrix_slot hmat, raises_matrix_tile hmat, waits_matrix hmat x⟩

end Sys2Proof.Machine
end

/-! ## O31: tile operations, copies, loads and store queues -/

section
namespace Sys2Proof.Machine

/-! ### Tile operations (R186) -/

section
variable {s : State} {core ctx g b k n : Nat} {e : MatEnt} {es : List MatEnt} {gr : Grid} {y : Blk}
  (hq : mget s.matq (2 * core + ctx) = some (e :: es))
include hq

theorem matReady_of_live (hl : s.liveFor e.party = true) : matReady s core ctx = true := by
  rw [matReady, hq]
  exact hl

theorem exec_tileOperation (hcore : core < 96) (hctx : ctx < 2) (hl : s.liveFor e.party = true) :
    exec (.tileOperation core ctx) s = happens s (tileOp s core ctx) := by
  show execTileOperation core ctx s = _
  rw [execTileOperation, if_pos ⟨hcore, hctx, matReady_of_live hq hl⟩]

variable (hturn : matReady s core (1 - ctx) = false ∨ mget s.matLast core ≠ some ctx) (hn : e.nextOp = some n)
  (hp : e.party = .team g b k) (hg : s.grid g = some gr) (hb : s.block g b = some y) (hclean : ∀ a ∈ e.reads n, a ∉ y.tbad)
include hturn hn hp hg hb hclean

/-- Where it is not the other context's turn, the next operation of the first member writes its elements in its block, and memory
nowhere. -/
theorem tileOp_modifies :
    ∃ t f, tileOp s core ctx = some t ∧ t.blocks = mmod s.blocks (bKey g b) f ∧ t.mem = s.mem ∧
      ∀ z, (f z).tiles = (e.writes gr y n).foldl (fun m w => zset m w.1 w.2) z.tiles := by
  have hother : (matReady s core (1 - ctx) && decide (mget s.matLast core = some ctx)) = false :=
    Bool.and_eq_false_iff.mpr (hturn.imp_right decide_eq_false)
  have hbad : (e.reads n).filter (fun a => decide (a ∈ y.tbad)) = [] :=
    List.filter_eq_nil_iff.mpr fun a ha => by simpa using hclean a ha
  simp only [tileOp, hq, Option.getD_some, hother, hn, hp, hg, hb, hbad, List.foldl_nil, Bool.false_eq_true, if_false]
  exact ⟨_, _, rfl, rfl, rfl, fun _ => rfl⟩

theorem tileOp_writes :
    ∃ t z, tileOp s core ctx = some t ∧ t.block g b = some z ∧ t.mem = s.mem ∧
      z.tiles = (e.writes gr y n).foldl (fun m w => zset m w.1 w.2) y.tiles := by
  obtain ⟨t, f, hop, hblocks, hmem, htiles⟩ := tileOp_modifies hq hturn hn hp hg hb hclean
  have hz : t.block g b = some (f y) := by
    rw [State.block, hblocks, mget_mmod_self, show mget s.blocks (bKey g b) = some y from hb, Option.map_some]
  exact ⟨t, f y, hop, hz, hmem, htiles y⟩

end

/-! ### Copies (R208 to R214) -/

section
variable {s t : State} {id : Nat} {c : Copy}

/-- A step of a copy whose next piece does not share its word with the one after it is that piece (R209). -/
theorem copyStep_of_copyNext (hw : c.sameWord c.next = false) (h : copyNext s id c = .wrote t) : copyStep s id c = .wrote t := by
  simp only [copyStep, copyRun, h, hw, Bool.false_eq_true, if_false]

variable (hc : copyAt s id c)
include hc

theorem liveCopy_of_copyAt : liveCopy s id = some c := by
  obtain ⟨hid, hlive, hstop, hcore⟩ := hc
  simp only [liveCopy, hid, Option.bind_some, hlive, hstop, hcore, Option.isNone_none, Bool.and_self, if_true]

theorem exec_copyStart_starts (hs : c.started = false) (ha : c.after = 0) (hb : copyBlocked s id c = false) :
    exec (.copyStart id) s = .next { s with
      seed := s.seed + 1
      copies := mset s.copies id { c with
        started := true, engine := 0x2000 + 4 * (((s.coreOf c.party).getD 0) / 24) + Config.freeNat s.seed % 4 } } := by
  show execCopyStart id s = _
  simp only [execCopyStart, liveCopy_of_copyAt hc, hs, ha, hb, Bool.not_false, and_self, if_true]
  rfl

theorem exec_copyStart_writes (hs : c.started = true) (hn : c.next < c.total) (h : copyStep s id c = .wrote t) :
    exec (.copyStart id) s = .next t := by
  show execCopyStart id s = _
  simp only [execCopyStart, liveCopy_of_copyAt hc, hs, Nat.not_le.mpr hn, h, Bool.not_true, Bool.false_eq_true, if_false]

theorem exec_copyComplete (hs : c.started = true) (hn : c.total ≤ c.next) :
    exec (.copyComplete id) s = .next (finishCopy s id c) := by
  show execCopyComplete id s = _
  simp only [execCopyComplete, liveCopy_of_copyAt hc, Option.bind_some, hs, hn, decide_true, Bool.and_self, if_true, happens]

theorem exec_copyFail {cls : Nat} {va : W64} (hs : c.started = true) (hn : c.next < c.total)
    (h : copyStep s id c = .failed cls va t) : exec (.copyFail id) s = .next (failCopy t id c cls va) := by
  show execCopyFail id s = _
  simp only [execCopyFail, liveCopy_of_copyAt hc, Option.bind_some, hs, hn, h, decide_true, Bool.and_self, if_true, happens]

end

/-! ### Loads (R237, R239) -/

section
variable {s : State} {l : LoadEnt} {x : Team} {d : LoadPart}

theorem exec_loadDataReturn {g b k : Nat} {gr : Grid} {ls : List LoadEnt} (hg : s.grid g = some gr)
    (hl : s.liveFor (.team g b k) = true) (hx : s.team g b k = some x) (hloads : x.loads = l :: ls)
    (hscr : s.scripted gr.ctx = false) (hfull : stallsFull s gr.ctx = false) :
    exec (.loadDataReturn (.team g b k)) s = .next (landFirst s gr g b k l ls) := by
  show execLoadDataReturn (.team g b k) s = _
  simp only [execLoadDataReturn, Party.gridNo, hg, hl, hx, Option.bind_some, hloads, gateAll_go hscr hfull, Bool.not_true,
    Bool.false_eq_true, if_false, happens]

/-- The key of a lane register is that of its number and lane. -/
theorem vKey_div_mod (n : Nat) : vKey (n / 1024) (n % 1024) = n := Nat.div_add_mod' n 1024

variable (hclean : ∀ i < d.n, poisoned s (d.key + i) = false)
include hclean

theorem landPart_scalar (hs : l.sreg = true) : landPart s l x d = { x with
    s := zset x.s d.dst (extend l.sx d.n (readNat s.mem d.key d.n)), stag := mdel x.stag d.dst } := by
  simp only [landPart, hs, anyPoisoned_false hclean, if_true, Bool.false_eq_true, if_false, Team.setS]

theorem landPart_lane (hs : l.sreg = false) : landPart s l x d = { x with
    v := zset x.v d.dst ((extend l.sx d.n (readNat s.mem d.key d.n)).setWidth 32), vtag := mdel x.vtag d.dst } := by
  simp only [landPart, hs, anyPoisoned_false hclean, Bool.false_eq_true, if_false, Team.setV, vKey_div_mod]

end

/-! ### The first entry of a store queue (R176, R250, R253) -/

section
variable {s v : State} {g b k core : Nat} {gr : Grid} {x : Team} {e : StoreEnt}

/-! What a write looks at stands as before where its entry has left the queue. -/

theorem poisoned_popped (key : Nat) : poisoned (popped s g b k) key = poisoned s key := rfl

theorem homeOf_popped (part : Nat) (va : W64) (tier key : Nat) : homeOf (popped s g b k) part va tier key =
    homeOf s part va tier key := rfl

theorem undoOn_popped (hs : headStore s g b k gr x e) : (popped s g b k).undoOn gr.ctx = false := by
  obtain ⟨-, -, -, -, -, -, -, hundo⟩ := hs
  exact hundo

/-- An entry's write by its kind, before its granules are healed. -/
def writeKind (s : State) (gr : Grid) (g b core : Nat) (e : StoreEnt) : Option State :=
  match e.kind with
  | .store => writeStore s gr g b core e
  | .bop op w => writeBop s gr g core e op w
  | .frame cell slot => writeSlot s gr g b core e cell slot

theorem writeKind_store (hk : e.kind = .store) : writeKind s gr g b core e = writeStore s gr g b core e := by
  rw [writeKind, hk]

theorem writeKind_bop {op : BitVec 4} {w : W64} (hk : e.kind = .bop op w) :
    writeKind s gr g b core e = writeBop s gr g core e op w := by
  rw [writeKind, hk]

theorem writeKind_frame {cell slot : Nat} (hk : e.kind = .frame cell slot) :
    writeKind s gr g b core e = writeSlot s gr g b core e cell slot := by
  rw [writeKind, hk]

/-- An entry is its write with its granules healed, also where its member has written none whole (R237). -/
theorem writeEntry_of_writeKind (h : writeKind s gr g b core e = some v) :
    writeEntry s gr g b core e = some { v with poison := v.poison.filter fun n => decide (n ∉ e.heals) } := by
  have hentry : writeEntry s gr g b core e = (writeKind s gr g b core e).map fun v =>
      if e.heals.isEmpty then v else { v with poison := v.poison.filter fun n => decide (n ∉ e.heals) } := rfl
  rw [hentry, h, Option.map_some]
  cases hheals : e.heals with
  | nil => simp
  | cons a l => rfl

section
variable (hs : headStore s g b k gr x e) (hw : writeKind (popped s g b k) gr g b x.core e = some v)
include hs hw

theorem exec_storePerform_head (hk : e.kind.arb = 2) :
    exec (.storePerform (.team g b k)) s = .next (performed v g b k gr 2 e) := by
  have hsel : (match e.kind with
      | .bop _ _ => false
      | _ => true) = true := by
    cases hkind : e.kind with
    | bop op w => rw [hkind] at hk; cases hk
    | store => rfl
    | frame cell slot => rfl
  have hperf := performEntry_head hs (sel := fun k => match k with
    | .bop _ _ => false
    | _ => true) hsel (writeEntry_of_writeKind hw)
  rw [hk] at hperf
  exact congrArg (happens s) hperf

theorem exec_bankAluOperation_head {op : BitVec 4} {w : W64} (hk : e.kind = .bop op w) :
    exec (.bankAluOperation (.team g b k)) s = .next (performed v g b k gr 1 e) := by
  have hperf := performEntry_head hs (sel := fun k => match k with
    | .bop _ _ => true
    | _ => false) (by rw [hk]) (writeEntry_of_writeKind hw)
  rw [hk] at hperf
  exact congrArg (happens s) hperf

end

/-- Where its context logs nothing, a store is written; one to a peer also leaves the device. -/
theorem writeStore_reachable (hr : reachable s e.key) (hu : s.undoOn gr.ctx = false) : writeStore s gr g b core e =
    some (let z := countUse (putMem s e.key e.bytes) gr.ctx gr.part core e.va e.tier e.key
      if e.tier = 3 then { z with outbox := z.outbox ++ [.store (e.key - memKey 3 0) e.bytes] } else z) := by
  have hrec : storeRecords s gr g b core e e.bytes = some s := by
    simp only [storeRecords, irreversible, undoWrite, hu, Bool.false_eq_true, if_false, ite_self]
  rw [writeStore, if_neg (Bool.eq_false_iff.mp hr), hrec, Option.map_some]

theorem writeStore_device (hr : reachable s e.key) (hu : s.undoOn gr.ctx = false) (ht : e.tier ≠ 3) : writeStore s gr g b core e =
    some (countUse (putMem s e.key e.bytes) gr.ctx gr.part core e.va e.tier e.key) :=
  (writeStore_reachable hr hu).trans (congrArg some (if_neg ht))

theorem writeStore_peer (hr : reachable s e.key) (hu : s.undoOn gr.ctx = false) (ht : e.tier = 3) : writeStore s gr g b core e =
    some (let z := countUse (putMem s e.key e.bytes) gr.ctx gr.part core e.va e.tier e.key
      { z with outbox := z.outbox ++ [.store (e.key - memKey 3 0) e.bytes] }) :=
  (writeStore_reachable hr hu).trans (congrArg some (if_pos ht))

theorem writeStore_unreachable (hr : ¬reachable s e.key) : writeStore s gr g b core e =
    some (dropPeerStore s gr core e.va) :=
  if_pos (Bool.not_eq_false _ ▸ hr)

theorem writeBop_clean (hclean : ∀ i < e.bytes.length, poisoned s (e.key + i) = false) (hu : s.undoOn gr.ctx = false)
    (op : BitVec 4) (w : W64) : writeBop s gr g core e op w = some (countBank (putMem s e.key (natBytes e.bytes.length
      (newValue op.toNat e.bytes.length (readNat s.mem e.key e.bytes.length) w.toNat))) gr.ctx gr.part core e.va e.tier e.key) := by
  simp only [writeBop, anyPoisoned_false hclean, undoWrite, hu, Bool.false_eq_true, if_false, Option.map_some]

theorem writeBop_poisoned (hbad : ∃ i < e.bytes.length, poisoned s (e.key + i) = true) (op : BitVec 4) (w : W64) :
    writeBop s gr g core e op w = some (
      let home := (homeOf s gr.part e.va e.tier e.key).getD (0, 0)
      s.health (some gr.ctx) 3 (0x1000 + home.1) home.2 0 (BitVec.ofNat 64 (e.va.toNat / 64 * 64))) := by
  simp only [writeBop, anyPoisoned_true hbad, if_true]

end

/-- Settles O31: each event, given that what it needs is there, leaves the state claimed of it. -/
theorem dataEvents : Obligations.DataEvents := by
  unfold Obligations.DataEvents
  intro s t core ctx id g b k e es gr y c cls va x l ls st op w n
  refine ⟨?tile, fun hc => exec_copyStart_starts hc, fun hc => exec_copyStart_writes hc, fun _ => copyStep_of_copyNext,
    fun hc => exec_copyComplete hc, fun hc => exec_copyFail hc, fun hg hl hx => exec_loadDataReturn hg hl hx,
    fun d hs hclean => landPart_scalar hclean hs, fun d hs hclean => landPart_lane hclean hs, ?store, ?peerStore, ?lostStore,
    ?frame, ?bop, ?lostBop⟩
  case tile =>
    intro hcore hctx hq hl hturn hn hp hg hb hclean
    obtain ⟨u, z, hop, hz, hmem, htiles⟩ := tileOp_writes hq hturn hn hp hg hb hclean
    exact ⟨u, z, by rw [exec_tileOperation hq hcore hctx hl, hop, happens], hz, hmem, htiles⟩
  case store =>
    intro hs hk hr htier
    exact exec_storePerform_head hs ((writeKind_store hk).trans (writeStore_device hr (undoOn_popped hs) htier))
      (congrArg StoreKind.arb hk)
  case peerStore =>
    intro hs hk hr htier
    exact exec_storePerform_head hs ((writeKind_store hk).trans (writeStore_peer hr (undoOn_popped hs) htier))
      (congrArg StoreKind.arb hk)
  case lostStore =>
    intro hs hk hr
    exact exec_storePerform_head hs ((writeKind_store hk).trans (writeStore_unreachable hr)) (congrArg StoreKind.arb hk)
  case frame =>
    intro cell slot hs hk hw
    exact exec_storePerform_head hs ((writeKind_frame hk).trans hw) (congrArg StoreKind.arb hk)
  case bop =>
    intro hs hk hclean
    have hw := writeBop_clean (s := popped s g b k) (gr := gr) (g := g) (core := x.core)
      (fun i hi => (poisoned_popped _).trans (hclean i hi)) (undoOn_popped hs) op w
    exact exec_bankAluOperation_head hs ((writeKind_bop hk).trans hw) hk
  case lostBop =>
    intro hs hk hbad
    have hw := writeBop_poisoned (s := popped s g b k) (gr := gr) (g := g) (core := x.core) hbad op w
    rw [homeOf_popped] at hw
    exact exec_bankAluOperation_head hs ((writeKind_bop hk).trans hw) hk

end Sys2Proof.Machine
end

/-! ## O26: COPY and COPYT register their copies -/

section
namespace Sys2Proof.Machine

section
variable {c : Cx}

/-! ### The issue of a copy (R205, R206, R214) -/

/-- A copy that fits is registered. -/
theorem issueCopy_fits {x : Copy} {rel : Bool} (h : copyFits c x.flag x.locks.length rel) (s : State) (hashLast : W64) :
    c.issueCopy s x rel hashLast = .ok (c.register s x hashLast) := by
  obtain ⟨hcount, hfaults, hcopies, hlocks, hrel⟩ := h
  have hdeliver : ¬(15 ≤ (c.tm.flags[x.flag]?.getD ⟨0, []⟩).count + (c.tm.flags[x.flag]?.getD ⟨0, []⟩).faults.length ∧
      (!(c.tm.flags[x.flag]?.getD ⟨0, []⟩).faults.isEmpty) = true) := by
    rintro ⟨hmany, hsome⟩
    rcases hfaults with hfew | hnone
    · exact absurd hmany (Nat.not_le.mpr hfew)
    · rw [hnone] at hsome
      exact Bool.false_ne_true hsome
  have hroom : ¬(15 ≤ (c.tm.flags[x.flag]?.getD ⟨0, []⟩).count ∨ 64 ≤ coreCopies c.pre c.core ∨
      256 < lockCount c.pre + x.locks.length) := by omega
  have hnext : ¬(rel && !c.tm.loads.isEmpty) = true := by
    cases rel with
    | false => simp
    | true => simp [hrel rfl]
  rw [Cx.issueCopy, if_neg hdeliver, if_neg hroom, if_neg hnext]

/-- Ranges of which one ends before the other begins do not meet (R208). -/
theorem rangesMeet_apart {a n b m : Nat} (h : a + n ≤ b ∨ b + m ≤ a) : rangesMeet a n b m = false :=
  decide_eq_false (by omega)

/-! ### COPY (R213) -/

section
variable (dst src : BitVec 5) (len : Operand) (flag : BitVec 4) (x : MemExt)

theorem bodyCopy_empty (h : (c.rdS len).toNat = 0) (s : State) : bodyCopy dst src len flag x c s = .ok s := if_pos h

theorem bodyCopy_misaligned (h0 : 0 < (c.rdS len).toNat) (h32 : (c.rdS len).toNat < 2 ^ 32)
    (hd : (c.rdS (.s dst)).toNat % 4 ≠ 0) (s : State) :
    bodyCopy dst src len flag x c s = .fault c.pre { cls := 0x15, addr := c.rdS (.s dst) } := by
  simp only [bodyCopy, if_neg h0.ne', if_neg (Nat.not_le.mpr h32), if_pos hd]

/-- The lock entries that a COPY of n bytes takes (R206). -/
def copyLocks (c : Cx) (dst src : BitVec 5) (n : Nat) : List (Nat × Nat × Nat × Bool) :=
  lockOf (spaceKey c.gr.part c.gr.space) (c.rdS (.s src)) n false ++
    lockOf (spaceKey c.gr.part c.gr.space) (c.rdS (.s dst)) n true

/-- The checks that a COPY of n bytes passes before its issue: sizes and alignment, both windows, ranges apart. -/
def copyPasses (c : Cx) (dst src : BitVec 5) (n : Nat) : Prop :=
  0 < n ∧ n < 2 ^ 32 ∧ (c.rdS (.s dst)).toNat % 4 = 0 ∧ (c.rdS (.s src)).toNat % 4 = 0 ∧ n % 4 = 0 ∧
    windowFirstBad (c.gr.lrec.scratch * 128) (c.gr.lrec.csm * 64) (c.rdS (.s dst)).toNat n = none ∧
    windowFirstBad (c.gr.lrec.scratch * 128) (c.gr.lrec.csm * 64) (c.rdS (.s src)).toNat n = none ∧
    ((c.rdS (.s dst)).toNat + n ≤ (c.rdS (.s src)).toNat ∨ (c.rdS (.s src)).toNat + n ≤ (c.rdS (.s dst)).toNat)

/-- A COPY that passes its checks is issued. -/
theorem bodyCopy_issues {n : Nat} (hn : (c.rdS len).toNat = n) (h : copyPasses c dst src n) (s : State) :
    bodyCopy dst src len flag x c s = c.issueCopy s
      (c.newCopy (c.rdS (.s dst)) (c.rdS (.s src)) n none flag.toNat x.ms (copyLocks c dst src n))
      (decide (x.order = .release)) (BitVec.ofNat 64 n) := by
  obtain ⟨h0, h32, hd, hs, hsize, hdwin, hswin, hapart⟩ := h
  subst hn
  have hmeet := rangesMeet_apart hapart
  simp only [bodyCopy, if_neg h0.ne', if_neg (Nat.not_le.mpr h32), hd, hs, hsize, hdwin, hswin, hmeet, ne_eq,
    not_true_eq_false, Bool.false_eq_true, if_false]
  rfl

end

/-! ### COPYT (R217, R218) -/

/-- A record at an address of the wrong alignment is not read. -/
theorem record_misaligned {va : W64} (h : va.toNat % 64 ≠ 0) (k : List Byte → State → MRes) (s : State) :
    c.record va k s = .fault c.pre { cls := 0x15, addr := va } := if_pos h

/-- A record that the core has in its cache is taken from there. -/
theorem record_cached {va : W64} {e : RCacheEnt} (h : va.toNat % 64 = 0)
    (hfind : c.pre.rcache.find? (fun e => decide (e.core = c.core ∧ e.grid = c.g ∧ e.va = va)) = some e)
    (k : List Byte → State → MRes) (s : State) : c.record va k s = k e.bytes s := by
  rw [Cx.record, if_neg (not_not_intro h), hfind]

section
variable (dst src rec : BitVec 5) (flag : BitVec 4) (x : MemExt) {bytes : List Byte} {sh : Shape} {bd bs : Int × Int}

/-- The bytes from the lowest to the highest offset that one side of a shape touches. -/
def spanOf (b : Int × Int) : Nat := (b.2 - b.1 + 1).toNat

/-- The lock entries that a COPYT takes whose sides touch the offsets bd and bs (R206, R218). -/
def shapeLocks (c : Cx) (dst src : BitVec 5) (bd bs : Int × Int) : List (Nat × Nat × Nat × Bool) :=
  lockOf (spaceKey c.gr.part c.gr.space) (addOff (c.rdS (.s src)) bs.1) (spanOf bs) false ++
    lockOf (spaceKey c.gr.part c.gr.space) (addOff (c.rdS (.s dst)) bd.1) (spanOf bd) true

/-- The checks that a COPYT of a shape passes before its issue: both sides touch something, aligned to elements, within their
windows, and apart. -/
def shapePasses (c : Cx) (dst src : BitVec 5) (sh : Shape) (bd bs : Int × Int) : Prop :=
  bounding sh.esize (dstDims sh) = some bd ∧ bounding sh.esize (srcDims sh) = some bs ∧
    (c.rdS (.s dst)).toNat % sh.esize = 0 ∧ (c.rdS (.s src)).toNat % sh.esize = 0 ∧
    windowFirstBad (c.gr.lrec.scratch * 128) (c.gr.lrec.csm * 64) (addOff (c.rdS (.s dst)) bd.1).toNat (spanOf bd) = none ∧
    windowFirstBad (c.gr.lrec.scratch * 128) (c.gr.lrec.csm * 64) (addOff (c.rdS (.s src)) bs.1).toNat (spanOf bs) = none ∧
    rangesMeet (addOff (c.rdS (.s dst)) bd.1).toNat (spanOf bd) (addOff (c.rdS (.s src)) bs.1).toNat (spanOf bs) = false

theorem bodyCopyt_misaligned (h : (c.rdS (.s rec)).toNat % 64 ≠ 0) (s : State) :
    bodyCopyt dst src rec flag x c s = .fault c.pre { cls := 0x15, addr := c.rdS (.s rec) } := by
  rw [bodyCopyt, record_misaligned h]

/-- A COPYT whose record is cached and whose shape passes its checks is issued, its record the most recently used. -/
theorem bodyCopyt_issues (halign : (c.rdS (.s rec)).toNat % 64 = 0)
    (hfind : c.pre.rcache.find? (fun e => decide (e.core = c.core ∧ e.grid = c.g ∧ e.va = c.rdS (.s rec))) =
      some ⟨c.core, c.g, c.rdS (.s rec), bytes⟩)
    (hshape : parseShape (bytesNat bytes) = some sh) (h : shapePasses c dst src sh bd bs) (s : State) :
    bodyCopyt dst src rec flag x c s = c.issueCopy (cacheRecord s c.core c.g (c.rdS (.s rec)) bytes)
      (c.newCopy (c.rdS (.s dst)) (c.rdS (.s src)) 0 (some sh) flag.toNat x.ms (shapeLocks c dst src bd bs))
      (decide (x.order = .release)) (c.rdS (.s rec)) := by
  obtain ⟨hbd, hbs, hd, hs, hdwin, hswin, hmeet⟩ := h
  unfold spanOf at hdwin hswin hmeet
  rw [bodyCopyt, record_cached halign hfind]
  simp only [hshape, hbd, hbs, hd, hs, Option.map_some, Option.bind_some, hdwin, hswin, hmeet, ne_eq, not_true_eq_false,
    Bool.false_eq_true, if_false]
  rfl

end

end

/-- Settles O26: a member that passes its checks comes to the issue of its copy, and a copy that fits is registered there. -/
theorem copyMembers : Obligations.CopyMembers := by
  unfold Obligations.CopyMembers
  intro dst src rec len flag x n bytes sh da sa bd bs
  refine ⟨executes_of rfl rfl fun c h => ⟨bodyCopy_empty dst src len flag x h c.pre, rfl⟩,
    executes_of rfl rfl fun c h => ⟨?copy, rfl⟩,
    raises_of rfl rfl fun c ⟨h0, h32, hd⟩ => bodyCopy_misaligned dst src len flag x h0 h32 hd c.pre,
    executes_of rfl rfl fun c h => ⟨?copyt, rfl⟩,
    raises_of rfl rfl fun c h => bodyCopyt_misaligned dst src rec flag x h c.pre⟩
  case copy =>
    obtain ⟨hn, h0, h32, hd, hs, hsize, hdwin, hswin, hapart, hfits⟩ := h
    exact (bodyCopy_issues dst src len flag x hn ⟨h0, h32, hd, hs, hsize, hdwin, hswin, hapart⟩ c.pre).trans
      (issueCopy_fits hfits _ _)
  case copyt =>
    obtain ⟨halign, hfind, hshape, hbd, hbs, rfl, rfl, hd, hs, hdwin, hswin, hmeet, hfits⟩ := h
    exact (bodyCopyt_issues dst src rec flag x halign hfind hshape ⟨hbd, hbs, hd, hs, hdwin, hswin, hmeet⟩ c.pre).trans
      (issueCopy_fits hfits _ _)

end Sys2Proof.Machine
end

/-! ## O25: BOP queues its elements -/

section
namespace Sys2Proof.Machine

/-- The bytes of an element of BOP (R268). -/
def bopBytes (wide : Bool) : Nat := if wide then 8 else 4

/-- The store-queue entries of a BOP of k elements. -/
def bopEnts (c : Cx) (base : BitVec 5) (a : Operand) (wide : Bool) (x : MemExt) (op : BitVec 4) (k : Nat) : List StoreEnt :=
  (List.range k).map fun e =>
    ⟨.bop op (BitVec.ofNat 64 ((c.rdS a).toNat % 2 ^ (8 * bopBytes wide))),
      c.rdS (.s base) + BitVec.ofNat 64 (e * bopBytes wide), 9,
      csmKey c.g ((c.rdS (.s base)).toNat % 2 ^ 52 + e * bopBytes wide), natBytes (bopBytes wide) 0, x.ms,
      [c.rdS (.s base) + BitVec.ofNat 64 (e * bopBytes wide)], mkPc c.pkt c.slot, []⟩

section
variable {c : Cx} {base : BitVec 5} {cnt a : Operand} {wide : Bool} (x : MemExt) (op : BitVec 4)

theorem bodyBop_none (h : (c.rdS cnt).toNat = 0) (s : State) : bodyBop base cnt a wide x op c s = .ok s := if_pos h

theorem bodyBop_tooMany (h : 65536 < (c.rdS cnt).toNat) (s : State) :
    bodyBop base cnt a wide x op c s = .fault c.pre { cls := 0x02 } := by
  have h0 : (c.rdS cnt).toNat ≠ 0 := by omega
  rw [bodyBop, if_neg h0, if_pos h]

theorem bodyBop_outside (h0 : 0 < (c.rdS cnt).toNat) (hmax : (c.rdS cnt).toNat ≤ 65536)
    (halign : (c.rdS (.s base)).toNat % bopBytes wide = 0) (hwin : windowOf (c.rdS (.s base)).toNat ≠ some .csm) (s : State) :
    bodyBop base cnt a wide x op c s = .fault c.pre { cls := 0x18, addr := c.rdS (.s base) } := by
  unfold bopBytes at halign
  rw [bodyBop, if_neg h0.ne', if_neg (Nat.not_lt.mpr hmax), if_neg (not_not_intro halign), if_pos hwin]

/-- The elements of a BOP within the allocation enter the store queue; nothing folds into a hash where nothing is recorded
(R253, R268, R338). -/
theorem bodyBop_queues {k : Nat} (hk : (c.rdS cnt).toNat = k) (h0 : 0 < k) (hmax : k ≤ 65536)
    (halign : (c.rdS (.s base)).toNat % bopBytes wide = 0) (hwin : windowOf (c.rdS (.s base)).toNat = some .csm)
    (hfit : (c.rdS (.s base)).toNat % 2 ^ 52 + bopBytes wide * k ≤ c.gr.lrec.csm * 64) {s : State}
    (hrec : s.recordOn c.ctx = false) : bodyBop base cnt a wide x op c s =
      .ok (c.onTeam s fun t => { t with storeQ := t.storeQ ++ bopEnts c base a wide x op k }) := by
  subst hk
  unfold bopBytes at halign hfit
  rw [bodyBop, if_neg h0.ne', if_neg (Nat.not_lt.mpr hmax), if_neg (not_not_intro halign), if_neg (not_not_intro hwin),
    if_neg (Nat.not_lt.mpr hfit)]
  dsimp only
  rw [List.foldl_fixed' fun e => foldHash_off hrec _ _ _ _ _]
  rfl

end

/-- Settles O25: a BOP of no elements, of too many, outside the CSM window, or within the allocation. -/
theorem bankOperations : Obligations.BankOperations := by
  unfold Obligations.BankOperations
  rintro base cnt a wide x op n k rfl
  exact ⟨executes_of rfl rfl fun c h => ⟨bodyBop_none x op h c.pre, rfl⟩,
    executes_of rfl rfl fun c ⟨hk, h0, hmax, halign, hwin, hfit, hrec⟩ =>
      ⟨bodyBop_queues x op hk h0 hmax halign hwin hfit hrec, rfl⟩,
    raises_of rfl rfl fun c h => bodyBop_tooMany x op h c.pre,
    raises_of rfl rfl fun c ⟨h0, hmax, halign, hwin⟩ => bodyBop_outside x op h0 hmax halign hwin c.pre⟩

end Sys2Proof.Machine
end

/-! ## O19: WAITF, WAITM, SWI and WMARK -/

section
namespace Sys2Proof.Machine

section
variable {c : Cx} {s : State}

/-! ### WAITF (R220) -/

theorem bodyWaitf_idle {mask : BitVec 12}
    (h : ∀ j < 12, mask.getLsbD j = true → (c.tm.flags[j]?.getD ⟨0, []⟩) = ⟨0, []⟩) : bodyWaitf mask c s = .ok s := by
  have hflag : ∀ j ∈ (List.range 12).filter (fun j => mask.getLsbD j), (c.tm.flags[j]?.getD ⟨0, []⟩) = ⟨0, []⟩ := by
    intro j hj
    obtain ⟨hlt, hon⟩ := List.mem_filter.mp hj
    exact h j (List.mem_range.mp hlt) hon
  have hcount : ((List.range 12).filter fun j => mask.getLsbD j).any
      (fun j => decide ((c.tm.flags[j]?.getD ⟨0, []⟩).count ≠ 0)) = false :=
    List.any_eq_false.mpr fun j hj => by simp [hflag j hj]
  have hfault : ((List.range 12).filter fun j => mask.getLsbD j).find?
      (fun j => !(c.tm.flags[j]?.getD ⟨0, []⟩).faults.isEmpty) = none :=
    List.find?_eq_none.mpr fun j hj => by simp [hflag j hj]
  simp only [bodyWaitf, hcount, hfault, Bool.false_eq_true, if_false]

theorem bodyWaitf_waits {mask : BitVec 12} {i : Nat} (hi : i < 12) (hon : mask.getLsbD i = true)
    (hcount : (c.tm.flags[i]?.getD ⟨0, []⟩).count ≠ 0) : bodyWaitf mask c s = .hold c.pre (.flags mask) :=
  if_pos (List.any_eq_true.mpr ⟨i, List.mem_filter.mpr ⟨List.mem_range.mpr hi, hon⟩, decide_eq_true hcount⟩)

/-! ### WAITM (R278, R279) -/

/-- An access that passes its checks goes on to what its member does with it (R235). -/
theorem one_passes {acc : Acc} {align n tier : Nat} {va : W64} {segs : List (Nat × Nat)} {bs : List Bind}
    (h : passesAt c acc align va n segs tier bs) (k : List (Nat × Nat) → Nat → List Bind → MRes) :
    c.one acc align va n k = k segs tier bs := by
  obtain ⟨hroom, hcheck, hmiss⟩ := h
  simp only [Cx.one, hroom, hcheck, hmiss, Bool.not_true, Bool.false_eq_true, if_false, if_true]

section
variable {a : Operand} {base : BitVec 5} (idx : Operand) {sz : Size} (scale : Bool) (x : MemExt) {cond : BitVec 3}
  {segs : List (Nat × Nat)} {tier : Nat} {bs : List Bind}

/-- Whether the word that WAITM reads meets its condition. -/
def waitMet (c : Cx) (a : Operand) (sz : Size) (cond : BitVec 3) (segs : List (Nat × Nat)) : Bool :=
  waitCond cond.toNat sz.bytes (bytesNat (fwdBytes c.pre.mem c.tm.storeQ segs)) ((c.rdS a).toNat % 2 ^ (8 * sz.bytes))

variable (hpass : passesAt c .load sz.bytes (c.rdS (.s base)) sz.bytes segs tier bs)
  (hwait : c.loadWaits [teamAcc (c.rdS (.s base)) segs tier] = false)
  (hbad : c.laneBad (teamAcc (c.rdS (.s base)) segs tier) = false)
include hpass hwait hbad

theorem bodyWaitm_met (hlive : c.live) (hmet : waitMet c a sz cond segs = true) :
    bodyWaitm a base idx sz scale x cond c s =
      .ok (hearSignal (turnAll (c.countUses (bindAll s bs) [teamAcc (c.rdS (.s base)) segs tier]) c.ctx 2
        (granules [teamAcc (c.rdS (.s base)) segs tier] sz.bytes) c.req) c.core (keyAt segs 0)) := by
  unfold waitMet at hmet
  simp only [bodyWaitm, one_passes hpass, hwait, hbad, hmet, gated_go hlive, Bool.false_eq_true, if_false, if_true]

theorem bodyWaitm_sleeps (hmet : waitMet c a sz cond segs = false) :
    bodyWaitm a base idx sz scale x cond c s =
      .hold { bindAll c.pre bs with poked := sdel1 c.pre.poked (tKey c.g c.b c.t) } (.mem (c.rdS (.s base)) sz.bytes
        (BitVec.ofNat 64 ((c.rdS a).toNat % 2 ^ (8 * sz.bytes))) cond (keyAt segs 0 / 64) (c.pre.clk + 4096)) := by
  unfold waitMet at hmet
  simp only [bodyWaitm, one_passes hpass, hwait, hbad, hmet, Bool.false_eq_true, if_false]

end

/-! ### SWI (R285) -/

theorem bodySwi_noVector {a : Operand} {vec : BitVec 11} (h : vecCount c.fn ≤ vec.toNat) :
    bodySwi a vec c s = .fault c.pre { cls := 0x02 } := if_pos h

/-- The mailbox of a vector with one payload more. -/
def mailed (t : State) (fn vec : Nat) (payload : W64) : State :=
  { t with
    mailboxes := mset t.mailboxes (vecKey fn vec) ⟨payload, ((mget t.mailboxes (vecKey fn vec)).getD ⟨0, 0⟩).count + 1⟩ }

theorem bodySwi_raises {a : Operand} {vec : BitVec 11} {t : State} (hvec : vec.toNat < vecCount c.fn) (hd : c.drained = true)
    (ht : irreversible s c.g c.ctx c.engine 5 (BitVec.ofNat 64 vec.toNat) (natBytes 8 (c.rdS a).toNat) = some t) :
    bodySwi a vec c s = .ok ((mailed t c.fn vec.toNat (c.rdS a)).raise c.fn vec.toNat) := by
  simp only [bodySwi, if_neg (Nat.not_le.mpr hvec), hd, ht, Bool.not_true, Bool.false_eq_true, if_false]
  rfl

/-! ### WMARK (R322, R338) -/

section
variable {sc : Scope} {tag : BitVec 16}

theorem bodyWmark_unlogged (h : c.pre.undoOn c.ctx = false) : bodyWmark sc tag c s = .ok s := by
  simp only [bodyWmark, h, Bool.not_false, if_true]

theorem bodyWmark_opens (hlog : c.pre.undoOn c.ctx = true) (hq : sc = .team → c.tm.storeQ = [])
    (hopen : canOpen c.pre c.ctx sc = true) : bodyWmark sc tag c s = .mark s sc tag := by
  have hperformed : (decide (sc = .team) && !c.tm.storeQ.isEmpty) = false := by
    by_cases h : sc = .team
    · rw [hq h]; simp
    · simp [h]
  simp only [bodyWmark, hlog, hperformed, hopen, Bool.not_true, Bool.false_eq_true, if_false, if_true]

/-- A WMARK reads no operand, so its chain captures no view (R174). -/
theorem captureAll_wmark : captureAll c (.wmark sc tag) s = s := captureAll_no_srcs rfl s

theorem accOf_wmark_ok : accOf c (.wmark sc tag) (.ok s) = some (accS s) := by
  simp only [accOf, captureAll_wmark]

theorem accOf_wmark_mark : accOf c (.wmark sc tag) (.mark s sc tag) = some { accS s with mark := some (sc, tag) } := by
  simp only [accOf, captureAll_wmark]

variable {m : Member} {body : Body} {a : ChainAcc}

/-- A WMARK writes no fpc: its chain runs on the state before it. -/
theorem freshFlags_wmark (hm : m.ins = .wmark sc tag) : freshFlags c [(m, body)] s = s := by
  simp only [freshFlags, List.any_cons, List.any_nil, hm, Bool.or_false, Bool.false_eq_true, if_false]

/-- No hash is checked at the WMARK of a level (R338). -/
theorem walkHash_wmark_level (hm : m.ins = .wmark sc tag) (hsc : c.sc ≠ .team) : walkHash c [(m, body)] a = .inr a := by
  simp only [walkHash, List.find?_cons, hm, if_pos hsc]

/-- A team's hash is checked at its WMARK (R338). -/
theorem walkHash_wmark_team {t : State} (hm : m.ins = .wmark sc tag) (hsc : c.sc = .team)
    (hhash : hashCheck a.s c.ctx c.g c.b c.t = .inr t) : walkHash c [(m, body)] a = .inr { a with s := t } := by
  simp only [walkHash, List.find?_cons, hm, if_neg (not_not_intro hsc), hhash]

end

/-- The WMARK of a level whose meaning answers so executes so. -/
theorem executes_wmark_level {sc : Scope} {tag : BitVec 16} {w : Cx → Prop} {r : Cx → MRes}
    (hsc : ∀ c, w c → c.sc ≠ .team) (hb : ∀ c, w c → bodyWmark sc tag c c.pre = r c)
    (ha : ∀ c, w c → (accOf c (.wmark sc tag) (r c)).isSome = true) : ExecutesIf (.wmark sc tag) w r := by
  intro s p c h hw
  obtain ⟨a, ha⟩ := Option.isSome_iff_exists.mp (ha c hw)
  have hfresh := freshFlags_wmark (c := c) (s := c.pre) (m := soleMember s p (.wmark sc tag)) (body := bodyWmark sc tag) rfl
  exact issue1_commits h (by rw [hfresh]; exact hb c hw) ha (.inl hfresh) (fun _ => walkHash_wmark_level rfl (hsc c hw)) nofun

/-- The WMARK of a team whose meaning answers with the state before it, and may open a window, ends with what the hash check
leaves of that state. -/
theorem executes_wmark_team {sc : Scope} {tag : BitVec 16} {t : State} {w : Cx → Prop} {r : State → MRes}
    {mark : Option (Scope × BitVec 16)} (ha : ∀ c s, accOf c (.wmark sc tag) (r s) = some { accS s with mark := mark })
    (hj : ∀ c s, refusedJump c (.wmark sc tag) (r s) = false) (hsc : ∀ c, w c → c.sc = .team)
    (hb : ∀ c, w c → bodyWmark sc tag c c.pre = r c.pre)
    (hhash : ∀ c, w c → hashCheck c.pre c.ctx c.g c.b c.t = .inr t) :
    ExecutesIf (.wmark sc tag) w fun _ => r t := by
  intro s p c h hw
  have hfresh := freshFlags_wmark (c := c) (s := c.pre) (m := soleMember s p (.wmark sc tag)) (body := bodyWmark sc tag) rfl
  have hend := issue1_ends (a' := { accS t with mark := mark }) h (by rw [hfresh]; exact hb c hw) (ha c c.pre) (hj c c.pre)
    (.inl hfresh) (fun _ => walkHash_wmark_team rfl (hsc c hw) (hhash c hw)) (fun hne => absurd rfl hne) rfl nofun
  simp only [finish1, hj, ha, Bool.false_eq_true, if_false]
  exact hend

end

/-- Settles O19: each member's meaning answers what is claimed; the chain of a team's WMARK ends with what its hash check
leaves. -/
theorem waitsAndMarkers : Obligations.WaitsAndMarkers := by
  unfold Obligations.WaitsAndMarkers
  intro mask a base idx sz scale x cond vec sc tag segs tier bs t i
  refine ⟨executes_of rfl rfl fun c h => ⟨bodyWaitf_idle h, rfl⟩,
    waits_of rfl rfl fun c ⟨hi, hon, hcount⟩ => bodyWaitf_waits hi hon hcount,
    executes_live rfl rfl (fun c hlive ⟨hpass, hwait, hbad, hmet⟩ => bodyWaitm_met idx scale x hpass hwait hbad hlive hmet)
      fun _ _ => rfl,
    ?sleeps,
    executes_of rfl rfl fun c ⟨hvec, hd, ht⟩ => ⟨bodySwi_raises hvec hd ht, rfl⟩,
    raises_of rfl rfl fun c h => bodySwi_noVector h,
    executes_wmark_level (fun _ h => h.2) (fun _ h => bodyWmark_unlogged h.1) fun _ _ => rfl,
    executes_wmark_team (fun _ _ => accOf_wmark_ok) (fun _ _ => rfl) (fun _ ⟨_, hsc, _⟩ => hsc)
      (fun _ h => bodyWmark_unlogged h.1) fun _ ⟨_, _, hhash⟩ => hhash,
    executes_wmark_level (fun _ ⟨_, _, hlevel, _⟩ => hlevel)
      (fun _ ⟨hlog, hsc, _, hopen⟩ => bodyWmark_opens hlog (fun h => absurd h hsc) hopen) fun _ _ => rfl,
    executes_wmark_team (fun _ _ => accOf_wmark_mark) (fun _ _ => rfl) (fun _ ⟨_, _, _, hsc, _⟩ => hsc)
      (fun _ ⟨hlog, hq, hopen, _⟩ => bodyWmark_opens hlog (fun _ => hq) hopen) fun _ ⟨_, _, _, _, hhash⟩ => hhash⟩
  case sleeps =>
    intro s p c h hpass hwait hbad hmet
    exact issue1_holds h (by rw [freshFlags_plain rfl]; exact bodyWaitm_sleeps idx scale x hpass hwait hbad hmet)

end Sys2Proof.Machine
end

/-! ## O22: lane stores -/

section
namespace Sys2Proof.Machine

/-! ### Accesses of several lanes (R204, R227, R235) -/

section
variable {c : Cx} {acc : Acc} {align n : Nat} {todo : List (Nat × W64)} {xs : List LaneAcc} {tags : State}

/-- Where every lane passes its checks none is parked, and the checks leave the same tags and misses. -/
theorem parkLanes_of_checkLanes {s : State} (h : c.checkLanes acc align n todo s = (xs, none, tags)) :
    c.parkLanes acc align n todo s = (0, [], [], tags) := by
  induction todo generalizing s xs with
  | nil => cases h; rfl
  | cons e todo ih =>
    rw [Cx.checkLanes] at h
    rw [Cx.parkLanes]
    cases hcheck : c.check s acc align e.2 n <;> simp only [hcheck, Prod.mk.injEq, reduceCtorEq, false_and, and_false] at h
    case ok segs tier bs => exact ih (Prod.ext rfl (Prod.ext h.2.1 h.2.2))

/-- A member whose lanes all pass performs them. -/
theorem lanewise_passes (h : lanesPass c acc align n todo xs tags) (s : State) (perform : List LaneAcc → State → MRes) :
    c.lanewise acc align n todo s perform = perform xs (takeTags s tags) := by
  obtain ⟨hroom, hcheck, hmiss⟩ := h
  simp only [Cx.lanewise, hroom, parkLanes_of_checkLanes hcheck, hcheck, hmiss, Bool.not_true, Bool.false_eq_true, if_false]

end

/-! ### Stores (R239, R242, R243) -/

/-- Where every lane passes, a store queues their bytes in lane order (R239, R253). -/
theorem storeLanes_passes {c : Cx} {sz : Size} {n : Nat} {todo : List (Nat × W64)} {xs : List LaneAcc} {tags : State}
    (h : lanesPass c .store sz.bytes (n * sz.bytes) todo xs tags) (d : Operand) (x : MemExt) :
    c.storeLanes c.pre d sz n x todo =
      .ok (c.enqueue (accessed c tags xs) x.ms (n * sz.bytes) (xs.map fun a => (a, c.laneBytes d sz n a.lane))) := by
  rw [Cx.storeLanes, lanewise_passes h]
  rfl

/-- A member whose meaning is a store of some lanes executes so. -/
theorem executes_storeLanes {i : Instr} {d : Operand} {sz : Size} {n : Nat} {x : MemExt} {todo : Cx → List (Nat × W64)}
    {xs : List LaneAcc} {tags : State} (he : exec i = issue1 i (bodyOf i)) (hp : plainMember i = true)
    (hb : ∀ c, bodyOf i c c.pre = c.storeLanes c.pre d sz n x (todo c)) :
    ExecutesIf i (fun c => lanesPass c .store sz.bytes (n * sz.bytes) (todo c) xs tags)
      (fun c => .ok (c.enqueue (accessed c tags xs) x.ms (n * sz.bytes) (xs.map fun a => (a, c.laneBytes d sz n a.lane)))) :=
  executes_of he hp fun c h => ⟨(hb c).trans (storeLanes_passes h d x), rfl⟩

/-- A member whose selector is the wrong kind of predicate is refused before its data is looked at (R60, R66). -/
theorem ownCheck_predBad {c : Cx} {i : Instr} (h : predBad c.gr.lrec.cmode i = true) : ownCheck c i = some 0x02 := by
  simp only [ownCheck, ownOperandBad, h, Bool.or_true, if_true]

/-- Settles O22: every lane store is `storeLanes` of its lanes, CPST's those with the predicate, at their ranks. -/
theorem laneStores : Obligations.LaneStores := by
  unfold Obligations.LaneStores
  intro d base idx sz scale x n1 n q xs tags
  refine ⟨?stores, executes_storeLanes rfl rfl fun _ => rfl,
    refuses_of rfl fun c _ => ownCheck_predBad rfl⟩
  case stores =>
    simp only [List.forall_mem_cons, List.not_mem_nil, false_implies, implies_true, and_true]
    exact ⟨executes_storeLanes rfl rfl fun _ => rfl, executes_storeLanes rfl rfl fun _ => rfl,
      executes_storeLanes rfl rfl fun _ => rfl⟩

end Sys2Proof.Machine
end

/-! ## O23: LDS, STS and PMOV -/

section
namespace Sys2Proof.Machine

section
variable {c : Cx} {sz : Size} {segs : List (Nat × Nat)} {tier : Nat} {bs : List Bind} {base : BitVec 5}

/-! ### LDS (R241, R300) -/

/-- The state in which a team's one load of n bytes lands: tags bound, its request and its turns recorded. -/
def teamLoaded (c : Cx) (base : BitVec 5) (n : Nat) (segs : List (Nat × Nat)) (tier : Nat) (bs : List Bind) : State :=
  turnAll (c.countUses (c.tick (bindAll c.pre bs) 0x13 1) [teamAcc (c.rdS (.s base)) segs tier]) c.ctx 2
    (granules [teamAcc (c.rdS (.s base)) segs tier] n) c.req

/-- A team's loaded scalar, with no poison in it. -/
def scalarLanded (c : Cx) (r : BitVec 5) (sx : Bool) (sz : Size) (segs : List (Nat × Nat)) (s : State) : State :=
  c.onTeam s fun t => t.setS r.toNat (extend sx sz.bytes (bytesNat (fwdBytes c.pre.mem c.tm.storeQ segs)))

/-- A team's load of a scalar whose data is to return. -/
def scalarAwaited (c : Cx) (r base : BitVec 5) (sx : Bool) (sz : Size) (segs : List (Nat × Nat)) (s : State) : State :=
  c.onTeam s fun t => { t with loads := t.loads ++
    [⟨true, sx, 1, [⟨r.toNat, keyAt segs 0, c.rdS (.s base), sz.bytes⟩], [], mkPc c.pkt c.slot⟩] }

section
variable (hlive : c.live) (hpass : passesAt c .load sz.bytes (c.rdS (.s base)) sz.bytes segs tier bs)
  (hwait : c.loadWaits [teamAcc (c.rdS (.s base)) segs tier] = false)
include hlive hpass hwait

/-- Data of the device's memory is there at once, and so is what an acquire waits for. -/
theorem loadTeam_near (hbad : c.laneBad (teamAcc (c.rdS (.s base)) segs tier) = false) {x : MemExt}
    (hnear : tier < 2 ∨ tier = 9 ∨ x.order = .acquire) (r : BitVec 5) (sx : Bool) :
    c.loadTeam c.pre (.s r) base sz sx x = .ok (scalarLanded c r sx sz segs (teamLoaded c base sz.bytes segs tier bs)) := by
  have hfar : ((teamAcc (c.rdS (.s base)) segs tier).far && decide (x.order ≠ .acquire)) = false := by
    rcases hnear with h | h | h
    · simp [LaneAcc.far, teamAcc, Nat.not_le.mpr h]
    · simp [LaneAcc.far, teamAcc, h]
    · simp [h]
  simp only [Cx.loadTeam, one_passes hpass, hwait, gated_go hlive, hbad, Bool.and_false, hfar, Bool.false_eq_true, if_false]
  rfl

/-- Data of the host or a peer returns later, poisoned or not. -/
theorem loadTeam_far {x : MemExt} (h2 : 2 ≤ tier) (h9 : tier ≠ 9) (hacq : x.order ≠ .acquire) (r : BitVec 5) (sx : Bool) :
    c.loadTeam c.pre (.s r) base sz sx x =
      .ok (scalarAwaited c r base sx sz segs (teamLoaded c base sz.bytes segs tier bs)) := by
  have hfar : (teamAcc (c.rdS (.s base)) segs tier).far = true := decide_eq_true ⟨h2, h9⟩
  simp only [Cx.loadTeam, one_passes hpass, hwait, gated_go hlive, hfar, hacq, decide_false, decide_not, Bool.not_false,
    Bool.false_and, Bool.and_true, Bool.false_eq_true, if_false, if_true]
  rfl

end

/-- A member whose meaning is the one load of its team executes so, near and far. -/
theorem executes_loadTeam {i : Instr} {r : BitVec 5} {sx : Bool} {x : MemExt} (he : exec i = issue1 i (bodyOf i))
    (hp : plainMember i = true) (hb : ∀ c, bodyOf i c c.pre = c.loadTeam c.pre (.s r) base sz sx x) :
    ExecutesIf i (fun c => passesAt c .load sz.bytes (c.rdS (.s base)) sz.bytes segs tier bs ∧
        c.loadWaits [teamAcc (c.rdS (.s base)) segs tier] = false ∧ c.laneBad (teamAcc (c.rdS (.s base)) segs tier) = false ∧
        (tier < 2 ∨ tier = 9 ∨ x.order = .acquire))
      (fun c => .ok (scalarLanded c r sx sz segs (teamLoaded c base sz.bytes segs tier bs))) ∧
    ExecutesIf i (fun c => passesAt c .load sz.bytes (c.rdS (.s base)) sz.bytes segs tier bs ∧
        c.loadWaits [teamAcc (c.rdS (.s base)) segs tier] = false ∧ 2 ≤ tier ∧ tier ≠ 9 ∧ x.order ≠ .acquire)
      (fun c => .ok (scalarAwaited c r base sx sz segs (teamLoaded c base sz.bytes segs tier bs))) :=
  ⟨executes_live he hp (fun c hlive ⟨hpass, hwait, hbad, hnear⟩ =>
      (hb c).trans (loadTeam_near hlive hpass hwait hbad hnear r sx)) fun _ _ => rfl,
    executes_live he hp (fun c hlive ⟨hpass, hwait, h2, h9, hacq⟩ =>
      (hb c).trans (loadTeam_far hlive hpass hwait h2 h9 hacq r sx)) fun _ _ => rfl⟩

/-! ### STS and PMOV (R241, R244) -/

/-- A team's store queues its bytes. -/
theorem storeTeam_passes (hpass : passesAt c .store sz.bytes (c.rdS (.s base)) sz.bytes segs tier bs) (d : Operand)
    (x : MemExt) : c.storeTeam c.pre d base sz x = .ok (c.enqueue (c.tick (bindAll c.pre bs) 0x13 1) x.ms sz.bytes
      [(teamAcc (c.rdS (.s base)) segs tier, natBytes sz.bytes (c.rdS d).toNat)]) := by
  rw [Cx.storeTeam, one_passes hpass]

/-- PMOV to memory queues the predicate's bytes. -/
theorem pmov_stores (hpass : passesAt c .store 4 (c.rdS (.s base)) (c.tm.nlane / 8) segs tier bs) (n : Fin 48) (x : MemExt) :
    c.pmov c.pre true (.p n) base x = .ok (c.enqueue (c.tick (bindAll c.pre bs) 0x13 1) x.ms (c.tm.nlane / 8)
      [(teamAcc (c.rdS (.s base)) segs tier, predBytes c.tm n.val)]) := by
  simp only [Cx.pmov, if_true, one_passes hpass]

/-- PMOV from memory gives each active lane its bit. -/
theorem pmov_loads (hlive : c.live) (hpass : passesAt c .load 4 (c.rdS (.s base)) (c.tm.nlane / 8) segs tier bs)
    (hwait : c.loadWaits [teamAcc (c.rdS (.s base)) segs tier] = false)
    (hbad : c.laneBad (teamAcc (c.rdS (.s base)) segs tier) = false) (n : Fin 48) (x : MemExt) :
    c.pmov c.pre false (.p n) base x = .ok (c.wrP (teamLoaded c base (c.tm.nlane / 8) segs tier bs) n.val
      (c.lanes.map fun l => (l, ((fwdBytes c.pre.mem c.tm.storeQ segs)[l / 8]?.getD 0).getLsbD (l % 8)))) := by
  simp only [Cx.pmov, Bool.false_eq_true, if_false, one_passes hpass, hwait, gated_go hlive, hbad]
  rfl

end

/-- Settles O23: each member is the one load, store or PMOV of its team; PMOV's own check refuses a scope predicate. -/
theorem teamAccesses : Obligations.TeamAccesses := by
  unfold Obligations.TeamAccesses
  intro d r base idx sz scale sx x n segs tier bs
  simp only [List.forall_mem_cons, List.not_mem_nil, false_implies, implies_true, and_true]
  refine ⟨⟨executes_loadTeam rfl rfl fun _ => rfl, executes_loadTeam rfl rfl fun _ => rfl⟩, ?store, ?pmovStore, ?pmovLoad,
    fun dir q => ⟨refuses_of rfl fun c _ => ownCheck_predBad rfl, refuses_of rfl fun c _ => ownCheck_predBad rfl⟩⟩
  case store => constructor <;> exact executes_of rfl rfl fun c hpass => ⟨storeTeam_passes hpass d _, rfl⟩
  case pmovStore => constructor <;> exact executes_of rfl rfl fun c hpass => ⟨pmov_stores hpass n _, rfl⟩
  case pmovLoad =>
    constructor <;> exact executes_live rfl rfl (fun c hlive ⟨hpass, hwait, hbad⟩ => pmov_loads hlive hpass hwait hbad n _)
      fun _ _ => rfl

end Sys2Proof.Machine
end

/-! ## O21: lane loads -/

section
namespace Sys2Proof.Machine

section
variable {c : Cx} {acc : Acc} {align n : Nat} {todo rest : List (Nat × W64)} {xs : List LaneAcc} {s t : State} {l : Nat} {va : W64}

/-! ### A lane that fails (R232, R235, R236) -/

/-- The accesses that pass are those of the lanes, in order. -/
theorem checkLanes_lanes (h : c.checkLanes acc align n todo s = (xs, none, t)) : xs.map (·.lane) = todo.map (·.1) := by
  induction todo generalizing s xs with
  | nil => cases h; rfl
  | cons e todo ih =>
    rw [Cx.checkLanes] at h
    cases hcheck : c.check s acc align e.2 n <;> simp only [hcheck, Prod.mk.injEq, reduceCtorEq, false_and, and_false] at h
    case ok segs tier bs =>
      obtain ⟨rfl, hnone, ht⟩ := h
      exact congrArg (e.1 :: ·) (ih (Prod.ext rfl (Prod.ext hnone ht)))

/-- The first lane that is not aligned ends the checks, the lanes before it having passed; unless its page's fill has failed. -/
theorem checkLanes_misaligned (h : c.checkLanes acc align n todo s = (xs, none, t)) (hal : va.toNat % align ≠ 0)
    (hfill : failedByte c.seq.wait va.toNat n = none) :
    c.checkLanes acc align n (todo ++ (l, va) :: rest) s = (xs, some (l, va, .fault 0x15 0 va none), t) := by
  induction todo generalizing s xs with
  | nil =>
    cases h
    simp only [List.nil_append, Cx.checkLanes, Cx.check, hfill, checkAccess, if_pos hal]
  | cons e todo ih =>
    rw [Cx.checkLanes] at h
    rw [List.cons_append, Cx.checkLanes]
    cases hcheck : c.check s acc align e.2 n <;> simp only [hcheck, Prod.mk.injEq, reduceCtorEq, false_and, and_false] at h
    case ok segs tier bs =>
      obtain ⟨rfl, hnone, ht⟩ := h
      simp only [ih (Prod.ext rfl (Prod.ext hnone ht))]

/-- What a lane that is not aligned raises. -/
def misaligned (todo : List Nat) (l : Nat) (va : W64) : FInfo :=
  { cls := 0x15, addr := va, lane := some l, mask := fromLane todo l }

/-- Where the lanes before the misaligned one pass, they are performed, and it faults (R236). -/
theorem lanewise_misaligned (hpark : noneParked c acc align n (todo ++ (l, va) :: rest))
    (h : c.checkLanes acc align n todo c.pre = (xs, none, t)) (hal : va.toNat % align ≠ 0)
    (hfill : failedByte c.seq.wait va.toNat n = none) (perform : List LaneAcc → State → MRes) :
    c.lanewise acc align n (todo ++ (l, va) :: rest) s perform =
      if xs.isEmpty then .fault t (misaligned ((todo ++ (l, va) :: rest).map (·.1)) l va)
      else match perform xs t with
        | .ok u => .part u (misaligned ((todo ++ (l, va) :: rest).map (·.1)) l va)
        | m => m := by
  obtain ⟨hroom, hnone, hmiss⟩ := hpark
  have hcheck := checkLanes_misaligned (l := l) (rest := rest) h hal hfill
  rw [hcheck] at hmiss
  generalize hparks : c.parkLanes acc align n (todo ++ (l, va) :: rest) c.pre = k at hnone
  obtain ⟨k, ls, ps, side⟩ := k
  obtain rfl : k = 0 := hnone
  simp only [Cx.lanewise, hroom, hparks, hcheck, hmiss, Bool.not_true, Bool.false_eq_true, if_false]
  rfl

end

/-! ### Loads (R237 to R239, R242) -/

section
variable {c : Cx} {d : Operand} {base : BitVec 5} {idx : Operand} {sz : Size} {scale sx : Bool} {x : MemExt} {n : Nat}
  {xs : List LaneAcc} {tags : State}

theorem anyFar_false (h : xs.any (·.far) = false ∨ x.order = .acquire) : LaneAcc.anyFar xs d x = false := by
  rcases h with h | h <;> simp [LaneAcc.anyFar, h]

/-- Data of the device's memory lands lane by lane, and so does what an acquire waits for. -/
theorem landLanes_near (h : xs.any (·.far) = false ∨ x.order = .acquire) (t : State) (k : Nat) (ps : List (Nat × Nat × Nat)) :
    c.landLanes t d sx x k ps xs = xs.foldl (fun s y => c.landLane s d sx ps y) t := by
  simp only [Cx.landLanes, anyFar_false h, Bool.false_eq_true, if_false]

/-- Where a lane's data comes from afar, all of the load is outstanding until it returns (R300). -/
theorem landLanes_far {r : BitVec 7} (hfar : xs.any (·.far) = true) (hacq : x.order ≠ .acquire) (t : State) (k : Nat)
    (ps : List (Nat × Nat × Nat)) : c.landLanes t (.v r) sx x k ps xs = c.onTeam t fun y => { y with
      loads := y.loads ++ [⟨false, sx, xs.length, xs.flatMap fun a =>
        ps.map fun p => ⟨vKey (r.toNat + p.1) a.lane, keyAt a.segs p.2.1, a.va, p.2.2⟩, granules xs k, mkPc c.pkt c.slot⟩] } := by
  have h : LaneAcc.anyFar xs (.v r) x = true := by simp [LaneAcc.anyFar, hacq, hfar, opIsV]
  simp only [Cx.landLanes, h, if_true]
  rfl

/-- No acquire finds poison where its accesses have none (R237). -/
theorem acquire_clean (hbad : x.order = .acquire → ∀ y ∈ xs, c.laneBad y = false) :
    (if x.order = .acquire then xs.find? c.laneBad else none) = none := by
  split_ifs with h
  · exact List.find?_eq_none.mpr fun y hy => by rw [hbad h y hy]; exact Bool.false_ne_true
  · rfl

/-- A load whose lanes all pass lands, tagging what is poisoned unless it is an acquire. -/
theorem loadLanes_lands (hlive : c.live) (h : lanesPass c .load sz.bytes (n * sz.bytes) (c.laneList base idx sz scale) xs tags)
    (hwait : c.loadWaits xs = false) (hbad : x.order = .acquire → ∀ y ∈ xs, c.laneBad y = false) :
    c.loadLanes c.pre d base idx sz scale n sx x = .ok (c.landLanes (loaded c tags xs d x (n * sz.bytes)) d sx x (n * sz.bytes)
      (regPieces sz n) xs) := by
  simp only [Cx.loadLanes, lanewise_passes h, hwait, gated_go hlive, acquire_clean hbad, Bool.false_eq_true, if_false]
  rfl

/-- A load waits for what overlaps its lanes (R253). -/
theorem loadLanes_waits (h : lanesPass c .load sz.bytes (n * sz.bytes) (c.laneList base idx sz scale) xs tags)
    (hwait : c.loadWaits xs = true) : c.loadLanes c.pre d base idx sz scale n sx x = .hold c.pre (.notReady 13) := by
  simp only [Cx.loadLanes, lanewise_passes h, hwait, if_true]

variable {us ls : List Nat} {l : Nat} {t : State}

/-- A load whose first failing lane is not aligned: the lanes before it land, and it faults. -/
theorem loadLanes_misaligned (hlive : c.live) (htodo : c.todo = us ++ l :: ls)
    (hpark : noneParked c .load sz.bytes (n * sz.bytes) (c.laneList base idx sz scale))
    (h : c.checkLanes .load sz.bytes (n * sz.bytes) (us.map fun u => (u, c.laneAddr base idx sz scale u)) c.pre = (xs, none, t))
    (hal : (c.laneAddr base idx sz scale l).toNat % sz.bytes ≠ 0)
    (hfill : failedByte c.seq.wait (c.laneAddr base idx sz scale l).toNat (n * sz.bytes) = none) (hwait : c.loadWaits xs = false)
    (hbad : x.order = .acquire → ∀ y ∈ xs, c.laneBad y = false) :
    c.loadLanes c.pre d base idx sz scale n sx x =
      if us = [] then .fault c.pre (misaligned c.todo l (c.laneAddr base idx sz scale l))
      else .part (c.landLanes (loadedOn c t xs d x (n * sz.bytes)) d sx x (n * sz.bytes) (regPieces sz n) xs)
        (misaligned c.todo l (c.laneAddr base idx sz scale l)) := by
  have hlist : c.laneList base idx sz scale = (us.map fun u => (u, c.laneAddr base idx sz scale u)) ++
      (l, c.laneAddr base idx sz scale l) :: ls.map fun u => (u, c.laneAddr base idx sz scale u) := by
    simp [Cx.laneList, htodo]
  have hlanes : (c.laneList base idx sz scale).map (·.1) = c.todo := by simp [Cx.laneList, Function.comp_def]
  have hempty : xs.isEmpty = true ↔ us = [] := by
    have hlen : xs.length = us.length := by simpa using congrArg List.length (checkLanes_lanes h)
    rw [List.isEmpty_iff, ← List.length_eq_zero_iff, hlen, List.length_eq_zero_iff]
  simp only [Cx.loadLanes, hlist, lanewise_misaligned (hlist ▸ hpark) h hal hfill, hwait, gated_go hlive, acquire_clean hbad,
    Bool.false_eq_true, if_false, hempty]
  rw [← hlist, hlanes]
  split_ifs with hus
  · subst hus
    cases h
    rfl
  · rfl

/-! ### Members -/

/-- A member whose meaning is a lane load. -/
def laneLoad (i : Instr) (d : Operand) (base : BitVec 5) (idx : Operand) (sz : Size) (scale : Bool) (n : Nat) (sx : Bool)
    (x : MemExt) : Prop :=
  exec i = issue1 i (bodyOf i) ∧ plainMember i = true ∧ ∀ c, bodyOf i c c.pre = c.loadLanes c.pre d base idx sz scale n sx x

section
variable {i : Instr} (hi : laneLoad i d base idx sz scale n sx x)
include hi

theorem executes_laneLoad : ExecutesIf i
    (fun c => lanesPass c .load sz.bytes (n * sz.bytes) (c.laneList base idx sz scale) xs tags ∧
      c.loadWaits xs = false ∧ (x.order = .acquire → ∀ y ∈ xs, c.laneBad y = false))
    (fun c => .ok (c.landLanes (loaded c tags xs d x (n * sz.bytes)) d sx x (n * sz.bytes) (regPieces sz n) xs)) := by
  obtain ⟨he, hp, hb⟩ := hi
  exact executes_live he hp (fun c hlive ⟨hpass, hwait, hbad⟩ => (hb c).trans (loadLanes_lands hlive hpass hwait hbad))
    fun _ _ => rfl

theorem waits_laneLoad : WaitsIf i (fun c => lanesPass c .load sz.bytes (n * sz.bytes) (c.laneList base idx sz scale) xs tags ∧
    c.loadWaits xs = true) (fun _ => .notReady 13) := by
  obtain ⟨he, hp, hb⟩ := hi
  exact waits_of he hp fun c ⟨hpass, hwait⟩ => (hb c).trans (loadLanes_waits hpass hwait)

theorem exec_laneLoad_misaligned {s : State} {p : Party} (h : ready s p i = some c)
    (hpark : noneParked c .load sz.bytes (n * sz.bytes) (c.laneList base idx sz scale)) (htodo : c.todo = us ++ l :: ls)
    (hcheck : c.checkLanes .load sz.bytes (n * sz.bytes) (us.map fun u => (u, c.laneAddr base idx sz scale u)) c.pre = (xs, none, t))
    (hal : (c.laneAddr base idx sz scale l).toNat % sz.bytes ≠ 0)
    (hfill : failedByte c.seq.wait (c.laneAddr base idx sz scale l).toNat (n * sz.bytes) = none) (hwait : c.loadWaits xs = false)
    (hbad : x.order = .acquire → ∀ y ∈ xs, c.laneBad y = false) :
    exec i s = .next (takeFault (if us = [] then c.pre else
        c.landLanes (loadedOn c t xs d x (n * sz.bytes)) d sx x (n * sz.bytes) (regPieces sz n) xs) c.p
      (memberScope c.sc i { misaligned c.todo l (c.laneAddr base idx sz scale l) with slot := c.slot })) := by
  obtain ⟨he, hp, hb⟩ := hi
  have hmeans := (hb c).trans (loadLanes_misaligned (d := d) (sx := sx) (ready_live h) htodo hpark hcheck hal hfill hwait hbad)
  rw [he]
  split_ifs at hmeans ⊢ with hus
  · exact issue1_faults h (by rw [freshFlags_plain hp]; exact hmeans)
  · exact issue1_part h hp hmeans

end
end

/-! ### What a lane's registers take (R237, R239, R242) -/

section
variable {c : Cx}

/-- m elements of w bytes, each to a register of its own. -/
def pieces (m w : Nat) : List (Nat × Nat × Nat) := (List.range m).map fun i => (i, w * i, w)

theorem regPieces_narrow {sz : Size} (h : sz ≠ .d) (n : Nat) : regPieces sz n = pieces n sz.bytes := by
  cases sz with
  | d => exact absurd rfl h
  | _ => rfl

/-- The value that a register takes of an element: its offset and its bytes. -/
def Cx.pieceValue (c : Cx) (sx : Bool) (y : LaneAcc) (off w : Nat) : W32 :=
  (extend sx w (bytesNat ((List.range w).map fun k => fwdByte c.pre.mem c.tm.storeQ (keyAt y.segs off + k)))).setWidth 32

/-- A team with one element of a lane landed, tagged where it is poisoned. -/
def Cx.landPiece (c : Cx) (r : Nat) (sx : Bool) (y : LaneAcc) (t : Team) (p : Nat × Nat × Nat) : Team :=
  let u := t.setV (r + p.1) y.lane (c.pieceValue sx y p.2.1 p.2.2)
  if c.keysBad (keyAt y.segs p.2.1) p.2.2 then { u with vtag := mset u.vtag (vKey (r + p.1) y.lane) y.va } else u

theorem landPiece_other (r : Nat) (sx : Bool) (y : LaneAcc) (t : Team) (p : Nat × Nat × Nat) {k : Nat}
    (h : k ≠ vKey (r + p.1) y.lane) :
    zget (c.landPiece r sx y t p).v k = zget t.v k ∧ mget (c.landPiece r sx y t p).vtag k = mget t.vtag k := by
  unfold Cx.landPiece
  dsimp only
  split
  · exact ⟨zget_zset_ne _ _ h, (mget_mset_ne _ _ h).trans (mget_mdel_ne _ h)⟩
  · exact ⟨zget_zset_ne _ _ h, mget_mdel_ne _ h⟩

theorem landPiece_value (r : Nat) (sx : Bool) (y : LaneAcc) (t : Team) (p : Nat × Nat × Nat) :
    zget (c.landPiece r sx y t p).v (vKey (r + p.1) y.lane) = c.pieceValue sx y p.2.1 p.2.2 := by
  unfold Cx.landPiece
  dsimp only
  split <;> exact zget_zset_self _ _ _

theorem landPiece_tag (r : Nat) (sx : Bool) (y : LaneAcc) (t : Team) (p : Nat × Nat × Nat)
    (h : c.keysBad (keyAt y.segs p.2.1) p.2.2 = true) :
    mget (c.landPiece r sx y t p).vtag (vKey (r + p.1) y.lane) = some y.va := by
  simp only [Cx.landPiece, h, if_true, mget_mset_self]

theorem reg_of_vKey_eq {r r' l : Nat} (h : vKey r l = vKey r' l) : r = r' := by
  unfold vKey at h
  omega

variable (r : Nat) (sx : Bool) (y : LaneAcc)

theorem landPieces_other (ps : List (Nat × Nat × Nat)) (t : Team) {k : Nat} (h : ∀ p ∈ ps, k ≠ vKey (r + p.1) y.lane) :
    zget (ps.foldl (c.landPiece r sx y) t).v k = zget t.v k ∧ mget (ps.foldl (c.landPiece r sx y) t).vtag k = mget t.vtag k := by
  induction ps generalizing t with
  | nil => exact ⟨rfl, rfl⟩
  | cons p ps ih =>
    obtain ⟨hp, hps⟩ := List.forall_mem_cons.mp h
    obtain ⟨hv, htag⟩ := landPiece_other (c := c) r sx y t p hp
    obtain ⟨hv', htag'⟩ := ih (c.landPiece r sx y t p) hps
    exact ⟨hv'.trans hv, htag'.trans htag⟩

/-- Of elements for different registers each lands in its own. -/
theorem landPieces_each (ps : List (Nat × Nat × Nat)) (hd : (ps.map (·.1)).Nodup) (t : Team) : ∀ p ∈ ps,
    zget (ps.foldl (c.landPiece r sx y) t).v (vKey (r + p.1) y.lane) = c.pieceValue sx y p.2.1 p.2.2 ∧
    (c.keysBad (keyAt y.segs p.2.1) p.2.2 = true →
      mget (ps.foldl (c.landPiece r sx y) t).vtag (vKey (r + p.1) y.lane) = some y.va) := by
  induction ps generalizing t with
  | nil => exact nofun
  | cons q ps ih =>
    rw [List.map_cons, List.nodup_cons] at hd
    obtain ⟨hq, hd⟩ := hd
    refine List.forall_mem_cons.mpr ⟨?_, ih hd _⟩
    obtain ⟨hv, htag⟩ := landPieces_other (c := c) r sx y ps (c.landPiece r sx y t q) (k := vKey (r + q.1) y.lane)
      fun p hp heq => hq (List.mem_map.mpr ⟨p, hp, by have := reg_of_vKey_eq heq; omega⟩)
    exact ⟨hv.trans (landPiece_value r sx y t q), fun hbad => htag.trans (landPiece_tag r sx y t q hbad)⟩

/-- A lane's landing is that of its elements on its team. -/
theorem team_landLane {t : State} {tm : Team} (ht : t.team c.g c.b c.t = some tm) (r : BitVec 7) (ps : List (Nat × Nat × Nat)) :
    (c.landLane t (.v r) sx ps y).team c.g c.b c.t = some (ps.foldl (c.landPiece r.toNat sx y) tm) := by
  show (ps.foldl (fun s p => c.onTeam s fun u => c.landPiece r.toNat sx y u p) t).team c.g c.b c.t = _
  induction ps generalizing t tm with
  | nil => exact ht
  | cons p ps ih => exact ih ((State.team_modTeam t c.g c.b c.t _).trans (by rw [ht]; rfl))

/-- A lane of m elements of w bytes: its registers' values and tags, and what it leaves alone. -/
theorem landLane_pieces {t : State} (ht : t.team c.g c.b c.t = some c.tm) (r : BitVec 7) (m w : Nat) :
    ∃ z, (c.landLane t (.v r) sx (pieces m w) y).team c.g c.b c.t = some z ∧
      (∀ i < m, zget z.v (vKey (r.toNat + i) y.lane) = c.pieceValue sx y (w * i) w) ∧
      (∀ i < m, c.keysBad (keyAt y.segs (w * i)) w = true → mget z.vtag (vKey (r.toNat + i) y.lane) = some y.va) ∧
      ∀ k, (∀ i < m, k ≠ vKey (r.toNat + i) y.lane) → zget z.v k = zget c.tm.v k ∧ mget z.vtag k = mget c.tm.vtag k := by
  have hregs : ((pieces m w).map (·.1)).Nodup := by simp [pieces, Function.comp_def, List.nodup_range]
  have hmem (i : Nat) (hi : i < m) : (i, w * i, w) ∈ pieces m w := List.mem_map.mpr ⟨i, List.mem_range.mpr hi, rfl⟩
  have heach := landPieces_each (c := c) r.toNat sx y (pieces m w) hregs c.tm
  refine ⟨_, team_landLane sx y ht r (pieces m w), fun i hi => (heach _ (hmem i hi)).1, fun i hi => (heach _ (hmem i hi)).2,
    fun k hk => landPieces_other r.toNat sx y (pieces m w) c.tm fun p hp => ?_⟩
  obtain ⟨i, hi, rfl⟩ := List.mem_map.mp hp
  exact hk i (List.mem_range.mp hi)

end

/-! ### Extension (R239) -/

/-- The low half of what 4 bytes extend to is the word, whatever the extension. -/
theorem extend_word (sx : Bool) (x : Nat) : (extend sx 4 x).setWidth 32 = BitVec.ofNat 32 x := by
  unfold extend
  split <;> bv_omega

/-- Elements of fewer than 8 bytes: zero-extended one reads as its number, sign-extended as its signed number. -/
theorem extend_narrow {k w : Nat} (hk : k ∈ [1, 2, 4]) (hw : w < 2 ^ (8 * k)) :
    ((extend false k w).setWidth 32).toNat = w ∧
      ((extend true k w).setWidth 32 : W32) = BitVec.ofInt 32 (if w < 2 ^ (8 * k - 1) then (w : Int) else w - 2 ^ (8 * k)) := by
  have hk : k = 1 ∨ k = 2 ∨ k = 4 := by simpa using hk
  refine ⟨?_, BitVec.eq_of_toNat_eq ?_⟩
  · rw [extend, Bool.false_and, if_neg Bool.false_ne_true, BitVec.toNat_setWidth, BitVec.toNat_ofNat]
    rcases hk with rfl | rfl | rfl <;> omega
  · rcases lt_or_ge w (2 ^ (8 * k - 1)) with h | h
    · rw [extend, Bool.true_and, decide_eq_false (Nat.not_le.mpr h), if_neg Bool.false_ne_true, if_pos h,
        BitVec.toNat_setWidth, BitVec.toNat_ofNat, BitVec.toNat_ofInt]
      rcases hk with rfl | rfl | rfl <;> omega
    · rw [extend, Bool.true_and, decide_eq_true h, if_pos rfl, if_neg (Nat.not_lt.mpr h),
        BitVec.toNat_setWidth, BitVec.toNat_sub, BitVec.toNat_ofNat, BitVec.toNat_ofNat, BitVec.toNat_ofInt]
      rcases hk with rfl | rfl | rfl <;> omega

/-- Settles O21: the members are the lane loads of their shapes; what a lane's registers take is said of the elements' landing. -/
theorem laneLoads : Obligations.LaneLoads := by
  unfold Obligations.LaneLoads
  intro d base idx sz scale sx x n1 xs tags l us ls
  refine ⟨?members, ?narrow, ?double, fun k hk w hw => extend_narrow hk hw⟩
  case members =>
    have hload : ∀ e ∈ [(Instr.ld d base idx sz scale, 1, false, MemExt.plain), (.ldExt d base idx sz scale x sx, 1, sx, x),
        (.ldstr d base idx sz scale x n1, n1.toNat + 1, false, x)],
        laneLoad e.1 d base idx sz scale e.2.1 e.2.2.1 e.2.2.2 := by
      simp only [List.forall_mem_cons, List.not_mem_nil, false_implies, implies_true, and_true]
      exact ⟨⟨rfl, rfl, fun _ => rfl⟩, ⟨rfl, rfl, fun _ => rfl⟩, rfl, rfl, fun _ => rfl⟩
    intro e he
    have hi := hload e he
    refine ⟨executes_laneLoad hi, fun c t k h => landLanes_near h t k _, ?far, waits_laneLoad hi, ?misaligned⟩
    case far =>
      rintro c t k r rfl hfar hacq
      exact landLanes_far hfar hacq t k _
    case misaligned =>
      intro s p c t h hpark htodo hcheck hal hfill hwait hbad
      exact exec_laneLoad_misaligned hi h hpark htodo hcheck hal hfill hwait hbad
  case narrow =>
    intro c t r y n ht hsz _
    rw [regPieces_narrow hsz]
    exact landLane_pieces sx y ht r n sz.bytes
  case double =>
    intro c t r y n ht _
    obtain ⟨z, hz, hval, -, hrest⟩ := landLane_pieces sx y ht r (2 * n) 4
    exact ⟨z, hz, fun i hi => (hval i hi).trans (extend_word sx _), hrest⟩

end Sys2Proof.Machine
end

/-! ## O32: translations, fills, migrations, samples and coalescing timers -/

section
namespace Sys2Proof.Machine

/-! ### The end of a miss (R228) -/

section
variable {s : State} {engine g : Nat} {va : W64} {ms : Miss}

theorem engine_of_missUnder (h : missUnder s engine g va ms) : ms.engine = engine := by
  have := List.find?_some h
  simp only [decide_eq_true_eq] at this
  exact this.1

/-- A miss under way ends where its page is not being moved. -/
theorem exec_tlbMissComplete (h : missUnder s engine g va ms) (hmove : pageMoving s ms.part ms.space va.toNat = false) :
    exec (.tlbMissComplete engine g va) s = .next (endMiss s ms) := by
  show execTlbMissComplete engine g va s = _
  unfold missUnder at h
  simp only [execTlbMissComplete, h, Option.bind_some, hmove, Bool.false_eq_true, if_false]
  rfl

theorem dieTlb_core (h : ms.engine < 96) : dieTlb ms.engine = 96 + ms.engine / 24 := if_pos h

theorem dieTlb_die (h : 96 ≤ ms.engine) : dieTlb ms.engine = ms.engine := if_neg (Nat.not_lt.mpr h)

/-- A leaf enters its engine's TLB. -/
theorem tlbFill_eq (s : State) (t : TlbEnt) : tlbFill s t = { s with tlb := tlbWith s t.engine t } := rfl

/-- The state with a miss under way no more. -/
def missEnded (s : State) (ms : Miss) : State := { s with misses := s.misses.filter fun z => decide (z ≠ ms) }

/-- The leaf that a walk finds for a miss, as its die's TLB holds it. -/
def walkedLeaf (ms : Miss) (e : W64) (size : Nat) : TlbEnt :=
  ⟨dieTlb ms.engine, ms.part, ms.space, ms.page * 65536 / size * size, size, e⟩

theorem missLeaf_hit {hit : TlbEnt} (h : tlbIn s (dieTlb ms.engine) ms.part ms.space (ms.page * 65536) = some hit) :
    missLeaf s ms = some (hit, s) := by
  simp only [missLeaf, h]

theorem missLeaf_walk {p : Part} {e : W64} {size : Nat}
    (h : tlbIn s (dieTlb ms.engine) ms.part ms.space (ms.page * 65536) = none) (hp : mget s.parts ms.part = some p)
    (hw : walkPage s.mem p.record ms.space (ms.page * 65536) = .leaf e size) :
    missLeaf s ms = some (walkedLeaf ms e size, tlbFill s (walkedLeaf ms e size)) := by
  simp only [missLeaf, h, hp, Option.bind_some, hw]
  rfl

/-- The leaf of a core's miss enters the core's TLB; a walk's has entered its die's. -/
theorem endMiss_core {t : TlbEnt} {u : State} (h : missLeaf (missEnded s ms) ms = some (t, u)) (hcore : ms.engine < 96) :
    endMiss s ms = tlbFill u { t with engine := ms.engine } := by
  unfold missEnded at h
  simp only [endMiss, h, if_pos hcore]

/-- The miss of a die's TLB has its leaf there already. -/
theorem endMiss_die {t : TlbEnt} {u : State} (h : missLeaf (missEnded s ms) ms = some (t, u)) (hdie : 96 ≤ ms.engine) :
    endMiss s ms = u := by
  unfold missEnded at h
  simp only [endMiss, h, if_neg (Nat.not_lt.mpr hdie)]

end

/-! ### The end of a fill (R231, R232) -/

section
variable {s : State} {id k size : Nat} {f : Fill} {p : Part} {e : W64}

/-- Whether the page of a fill is present. -/
def pagePresent (s : State) (f : Fill) : Bool :=
  match (mget s.parts f.part).map fun p => walkPage s.mem p.record f.space f.base with
  | some (.leaf _ _) => true
  | _ => false

/-- The leaf that the end of a fill sets V of. -/
def leafOfFill (s : State) (f : Fill) : Option Nat :=
  (mget s.parts f.part).bind fun p => match walkPage s.mem p.record f.space f.base with
    | .regen _ _ => leafKey s.mem p.record f.space f.base
    | _ => none

/-- The state with a fill under way no more, and V set where its filler has succeeded. -/
def fillEnded (s : State) (id : Nat) (f : Fill) (good : Bool) : State :=
  match leafOfFill s f with
  | some k => if good then { s with fills := mdel s.fills id, mem := putByte s.mem k (byteAt s.mem k ||| 1) }
    else { s with fills := mdel s.fills id }
  | none => { s with fills := mdel s.fills id }

/-- The filler is a grid of the front end's own. -/
def bareFiller (s : State) (f : Fill) : Bool :=
  match s.grid f.grid with
  | some x => decide (x.queue = 1024)
  | none => false

/-- What waits for a fill goes on, or learns that it has failed; nobody disposes of a filler of the front end's own. -/
def fillSettled (s : State) (f : Fill) (failed : Bool) : State :=
  let t := if failed && f.front then { s with failedFills := s.failedFills ++ [(f.part, f.space, f.base)] } else s
  wakePage (if failed && bareFiller t f then abortTree t f.grid else t) f.part f.space f.base f.size failed

/-- A fill that has ended is settled in the state that its end leaves; it has failed unless its page is present (R232). -/
theorem exec_regenFillComplete {good : Bool} (hf : mget s.fills id = some f) (hend : f.ended = some good) :
    exec (.regenFillComplete id) s =
      .next (fillSettled (fillEnded s id f good) f (!(good && pagePresent (fillEnded s id f good) f))) := by
  show execRegenFillComplete id s = _
  unfold execRegenFillComplete
  rw [hf, Option.bind_some, hend, Option.map_some]
  rfl

theorem fillEnded_bad (s : State) (id : Nat) (f : Fill) : fillEnded s id f false = { s with fills := mdel s.fills id } := by
  unfold fillEnded
  split <;> rfl

theorem fillEnded_regen (hp : mget s.parts f.part = some p) (hw : walkPage s.mem p.record f.space f.base = .regen e size)
    (hk : leafKey s.mem p.record f.space f.base = some k) : fillEnded s id f true =
      { s with fills := mdel s.fills id, mem := putByte s.mem k (byteAt s.mem k ||| 1) } := by
  have hleaf : leafOfFill s f = some k := by simp only [leafOfFill, hp, Option.bind_some, hw, hk]
  simp only [fillEnded, hleaf, if_true]

theorem fillEnded_noLeaf (hp : mget s.parts f.part = some p)
    (hw : walkPage s.mem p.record f.space f.base = .absent ∨ walkPage s.mem p.record f.space f.base = .malformed) :
    fillEnded s id f true = { s with fills := mdel s.fills id } := by
  have hleaf : leafOfFill s f = none := by
    rcases hw with hw | hw <;> simp only [leafOfFill, hp, Option.bind_some, hw]
  simp only [fillEnded, hleaf]

theorem pagePresent_leaf {z : Nat} (hp : mget s.parts f.part = some p)
    (hw : walkPage s.mem p.record f.space f.base = .leaf e z) : pagePresent s f = true := by
  simp only [pagePresent, hp, Option.map_some, hw]

theorem pagePresent_noLeaf (hp : mget s.parts f.part = some p)
    (hw : walkPage s.mem p.record f.space f.base = .absent ∨ walkPage s.mem p.record f.space f.base = .malformed) :
    pagePresent s f = false := by
  rcases hw with hw | hw <;> simp only [pagePresent, hp, Option.map_some, hw]

/-- A failed fill is kept for its launch where it is the front end's; the filler, of a queue's grid, stands. -/
theorem fillSettled_failed (hown : ∀ y, s.grid f.grid = some y → y.queue ≠ 1024) : fillSettled s f true = wakePage { s with
    failedFills := if f.front then s.failedFills ++ [(f.part, f.space, f.base)] else s.failedFills }
    f.part f.space f.base f.size true := by
  have hbare (t : State) (ht : t.grid f.grid = s.grid f.grid) : bareFiller t f = false := by
    rw [bareFiller, ht]
    cases hg : s.grid f.grid with
    | none => rfl
    | some y => exact decide_eq_false (hown y hg)
  unfold fillSettled
  cases f.front
  · simp only [Bool.and_false, Bool.false_eq_true, if_false, hbare s rfl]
  · have hkept := hbare { s with failedFills := s.failedFills ++ [(f.part, f.space, f.base)] } rfl
    simp only [Bool.and_self, if_true, Bool.true_and, hkept, Bool.false_eq_true, if_false]

end

/-! ### One step of a migration (R233, R234) -/

section
variable {s : State} {id size base : Nat} {m : Migr} {p : Part} {e : W64}

/-- The next page of a migration is one that it cannot read: it ends there, with the class. -/
def migrAborted (s : State) (id : Nat) (m : Migr) (size cls : Nat) : State :=
  endMigr s id m (BitVec.ofNat 64 (m.next / size * size + cls))

/-- The next page of a migration is marked, its frames allocated. -/
def migrMarked (s : State) (id : Nat) (m : Migr) (size : Nat) (a : Nat × State) : State :=
  { a.2 with
    migrs := mset s.migrs id { m with marked := some (m.next / size * size, size), dest := a.1 }
    tlb := s.tlb.filter fun t => !decide (t.part = m.part ∧ t.space = m.space ∧ t.base = m.next / size * size) }

section
variable (hm : mget s.migrs id = some m) (hp : mget s.parts m.part = some p)
include hm hp

section
variable (hmark : m.marked = none)
include hmark

theorem exec_migrationPage_marks {a : Nat × State} (hw : walkPage s.mem p.record m.space m.next = .leaf e size)
    (huse : ∃ t pa key, useLeaf s p.record m.next e size (permitted e .load) = .ok t pa key)
    (ha : allocFrames s p m.tier size = some a) : exec (.migrationPage id) s = .next (migrMarked s id m size a) := by
  obtain ⟨t, pa, key, huse⟩ := huse
  show execMigrationPage id s = _
  simp only [execMigrationPage, hm, hp, hmark, hw, huse, ha, Option.bind_some, Option.map_some, happens]
  rfl

theorem exec_migrationPage_refused (hw : walkPage s.mem p.record m.space m.next = .leaf e size) {cls cause : Nat} {al : Option Bind}
    (huse : useLeaf s p.record m.next e size (permitted e .load) = .fault cls cause al) :
    exec (.migrationPage id) s = .next (migrAborted (noteAlias s al) id m size cls) := by
  show execMigrationPage id s = _
  simp only [execMigrationPage, hm, hp, hmark, hw, huse, Option.bind_some, happens, migrAborted]

theorem exec_migrationPage_absent (hw : walkPage s.mem p.record m.space m.next = .absent) :
    exec (.migrationPage id) s = .next (migrAborted s id m 65536 0x10) := by
  show execMigrationPage id s = _
  simp only [execMigrationPage, hm, hp, hmark, hw, Option.bind_some, happens, migrAborted]

theorem exec_migrationPage_regen (hw : walkPage s.mem p.record m.space m.next = .regen e size) :
    exec (.migrationPage id) s = .next (migrAborted s id m size 0x10) := by
  show execMigrationPage id s = _
  simp only [execMigrationPage, hm, hp, hmark, hw, Option.bind_some, happens, migrAborted]

end

/-- The page under way has moved, with no poison in it, its leaf written and what waits for it woken. -/
def migrMoved (s : State) (id : Nat) (m : Migr) (base size src dst k : Nat) (e : W64) : State :=
  let z := reaimAll (moveFrames { s with seed := s.seed + 1 } src dst size) src dst size m.tier
  wakePage { z with
    mem := writeNat z.mem k 8 (moveLeaf e m.tier m.dest).toNat
    migrs := mset z.migrs id { m with marked := none, next := base + size } } m.part m.space base size false

theorem exec_migrationPage_moves {src dst k z : Nat} (hmark : m.marked = some (base, size))
    (hw : walkPage s.mem p.record m.space base = .leaf e z) (hk : leafKey s.mem p.record m.space base = some k)
    (hsrc : src = memKey (e.extractLsb' 9 2).toNat ((e.extractLsb' 16 36).toNat * 2 ^ 16)) (hdst : dst = memKey m.tier m.dest)
    (hclean : s.poison.filter (fun n => decide (src ≤ n * 64 ∧ n * 64 < src + size)) = []) :
    exec (.migrationPage id) s = .next (
      if m.last < base + size then
        endMigr (migrMoved s id m base size src dst k e) id { m with marked := none, next := base + size } 0
      else migrMoved s id m base size src dst k e) := by
  subst hsrc hdst
  show execMigrationPage id s = _
  simp only [execMigrationPage, hm, hp, hmark, hw, hk, hclean, Option.bind_some, happens]
  rfl

end
end

/-! ### Samples (R340 to R342) -/

/-- Whether a team's context has a trace buffer that samples. -/
def sampled (s : State) (e : Nat × Team) : Bool :=
  match (s.grid (tkGrid e.1)).bind fun g => (mget s.ctxs g.ctx).bind (·.trace) with
  | some tb => decide (tb.period ≠ 0)
  | none => false

theorem grid_of_sampled {s : State} {e : Nat × Team} (h : sampled s e = true) : ∃ gr, s.grid (tkGrid e.1) = some gr := by
  unfold sampled at h
  cases hg : s.grid (tkGrid e.1) with
  | none => rw [hg] at h; cases h
  | some gr => exact ⟨gr, rfl⟩

/-- The teams of a core that are sampled. -/
def sampledTeams (s : State) (core : Nat) : List (Nat × Team) := (coreTeams s core).filter (sampled s)

/-- A core with a team that is sampled samples one of its teams, into the trace of that team's context. -/
theorem exec_pcSample {s : State} {core : Nat} {x : Nat × Team} (hx : x ∈ sampledTeams s core) :
    ∃ y ∈ coreTeams s core, ∃ gy w, s.grid (tkGrid y.1) = some gy ∧
      exec (.pcSample core) s = .next (State.traceBy { s with seed := s.seed + 2 } gy.ctx core 3
        (sampleBody { s with seed := s.seed + 2 } (tkGrid y.1) (y.1 / 16 % 2 ^ 32) (y.1 % 16) w)) := by
  have hlt : Config.freeNat s.seed % (sampledTeams s core).length < (sampledTeams s core).length :=
    Nat.mod_lt _ (List.length_pos_of_mem hx)
  obtain ⟨y, hy⟩ : ∃ y, (sampledTeams s core)[Config.freeNat s.seed % (sampledTeams s core).length]? = some y :=
    ⟨_, List.getElem?_eq_getElem hlt⟩
  obtain ⟨hcore, hsampled⟩ := List.mem_filter.mp (List.mem_of_getElem? hy)
  obtain ⟨gy, hgy⟩ := grid_of_sampled hsampled
  have hdraw : exec (.pcSample core) s = happens s (
      if (sampledTeams s core).isEmpty then none
      else ((sampledTeams s core)[Config.freeNat s.seed % (sampledTeams s core).length]?).bind fun e =>
        (s.grid (tkGrid e.1)).map fun gr => State.traceBy { s with seed := s.seed + 2 } gr.ctx core 3
          (sampleBody { s with seed := s.seed + 2 } (tkGrid e.1) (e.1 / 16 % 2 ^ 32) (e.1 % 16) (Config.freeNat (s.seed + 1)))) := rfl
  refine ⟨y, hcore, gy, Config.freeNat (s.seed + 1), hgy, ?_⟩
  rw [hdraw, List.isEmpty_eq_false_iff.mpr (List.ne_nil_of_mem hx), hy, Option.bind_some, hgy]
  rfl

/-! ### Coalescing timers (R392) -/

section
variable {s : State} {fn vec due : Nat} {v : Vector} (hv : mget s.vectors (vecKey fn vec) = some v) (ht : v.timer = some due)
  (hdue : due ≤ s.clk)
include hv ht hdue

/-- A vector marked meanwhile sends again, and its timer starts anew. -/
theorem exec_coalescingTimerExpiry_marked (hmark : v.coalesced = true) : exec (.coalescingTimerExpiry fn vec) s =
    .next (State.sendVec { s with
      vectors := mset s.vectors (vecKey fn vec) { v with coalesced := false, timer := some (s.clk + s.coalOf fn) } } fn vec) := by
  show execCoalescingTimerExpiry fn vec s = _
  simp only [execCoalescingTimerExpiry, hv, ht, Option.bind_some, if_neg (Nat.not_lt.mpr hdue), hmark, if_true, happens]

/-- Another is idle. -/
theorem exec_coalescingTimerExpiry_idle (hmark : v.coalesced = false) : exec (.coalescingTimerExpiry fn vec) s =
    .next { s with vectors := mset s.vectors (vecKey fn vec) { v with timer := none } } := by
  show execCoalescingTimerExpiry fn vec s = _
  simp only [execCoalescingTimerExpiry, hv, ht, Option.bind_some, if_neg (Nat.not_lt.mpr hdue), hmark, Bool.false_eq_true,
    if_false, happens]

end

/-- Settles O32: each event does what its own functions say: the end of a miss, the settling of a fill, one step of a
migration, a sample, the end of a timer. -/
theorem pageAndTimerEvents : Obligations.PageAndTimerEvents := by
  unfold Obligations.PageAndTimerEvents
  intro s engine g id core fn vec size base due va e p f m ms v k
  refine ⟨?coreHit, ?coreWalk, ?dieWalk, ?filled, ?notFilled, fun _ hm hp hmark => exec_migrationPage_marks hm hp hmark,
    fun cls cause al hm hp hmark hw huse => exec_migrationPage_refused hm hp hmark hw huse, exec_migrationPage_absent,
    exec_migrationPage_regen, fun src dst kk hm hp hmark hw hk hsrc hdst hclean =>
      exec_migrationPage_moves hm hp hmark hw hk hsrc hdst hclean, ?sample, exec_coalescingTimerExpiry_marked,
    exec_coalescingTimerExpiry_idle⟩
  case coreHit =>
    intro hit hms hcore hmove htlb
    obtain rfl := engine_of_missUnder hms
    rw [← dieTlb_core hcore] at htlb
    rw [exec_tlbMissComplete hms hmove, endMiss_core (missLeaf_hit htlb) hcore]
    rfl
  case coreWalk =>
    intro hms hcore hmove htlb hp hw
    obtain rfl := engine_of_missUnder hms
    rw [← dieTlb_core hcore] at htlb ⊢
    rw [exec_tlbMissComplete hms hmove, endMiss_core (missLeaf_walk htlb hp hw) hcore]
    rfl
  case dieWalk =>
    intro hms hdie hmove htlb hp hw
    obtain rfl := engine_of_missUnder hms
    nth_rw 1 [← dieTlb_die hdie] at htlb
    rw [exec_tlbMissComplete hms hmove, endMiss_die (missLeaf_walk htlb hp hw) hdie, tlbFill_eq, walkedLeaf, dieTlb_die hdie]
    rfl
  case filled =>
    rintro hf hend hp hw hk ⟨e', z, hnow⟩
    have hpresent : pagePresent (fillEnded s id f true) f = true := by
      rw [fillEnded_regen hp hw hk]
      exact pagePresent_leaf hp hnow
    rw [exec_regenFillComplete hf hend, hpresent, fillEnded_regen hp hw hk]
    rfl
  case notFilled =>
    rintro hf (hend | ⟨hend, hp, hw⟩) hown
    · rw [exec_regenFillComplete hf hend, fillEnded_bad]
      exact congrArg _ (fillSettled_failed hown)
    · have habsent : pagePresent (fillEnded s id f true) f = false := by
        rw [fillEnded_noLeaf hp hw]
        exact pagePresent_noLeaf hp hw
      rw [exec_regenFillComplete hf hend, habsent, fillEnded_noLeaf hp hw]
      exact congrArg _ (fillSettled_failed hown)
  case sample =>
    intro x tb hx htb hper
    have hsampled : sampled s x = true := by
      simp only [sampled, htb]
      exact decide_eq_true hper
    exact exec_pcSample (List.mem_filter.mpr ⟨hx, hsampled⟩)

end Sys2Proof.Machine
end

/-! ## O34: accesses of queues -/

section
namespace Sys2Proof.Machine

section
variable {s t : State} {q : Nat} {x : Queue} {j : JImg}

/-! ### Commands (R357, R370, R373) -/

/-- The command of the queue whose turn it is runs. -/
theorem withQueue_turn (hq : queueTurn s q x j) (f : Nat → Queue → JImg → Out) : withQueue s f = f q x j := by
  obtain ⟨hturn, hx, hj, hserved⟩ := hq
  simp only [withQueue, hturn, hx, hj, hserved, if_true]

section
variable {perf : Nat → Queue → JImg → DispRes} (post : W64 → JImg → JImg) (hq : queueTurn s q x j)
include hq

/-- A command whose result stands in the dispatch window is complete with it. -/
theorem dispatched_again {e : W64 × W64} (he : x.window.find? (fun e => decide (e.1 = j.csn)) = some e) :
    dispatched s perf post = cmdEnds s q (post e.2 j) := by
  simp only [dispatched, withQueue_turn hq, he]
  rfl

variable (hd : undispatched x j)
include hd

theorem dispatched_done {v : W64} (h : perf q x j = .done v t) : dispatched s perf post = dispEnds t q j v (post v j) := by
  simp only [dispatched, withQueue_turn hq, show x.window.find? _ = none from hd, h]
  rfl

theorem dispatched_fault {code : Nat} (h : perf q x j = .fault code t) : dispatched s perf post =
    .next (queueFault (enterWindow t q j.csn (BitVec.ofNat 64 (2 ^ 63 + code))) q code) := by
  simp only [dispatched, withQueue_turn hq, show x.window.find? _ = none from hd, h]

theorem dispatched_waits (h : perf q x j = .waits t) : dispatched s perf post = .next t := by
  simp only [dispatched, withQueue_turn hq, show x.window.find? _ = none from hd, h]

end

/-! ### One access (R359, R362) -/

section
variable {acc : Acc} {va : W64} {key tier : Nat}

theorem qWord_passes (h : qPasses s x acc va key tier t) (k : Nat → Nat → State → DispRes) :
    qWord s x acc va k = k key tier t := by
  obtain ⟨halign, n, rest, hok, hclean⟩ := h
  have hpoison : (decide (acc ≠ .store) && segsPoisoned t ((key, n) :: rest)) = false := by
    rcases hclean with h | h <;> simp [h]
  simp only [qWord, if_neg (not_not_intro halign), hok, hpoison, Bool.false_eq_true, if_false]

theorem qWord_misaligned (h : va.toNat % 8 ≠ 0) (k : Nat → Nat → State → DispRes) : qWord s x acc va k = .fault 5 s := if_pos h

theorem qWord_refused {cls : Nat} (halign : va.toNat % 8 = 0) (h : qRange s x.part x.space acc va 8 = .fault cls t)
    (k : Nat → Nat → State → DispRes) : qWord s x acc va k = .fault 4 t := by
  simp only [qWord, if_neg (not_not_intro halign), h]

theorem doSt_misaligned (h : va.toNat % 8 ≠ 0) (v : W64) : doSt s x va v = .fault 5 s := qWord_misaligned h _

theorem doSignal_write (h : qPasses s x .store va key tier t) (v : W64) : doSignal s x false va v =
    .done 0 (sendClock (qStore t key v) (0x3000 + x.core) x.part va tier key) := qWord_passes h _

theorem doSignal_add (h : qPasses s x .rmw va key tier t) (v : W64) : doSignal s x true va v =
    .done 0 (sendClock (addWord t key v) (0x3000 + x.core) x.part va tier key) := qWord_passes h _

end

/-! ### ld (R359, R362) -/

section
variable {a b : BitVec 4} {imm : BitVec 44} (hq : queueTurn s q x j)
include hq

theorem exec_cmdLd {r : DispRes} (h : (qWord s x .load (j.reg b.toNat + imm.signExtend 64) fun key _ s =>
    .done (BitVec.ofNat 64 (readNat s.mem key 8)) s) = r) :
    exec (.cmdLd a b imm) s = finish q r fun v => movePos (j.setReg a.toNat v) 1 := by
  show execCmdLd a b imm s = _
  rw [execCmdLd, withQueue_turn hq, h]

end

/-! ### Peers' words (R250, R398) -/

/-- A word outside peer memory is only written. -/
theorem sendPeer_own {key : Nat} (h : peerKey key = false) (n : Nat) : sendPeer s [(key, n)] = s := by
  simp [sendPeer, h]

theorem qStore_own {key : Nat} (h : peerKey key = false) (v : W64) : qStore s key v = putMem s key (natBytes 8 v.toNat) :=
  sendPeer_own h 8

theorem addWord_own {key : Nat} (h : peerKey key = false) (v : W64) :
    addWord s key v = putMem s key (natBytes 8 ((readNat s.mem key 8 + v.toNat) % 2 ^ 64)) := by
  simp only [addWord, h, Bool.false_eq_true, if_false]

/-- A peer's word leaves for its home as well. -/
theorem qStore_peer {key : Nat} (h : peerKey key = true) (v : W64) : (qStore s key v).outbox =
    s.outbox ++ [.store (key - memKey 3 0) (readBytes (qStore s key v).mem key 8)] := by
  simp only [qStore, sendPeer, List.filter_cons, List.filter_nil, h, if_true, List.map_cons, List.map_nil]
  rfl

theorem addWord_peer {key : Nat} (h : peerKey key = true) (v : W64) :
    (addWord s key v).outbox = s.outbox ++ [.atomic (key - memKey 3 0) 0 8 v.toNat 0] := by
  simp only [addWord, h, if_true]
  rfl

/-! ### copy and migration (R233, R359) -/

/-- A copy whose ranges pass, its source clean, is performed. -/
theorem doCopy_passes {dst src n : W64} {from_ to_ : List (Nat × Nat)} {k k' : Nat} {u : State}
    (hfrom : qSpan x.part x.space .load (n.toNat / 65536 + src.toNat % 65536 + 2) src n.toNat s = .ok from_ k t)
    (hclean : segsPoisoned t from_ = false)
    (hto : qSpan x.part x.space .store (n.toNat / 65536 + dst.toNat % 65536 + 2) dst n.toNat t = .ok to_ k' u) :
    doCopy s x dst src n = .done 0 (sendPeer (putSegs u to_ (readSegs u.mem from_)) to_) := by
  simp only [doCopy, hfrom, hclean, hto, Bool.false_eq_true, if_false]

section
variable {csn va n : W64} {tier reg : Nat} (hfree : ∀ m ∈ s.migrs, m.2.queue ≠ q)
include hfree

theorem noMigr_any : (s.migrs.any fun e => decide (e.2.queue = q)) = false :=
  List.any_eq_false.mpr fun m hm => by simp [hfree m hm]

/-- A migration of no bytes is complete. -/
theorem doMigrate_none (hn : n.toNat = 0) : doMigrate s q x csn va n tier reg = .done 0 s := by
  have hzero : n = 0 := BitVec.eq_of_toNat_eq hn
  simp only [doMigrate, noMigr_any hfree, hzero, Bool.false_eq_true, if_false, if_true]

/-- Another is asked for, and its queue waits. -/
theorem doMigrate_asks (hn : n.toNat ≠ 0) : doMigrate s q x csn va n tier reg = .waits { s.fresh.2 with
    migrs := mset s.migrs s.fresh.1
      ⟨x.part, x.space, va.toNat, va.toNat + n.toNat - 1, tier, none, 0, q, reg, csn⟩ } := by
  have hsome : n ≠ 0 := fun h => hn (by rw [h]; rfl)
  simp only [doMigrate, noMigr_any hfree, if_neg hsome, Bool.false_eq_true, if_false]
  rfl

end
end

/-! ### The dispatched commands (R359) -/

section
variable (s : State) (a b c : BitVec 4)

theorem exec_cmdSt (imm : BitVec 44) : exec (.cmdSt a b imm) s =
    dispatched s (fun _ x j => doSt s x (j.reg b.toNat + imm.signExtend 64) (j.reg a.toNat)) fun _ j => j := rfl

theorem exec_signalWrite : exec (.signalWrite a b) s =
    dispatched s (fun _ x j => doSignal s x false (j.reg a.toNat) (j.reg b.toNat)) fun _ j => j := rfl

theorem exec_signalAdd : exec (.signalAdd a b) s =
    dispatched s (fun _ x j => doSignal s x true (j.reg a.toNat) (j.reg b.toNat)) fun _ j => j := rfl

theorem exec_cmdCopy : exec (.cmdCopy a b c) s =
    dispatched s (fun _ x j => doCopy s x (j.reg a.toNat) (j.reg b.toNat) (j.reg c.toNat)) fun _ j => j := rfl

theorem exec_cmdMigrate (k : BitVec 2) : exec (.cmdMigrate a b c k) s =
    dispatched s (fun q x j => doMigrate s q x j.csn (j.reg a.toNat) (j.reg c.toNat) k.toNat b.toNat)
      fun v j => j.setReg b.toNat v := rfl

end

/-- Settles O34: each command is its performance under `dispatched`, or ld's access under `finish`; accesses go by `qWord`. -/
theorem queueAccesses : Obligations.QueueAccesses := by
  unfold Obligations.QueueAccesses
  intro s t u q key tier x j a b c imm k from_ to_ e hq
  refine ⟨fun hp => exec_cmdLd hq (qWord_passes hp _), fun h => exec_cmdLd hq (qWord_misaligned h _),
    fun cls halign h => exec_cmdLd hq (qWord_refused halign h _), exec_cmdSt_passes hq,
    fun hd h => (exec_cmdSt s a b imm).trans (dispatched_fault _ hq hd (doSt_misaligned h _)),
    fun hd hp => (exec_signalWrite s a b).trans (dispatched_done _ hq hd (doSignal_write hp _)),
    fun hd hp => (exec_signalAdd s a b).trans (dispatched_done _ hq hd (doSignal_add hp _)),
    fun v h => ⟨qStore_own h v, addWord_own h v⟩, fun v h => ⟨qStore_peer h v, addWord_peer h v⟩,
    fun hd hfrom hclean hto => (exec_cmdCopy s a b c).trans (dispatched_done _ hq hd (doCopy_passes hfrom hclean hto)),
    fun hd hfree hn => (exec_cmdMigrate s a b c k).trans (dispatched_done _ hq hd (doMigrate_none hfree hn)),
    fun hd hfree hn => (exec_cmdMigrate s a b c k).trans (dispatched_waits _ hq hd (doMigrate_asks hfree hn)), fun he => ?again⟩
  case again =>
    exact ⟨(exec_cmdSt s a b imm).trans (dispatched_again _ hq he), (exec_signalWrite s a b).trans (dispatched_again _ hq he),
      (exec_signalAdd s a b).trans (dispatched_again _ hq he), (exec_cmdCopy s a b c).trans (dispatched_again _ hq he),
      (exec_cmdMigrate s a b c k).trans (dispatched_again _ hq he)⟩

end Sys2Proof.Machine
end

/-! ## O43: requests of the management path -/

section
namespace Sys2Proof.Machine

section
variable {s : State} {p e dev part q fn space m core vec us k : Nat} {rec : BitVec 512} {ring first last csn : W64}
  {key : BitVec 8} {inb : Bool} {x : Part} {ent : BitVec 256} {bs : List Byte}

/-- READY 0 answers a request without effect (R404). -/
theorem request_notReady (h : s.reg.isReady = false) (f : State → State) : request s f = .next (s.answer 0x100 []) := by
  simp only [request, h, Bool.false_eq_true, if_false]

section
variable (hready : s.reg.isReady = true)
include hready

/-- A device that is ready carries a request out. -/
theorem request_ready (f : State → State) : request s f = .next (f s) := by
  simp only [request, hready, if_true]

/-! ### Partitions (R384, R385, R389) -/

section
variable (hp : p < 24) (hfree : mget s.parts p = none)
include hp hfree

/-- The record of a partition that does not exist yet is written where it passes the registrar's checks. -/
theorem exec_partitionCreate_good (hrec : recordFault s p rec = none) : exec (.partitionCreate p rec) s =
    .next (State.answer { s with parts := mset s.parts p (Part.fresh rec) } 0 [0]) := by
  have hnew : ¬(24 ≤ p ∨ (mget s.parts p).isSome = true) := by simp [hfree, hp]
  show execPartitionCreate p rec s = _
  rw [execPartitionCreate, request_ready hready]
  simp only [if_neg hnew, hrec]

/-- Otherwise the first field that fails is named. -/
theorem exec_partitionCreate_bad (hrec : recordFault s p rec = some k) :
    exec (.partitionCreate p rec) s = .next (s.answer k [1]) := by
  have hnew : ¬(24 ≤ p ∨ (mget s.parts p).isSome = true) := by simp [hfree, hp]
  show execPartitionCreate p rec s = _
  rw [execPartitionCreate, request_ready hready]
  simp only [if_neg hnew, hrec]

end

section
variable (hx : mget s.parts p = some x)
include hx

/-- A record that passes changes its partition, unless it splits the slices anew (R247). -/
theorem exec_partitionChange (hrec : recordFault s p rec = none) : exec (.partitionChange p rec) s = .next (
    if sameSplit x.record rec then State.answer { s with parts := mset s.parts p { x with record := rec } } 0 [0]
    else s.answer 8 [1]) := by
  show execPartitionChange p rec s = _
  rw [execPartitionChange, request_ready hready]
  simp only [hx, hrec]

theorem exec_partitionDestroy : exec (.partitionDestroy p) s =
    .next ((removePart (abortPart (recallLent s p) p) p).answer 0 [0]) := by
  show execPartitionDestroy p s = _
  rw [execPartitionDestroy, request_ready hready]
  rw [hx]
  rfl

/-! ### Tables of a partition (R231, R353, R398, R399) -/

theorem exec_regenerationTableWrite {r : RegenEnt} (he : e < 64) (hent : (ent.extractLsb' 0 16).toNat = 0)
    (hr : r = ⟨ent.extractLsb' 0 64, ent.extractLsb' 64 64, ent.extractLsb' 128 64, ent.extractLsb' 192 64⟩) :
    exec (.regenerationTableWrite p e ent) s = .next (State.answer { s with
      parts := mmod s.parts p fun y => { y with regen := mset y.regen e r } } 0 [0]) := by
  subst hr
  have hgood : ¬(64 ≤ e ∨ (mget s.parts p).isNone = true ∨ (ent.extractLsb' 0 16).toNat ≠ 0) := by
    simp [hx, hent, he]
  show execRegenerationTableWrite p e ent s = _
  rw [execRegenerationTableWrite, request_ready hready, if_neg hgood]

theorem exec_messageEndpointBind (he : inb = true → e < 8) (hdev : dev < 1024) :
    exec (.messageEndpointBind p e inb dev part q csn) s = .next (State.answer { s with
      parts := mmod s.parts p fun y => { y with
        ends := mset y.ends (if inb then e else 8 + e) ⟨inb, dev, part, q, csn⟩ } } 0 [0]) := by
  have hgood : ¬((inb = true ∧ 8 ≤ e) ∨ 1024 ≤ dev ∨ (mget s.parts p).isNone = true) := by
    simp only [hx, Option.isNone_some, Bool.false_eq_true, or_false, not_or, not_and, Nat.not_le]
    exact ⟨he, hdev⟩
  show execMessageEndpointBind p e inb dev part q csn s = _
  rw [execMessageEndpointBind, request_ready hready, if_neg hgood]

theorem exec_importTableWrite (he : e < 16) : exec (.importTableWrite p e dev part first last key) s =
    .next (State.answer { s with
      parts := mmod s.parts p fun y => { y with imports := mset y.imports e ⟨dev, part, first, last, key⟩ } } 0 [0]) := by
  have hgood : ¬(16 ≤ e ∨ (mget s.parts p).isNone = true) := by simp [hx, he]
  show execImportTableWrite p e dev part first last key s = _
  rw [execImportTableWrite, request_ready hready, if_neg hgood]

theorem exec_tenantKeyLoad (hsession : x.session.isSome = true) (hkey : inKeySet x.record key.toNat = true) :
    exec (.tenantKeyLoad p key bs) s = .next (State.answer { s with
      parts := mset s.parts p { x with
        keys := mset x.keys key.toNat (Config.unwrapKey (x.session.getD 0) bs) } } 0 [0]) := by
  have hgood : (x.session.isNone || !(inKeySet x.record key.toNat)) = false := by
    rw [hkey, Option.isNone_eq_false_iff.mpr hsession]
    rfl
  show execTenantKeyLoad p key bs s = _
  rw [execTenantKeyLoad, request_ready hready]
  simp only [hx, hgood, Bool.false_eq_true, if_false]

end

/-! ### Queues (R353) -/

/-- A queue as its creation leaves it. -/
def Queue.created (fn part space m core vec : Nat) (ring : W64) : Queue :=
  { fn := fn, part := part, space := space, m := m, core := core, vector := vec, ring := ring.toNat, wptr := 0
    retries := 0, dropped := 0, stopReq := false, held := false, disabled := false, armed := none
    halfA := JImg.initial, halfB := JImg.initial, badA := false, badB := false, written := false, newestB := false
    window := [], begun := none }

theorem exec_queueCreate (hfree : mget s.queues q = none) (hx : mget s.parts part = some x) (havail : x.available = true)
    (hq : q < 1024) (hfn : fn = 0 ∨ fn = part + 1) (hspace : space < 4) (hm : m ≤ 11) (hcore : core ≤ 5)
    (hvec : vec < vecCount fn) (halign : ring.toNat % 8 = 0) (hring : inTier x.record 0 ring.toNat (8 * 2 ^ (m + 6)) = true) :
    exec (.queueCreate q fn part space m core vec ring) s = .next (State.answer { s with
      queues := mset s.queues q (Queue.created fn part space m core vec ring) } 0 [0]) := by
  have hrange : ¬(1024 ≤ q ∨ (fn ≠ 0 ∧ fn ≠ part + 1) ∨ 4 ≤ space ∨ 11 < m ∨ 5 < core ∨ vecCount fn ≤ vec ∨
      ring.toNat % 8 ≠ 0) := by omega
  show execQueueCreate q fn part space m core vec ring s = _
  rw [execQueueCreate, request_ready hready]
  simp only [hfree, hx, havail, hring, decide_eq_false hrange, Bool.not_true, Bool.or_self, Bool.false_eq_true, if_false]
  rfl

/-! ### The device (R395, R398) -/

theorem exec_deviceNumberAssign (n : BitVec 10) :
    exec (.deviceNumberAssign n) s = .next ((s.modReg fun r => { r with devno := n }).answer 0 [0]) := by
  show execDeviceNumberAssign n s = _
  rw [execDeviceNumberAssign, request_ready hready]

theorem exec_deadlockTimeoutSet_good (hlo : 1 ≤ us) (hhi : us ≤ 1000) : exec (.deadlockTimeoutSet us) s =
    .next ((s.modReg fun r => { r with deadlockUs := us }).answer 0 [0]) := by
  have hin : ¬(us < 1 ∨ 1000 < us) := by omega
  show execDeadlockTimeoutSet us s = _
  rw [execDeadlockTimeoutSet, request_ready hready, if_neg hin]

theorem exec_deadlockTimeoutSet_bad (h : us = 0 ∨ 1000 < us) : exec (.deadlockTimeoutSet us) s = .next (s.answer 0x101 []) := by
  have hout : us < 1 ∨ 1000 < us := by omega
  show execDeadlockTimeoutSet us s = _
  rw [execDeadlockTimeoutSet, request_ready hready, if_pos hout]

end
end

/-- Settles O43: each of these is a `request`, which READY 0 answers, and whose checks pass or name what is wrong. -/
theorem managementRequests : Obligations.ManagementRequests := by
  unfold Obligations.ManagementRequests
  intro s p e dev part q fn space m core vec us k rec ring first last csn key n inb x ent bs hready
  refine ⟨exec_partitionCreate_good hready, exec_partitionCreate_bad hready,
    fun hx hrec => ⟨fun h => ?sameSplit, fun h => ?otherSplit⟩, exec_partitionDestroy hready, ?queueCreate,
    fun r hx => exec_regenerationTableWrite hready hx, exec_messageEndpointBind hready, exec_importTableWrite hready,
    exec_deviceNumberAssign hready n, exec_deadlockTimeoutSet_good hready, exec_deadlockTimeoutSet_bad hready,
    exec_tenantKeyLoad hready, ?notReady⟩
  case sameSplit => rw [exec_partitionChange hready hx hrec, if_pos h]
  case otherSplit => rw [exec_partitionChange hready hx hrec, h]; rfl
  case queueCreate =>
    intro hfree hx havail hq hfn hspace hm hcore hvec halign hring
    exact ⟨_, _, exec_queueCreate hready hfree hx havail hq hfn hspace hm hcore hvec halign hring, mget_mset_self _ _ _,
      rfl, rfl, rfl, rfl, rfl, rfl, rfl, rfl, rfl, rfl, rfl, rfl⟩
  case notReady =>
    have hrequest : ∀ i ∈ [Instr.partitionCreate p rec, .partitionChange p rec, .partitionDestroy p,
        .queueCreate q fn part space m core vec ring, .regenerationTableWrite p e ent,
        .messageEndpointBind p e inb dev part q csn, .importTableWrite p e dev part first last key, .deviceNumberAssign n,
        .deadlockTimeoutSet us, .tenantKeyLoad p key bs, .queueExport q, .queueImport q part bs, .hostRevoke p],
        ∃ f, ∀ t, exec i t = request t f := by
      simp only [List.forall_mem_cons, List.not_mem_nil, false_implies, implies_true, and_true]
      and_intros <;> exact ⟨_, fun _ => rfl⟩
    intro i hi t ht
    obtain ⟨f, hf⟩ := hrequest i hi
    rw [hf, request_notReady ht]

end Sys2Proof.Machine
end

/-! ## O24: atomics -/

section
namespace Sys2Proof.Machine

/-! ### Counting an operation, and sending it to a peer (R250, R344) -/

section
variable (s : State) (ctx part core : Nat) (va : W64) (tier key : Nat)

/-- Counting an operation changes totals of contexts and draws open numbers, whatever messages are under way. -/
theorem countBank_shape (o : List Outgoing) : countBank { s with outbox := o } ctx part core va tier key =
    { s with
      ctxs := (countBank s ctx part core va tier key).ctxs
      seed := (countBank s ctx part core va tier key).seed
      outbox := o } := by
  have hhome : homeOf { s with outbox := o } part va tier key = homeOf s part va tier key := rfl
  simp only [countBank, countUse, countFlits, hhome]
  cases homeOf s part va tier key with
  | none => rfl
  | some home =>
    dsimp only
    split_ifs <;> rfl

theorem segsPoisoned_countBank (segs : List (Nat × Nat)) :
    segsPoisoned (countBank s ctx part core va tier key) segs = segsPoisoned s segs := by
  rw [show countBank s ctx part core va tier key = _ from countBank_shape s ctx part core va tier key s.outbox]
  rfl

/-- An operation that goes to no peer leaves the state (R250). -/
theorem peerAtomic_own {tier : Nat} (h : tier ≠ 3) (n : Nat) (r : Rmw) : peerAtomic s tier key n r = s := if_pos h

/-- It is all one whether an operation goes to its peer before it is counted and written here, or after. -/
theorem peerAtomic_putMem_countBank (n : Nat) (r : Rmw) (bytes : List Byte) :
    peerAtomic (putMem (countBank s ctx part core va tier key) key bytes) tier key n r =
      putMem (countBank (peerAtomic s tier key n r) ctx part core va tier key) key bytes := by
  by_cases h : tier = 3
  · simp only [peerAtomic, h, ne_eq, not_true, if_false, countBank_shape]
    rw [show countBank s ctx part core va 3 key = _ from countBank_shape s ctx part core va 3 key s.outbox]
    rfl
  · rw [peerAtomic_own _ _ h, peerAtomic_own _ _ h]

end

/-- What a context logs stands with the contexts (R315). -/
theorem undoOn_of_standing {g b u : Nat} {s t : State} (h : t.standing g b u = s.standing g b u) (ctx : Nat) :
    t.undoOn ctx = s.undoOn ctx := by
  have hctx := congrArg (Option.map fun x : Bool × Bool × Option Replay => x.1) (congrFun (congrArg (·.2.2) h) ctx)
  simp only [State.standing, Option.map_map, Function.comp_def] at hctx
  rw [State.undoOn, hctx, ← State.undoOn]

/-- Without an undo log an atomic's write is of its word only (R315). -/
theorem writeWord_of_no_undo {s : State} {c : Cx} (h : s.undoOn c.ctx = false) (va : W64) (tier key n v sent : Nat) :
    writeWord s c va tier key n v sent = some (putMem s key (natBytes n v)) := by
  simp only [writeWord, irreversible, undoWrite, h, Bool.false_eq_true, if_false, ite_self, Option.map_some]

/-! ### One lane (R261, R262) -/

/-- A lane on a word without poison, of a context that neither records nor logs, writes the new value and answers the old one. -/
theorem rmwLane_clean {c : Cx} {n v : Nat} {f : Nat → Rmw} {z : RmwAcc} {y : LaneAcc} (hstall : z.stall = none)
    (hrec : z.s.recordOn c.ctx = false) (hundo : z.s.undoOn c.ctx = false) (hclean : segsPoisoned z.s y.segs = false)
    (hnew : (f y.lane).apply n (readNat z.s.mem (keyAt y.segs 0) n) = some v) :
    c.rmwLane n false f z y = { z with
      s := putMem (countBank (peerAtomic z.s y.tier (keyAt y.segs 0) n (f y.lane)) c.ctx c.gr.part c.core y.va y.tier
        (keyAt y.segs 0)) (keyAt y.segs 0) (natBytes n v)
      olds := z.olds ++ [(y.lane, readNat z.s.mem (keyAt y.segs 0) n)] } := by
  have hcount := idle_countBank (g := 0) (b := 0) (u := 0) z.s c.ctx c.gr.part c.core y.va y.tier (keyAt y.segs 0)
  have hundo := (undoOn_of_standing hcount.standing c.ctx).trans hundo
  simp only [Cx.rmwLane, hstall, Option.isSome_none, Bool.false_eq_true, if_false, foldHash_off hrec,
    segsPoisoned_countBank, hclean, hcount.mem, hnew, writeWord_of_no_undo hundo, peerAtomic_putMem_countBank]

/-! ### The lanes of ATOM and CAS (R250, R262 to R265) -/

section
variable {c : Cx} {n : Nat} {todo : List (Nat × W64)} {f : Nat → Rmw} {xs : List LaneAcc} {tags : State}

/-- Lanes that pass their checks, on operations that their tiers have, pass those of an atomic. -/
theorem checkRmw_passes (h : c.checkLanes .rmw n n todo c.pre = (xs, none, tags))
    (hhost : ∀ y ∈ xs, y.tier = 2 → (f y.lane).hostOk = true) : c.checkRmw n f todo = (xs, none, tags) := by
  have hfind : xs.find? (fun x => decide (x.tier = 2) && !(f x.lane).hostOk) = none :=
    List.find?_eq_none.mpr fun y hy => by
      by_cases ht : y.tier = 2
      · simp [hhost y hy ht]
      · simp [ht]
  simp only [Cx.checkRmw, h, hfind]

/-- No lane is left where none met poison and the log took them all. -/
theorem rmwLeft_nil {a : RmwAcc} (hbad : a.bad = []) (hstall : a.stall = none) : rmwLeft todo a none = [] := by
  simp [rmwLeft, hbad, hstall]

/-- An atomic whose lanes are all performed is complete. -/
theorem rmwEnd_complete {a : RmwAcc} (hbad : a.bad = []) (hstall : a.stall = none) (ls : List Nat) (s : State) :
    rmwEnd ls a none s = .ok s := by
  unfold rmwEnd
  rw [hbad, hstall]

/-- The state of an atomic with the words' old values written to its destination. -/
def oldsWritten (c : Cx) (d : Operand) (sz : Size) (z : RmwAcc) : State :=
  if sz = .d then c.wrD z.s d (z.olds.map fun e => (e.1, BitVec.ofNat 64 e.2))
  else c.wrL z.s d (z.olds.map fun e => (e.1, BitVec.ofNat 32 e.2))

/-- A lane atomic whose lanes all pass performs them in lane order and writes the old values. -/
theorem atomic_passes {d : Operand} {base : BitVec 5} {idx : Operand} {sz : Size} {scale tag : Bool} (hlive : c.live)
    (hpass : lanesPass c .rmw sz.bytes sz.bytes (c.laneList base idx sz scale) xs tags)
    (hhost : ∀ y ∈ xs, y.tier = 2 → (f y.lane).hostOk = true) (hdrained : c.drained = true)
    (hbad : (atomicEnd c tags xs sz.bytes tag f).bad = []) (hstall : (atomicEnd c tags xs sz.bytes tag f).stall = none) :
    c.atomic c.pre d base idx sz scale tag f = .ok (oldsWritten c d sz (atomicEnd c tags xs sz.bytes tag f)) := by
  obtain ⟨hroom, hcheck, hmiss⟩ := hpass
  unfold atomicEnd accessed at hbad hstall
  simp only [Cx.atomic, hroom, parkLanes_of_checkLanes hcheck, hdrained, checkRmw_passes hcheck hhost, hmiss, gated_go hlive,
    Option.map_none, rmwLeft_nil hbad hstall, List.isEmpty_nil, rmwEnd_complete hbad hstall, Bool.not_true, Bool.false_eq_true,
    if_false, if_true]
  rfl

/-- A member whose meaning is a lane atomic executes so. -/
theorem executes_atomic {i : Instr} {d : Operand} {base : BitVec 5} {idx : Operand} {sz : Size} {scale tag : Bool}
    {f : Cx → Nat → Rmw} (he : exec i = issue1 i (bodyOf i)) (hp : plainMember i = true)
    (hb : ∀ c, bodyOf i c c.pre = c.atomic c.pre d base idx sz scale tag (f c)) :
    ExecutesIf i
      (fun c => lanesPass c .rmw sz.bytes sz.bytes (c.laneList base idx sz scale) xs tags ∧
        (∀ y ∈ xs, y.tier = 2 → (f c y.lane).hostOk = true) ∧ c.drained = true ∧
        (atomicEnd c tags xs sz.bytes tag (f c)).bad = [] ∧ (atomicEnd c tags xs sz.bytes tag (f c)).stall = none)
      (fun c => .ok (oldsWritten c d sz (atomicEnd c tags xs sz.bytes tag (f c)))) :=
  executes_live he hp (fun c hlive ⟨hpass, hhost, hdrained, hbad, hstall⟩ =>
    (hb c).trans (atomic_passes hlive hpass hhost hdrained hbad hstall)) fun _ _ => rfl

end

/-! ### The one operation of ATOMS (R266) -/

/-- An ATOMS whose access passes performs its operation once and answers the old value to its scalar. -/
theorem bodyAtoms_passes {c : Cx} {r base : BitVec 5} (idx : Operand) {sz : Size} (scale : Bool) {tag : Bool} (x : MemExt)
    {a : Operand} {op : BitVec 4} {segs : List (Nat × Nat)} {tier o : Nat} {bs : List Bind} {z : RmwAcc} (hlive : c.live)
    (hpass : passesAt c .rmw sz.bytes (c.rdS (.s base)) sz.bytes segs tier bs)
    (hhost : tier = 2 → (teamRmw c (.s r) a sz op).hostOk = true) (hdrained : c.drained = true)
    (hz : teamAtomicEnd c bs (teamAcc (c.rdS (.s base)) segs tier) sz.bytes tag (teamRmw c (.s r) a sz op) = z)
    (hbad : z.bad = []) (hstall : z.stall = none) (hone : z.olds = [(0, o)]) :
    bodyAtoms (.s r) base idx sz scale x tag a op c c.pre =
      .ok (c.onTeam z.s fun t => t.setS r.toNat (BitVec.ofNat 64 o)) := by
  have htier : ¬(tier = 2 ∧ (teamRmw c (.s r) a sz op).hostOk = false) := fun ⟨h2, hno⟩ =>
    Bool.false_ne_true (hno.symm.trans (hhost h2))
  unfold teamAtomicEnd at hz
  unfold teamRmw at hz htier
  simp only [bodyAtoms, one_passes hpass, if_neg htier, hdrained, gated_go hlive, hz, hbad, hstall, hone, Bool.not_true,
    Bool.false_eq_true, if_false]

/-- Settles O24: ATOM and CAS are lane atomics, ATOMS is the one operation of its team, and a lane on a word without poison is
`rmwLane_clean`. -/
theorem atomics : Obligations.Atomics := by
  unfold Obligations.Atomics
  intro d base idx sz scale tag x a k n op r xs tags segs tier o bs
  refine ⟨?lanes, ?team, fun c m f z y v => rmwLane_clean, fun s key m f =>
    ⟨fun t ht => peerAtomic_own s key ht.ne m f, peerAtomic_own s key (by decide) m f⟩⟩
  case lanes =>
    simp only [List.forall_mem_cons, List.not_mem_nil, false_implies, implies_true, and_true]
    exact ⟨executes_atomic (f := fun c l => .op op.toNat (c.rmwArg a sz l)) rfl rfl fun _ => rfl,
      executes_atomic (f := fun c l => .cas (c.rmwArg k sz l) (c.rmwArg n sz l)) rfl rfl fun _ => rfl⟩
  case team =>
    exact executes_live rfl rfl (fun c hlive ⟨hpass, hhost, hdrained, hbad, hstall, hone⟩ =>
      bodyAtoms_passes idx scale x hlive hpass hhost hdrained rfl hbad hstall hone) fun _ _ => rfl

end Sys2Proof.Machine
end

/-! ## O14: TRAP and BRK stop their party after the chain -/

section
namespace Sys2Proof.Machine

section
variable {s : State} {p : Party} {i : Instr} {c : Cx}

/-- The level of a ready member's party executes it, and its chain is not the close chain of the token (R94, R101). -/
theorem ready_own_open (h : ready s p i = some c) : executes c.sc i = true ∧ atClose c = false := by
  obtain ⟨c0, -, -, -, hearly, -, hc, hentry, -⟩ := reach_cases (ready_reach h).1
  simp only [passesEarly, Bool.and_eq_true] at hearly
  obtain ⟨⟨-, hexec⟩, -⟩ := hearly
  simp only [passesEntry, Bool.and_eq_true, decide_eq_true_eq] at hentry
  obtain ⟨-, hopen⟩ := hentry
  exact ⟨by rw [hc]; exact hexec, hopen⟩

/-- A chain that is no close chain leaves the stacks as it likes (R106). -/
theorem closeBad_open (hopen : atClose c = false) (a : ChainAcc) (ms : List (Member × Body)) : closeBad c a ms = none := by
  unfold closeBad
  rw [hopen]
  split <;> rfl

/-- Nor does it complete a segment (R101). -/
theorem completes_open (hopen : atClose c = false) (a : ChainAcc) : completes c a = false := by
  rw [completes, hopen, Bool.false_and, Bool.false_and]

/-- The record of a stop after the chain (R291, R292). -/
def stopAfter (c : Cx) (i : Instr) (f : FInfo) : FInfo :=
  { memberScope c.sc i { f with slot := c.slot } with pc := some (nextPc c.pkt c.last), kind := .goOn }

/-- A chain of one whose member stops its party commits: the party moves on, then it stops (R286). -/
theorem finish1_trap (h : ready s p i = some c) (f : FInfo) :
    finish1 c i (.trap c.pre f) = takeFault (movedOn c i) c.p (stopAfter c i f) := by
  obtain ⟨hexec, hopen⟩ := ready_own_open h
  have hmine : (mineOf c (soleOf c i)).map (·.1.ins) = [i] := by simp [mineOf, soleOf, hexec]
  simp only [finish1, refusedJump, Bool.false_eq_true, if_false, accOf, accS, endsWith, commit, closeBad_open hopen,
    completes_open hopen, hmine]
  rw [movedOn]
  split <;> rfl

/-- Where a member's meaning stops its party, the party stops after the chain. -/
theorem exec_traps {f : FInfo} (he : exec i = issue1 i (bodyOf i)) (hp : plainMember i = true)
    (hb : ∀ c s, bodyOf i c s = .trap s f) (h : ready s p i = some c) :
    exec i s = .next (takeFault (movedOn c i) c.p (stopAfter c i f)) :=
  (executes_all he hp (fun c => ⟨hb c c.pre, rfl⟩) s p c h).trans (congrArg _ (finish1_trap h f))

end

/-- A record that names no level names LANE for a LANE member, else none of its own (R292). -/
theorem memberScope_unscoped {f : FInfo} (hf : f.scope = none) (sc : Scope) (i : Instr) :
    memberScope sc i f = { f with scope := if laneMember sc i then some .lane else none } := by
  simp only [memberScope, hf]
  split
  · rfl
  · rw [← hf]

/-- Settles O14: the meaning of either stops the party, which `exec_traps` turns into the stop after the chain. -/
theorem traps : Obligations.Traps := by
  unfold Obligations.Traps
  intro code s p c
  refine ⟨fun h => (exec_traps rfl rfl (fun _ _ => rfl) h).trans ?_,
    fun h => (exec_traps rfl rfl (fun _ _ => rfl) h).trans ?_⟩
  all_goals simp only [stopAfter, memberScope_unscoped]

end Sys2Proof.Machine
end

/-! ## O15: CSRR and CSRW -/

section
namespace Sys2Proof.Machine

/-! ### CSRR (R287) -/

/-- CSRR of a register that exists writes its value. -/
theorem bodyCsrr_reads {c : Cx} {d : Operand} {n : BitVec 12} {x : W64} (h : c.csr n.toNat = some x) (s : State) :
    bodyCsrr d n c s = c.scalarWrite s d x := by
  rw [bodyCsrr, h]

theorem bodyCsrr_unassigned {c : Cx} {d : Operand} {n : BitVec 12} (h : c.csr n.toNat = none) (s : State) :
    bodyCsrr d n c s = .fault c.pre { cls := 0x02 } := by
  rw [bodyCsrr, h]

/-- A register with a value in every context is read wherever the destination takes it. -/
theorem executes_csrr {d : Operand} {n : BitVec 12} {f : Cx → W64} (h : ∀ c, c.csr n.toNat = some (f c)) :
    ExecutesScalar (.csrr d n) d f :=
  executes_scalar rfl rfl fun c => bodyCsrr_reads (h c) c.pre

/-- The numbers that R287 assigns. -/
def csrNumbers : List Nat := [0x001, 0x002, 0x010, 0x011, 0x012, 0x013, 0x014, 0x015, 0x020, 0x021, 0x022, 0x023]

theorem csr_assigned {c : Cx} {n : Nat} {x : W64} (h : c.csr n = some x) : n ∈ csrNumbers := by
  unfold Cx.csr at h
  dsimp only at h
  split at h
  case h_13 => cases h
  all_goals decide

theorem csr_unassigned (c : Cx) {n : Nat} (h : n ∉ csrNumbers) : c.csr n = none :=
  Option.eq_none_iff_forall_ne_some.mpr fun _ hx => h (csr_assigned hx)

/-- Register 0x013 holds the properties of the grid's context, a bit each. -/
theorem csr_properties {c : Cx} {x : Ctx} (h : mget c.pre.ctxs c.ctx = some x) : c.csr 0x013 = some (BitVec.ofNat 64
    ((if x.undo then 1 else 0) + (if x.record then 2 else 0) + if x.conf then 4 else 0)) := by
  simp only [Cx.csr, h, Option.map_some, Option.getD_some]
  rfl

/-! ### CSRW (R288) -/

/-- Changes of the team of a context, one after the other, are one change. -/
theorem onTeam_onTeam (c : Cx) (s : State) (f f' : Team → Team) :
    c.onTeam (c.onTeam s f) f' = c.onTeam s fun t => f' (f t) := by
  simp only [Cx.onTeam, State.modTeam, mmod_mmod]

/-- The chain of a CSRW of fpc runs with its flags cleared (R131). -/
theorem freshFlags_csrw {c : Cx} {m : Member} {a : Operand} {body : Body} (hm : m.ins = .csrw a 1) (s : State) :
    freshFlags c [(m, body)] s = c.onTeam s fun t => { t with fpc := t.fpc &&& ~~~0x1F0 } := by
  simp only [freshFlags, List.any_cons, List.any_nil, hm, decide_true, Bool.or_false, if_true]

/-- A CSRW chain looks for no hash (R338). -/
theorem walkHash_csrw {c : Cx} {m : Member} {a : Operand} {n : BitVec 12} {body : Body} (hm : m.ins = .csrw a n)
    (x : ChainAcc) : walkHash c [(m, body)] x = .inr x := by
  simp only [walkHash, List.find?_cons, List.find?_nil, hm]

theorem bodyCsrw_refuses {c : Cx} {a : Operand} {n : BitVec 12} (h : n ≠ 1 ∨ 2 ^ 9 ≤ ((c.rdS a).setWidth 32 : W32).toNat)
    (s : State) : bodyCsrw a n c s = .fault c.pre { cls := 0x02 } := if_pos h

/-- Where no flag stands, CSRW leaves in fpc what it writes. -/
theorem bodyCsrw_writes {c : Cx} {a : Operand} (h : ((c.rdS a).setWidth 32 : W32).toNat < 2 ^ 9) (s : State) :
    bodyCsrw a 1 c (c.onTeam s fun t => { t with fpc := t.fpc &&& ~~~0x1F0 }) =
      .ok (c.onTeam s fun t => { t with fpc := (c.rdS a).setWidth 32 }) := by
  have hclear (x y : W32) : x ||| (y &&& ~~~0x1F0 &&& 0x1F0) = x := by
    rw [BitVec.and_assoc, show (~~~0x1F0 &&& 0x1F0 : W32) = 0 by decide]
    exact (congrArg (x ||| ·) BitVec.and_zero).trans BitVec.or_zero
  have hgood : ¬((1 : BitVec 12) ≠ 1 ∨ 2 ^ 9 ≤ ((c.rdS a).setWidth 32 : W32).toNat) := by
    rintro (h1 | h2)
    · exact h1 rfl
    · exact absurd h (Nat.not_lt.mpr h2)
  simp only [bodyCsrw, if_neg hgood, onTeam_onTeam, hclear]

theorem executes_csrw (a : Operand) :
    ExecutesIf (.csrw a 1) (fun c => ((c.rdS a).setWidth 32 : W32).toNat < 2 ^ 9)
      fun c => .ok (c.onTeam c.pre fun t => { t with fpc := (c.rdS a).setWidth 32 }) := by
  intro s p c h hsmall
  exact issue1_commits (body := bodyCsrw a 1) h (by rw [freshFlags_csrw rfl]; exact bodyCsrw_writes hsmall c.pre) rfl
    (.inr rfl) (fun _ => walkHash_csrw rfl _) nofun

/-- Settles O15: each number by the value that `Cx.csr` gives it, and CSRW by its meaning in a chain with its flags cleared. -/
theorem controlRegisters : Obligations.ControlRegisters := by
  unfold Obligations.ControlRegisters
  intro d a n
  refine ⟨executes_csrr fun _ => rfl, executes_csrr fun _ => rfl, executes_csrr fun _ => rfl, executes_csrr fun _ => rfl,
    executes_csrr fun _ => rfl, fun x => ?properties, executes_csrr fun _ => rfl, executes_csrr fun _ => rfl,
    executes_csrr fun _ => rfl, executes_csrr fun _ => rfl, executes_csrr fun _ => rfl, executes_csrr fun _ => rfl,
    fun hn => ?unassigned, executes_csrw a, ?refuses⟩
  case properties =>
    exact executes_scalarTo rfl rfl (fun c h => h.2) fun c h =>
      bodyCsrr_reads (n := 0x013) (csr_properties h.1) c.pre
  case unassigned => exact raises_of rfl rfl fun c _ => bodyCsrr_unassigned (csr_unassigned c hn) c.pre
  case refuses => exact fun s p c h hbad => issue1_faults (body := bodyCsrw a n) h (bodyCsrw_refuses hbad _)

end Sys2Proof.Machine
end

/-! ## O17: BAR -/

section
namespace Sys2Proof.Machine

section
variable {c : Cx} {x : Blk} {sync : Bool} {k : BitVec 7} {cnt : BitVec 5} {s : State}

/-! ### The chain of a BAR that has arrived (R276) -/

theorem barBody_over {k' ph m : Nat} (hx : c.pre.block c.g c.b = some x) (hb : c.seq.began = some (.bar k' ph m))
    (hph : (barOf x k').phase ≠ ph) : barBody sync k cnt c s = .ok s := by
  simp only [barBody, hx, hb, if_neg hph]

theorem barBody_stillWaits {k' ph m : Nat} (hx : c.pre.block c.g c.b = some x) (hb : c.seq.began = some (.bar k' ph m))
    (hph : (barOf x k').phase = ph) : barBody sync k cnt c s = .await c.pre (.bar k' ph m) := by
  simp only [barBody, hx, hb, if_pos hph]

/-! ### An arrival (R272) -/

/-- What an arriving BAR answers: a fault where it does not fit, else the arrival, with which a sync waits for its phase. -/
theorem barBody_arrives (hx : c.pre.block c.g c.b = some x) (hb : ¬barBegun c) : barBody sync k cnt c c.pre =
    if c.gr.lrec.nbar ≤ k.toNat then .fault c.pre { cls := 0x40, cause := 0 }
    else if !(barOf x k.toNat).arrived.isEmpty && decide ((barOf x k.toNat).count ≠ cnt.toNat) then
      .fault c.pre { cls := 0x40, cause := 1 }
    else if c.t ∈ (barOf x k.toNat).arrived then .fault c.pre { cls := 0x40, cause := 2 }
    else if c.tm.detached && decide (cnt = 0) then .fault c.pre { cls := 0x40, cause := 3 }
    else if !c.drained then .hold c.pre (.notReady 13)
    else if sync && !(phaseMoved c x k.toNat (barJoined c k.toNat cnt.toNat)) then
      .await (barJoined c k.toNat cnt.toNat) (.bar k.toNat (barOf x k.toNat).phase c.slot)
    else .ok (barJoined c k.toNat cnt.toNat) := by
  unfold barBody
  rw [hx]
  dsimp only
  split
  case h_1 k' ph m hbegan => exact absurd ⟨k', ph, m, hbegan⟩ hb
  case h_2 => rfl

/-- A count fits where no arrival stands, or those that stand have the same count (R272). -/
theorem not_otherCount_of_fits (h : (barOf x k.toNat).arrived = [] ∨ (barOf x k.toNat).count = cnt.toNat) :
    ¬(!(barOf x k.toNat).arrived.isEmpty && decide ((barOf x k.toNat).count ≠ cnt.toNat)) = true := by
  rcases h with h | h <;> simp [h]

section
variable (hx : c.pre.block c.g c.b = some x) (hb : ¬barBegun c)
include hx hb

theorem barBody_accepted (h : barAccepts c x k.toNat cnt.toNat) : barBody sync k cnt c c.pre =
    if sync && !(phaseMoved c x k.toNat (barJoined c k.toNat cnt.toNat)) then
      .await (barJoined c k.toNat cnt.toNat) (.bar k.toNat (barOf x k.toNat).phase c.slot)
    else .ok (barJoined c k.toNat cnt.toNat) := by
  obtain ⟨hk, hcount, hnew, hplain, hdrained⟩ := h
  have hplain : ¬(c.tm.detached && decide (cnt = 0)) = true := by
    simp only [Bool.and_eq_true, decide_eq_true_eq]
    exact fun ⟨hd, hall⟩ => hplain ⟨hd, by rw [hall]; rfl⟩
  rw [barBody_arrives hx hb, if_neg (Nat.not_le.mpr hk), if_neg (not_otherCount_of_fits hcount), if_neg hnew, if_neg hplain, hdrained]
  rfl

theorem barBody_noBarrier (hk : c.gr.lrec.nbar ≤ k.toNat) :
    barBody sync k cnt c c.pre = .fault c.pre { cls := 0x40, cause := 0 } := by
  rw [barBody_arrives hx hb, if_pos hk]

variable (hk : k.toNat < c.gr.lrec.nbar)
include hk

theorem barBody_otherCount (hsome : (barOf x k.toNat).arrived ≠ []) (hcount : (barOf x k.toNat).count ≠ cnt.toNat) :
    barBody sync k cnt c c.pre = .fault c.pre { cls := 0x40, cause := 1 } := by
  have hbad : (!(barOf x k.toNat).arrived.isEmpty && decide ((barOf x k.toNat).count ≠ cnt.toNat)) = true := by
    simp [hsome, hcount]
  rw [barBody_arrives hx hb, if_neg (Nat.not_le.mpr hk), if_pos hbad]

theorem barBody_twice (hcount : (barOf x k.toNat).count = cnt.toNat) (ht : c.t ∈ (barOf x k.toNat).arrived) :
    barBody sync k cnt c c.pre = .fault c.pre { cls := 0x40, cause := 2 } := by
  rw [barBody_arrives hx hb, if_neg (Nat.not_le.mpr hk), if_neg (not_otherCount_of_fits (.inr hcount)), if_pos ht]

theorem barBody_detached (hcount : (barOf x k.toNat).arrived = [] ∨ (barOf x k.toNat).count = cnt.toNat)
    (ht : c.t ∉ (barOf x k.toNat).arrived) (hd : c.tm.detached = true) (hall : cnt = 0) :
    barBody sync k cnt c c.pre = .fault c.pre { cls := 0x40, cause := 3 } := by
  have hbad : (c.tm.detached && decide (cnt = 0)) = true := by simp [hd, hall]
  rw [barBody_arrives hx hb, if_neg (Nat.not_le.mpr hk), if_neg (not_otherCount_of_fits hcount), if_neg ht, if_pos hbad]

end
end

/-! ### The phase (R271) -/

/-- A phase is complete when an arrival stands and all that it counts have arrived: the live launched teams, or as many as its
count says. -/
theorem barComplete_of {s : State} {g b : Nat} {r : Barrier} (hsome : r.arrived ≠ [])
    (hall : r.count = 0 → ∀ t ∈ launchedOf s g b, t ∈ r.arrived) (hcount : r.count ≠ 0 → r.count ≤ r.arrived.length) :
    barComplete s g b r = true := by
  unfold barComplete
  by_cases h : r.count = 0
  · simpa [hsome, h] using hall h
  · simpa [hsome, h] using hcount h

/-- A barrier that is set reads so. -/
theorem barOf_set (y : Blk) (n : Nat) (r : Barrier) : barOf { y with bars := mset y.bars n r } n = r := by
  rw [barOf, mget_mset_self, Option.getD_some]

/-- Settling a barrier whose phase is complete begins the next phase, with none arrived. -/
theorem barSettle_complete {s : State} {g b n : Nat} {x : Blk} (hx : s.block g b = some x)
    (h : barComplete s g b (barOf x n) = true) :
    ∃ y, (barSettle s g b n).block g b = some y ∧ barOf y n = ⟨(barOf x n).phase + 1, 0, []⟩ := by
  refine ⟨{ x with bars := mset x.bars n ⟨(barOf x n).phase + 1, 0, []⟩ }, ?_, barOf_set x n _⟩
  simp only [barSettle, hx, h, if_true]
  rw [State.block, State.bump_blocks]
  exact (State.block_modBlock s g b _).trans (by rw [hx]; rfl)

/-! ### The two members -/

section
variable {k : BitVec 7} {cnt : BitVec 5} {w : Cx → Prop}

/-- What an arrival raises, whether it waits or not, both members raise. -/
theorem raises_bar {f : Cx → FInfo} (hb : ∀ sync c, w c → barBody sync k cnt c c.pre = .fault c.pre (f c)) {i : Instr}
    (hi : i ∈ [Instr.bar k cnt, Instr.barArr k cnt]) : RaisesIf i w f := by
  rcases List.mem_pair.mp hi with rfl | rfl
  · exact raises_of rfl rfl fun c h => hb true c h
  · exact raises_of rfl rfl fun c h => hb false c h

end

/-- Settles O17: an accepted arrival by `barBody_accepted`, each that does not fit by the check that it fails, the phase by
`barSettle_complete`. -/
theorem barriers : Obligations.Barriers := by
  unfold Obligations.Barriers
  intro k cnt x s g b n
  refine ⟨executes_of rfl rfl fun c ⟨hx, hb, hacc⟩ => ⟨barBody_accepted hx hb hacc, rfl⟩,
    executes_of rfl rfl fun c ⟨hx, hb, hacc, hmoved⟩ => ⟨(barBody_accepted hx hb hacc).trans (by rw [hmoved]; rfl), rfl⟩,
    executes_of rfl rfl fun c ⟨hx, hb, hacc, hmoved⟩ => ⟨(barBody_accepted hx hb hacc).trans (by rw [hmoved]; rfl), rfl⟩,
    fun k' ph m => ⟨executes_of rfl rfl fun c ⟨hx, hb, hph⟩ => ⟨barBody_over hx hb hph, rfl⟩,
      executes_of rfl rfl fun c ⟨hx, hb, hph⟩ => ⟨barBody_stillWaits hx hb hph, rfl⟩⟩,
    fun i hi => ⟨raises_bar (fun _ c ⟨hx, hb, hk⟩ => barBody_noBarrier hx hb hk) hi,
      raises_bar (fun _ c ⟨hx, hb, hk, hsome, hcount⟩ => barBody_otherCount hx hb hk hsome hcount) hi,
      raises_bar (fun _ c ⟨hx, hb, hk, hcount, ht⟩ => barBody_twice hx hb hk hcount ht) hi,
      raises_bar (fun _ c ⟨hx, hb, hk, hcount, ht, hd, hall⟩ => barBody_detached hx hb hk hcount ht hd hall) hi⟩,
    fun hx hsome hall hcount => barSettle_complete hx (barComplete_of hsome hall hcount)⟩

end Sys2Proof.Machine
end

/-! ## O20: LAUNCH -/

section
namespace Sys2Proof.Machine

section
variable {c : Cx} {d r p sg : BitVec 5} {s : State}

/-- LAUNCH issued again after the judgement writes the status (R284). -/
theorem bodyLaunch_judged {n : Nat} {status : W64} (hb : c.seq.began = some (.launched n status)) :
    bodyLaunch d r p sg c s = .ok (c.onTeam s fun t => t.setS n status) := by
  simp only [bodyLaunch, hb]

theorem bodyLaunch_tooDeep (hb : c.seq.began = none) (hdepth : 10 ≤ c.gr.depth) :
    bodyLaunch d r p sg c s = .fault c.pre { cls := 0x41 } := by
  simp only [bodyLaunch, hb, if_pos hdepth]

/-- The launch that LAUNCH registers. -/
def memberLaunch (c : Cx) (d r sg : BitVec 5) (segs : List (Nat × Nat)) (params : List W64) : PLaunch :=
  { launcher := .parent c.g, party := some c.p, part := c.gr.part, space := c.gr.space, queue := c.gr.queue
    csn := c.gr.csn, prio := c.gr.prio, depth := c.gr.depth + 1, recAt := c.rdS (.s r)
    raw := some (fwdBytes c.pre.mem c.tm.storeQ segs), params := params, ctxAt := 0, ctx := some c.ctx
    sig := c.rdS (.s sg), dreg := d.toNat }

/-- A state with one launch more that waits to be judged. -/
def launchAdded (s : State) (l : PLaunch) : State :=
  { s with nextId := s.nextId + 1, launches := mset s.launches s.nextId l }

/-- The parameters that stand in the bytes read for them (R283). -/
def launchParams (c : Cx) (segs : List (Nat × Nat)) : List W64 :=
  (List.range 16).map fun i =>
    BitVec.ofNat 64 (bytesNat (((fwdBytes c.pre.mem c.tm.storeQ segs).drop (8 * i)).take 8))

/-- LAUNCH's wait, with its launch registered and the translations of its accesses bound (R284). -/
def launchWaits (c : Cx) (d r sg : BitVec 5) (segs : List (Nat × Nat)) (params : List W64) (bs : List Bind) : MRes :=
  .await (launchAdded (bindAll c.pre bs) (memberLaunch c d r sg segs params)) (.launch (bindAll c.pre bs).nextId d.toNat)

/-- An access that a member makes where its address is not zero leaves its translations, or none. -/
theorem one_unless_zero {acc : Acc} {align n : Nat} {va : W64} {bs' : List Bind} (hzero : va = 0 → bs' = [])
    (hpass : va ≠ 0 → ∃ segs tier, passesAt c acc align va n segs tier bs') (k : List Bind → MRes) (bs : List Bind) :
    (if va = 0 then k bs else c.one acc align va n fun _ _ b => k (bs ++ b)) = k (bs ++ bs') := by
  by_cases h : va = 0
  · rw [if_pos h, hzero h, List.append_nil]
  · obtain ⟨segs, tier, hp⟩ := hpass h
    rw [if_neg h, one_passes hp]

section
variable {segs segs2 : List (Nat × Nat)} {tier tier2 : Nat} {bs bs2 bs3 : List Bind} {params : List W64}

/-- A LAUNCH that passes its checks and reads registers its launch and waits (R283, R284). -/
theorem bodyLaunch_registers (hb : c.seq.began = none) (hdepth : c.gr.depth < 10)
    (hrec : passesAt c .load 64 (c.rdS (.s r)) 320 segs tier bs)
    (hwait : c.loadWaits [teamAcc (c.rdS (.s r)) segs tier] = false)
    (hclean : c.laneBad (teamAcc (c.rdS (.s r)) segs tier) = false)
    (hnone : c.rdS (.s p) = 0 → params = [] ∧ bs2 = [])
    (hparams : c.rdS (.s p) ≠ 0 → passesAt c .load 8 (c.rdS (.s p)) 128 segs2 tier2 bs2 ∧
      c.laneBad (teamAcc (c.rdS (.s p)) segs2 tier2) = false ∧ params = launchParams c segs2)
    (hquiet : c.rdS (.s sg) = 0 → bs3 = [])
    (hsig : c.rdS (.s sg) ≠ 0 → ∃ a b, passesAt c .rmw 8 (c.rdS (.s sg)) 8 a b bs3) (hdrained : c.drained = true) :
    bodyLaunch d r p sg c s = launchWaits c d r sg segs params (bs ++ bs2 ++ bs3) := by
  simp only [bodyLaunch, hb, if_neg (Nat.not_le.mpr hdepth), one_passes hrec, hwait, hclean, hdrained, Bool.not_true,
    Bool.false_eq_true, if_false]
  by_cases hp : c.rdS (.s p) = 0
  · obtain ⟨rfl, rfl⟩ := hnone hp
    rw [if_pos hp, List.append_nil]
    exact one_unless_zero hquiet hsig (launchWaits c d r sg segs []) bs
  · obtain ⟨hpass, hgood, rfl⟩ := hparams hp
    rw [if_neg hp, one_passes hpass, hgood]
    exact one_unless_zero hquiet hsig (launchWaits c d r sg segs (launchParams c segs2)) (bs ++ bs2)

end
end

/-- Settles O20: each clause by what LAUNCH's meaning answers there. -/
theorem gridLaunchMember : Obligations.GridLaunchMember := by
  unfold Obligations.GridLaunchMember
  intro d r p sg segs segs2 tier tier2 bs bs2 bs3 params n status
  exact ⟨executes_of rfl rfl fun c ⟨hb, hdepth, hrec, hwait, hclean, hnone, hparams, hquiet, hsig, hdrained⟩ =>
      ⟨bodyLaunch_registers hb hdepth hrec hwait hclean hnone hparams hquiet hsig hdrained, rfl⟩,
    executes_of rfl rfl fun c hb => ⟨bodyLaunch_judged hb, rfl⟩,
    raises_of rfl rfl fun c ⟨hb, hdepth⟩ => bodyLaunch_tooDeep hb hdepth⟩

end Sys2Proof.Machine
end

/-! ## O54: the state after reset -/

section
namespace Sys2Proof.Machine

theorem reset_cores_stopped {n : Nat} (h : n < 8) : (mget State.reset.cpcs n).map (·.stopped) = some true := by
  have hall : ∀ k < 8, (mget State.reset.cpcs k).map (·.stopped) = some true := by decide
  exact hall n h

/-- With a free turn, as after reset, a step lets time pass. -/
theorem step_of_free {s : State} (h : s.turn = .free) : step s = .next (choose s) := if_pos h

/-- Settles O54: the fields of the reset state are literals; a first step chooses who moves. -/
theorem resetState : Obligations.ResetState := by
  unfold Obligations.ResetState
  exact ⟨rfl, rfl, rfl, rfl, rfl, rfl, rfl, rfl, rfl, fun _ => rfl, fun _ => reset_cores_stopped, fun _ => rfl, _, step_of_free rfl⟩

end Sys2Proof.Machine
end

/-! ## O33: commands that change registers only -/

section
namespace Sys2Proof.Machine

/-- A command that only changes the image completes with it. -/
theorem simply_turn {s : State} {q : Nat} {x : Queue} {j : JImg} (hq : queueTurn s q x j) (f : JImg → JImg) :
    simply s f = cmdEnds s q (f j) := by
  rw [simply, withQueue_turn hq]
  rfl

/-- Settles O33: each command is `simply` its change of the image. -/
theorem queueRegisters : Obligations.QueueRegisters := by
  unfold Obligations.QueueRegisters
  intro s q x j a b c imm top hq
  exact ⟨simply_turn hq _, simply_turn hq _, simply_turn hq _, simply_turn hq _, simply_turn hq _⟩

end Sys2Proof.Machine
end

/-! ## O35: branches, loops, buffers and waits of queues -/

section
namespace Sys2Proof.Machine

section
variable {s t : State} {q : Nat} {x : Queue} {j : JImg} {imm : BitVec 44} {a b c : BitVec 4}

/-! ### Where a branch leads (R360) -/

section
variable (hring : j.depth = 0)
include hring

/-- In the ring a branch leads forward. -/
theorem takeBranch_forward (h : 1 ≤ imm.toInt) :
    takeBranch s q j imm = .next (completeCommand s q (movePos j imm.toInt)) := by
  simp only [takeBranch, branchTo, topBuffer, if_pos hring, if_pos h]

theorem takeBranch_backward (h : imm.toInt < 1) : takeBranch s q j imm = .next (coreFault s q 3) := by
  simp only [takeBranch, branchTo, topBuffer, if_pos hring, if_neg (not_le.mpr h)]

end

/-- In a buffer a branch stays inside it. -/
theorem takeBranch_buffer {e : W64 × W32 × W32} (h : topBuffer j = some e) : takeBranch s q j imm =
    if 0 ≤ (e.2.2.toNat : Int) + imm.toInt ∧ (e.2.2.toNat : Int) + imm.toInt < e.2.1.toNat
      then .next (completeCommand s q (movePos j imm.toInt)) else .next (coreFault s q 3) := by
  simp only [takeBranch, branchTo, h]
  split_ifs <;> rfl

/-! ### The commands (R360, R361) -/

section
variable (hq : queueTurn s q x j)
include hq

theorem exec_br : exec (.br a b c imm) s =
    if waitCond c.toNat 8 (j.reg a.toNat).toNat (j.reg b.toNat).toNat = true then takeBranch s q j imm else cmdEnds s q j :=
  withQueue_turn hq _

theorem exec_dloop : exec (.dloop a imm) s =
    if j.reg a.toNat = 0 then cmdEnds s q j else takeBranch s q (j.setReg a.toNat (j.reg a.toNat - 1)) imm :=
  withQueue_turn hq _

theorem exec_calli : exec (.calli a b) s =
    if j.reg b.toNat = 0 then cmdEnds s q j
    else if 8 ≤ j.depth then .next (coreFault s q 2)
    else if (j.reg a.toNat).toNat % 8 ≠ 0 then .next (coreFault s q 5)
    else .next (completeCommand s q { j with
      bstack := j.bstack.set j.depth (j.reg a.toNat, (j.reg b.toNat).setWidth 32, 0), depth := j.depth + 1 }) :=
  withQueue_turn hq _

theorem exec_reti : exec .reti s =
    if j.depth = 0 then .next (coreFault s q 1) else .next (completeCommand s q (leaveBuffer j)) :=
  withQueue_turn hq _

/-- A wait whose word has been read completes or is armed. -/
theorem exec_wait {o : W64} (h : readWaited s x (j.reg a.toNat) (j.reg b.toNat) c.toNat = .done o t) :
    exec (.wait a b c) s =
      if waitCond c.toNat 8 o.toNat (j.reg b.toNat).toNat = true then cmdEnds t q j
      else .next (armWait t q j ⟨j.reg a.toNat, j.reg b.toNat, c, t.clk + 4096⟩) := by
  show execWait a b c s = _
  simp only [execWait, withQueue_turn hq, h]
  rfl

end

/-! ### Reading the word of a wait (R329, R361) -/

theorem readNat_lt (m : Memory) (a n : Nat) : readNat m a n < 256 ^ n := by
  induction n generalizing a with
  | zero => exact Nat.one_pos
  | succ n ih =>
    have hbyte := (byteAt m a).isLt
    have hrest := ih (a + 1)
    rw [readNat, Nat.pow_succ]
    omega

/-- An eight-byte word reads as a word of 64 bits. -/
theorem toNat_readNat_eight (m : Memory) (a : Nat) : (BitVec.ofNat 64 (readNat m a 8)).toNat = readNat m a 8 :=
  BitVec.toNat_ofNat _ 64 |>.trans (Nat.mod_eq_of_lt (readNat_lt m a 8))

/-- The waiting core hears the signal's clock where the condition holds. -/
theorem readWaited_passes {va v : W64} {cond key tier : Nat} (h : qPasses s x .load va key tier t) :
    readWaited s x va v cond = .done (BitVec.ofNat 64 (readNat t.mem key 8))
      (if waitCond cond 8 (BitVec.ofNat 64 (readNat t.mem key 8)).toNat v.toNat = true
        then hearSignal t (0x3000 + x.core) key else t) := by
  rw [toNat_readNat_eight]
  exact qWord_passes h _

/-! ### The image that a journal write leaves (R374, R416) -/

@[simp] theorem Queue.newest_write (x : Queue) (j : JImg) : (x.write j).newest = some j := by
  unfold Queue.write
  split_ifs <;> rfl

@[simp] theorem Queue.img_write (x : Queue) (j : JImg) : (x.write j).img = j := by rw [Queue.img, newest_write, Option.getD_some]

@[simp] theorem Queue.armed_write (x : Queue) (j : JImg) : (x.write j).armed = x.armed := by
  unfold Queue.write
  split_ifs <;> rfl

section
variable (hserved : unserved x.img = false)
include hserved

/-- A journal write of a queue that is served. -/
theorem Queue.journal_running (h : x.stopReq = false) : x.journal j = x.write j := by
  simp only [Queue.journal, hserved, h, Bool.false_eq_true, if_false]

/-- A stop request puts state 5 in the image's place. -/
theorem Queue.journal_stopping (h : x.stopReq = true) :
    x.journal j = { x.write { j with state := 5 } with stopReq := false } := by
  simp only [Queue.journal, hserved, h, Bool.false_eq_true, if_false, if_true]

end

theorem Queue.img_journal_stopping (hserved : unserved x.img = false) (h : x.stopReq = true) :
    (x.journal j).img = { j with state := 5 } := by
  rw [journal_stopping hserved h]
  exact img_write x _

/-! ### What an armed wait and a fault leave (R361, R362, R371, R416) -/

section
variable (hx : mget s.queues q = some x)
include hx

theorem armWait_queue (w : Armed) : mget (armWait s q j w).queues q = some (
    let y := x.journal { j with state := 3 }
    if y.img.state = 3 then { y with armed := some w } else y) := by
  rw [armWait, State.modQueue_queues, mget_mmod_self, hx, Option.map_some]

theorem kjournal_queue (j : JImg) : mget (kjournal s q j).queues q = some (x.journal j) := by
  have hmod : mget (s.modQueue q fun y => y.journal j).queues q = some (x.journal j) := by
    rw [State.modQueue_queues, mget_mmod_self, hx, Option.map_some]
  unfold kjournal
  rw [hx]
  dsimp only
  split_ifs
  · obtain ⟨v, o, h⟩ := raiseQueue_shape (s.modQueue q fun y => y.journal j) q
    rw [h, hmod]
  · exact hmod

theorem coreFault_queue (n : Nat) : mget (coreFault s q n).queues q =
    some (x.journal { x.img with state := 4, fault := BitVec.ofNat 8 n }) := by
  rw [coreFault, hx]
  exact kjournal_queue hx _

end

section
variable (hx : mget s.queues q = some x) (hserved : unserved x.img = false)
include hx hserved

/-- A wait is armed in state 3, unless a stop is requested: the queue stops then, in state 5. -/
theorem armWait_state (w : Armed) : ∃ y, mget (armWait s q j w).queues q = some y ∧
    (x.stopReq = false → y.img = { j with state := 3 } ∧ y.armed = some w) ∧
    (x.stopReq = true → y.img = { j with state := 5 } ∧ y.armed = x.armed ∧ y.stopReq = false) := by
  rw [armWait_queue hx]
  cases hstop : x.stopReq with
  | false =>
    rw [Queue.journal_running hserved hstop]
    refine ⟨_, rfl, fun _ => ?_, by simp⟩
    simp only [Queue.img_write, if_true]
    exact ⟨Queue.img_write x _, trivial⟩
  | true =>
    rw [Queue.journal_stopping hserved hstop]
    refine ⟨_, rfl, by simp, fun _ => ?_⟩
    have himg : Queue.img { x.write { j with state := 5 } with stopReq := false } = { j with state := 5 } := Queue.img_write x _
    simp only [himg, show (5 : BitVec 4) ≠ 3 by decide, if_false]
    exact ⟨trivial, Queue.armed_write x _, trivial⟩

/-- A fault that the core writes leaves state 4 and its code, unless a stop is requested: state 5 then. -/
theorem coreFault_state (n : Nat) : ∃ y, mget (coreFault s q n).queues q = some y ∧
    (x.stopReq = false → y.img = { x.img with state := 4, fault := BitVec.ofNat 8 n }) ∧
    (x.stopReq = true → y.img = { x.img with state := 5, fault := BitVec.ofNat 8 n } ∧ y.stopReq = false) := by
  rw [coreFault_queue hx]
  cases hstop : x.stopReq with
  | false => exact ⟨_, rfl, fun _ => by rw [Queue.journal_running hserved hstop, Queue.img_write], by simp⟩
  | true =>
    rw [Queue.journal_stopping hserved hstop]
    exact ⟨_, rfl, by simp, fun _ => ⟨Queue.img_write x _, rfl⟩⟩

end

/-! ### Events of an armed wait (R361) -/

section
variable {w : Armed} (hx : mget s.queues q = some x) (harmed : x.armed = some w)
include hx harmed

theorem exec_queueWaitWake (hholds : armedHolds s x w false = true) : exec (.queueWaitWake q) s =
    .next ((s.modQueue q fun x => { x with armed := none }).roll q) := by
  show execQueueWaitWake q s = _
  rw [execQueueWaitWake, hx, Option.bind_some, harmed, Option.bind_some, if_pos hholds, happens]

theorem exec_queueWaitPeriodic (hdue : w.due ≤ s.clk) : exec (.queueWaitPeriodic q) s = .next (
    if armedHolds s x w true = true then (s.modQueue q fun x => { x with armed := none }).roll q
    else s.modQueue q fun x => { x with armed := some { w with due := s.clk + 4096 } }) := by
  show execQueueWaitPeriodic q s = _
  rw [execQueueWaitPeriodic, hx, Option.bind_some, harmed, Option.bind_some, if_neg (not_lt.mpr hdue)]
  split_ifs <;> rfl

end
end

/-- Settles O35: each command by what its branch or its word decides; what a journal write leaves tells the states. -/
theorem queueFlow : Obligations.QueueFlow := by
  unfold Obligations.QueueFlow
  intro s t q key tier x j a b c imm w
  refine ⟨fun hq => ⟨fun h => ?notTaken, fun h hring hfwd => ?forward, fun h hring hback => ?backward, fun e h he => ?buffer,
    fun h => ?loopEnds, fun h hring hfwd => ?loopForward, fun h hring hback => ?loopBackward, fun h => ?emptyBuffer,
    fun h hdepth halign => ?enters, fun h hdepth => ?tooDeep, fun h => ?leaves, fun h => ?noBuffer,
    fun hp h => ?waitHolds, fun hp h => ?waitArms⟩,
    fun hx hserved => ⟨armWait_state hx hserved w, coreFault_state hx hserved⟩, exec_queueWaitWake,
    fun hx harmed h hdue => ?periodicHolds, fun hx harmed h hdue => ?periodicWaits⟩
  case notTaken => rw [exec_br hq, h, if_neg Bool.false_ne_true]
  case forward => rw [exec_br hq, if_pos h, takeBranch_forward hring hfwd]
  case backward => rw [exec_br hq, if_pos h, takeBranch_backward hring hback]
  case buffer => rw [exec_br hq, if_pos h, takeBranch_buffer he]
  case loopEnds => rw [exec_dloop hq, if_pos h]
  case loopForward => exact (exec_dloop hq).trans ((if_neg h).trans (takeBranch_forward (j := j.setReg a.toNat _) hring hfwd))
  case loopBackward => exact (exec_dloop hq).trans ((if_neg h).trans (takeBranch_backward (j := j.setReg a.toNat _) hring hback))
  case emptyBuffer => rw [exec_calli hq, if_pos h]
  case enters => rw [exec_calli hq, if_neg h, if_neg (not_le.mpr hdepth), if_neg (not_not_intro halign)]
  case tooDeep => rw [exec_calli hq, if_neg h, if_pos hdepth]
  case leaves => rw [exec_reti hq, if_neg h]
  case noBuffer => rw [exec_reti hq, if_pos h]
  case waitHolds => rw [exec_wait hq (readWaited_passes hp), if_pos h, if_pos h]
  case waitArms =>
    have hnot := ne_true_of_eq_false h
    rw [exec_wait hq (readWaited_passes hp), if_neg hnot, if_neg hnot]
  case periodicHolds => rw [exec_queueWaitPeriodic hx harmed hdue, if_pos h]
  case periodicWaits => rw [exec_queueWaitPeriodic hx harmed hdue, h, if_neg Bool.false_ne_true]

end Sys2Proof.Machine
end

/-! ## O37: the portal and the host's writes of a queue's state -/

section
namespace Sys2Proof.Machine

/-- A queue whose host resumes it where its image j stands: what told its fault leaves the window. -/
def Queue.resumed (j : JImg) (y : Queue) : Queue :=
  { y.write { j with state := 2, fault := 0 } with window := y.window.filter fun e => !(e.2.getLsbD 63) }

theorem Queue.img_resumed (j : JImg) (y : Queue) : (y.resumed j).img = { j with state := 2, fault := 0 } := img_write y _

section
variable {s : State} {q : Nat} {x : Queue} {cmds : List W64} (hx : mget s.queues q = some x)
include hx

/-! ### The portal (R355) -/

/-- The state with a portal packet in the ring of a queue. -/
def ringed (s : State) (q : Nat) (x : Queue) (cmds : List W64) : State :=
  State.roll (State.modQueue { s with
    mem := cmds.zipIdx.foldl (fun m e =>
      writeNat m (memKey 0 (x.ring + 8 * ((x.wptr.toNat + e.2) % x.size))) 8 e.1.toNat) s.mem } q
    fun x => { x with wptr := x.wptr + 8 }) q

theorem exec_portalKick (hlen : cmds.length = 8) : exec (.portalKick q cmds) s = .next (
    if !(s.reg.isReady) ∨ x.disabled ∨ x.img.state = 0 ∨ (x.size : Int) - (x.wptr - x.img.rptr.setWidth 32).toInt < 8
      then s.modQueue q fun x => { x with retries := x.retries + 1 } else ringed s q x cmds) := by
  show execPortalKick q cmds s = _
  rw [execPortalKick, hx, Option.bind_some, if_neg (not_not_intro hlen)]
  dsimp only
  split_ifs <;> rfl

/-! ### Writes of a state (R356, R416) -/

theorem exec_queueStateResume : exec (.queueStateResume q) s = .next (State.roll (
    if x.img.state = 4 ∨ x.img.state = 5 then s.modQueue q (Queue.resumed x.img) else s) q) := by
  show execQueueStateResume q s = _
  rw [execQueueStateResume, hx]
  rfl

theorem exec_queueStateStop : exec (.queueStateStop q) s = .next (State.roll (
    if x.img.state = 1 then s.modQueue q fun y => y.write { x.img with state := 5 }
    else if x.img.state = 2 ∨ x.img.state = 3 then s.modQueue q fun y => { y with stopReq := true } else s) q) := by
  show execQueueStateStop q s = _
  rw [execQueueStateStop, hx]
  rfl

theorem exec_portalWriteDiscarded :
    exec (.portalWriteDiscarded q) s = .next (s.modQueue q fun x => { x with dropped := x.dropped + 1 }) := by
  show execPortalWriteDiscarded q s = _
  rw [execPortalWriteDiscarded, hx]
  rfl

/-- The image of a queue after its reset. -/
def JImg.resetAt (j : JImg) (wptr : W32) : JImg :=
  { j with rptr := wptr.setWidth 64, depth := 0, fault := 0, state := 1, bstack := List.replicate 8 (0, 0, 0) }

/-- The grids that a queue has retained. -/
def retainedOf (s : State) (q : Nat) : List Nat :=
  (s.grids.filter fun e => decide (e.2.queue = q ∧ e.2.status = .retained ∧ e.2.depth = 1)).map (·.1)

/-- The state with a queue reset whose image was j. -/
def queueCleared (s : State) (q : Nat) (j : JImg) : State :=
  (s.modQueue q fun y => { y with begun := none }).modQueue q fun y => { y.write (j.resetAt y.wptr) with
    armed := none, window := y.window.filter fun e => !(e.2.getLsbD 63) }

theorem exec_queueStateReset : exec (.queueStateReset q) s = .next (
    if x.img.state = 4 ∨ x.img.state = 5 then ((retainedOf s q).foldl releaseTree (queueCleared s q x.img)).roll q
    else s.roll q) := by
  show execQueueStateReset q s = _
  rw [execQueueStateReset, hx, Option.map_some, happens]
  rfl

theorem queueCleared_img (j : JImg) : ∃ y, mget (queueCleared s q j).queues q = some y ∧ y.img = j.resetAt x.wptr := by
  simp only [queueCleared, State.modQueue_queues, mmod_mmod, mget_mmod_self, hx, Option.map_some]
  exact ⟨_, rfl, Queue.img_write { x with begun := none } _⟩

end

theorem retainedOf_eq_nil {s : State} {q : Nat}
    (h : ∀ e ∈ s.grids, ¬(e.2.queue = q ∧ e.2.status = .retained ∧ e.2.depth = 1)) : retainedOf s q = [] := by
  rw [retainedOf, List.filter_eq_nil_iff.mpr fun e he => by simpa using h e he, List.map_nil]

/-- A queue's own roll-call bit is set, where the roll call has one. -/
theorem roll_bit (s : State) (q : Nat) : (s.roll q).rollcall.getLsbD q = decide (q < 1024) := by
  have htwo : (BitVec.ofNat 1024 (2 ^ q)).getLsbD q = decide (q < 1024) := by
    rw [BitVec.getLsbD_ofNat, Nat.testBit_two_pow_self, Bool.and_true]
  rw [State.roll, BitVec.getLsbD_or, htwo]
  by_cases h : q < 1024
  · simp [h]
  · simp [h, BitVec.getLsbD_of_ge _ _ (not_lt.mp h)]

/-- Settles O37: the portal's packet by the room it finds, each write of a state by the state it finds. -/
theorem portalAndQueueState : Obligations.PortalAndQueueState := by
  unfold Obligations.PortalAndQueueState
  intro s q x cmds hx
  refine ⟨fun hlen hready hopen hstate hroom => ?enters, fun hlen h => ?retry, exec_portalWriteDiscarded hx,
    fun h => ⟨?resumes, fun hnone => ?resets⟩, fun h4 h5 => ⟨?resumeIdle, ?resetIdle⟩, fun h => ?stopsIdle, fun h => ?stopsRunning⟩
  case enters =>
    have hfull : ¬((!s.reg.isReady) = true ∨ x.disabled = true ∨ x.img.state = 0 ∨
        (x.size : Int) - (x.wptr - x.img.rptr.setWidth 32).toInt < 8) := by
      rw [hready, hopen]
      simp only [Bool.not_true, Bool.false_eq_true, false_or, not_or, not_lt]
      exact ⟨hstate, hroom⟩
    rw [exec_portalKick hx hlen, if_neg hfull]
    rfl
  case retry => rw [exec_portalKick hx hlen, if_pos (by simpa using h)]
  case resumes =>
    have hqueue : mget ((s.modQueue q (Queue.resumed x.img)).roll q).queues q = some (x.resumed x.img) := by
      rw [State.roll_queues, State.modQueue_queues, mget_mmod_self, hx, Option.map_some]
    rw [exec_queueStateResume hx, if_pos h]
    exact ⟨_, _, rfl, hqueue, Queue.img_resumed _ _, rfl, roll_bit _ q⟩
  case resets =>
    obtain ⟨y, hy, himg⟩ := queueCleared_img hx x.img
    exact ⟨_, y, exec_queueStateReset hx, by rw [if_pos h, retainedOf_eq_nil hnone]; exact hy, himg⟩
  case resumeIdle => rw [exec_queueStateResume hx, if_neg (not_or_intro h4 h5)]
  case resetIdle => rw [exec_queueStateReset hx, if_neg (not_or_intro h4 h5)]
  case stopsIdle => rw [exec_queueStateStop hx, if_pos h]
  case stopsRunning =>
    have hidle : x.img.state ≠ 1 := by rcases h with h | h <;> rw [h] <;> decide
    rw [exec_queueStateStop hx, if_neg hidle, if_pos h]

end Sys2Proof.Machine
end

/-! ## O36: launches of queues -/

section
namespace Sys2Proof.Machine

section
variable {s t : State} {q : Nat} {x : Queue} {j : JImg} {a b c d : BitVec 4} {prio : BitVec 2}

/-! ### launch (R364, R373) -/

/-- A launch of no party that can be accepted is, and its launcher has status 0. -/
theorem tryLaunch_go {id : Nat} {pl : PLaunch} {l : LaunchRec} {new : Option Ctx} {brks : List Brkpt} {stop : Bool}
    (hup : s.reg.isDown = false) (hpl : mget s.launches id = some pl) (hparty : pl.party = none)
    (h : judge s id pl = .go l new brks stop t) :
    tryLaunch s id = some (giveStatus (acceptGrid t id pl l new brks stop) pl id 0) := by
  have hparent (z : State) : tellParent z id pl = z := by rw [tellParent, hparty]
  rw [tryLaunch, hup, if_neg Bool.false_ne_true, hpl, Option.bind_some, h]
  exact congrArg (fun z => some (giveStatus z pl id 0)) (hparent _)

theorem tryLaunch_refused {id : Nat} {pl : PLaunch} {st : W32} (hup : s.reg.isDown = false)
    (hpl : mget s.launches id = some pl) (h : judge s id pl = .refused st t) :
    tryLaunch s id = some (giveStatus t pl id st) := by
  rw [tryLaunch, hup, if_neg Bool.false_ne_true, hpl, Option.bind_some, h]

section
variable (hq : queueTurn s q x j)
include hq

/-- A launch whose result stands in the dispatch window is not performed again. -/
theorem exec_cmdLaunch_again {e : W64 × W64} (he : x.window.find? (fun e => decide (e.1 = j.csn)) = some e) :
    exec (.cmdLaunch a b c d prio) s = cmdEnds s q (j.setReg d.toNat e.2) := by
  show execCmdLaunch a b c d prio s = _
  simp only [execCmdLaunch, withQueue_turn hq, he]
  rfl

/-- A launch is asked for, and judged at once where it can be. -/
theorem exec_cmdLaunch_asks (hd : undispatched x j) (hfree : ∀ p ∈ s.launches, p.2.launcher ≠ .queue q) :
    exec (.cmdLaunch a b c d prio) s = .next ((tryLaunch (asking s (launchAsked q x j a b c d prio)) s.nextId).getD
      (asking s (launchAsked q x j a b c d prio))) := by
  have hnone : (s.launches.any fun e => decide (e.2.launcher = .queue q)) = false :=
    List.any_eq_false.mpr fun e he => by simp [hfree e he]
  show execCmdLaunch a b c d prio s = _
  simp only [execCmdLaunch, withQueue_turn hq, show x.window.find? _ = none from hd, hnone, Bool.false_eq_true, if_false]
  rfl

end

theorem mget_launches_asking (s : State) (pl : PLaunch) : mget (asking s pl).launches s.nextId = some pl := mget_mset_self _ _ _

/-! ### launchg (R367, R368) -/

/-- What a timetable's own signal is checked as. -/
def tableAsked (q : Nat) (x : Queue) (csn sig : W64) : PLaunch :=
  { launcher := .queue q, party := none, part := x.part, space := x.space, queue := q, csn := csn, prio := 0, depth := 1
    recAt := 0, raw := none, params := [], ctxAt := 0, ctx := none, sig := sig, dreg := 0 }

section
variable {csn va sig : W64} {segs : List (Nat × Nat)} {tier : Nat} (hroom : s.tables.length < 16)
  (hread : qRange s x.part x.space .load va 64 = .ok segs tier t) (hclean : segsPoisoned t segs = false)
include hroom hread hclean

/-- A header with a reserved bit set, of no nodes or of more than 1,024 is refused with reason 10. -/
theorem doLaunchg_badHeader (h : 2 ^ 11 ≤ bytesNat (readSegs t.mem segs) ∨ bytesNat (readSegs t.mem segs) % 2 ^ 11 = 0 ∨
    1024 < bytesNat (readSegs t.mem segs) % 2 ^ 11) : doLaunchg s q x csn va sig = .done 10 t := by
  simp only [doLaunchg, if_neg (not_le.mpr hroom), hread, hclean, if_pos h, Bool.false_eq_true, if_false]

section
variable {n : Nat} (hn : bytesNat (readSegs t.mem segs) = n) (hlo : 1 ≤ n) (hhi : n ≤ 1024)
include hn hlo hhi

/-- A timetable whose nodes cannot be read is refused with reason 9. -/
theorem doLaunchg_unreadable {cls : Nat} {u : State} (h : readNodes x n (va + 64) [] t = .refused cls u) :
    doLaunchg s q x csn va sig = .done (BitVec.ofNat 64 (9 + 256 * cls)) u := by
  have hmod : n % 2 ^ 11 = n := by omega
  have hgood : ¬(2 ^ 11 ≤ n ∨ n = 0 ∨ 1024 < n) := by omega
  simp only [doLaunchg, if_neg (not_le.mpr hroom), hread, hclean, hn, hmod, if_neg hgood, h, Bool.false_eq_true, if_false]

section
variable {raw : List Nat} {u : State} (hnodes : readNodes x n (va + 64) [] t = .nodes raw u)
  (hraw : raw.any nodeBad = false) (htable : tableBad (raw.map parseNode) = false)
include hnodes hraw htable

/-- One whose signal cannot be written is refused with reason 11. -/
theorem doLaunchg_badSignal {cls : Nat} (h : signalBad u (tableAsked q x csn sig) = .bad cls) :
    doLaunchg s q x csn va sig = .done (BitVec.ofNat 64 (11 + 256 * cls)) u := by
  have hmod : n % 2 ^ 11 = n := by omega
  have hgood : ¬(2 ^ 11 ≤ n ∨ n = 0 ∨ 1024 < n) := by omega
  rw [tableAsked] at h
  simp only [doLaunchg, if_neg (not_le.mpr hroom), hread, hclean, hn, hmod, if_neg hgood, hnodes, hraw, htable, h,
    Bool.or_self, Bool.false_eq_true, if_false]

/-- Another is resident, and its nodes without predecessors are launched. -/
theorem doLaunchg_resident {r v : State} (h : signalBad u (tableAsked q x csn sig) = .good r)
    (hv : v = { r.fresh.2 with tables := mset r.tables r.fresh.1 ⟨q, csn, sig, raw.map parseNode, 0⟩ }) :
    doLaunchg s q x csn va sig = .done 0 (((List.range n).filter fun i =>
      decide ((((raw.map parseNode)[i]?).map (·.left)).getD 1 = 0)).foldl (fun s i => launchNode s r.fresh.1 i) v) := by
  have hmod : n % 2 ^ 11 = n := by omega
  have hgood : ¬(2 ^ 11 ≤ n ∨ n = 0 ∨ 1024 < n) := by omega
  subst hv
  rw [tableAsked] at h
  simp only [doLaunchg, if_neg (not_le.mpr hroom), hread, hclean, hn, hmod, if_neg hgood, hnodes, hraw, htable, h,
    Bool.or_self, Bool.false_eq_true, if_false]
  rfl

end
end
end
end

theorem exec_launchg (a b d : BitVec 4) (s : State) : exec (.launchg a b d) s =
    dispatched s (fun q x j => doLaunchg s q x j.csn (j.reg a.toNat) (j.reg b.toNat)) fun v j => j.setReg d.toNat v := rfl

/-- Settles O36: a launch goes by its verdict, launchg by its header, its nodes and its signal in turn. -/
theorem queueLaunches : Obligations.QueueLaunches := by
  unfold Obligations.QueueLaunches
  intro s t q tier x j a b c d prio l new brks stop st e segs hq
  refine ⟨fun hd hup hfree h => ?goes, fun hd hup hfree h => ?refused,
    fun he => ⟨exec_cmdLaunch_again hq he, (exec_launchg a b d s).trans (dispatched_again _ hq he)⟩,
    fun hd hroom hread hclean h =>
      (exec_launchg a b d s).trans (dispatched_done _ hq hd (doLaunchg_badHeader hroom hread hclean h)),
    fun n cls u hd hroom hread hclean hn hlo hhi h =>
      (exec_launchg a b d s).trans (dispatched_done _ hq hd (doLaunchg_unreadable hroom hread hclean hn hlo hhi h)),
    fun n raw u v pl hd hroom hread hclean hn hlo hhi hnodes hraw htable hpl => ?timetable⟩
  case timetable =>
    obtain rfl : pl = tableAsked q x j.csn (j.reg b.toNat) := hpl
    exact ⟨fun c h => (exec_launchg a b d s).trans (dispatched_done _ hq hd
        (doLaunchg_badSignal hroom hread hclean hn hlo hhi hnodes hraw htable h)),
      fun r h hv => (exec_launchg a b d s).trans (dispatched_done _ hq hd
        (doLaunchg_resident hroom hread hclean hn hlo hhi hnodes hraw htable h hv))⟩
  case goes => rw [exec_cmdLaunch_asks hq hd hfree, tryLaunch_go (s := asking s _) hup (mget_launches_asking s _) rfl h, Option.getD_some]
  case refused => rw [exec_cmdLaunch_asks hq hd hfree, tryLaunch_refused (s := asking s _) hup (mget_launches_asking s _) h, Option.getD_some]

end Sys2Proof.Machine
end

/-! ## O41: the Xnov instructions -/

section
namespace Sys2Proof.Machine

section
variable {s t : State} {n q : Nat} {x : Cpc} {y : Queue} {j : JImg} {rs2 rs1 rd : BitVec 5}

/-! ### How an instruction of the turn's core ends (R371, R372) -/

section
variable (hturn : cpcTurn s n x) {f : Nat → Cpc → W64 → W64 → XRes}
include hturn

theorem xnov_ok {v : W64} (h : f n x (x.get rs1.toNat) (x.get rs2.toNat) = .ok v t) :
    xnov rs2 rs1 rd s f = .next (xnovDone t n rd v) := by
  rw [xnov, withCpc_of_cpcTurn hturn, h]
  rfl

theorem xnov_trap {c : Nat} {v : W64} (h : f n x (x.get rs1.toNat) (x.get rs2.toNat) = .trap c v) :
    xnov rs2 rs1 rd s f = .next (s.modCpc n fun z => z.trap c v) := by
  rw [xnov, withCpc_of_cpcTurn hturn, h]

theorem xnov_trapIn {c : Nat} {v : W64} (h : f n x (x.get rs1.toNat) (x.get rs2.toNat) = .trapIn c v t) :
    xnov rs2 rs1 rd s f = .next (t.modCpc n fun z => z.trap c v) := by
  rw [xnov, withCpc_of_cpcTurn hturn, h]

end

/-! ### The queue that an instruction names (R372) -/

/-- A core owns the queue that a register names. -/
def owns (s : State) (n : Nat) (a : W64) (q : Nat) (y : Queue) : Prop :=
  a.toNat = q ∧ q < 1024 ∧ mget s.queues q = some y ∧ y.core = n

theorem owned_of_owns {a : W64} (h : owns s n a q y) (f : Nat → Queue → XRes) : owned s n a f = f q y := by
  obtain ⟨rfl, hlt, hy, hcore⟩ := h
  simp only [owned, hy, hlt, hcore, and_self, if_true]

theorem owned_other {a : W64} (h : ∀ z, mget s.queues a.toNat = some z → a.toNat < 1024 → z.core ≠ n)
    (f : Nat → Queue → XRes) : owned s n a f = .trap 24 a := by
  unfold owned
  cases hq : mget s.queues a.toNat with
  | none => rfl
  | some z => exact if_neg fun hown => h z hq hown.1 hown.2

/-! ### kbfx and kroll -/

section
variable (hturn : cpcTurn s n x)
include hturn

section
variable {p k : Nat} (hp : p = ((x.get rs2.toNat).extractLsb' 0 6).toNat)
  (hk : k = if ((x.get rs2.toNat).extractLsb' 6 6).toNat = 0 then 64 else ((x.get rs2.toNat).extractLsb' 6 6).toNat)
include hp hk

theorem exec_kbfx_fits (h : p + k ≤ 64) : exec (.kbfx rs2 rs1 rd) s =
    .next (xnovDone s n rd (BitVec.ofNat 64 ((x.get rs1.toNat).toNat / 2 ^ p % 2 ^ k))) := by
  subst hp hk
  show execKbfx rs2 rs1 rd s = _
  rw [execKbfx]
  refine xnov_ok hturn ?_
  exact if_neg (not_lt.mpr h)

theorem exec_kbfx_passes (h : 64 < p + k) :
    exec (.kbfx rs2 rs1 rd) s = .next (s.modCpc n fun z => z.trap 25 (x.get rs2.toNat)) := by
  subst hp hk
  show execKbfx rs2 rs1 rd s = _
  rw [execKbfx]
  refine xnov_trap hturn ?_
  exact if_pos h

end

theorem exec_kroll_reads (h : (x.get rs1.toNat).toNat ≤ 15) : exec (.kroll rs2 rs1 rd) s =
    .next (xnovDone (takeRoll s n (x.get rs1.toNat).toNat).2 n rd (takeRoll s n (x.get rs1.toNat).toNat).1) := by
  show execKroll rs2 rs1 rd s = _
  rw [execKroll]
  refine xnov_ok hturn ?_
  exact if_neg (not_lt.mpr h)

theorem exec_kroll_passes (h : 15 < (x.get rs1.toNat).toNat) :
    exec (.kroll rs2 rs1 rd) s = .next (s.modCpc n fun z => z.trap 24 (x.get rs1.toNat)) := by
  show execKroll rs2 rs1 rd s = _
  rw [execKroll]
  refine xnov_trap hturn ?_
  exact if_pos h

end

/-! ### On a queue that the core owns -/

section
variable (hturn : cpcTurn s n x) (howns : owns s n (x.get rs1.toNat) q y)
  {f : Nat → Cpc → W64 → W64 → Nat → Queue → XRes}
include hturn howns

theorem owned_ok {v : W64} (h : f n x (x.get rs1.toNat) (x.get rs2.toNat) q y = .ok v t) :
    (xnov rs2 rs1 rd s fun n x a b => owned s n a (f n x a b)) = .next (xnovDone t n rd v) :=
  xnov_ok hturn ((owned_of_owns howns _).trans h)

theorem owned_trap {c : Nat} {v : W64} (h : f n x (x.get rs1.toNat) (x.get rs2.toNat) q y = .trap c v) :
    (xnov rs2 rs1 rd s fun n x a b => owned s n a (f n x a b)) = .next (s.modCpc n fun z => z.trap c v) :=
  xnov_trap hturn ((owned_of_owns howns _).trans h)

theorem owned_trapIn {c : Nat} {v : W64} (h : f n x (x.get rs1.toNat) (x.get rs2.toNat) q y = .trapIn c v t) :
    (xnov rs2 rs1 rd s fun n x a b => owned s n a (f n x a b)) = .next (t.modCpc n fun z => z.trap c v) :=
  xnov_trapIn hturn ((owned_of_owns howns _).trans h)

end

section
variable (hturn : cpcTurn s n x) (howns : owns s n (x.get rs1.toNat) q y)
include hturn howns

/-! kfetch (R371) -/

theorem exec_kfetch_word {w : W64} (hj : y.newest = some j) (hserved : unserved j = false) (hwork : y.hasWork j = true)
    (hw : fetchCommand s y j = .word w) : exec (.kfetch rs2 rs1 rd) s =
      .next (xnovDone (feedMonitors s 1 (Config.waited 1 s.clk)) n rd w) := by
  show execKfetch rs2 rs1 rd s = _
  refine owned_ok hturn howns ?_
  simp only [hj, hserved, hwork, hw, Bool.not_true, Bool.or_self, Bool.false_eq_true, if_false]

theorem exec_kfetch_bad (hj : y.newest = some j) (hserved : unserved j = false) (hwork : y.hasWork j = true)
    (hw : fetchCommand s y j = .bad) : exec (.kfetch rs2 rs1 rd) s =
      .next (xnovDone (queueFault s q 4) n rd (BitVec.allOnes 64)) := by
  show execKfetch rs2 rs1 rd s = _
  refine owned_ok hturn howns ?_
  simp only [hj, hserved, hwork, hw, Bool.not_true, Bool.or_self, Bool.false_eq_true, if_false]

theorem exec_kfetch_unserved (hj : y.newest = some j) (hserved : unserved j = true) :
    exec (.kfetch rs2 rs1 rd) s = .next (xnovDone s n rd (BitVec.allOnes 64)) := by
  show execKfetch rs2 rs1 rd s = _
  refine owned_ok hturn howns ?_
  simp only [hj, hserved, Bool.true_or, if_true]

theorem exec_kfetch_lost (hj : y.newest = none) :
    exec (.kfetch rs2 rs1 rd) s = .next (s.modCpc n fun z => z.trap 26 (x.get rs1.toNat)) := by
  show execKfetch rs2 rs1 rd s = _
  refine owned_trap hturn howns ?_
  simp only [hj]

/-! kwait (R361, R371) -/

section
variable {va v c : W64} (hdwords : x.dwords (x.get rs2.toNat) 3 = some [va, v, c])
include hdwords

section
variable {key tier : Nat} (hc : c.toNat ≤ 6) (hp : qPasses s y .load va key tier t)
include hc hp

theorem exec_kwait_holds (h : waitCond c.toNat 8 (BitVec.ofNat 64 (readNat t.mem key 8)).toNat v.toNat = true) :
    exec (.kwait rs2 rs1 rd) s = .next (xnovDone (hearSignal t (0x3000 + y.core) key) n rd 1) := by
  show execKwait rs2 rs1 rd s = _
  refine owned_ok hturn howns ?_
  simp only [hdwords, if_neg (not_lt.mpr hc), readWaited_passes hp, h, if_true]

theorem exec_kwait_arms (h : waitCond c.toNat 8 (BitVec.ofNat 64 (readNat t.mem key 8)).toNat v.toNat = false) :
    exec (.kwait rs2 rs1 rd) s = .next (xnovDone (t.modQueue q fun z => { z with
      armed := some ⟨va, v, c.setWidth 4, t.clk + 4096⟩ }) n rd 0) := by
  show execKwait rs2 rs1 rd s = _
  refine owned_ok hturn howns ?_
  simp only [hdwords, if_neg (not_lt.mpr hc), readWaited_passes hp, h, Bool.false_eq_true, if_false]

end

theorem exec_kwait_badCondition (hc : 6 < c.toNat) :
    exec (.kwait rs2 rs1 rd) s = .next (s.modCpc n fun z => z.trap 27 (x.get rs1.toNat)) := by
  show execKwait rs2 rs1 rd s = _
  refine owned_trap hturn howns ?_
  simp only [hdwords, if_pos hc]

end

/-! kdisp (R371, R373) -/

section
variable {csn w ka kb kc : W64} (hdwords : x.dwords (x.get rs2.toNat) 5 = some [csn, w, ka, kb, kc])
  (hnewest : y.newest.isSome = true)
include hdwords hnewest

theorem exec_kdisp_again {e : W64 × W64} (he : y.window.find? (fun e => decide (e.1 = csn)) = some e) :
    exec (.kdisp rs2 rs1 rd) s = .next (xnovDone s n rd e.2) := by
  have hsome : y.newest.isNone = false := by simpa using hnewest
  show execKdisp rs2 rs1 rd s = _
  refine owned_ok hturn howns ?_
  simp only [hdwords, hsome, he, Bool.false_eq_true, if_false]

section
variable (hnew : y.window.find? (fun e => decide (e.1 = csn)) = none)
include hnew

theorem exec_kdisp_older (hold : ∀ e ∈ y.window.head?, csn.toNat < e.1.toNat) (hwindow : y.window ≠ []) :
    exec (.kdisp rs2 rs1 rd) s = .next (s.modCpc n fun z => z.trap 28 csn) := by
  have hsome : y.newest.isNone = false := by simpa using hnewest
  obtain ⟨e, es, hes⟩ := List.exists_cons_of_ne_nil hwindow
  have hlt : csn.toNat < e.1.toNat := hold e (by rw [hes]; rfl)
  show execKdisp rs2 rs1 rd s = _
  refine owned_trap hturn howns ?_
  simp only [hdwords, hsome, hnew, Bool.false_eq_true, if_false]
  simp only [hes, hlt, decide_true, if_true]

section
variable (hlater : ∀ e ∈ y.window.head?, e.1.toNat ≤ csn.toNat) {i : Instr}
  {g : State → Nat → Queue → JImg → DispRes} (hi : decodeCmd w (ctlMode s y w ka) = some i)
  (hg : dispatchFn i ka kb kc = some g)
include hlater hi hg

/-- A command that is newer than all of the window is performed. -/
theorem exec_kdisp_done {v : W64} (h : g s q y { y.img with csn := csn } = .done v t) :
    exec (.kdisp rs2 rs1 rd) s = .next (xnovDone (enterWindow t q csn v) n rd v) := by
  have hsome : y.newest.isNone = false := by simpa using hnewest
  show execKdisp rs2 rs1 rd s = _
  refine owned_ok hturn howns ?_
  simp only [hdwords, hsome, hnew, hi, hg, h, Option.bind_some, Bool.false_eq_true, if_false]
  cases hw : y.window with
  | nil => rfl
  | cons e es =>
    have hle : ¬ csn.toNat < e.1.toNat := not_lt.mpr (hlater e (by rw [hw]; rfl))
    exact if_neg (by simpa using hle)

/-- One that breaks a rule is a queue fault, and rd tells it. -/
theorem exec_kdisp_fault {code : Nat} (h : g s q y { y.img with csn := csn } = .fault code t) :
    exec (.kdisp rs2 rs1 rd) s =
      .next (xnovDone (queueFault (enterWindow t q csn (BitVec.ofNat 64 (2 ^ 63 + code))) q code) n rd
        (BitVec.ofNat 64 (2 ^ 63 + code))) := by
  have hsome : y.newest.isNone = false := by simpa using hnewest
  show execKdisp rs2 rs1 rd s = _
  refine owned_ok hturn howns ?_
  simp only [hdwords, hsome, hnew, hi, hg, h, Option.bind_some, Bool.false_eq_true, if_false]
  cases hw : y.window with
  | nil => rfl
  | cons e es =>
    have hle : ¬ csn.toNat < e.1.toNat := not_lt.mpr (hlater e (by rw [hw]; rfl))
    exact if_neg (by simpa using hle)

end
end
end

/-! kjrnl and kjrnl.r (R371, R372, R379, R381) -/

theorem exec_kjrnl_outside (hout : dmemBytes < (x.get rs2.toNat).toNat + 320) :
    exec (.kjrnl rs2 rs1) s = .next (s.modCpc n fun z => z.trap 29 (x.get rs2.toNat)) := by
  show execKjrnl rs2 rs1 s = _
  refine owned_trap hturn howns ?_
  exact if_pos hout

theorem exec_kjrnlR_outside (hout : dmemBytes < (x.get rs2.toNat).toNat + 320) :
    exec (.kjrnlR rs2 rs1 rd) s = .next (s.modCpc n fun z => z.trap 29 (x.get rs2.toNat)) := by
  show execKjrnlR rs2 rs1 rd s = _
  refine owned_trap hturn howns ?_
  exact if_pos hout

section
variable (hin : (x.get rs2.toNat).toNat + 320 ≤ dmemBytes)
include hin

theorem exec_kjrnl_writes (hnewest : y.newest.isSome = true) : exec (.kjrnl rs2 rs1) s =
    .next (xnovDone (kjournal s q (jimgOf (readBytes x.dmem (x.get rs2.toNat).toNat 320))) n 0 0) := by
  have hsome : y.newest.isNone = false := by simpa using hnewest
  show execKjrnl rs2 rs1 s = _
  refine owned_ok hturn howns ?_
  simp only [if_neg (not_lt.mpr hin), hsome, Bool.false_eq_true, if_false]

theorem exec_kjrnl_lost (hlost : y.newest = none) :
    exec (.kjrnl rs2 rs1) s = .next (s.modCpc n fun z => z.trap 26 (x.get rs1.toNat)) := by
  show execKjrnl rs2 rs1 s = _
  refine owned_trap hturn howns ?_
  simp only [if_neg (not_lt.mpr hin), hlost, Option.isNone_none, if_true]

theorem exec_kjrnlR_reads (hj : y.newest = some j) : exec (.kjrnlR rs2 rs1 rd) s =
    .next (xnovDone (s.modCpc n fun z => { z with
      dmem := writeBytes z.dmem (x.get rs2.toNat).toNat (jimgBytes j) }) n rd (if y.written then 1 else 0)) := by
  show execKjrnlR rs2 rs1 rd s = _
  refine owned_ok hturn howns ?_
  simp only [if_neg (not_lt.mpr hin), hj]

section
variable (hlost : y.newest = none)
include hlost

theorem exec_kjrnlR_lost (hn : n ≠ 6) :
    exec (.kjrnlR rs2 rs1 rd) s = .next (s.modCpc n fun z => z.trap 26 (x.get rs1.toNat)) := by
  show execKjrnlR rs2 rs1 rd s = _
  refine owned_trap hturn howns ?_
  simp only [if_neg (not_lt.mpr hin), hlost, lostEntry, if_neg hn]

/-- At the substitute a lost entry is a device error. -/
theorem exec_kjrnlR_lostAtSubstitute (hn : n = 6) : exec (.kjrnlR rs2 rs1 rd) s =
    .next ((deviceError s 8).modCpc n fun z => z.trap 26 (x.get rs1.toNat)) := by
  show execKjrnlR rs2 rs1 rd s = _
  refine owned_trapIn hturn howns ?_
  simp only [if_neg (not_lt.mpr hin), hlost, lostEntry, if_pos hn]

end
end

/-! khold and krel (R375, R376) -/

theorem exec_khold : exec (.khold rs2 rs1 rd) s = .next (xnovDone (s.modQueue q fun z => { z with held := true }) n rd
    (BitVec.ofNat 64 ((s.fifo.filter fun e => decide (e.queue = q)).length))) := by
  show execKhold rs2 rs1 rd s = _
  refine owned_ok hturn howns ?_
  rfl

theorem exec_krel : exec (.krel rs2 rs1 rd) s = .next (xnovDone (settleWaiting (releaseFifo s q).2) n rd
    (BitVec.ofNat 64 (releaseFifo s q).1)) := by
  show execKrel rs2 rs1 rd s = _
  refine owned_ok hturn howns ?_
  rfl

/-- What cannot be done on a queue without a readable journal image traps (R372). -/
theorem exec_lost (hlost : y.newest = none) : ∀ i ∈ [Instr.kfetch rs2 rs1 rd] ++
    (if (x.get rs2.toNat).toNat + 320 ≤ dmemBytes then
      [.kjrnl rs2 rs1] ++ (if n = 6 then [] else [.kjrnlR rs2 rs1 rd]) else []),
    exec i s = .next (s.modCpc n fun z => z.trap 26 (x.get rs1.toNat)) := by
  intro i hi
  rcases List.mem_append.mp hi with h | h
  · obtain rfl := List.mem_singleton.mp h
    exact exec_kfetch_lost hturn howns hlost
  · split at h
    case isFalse => exact absurd h List.not_mem_nil
    case isTrue hin =>
      rcases List.mem_append.mp h with h | h
      · obtain rfl := List.mem_singleton.mp h
        exact exec_kjrnl_lost hturn howns hin hlost
      · split at h
        case isTrue => exact absurd h List.not_mem_nil
        case isFalse hn =>
          obtain rfl := List.mem_singleton.mp h
          exact exec_kjrnlR_lost hturn howns hin hlost hn

end

/-! ### On a queue that the core does not own -/

/-- Every instruction that names a queue traps on one that its core does not own. -/
theorem exec_unowned (hturn : cpcTurn s n x)
    (h : ∀ z, mget s.queues (x.get rs1.toNat).toNat = some z → (x.get rs1.toNat).toNat < 1024 → z.core ≠ n) :
    ∀ i ∈ [Instr.kfetch rs2 rs1 rd, .kwait rs2 rs1 rd, .kdisp rs2 rs1 rd, .kjrnl rs2 rs1, .kjrnlR rs2 rs1 rd,
      .khold rs2 rs1 rd, .krel rs2 rs1 rd], exec i s = .next (s.modCpc n fun z => z.trap 24 (x.get rs1.toNat)) := by
  have htrap : ∀ (d : BitVec 5) (f : Nat → Cpc → W64 → W64 → Nat → Queue → XRes),
      (xnov rs2 rs1 d s fun n x a b => owned s n a (f n x a b)) = .next (s.modCpc n fun z => z.trap 24 (x.get rs1.toNat)) :=
    fun d f => xnov_trap hturn (owned_other h _)
  simp only [List.forall_mem_cons, List.not_mem_nil, false_implies, implies_true, and_true]
  exact ⟨show execKfetch rs2 rs1 rd s = _ from htrap rd _, show execKwait rs2 rs1 rd s = _ from htrap rd _,
    show execKdisp rs2 rs1 rd s = _ from htrap rd _, show execKjrnl rs2 rs1 s = _ from htrap 0 _,
    show execKjrnlR rs2 rs1 rd s = _ from htrap rd _, show execKhold rs2 rs1 rd s = _ from htrap rd _,
    show execKrel rs2 rs1 rd s = _ from htrap rd _⟩

end

/-- Settles O41: kbfx and kroll look at registers only; the others at the queue, its journal, its window or the data SRAM. -/
theorem xnovInstructions : Obligations.XnovInstructions := by
  unfold Obligations.XnovInstructions
  intro s t n q x y j rs2 rs1 rd w csn ka kb kc va v c i f key tier e hturn
  refine ⟨fun p k hp hk => ⟨exec_kbfx_fits hturn hp hk, exec_kbfx_passes hturn hp hk⟩, exec_kroll_reads hturn,
    exec_kroll_passes hturn, exec_unowned hturn, fun hq hlt hy hcore => ?owned⟩
  case owned =>
    have howns : owns s n (x.get rs1.toNat) q y := ⟨hq, hlt, hy, hcore⟩
    exact ⟨exec_kfetch_word hturn howns, exec_kfetch_bad hturn howns, exec_lost hturn howns,
      fun hlost hn hin => exec_kjrnlR_lostAtSubstitute hturn howns hin hlost hn, exec_kfetch_unserved hturn howns,
      fun hd hc hp => ⟨exec_kwait_holds hturn howns hd hc hp, exec_kwait_arms hturn howns hd hc hp⟩,
      exec_kwait_badCondition hturn howns,
      fun hd hnewest => ⟨exec_kdisp_again hturn howns hd hnewest, exec_kdisp_older hturn howns hd hnewest,
        fun hnew hlater hi hg => ⟨exec_kdisp_done hturn howns hd hnewest hnew hlater hi hg,
          fun code => exec_kdisp_fault hturn howns hd hnewest hnew hlater hi hg⟩⟩,
      exec_kjrnl_writes hturn howns, exec_kjrnlR_reads hturn howns,
      fun hout => List.forall_mem_cons.mpr ⟨exec_kjrnl_outside hturn howns hout,
        List.forall_mem_singleton.mpr (exec_kjrnlR_outside hturn howns hout)⟩, exec_khold hturn howns, exec_krel hturn howns⟩

end Sys2Proof.Machine
end

/-! ## O51: queue commands and Xnov instructions decode back -/

section
namespace Sys2Proof

/-! ### The fields of a command's word (R358) -/

theorem cmdWord_op (op : BitVec 8) (a b c : BitVec 4) (imm : BitVec 44) : fld (cmdWord op a b c imm) 56 8 = op := by
  simp (disch := decide) only [cmdWord, fld_append_high, fld_full]

/-- A ctrl command's word decodes by its operation, and by the mode of its block. -/
theorem decodeCmd_ctrl (a d : BitVec 4) (k : BitVec 8) (m : W64) : decodeCmd (encodeCmd.ctrl a d k) m =
    match k with
    | 0#8 => some (.ctrlPreempt a d)
    | 1#8 => if m = 0 then some (.ctrlDisposeResume a d)
             else if m = 1 then some (.ctrlDisposeStep a d)
             else if m = 2 then some (.ctrlDisposeAbort a d) else none
    | 2#8 => some (.ctrlFreeze a d) | 3#8 => some (.ctrlThaw a d)
    | 4#8 => some (.ctrlSetBreakpoint a d) | 5#8 => some (.ctrlRestoreImage a d)
    | 6#8 => some (.ctrlInvalidateTlb a d) | 7#8 => some (.ctrlTrimLog a d)
    | 8#8 => some (.ctrlRewind a d)
    | 9#8 => if m = 0 then some (.ctrlReplay a d)
             else if m = 1 then some (.ctrlReplayToWindow a d)
             else if m = 2 then some (.ctrlReplayPerturb a d) else none
    | 10#8 => some (.ctrlDebugRead a d) | 11#8 => some (.ctrlReleaseRetained a d)
    | 12#8 => some (.ctrlHostMarker a d) | 13#8 => some (.ctrlReverseStep a d)
    | _ => none := by
  rw [encodeCmd.ctrl, decodeCmd, cmdWord_op]
  show (if _ then _ else _) = _
  simp (disch := decide) only [fld_append_low, fld_append_high, fld_full]
  rfl

/-- The mode of the control block (R369) that tells a ctrl command from those of its operation. -/
def ctrlMode : Instr → W64
  | .ctrlDisposeStep .. | .ctrlReplayToWindow .. => 1
  | .ctrlDisposeAbort .. | .ctrlReplayPerturb .. => 2
  | _ => 0

theorem decodeCmd_encodeCmd {i : Instr} {w : W64} (h : encodeCmd i = some w)
    (hbr : ∀ a b c imm, i = .br a b c imm → c.toNat ≤ 6)
    (hwait : ∀ a b c, i = .wait a b c → c.toNat ≤ 6) : decodeCmd w (ctrlMode i) = some i := by
  cases i with
  | cmdNop | ldi | ldhi | add | addi | cmdLd | cmdSt | dloop | calli | reti
  | cmdCopy | cmdLaunch | launchg | cmdMigrate =>
    obtain rfl := Option.some.inj h
    rw [decodeCmd, cmdWord_op]
    show (if _ then _ else _) = _
    simp (disch := decide) only [fld_append_low, fld_append_high, fld_full]
    rfl
  | ctrlDisposeStep a d | ctrlReplayToWindow a d | ctrlDisposeAbort a d | ctrlReplayPerturb a d | ctrlPreempt a d
  | ctrlDisposeResume a d | ctrlFreeze a d | ctrlThaw a d | ctrlSetBreakpoint a d | ctrlRestoreImage a d
  | ctrlInvalidateTlb a d | ctrlTrimLog a d | ctrlRewind a d | ctrlReplay a d | ctrlDebugRead a d | ctrlReleaseRetained a d
  | ctrlHostMarker a d | ctrlReverseStep a d =>
    obtain rfl := Option.some.inj h
    exact decodeCmd_ctrl a d _ _
  | br a b c imm =>
    obtain rfl := Option.some.inj h
    rw [decodeCmd, cmdWord_op]
    show (if _ then _ else _) = _
    simp (disch := decide) only [fld_append_low, fld_append_high, fld_full]
    exact if_pos (hbr a b c imm rfl)
  | wait a b c =>
    obtain rfl := Option.some.inj h
    rw [decodeCmd, cmdWord_op]
    show (if _ then _ else _) = _
    simp (disch := decide) only [fld_append_low, fld_append_high, fld_full]
    exact if_pos ⟨trivial, hwait a b c rfl⟩
  | signalWrite | signalAdd =>
    obtain rfl := Option.some.inj h
    rw [decodeCmd, cmdWord_op]
    show (if _ then _ else _) = _
    simp (disch := decide) only [fld_append_low, fld_append_high, fld_full, flag_append_low]
    rfl
  | _ => nomatch h

/-! ### Xnov instructions (R371) -/

section
variable (f7 : BitVec 7) (t s d : BitVec 5) (f3 : BitVec 3)

theorem decodeXnov_xnov : decodeXnov (encode.xnov f7 t s f3 d) =
    match f3, f7 with
    | 0#3, 0#7 => some (.kfetch t s d)
    | 1#3, 0#7 => some (.kbfx t s d)
    | 2#3, 0#7 => some (.kwait t s d)
    | 3#3, 0#7 => some (.kdisp t s d)
    | 4#3, 0#7 => if d = 0 then some (.kjrnl t s) else none
    | 4#3, 1#7 => some (.kjrnlR t s d)
    | 5#3, 0#7 => some (.khold t s d)
    | 5#3, 1#7 => some (.krel t s d)
    | 6#3, 0#7 => some (.kroll t s d)
    | _, _ => none := by
  simp (disch := decide) only [decodeXnov, encode.xnov, fld_append_low, fld_append_high, fld_full, if_true] <;> rfl

end

/-- Settles O51: the fields of each word read back, and the decoder's branch is the encoder's. -/
theorem commandsRoundTrip : Obligations.CommandsRoundTrip := by
  refine ⟨fun _ _ => decodeCmd_encodeCmd, fun t s d => ?_⟩
  simp only [List.forall_mem_cons, List.not_mem_nil, false_implies, implies_true, and_true]
  and_intros <;> exact ⟨_, rfl, by rw [decodeCpc, decodeXnov_xnov]; rfl⟩

end Sys2Proof
end

/-! ## O16: CLKR, PCNT and MARK -/

section
namespace Sys2Proof.Machine

section
variable {c : Cx}

/-- Where no log stalls, the record has room for any turns (R334). -/
theorem turnsFull_free {s : State} {ctx : Nat} (h : stallsFull s ctx = false) (kind : Nat) (keys : List W64) (r : Req) :
    turnsFull s ctx kind keys r = false := by
  unfold turnsFull
  unfold stallsFull at h
  cases hu : (mget s.ctxs ctx).bind (·.ulog) with
  | none => rfl
  | some u =>
    have hstall : u.stall = false := by simpa [hu] using h
    simp only [hstall, Bool.false_and]

/-- Without a replay the script holds no value. -/
theorem scriptValue_unscripted {s : State} {ctx : Nat} (h : s.scripted ctx = false) (kind : Nat) (r : Req) :
    scriptValue s ctx kind r = none := by
  unfold State.scripted at h
  unfold scriptValue
  cases hx : mget s.ctxs ctx with
  | none => rfl
  | some x =>
    cases hr : x.replay with
    | none => simp only [Option.bind_some, hr, Option.bind_none]
    | some rp =>
      have hnil : rp.script = [] := by simpa [hx, hr] using h
      simp only [Option.bind_some, hr, hnil, List.find?_nil, Option.bind_none]

/-- A value from outside the program is the live one where neither replay nor record stands (R347). -/
theorem outside_live (hlive : c.live) (hrec : c.pre.recordOn c.ctx = false) (d : Operand) (x : W64) :
    c.outside c.pre d x = c.scalarWrite c.pre d x := by
  obtain ⟨hscript, hstall⟩ := hlive
  simp only [Cx.outside, outsideValue, hscript, turnsFull_free hstall, scriptValue_unscripted hscript, hrec,
    Bool.false_and, Bool.and_false, Bool.false_eq_true, if_false]

/-- A member that writes a value from outside executes so, where the context records nothing and the destination takes it. -/
theorem executes_outside {i : Instr} {d : Operand} {f : Cx → W64} {w : Cx → Prop} (he : exec i = issue1 i (bodyOf i))
    (hp : plainMember i = true) (hb : ∀ c, w c → bodyOf i c c.pre = c.outside c.pre d (f c))
    (hrec : ∀ c, w c → c.pre.recordOn c.ctx = false) (ht : ∀ c, w c → takes c d (f c)) : ExecutesIf i w (scalarTo d f) :=
  executes_live he hp (fun c hlive h => (hb c h).trans (outside_live hlive (hrec c h) d (f c)))
    fun c h => accOf_scalarTo (ht c h) i

/-! ### What each member reads -/

theorem bodyClkr_clocks {d : Operand} {sel : BitVec 2} (h : sel ≠ 0) (s : State) :
    bodyClkr d sel c s = c.outside s d (BitVec.ofNat 64 c.pre.clk) := by
  simp only [bodyClkr, if_neg h]

/-- Counters 0 to 15 are the stalls of the block. -/
theorem bodyPcnt_stalls {d : Operand} {n : BitVec 8} {b : Blk} (hn : n.toNat < 16) (hb : c.pre.block c.g c.b = some b)
    (s : State) : bodyPcnt d n c s = c.outside s d (BitVec.ofNat 64 ((mget b.stall n.toNat).getD 0)) := by
  simp only [bodyPcnt, if_neg (show ¬0x18 < n.toNat by omega), if_pos hn, hb, Option.bind_some]

/-- Counters 16 to 0x18 are those that the grid has on its core. -/
theorem bodyPcnt_events {d : Operand} {n : BitVec 8} (hlow : 16 ≤ n.toNat) (hhigh : n.toNat ≤ 0x18) (s : State) :
    bodyPcnt d n c s = c.outside s d (BitVec.ofNat 64 ((mget c.gr.counters (c.core * 256 + n.toNat)).getD 0)) := by
  simp only [bodyPcnt, if_neg (Nat.not_lt.mpr hhigh), if_neg (Nat.not_lt.mpr hlow)]

/-- A core's local event advances its clock by one (R329). -/
theorem clock_bump_same (s : State) (e : Nat) : (s.bump e).clock e = s.clock e + 1 := zget_zset_self _ _ _

end

/-- Settles O16: each value that CLKR and PCNT read is one from outside the program, and MARK's meaning is its marker. -/
theorem clocksAndMarks : Obligations.ClocksAndMarks := by
  unfold Obligations.ClocksAndMarks
  intro d a sel n tag b
  refine ⟨executes_outside rfl rfl (fun _ _ => rfl) (fun _ h => h.1) fun _ h => h.2,
    executes_outside rfl rfl (fun c ⟨hsel, _, _⟩ => bodyClkr_clocks hsel c.pre) (fun _ ⟨_, h, _⟩ => h) fun _ ⟨_, _, h⟩ => h,
    executes_outside rfl rfl (fun c ⟨hn, hb, _, _⟩ => bodyPcnt_stalls hn hb c.pre) (fun _ ⟨_, _, h, _⟩ => h)
      fun _ ⟨_, _, _, h⟩ => h,
    executes_outside rfl rfl (fun c ⟨hlow, hhigh, _, _⟩ => bodyPcnt_events hlow hhigh c.pre) (fun _ ⟨_, _, h, _⟩ => h)
      fun _ ⟨_, _, _, h⟩ => h,
    raises_of rfl rfl fun c h => if_pos h, executes_all rfl rfl fun c => ⟨?mark, rfl⟩⟩
  case mark =>
    show MRes.ok _ = _
    rw [clock_bump_same]

end Sys2Proof.Machine
end

/-! ## O47: SPDM requests -/

section
namespace Sys2Proof.Machine

section
variable {s : State} {k : Nat} {req covers : List Byte} {inOrder : Nat → Bool} {next : Nat → Nat}

/-! ### What the responder does with a request (R407) -/

theorem spdm_silent (h : s.reg.attests = false) : spdm s k req inOrder next covers = s := by
  simp only [spdm, h, Bool.not_false, if_true]

/-- The transcript that an answer covers: it begins anew with request 0. -/
def spdmAsked (s : State) (k : Nat) (req : List Byte) : List Byte :=
  (if k = 0 then [] else s.reg.transcript) ++ BitVec.ofNat 8 k :: req

/-- The answer, over the key, what the request covers and the transcript. -/
def spdmAnswer (s : State) (k : Nat) (req covers : List Byte) : List Byte :=
  Config.spdmBytes k (s.reg.identity.getD [] ++ covers ++ spdmAsked s k req)

/-- The registrar after an answered request. -/
def spdmAnswered (s : State) (k : Nat) (req : List Byte) (next : Nat → Nat) (covers : List Byte) : State :=
  s.modReg fun r => { r with
    spdm := spdmAnswer s k req covers, transcript := spdmAsked s k req ++ spdmAnswer s k req covers
    spdmState := next r.spdmState }

/-- What the requests 3 to 6 do: each is the responder's answer in the states from 3 on, which leaves the state there. -/
theorem exec_asks (p idx off len : Nat) (bs : List Byte) {i : Instr}
    (hi : i ∈ [Instr.getDigests, .getCertificate off len, .challenge bs, .getMeasurements p idx bs]) :
    ∃ k req covers, k ≠ 0 ∧ exec i s = .next (spdm s k req spdmReady id covers) := by
  simp only [List.mem_cons, List.not_mem_nil, or_false] at hi
  rcases hi with rfl | rfl | rfl | rfl
  all_goals exact ⟨_, _, _, by decide, rfl⟩

section
variable (ha : s.reg.attests = true)
include ha

theorem spdm_answered (ho : inOrder s.reg.spdmState = true) :
    spdm s k req inOrder next covers = spdmAnswered s k req next covers := by
  simp only [spdm, ha, ho, Bool.not_true, Bool.false_eq_true, if_false]
  rfl

/-- A request out of order changes the last answer only. -/
theorem spdm_refused (ho : inOrder s.reg.spdmState = false) : spdm s k req inOrder next covers =
    s.modReg fun r => { r with spdm := Config.spdmBytes 0x7F [] } := by
  simp only [spdm, ha, ho, Bool.not_true, Bool.not_false, Bool.false_eq_true, if_false, if_true]

/-! ### The requests that follow the algorithms (R407) -/

/-- In the states from 3 on they extend the transcript by the request and the answer. -/
theorem exec_asks_ready (h3 : 3 ≤ s.reg.spdmState) {p idx off len : Nat} {bs : List Byte} {i : Instr}
    (hi : i ∈ [Instr.getDigests, .getCertificate off len, .challenge bs, .getMeasurements p idx bs]) :
    ∃ t, exec i s = .next t ∧ t.reg.spdmState = s.reg.spdmState ∧ s.reg.transcript <+: t.reg.transcript ∧
      t.reg.spdm <:+ t.reg.transcript ∧ t.mem = s.mem ∧ t.parts = s.parts := by
  obtain ⟨k, req, covers, hk, he⟩ := exec_asks p idx off len bs hi
  rw [spdm_answered ha (decide_eq_true h3)] at he
  refine ⟨_, he, rfl, ?_, List.suffix_append _ _, rfl, rfl⟩
  show _ <+: spdmAsked s k req ++ _
  rw [spdmAsked, if_neg hk, List.append_assoc]
  exact List.prefix_append _ _

/-- Before, they and what comes after them are out of order. -/
theorem exec_outOfOrder (h3 : s.reg.spdmState < 3) {p idx off len : Nat} {bs : List Byte} {i : Instr}
    (hi : i ∈ [Instr.getDigests, .getCertificate off len, .challenge bs, .getMeasurements p idx bs, .keyExchange p bs,
      .finish bs]) : exec i s = .next (s.modReg fun r => { r with spdm := Config.spdmBytes 0x7F [] }) := by
  have hready : spdmReady s.reg.spdmState = false := decide_eq_false (Nat.not_le.mpr h3)
  have hlast : decide (8 ≤ s.reg.spdmState) = false := decide_eq_false (by omega)
  simp only [List.mem_cons, List.not_mem_nil, or_false] at hi
  rcases hi with rfl | rfl | rfl | rfl | rfl | rfl
  case inr.inr.inr.inr.inr =>
    show execFinish bs s = _
    simp only [execFinish, hlast, Bool.and_false, Bool.false_and, Bool.false_eq_true, if_false]
    exact congrArg Host.Outcome.next (spdm_refused (inOrder := fun n => decide (8 ≤ n)) ha hlast)
  all_goals exact congrArg Host.Outcome.next (spdm_refused ha hready)

/-! ### FINISH (R407) -/

theorem exec_finish (h8 : 8 ≤ s.reg.spdmState) (bs : List Byte) : exec (.finish bs) s = .next
    (if Config.finishOk (s.reg.transcript ++ bs) then
      { (spdmAnswered s 8 bs (fun _ => 3) []).draw.2 with
        parts := mmod s.parts (s.reg.spdmState - 8) fun x => { x with session := some (Config.freeNat s.seed) } }
    else spdmAnswered s 8 bs (fun _ => 3) []) := by
  show execFinish bs s = _
  simp only [execFinish, ha, decide_eq_true h8, Bool.true_and, spdm_answered ha (inOrder := fun n => decide (8 ≤ n))
    (decide_eq_true h8)]
  rfl

end
end

/-- Settles O47: each request by what the responder does with it in its order, or out of it. -/
theorem attestation : Obligations.Attestation := by
  unfold Obligations.Attestation
  intro s p idx off len bs
  refine ⟨fun hsilent => ?silent, fun ha => ⟨⟨_, congrArg Host.Outcome.next (spdm_answered ha rfl), rfl, rfl, ?version⟩,
    fun h1 => ⟨_, congrArg Host.Outcome.next (spdm_answered ha (decide_eq_true h1)), rfl⟩,
    fun h2 => ⟨_, congrArg Host.Outcome.next (spdm_answered ha (decide_eq_true h2)), rfl⟩,
    fun h3 i hi => exec_asks_ready ha h3 hi,
    fun h3 => ⟨_, congrArg Host.Outcome.next (spdm_answered ha (decide_eq_true h3)), ?measurements⟩,
    fun h3 => ⟨_, congrArg Host.Outcome.next (spdm_answered ha (decide_eq_true h3)), rfl⟩,
    fun h8 hok => ⟨_, (exec_finish ha h8 bs).trans (congrArg _ (if_pos hok)), rfl, rfl⟩,
    fun h8 hbad => ⟨_, (exec_finish ha h8 bs).trans (congrArg _ (if_neg (Bool.not_eq_true _ ▸ hbad))), rfl⟩,
    fun h3 i hi => ⟨_, exec_outOfOrder ha h3 hi, rfl, rfl, rfl⟩⟩⟩
  case silent =>
    simp only [List.forall_mem_cons, List.not_mem_nil, false_implies, implies_true, and_true]
    refine ⟨?_, ?_, ?_, ?_, ?_, ?_, ?_, ?_, ?_⟩
    case refine_9 =>
      show execFinish bs s = _
      simp only [execFinish, hsilent, spdm_silent, Bool.false_and, Bool.false_eq_true, if_false]
    all_goals exact congrArg Host.Outcome.next (spdm_silent hsilent)
  case version =>
    show spdmAnswer s 0 [] [] = _
    rw [spdmAnswer, List.append_nil]
    rfl
  case measurements =>
    show spdmAnswer s 6 _ _ = _
    rw [spdmAnswer, spdmAsked, if_neg (show ¬(6 : Nat) = 0 by decide), ← List.append_assoc]
    rfl

end Sys2Proof.Machine
end

/-! ## O46: rails, monitors and links -/

section
namespace Sys2Proof.Machine

/-! ### The health log of a registrar that runs (R345, R412) -/

/-- The registrar with a health event logged. -/
def Registrar.logged (r : Registrar) (records : List (List Byte)) (lost : W64) (n : W32) : Registrar :=
  { r with health := records, overwritten := lost, healthSerial := r.healthSerial + n }

/-- Events are logged one after the other. -/
theorem logged_logged (r : Registrar) (a b : List (List Byte)) (c d : W64) (m n : W32) :
    (r.logged a c m).logged b d n = r.logged b d (m + n) := by
  simp only [Registrar.logged, BitVec.add_assoc]

section
variable {s : State} (hlive : s.reg.ready.error ≠ 9)
include hlive

/-- A health event of no context adds to the log, and a clock counts it. -/
theorem health_none_logs (source unit index : Nat) (value addr : W64) : ∃ l records lost,
    s.health none source unit index value addr = { s with lamport := l, reg := s.reg.logged records lost 1 } := by
  rw [State.health, if_neg hlive]
  exact ⟨_, _, _, rfl⟩

/-- A health event that is written where a limit is newly passed. -/
theorem health_if_logs (b : Bool) (source unit index : Nat) (value addr : W64) : ∃ l records lost,
    (if b = true then s.health none source unit index value addr else s) =
      { s with lamport := l, reg := s.reg.logged records lost (if b then 1 else 0) } := by
  cases b with
  | true => exact health_none_logs hlive source unit index value addr
  | false => exact ⟨s.lamport, s.reg.health, s.reg.overwritten, by simp [Registrar.logged]⟩

/-- The two events that a sample may have the log tell of. -/
theorem health_twice_logs (b hot : Bool) (value temp : W64) : ∃ l records lost,
    (if hot = true then (if b = true then s.health none 8 0x3007 0 value 0 else s).health none 8 0x3007 1 temp 0
      else if b = true then s.health none 8 0x3007 0 value 0 else s) =
      { s with lamport := l, reg := s.reg.logged records lost ((if b then 1 else 0) + if hot then 1 else 0) } := by
  obtain ⟨l1, records1, lost1, h1⟩ := health_if_logs hlive b 8 0x3007 0 value 0
  obtain ⟨l, records, lost, h⟩ := health_if_logs (s := { s with lamport := l1, reg := s.reg.logged records1 lost1 _ })
    hlive hot 8 0x3007 1 temp 0
  refine ⟨l, records, lost, ?_⟩
  rw [h1, ← logged_logged s.reg records1 records lost1 lost]
  exact h

/-- What a device error of a registrar that runs stops, before it is raised (R412). -/
def State.halted (s : State) (code : Nat) : State := { s with
  queues := s.queues.map fun e => (e.1, { e.2 with held := true })
  cpcs := s.cpcs.map fun e => if e.1 < 7 then (e.1, { e.2 with stopped := true }) else e
  grids := s.grids.map fun e => if e.2.status = .retained then e else (e.1, { e.2 with status := .aborted })
  reg := { s.reg with ready := { s.reg.ready with error := BitVec.ofNat 8 code } } }

/-- A device error of a registrar that runs, which its log tells. -/
theorem deviceError_logs {code : Nat} (hcode : BitVec.ofNat 8 code ≠ 9) : ∃ v o l records lost, deviceError s code =
    { s.halted code with
      vectors := v, outbox := o, lamport := l, reg := (s.halted code).reg.logged records lost 1 } := by
  have hother : code ≠ 9 := fun h => hcode (by rw [h]; rfl)
  have hfail : s.reg.failing code = (s.halted code).reg := if_neg hlive
  obtain ⟨v, o, hraise⟩ := raiseAll_shape (s.halted code)
  obtain ⟨l, records, lost, hlog⟩ := health_none_logs (s := { s.halted code with vectors := v, outbox := o }) hcode
    9 0x3007 code 0 0
  refine ⟨v, o, l, records, lost, ?_⟩
  calc deviceError s code = (s.halted code).raiseAll.health none 9 0x3007 code 0 0 := by
        rw [deviceError, if_neg hother, State.modReg, hfail]
        rfl
    _ = _ := by rw [hraise]; exact hlog

/-- What it leaves, and what then stands in the registrar. -/
theorem deviceError_keeps {code : Nat} (hcode : BitVec.ofNat 8 code ≠ 9) {t : State} (ht : deviceError s code = t) :
    t.mem = s.mem ∧ t.teams = s.teams ∧ t.parts = s.parts ∧ t.links = s.links ∧ t.reg.rails = s.reg.rails ∧
      t.reg.throttle = s.reg.throttle ∧ t.reg.monitors = s.reg.monitors ∧ t.reg.ready.bits = s.reg.ready.bits ∧
      t.reg.ready.error = BitVec.ofNat 8 code ∧ t.reg.healthSerial = s.reg.healthSerial + 1 := by
  obtain ⟨v, o, l, records, lost, h⟩ := deviceError_logs hlive hcode
  obtain rfl := ht.symm.trans h
  exact ⟨rfl, rfl, rfl, rfl, rfl, rfl, rfl, rfl, rfl, rfl⟩

end

/-! ### Counters of links (R344) -/

/-- A count at a link draws a context, and counts there. -/
theorem countLink_shape (s : State) (kind link k : Nat) : ∃ n x, countLink s kind link k = { s with seed := n, ctxs := x } := by
  unfold countLink
  split
  · exact ⟨s.seed, s.ctxs, rfl⟩
  · dsimp only [State.draw]
    split
    · exact ⟨_, _, rfl⟩
    · exact ⟨_, s.ctxs, rfl⟩

/-! ### Samples of the rails (R411) -/

/-- A sample: current, power, temperature, voltage. -/
abbrev Rail := Nat × Nat × Nat × Nat

/-- The limits over the samples of the last 100 µs, newest first. -/
def overCurrent (l : List Rail) : Bool := decide (3600000 < railMean l (·.1))
def overPower (l : List Rail) : Bool := decide (1800000 < railMean l (·.2.1))
def tooHot (l : List Rail) : Bool := decide (105 * 8 < (l.head?.map (·.2.2.1)).getD 0)

/-- A mean is newly past its limit. -/
def newlyOver (old new : List Rail) : Bool :=
  (overCurrent new && !(overCurrent old)) || (overPower new && !(overPower old))

/-- Current, power and temperature are below their limits. -/
def belowLimits (l : List Rail) (temp : Nat) : Bool :=
  decide (railMean l (·.1) < 3600000 ∧ railMean l (·.2.1) < 1800000 ∧ temp < 105 * 8)

section
variable (s : State) (c w temp volt : Nat)

/-- The samples with a new one. -/
def newRails : List Rail := ((c, w, temp, volt) :: s.reg.rails).take 100

/-- A limit throttles, until all are below theirs. -/
def railThrottle : Bool :=
  overCurrent (newRails s c w temp volt) || overPower (newRails s c w temp volt) || tooHot (newRails s c w temp volt) ||
    (s.reg.throttle && !(belowLimits (newRails s c w temp volt) temp))

/-- A partition with its energy since the last sample, as the telemetry tells it. -/
def apportioned (e : Nat × Part) : Nat × Part :=
  (e.1, { e.2 with energy := e.2.energy + Config.freeWord (Config.freeNat s.seed + e.1) })

/-- A sample stands in the registrar with the throttle that it asks for, in the monitors and in the partitions' energy. -/
def railSampled : State :=
  let t := s.draw.2.modReg fun r => { r with
    rails := newRails s c w temp volt, throttle := railThrottle s c w temp volt }
  { feedMonitors (feedMonitors t 3 volt) 4 temp with
    parts := s.parts.map (apportioned s) }

/-- The events that a sample has the log tell of. -/
def railEvents : W32 := (if newlyOver s.reg.rails (newRails s c w temp volt) then 1 else 0) +
  if tooHot (newRails s c w temp volt) && !(tooHot s.reg.rails) then 1 else 0

/-- The energy of a partition after a sample. -/
theorem railSampled_energy (p : Nat) : (mget (railSampled s c w temp volt).parts p).map (·.energy) =
    (mget s.parts p).map fun z => z.energy + Config.freeWord (Config.freeNat s.seed + p) := by
  refine (congrArg (Option.map (·.energy)) (mget_map s.parts (apportioned s) (fun _ => rfl) p)).trans ?_
  rw [Option.map_map]
  rfl

theorem railSampled_ready : (railSampled s c w temp volt).reg.ready = s.reg.ready := by
  simp only [railSampled, feedMonitors, State.modReg, State.draw]

theorem railSerial_sum (n : W32) : s.reg.healthSerial + railEvents s c w temp volt + n =
    s.reg.healthSerial + (if newlyOver s.reg.rails (newRails s c w temp volt) then 1 else 0) +
      (if tooHot (newRails s c w temp volt) && !(tooHot s.reg.rails) then 1 else 0) + n := by
  rw [railEvents, ← BitVec.add_assoc]

variable (hlive : s.reg.ready.error ≠ 9)
include hlive

/-- What a sample does before it is looked at for a device error. -/
theorem exec_railSample : ∃ t, exec (.railSample c w temp volt) s =
      .next (if volt < 370 ∨ 115 * 8 < temp then deviceError t 6 else t) ∧
    t.mem = s.mem ∧ t.teams = s.teams ∧ t.grids = s.grids ∧ t.queues = s.queues ∧ t.cpcs = s.cpcs ∧
    t.parts = (railSampled s c w temp volt).parts ∧ t.reg.rails = newRails s c w temp volt ∧
    t.reg.throttle = railThrottle s c w temp volt ∧ t.reg.ready = s.reg.ready ∧
    t.reg.healthSerial = s.reg.healthSerial + railEvents s c w temp volt := by
  obtain ⟨l, records, lost, h⟩ := health_twice_logs (s := railSampled s c w temp volt) hlive
    (newlyOver s.reg.rails (newRails s c w temp volt)) (tooHot (newRails s c w temp volt) && !(tooHot s.reg.rails))
    (BitVec.ofNat 64 (if overCurrent (newRails s c w temp volt) && !(overCurrent s.reg.rails) then c else w))
    (BitVec.ofNat 64 temp)
  have hrun : s.reg.isDead = false := decide_eq_false hlive
  refine ⟨{ railSampled s c w temp volt with
    lamport := l, reg := (railSampled s c w temp volt).reg.logged records lost (railEvents s c w temp volt) },
    ?_, rfl, rfl, rfl, rfl, rfl, rfl, rfl, rfl, railSampled_ready s c w temp volt, rfl⟩
  rw [railEvents, ← h]
  show execRailSample c w temp volt s = _
  rw [execRailSample, hrun, if_neg Bool.false_ne_true]
  rfl

end

/-! ### Monitors (R345, R346) -/

/-- A monitor that is there is answered, and cleared where that is asked. -/
theorem exec_monitorRead {s : State} {m : Nat} {y : Monitor} (hready : s.reg.isReady = true)
    (hm : s.reg.monitors[m]? = some y) (clear : Bool) : exec (.healthMonitorReadClear m clear) s =
      .next ((s.modReg fun r => if clear then { r with monitors := r.monitors.set m Monitor.reset } else r).answer 0
        (natBytes 8 y.min ++ natBytes 8 y.max ++ natBytes 8 y.count.toNat ++ y.bins.flatMap (natBytes 4))) := by
  show execHealthMonitorReadClear m clear s = _
  rw [execHealthMonitorReadClear, request_ready hready]
  simp only [hm]

/-! ### Links that retrain (R395, R397) -/

section
variable {s : State} {k : Nat} {x : Link} (hx : mget s.links k = some x)
include hx

/-- The frame error counts at the link and in the monitors before the log is written. -/
def frameErred (s : State) (k : Nat) (x : Link) (burst : Bool) : State :=
  let recent := s.clk :: x.recent s.clk
  countLink (feedMonitors (s.draw.2.modLink k fun y => { y with
    replays := recent, retries := y.retries + 1
    retraining := y.retraining || burst || Config.laneOver (Config.freeNat s.seed) }) 2 recent.length) 5 k 1

omit hx in
theorem frameErred_shape (s : State) (k : Nat) (x : Link) (burst : Bool) : ∃ n y, frameErred s k x burst =
    { feedMonitors (s.modLink k fun y => { y with
        replays := s.clk :: x.recent s.clk, retries := y.retries + 1
        retraining := y.retraining || burst || Config.laneOver (Config.freeNat s.seed) }) 2
        (s.clk :: x.recent s.clk).length with seed := n, ctxs := y } := by
  obtain ⟨n, y, h⟩ := countLink_shape (feedMonitors (s.draw.2.modLink k fun y => { y with
    replays := s.clk :: x.recent s.clk, retries := y.retries + 1
    retraining := y.retraining || burst || Config.laneOver (Config.freeNat s.seed) }) 2
    (s.clk :: x.recent s.clk).length) 5 k 1
  exact ⟨n, y, h⟩

theorem exec_linkFrameError (hup : x.up = true) {burst : Bool}
    (hburst : burst = (decide (16 ≤ (s.clk :: x.recent s.clk).length) && !x.retraining)) :
    exec (.linkFrameError k) s = .next (if burst = true then (frameErred s k x burst).health none 6 (0x4000 + k) 0
      (BitVec.ofNat 64 (s.clk :: x.recent s.clk).length) 0 else frameErred s k x burst) := by
  subst hburst
  show execLinkFrameError k s = _
  simp only [execLinkFrameError, hx, Option.bind_some, hup, Bool.not_true, Bool.false_eq_true, if_false]
  rfl

theorem exec_linkFrameError_down (hup : x.up = false) : exec (.linkFrameError k) s = .next s := by
  show execLinkFrameError k s = _
  simp only [execLinkFrameError, hx, Option.bind_some, hup, Bool.not_false, if_true]
  rfl

section
variable (hre : x.retraining = true)
include hre

/-- A link that comes back, at half width. -/
def linkHalved (s : State) (k : Nat) (x : Link) : State :=
  feedMonitors (s.modLink k fun y => { y with half := true, retraining := false, replays := [] }) 2 (x.recent s.clk).length

theorem exec_linkRetrain_halved (hfull : x.half = false) : exec (.linkRetrainComplete k true) s =
    .next ((linkHalved s k x).health none 6 (0x4000 + k) 1 (BitVec.ofNat 64 (x.recent s.clk).length) 0) := by
  show execLinkRetrainComplete k true s = _
  simp only [execLinkRetrainComplete, hx, Option.bind_some, hre, hfull, Bool.not_true, Bool.not_false, Bool.and_self,
    Bool.false_eq_true, if_false, if_true]
  rfl

/-- A link that does not come back. -/
def linkLost (s : State) (k : Nat) (x : Link) : State :=
  feedMonitors (s.draw.2.modLink k fun y => { y with up := false, retraining := false }) 2 (x.recent s.clk).length

/-- The frames that a lost link has resent over another port. -/
def framesResent (s : State) (k : Nat) : Nat := if k < 18 then (Config.freeWord (Config.freeNat s.seed)).toNat % 65 else 0

theorem exec_linkRetrain_lost (hrun : s.reg.ready.error ≠ 9) {good : Bool} (hbad : good = false ∨ x.half = true) :
    ∃ t, exec (.linkRetrainComplete k good) s = .next (if 18 ≤ k then deviceError t 7 else t) ∧ t.mem = s.mem ∧
      mget t.links k = some { x with up := false, retraining := false } ∧
      t.reg.monitors = (feedMonitors s 2 (x.recent s.clk).length).reg.monitors ∧ t.reg.ready = s.reg.ready := by
  have hcome : (good && !x.half) = false := by rcases hbad with h | h <;> simp [h]
  obtain ⟨l, records, lost, hlog⟩ := health_none_logs (s := linkLost s k x) hrun 7 (0x4000 + k) 0
    (BitVec.ofNat 64 (framesResent s k)) 0
  refine ⟨{ linkLost s k x with lamport := l, reg := (linkLost s k x).reg.logged records lost 1 }, ?_, rfl, ?_, rfl, rfl⟩
  · rw [← hlog]
    show execLinkRetrainComplete k good s = _
    simp only [execLinkRetrainComplete, hx, Option.bind_some, hre, hcome, Bool.not_true, Bool.false_eq_true, if_false]
    rfl
  · exact (mget_mmod_self s.links _ _).trans (by rw [hx]; rfl)

end
end

/-! ### Flows of the escape channel (R395) -/

section
variable {s : State} {flow : Nat}

theorem exec_deadlockTimeout : exec (.deadlockTimeout flow) s =
    happens s (if (mget s.flows flow).isSome then none else some { s with flows := mset s.flows flow s.clk }) := rfl

theorem exec_escapeReturn : exec (.escapeReturn flow) s = happens s ((mget s.flows flow).bind fun since =>
    if s.clk < since + 850 then none else some (flowReturns s flow)) := rfl

/-- A flow that comes back leaves the channel; its flits are counted at a link. -/
theorem flowReturns_shape (s : State) (flow : Nat) :
    ∃ n x, flowReturns s flow = { s with seed := n, ctxs := x, flows := mdel s.flows flow } := by
  obtain ⟨n, x, h⟩ := countLink_shape { s.draw.2 with flows := mdel s.flows flow } 6 (Config.freeNat s.seed % 22)
    (Config.freeNat (Config.freeNat s.seed))
  exact ⟨n, x, h⟩

end

/-- Settles O46: each event by what it logs, counts and stops. -/
theorem healthAndLinks : Obligations.HealthAndLinks := by
  unfold Obligations.HealthAndLinks
  intro s c w temp volt k flow m since x y clear rails overI overP hot below past bad burst recent
  refine ⟨fun hdead => ?dead, fun hlive hrails hlim hbelow hpast hbad => ?sample, fun hready hm => ?monitor,
    fun hready hm => ?noMonitor, fun hready => ?log, fun hready => ⟨?_, ?_⟩, fun hx hlive hrecent hburst => ⟨fun hup => ?frame,
      exec_linkFrameError_down hx⟩, fun hx hlive hre => ⟨fun hfull => ?halved, fun good hgood => ?lost⟩,
    fun hflow => ⟨?_, ?_⟩, fun hflow => ⟨?_, fun hearly => ?early, fun hlate => ?late⟩⟩
  case dead =>
    show execRailSample c w temp volt s = _
    rw [execRailSample, hdead, if_pos rfl]
  case sample =>
    obtain rfl : overI = overCurrent := funext fun l => (hlim l).1
    obtain rfl : overP = overPower := funext fun l => (hlim l).2.1
    obtain rfl : hot = tooHot := funext fun l => (hlim l).2.2
    subst hrails hbelow hpast hbad
    have hrun : s.reg.ready.error ≠ 9 := of_decide_eq_false hlive
    obtain ⟨t, he, hmem, hteams, hgrids, hqueues, hcpcs, hparts, hrails, hthrottle, hready, hserial⟩ :=
      exec_railSample s c w temp volt hrun
    have henergy := railSampled_energy s c w temp volt
    rw [← hparts] at henergy
    by_cases hout : volt < 370 ∨ 115 * 8 < temp
    · have htrun : t.reg.ready.error ≠ 9 := by rw [hready]; exact hrun
      obtain ⟨-, -, hcpc, hqueue, -⟩ := deviceError_facts t 6 (by decide)
      obtain ⟨hmem', hteams', hparts', -, hrails', hthrottle', -, hbits, herror, hserial'⟩ :=
        deviceError_keeps (code := 6) htrun (by decide) rfl
      rw [if_pos hout] at he
      refine ⟨_, he, hmem'.trans hmem, hteams'.trans hteams, hrails'.trans hrails, hthrottle'.trans hthrottle,
        by rw [hbits, hready], ?_, ?_, by rw [hparts']; exact henergy, fun h => ?_,
        fun _ => ⟨hqueue, fun n z hz hn => hcpc n z hz hn⟩⟩
      · rw [decide_eq_true hout]; exact herror
      · rw [decide_eq_true hout, hserial', hserial]; exact railSerial_sum s c w temp volt 1
      · exact absurd hout (of_decide_eq_false h)
    · rw [if_neg hout] at he
      refine ⟨_, he, hmem, hteams, hrails, hthrottle, by rw [hready], ?_, ?_, henergy, fun _ => ⟨hgrids, hqueues, hcpcs⟩,
        fun h => absurd (of_decide_eq_true h) hout⟩
      · rw [decide_eq_false hout, hready]; rfl
      · rw [decide_eq_false hout, hserial]
        exact (BitVec.add_zero _).symm.trans (railSerial_sum s c w temp volt 0)
  case monitor =>
    refine ⟨_, exec_monitorRead hready hm clear, ?_⟩
    cases clear <;> exact ⟨rfl, rfl, rfl⟩
  case noMonitor =>
    show execHealthMonitorReadClear m clear s = _
    rw [execHealthMonitorReadClear, request_ready hready]
    simp only [hm]
  case log =>
    show execHealthLogRead s = _
    rw [execHealthLogRead, request_ready hready]
  case frame =>
    subst hrecent
    have hrun : s.reg.ready.error ≠ 9 := of_decide_eq_false hlive
    obtain ⟨n, ctxs, hshape⟩ := frameErred_shape s k x burst
    have htrun : (frameErred s k x burst).reg.ready.error ≠ 9 := by rw [hshape]; exact hrun
    obtain ⟨l, records, lost, hlog⟩ := health_if_logs htrun burst 6 (0x4000 + k) 0
      (BitVec.ofNat 64 (s.clk :: x.recent s.clk).length) 0
    refine ⟨_, (exec_linkFrameError hx hup hburst).trans (congrArg Host.Outcome.next hlog), ?_⟩
    rw [hshape]
    refine ⟨?_, rfl, rfl, rfl, rfl, rfl⟩
    exact (mget_mmod_self _ _ _).trans (by rw [hx]; rfl)
  case halved =>
    have hrun : (linkHalved s k x).reg.ready.error ≠ 9 := of_decide_eq_false hlive
    obtain ⟨l, records, lost, hlog⟩ := health_none_logs hrun 6 (0x4000 + k) 1 (BitVec.ofNat 64 (x.recent s.clk).length) 0
    refine ⟨_, (exec_linkRetrain_halved hx hre hfull).trans (congrArg Host.Outcome.next hlog), rfl, ?_, rfl, rfl, rfl⟩
    exact (mget_mmod_self _ _ _).trans (by rw [hx]; rfl)
  case lost =>
    have hrun : s.reg.ready.error ≠ 9 := of_decide_eq_false hlive
    obtain ⟨t, he, hmem, hlink, hmonitors, hready⟩ := exec_linkRetrain_lost hx hre hrun hgood
    by_cases hk : 18 ≤ k
    · have htrun : t.reg.ready.error ≠ 9 := by rw [hready]; exact hrun
      obtain ⟨-, -, -, hqueue, -⟩ := deviceError_facts t 7 (by decide)
      obtain ⟨hmem', -, -, hlinks', -, -, hmonitors', -, herror, -⟩ := deviceError_keeps (code := 7) htrun (by decide) rfl
      rw [if_pos hk] at he
      refine ⟨_, he, hmem'.trans hmem, by rw [hlinks']; exact hlink, hmonitors'.trans hmonitors, ?_, fun _ => hqueue⟩
      rw [if_pos hk]
      exact herror
    · rw [if_neg hk] at he
      exact ⟨t, he, hmem, hlink, hmonitors, by rw [if_neg hk, hready], fun h => absurd h hk⟩
  case early => rw [exec_escapeReturn, hflow, Option.bind_some, if_pos hearly]; rfl
  case late =>
    obtain ⟨n, ctxs, hshape⟩ := flowReturns_shape s flow
    refine ⟨flowReturns s flow, ?_, ?_⟩
    · rw [exec_escapeReturn, hflow, Option.bind_some, if_neg (Nat.not_lt.mpr hlate)]; rfl
    · rw [hshape]; exact ⟨rfl, rfl, rfl, rfl⟩
  · show execHealthMonitorReadClear m clear s = _
    exact request_notReady hready _
  · show execHealthLogRead s = _
    exact request_notReady hready _
  · rw [exec_deadlockTimeout, hflow]; rfl
  · rw [exec_escapeReturn, hflow]; rfl
  · rw [exec_deadlockTimeout, hflow]; rfl

end Sys2Proof.Machine
end

/-! ## O45: bring-up -/

section
namespace Sys2Proof.Machine

/-! ### Memory that is cleared in part -/

/-- A map keeps what stands at the keys that a filter passes. -/
theorem mget_filter {α : Type} (m : AMap α) (q : Nat → Bool) (k : Nat) :
    mget (m.filter fun e => q e.1) k = if q k = true then mget m k else none := by
  induction m with
  | nil => exact (ite_self none).symm
  | cons e t ih =>
    obtain ⟨n, x⟩ := e
    by_cases hn : q n = true
    · rw [List.filter_cons_of_pos (p := fun e : Nat × α => q e.1) hn]
      by_cases hk : n = k
      · subst hk; simp [mget, hn]
      · simpa [mget, hk] using ih
    · rw [List.filter_cons_of_neg (p := fun e : Nat × α => q e.1) hn]
      by_cases hk : n = k
      · subst hk; simpa [hn] using ih
      · simpa [mget, hk] using ih

theorem byteAt_filter (m : Memory) (q : Nat → Bool) (k : Nat) :
    byteAt (m.filter fun e => q e.1) k = if q k = true then byteAt m k else 0 := by
  rw [byteAt, mget_filter]
  split <;> rfl

/-! ### The boot ROM's steps (R403, R404) -/

section
variable {s : State}

/-- A step that passes sets its bits of READY. -/
def State.bootRises (s : State) (bits : List Nat) : State :=
  s.modReg fun r => { bits.foldl (fun r n => setReadyBit r n true) r with step := r.step + 1 }

/-- On a device that is not up, a power-on is the boot ROM's next step. -/
theorem exec_powerOnReset_boots (h : s.reg.step < 6) : exec .powerOnReset s = happens s (bootStep s) := if_pos h

section
variable {bs : List Byte} (h0 : s.reg.step = 0) (hc : s.reg.config = some bs)
include h0 hc

theorem bootStep_configured (hsig : Config.signatureOk bs = true) (hok : Config.configOk bs = true) :
    bootStep s = some (State.bootRises (s.modReg fun r => { r with
      verified := some bs, identity := some (Config.identityKey bs) }) [0]) := by
  simp only [bootStep, h0, hc, Option.map_some, hsig, hok, Bool.and_self, if_true]
  rfl

theorem bootStep_unsigned (hsig : Config.signatureOk bs = false) : bootStep s = some (bootFails s 1) := by
  simp only [bootStep, h0, hc, Option.map_some, hsig, Bool.false_and, Bool.false_eq_true, if_false]

end

theorem bootStep_powered (h1 : s.reg.step = 1) : bootStep s = some
    (if Config.stepOk (Config.freeNat s.seed) then s.draw.2.bootRises [1, 2, 3] else bootFails s.draw.2 3) := by
  simp only [bootStep, h1]
  rfl

theorem bootStep_scrubbed (h2 : s.reg.step = 2) : bootStep s = some
    (if Config.stepOk (Config.freeNat s.seed) then (scrubAll s.draw.2).bootRises [4] else bootFails s.draw.2 4) := by
  simp only [bootStep, h2]
  rfl

theorem bootStep_loaded {bs : List Byte} (h3 : s.reg.step = 3) (hi : s.reg.image = some bs) : bootStep s = some
    (if firmwareBad s.reg bs then bootFails s 2 else (startFirmware s (parseFirmware bs)).bootRises [5]) := by
  simp only [bootStep, h3, hi, Option.map_some]
  rfl

theorem bootStep_linked (h4 : s.reg.step = 4) : bootStep s = some (s.bootRises [6]) := by
  simp only [bootStep, h4]
  rfl

theorem bootStep_examined (h5 : s.reg.step = 5) : bootStep s = some
    ((runExam s true allClusters).2.modReg fun r => { r with step := if (runExam s true allClusters).1 then 6 else 7 }) := by
  simp only [bootStep, h5]

/-- Scrubbed, both tiers read zero, and the host's and peers' memory is as it was. -/
theorem byteAt_scrubAll (s : State) (k : Nat) :
    byteAt (scrubAll s).mem k = if memKey 2 0 ≤ k ∧ k < memKey 4 0 then byteAt s.mem k else 0 := by
  refine (byteAt_filter s.mem (fun k => decide (memKey 2 0 ≤ k ∧ k < memKey 4 0)) k).trans ?_
  simp only [decide_eq_true_eq]

/-! ### The exam (R410) -/

/-- The registrar after an exam that passes: an error of a failed one is gone. -/
def Registrar.examPassed (r : Registrar) : Registrar :=
  let r := setReadyBit { r with exam := 1 } 7 true
  if r.ready.error = 5 then setError r 0 else r

theorem examPassed_facts (r : Registrar) :
    r.examPassed.ready.bits = r.ready.bits ||| 128 ∧ r.examPassed.exam = 1 ∧ r.examPassed.step = r.step := by
  unfold Registrar.examPassed
  dsimp only
  split <;> exact ⟨rfl, rfl, rfl⟩

theorem runExam_passes (hok : Config.stepOk (Config.freeNat s.seed) = true) (full : Bool) (cs : List Nat) :
    runExam s full cs = (true, s.draw.2.modReg Registrar.examPassed) := by
  simp only [runExam, State.draw, hok, if_true]
  rfl

theorem runExam_fails (hbad : Config.stepOk (Config.freeNat s.seed) = false) (full : Bool) (cs : List Nat) :
    ∃ word, runExam s full cs = (false, s.draw.2.modReg fun r => setError (setReadyBit { r with exam := word } 7 false) 5) := by
  simp only [runExam, State.draw, hbad, Bool.false_eq_true, if_false]
  exact ⟨_, rfl⟩

/-! ### EXAM_REQUEST (R410) -/

/-- A partition that is removed is there no longer. -/
theorem mget_removePart_self (s : State) (p : Nat) : mget (removePart s p).parts p = none := by
  unfold removePart
  dsimp only
  rw [mget_map, mget_mdel_self]
  · rfl
  · exact fun _ => rfl


section
variable {p : Nat} {full : Bool} (h : s.reg.isReady = true ∨ examWaits s.reg = true)
include h

/-- What an exam that passes leaves: a partition that was kept unavailable is removed. -/
theorem exec_examRequest_passes (hok : Config.stepOk (Config.freeNat s.seed) = true) : ∃ t,
    exec (.examRequest p full) s = .next t ∧ t.reg = { s.reg.examPassed with step := 6 } ∧
      ∀ x, mget s.parts p = some x → mget t.parts p = if x.available then some x else none := by
  have hrun : ¬(!s.reg.isReady && !examWaits s.reg) = true := by
    rcases h with h | h <;> simp [h]
  have he : exec (.examRequest p full) s = .next (match mget s.parts p with
      | some x => if x.available then (s.draw.2.modReg fun r => { r.examPassed with step := 6 })
        else removePart (s.draw.2.modReg fun r => { r.examPassed with step := 6 }) p
      | none => s.draw.2.modReg fun r => { r.examPassed with step := 6 }) := by
    show execExamRequest p full s = _
    simp only [execExamRequest, if_neg hrun, runExam_passes hok]
    rfl
  cases hx : mget s.parts p with
  | none =>
    simp only [hx] at he
    exact ⟨_, he, rfl, fun x hx => absurd hx.symm (Option.some_ne_none x)⟩
  | some x =>
    simp only [hx] at he
    cases ha : x.available with
    | true =>
      refine ⟨_, he.trans (congrArg _ (if_pos ha)), rfl, fun y hy => ?_⟩
      obtain rfl := Option.some.inj hy
      rw [ha]
      exact hx
    | false =>
      refine ⟨_, he.trans (congrArg _ (if_neg (by rw [ha]; decide))), rfl, fun y hy => ?_⟩
      obtain rfl := Option.some.inj hy
      rw [ha]
      exact mget_removePart_self _ _

/-- What an exam that fails leaves: its partition is kept unavailable. -/
theorem exec_examRequest_fails (hbad : Config.stepOk (Config.freeNat s.seed) = false) : ∃ t,
    exec (.examRequest p full) s = .next t ∧ t.reg.ready.bits = s.reg.ready.bits &&& 127 ∧ t.reg.ready.error = 5 ∧
      ∀ x, mget s.parts p = some x → mget t.parts p = some { x with available := false } := by
  have hrun : ¬(!s.reg.isReady && !examWaits s.reg) = true := by
    rcases h with h | h <;> simp [h]
  obtain ⟨word, hexam⟩ := runExam_fails hbad full (((mget s.parts p).map fun x => ownClusters x.record).getD allClusters)
  have he : exec (.examRequest p full) s = .next (match mget s.parts p with
      | some x => { (s.draw.2.modReg fun r => setError (setReadyBit { r with exam := word } 7 false) 5) with
        parts := mset s.parts p { x with available := false } }
      | none => s.draw.2.modReg fun r => setError (setReadyBit { r with exam := word } 7 false) 5) := by
    show execExamRequest p full s = _
    simp only [execExamRequest, if_neg hrun, hexam]
    rfl
  cases hx : mget s.parts p with
  | none =>
    simp only [hx] at he
    exact ⟨_, he, rfl, rfl, fun x hx => absurd hx.symm (Option.some_ne_none x)⟩
  | some x =>
    simp only [hx] at he
    refine ⟨_, he, rfl, rfl, fun y hy => ?_⟩
    obtain rfl := Option.some.inj hy
    exact mget_mset_self _ _ _

end

theorem exec_examRequest_refused {p : Nat} {full : Bool} (hr : s.reg.isReady = false) (hw : examWaits s.reg = false) :
    exec (.examRequest p full) s = .next (s.answer 0x100 []) := by
  show execExamRequest p full s = _
  simp only [execExamRequest, hr, hw, Bool.not_false, Bool.and_self, if_true]

/-! ### FIRMWARE_LOAD (R406, R409) -/

section
variable {bs : List Byte} (hlive : s.reg.isDead = false)
include hlive

theorem exec_firmwareLoad_early (h : s.reg.step < 4) :
    exec (.firmwareLoad bs) s = .next (s.modReg fun r => { r with image := some bs }) := by
  show execFirmwareLoad bs s = _
  simp only [execFirmwareLoad, hlive, Bool.false_eq_true, if_false, if_pos h]

theorem exec_firmwareLoad_late (h : 4 ≤ s.reg.step) : exec (.firmwareLoad bs) s = .next (giveImage s bs) := by
  show execFirmwareLoad bs s = _
  simp only [execFirmwareLoad, hlive, Bool.false_eq_true, if_false, if_neg (Nat.not_lt.mpr h)]

end

theorem giveImage_bad {bs : List Byte} (h : firmwareBad s.reg bs = true) :
    giveImage s bs = s.modReg fun r => setError r 2 := if_pos h

theorem giveImage_good {bs : List Byte} (h : firmwareBad s.reg bs = false) :
    giveImage s bs = s.modReg fun r => imageGood
      (if (r.firmware.map (·.digest)) = some (parseFirmware bs).digest then r else { r with staged := some (parseFirmware bs) }) := by
  simp only [giveImage, h, Bool.false_eq_true, if_false]

end

/-- Settles O45: each step of the boot ROM by what it leaves, the exam and the images likewise. -/
theorem bringUp : Obligations.BringUp := by
  unfold Obligations.BringUp
  intro s bs p full
  have boots {t : State} (h : s.reg.step < 6) (ht : bootStep s = some t) : exec .powerOnReset s = .next t := by
    rw [exec_powerOnReset_boots h, ht]
    rfl
  refine ⟨fun h => if_neg (Nat.not_lt.mpr h), fun h hc hsig hok => ?configured, fun h hc hsig => ?unsigned, fun h hok => ?powered,
    fun h hbad => ?stopped, fun h hok => ?scrubbed, fun h hi hgood => ?loaded, fun h hi hbad => ?refused, fun h => ?linked, rfl,
    fun h => ?examined, fun hdead => ?dead, exec_firmwareLoad_early, fun hlive h => ⟨fun hbad => ?_, fun hgood heq => ?_,
      fun hgood hne => ?_⟩, fun h => ?exam, exec_examRequest_refused⟩
  case configured =>
    refine ⟨_, boots (by omega) (bootStep_configured h hc hsig hok), rfl, ?_, rfl, rfl⟩
    exact congrArg (· + 1) h
  case unsigned => exact ⟨_, boots (by omega) (bootStep_unsigned h hc hsig), rfl, rfl, rfl⟩
  case powered =>
    refine ⟨_, boots (by omega) ((bootStep_powered h).trans (congrArg some (if_pos hok))), ?_, congrArg (· + 1) h⟩
    show s.reg.ready.bits ||| 2 ||| 4 ||| 8 = _
    rw [BitVec.or_assoc, BitVec.or_assoc]
    rfl
  case stopped =>
    rcases h with h | h
    · refine ⟨_, boots (by omega) ((bootStep_powered h).trans (congrArg some (if_neg (by simp [hbad])))), rfl, ?_, rfl⟩
      rw [if_pos h]
      rfl
    · refine ⟨_, boots (by omega) ((bootStep_scrubbed h).trans (congrArg some (if_neg (by simp [hbad])))), rfl, ?_, rfl⟩
      rw [h]
      rfl
  case scrubbed =>
    refine ⟨_, boots (by omega) ((bootStep_scrubbed h).trans (congrArg some (if_pos hok))), fun k hk => ?_, fun k hlow hhigh => ?_,
      fun k hk => ?_, rfl, rfl, congrArg (· + 1) h⟩
    · exact (byteAt_scrubAll s.draw.2 k).trans (if_neg (by omega))
    · exact (byteAt_scrubAll s.draw.2 k).trans (if_pos ⟨hlow, hhigh⟩)
    · exact of_decide_eq_true (List.mem_filter.mp hk).2
  case loaded =>
    exact ⟨_, boots (by omega) ((bootStep_loaded h hi).trans (congrArg some (if_neg (by simp [hgood])))), rfl, rfl,
      congrArg (· + 1) h⟩
  case refused =>
    exact ⟨_, boots (by omega) ((bootStep_loaded h hi).trans (congrArg some (if_pos hbad))), rfl, rfl, rfl, rfl⟩
  case linked => exact ⟨_, boots (by omega) (bootStep_linked h), rfl, congrArg (· + 1) h⟩
  case examined =>
    refine ⟨_, boots (by omega) (bootStep_examined h), fun hok => ?_, fun hbad => ?_⟩
    · obtain ⟨hbits, hexam, -⟩ := examPassed_facts s.reg
      rw [runExam_passes hok]
      exact ⟨hbits, hexam, rfl⟩
    · obtain ⟨word, hexam⟩ := runExam_fails hbad true allClusters
      rw [hexam]
      exact ⟨rfl, rfl, rfl⟩
  case dead =>
    show execFirmwareLoad bs s = _
    rw [execFirmwareLoad, if_pos hdead]
  case exam =>
    cases hok : Config.stepOk (Config.freeNat s.seed) with
    | true =>
      obtain ⟨t, he, hreg, hpart⟩ := exec_examRequest_passes (p := p) (full := full) h hok
      obtain ⟨hbits, hexam, -⟩ := examPassed_facts s.reg
      exact ⟨t, he, fun _ => ⟨by rw [hreg]; exact hbits, by rw [hreg]; exact hexam, hpart⟩, nofun⟩
    | false =>
      obtain ⟨t, he, hbits, herror, hpart⟩ := exec_examRequest_fails (p := p) (full := full) h hok
      exact ⟨t, he, nofun, fun _ => ⟨hbits, herror, hpart⟩⟩
  · rw [exec_firmwareLoad_late hlive h, giveImage_bad hbad]
  · rw [exec_firmwareLoad_late hlive h, giveImage_good hgood]
    exact congrArg (fun r => Host.Outcome.next { s with reg := imageGood r }) (if_pos heq)
  · rw [exec_firmwareLoad_late hlive h, giveImage_good hgood]
    exact congrArg (fun r => Host.Outcome.next { s with reg := imageGood r }) (if_neg hne)

end Sys2Proof.Machine
end

/-! ## O44: tenants leave, and clusters are lent -/

section
namespace Sys2Proof.Machine

section
variable {s : State}

/-! ### Queue images (R401) -/

section
variable {q : Nat} {x : Queue} (hready : s.reg.isReady = true) (hq : mget s.queues q = some x)
include hready hq

/-- A queue that has left: its state is 0, and it takes no command. -/
def Queue.exported (x : Queue) : Queue := { x.write { x.img with state := 0 } with disabled := true, armed := none }

theorem exec_queueExport_held (hheld : x.held = true) : exec (.queueExport q) s = .next (s.answer 0x102 []) := by
  show execQueueExport q s = _
  rw [execQueueExport, request_ready hready]
  simp only [hq, hheld, if_true]

theorem exec_queueExport_leaves (hheld : x.held = false) : exec (.queueExport q) s =
    .next ((s.modQueue q Queue.exported).modReg fun r => { r with mgmt := queueImage x }) := by
  show execQueueExport q s = _
  rw [execQueueExport, request_ready hready]
  simp only [hq, hheld, Bool.false_eq_true, if_false]
  rfl

/-- A queue with an image, its armed wait and its window. -/
def Queue.imported (x : Queue) (img : List Byte) (win : List (W64 × W64)) (armed : Option Armed) : Queue :=
  { x.write (jimgOf (img.take 320)) with
    wptr := BitVec.ofNat 32 (bytesNat ((img.drop 408).take 4)), window := win, armed := armed, disabled := false }

/-- A queue image enters a queue of its partition. -/
theorem exec_queueImport_enters {part : Nat} {img : List Byte} (hpart : x.part = part) (hlen : img.length = 448) :
    ∃ win armed, exec (.queueImport q part img) s =
      .next ((s.modQueue q (·.imported img win armed)).answer 0 [0]) := by
  have hfits : ¬(x.part ≠ part ∨ img.length ≠ 448) := by simp [hpart, hlen]
  show ∃ win armed, execQueueImport q part img s = _
  rw [execQueueImport, request_ready hready]
  simp only [hq, if_neg hfits]
  exact ⟨_, _, rfl⟩

end

/-! ### Lending (R387, R388) -/

section
variable {cl l b : Nat} {y : Part} (hl : lenderOf s cl = some (l, y))
include hl

theorem exec_clusterLend_takes {e : Nat × Part} (hidle : clusterIdle s cl = true) (hfree : mget y.lent cl = none)
    (htakes : (s.parts.find? fun e => decide (e.1 ≠ l) && e.2.record.getLsbD 25 && y.record.getLsbD (96 + e.1) &&
      blockPending s e.1) = some e) :
    exec (.clusterLend cl) s = .next ((State.raise { s with
      parts := mmod s.parts l fun y => { y with lent := mset y.lent cl e.1 } } (l + 1) 0).raise (e.1 + 1) 0) := by
  show execClusterLend cl s = _
  simp only [execClusterLend, hl, Option.bind_some, hidle, hfree, Bool.not_true, Option.isSome_none, Bool.or_self,
    Bool.false_eq_true, if_false, htakes, Option.map_some]
  rfl

section
variable (hlent : mget y.lent cl = some b)
include hlent

theorem exec_clusterRevoke_asks (hnew : cl ∉ y.revoking) (hwould : wouldHold s cl l = true) :
    exec (.clusterRevoke cl) s = .next (revoke s cl l) := by
  show execClusterRevoke cl s = _
  simp only [execClusterRevoke, hl, Option.bind_some, hlent, Option.isSome_some, hnew, not_false_eq_true, hwould, and_self,
    if_true]
  rfl

theorem exec_hostRevoke_asks (hready : s.reg.isReady = true) (hnew : cl ∉ y.revoking) :
    exec (.hostRevoke cl) s = .next ((revoke s cl l).answer 0 [0]) := by
  show execHostRevoke cl s = _
  rw [execHostRevoke, request_ready hready]
  simp only [hl, hlent, Option.isSome_some, hnew, not_false_eq_true, and_self, if_true]

/-- The cluster's cores are scrubbed before it returns. -/
def scrubbedCluster (s : State) (cl : Nat) : State := (List.range 4).foldl (fun s i => coldCore s (4 * cl + i)) s

/-- A partition whose cluster has returned. -/
def Part.gotBack (y : Part) (cl : Nat) : Part :=
  { y with lent := mdel y.lent cl, revoking := y.revoking.filter fun c => decide (c ≠ cl) }

theorem exec_revocationReturn_gives (hasked : cl ∈ y.revoking) (hidle : clusterIdle s cl = true) :
    exec (.revocationReturn cl) s = .next ((State.raise { scrubbedCluster s cl with
      parts := mmod s.parts l fun y => y.gotBack cl } (l + 1) 0).raise (b + 1) 0) := by
  show execRevocationReturn cl s = _
  simp only [execRevocationReturn, hl, Option.bind_some, hlent, hasked, hidle, and_self, if_true]
  rfl

end
end

/-- Nothing of a scrubbed cluster stands in an instruction cache. -/
theorem icache_scrubbedCluster {cl : Nat} {c : ICacheEnt} (hc : c ∈ (scrubbedCluster s cl).icache) : c.core / 4 ≠ cl := by
  have hsteps : scrubbedCluster s cl = coldCore (coldCore (coldCore (coldCore s (4 * cl + 0)) (4 * cl + 1)) (4 * cl + 2))
    (4 * cl + 3) := rfl
  rw [hsteps] at hc
  simp only [coldCore, List.mem_filter, decide_eq_true_eq] at hc
  omega

theorem mem_scrubbedCluster (cl : Nat) : (scrubbedCluster s cl).mem = s.mem := rfl

/-! ### What a turnover scrubs (R408) -/

/-- A range of memory zeroed, with its poison and key tags. -/
def zeroRange (s : State) (k n : Nat) : State := { s with
  mem := scrubRange s.mem k n
  poison := s.poison.filter fun a => !decide (k ≤ a * 64 ∧ a * 64 < k + n)
  keyTags := s.keyTags.filter fun e => !decide (k ≤ e.1 * 65536 ∧ e.1 * 65536 < k + n) }

/-- A range of memory holds nothing, neither data nor poison nor key tag. -/
def RangeClear (s : State) (k n : Nat) : Prop :=
  (∀ a, k ≤ a → a < k + n → byteAt s.mem a = 0) ∧
    (∀ a, k ≤ a * 65536 → a * 65536 < k + n → mget s.keyTags a = none) ∧
    ∀ a, k ≤ a * 64 → a * 64 < k + n → a ∉ s.poison

theorem byteAt_scrubRange (m : Memory) (k n a : Nat) :
    byteAt (scrubRange m k n) a = if a < k ∨ k + n ≤ a then byteAt m a else 0 := by
  refine (byteAt_filter m (fun a => decide (a < k ∨ k + n ≤ a)) a).trans ?_
  simp only [decide_eq_true_eq]

theorem mget_keyTags_zeroRange (s : State) (k n a : Nat) : mget (zeroRange s k n).keyTags a =
    if k ≤ a * 65536 ∧ a * 65536 < k + n then none else mget s.keyTags a := by
  refine (mget_filter s.keyTags (fun a => !decide (k ≤ a * 65536 ∧ a * 65536 < k + n)) a).trans ?_
  simp only [Bool.not_eq_true', decide_eq_false_iff_not, ite_not]

theorem zeroRange_clears (s : State) (k n : Nat) : RangeClear (zeroRange s k n) k n := by
  refine ⟨fun a hlow hhigh => ?_, fun a hlow hhigh => ?_, fun a hlow hhigh hin => ?_⟩
  · exact (byteAt_scrubRange s.mem k n a).trans (if_neg (by omega))
  · rw [mget_keyTags_zeroRange, if_pos ⟨hlow, hhigh⟩]
  · have := (List.mem_filter.mp hin).2
    simp [hlow, hhigh] at this

/-- What is clear stays so while another range is zeroed. -/
theorem RangeClear.zeroRange {k n : Nat} (h : RangeClear s k n) (k' n' : Nat) : RangeClear (zeroRange s k' n') k n := by
  obtain ⟨hmem, htags, hpoison⟩ := h
  refine ⟨fun a hlow hhigh => ?_, fun a hlow hhigh => ?_, fun a hlow hhigh hin => ?_⟩
  · exact (byteAt_scrubRange s.mem k' n' a).trans (by rw [hmem a hlow hhigh, ite_self])
  · rw [mget_keyTags_zeroRange, htags a hlow hhigh, ite_self]
  · exact hpoison a hlow hhigh (List.mem_filter.mp hin).1

/-- The range of memory that a partition has of a tier. -/
def TierClear (s : State) (r : BitVec 512) (tier : Nat) : Prop :=
  RangeClear s (memKey tier (tierRange r tier).1) (tierRange r tier).2

theorem zeroTiers_clears (s : State) (r : BitVec 512) {tier : Nat} (ht : tier ∈ [0, 1]) : TierClear (zeroTiers s r) r tier := by
  have hsteps : zeroTiers s r = zeroRange (zeroRange s (memKey 0 (tierRange r 0).1) (tierRange r 0).2)
    (memKey 1 (tierRange r 1).1) (tierRange r 1).2 := rfl
  rw [hsteps]
  simp only [List.mem_cons, List.not_mem_nil, or_false] at ht
  rcases ht with rfl | rfl
  · exact (zeroRange_clears s _ _).zeroRange _ _
  · exact zeroRange_clears _ _ _

/-! ### How a turnover ends (R408, R410) -/

/-- A state that differs in a draw, the cores and the registrar only. -/
def ImageGiven (s t : State) : Prop := ∃ n c r, t = { s with seed := n, cpcs := c, reg := r }

theorem ImageGiven.trans {t u : State} (h : ImageGiven s t) (h' : ImageGiven t u) : ImageGiven s u := by
  obtain ⟨n, c, r, rfl⟩ := h
  obtain ⟨n', c', r', rfl⟩ := h'
  exact ⟨n', c', r', rfl⟩

theorem giveImage_given (s : State) (fw : List Byte) : ImageGiven s (giveImage s fw) := by
  unfold giveImage
  dsimp only
  split <;> exact ⟨s.seed, s.cpcs, _, rfl⟩

/-- What an image that covers every partition starts. -/
def startWhole (s : State) : State := match s.reg.staged with
  | some f => startFirmware s f
  | none => restartCores s

theorem startWhole_given (s : State) : ImageGiven s (startWhole s) ∧ (startWhole s).seed = s.seed := by
  unfold startWhole restartCores
  split
  · exact ⟨⟨s.seed, _, _, rfl⟩, rfl⟩
  · split
    · exact ⟨⟨s.seed, _, s.reg, rfl⟩, rfl⟩
    · exact ⟨⟨s.seed, s.cpcs, s.reg, rfl⟩, rfl⟩

/-- The device with the turnover's image, started where the turnover covers every partition (R409). -/
def imageTaken (s : State) (whole : Bool) (fw : List Byte) : State :=
  if whole then startWhole (giveImage s fw) else giveImage s fw

theorem imageTaken_given (s : State) (whole : Bool) (fw : List Byte) :
    ImageGiven s (imageTaken s whole fw) ∧ (imageTaken s whole fw).seed = s.seed := by
  have hseed : (giveImage s fw).seed = s.seed := by
    unfold giveImage
    dsimp only
    split <;> rfl
  cases whole with
  | false => exact ⟨giveImage_given s fw, hseed⟩
  | true =>
    obtain ⟨hgiven, hsame⟩ := startWhole_given (giveImage s fw)
    exact ⟨(giveImage_given s fw).trans hgiven, hsame.trans hseed⟩

theorem finishTurnover_good {p : Nat} {x : Part} {whole full : Bool} {fw : List Byte} (hgood : firmwareBad s.reg fw = false) :
    finishTurnover s p x whole full fw =
      let e := runExam (imageTaken s whole fw) full (ownClusters x.record)
      if e.1 then removePart e.2 p else keepPart e.2 p := by
  simp only [finishTurnover, hgood, Bool.false_eq_true, if_false]
  rfl

section
variable {p : Nat} {x : Part} {whole full : Bool} {fw : List Byte}

/-- Where the image verifies and the exam passes, the partition is free. -/
theorem finishTurnover_frees (hgood : firmwareBad s.reg fw = false) (hok : Config.stepOk (Config.freeNat s.seed) = true) :
    ∃ t, ImageGiven s t ∧ finishTurnover s p x whole full fw = removePart t p := by
  obtain ⟨hgiven, hseed⟩ := imageTaken_given s whole fw
  refine ⟨(imageTaken s whole fw).draw.2.modReg Registrar.examPassed, hgiven.trans ⟨_, _, _, rfl⟩, ?_⟩
  rw [finishTurnover_good hgood, runExam_passes (by rw [hseed]; exact hok)]
  rfl

/-- Where either does not, it is kept unavailable. -/
theorem finishTurnover_keeps (h : firmwareBad s.reg fw = true ∨ Config.stepOk (Config.freeNat s.seed) = false) :
    ∃ t, ImageGiven s t ∧ finishTurnover s p x whole full fw = keepPart t p := by
  cases hfw : firmwareBad s.reg fw with
  | true => exact ⟨giveImage s fw, giveImage_given s fw, if_pos hfw⟩
  | false =>
    have hbad := h.resolve_left (by rw [hfw]; decide)
    obtain ⟨hgiven, hseed⟩ := imageTaken_given s whole fw
    obtain ⟨word, hexam⟩ := runExam_fails (s := imageTaken s whole fw) (by rw [hseed]; exact hbad) full (ownClusters x.record)
    refine ⟨(imageTaken s whole fw).draw.2.modReg fun r => setError (setReadyBit { r with exam := word } 7 false) 5,
      hgiven.trans ⟨_, _, _, rfl⟩, ?_⟩
    rw [finishTurnover_good hfw, hexam]
    rfl

/-- A device that is ready is not down. -/
theorem not_isDown_of_isReady (h : s.reg.isReady = true) : s.reg.isDown = false := by
  simp only [Registrar.isReady, decide_eq_true_eq] at h
  simp only [Registrar.isDown, h.2]
  decide

/-- A turnover of a device that is ready. -/
theorem exec_turnover (hx : mget s.parts p = some x) (hready : s.reg.isReady = true) (images : Bool) : ∃ whole,
    exec (.turnover p images full fw) s = .next (finishTurnover (scrubPart (emptyPart s p images) p x) p x whole full fw) := by
  refine ⟨s.parts.all fun e => decide (e.1 = p), ?_⟩
  show execTurnover p images full fw s = _
  simp only [execTurnover, hx, hready, not_isDown_of_isReady hready, Bool.not_true, Bool.false_and, Bool.not_false,
    Bool.false_eq_true, if_false, if_true]

/-- A scrubbed partition has no keys and no session. -/
def Part.scrubbed (x : Part) : Part := { x with keys := [], session := none, lent := [], revoking := [] }

theorem mget_scrubPart (s : State) (p : Nat) (x : Part) : mget (scrubPart s p x).parts p = some x.scrubbed :=
  mget_mset_self _ _ _

theorem scrubPart_clears (s : State) (p : Nat) (x : Part) {tier : Nat} (ht : tier ∈ [0, 1]) :
    TierClear (scrubPart s p x) x.record tier := zeroTiers_clears _ _ ht

/-- No queue of a partition that is removed is left. -/
theorem queues_removePart {q : Nat} {y : Queue} (h : mget (removePart s p).queues q = some y) : y.part ≠ p :=
  of_decide_eq_true (List.mem_filter.mp (mem_of_mget h)).2

end

end

/-- Settles O44: each request and event by what it does with the queue, the cluster or the partition. -/
theorem tenantsAndLending : Obligations.TenantsAndLending := by
  unfold Obligations.TenantsAndLending
  intro s u q part cl l p b x y z img fw e images full
  refine ⟨fun hready hq => ⟨fun hheld => ?leaves, exec_queueExport_held hready hq, fun hpart hlen => ?enters⟩,
    fun hl hidle hfree htakes => exec_clusterLend_takes hl hidle hfree htakes,
    fun hl hlent hnew hwould => exec_clusterRevoke_asks hl hlent hnew hwould,
    fun hready hl hlent hnew => exec_hostRevoke_asks hl hlent hready hnew, fun hl hlent hasked hidle => ?returns,
    fun hnone => ?noPart, fun hz hready hu => ?turnover⟩
  case leaves =>
    refine ⟨_, x.exported, exec_queueExport_leaves hready hq hheld, rfl, ?_, Queue.img_write x _, rfl, rfl, rfl⟩
    exact (mget_mmod_self _ _ _).trans (by rw [hq]; rfl)
  case enters =>
    obtain ⟨win, armed, he⟩ := exec_queueImport_enters hready hq hpart hlen
    exact ⟨_, x.imported img win armed, he, (mget_mmod_self _ _ _).trans (by rw [hq]; rfl), Queue.img_write x _, rfl, rfl, rfl⟩
  case returns =>
    refine ⟨_, exec_revocationReturn_gives hl hlent hasked hidle, ?_⟩
    obtain ⟨v, o, h1⟩ := raise_shape { scrubbedCluster s cl with parts := mmod s.parts l fun y => y.gotBack cl } (l + 1) 0
    obtain ⟨v', o', h2⟩ := raise_shape { { scrubbedCluster s cl with parts := mmod s.parts l fun y => y.gotBack cl } with
      vectors := v, outbox := o } (b + 1) 0
    rw [h1, h2]
    refine ⟨fun z hz => ?_, fun c hc => icache_scrubbedCluster hc, rfl⟩
    obtain ⟨z0, -, rfl⟩ := Option.map_eq_some_iff.mp ((mget_mmod_self s.parts l (·.gotBack cl)).symm.trans hz)
    exact ⟨mget_mdel_self z0.lent cl, fun hin => of_decide_eq_true (List.mem_filter.mp hin).2 rfl⟩
  case noPart =>
    show execTurnover p images full fw s = _
    simp only [execTurnover, hnone]
  case turnover =>
    subst hu
    obtain ⟨whole, he⟩ := exec_turnover (full := full) (fw := fw) hz hready images
    have hclear {tier : Nat} (ht : tier ∈ [0, 1]) := scrubPart_clears (emptyPart s p images) p z ht
    have hpart := mget_scrubPart (emptyPart s p images) p z
    generalize scrubPart (emptyPart s p images) p z = u at he hclear hpart
    suffices h : ∃ t, exec (.turnover p images full fw) s = .next t ∧ (∀ tier ∈ [0, 1], TierClear t z.record tier) ∧
        (firmwareBad u.reg fw = false → Config.stepOk (Config.freeNat u.seed) = true →
          mget t.parts p = none ∧ ∀ q y, mget t.queues q = some y → y.part ≠ p) ∧
        (firmwareBad u.reg fw = true ∨ Config.stepOk (Config.freeNat u.seed) = false →
          mget t.parts p = some { z.scrubbed with available := false }) by
      obtain ⟨t, he, hclear, hfree, hkept⟩ := h
      refine ⟨t, he, fun tier ht a n k hr => ?_, fun tier ht a n k hr => ?_, fun tier ht a n k hr => ?_, hfree,
        fun hbad => ⟨_, hkept hbad, rfl, rfl, rfl⟩⟩
      all_goals
        have h := hclear tier ht
        rw [TierClear, hr] at h
        obtain ⟨hmem, htags, hpoison⟩ := h
      · exact hmem k
      · exact htags k
      · exact hpoison k
    by_cases hfine : firmwareBad u.reg fw = false ∧ Config.stepOk (Config.freeNat u.seed) = true
    · obtain ⟨hgood, hok⟩ := hfine
      obtain ⟨t, ⟨n, c, r, rfl⟩, hend⟩ := finishTurnover_frees (p := p) (x := z) (whole := whole) (full := full) hgood hok
      rw [hend] at he
      exact ⟨_, he, fun tier ht => hclear ht, fun _ _ => ⟨mget_removePart_self _ p, fun q y => queues_removePart⟩,
        fun hbad => by simp [hgood, hok] at hbad⟩
    · have hbad : firmwareBad u.reg fw = true ∨ Config.stepOk (Config.freeNat u.seed) = false := by
        cases hfw : firmwareBad u.reg fw with
        | true => exact .inl rfl
        | false => exact .inr (Bool.eq_false_of_not_eq_true fun hok => hfine ⟨hfw, hok⟩)
      obtain ⟨t, ⟨n, c, r, rfl⟩, hend⟩ := finishTurnover_keeps (p := p) (x := z) (whole := whole) (full := full) hbad
      rw [hend] at he
      refine ⟨_, he, fun tier ht => hclear ht, fun hgood hok => absurd ⟨hgood, hok⟩ hfine, fun _ => ?_⟩
      exact (mget_mmod_self u.parts p _).trans (by rw [hpart]; rfl)

end Sys2Proof.Machine
end

/-! ## O38, O39: ctrl -/

section
namespace Sys2Proof.Machine

/-! ### The control block (R369) -/

/-- The block's argument is the one that tells the command's mode. -/
def ctlModeFits (arg : Option (Nat × Nat)) (b : CtlBlk) : Prop := match arg with
  | some (0, v) => b.a0.toNat = v
  | some (_, v) => b.a1.toNat = v
  | none => True

section
variable {s t u : State} {q g : Nat} {x : Queue} {j : JImg} {a d : BitVec 4} {b : CtlBlk} {gr : Grid}
  {arg : Option (Nat × Nat)} {f : CtlOp}

theorem ctlModeFits_iff : ctlModeFits arg b ↔ (match arg with
    | some (0, v) => decide (b.a0.toNat ≠ v)
    | some (_, v) => decide (b.a1.toNat ≠ v)
    | none => false) = false := by
  unfold ctlModeFits
  split <;> simp

/-- A ctrl whose block names a grid performs its operation on it. -/
theorem performCtl_names (h : ctlNames s x (j.reg a.toNat) b g gr t) (hmode : ctlModeFits arg b)
    (absent : State → CtlBlk → DispRes) : performCtl arg f a s q x j absent = f t q x j b g gr := by
  obtain ⟨halign, segs, tier, y, hread, hclean, rfl, hlow, hhigh, hqueue, hpart, htarget, hgrid, hgpart⟩ := h
  have hmode := ctlModeFits_iff.mp hmode
  simp only [ctlBlkOf] at hqueue htarget hmode
  simp only [performCtl, halign, hread, hclean, hlow, hhigh, hqueue, hpart, htarget, hgrid, hgpart, ne_eq,
    not_true_eq_false, or_self, Bool.false_eq_true, if_false, Option.bind_some, Option.map_some]
  exact if_neg fun hwrong => Bool.false_ne_true (hmode.symm.trans hwrong)

/-- One whose block names none ends as it does where there is none. -/
theorem performCtl_nothing (h : ctlNothing s x (j.reg a.toNat) b t) (absent : State → CtlBlk → DispRes) :
    performCtl none f a s q x j absent = absent t b := by
  obtain ⟨halign, segs, tier, y, hread, hclean, rfl, hlow, hhigh, hqueue, hpart, htarget⟩ := h
  simp only [ctlBlkOf] at hqueue htarget
  simp only [performCtl, halign, hread, hclean, hlow, hhigh, hqueue, hpart, htarget, ne_eq,
    not_true_eq_false, or_self, Bool.false_eq_true, if_false, Option.bind_none]
  rfl

section
variable (hq : queueTurn s q x j) (hd : undispatched x j)
include hq hd

theorem ctrl_nothing {v : W64} {absent : Nat → Queue → JImg → State → CtlBlk → DispRes}
    (h : ctlNothing s x (j.reg a.toNat) b t) (ha : absent q x j t b = .done v u) :
    dispatched s (fun q x j => performCtl none f a s q x j (absent q x j)) (fun v j => j.setReg d.toNat v) =
      ctlEnds u q j d v :=
  dispatched_done _ hq hd ((performCtl_nothing h _).trans ha)

theorem control_nothing (h : ctlNothing s x (j.reg a.toNat) b t) : control none f a d s = ctlEnds t q j d 12 :=
  ctrl_nothing (absent := fun _ _ _ s _ => .done 12 s) hq hd h rfl

variable (h : ctlNames s x (j.reg a.toNat) b g gr t)
include h

theorem ctrl_ends {v : W64} {absent : Nat → Queue → JImg → State → CtlBlk → DispRes} (hmode : ctlModeFits arg b)
    (hf : f t q x j b g gr = .done v u) :
    dispatched s (fun q x j => performCtl arg f a s q x j (absent q x j)) (fun v j => j.setReg d.toNat v) =
      ctlEnds u q j d v :=
  dispatched_done _ hq hd ((performCtl_names h hmode _).trans hf)

theorem ctrl_goesOn {absent : Nat → Queue → JImg → State → CtlBlk → DispRes} (hmode : ctlModeFits arg b)
    (hf : f t q x j b g gr = .waits u) :
    dispatched s (fun q x j => performCtl arg f a s q x j (absent q x j)) (fun v j => j.setReg d.toNat v) = .next u :=
  dispatched_waits _ hq hd ((performCtl_names h hmode _).trans hf)

theorem control_ends {v : W64} (hmode : ctlModeFits arg b) (hf : f t q x j b g gr = .done v u) :
    control arg f a d s = ctlEnds u q j d v :=
  ctrl_ends (absent := fun _ _ _ s _ => .done 12 s) hq hd h hmode hf

theorem control_goesOn (hmode : ctlModeFits arg b) (hf : f t q x j b g gr = .waits u) : control arg f a d s = .next u :=
  ctrl_goesOn (absent := fun _ _ _ s _ => .done 12 s) hq hd h hmode hf

end

/-! ### What a ctrl answers with (R369, R390) -/

/-- Bytes that are shown as they are: to a tenant, or of a context that is not confidential. -/
theorem giveBytes_plain {conf : Bool} (hshown : x.fn ≠ 0 ∨ conf = false) (segs : List (Nat × Nat)) (bs : List Byte) :
    giveBytes s x conf segs bs = sendPeer (putSegs s segs bs) segs := by
  have hplain : ¬(x.fn = 0 ∧ conf = true) := by rcases hshown with h | h <;> simp [h]
  simp only [giveBytes, showBytes, if_neg hplain]

end

/-! ### Operations on the grid (R369) -/

section
variable {s t u : State} {q g : Nat} {x : Queue} {j : JImg} {b : CtlBlk} {gr : Grid}

theorem ctlSetBreakpoint_sets (h : b.a0.toNat < 8) : ctlSetBreakpoint s q x j b g gr =
    .done 0 (modCtxGrids s gr.ctx fun y => { y with
      brks := y.brks.set b.a0.toNat ⟨b.a1.setWidth 32, b.a2.extractLsb' 0 5, b.a2.getLsbD 8⟩, allstop := b.a2.getLsbD 9 }) := by
  simp only [ctlSetBreakpoint, if_neg (Nat.not_le.mpr h)]

theorem ctlDispose_resumes (h : (ctxGrids s gr.ctx).findSome?
    (fun h => (disposeStop s h b.a0.toNat false).map fun v => settleAfter v h) = some u) :
    ctlDispose false s q x j b g gr = .done 0 u := by
  simp only [ctlDispose, Bool.false_eq_true, if_false, h]

theorem ctlDispose_steps (h : (ctxGrids s gr.ctx).findSome? (fun h => disposeStop s h b.a0.toNat true) = some u) :
    ctlDispose true s q x j b g gr = .done 0 u := by
  simp only [ctlDispose, if_true, Option.map_id', h]

theorem ctlAbort_retained (h : gr.status = .retained) : ctlAbort s q x j b g gr = .done 0 (abortTree s g) := by
  simp only [ctlAbort, h, ne_eq, not_true_eq_false, false_and, if_false]

theorem ctlRelease_retained (h : gr.status = .retained) : ctlReleaseRetained s q x j b g gr = .done 0 (releaseTree s g) := if_pos h

theorem ctlRelease_other (h : gr.status ≠ .retained) : ctlReleaseRetained s q x j b g gr = .done 13 s := if_neg h

theorem ctlTrimLog_trims {lg : UndoLog} {ck : Ckpt} (hlog : (mget s.ctxs gr.ctx).bind (·.ulog) = some lg)
    (hck : (lg.ckpts.find? fun c => decide (c.window.toNat = b.a0.toNat)) = some ck) : ctlTrimLog s q x j b g gr =
      .done 0 (s.modCtx gr.ctx fun y => { y with ulog := some { lg with
        tail := ck.start, oldwin := ck.window
        ckpts := lg.ckpts.filter fun c => decide (lg.age c.window ≤ lg.age ck.window) } }) := by
  simp only [ctlTrimLog, hlog, hck]

/-- What the host administrator is shown of a context of which it is not told that it is confidential. -/
theorem getD_false_of_ne {o : Option Bool} (h : x.fn ≠ 0 ∨ o ≠ some true) : x.fn ≠ 0 ∨ o.getD false = false := by
  refine h.imp_right fun h => ?_
  cases o with
  | none => rfl
  | some c =>
    cases c with
    | false => rfl
    | true => exact absurd rfl h

section
variable {segs : List (Nat × Nat)} {tier : Nat}

theorem ctlDebugRead_reads (hplace : qPlace s x b.a2 (b.a1.extractLsb' 0 32).toNat = .ok segs tier u)
    (hshown : x.fn ≠ 0 ∨ (mget u.ctxs gr.ctx).map (·.conf) ≠ some true) : ctlDebugRead s q x j b g gr =
      let r := debugBytes u g gr (b.a1.extractLsb' 32 32).toNat b.a0.toNat (b.a1.extractLsb' 0 32).toNat
      .done 0 (sendPeer (putSegs r.2 segs r.1) segs) := by
  simp only [ctlDebugRead, hplace]
  exact congrArg (DispRes.done 0) (giveBytes_plain (getD_false_of_ne hshown) _ _)

theorem ctlPreempt_retained (hret : gr.status = .retained) (hplace : qPlace s x b.a1 64 = .ok segs tier u)
    (hshown : x.fn ≠ 0 ∨ (mget s.ctxs gr.ctx).map (·.conf) ≠ some true) : ctlPreempt s q x j b g gr =
      .done 0 (sendPeer (putSegs u segs (natBytes 64 (doneHeader s g gr).toNat)) segs) := by
  simp only [ctlPreempt, hret, if_true, hplace]
  exact congrArg (DispRes.done 0) (giveBytes_plain (getD_false_of_ne hshown) _ _)

/-- A pre-empt saves a grid that is not saved, and writes its image where no CSM part is still to be copied. -/
theorem ctlPreempt_saves {k : Nat} {i : Image} (hnew : x.phase j = none) (hrun : gr.status ≠ .retained)
    (hnone : gridImage s g = none)
    (hsaved : gridImage (saveTree s g false (b.a0.getLsbD 0) (some (spaceKey x.part x.space, b.a1))) g = some (k, i))
    (hcsm : i.csmWanted = false) (hshown : x.fn ≠ 0 ∨ (mget s.ctxs gr.ctx).map (·.conf) ≠ some true)
    (hplace : qPlace (saveTree s g false (b.a0.getLsbD 0) (some (spaceKey x.part x.space, b.a1))) x b.a1
      (natBytes 64 i.hdr.toNat ++ imageBody gr.lrec i).length = .ok segs tier u) : ctlPreempt s q x j b g gr =
      .done 0 (sendPeer (putSegs u segs (natBytes 64 i.hdr.toNat ++ imageBody gr.lrec i)) segs) := by
  have hby : savedBy s x j b g gr = saveTree s g false (b.a0.getLsbD 0) (some (spaceKey x.part x.space, b.a1)) := by
    simp only [savedBy, hnone, hnew, Option.isSome_none, Bool.false_eq_true, if_false]
  simp only [ctlPreempt, if_neg hrun, hby, hsaved, hcsm, Bool.false_eq_true, if_false, Nat.add_zero, imageBytes, hplace]
  exact congrArg (DispRes.done 0) (giveBytes_plain (getD_false_of_ne hshown) _ _)

theorem ctlPreemptDone_header {e : Done}
    (he : s.done.find? (fun e => decide (e.clk = s.clk ∧ e.queue = b.queue ∧ e.csn = b.csn ∧ e.part = x.part)) = some e)
    (hplace : qPlace s x b.a1 64 = .ok segs tier u) (hshown : x.fn ≠ 0 ∨ e.conf = false) :
    ctlPreemptDone s x b = .done 0 (sendPeer (putSegs u segs (natBytes 64 e.hdr.toNat)) segs) := by
  simp only [ctlPreemptDone, he, hplace]
  exact congrArg (DispRes.done 0) (giveBytes_plain hshown _ _)

theorem ctlPreemptDone_none (h : ∀ e ∈ s.done, ¬(e.clk = s.clk ∧ e.queue = b.queue ∧ e.csn = b.csn ∧ e.part = x.part)) :
    ctlPreemptDone s x b = .done 12 s := by
  have hnone : s.done.find? (fun e => decide (e.clk = s.clk ∧ e.queue = b.queue ∧ e.csn = b.csn ∧ e.part = x.part)) = none :=
    List.find?_eq_none.mpr fun e he => by simpa using h e he
  simp only [ctlPreemptDone, hnone]

end

theorem ctlRestoreImage_begins {k : Nat} {i : Image} (hnew : x.phase j = none)
    (hours : (s.images.filter fun e => decide (e.2.gid = g) && e.2.grid.isSome).find?
      (fun e => decide (e.2.addr = some (spaceKey x.part x.space, b.a0))) = some (k, i)) (hgrid : restoreGrid s k = some u) :
    ctlRestoreImage s q x j b g gr = .waits (ctlPhase u q j 0) := by
  simp only [ctlRestoreImage, hnew, hours, restoreFrom, hgrid]
  rfl

theorem ctlRestoreImage_ends {n : Nat} (hphase : x.phase j = some n) (hback : ∀ e ∈ s.images, e.2.gid = g → e.2.auto = false) :
    ctlRestoreImage s q x j b g gr = .done 0 s := by
  have hnone : (s.images.any fun e => decide (e.2.gid = g) && e.2.auto) = false :=
    List.any_eq_false.mpr fun e he => by
      by_cases hg : e.2.gid = g
      · simp [hback e he hg]
      · simp [hg]
  simp only [ctlRestoreImage, hphase, hnone, Bool.false_eq_true, if_false]

end

/-- Settles O38: the command performs its operation on the grid that its block names, or ends where it names none. -/
theorem controlCommands : Obligations.ControlCommands := by
  unfold Obligations.ControlCommands
  intro s t u q g tier k x j a d b gr i segs n lg ck hq hd
  refine ⟨fun h => ⟨fun i hi => ?nothing, fun hnone => ?noneDone, fun e he hplace hshown => ?doneNow⟩, fun h => ?named⟩
  case nothing =>
    simp only [List.mem_cons, List.not_mem_nil, or_false] at hi
    rcases hi with rfl | rfl | rfl | rfl | rfl | rfl | rfl | rfl | rfl | rfl
    all_goals exact control_nothing hq hd h
  case noneDone =>
    exact ctrl_nothing (absent := fun _ x _ s b => ctlPreemptDone s x b) hq hd h (ctlPreemptDone_none hnone)
  case doneNow =>
    exact ctrl_nothing (absent := fun _ x _ s b => ctlPreemptDone s x b) hq hd h (ctlPreemptDone_header he hplace hshown)
  case named =>
    have preempts {u : State} {v : W64} (hf : ctlPreempt t q x j b g gr = .done v u) :
        exec (.ctrlPreempt a d) s = ctlEnds u q j d v :=
      ctrl_ends (absent := fun _ x _ s b => ctlPreemptDone s x b) hq hd h trivial hf
    refine ⟨control_ends hq hd h trivial rfl, control_ends hq hd h trivial rfl,
      fun hn => control_ends hq hd h trivial (ctlSetBreakpoint_sets hn), control_ends hq hd h trivial rfl,
      fun hm hstop => control_ends hq hd h hm (ctlDispose_resumes hstop),
      fun hm hstop => control_ends hq hd h hm (ctlDispose_steps hstop),
      fun hm hret => control_ends hq hd h hm (ctlAbort_retained hret),
      fun hret => control_ends hq hd h trivial (ctlRelease_retained hret),
      fun hrun => control_ends hq hd h trivial (ctlRelease_other hrun),
      fun hnew hrun hnone hsaved hcsm hshown hplace => preempts (ctlPreempt_saves hnew hrun hnone hsaved hcsm hshown hplace),
      fun hret hplace hshown => preempts (ctlPreempt_retained hret hplace hshown),
      fun hnew hours hgrid => ?begins, fun hphase hback => ?ends,
      fun hlog hck => control_ends hq hd h trivial (ctlTrimLog_trims hlog hck),
      fun hplace hshown => control_ends hq hd h trivial (ctlDebugRead_reads hplace hshown)⟩
    case begins =>
      exact ctrl_goesOn (absent := fun q x j s b => ctlRestoreForeign s q x j b) hq hd h trivial
        (ctlRestoreImage_begins hnew hours hgrid)
    case ends =>
      exact ctrl_ends (absent := fun q x j s b => ctlRestoreForeign s q x j b) hq hd h trivial
        (ctlRestoreImage_ends hphase hback)

/-! ### Rewinding, replay, reverse steps and markers (R320, R325, R327, R348) -/

section
variable {s u : State} {q g n : Nat} {x : Queue} {j : JImg} {b : CtlBlk} {gr : Grid} {lg : UndoLog} {ck : Ckpt}
  {l l' sp : List Chunk} {p : Party}

/-- The wait for a phase. -/
theorem inPhase_eq (s : State) (q : Nat) (j : JImg) (n : Nat) : inPhase s q j n = .waits (ctlPhase s q j n) := rfl

section
variable (hlog : (mget s.ctxs gr.ctx).bind (·.ulog) = some lg)
include hlog

theorem ctlRewind_begins (hnew : x.phase j = none) (hrest : atRest s g gr = true) (hfits : b.a0.toNat < 2 ^ 32)
    (htarget : lg.target (b.a0.setWidth 32) = some ck) (hreaches : lg.reaches ck = true)
    (hscript : ck.window = b.a0.setWidth 32 ∨ scriptFor s gr.ctx ck = true) : ctlRewind s q x j b g gr =
      .waits (let u := rewindTo s gr.ctx g gr lg ck
        ctlPhase u q j (if ((mget u.ctxs gr.ctx).map (·.unapplied)).getD [] = [] then 0 else 10)) := by
  have hmay : ¬(!(atRest s g gr) ∨ 2 ^ 32 ≤ b.a0.toNat) := not_or.mpr ⟨by simp [hrest], Nat.not_le.mpr hfits⟩
  have hgoes : ¬(!(lg.reaches ck) ∨ (ck.window ≠ b.a0.setWidth 32 ∧ !(scriptFor s gr.ctx ck))) := by
    rcases hscript with h | h <;> simp [hreaches, h]
  simp only [ctlRewind, hlog, hnew, if_neg hmay, htarget, if_neg hgoes]
  rfl

/-- Restored at the window itself, a rewind is complete. -/
theorem ctlRewind_there (hphase : x.phase j = some 0) (hback : restoring s gr.ctx = false)
    (hthere : lg.newwin = b.a0.setWidth 32) : ctlRewind s q x j b g gr = .done 0 s := by
  simp only [ctlRewind, hlog, hphase, hback, hthere, Nat.zero_mod, Bool.false_eq_true, if_false, if_true]
  rfl

/-- Restored at an earlier one, it replays to the window. -/
theorem ctlRewind_replays (hphase : x.phase j = some 0) (hback : restoring s gr.ctx = false)
    (hearly : lg.newwin ≠ b.a0.setWidth 32) (hscript : scriptHere s gr.ctx = some (l, sp)) : ctlRewind s q x j b g gr =
      .waits (ctlPhase (startReplay s gr.ctx l sp (.window (b.a0.setWidth 32))) q j 1) := by
  simp only [ctlRewind, hlog, hphase, hback, if_neg hearly, hscript, Nat.zero_mod, Bool.false_eq_true, if_false, if_true]
  rfl

theorem ctlRewind_over (hphase : x.phase j = some 1) (hover : replayOver s g gr.ctx = true) :
    ctlRewind s q x j b g gr = .done 0 s := by
  simp only [ctlRewind, hlog, hphase, hover, if_true]
  rfl

section
variable (hparty : ctlParty g b.a0 = some p)
include hparty

theorem ctlReverseStep_begins (hnew : x.phase j = none)
    (hgoal : (chainsOf s gr.ctx p).bind (reverseGoal p lg.ckpts.reverse) = some (ck, n)) (hrest : atRest s g gr = true)
    (hreaches : lg.reaches ck = true) (hscript : scriptFor s gr.ctx ck = true) : ctlReverseStep s q x j b g gr =
      .waits (ctlPhase (rewindTo s gr.ctx g gr lg ck) q j (2 * n)) := by
  simp only [ctlReverseStep, hlog, hparty, hnew, hgoal, hrest, hreaches, hscript, Bool.not_true, Bool.false_eq_true, or_self,
    if_false, inPhase_eq]

theorem ctlReverseStep_replays (hphase : x.phase j = some (2 * n)) (hback : restoring s gr.ctx = false)
    (hscript : scriptHere s gr.ctx = some (l, sp)) : ctlReverseStep s q x j b g gr =
      .waits (ctlPhase (startReplay s gr.ctx l sp (.chains p n)) q j (2 * n + 1)) := by
  have heven : 2 * n % 2 = 0 := by omega
  have hhalf : 2 * n / 2 = n := by omega
  simp only [ctlReverseStep, hlog, hparty, hphase, heven, hhalf, hback, hscript, Bool.false_eq_true, if_false, if_true,
    inPhase_eq]

theorem ctlReverseStep_over (hphase : x.phase j = some (2 * n + 1)) (hover : replayOver s g gr.ctx = true) :
    ctlReverseStep s q x j b g gr = .done 0 s := by
  have hodd : ¬(2 * n + 1) % 2 = 0 := by omega
  simp only [ctlReverseStep, hlog, hparty, hphase, if_neg hodd, hover, if_true]

end
end

section
variable {till : CtlBlk → ReplayEnd} {change : CtlBlk → List Chunk → Option (List Chunk)}

section
variable (hnew : x.phase j = none) (hrest : atRest s g gr = true) (hback : restoring s gr.ctx = false)
  (hscript : scriptHere s gr.ctx = some (l, sp))
include hnew hrest hback hscript

theorem ctlReplay_begins (hchange : change b l = some l') : ctlReplay till change s q x j b g gr =
    .waits (ctlPhase (startReplay s gr.ctx l' sp (till b)) q j 0) := by
  simp only [ctlReplay, hnew, hrest, hback, hscript, hchange, Option.isSome_none, Bool.not_true, Bool.false_eq_true, or_self,
    if_false, inPhase_eq]

theorem ctlReplay_unchanged (hchange : change b l = none) : ctlReplay till change s q x j b g gr = .done 13 s := by
  simp only [ctlReplay, hnew, hrest, hback, hscript, hchange, Option.isSome_none, Bool.not_true, Bool.false_eq_true, or_self,
    if_false]

end

/-- A replay ends when it is over, or, where its script is to be spent, when it is. -/
theorem ctlReplay_ends (hphase : x.phase j = some n)
    (h : replayOver s g gr.ctx = true ∨ till b = .script ∧ s.scripted gr.ctx = false) :
    ctlReplay till change s q x j b g gr = .done 0 s := by
  have hover : (replayOver s g gr.ctx || (decide (till b = .script) && !(s.scripted gr.ctx))) = true := by
    rcases h with h | ⟨htill, hspent⟩
    · rw [h, Bool.true_or]
    · rw [decide_eq_true htill, hspent]
      simp
  simp only [ctlReplay, hphase, Option.isSome_some, hover, if_true]

end

theorem ctlHostMarker_opens (hundo : s.undoOn gr.ctx = true) (hroom : canOpen s gr.ctx .grid = true) :
    ctlHostMarker s q x j b g gr = .done 0 (openWindow s g gr.ctx (nextWindow s gr.ctx) .grid (b.a0.setWidth 16)
      (s.engineOf (.grid g))) := by
  simp only [ctlHostMarker, hundo, hroom, Bool.not_true, Bool.false_eq_true, if_false]

theorem ctlHostMarker_stalls (hundo : s.undoOn gr.ctx = true) (hroom : canOpen s gr.ctx .grid = false) :
    ctlHostMarker s q x j b g gr =
      .done 13 (s.modGrid g fun y => if y.status = .running then { y with status := .saving } else y) := by
  simp only [ctlHostMarker, hundo, hroom, Bool.not_true, Bool.not_false, Bool.false_eq_true, if_false, if_true]

theorem ctlHostMarker_noLog (hundo : s.undoOn gr.ctx = false) : ctlHostMarker s q x j b g gr = .done 13 s := by
  simp only [ctlHostMarker, hundo, Bool.not_false, if_true]

end

/-- Settles O39: what each command does in the phase in which it stands, on the grid that its block names. -/
theorem rewindCommands : Obligations.RewindCommands := by
  unfold Obligations.RewindCommands
  intro s t q g n x j a d b gr lg ck l l' sp p hq hd h
  have ends {f : CtlOp} {u : State} {v : W64} (hf : f t q x j b g gr = .done v u) : control none f a d s = ctlEnds u q j d v :=
    control_ends hq hd h trivial hf
  have goesOn {f : CtlOp} {u : State} (hf : f t q x j b g gr = .waits u) : control none f a d s = .next u :=
    control_goesOn hq hd h trivial hf
  refine ⟨fun hlog hphase hback => ⟨fun hthere => ends (ctlRewind_there hlog hphase hback hthere),
      fun hearly hscript => goesOn (ctlRewind_replays hlog hphase hback hearly hscript)⟩,
    fun hlog hphase hover => ends (ctlRewind_over hlog hphase hover),
    fun hlog hnew hrest hfits htarget hreaches hscript =>
      goesOn (ctlRewind_begins hlog hnew hrest hfits htarget hreaches hscript),
    fun hnew hrest hback hscript => ⟨
      fun hm => control_goesOn hq hd h hm (ctlReplay_begins hnew hrest hback hscript rfl),
      fun hm => control_goesOn hq hd h hm (ctlReplay_begins hnew hrest hback hscript rfl),
      fun hm hswap => control_goesOn hq hd h hm (ctlReplay_begins hnew hrest hback hscript hswap),
      fun hm hswap => control_ends hq hd h hm (ctlReplay_unchanged hnew hrest hback hscript hswap)⟩,
    fun hphase => ⟨fun hover => ⟨
        fun hm => control_ends hq hd h hm (ctlReplay_ends hphase (hover.imp_right fun hspent => ⟨rfl, hspent⟩)),
        fun hm => control_ends hq hd h hm (ctlReplay_ends hphase (hover.imp_right fun hspent => ⟨rfl, hspent⟩))⟩,
      fun hover hm => control_ends hq hd h hm (ctlReplay_ends hphase (.inl hover))⟩,
    fun hlog hparty => ⟨fun hnew hgoal hrest hreaches hscript =>
        goesOn (ctlReverseStep_begins hlog hparty hnew hgoal hrest hreaches hscript),
      fun hphase hback hscript => goesOn (ctlReverseStep_replays hlog hparty hphase hback hscript),
      fun hphase hover => ends (ctlReverseStep_over hlog hparty hphase hover)⟩,
    fun hundo hroom => ends (ctlHostMarker_opens hundo hroom), fun hundo hroom _ => ends (ctlHostMarker_stalls hundo hroom),
    fun hundo => ends (ctlHostMarker_noLog hundo)⟩

end Sys2Proof.Machine
end

/-! ## O55, O56: memory stays in its canonical form

Each function of the model that answers a state has one lemma, `inv_` with the function's name: it answers a state that
meets the invariant where its arguments do. The lemmas stand in the order of the model's files, and a function's lemma
rests on those of the functions that it calls. Only the few that write memory (`putMem`, `writeNat`, `scrubRange`,
`putCells`, `filter`) come down to `wf_putByte` and `wf_filter`. -/

section
namespace Sys2Proof.Machine

/-! ### The invariant of what functions answer -/

variable {s t : State} {c : Cx} {a : ChainAcc}

/-- The state that a function may answer meets the invariant. -/
structure OInv (o : Option State) : Prop where
  inv : ∀ t, o = some t → Inv t

theorem oinv_some (h : Inv s) : OInv (some s) := ⟨fun _ ht => Option.some.inj ht ▸ h⟩

theorem oinv_none : OInv none := ⟨fun _ ht => absurd ht.symm (Option.some_ne_none _)⟩

theorem OInv.map {o : Option State} {f : State → State} (h : OInv o) (hf : ∀ s, Inv s → Inv (f s)) :
    OInv (o.map f) := by
  refine ⟨fun t ht => ?_⟩
  obtain ⟨s, hs, rfl⟩ := Option.map_eq_some_iff.mp ht
  exact hf s (h.inv s hs)

theorem OInv.bind {o : Option State} {f : State → Option State} (h : OInv o) (hf : ∀ s, Inv s → OInv (f s)) :
    OInv (o.bind f) := by
  refine ⟨fun t ht => ?_⟩
  obtain ⟨s, hs, ht⟩ := Option.bind_eq_some_iff.mp ht
  exact (hf s (h.inv s hs)).inv t ht

/-- What is found out first does not matter. -/
theorem oinv_bind {α : Type} {o : Option α} {f : α → Option State} (hf : ∀ x, o = some x → OInv (f x)) :
    OInv (o.bind f) := by
  refine ⟨fun t ht => ?_⟩
  obtain ⟨x, hx, ht⟩ := Option.bind_eq_some_iff.mp ht
  exact (hf x hx).inv t ht

theorem oinv_map {α : Type} {o : Option α} {f : α → State} (hf : ∀ x, o = some x → Inv (f x)) : OInv (o.map f) := by
  refine ⟨fun t ht => ?_⟩
  obtain ⟨x, hx, rfl⟩ := Option.map_eq_some_iff.mp ht
  exact hf x hx

/-- A fold of steps of which each may have no result. -/
theorem OInv.foldl {α : Type} {f : State → α → Option State} {o : Option State} (h : OInv o)
    (hf : ∀ s e, Inv s → OInv (f s e)) (l : List α) : OInv (l.foldl (fun o e => o.bind fun s => f s e) o) := by
  induction l generalizing o with
  | nil => exact h
  | cons e l ih => exact ih (h.bind fun s h => hf s e h)

theorem inv_foldl {α : Type} {f : State → α → State} (h : Inv s) (hf : ∀ s e, Inv s → Inv (f s e)) (l : List α) :
    Inv (l.foldl f s) := by
  induction l generalizing s with
  | nil => exact h
  | cons e l ih => exact ih (hf s e h)

/-- The state that a function may answer with something else meets the invariant. -/
structure PInv {α : Type} (o : Option (α × State)) : Prop where
  inv : ∀ x t, o = some (x, t) → Inv t

theorem pinv_some {α : Type} {x : α} (h : Inv s) : PInv (some (x, s)) := by
  refine ⟨fun y t ht => ?_⟩
  obtain ⟨-, rfl⟩ := Prod.mk.inj (Option.some.inj ht)
  exact h

theorem pinv_none {α : Type} : PInv (none : Option (α × State)) := ⟨fun _ _ ht => absurd ht.symm
    (Option.some_ne_none _)⟩

theorem pinv_bind {α β : Type} {o : Option β} {f : β → Option (α × State)} (hf : ∀ y, o = some y → PInv (f y)) :
    PInv (o.bind f) := by
  refine ⟨fun x t ht => ?_⟩
  obtain ⟨y, hy, ht⟩ := Option.bind_eq_some_iff.mp ht
  exact (hf y hy).inv x t ht

/-- The state that a function answers where it answers nothing else meets the invariant. -/
structure SInv {α : Type} (r : α ⊕ State) : Prop where
  inv : ∀ t, r = .inr t → Inv t

theorem sinv_inr {α : Type} (h : Inv s) : SInv (.inr s : α ⊕ State) := ⟨fun _ ht => Sum.inr.inj ht ▸ h⟩

theorem sinv_inl {α : Type} {x : α} : SInv (.inl x : α ⊕ State) := ⟨fun _ ht => absurd ht Sum.inl_ne_inr⟩

/-- The next state, where there is one, meets the invariant. -/
structure OutInv (o : Out) : Prop where
  inv : ∀ t, o = .next t → Inv t

theorem outInv_next (h : Inv s) : OutInv (.next s) := ⟨fun _ ht => Host.Outcome.next.inj ht ▸ h⟩

theorem outInv_fault {f : Fault} : OutInv (.fault f) := ⟨fun _ ht => nomatch ht⟩

theorem outInv_refused {r : Refusal} : OutInv (.refused r) := ⟨fun _ ht => nomatch ht⟩

/-- A member's answer meets the invariant: every state in it does. -/
def MRes.Inv : MRes → Prop
  | .ok s | .jump s _ | .split s _ _ | .gone s | .trap s _ | .mark s _ _ | .later s _ | .await s _ | .hold s _ |
      .fault s _
  | .part s _ => Machine.Inv s
  | .dead _ => True

/-- What a queue's command comes to meets the invariant. -/
def DispRes.Inv : DispRes → Prop
  | .done _ s | .fault _ s | .waits s => Machine.Inv s
  | .dead _ => True

/-- What has passed of a chain meets the invariant, with the side of the wait that it has begun. -/
def ChainAcc.Inv (a : ChainAcc) : Prop := Machine.Inv a.s ∧ ∀ e, a.await = some e → Machine.Inv e.1

/-! ### The state's operations, memory accesses and the logs -/

/-- Settles O55: memory is empty after reset. -/
theorem invariantAtReset : Obligations.InvariantAtReset := rfl

theorem inv_reset : Inv State.reset := invariantAtReset

theorem inv_fresh (h : Inv s) : Inv (State.fresh s).2 := h

theorem inv_draw (h : Inv s) : Inv (State.draw s).2 := h

theorem inv_sendVec (h : Inv s) (fn v) : Inv (State.sendVec s fn v) := by
  unfold State.sendVec
  grind [Inv]

theorem inv_raise (h : Inv s) (fn v) : Inv (State.raise s fn v) := by
  unfold State.raise
  grind [Inv, inv_sendVec]

theorem inv_raiseQueue (h : Inv s) (q) : Inv (State.raiseQueue s q) := by
  unfold State.raiseQueue
  grind [Inv, inv_raise]

theorem inv_raiseAll (h : Inv s) : Inv s.raiseAll := inv_foldl h (fun _ fn h => inv_raise h fn 0) _

theorem wf_putTrace {m : Memory} (h : m.wf = true) (tb : TraceBuf) (kind len : Nat) (body : List Byte) :
    (putTrace m tb kind len body).1.wf = true := by
  unfold putTrace
  grind [wf_writeBytes, wf_writeNat]

theorem wf_traceRecord {m : Memory} (h : m.wf = true) (tb : TraceBuf) (desc kind : Nat) (body : List Byte) :
    (traceRecord m tb desc kind body).1.wf = true := by
  unfold traceRecord
  grind [wf_putTrace, wf_writeNat]

theorem inv_trace (h : Inv s) (c kind body) : Inv (State.trace s c kind body) := by
  unfold State.trace
  grind [Inv, wf_traceRecord]

theorem inv_traceBy (h : Inv s) (c engine kind body) : Inv (State.traceBy s c engine kind body) := by
  unfold State.traceBy
  grind [Inv, State.bump_mem, inv_trace]

theorem inv_health (h : Inv s) (ctx source unit index value addr) :
    Inv (State.health s ctx source unit index value addr) := by
  unfold State.health
  grind [Inv, State.bump_mem, inv_raise, inv_trace]

theorem inv_healthPart (h : Inv s) (part source unit index value addr) :
    Inv (State.healthPart s part source unit index value addr) := by
  unfold State.healthPart
  grind [Inv, inv_raise, inv_health]

theorem inv_putHeld (h : Inv s) (c x n r) : Inv (putHeld s c x n r) := wf_writeNat h _ _ _

theorem inv_writeHeld (h : Inv s) (c n) : Inv (writeHeld c n s) := by
  induction n generalizing s with
  | zero => exact h
  | succ n ih =>
    unfold writeHeld
    grind [inv_raiseQueue, inv_putHeld]

theorem inv_freeze (h : Inv s) (g) : Inv (State.freeze s g) := h

theorem inv_stopParty (h : Inv s) (p f r serial) : Inv (stopParty s p f r serial) := by
  unfold stopParty
  grind [Inv, State.modSeq_mem, State.modTeam_mem]

theorem inv_faultSides (h : Inv s) (g gr cls) : Inv (faultSides s g gr cls) := by
  unfold faultSides
  grind [Inv, inv_freeze, State.modGrid_mem]

theorem inv_raiseRecord (h : Inv s) {stop} (hstop : ∀ s f r n, Inv s → Inv (stop s f r n)) (p f) :
    Inv (raiseRecord stop s p f) := by
  unfold raiseRecord
  grind [Inv, State.modCtx_mem, State.bump_mem, inv_writeHeld, inv_faultSides]

theorem inv_takeFault (h : Inv s) (p f) : Inv (takeFault s p f) :=
  inv_raiseRecord h (fun _ f r n h => inv_stopParty h p f r n) p f

theorem inv_stopCopy (h : Inv s) (id) (cp : Copy) : Inv (stopCopy s id cp) := by
  unfold stopCopy
  apply inv_raiseRecord h
  intro s f r n h
  exact h

theorem inv_freeEntry (h : Inv s) (c serial) : Inv (State.freeEntry s c serial) := by
  unfold State.freeEntry
  grind [Inv, State.modCtx_mem, inv_writeHeld]

theorem inv_goOn (h : Inv s) (p step) : Inv (goOn s p step) := by
  unfold goOn
  grind [Inv, State.modSeq_mem]

theorem inv_goOnCopies (h : Inv s) (g serial) : Inv (goOnCopies s g serial) := h

theorem inv_disposeStop (h : Inv s) (g serial step) : OInv (disposeStop s g serial step) := by
  unfold disposeStop
  refine oinv_bind fun gr _ => oinv_bind fun c _ => ?_
  split
  · split
    · exact oinv_some (inv_freeEntry (inv_goOn h ..) ..)
    · split
      · exact oinv_some (inv_freeEntry (inv_goOnCopies h ..) ..)
      · exact oinv_none
  · exact oinv_none

theorem inv_setAliased (h : Inv s) (b) : Inv (setAliased s b) := h

theorem inv_bindTag (h : Inv s) (b) : Inv (bindTag s b) := by
  unfold bindTag
  grind [Inv]

theorem inv_tlbFill (h : Inv s) (t1) : Inv (tlbFill s t1) := h

theorem inv_missLeaf (h : Inv s) (m) : PInv (missLeaf s m) := by
  unfold missLeaf
  dsimp only
  split
  · exact pinv_some h
  · refine pinv_bind fun p _ => ?_
    split
    · exact pinv_some (inv_tlbFill h _)
    · exact pinv_none

theorem inv_endMiss (h : Inv s) (m) : Inv (endMiss s m) := by
  unfold endMiss
  grind [Inv, pinv_some, pinv_none, PInv.inv, inv_missLeaf, inv_tlbFill]

theorem inv_noteMiss (h : Inv s) (a) : Inv (noteMiss s a) := by
  unfold noteMiss
  grind [Inv, inv_endMiss, State.count_mem]

theorem inv_bindOne (h : Inv s) (b) : Inv (bindOne s b) := by
  unfold bindOne
  grind [Inv, inv_noteMiss, inv_bindTag]

theorem inv_bindAll (h : Inv s) (bs) : Inv (bindAll s bs) := inv_foldl h (fun _ b h => inv_bindOne h b) bs

theorem inv_noteAlias (h : Inv s) (a) : Inv (noteAlias s a) := by
  unfold noteAlias
  grind [Inv, inv_setAliased]

theorem inv_poisonRange (h : Inv s) (key n) : Inv (poisonRange s key n) := h

theorem inv_setMem (h : Inv s) (key bytes) : Inv (setMem s key bytes) := wf_writeBytes h _ _

theorem inv_pokeWaits (h : Inv s) (key n) : Inv (pokeWaits s key n) := h

theorem inv_putMem (h : Inv s) (key bytes) : Inv (putMem s key bytes) := by
  unfold putMem
  grind [Inv, inv_pokeWaits, inv_setMem]

theorem inv_putSegs (h : Inv s) (segs bs) : Inv (putSegs s segs bs) := by
  induction segs generalizing s bs with
  | nil => exact h
  | cons e segs ih => exact ih (inv_putMem h e.1 (bs.take e.2)) _

theorem inv_sendClock (h : Inv s) (unit part va tier key) : Inv (sendClock s unit part va tier key) := by
  unfold sendClock
  grind [Inv, State.bump_mem, State.receive_mem]

theorem inv_hearSignal (h : Inv s) (engine key) : Inv (hearSignal s engine key) := by
  unfold hearSignal
  grind [Inv, State.receive_mem]

theorem inv_undoAppend (h : Inv s) (c ty size inst engine addr old) :
    OInv (undoAppend s c ty size inst engine addr old) := by
  unfold undoAppend
  split
  · split
    · exact oinv_map fun u _ => wf_writeNat h _ _ _
    · exact oinv_some h
  · exact oinv_some h

theorem inv_countTotal (h : Inv s) (c kind engine k) : Inv (countTotal s c kind engine k) := h

theorem inv_countFlits (h : Inv s) (c die slice) : Inv (countFlits s c die slice) := by
  unfold countFlits
  grind [Inv, inv_draw, inv_countTotal]

theorem inv_countLink (h : Inv s) (kind link k) : Inv (countLink s kind link k) := by
  unfold countLink
  grind [Inv, inv_draw, inv_countTotal]

theorem inv_feedMonitors (h : Inv s) (source v) : Inv (feedMonitors s source v) := h

theorem inv_countUse (h : Inv s) (c part core va tier key) : Inv (countUse s c part core va tier key) := by
  unfold countUse
  grind [Inv, inv_countFlits, inv_countTotal, inv_draw]

theorem inv_countBank (h : Inv s) (c part core va tier key) : Inv (countBank s c part core va tier key) := by
  unfold countBank
  grind [Inv, inv_countTotal, inv_countUse]

theorem inv_ownRecord (h : Inv s) (g c addr) : Inv (ownRecord s g c addr) := by
  unfold ownRecord
  grind [Inv, State.modCtx_mem]

theorem inv_undoBy (h : Inv s) (g c ty size inst engine addr old) :
    OInv (undoBy s g c ty size inst engine addr old) := by
  unfold undoBy
  refine (inv_undoAppend h ..).map fun s h => ?_
  grind [Inv, inv_ownRecord, State.count_mem]

theorem inv_undoWrite (h : Inv s) (g c engine inst va key n) : OInv (undoWrite s g c engine inst va key n) := by
  unfold undoWrite
  split
  · exact (oinv_some h).foldl (fun s e h => inv_undoBy h ..) _
  · exact oinv_some h

theorem inv_irreversible (h : Inv s) (g c engine kind addr data) :
    OInv (irreversible s g c engine kind addr data) := by
  unfold irreversible
  grind [Inv, oinv_some, oinv_none, OInv.inv, inv_undoBy]

theorem inv_settleRing (h : Inv s) (c) : Inv (settleRing s c) := h

theorem inv_chunkAppend (h : Inv s) (c ch) : Inv (chunkAppend s c ch) := by
  unfold chunkAppend
  grind [Inv, inv_settleRing, State.count_mem, wf_writeNat]

theorem inv_runAppend (h : Inv s) (c ch n) : Inv (runAppend s c ch n) := by
  induction n generalizing s ch with
  | zero => exact h
  | succ n ih =>
    unfold runAppend
    grind [inv_chunkAppend]

theorem inv_modArb (h : Inv s) (c f) : Inv (modArb s c f) := h

theorem inv_setOpen (h : Inv s) (c ch) : Inv (setOpen s c ch) := by
  unfold setOpen
  grind [Inv, inv_chunkAppend, inv_modArb]

theorem inv_recordTurn (h : Inv s) (c kind key r run) : Inv (recordTurn s c kind key r run) := by
  unfold recordTurn
  grind [Inv, inv_chunkAppend, inv_setOpen, inv_modArb, inv_runAppend]

theorem inv_closeOpens (h : Inv s) (c) : Inv (closeOpens s c) := by
  unfold closeOpens
  split
  · exact inv_foldl h (fun _ ch h => inv_chunkAppend h c ch) _
  · exact h

theorem inv_closeChunks (h : Inv s) (c) : Inv (closeChunks s c) := by
  unfold closeChunks
  grind [Inv, inv_modArb, inv_closeOpens]

theorem inv_arbTurn (h : Inv s) (c kind key r run) : Inv (arbTurn s c kind key r run) := by
  unfold arbTurn
  grind [Inv, inv_recordTurn, State.modCtx_mem]

theorem inv_turnAll (h : Inv s) (ctx kind keys r) : Inv (turnAll s ctx kind keys r) :=
  inv_foldl h (fun _ k h => inv_arbTurn h ctx kind k r 1) keys

theorem inv_outsideValue (h : Inv s) (c r live) : Inv (outsideValue s c r live).2 := by
  unfold outsideValue
  grind [Inv, State.modCtx_mem, inv_arbTurn]

theorem inv_foldHash (h : Inv s) (c g b t1 va bytes) : Inv (foldHash s c g b t1 va bytes) := by
  unfold foldHash
  grind [Inv, State.modTeam_mem]

/-! ### Chains, barriers, flags and the check of accesses -/

theorem inv_modSeq (h : Inv s) (p f) : Inv (s.modSeq p f) := by grind [Inv, State.modSeq_mem]

theorem inv_modTeam (h : Inv s) (g b t1 f) : Inv (s.modTeam g b t1 f) := by grind [Inv, State.modTeam_mem]

theorem inv_modBlock (h : Inv s) (g b f) : Inv (s.modBlock g b f) := by grind [Inv, State.modBlock_mem]

theorem inv_modCtx (h : Inv s) (x f) : Inv (s.modCtx x f) := by grind [Inv, State.modCtx_mem]

theorem inv_modGrid (h : Inv s) (g f) : Inv (s.modGrid g f) := by grind [Inv, State.modGrid_mem]

theorem inv_modLvl (h : Inv s) (p f) : Inv (s.modLvl p f) := by grind [Inv, State.modLvl_mem]

theorem pinv_map {α β : Type} {o : Option β} {f : β → α × State} (hf : ∀ y, o = some y → Inv (f y).2) :
    PInv (o.map f) := by
  refine ⟨fun x t ht => ?_⟩
  obtain ⟨y, hy, ht⟩ := Option.map_eq_some_iff.mp ht
  obtain rfl : (f y).2 = t := congrArg Prod.snd ht
  exact hf y hy

theorem inv_onTeam (h : Inv s) (f) : Inv (Cx.onTeam c s f) := h

theorem inv_wrL (h : Inv s) (d xs) : Inv (Cx.wrL c s d xs) := by
  unfold Cx.wrL
  grind [Inv, inv_onTeam]

theorem inv_wrD (h : Inv s) (d xs) : Inv (Cx.wrD c s d xs) := by
  unfold Cx.wrD
  grind [Inv, inv_onTeam]

theorem inv_wrP (h : Inv s) (n xs) : Inv (Cx.wrP c s n xs) := by
  unfold Cx.wrP
  grind [Inv, inv_onTeam]

theorem inv_wrQ (h : Inv s) (n x) : Inv (Cx.wrQ c s n x) := by
  unfold Cx.wrQ
  grind [Inv, State.modSeq_mem]

theorem inv_capture (h : Inv s) (o) : Inv (Cx.capture c s o) := by
  unfold Cx.capture
  grind [Inv, State.modSeq_mem]

theorem inv_storeSlot (h : Inv s) (ctx engine g b k h1 n x) : OInv (storeSlot s ctx engine g b k h1 n x) := by
  unfold storeSlot
  dsimp only
  split
  · exact oinv_some h
  · refine OInv.map ?_ fun s h => h
    grind [oinv_some, inv_undoBy]

theorem inv_frameWrite (h : Inv s) (l k x) : OInv (Cx.frameWrite c s l k x) := by
  unfold Cx.frameWrite
  grind [Inv, oinv_some, oinv_none, OInv.inv, inv_foldHash, inv_onTeam, inv_storeSlot, State.modSeq_mem]

theorem inv_publishFrame (h : Inv s) (p ctx engine g b k h1) : Inv (publishFrame s p ctx engine g b k h1) := by
  unfold publishFrame
  split
  · refine inv_foldl h (fun s e h => ?_) _
    dsimp only
    split
    · exact h
    · split
      · exact h
      · have hs := (inv_storeSlot h ..).inv _ ‹_›
        refine inv_modSeq ?_ _ _
        split
        · exact inv_arbTurn hs ..
        · exact hs
  · exact h

theorem inv_publishAll (h : Inv s) (p ctx engine g b k) : Inv (publishAll s p ctx engine g b k) :=
  inv_foldl h (fun _ e h => inv_publishFrame h p ctx engine g b k e) _

theorem inv_dropParts (h : Inv s) (g pick whole) : Inv (dropParts s g pick whole) := by
  unfold dropParts
  exact wf_filter h _

theorem inv_zeroChains (h : Inv s) (gs) : Inv (zeroChains s gs) := by
  refine inv_foldl h (fun s g h => inv_foldl h (fun s p h => ?_) _) _
  grind [Inv, State.modSeq_mem]

theorem inv_takeCkpt (h : Inv s) (c n slot start recAt) : Inv (takeCkpt s c n slot start recAt).2 := by
  unfold takeCkpt
  refine inv_foldl (inv_modCtx (inv_zeroChains h _) _ _) ?_ _
  intro s e h
  exact h

theorem inv_endAtWindow (h : Inv s) (c n) : Inv (endAtWindow s c n) := by
  unfold endAtWindow
  split
  · split
    · refine inv_foldl ?_ (fun s g h => inv_freeze h g) _
      grind [Inv, State.modCtx_mem]
    · exact h
  · exact h

theorem inv_openWindow (h : Inv s) (g c n sc tag engine) : Inv (openWindow s g c n sc tag engine) := by
  unfold openWindow
  grind [Inv, oinv_some, oinv_none, OInv.inv, inv_closeChunks, State.modCtx_mem, inv_takeCkpt, inv_undoBy,
    inv_endAtWindow]

theorem inv_hashCheck (h : Inv s) (c g b t1) : SInv (hashCheck s c g b t1) := by
  unfold hashCheck
  grind [Inv, sinv_inl, sinv_inr, SInv.inv, State.modTeam_mem, State.modCtx_mem, inv_arbTurn]

theorem inv_barSettle (h : Inv s) (g b k) : Inv (barSettle s g b k) := by
  unfold barSettle
  grind [Inv, State.bump_mem, State.modBlock_mem]

theorem inv_barSettleAll (h : Inv s) (g b) : Inv (barSettleAll s g b) := by
  unfold barSettleAll
  split
  · exact inv_foldl h (fun _ k h => inv_barSettle h g b k) _
  · exact h

theorem inv_strandCheck (h : Inv s) (g b) : Inv (strandCheck s g b) := by
  unfold strandCheck
  split
  · exact h
  · dsimp only
    split
    · refine inv_foldl h (fun s e h => ?_) _
      grind [Inv, inv_takeFault, State.modBlock_mem, State.modSeq_mem]
    · exact h

theorem inv_scalarWrite (hc : Inv c.pre) (h : Inv s) (d x) : (Cx.scalarWrite c s d x).Inv := by
  unfold Cx.scalarWrite
  grind [Inv, MRes.Inv, oinv_some, oinv_none, OInv.inv, inv_onTeam, inv_frameWrite, State.modLvl_mem]

theorem inv_holdParty (h : Inv s) (p w) : Inv (holdParty s p w) := by
  unfold holdParty
  grind [Inv, State.modSeq_mem]

/-- What a body answers to a chain meets the invariant where the chain's states do. -/
def BodyInv (body : Body) : Prop := ∀ c s, Inv c.pre → Inv s → (body c s).Inv

theorem inv_runMember (hc : Inv c.pre) (h : Inv s) (m) {body} (hb : BodyInv body) : (runMember c m body s).Inv := by
  unfold runMember
  grind [MRes.Inv, BodyInv]

theorem inv_captureAll (h : Inv s) (i) : Inv (captureAll c i s) := by
  unfold captureAll
  split
  · exact inv_foldl h (fun _ o h => inv_capture h o) _
  · exact h

/-- What a chain comes to meets the invariant. -/
def ChainRes.Inv : ChainRes → Prop
  | .done a => a.Inv
  | .stopped s => Machine.Inv s
  | .dead _ => True

theorem inv_runMembers {a} (hc : Inv c.pre) (ha : a.Inv) {ms : List (Member × Body)} (hms : ∀ m ∈ ms, BodyInv m.2) :
    (runMembers c ms a).Inv := by
  induction ms generalizing a with
  | nil => exact ha
  | cons m ms ih =>
    have hm := inv_runMember hc ha.1 m.1 (hms m List.mem_cons_self)
    have hp := inv_runMember hc hc m.1 (hms m List.mem_cons_self)
    have ih := fun {a} ha => ih (a := a) ha fun m hm => hms m (List.mem_cons_of_mem _ hm)
    unfold runMembers
    grind [ChainRes.Inv, ChainAcc.Inv, MRes.Inv, inv_takeFault, inv_holdParty, inv_captureAll]

theorem inv_stepFault (h : Inv s) (p) : Inv (stepFault s p) := by
  unfold stepFault
  grind [Inv, inv_takeFault]

theorem inv_endReverse (h : Inv s) (p) : Inv (endReverse s p) := by
  unfold endReverse
  split
  · refine inv_stepFault (inv_foldl ?_ (fun s g h => inv_freeze h g) _) _
    grind [Inv, State.modCtx_mem]
  · exact h

theorem inv_stepStop (h : Inv s) (p) : Inv (stepStop s p) := by
  unfold stepStop
  grind [Inv, inv_endReverse, inv_stepFault]

theorem inv_completeSegment (h : Inv s) : Inv (completeSegment c s) := by
  unfold completeSegment
  grind [Inv, inv_publishAll, State.modSeq_mem]

theorem inv_moveTeam (h : Inv s) (next close) : Inv (moveTeam c a next close s) := h

theorem inv_moveLevel (h : Inv s) (next ends narrow) : Inv (moveLevel c a next ends narrow s) := by
  unfold moveLevel
  grind [Inv, State.modSeq_mem, State.modLvl_mem]

theorem inv_commit {a} (hc : Inv c.pre) (ha : a.Inv) (ms run ends narrow) : Inv (commit c ms run ends narrow a) := by
  unfold commit
  grind [Inv, ChainAcc.Inv, inv_takeFault, State.modSeq_mem, State.count_mem, inv_moveTeam, inv_moveLevel,
    inv_completeSegment, inv_openWindow, inv_stepStop]

theorem inv_trimRing (h : Inv s) (g) : Inv (trimRing s g) := by
  unfold trimRing
  grind [Inv, State.modGrid_mem]

theorem inv_sealFrames (h : Inv s) (c t1) : Inv (sealFrames s c t1) := by
  refine inv_foldl h (fun s f h => ?_) _
  grind [Inv]

theorem inv_pushToken (h : Inv s) (c t1) : OInv (pushToken s c t1) := by
  unfold pushToken
  dsimp only
  split
  · grind [Inv, oinv_none, oinv_some, inv_trimRing, State.modGrid_mem]
  · split
    · exact oinv_none
    · exact oinv_some (inv_foldl h (fun s e h => inv_modSeq h _ _) _)
  · split
    · exact oinv_none
    · exact oinv_some (inv_foldl h (fun s e h => inv_modSeq h _ _) _)
  · exact oinv_some h

theorem inv_emitSegment (h : Inv s) (c close has) : OInv (emitSegment s c close has) := by
  unfold emitSegment
  dsimp only
  split
  · exact oinv_some h
  · split
    · exact oinv_some h
    · split
      · grind [Inv, oinv_some, State.modLvl_mem]
      · refine (inv_pushToken h ..).map fun s h => ?_
        grind [Inv, inv_sealFrames, State.modLvl_mem]

theorem inv_freshFlags (h : Inv s) (ms) : Inv (freshFlags c ms s) := by
  unfold freshFlags
  grind [Inv, inv_onTeam]

theorem inv_emitFirst (h : Inv s) (ends narrow) : OInv (emitFirst s c ends narrow) := by
  unfold emitFirst
  grind [Inv, oinv_some, oinv_none, OInv.inv, inv_emitSegment]

theorem inv_awaitChain (hc : Inv c.pre) {side} (hs : Inv side) (ms a w) : Inv (awaitChain c ms a side w) := by
  have hh := inv_modSeq (inv_holdParty hs c.p w) c.p fun q => { q with began := some w }
  unfold awaitChain
  split
  · exact inv_takeFault hc ..
  · dsimp only
    split
    · exact inv_strandCheck hh ..
    · exact hh

theorem inv_mergeStep (hc : Inv c.pre) {ms r} (hr : mergeStep c ms = some (.inr r)) : Inv r := by
  unfold mergeStep at hr
  grind [inv_onTeam]

theorem inv_walkHash {a} (ha : a.Inv) {ms r} (hr : walkHash c ms a = .inr r) : r.Inv := by
  unfold walkHash at hr
  grind [ChainAcc.Inv, inv_hashCheck, SInv.inv]

theorem inv_endChain {a} (hc : Inv c.pre) (ha : a.Inv) (ms run ends narrow) :
    Inv (endChain c ms run ends narrow a) := by
  unfold endChain
  have hw := @inv_walkHash c a ha run
  split
  · exact inv_awaitChain hc (ha.2 _ ‹_›) ..
  · grind [inv_holdParty, inv_takeFault, inv_commit]

theorem inv_runChainMembers (hc : Inv c.pre) (ms) {run : List (Member × Body)} (hrun : ∀ m ∈ run, BodyInv m.2)
    (mine ends narrow) :
    OutInv (runChainMembers c ms run mine ends narrow) := by
  have hf := inv_freshFlags (c := c) hc mine
  have ha : (⟨freshFlags c mine c.pre, none, none, none, none, none, none, none⟩ : ChainAcc).Inv :=
    ⟨hf, fun _ he => nomatch he⟩
  have hr := inv_runMembers hc ha hrun
  unfold runChainMembers
  split
  · exact outInv_next (inv_holdParty hc ..)
  · split
    · grind [outInv_next, inv_endChain, ChainRes.Inv]
    · grind [outInv_next, ChainRes.Inv]
    · exact outInv_fault

theorem pre_of_mkCx {p last alone} (hx : mkCx s p last alone = some c) : c.pre = s := by
  unfold mkCx at hx
  obtain ⟨gr, -, hx⟩ := Option.bind_eq_some_iff.mp hx
  obtain ⟨q, -, rfl⟩ := Option.map_eq_some_iff.mp hx
  rfl

theorem toRun_subset {m} {ms : List (Member × Body)} (hm : m ∈ toRun c ms) : m ∈ ms := by
  unfold toRun at hm
  grind

theorem inv_issueChain (h : Inv s) (p) {ms} (hms : ∀ m ∈ ms, BodyInv m.2) : OutInv (issueChain p ms s) := by
  unfold issueChain
  dsimp only
  split
  · exact outInv_refused
  · next c hx =>
    have hc := pre_of_mkCx hx
    subst hc
    split
    · exact outInv_next h
    split
    · exact outInv_next (inv_takeFault h ..)
    split
    · exact outInv_next (inv_takeFault h ..)
    split
    · exact outInv_next (inv_takeFault h ..)
    · exact outInv_next (inv_mergeStep h ‹_›)
    split
    · exact outInv_next (inv_holdParty h ..)
    · exact inv_runChainMembers (c := { c with pre := _ }) ((inv_emitFirst h ..).inv _ ‹_›) _
        (fun m hm => hms m (toRun_subset hm)) ..

theorem inv_issue1 (h : Inv s) (i) {body} (hb : BodyInv body) : OutInv (issue1 i body s) := by
  unfold issue1
  split
  · exact inv_issueChain h _ (by simpa using hb)
  · exact outInv_refused

theorem inv_compare (h : Inv s) (pd a b f) : Inv (Cx.compare c s pd a b f) := by
  unfold Cx.compare
  grind [Inv, inv_wrP, inv_wrQ]

theorem inv_setFlags (h : Inv s) (fl) : Inv (Cx.setFlags c s fl) := h

theorem inv_float (h : Inv s) (d f) : Inv (Cx.float c s d f) := by
  unfold Cx.float
  grind [Inv, inv_setFlags, inv_wrL]

theorem inv_startFill (h : Inv s) (gr base size va) : SInv (startFill s gr base size va) := by
  unfold startFill
  grind [Inv, sinv_inl, sinv_inr, SInv.inv, inv_fresh]

theorem inv_deliverFlag (h : Inv s) (g b t1 i) : PInv (deliverFlag s g b t1 i) := by
  unfold deliverFlag
  refine pinv_bind fun f _ => ?_
  split
  · exact pinv_none
  · exact pinv_some (inv_modBlock (inv_modTeam h ..) ..)

theorem inv_deliverLine (h : Inv s) (g b t1 i n) : PInv (deliverLine s g b t1 i n) := by
  unfold deliverLine
  refine pinv_bind fun f _ => pinv_map fun e _ => ?_
  exact inv_modBlock (inv_modTeam h ..) ..

theorem inv_tick (h : Inv s) (n k) : Inv (Cx.tick c s n k) := h

/-- What an access that cannot go on comes to meets the invariant. -/
def Stuck.Inv : Stuck → Prop
  | .fault s _ | .hold s _ => Machine.Inv s
  | .dead _ => True

theorem Stuck.Inv.of_hold {x : Stuck} {w} (hx : x.Inv) (hy : x = .hold s w) : Machine.Inv s := by
  subst hy
  exact hx

theorem inv_stuck (h : Inv s) (c va r) : (Cx.stuck c s va r).Inv := by
  unfold Cx.stuck
  split
  · exact inv_noteAlias h _
  · split
    · next hx =>
      obtain ⟨e, -, hx⟩ := Option.bind_eq_some_iff.mp hx
      exact (inv_deliverLine h ..).inv _ _ hx
    · exact h
  · exact h
  · dsimp only
    split
    · exact h
    · exact (inv_startFill h ..).inv _ ‹_›
  · trivial
  · exact h

theorem inv_res {x : Stuck} (hx : x.Inv) : x.res.Inv := by
  cases x <;> exact hx

theorem inv_park (h : Inv s) (n ls ps) : (Cx.park c s n ls ps).Inv := by
  unfold Cx.park
  grind [Inv, MRes.Inv, inv_tick]

theorem inv_one (hc : Inv c.pre) (acc align va n) {k} (hk : ∀ segs tier bs, (k segs tier bs).Inv) :
    (Cx.one c acc align va n k).Inv := by
  unfold Cx.one
  split
  · exact hc
  · split
    · grind [MRes.Inv]
    · split
      · next hy => exact inv_park ((inv_stuck hc ..).of_hold hy) ..
      · exact inv_res (inv_stuck hc ..)

theorem inv_checkLanes (h : Inv s) (c : Cx) (acc align n a) : Inv (Cx.checkLanes c acc align n a s).2.2 := by
  induction a generalizing s with
  | nil => exact h
  | cons x a ih =>
    unfold Cx.checkLanes
    split
    · exact ih (inv_bindAll h _)
    · exact h

theorem inv_parkLanes (h : Inv s) (c : Cx) (acc align n a) : Inv (Cx.parkLanes c acc align n a s).2.2.2 := by
  induction a generalizing s with
  | nil => exact h
  | cons x a ih =>
    unfold Cx.parkLanes
    split
    · exact ih (inv_bindAll h _)
    · next r _ =>
      split
      · next hy => exact ih ((inv_stuck h ..).of_hold hy)
      · exact ih h

theorem inv_takeTags (h : Inv s) (src : State) : Inv (takeTags s src) := by
  unfold takeTags
  exact inv_foldl (s := { s with keyTags := src.keyTags }) h (fun _ m h => inv_noteMiss h _) _

theorem inv_failLane (h : Inv s) (c : Cx) (todo xs x) {perform} (hp : ∀ xs s, Inv s → (perform xs s).Inv) :
    (Cx.failLane c todo xs s x perform).Inv := by
  have hx := inv_stuck h c x.2.1 x.2.2
  unfold Cx.failLane
  split
  · next hy =>
    rw [hy] at hx
    dsimp only
    split
    · exact hx
    · have hq := hp xs _ hx
      split
      · next hz => rw [hz] at hq; exact hq
      · exact hq
  · exact inv_res hx

theorem inv_lanewise (hc : Inv c.pre) (h : Inv s) (acc align n todo) {perform} (hp : ∀ xs s,
    Inv s → (perform xs s).Inv) :
    (Cx.lanewise c acc align n todo s perform).Inv := by
  have hk := inv_parkLanes hc c acc align n todo
  have hl := inv_checkLanes hc c acc align n todo
  unfold Cx.lanewise
  split
  · exact hc
  · split
    · dsimp only
      split
      · exact hc
      · split
        · exact hp _ _ (inv_takeTags h _)
        · exact inv_failLane hl _ _ _ _ hp
    · next hy =>
      rw [hy] at hk
      refine inv_park ?_ ..
      exact hk

theorem inv_countUses (h : Inv s) (c : Cx) (xs) : Inv (Cx.countUses c s xs) :=
  inv_foldl h (fun _ _ h => inv_countUse h ..) _

theorem inv_gated (hc : Inv c.pre) (kind keys) {k} (hk : (k ()).Inv) : (Cx.gated c kind keys k).Inv := by
  unfold Cx.gated
  grind [MRes.Inv]

theorem inv_enqueue (h : Inv s) (ms n ws) : Inv (Cx.enqueue c s ms n ws) :=
  inv_foldl (inv_onTeam h _) (fun _ _ h => inv_foldHash h ..) _

/-! ### Loads, stores and atomics -/

theorem Stuck.Inv.of_fault {x : Stuck} {f} (hx : x.Inv) (hy : x = .fault s f) : Machine.Inv s := by
  subst hy
  exact hx

theorem inv_landLane (h : Inv s) (d sx ps x) : Inv (Cx.landLane c s d sx ps x) := by
  unfold Cx.landLane
  split
  · refine inv_foldl h ?_ _
    intro s p h
    exact inv_onTeam h _
  · exact h

theorem inv_landLanes (h : Inv s) (d sx x n ps xs) : Inv (Cx.landLanes c s d sx x n ps xs) := by
  unfold Cx.landLanes
  split
  · exact inv_onTeam h _
  · exact inv_foldl h (fun _ x h => inv_landLane h d sx ps x) _

theorem inv_loadLanes (hc : Inv c.pre) (h : Inv s) (d base idx sz scale n sx x) :
    (Cx.loadLanes c s d base idx sz scale n sx x).Inv := by
  unfold Cx.loadLanes
  grind [Inv, MRes.Inv, inv_lanewise, inv_gated, inv_takeTags, inv_turnAll, inv_countUses, inv_tick, inv_landLanes]

theorem inv_storeLanes (hc : Inv c.pre) (h : Inv s) (d sz n x todo) : (Cx.storeLanes c s d sz n x todo).Inv := by
  unfold Cx.storeLanes
  grind [Inv, MRes.Inv, inv_lanewise, inv_tick, inv_enqueue]

theorem inv_bodyLd (hc : Inv c.pre) (h : Inv s) (d base idx sz scale) : (bodyLd d base idx sz scale c s).Inv := by
  unfold bodyLd
  grind [Inv, MRes.Inv, inv_loadLanes]

theorem inv_bodyLdExt (hc : Inv c.pre) (h : Inv s) (d base idx sz scale x sx) :
    (bodyLdExt d base idx sz scale x sx c s).Inv := by
  unfold bodyLdExt
  grind [Inv, MRes.Inv, inv_loadLanes]

theorem inv_bodySt (hc : Inv c.pre) (h : Inv s) (d base idx sz scale) : (bodySt d base idx sz scale c s).Inv := by
  unfold bodySt
  grind [Inv, MRes.Inv, inv_storeLanes]

theorem inv_bodyStExt (hc : Inv c.pre) (h : Inv s) (d base idx sz scale x) :
    (bodyStExt d base idx sz scale x c s).Inv := by
  unfold bodyStExt
  grind [Inv, MRes.Inv, inv_storeLanes]

theorem inv_bodyLdstr (hc : Inv c.pre) (h : Inv s) (d base idx sz scale x n1) :
    (bodyLdstr d base idx sz scale x n1 c s).Inv := by
  unfold bodyLdstr
  grind [Inv, MRes.Inv, inv_loadLanes]

theorem inv_bodyStstr (hc : Inv c.pre) (h : Inv s) (d base idx sz scale x n1) :
    (bodyStstr d base idx sz scale x n1 c s).Inv := by
  unfold bodyStstr
  grind [Inv, MRes.Inv, inv_storeLanes]

theorem inv_bodyCpst (hc : Inv c.pre) (h : Inv s) (d base x sz x1 x2 p) : (bodyCpst d base x sz x1 x2 p c s).Inv := by
  unfold bodyCpst
  grind [Inv, MRes.Inv, inv_storeLanes]

theorem inv_loadTeam (hc : Inv c.pre) (h : Inv s) (d base sz sx x) : (Cx.loadTeam c s d base sz sx x).Inv := by
  unfold Cx.loadTeam
  grind [Inv, MRes.Inv, inv_one, inv_gated, inv_bindAll, inv_turnAll, inv_countUses, inv_tick, inv_onTeam]

theorem inv_storeTeam (hc : Inv c.pre) (h : Inv s) (d base sz x) : (Cx.storeTeam c s d base sz x).Inv := by
  unfold Cx.storeTeam
  grind [Inv, MRes.Inv, inv_one, inv_enqueue, inv_tick, inv_bindAll]

theorem inv_bodyLds (hc : Inv c.pre) (h : Inv s) (d base x sz x1) : (bodyLds d base x sz x1 c s).Inv := by
  unfold bodyLds
  grind [Inv, MRes.Inv, inv_loadTeam]

theorem inv_bodyLdsExt (hc : Inv c.pre) (h : Inv s) (d base x sz x1 x2 sx) :
    (bodyLdsExt d base x sz x1 x2 sx c s).Inv := by
  unfold bodyLdsExt
  grind [Inv, MRes.Inv, inv_loadTeam]

theorem inv_bodySts (hc : Inv c.pre) (h : Inv s) (d base x sz x1) : (bodySts d base x sz x1 c s).Inv := by
  unfold bodySts
  grind [Inv, MRes.Inv, inv_storeTeam]

theorem inv_bodyStsExt (hc : Inv c.pre) (h : Inv s) (d base x sz x1 x2) : (bodyStsExt d base x sz x1 x2 c s).Inv := by
  unfold bodyStsExt
  grind [Inv, MRes.Inv, inv_storeTeam]

theorem inv_pmov (hc : Inv c.pre) (h : Inv s) (dir p base x) : (Cx.pmov c s dir p base x).Inv := by
  unfold Cx.pmov
  grind [Inv, MRes.Inv, inv_one, inv_tick, inv_bindAll, inv_enqueue, inv_gated, inv_wrP, inv_turnAll, inv_countUses]

theorem inv_bodyPmov (hc : Inv c.pre) (h : Inv s) (dir p base) : (bodyPmov dir p base c s).Inv := by
  unfold bodyPmov
  grind [Inv, MRes.Inv, inv_pmov]

theorem inv_bodyPmovExt (hc : Inv c.pre) (h : Inv s) (dir p base x) : (bodyPmovExt dir p base x c s).Inv := by
  unfold bodyPmovExt
  grind [Inv, MRes.Inv, inv_pmov]

theorem inv_bodyPref (h : Inv s) (x x1 x2 x3) : (bodyPref x x1 x2 x3 c s).Inv := h

theorem inv_bodyPrefExt (h : Inv s) (x x1 x2 x3 x4) : (bodyPrefExt x x1 x2 x3 x4 c s).Inv := h

theorem inv_bodyFence (hc : Inv c.pre) (h : Inv s) (kind x) : (bodyFence kind x c s).Inv := by
  unfold bodyFence
  grind [Inv, MRes.Inv]

theorem inv_stampClocks (h : Inv s) (core part tier key va) : Inv (stampClocks s core part tier key va) := by
  unfold stampClocks
  grind [Inv, State.receive_mem]

theorem inv_peerAtomic (h : Inv s) (tier key n r) : Inv (peerAtomic s tier key n r) := by
  unfold peerAtomic
  grind [Inv]

theorem inv_writeWord (h : Inv s) (c va tier key n v sent) : OInv (writeWord s c va tier key n v sent) := by
  unfold writeWord
  refine OInv.map ?_ fun s h => inv_putMem h ..
  split
  · exact inv_irreversible h ..
  · exact inv_undoWrite h ..

theorem inv_rmwLane {r : RmwAcc} (hr : Inv r.s) (c : Cx) (n tag f x) : Inv (c.rmwLane n tag f r x).s := by
  unfold Cx.rmwLane
  split
  · exact hr
  · have hh := inv_foldHash hr c.ctx c.g c.b c.t x.va (natBytes n (f x.lane).data)
    have ht : Inv (if tag then stampClocks (foldHash r.s c.ctx c.g c.b c.t x.va (natBytes n (f x.lane).data))
        c.core c.gr.part x.tier (keyAt x.segs 0) x.va
        else foldHash r.s c.ctx c.g c.b c.t x.va (natBytes n (f x.lane).data)) := by
      split; exacts [inv_stampClocks hh .., hh]
    have hb := inv_countBank ht c.ctx c.gr.part c.core x.va x.tier (keyAt x.segs 0)
    dsimp only
    generalize countBank _ c.ctx c.gr.part c.core x.va x.tier (keyAt x.segs 0) = u at hb ⊢
    split
    · exact hb
    · split
      · exact inv_peerAtomic hb ..
      · split
        · exact inv_peerAtomic ((inv_writeWord hb ..).inv _ ‹_›) ..
        · exact hr

theorem inv_rmwLanes {r : RmwAcc} (hr : Inv r.s) (c : Cx) (n tag f) (xs : List LaneAcc) :
    Inv (xs.foldl (c.rmwLane n tag f) r).s := by
  induction xs generalizing r with
  | nil => exact hr
  | cons x xs ih => exact ih (inv_rmwLane hr ..)

theorem inv_checkRmw (hc : Inv c.pre) (n f todo) : Inv (Cx.checkRmw c n f todo).2.2 := by
  unfold Cx.checkRmw
  dsimp only
  split <;> exact inv_checkLanes hc ..

theorem inv_rmwEnd (h : Inv s) (todo a stuck) : (rmwEnd todo a stuck s).Inv := by
  unfold rmwEnd
  grind [Inv, MRes.Inv]

theorem inv_atomic (hc : Inv c.pre) (h : Inv s) (d base idx sz scale tag f) :
    (Cx.atomic c s d base idx sz scale tag f).Inv := by
  have hk := inv_parkLanes hc c .rmw sz.bytes sz.bytes (c.laneList base idx sz scale)
  have hl := inv_checkRmw hc sz.bytes f (c.laneList base idx sz scale)
  have hrun {s : State} (h : Inv s) (xs : List LaneAcc) (keys : List W64) :
      Inv (xs.foldl (c.rmwLane sz.bytes tag f) ⟨turnAll (c.tick s 0x13 xs.length) c.ctx 1 keys c.req, [], [],
          none⟩).s :=
    inv_rmwLanes (r := ⟨_, [], [], none⟩) (inv_turnAll (inv_tick h ..) ..) ..
  have hend {r : RmwAcc} (hr : Inv r.s) (todo stuck) : (rmwEnd todo r stuck <|
      if sz = Size.d then c.wrD r.s d (r.olds.map fun e => (e.1, BitVec.ofNat 64 e.2))
      else c.wrL r.s d (r.olds.map fun e => (e.1, BitVec.ofNat 32 e.2))).Inv :=
    inv_rmwEnd (by split; exacts [inv_wrD hr .., inv_wrL hr ..]) ..
  unfold Cx.atomic
  dsimp only
  split
  · exact hc
  split
  · split
    · exact hc
    split
    · exact hc
    split
    · have hs := inv_takeTags h (c.checkRmw sz.bytes f (c.laneList base idx sz scale)).2.2
      exact inv_gated hc _ _ (hend (by split <;> exact hrun hs ..) ..)
    split
    · next hy =>
      have hs := (inv_stuck hl ..).of_fault hy
      exact inv_gated hc _ _ (hend (by split <;> exact hrun hs ..) ..)
    · exact inv_res (inv_stuck hl ..)
  · next hy =>
    rw [hy] at hk
    refine inv_park ?_ ..
    exact hk

theorem inv_bodyAtom (hc : Inv c.pre) (h : Inv s) (d base idx sz scale x tag a op) :
    (bodyAtom d base idx sz scale x tag a op c s).Inv := by
  unfold bodyAtom
  grind [Inv, MRes.Inv, inv_atomic]

theorem inv_bodyCas (hc : Inv c.pre) (h : Inv s) (d base idx sz scale x tag k n) :
    (bodyCas d base idx sz scale x tag k n c s).Inv := by
  unfold bodyCas
  grind [Inv, MRes.Inv, inv_atomic]

theorem inv_bodyAtoms (hc : Inv c.pre) (h : Inv s) (d base x sz x1 x2 tag a op) :
    (bodyAtoms d base x sz x1 x2 tag a op c s).Inv := by
  unfold bodyAtoms
  dsimp only
  generalize (if op = 12 then Rmw.cas _ _ else _) = r
  refine inv_one hc _ _ _ _ fun segs tier bs => ?_
  split
  · exact hc
  split
  · exact hc
  refine inv_gated hc _ _ ?_
  have hr := inv_rmwLane (r := ⟨turnAll (c.tick (bindAll s bs) 0x13 1) c.ctx 1
      (rmwKeys [teamAcc (c.rdS (.s base)) segs tier]) c.req, [], [], none⟩)
    (inv_turnAll (inv_tick (inv_bindAll h _) ..) ..) c sz.bytes tag
    (fun _ => r) (teamAcc (c.rdS (.s base)) segs tier)
  generalize Cx.rmwLane c sz.bytes tag (fun _ => r) _ _ = y at hr ⊢
  split
  · exact inv_bindAll hc _
  · exact hc
  · split
    · exact inv_onTeam hr _
    · exact hr
  · exact hr

theorem inv_bodyBop (hc : Inv c.pre) (h : Inv s) (base cnt a wide x op) : (bodyBop base cnt a wide x op c s).Inv := by
  unfold bodyBop
  dsimp only
  generalize (if wide then 8 else 4) = n
  split
  · exact h
  split
  · exact hc
  split
  · exact hc
  split
  · exact hc
  split
  · exact hc
  · exact inv_onTeam (inv_foldl h (fun _ e h => inv_foldHash h ..) _) _

/-! ### Control, lifts, copies and fetches -/

theorem inv_jumpTo (hc : Inv c.pre) (h : Inv s) (disp) : (Cx.jumpTo c s disp).Inv := by
  unfold Cx.jumpTo
  grind [Inv, MRes.Inv]

theorem inv_branch (hc : Inv c.pre) (h : Inv s) (sc p sense disp) : (branch sc p sense disp c s).Inv := by
  unfold branch
  grind [Inv, MRes.Inv, inv_jumpTo, State.modLvl_mem]

theorem inv_bodyNop (h : Inv s) : (bodyNop c s).Inv := h

theorem inv_bodyBt (hc : Inv c.pre) (h : Inv s) (sc p disp) : (bodyBt sc p disp c s).Inv := by
  unfold bodyBt
  grind [Inv, MRes.Inv, inv_branch]

theorem inv_bodyBf (hc : Inv c.pre) (h : Inv s) (sc p disp) : (bodyBf sc p disp c s).Inv := by
  unfold bodyBf
  grind [Inv, MRes.Inv, inv_branch]

theorem inv_bodyJmp (hc : Inv c.pre) (h : Inv s) (x disp) : (bodyJmp x disp c s).Inv := by
  unfold bodyJmp
  grind [Inv, MRes.Inv, inv_jumpTo]

theorem inv_bodyLoop (hc : Inv c.pre) (h : Inv s) (x n disp) : (bodyLoop x n disp c s).Inv := by
  unfold bodyLoop
  grind [Inv, MRes.Inv, inv_jumpTo, State.modSeq_mem]

theorem inv_bodyEndl (hc : Inv c.pre) (h : Inv s) (x disp) : (bodyEndl x disp c s).Inv := by
  unfold bodyEndl
  grind [Inv, MRes.Inv, inv_jumpTo, State.modSeq_mem]

theorem inv_bodyCall (hc : Inv c.pre) (h : Inv s) (sc disp) : (bodyCall sc disp c s).Inv := by
  unfold bodyCall
  grind [Inv, MRes.Inv, inv_jumpTo, State.modSeq_mem]

theorem inv_refFrame (h : Inv s) (h1 f) : Inv (Cx.refFrame c s h1 f) := h

theorem inv_bodyCallFrame (hc : Inv c.pre) (h : Inv s) (sc lvl disp) : (bodyCallFrame sc lvl disp c s).Inv := by
  unfold bodyCallFrame
  grind [Inv, MRes.Inv, inv_refFrame, State.modCtx_mem, inv_jumpTo, State.modSeq_mem]

theorem inv_scrubRecords (h : Inv s) (c h1 f) : OInv (scrubRecords s c h1 f) := by
  unfold scrubRecords
  split
  · exact (oinv_some h).foldl (fun s j h => inv_undoBy h ..) _
  · exact oinv_some h

/-- What a frame's return comes to meets the invariant. -/
def FrameRet.Inv : FrameRet → Prop
  | .retired s | .waits s _ => Machine.Inv s
  | .stalled => True

theorem inv_returnFrame (h : Inv s) (h1) : (returnFrame c s h1).Inv := by
  have hp := inv_publishAll (s := { s with frames := mmod s.frames (c.frameKey h1) fun f => { f with state := 1 } }) h
    c.p c.ctx c.engine c.g c.b c.k
  unfold returnFrame
  dsimp only
  split
  · exact hp
  · split
    · split
      · next hy =>
        have hs := (inv_scrubRecords (inv_refFrame hp ..) ..).inv _ hy
        exact hs
      · trivial
    · exact hp

theorem inv_bodyRet (hc : Inv c.pre) (h : Inv s) (x) : (bodyRet x c s).Inv := by
  have hr := fun h1 => inv_returnFrame (c := c) h h1
  unfold bodyRet
  grind [MRes.Inv, FrameRet.Inv, inv_modSeq]

theorem inv_bodyFrdef (hc : Inv c.pre) (h : Inv s) (x lvl half mask modes) :
    (bodyFrdef x lvl half mask modes c s).Inv := by
  unfold bodyFrdef
  grind [Inv, MRes.Inv]

theorem inv_bodyFrfence (hc : Inv c.pre) (h : Inv s) (x lvl) : (bodyFrfence x lvl c s).Inv := by
  unfold bodyFrfence
  grind [Inv, MRes.Inv, inv_publishFrame, State.modSeq_mem]

theorem inv_bodyExit (h : Inv s) : (bodyExit c s).Inv := h

theorem inv_fillLifts (h : Inv s) (p) : Inv (fillLifts s p) := by
  unfold fillLifts
  split
  · exact inv_modLvl (inv_foldl h (fun s l h => inv_modLvl h _ _) _) _ _
  · exact h

theorem inv_contribute (h : Inv s) (own i x) : OInv (contribute s own i x) := by
  unfold contribute
  grind [Inv, oinv_some, oinv_none, OInv.inv, State.modLvl_mem, inv_fillLifts]

theorem inv_liftBody (hc : Inv c.pre) (h : Inv s) (i d lane part) : (liftBody i d lane part c s).Inv := by
  unfold liftBody
  grind [Inv, MRes.Inv, oinv_some, oinv_none, OInv.inv, inv_scalarWrite, inv_contribute, State.modLvl_mem,
    inv_fillLifts]

theorem inv_oneLane (hc : Inv c.pre) (o l) {k : MRes} (hk : k.Inv) : (Cx.oneLane c o l k).Inv := by
  unfold Cx.oneLane
  grind [MRes.Inv]

theorem inv_bodyVote (hc : Inv c.pre) (h : Inv s) (d k kind p) : (bodyVote d k kind p c s).Inv := by
  unfold bodyVote
  grind [Inv, MRes.Inv, inv_scalarWrite, inv_liftBody]

theorem inv_bodyPfxc (h : Inv s) (d a mode p) : (bodyPfxc d a mode p c s).Inv := by
  unfold bodyPfxc
  grind [Inv, MRes.Inv, inv_wrL]

theorem inv_bodyShfl (hc : Inv c.pre) (h : Inv s) (d a j) : (bodyShfl d a j c s).Inv := by
  unfold bodyShfl
  grind [Inv, MRes.Inv, inv_wrL]

theorem inv_bodyRdfirst (hc : Inv c.pre) (h : Inv s) (d a) : (bodyRdfirst d a c s).Inv := by
  unfold bodyRdfirst
  grind [Inv, MRes.Inv, inv_oneLane, inv_liftBody]

theorem inv_bodyRdlane (hc : Inv c.pre) (h : Inv s) (d a j) : (bodyRdlane d a j c s).Inv := by
  unfold bodyRdlane
  grind [Inv, MRes.Inv, inv_oneLane, inv_liftBody]

theorem inv_bodyReduce (hc : Inv c.pre) (h : Inv s) (d a op) : (bodyReduce d a op c s).Inv := by
  unfold bodyReduce
  grind [Inv, MRes.Inv, inv_liftBody]

theorem inv_bodyPlog (h : Inv s) (op pd qs pa pb) : (bodyPlog op pd qs pa pb c s).Inv := by
  unfold bodyPlog
  grind [Inv, MRes.Inv, inv_wrP, inv_wrQ]

theorem inv_bodyActm (hc : Inv c.pre) (h : Inv s) (d k sel) : (bodyActm d k sel c s).Inv := by
  unfold bodyActm
  grind [Inv, MRes.Inv, inv_scalarWrite]

theorem inv_settleLines (h : Inv s) (id old d r) : Inv (settleLines s id old d r) := by
  unfold settleLines
  grind [Inv, State.modBlock_mem]

theorem inv_register (h : Inv s) (x hashLast) : Inv (Cx.register c s x hashLast) := h

theorem inv_issueCopy (hc : Inv c.pre) (h : Inv s) (x rel hashLast) : (Cx.issueCopy c s x rel hashLast).Inv := by
  unfold Cx.issueCopy
  grind [Inv, MRes.Inv, pinv_some, pinv_none, PInv.inv, inv_deliverFlag, inv_register]

theorem inv_bodyCopy (hc : Inv c.pre) (h : Inv s) (dst src len flag x) : (bodyCopy dst src len flag x c s).Inv := by
  unfold bodyCopy
  grind [Inv, MRes.Inv, inv_issueCopy]

theorem inv_cacheRecord (h : Inv s) (core g va bytes) : Inv (cacheRecord s core g va bytes) := h

theorem inv_record (hc : Inv c.pre) (h : Inv s) (va) {k} (hk : ∀ bs s, Inv s → (k bs s).Inv) :
    (Cx.record c va k s).Inv := by
  unfold Cx.record
  split
  · exact hc
  split
  · exact hk _ _ h
  · refine inv_one hc _ _ _ _ fun segs tier bs => ?_
    dsimp only
    split
    · exact hc
    split
    · exact inv_bindAll hc _
    · exact inv_gated hc _ _ (hk _ _ (inv_turnAll (inv_bindAll h _) ..))

theorem inv_bodyCopyt (hc : Inv c.pre) (h : Inv s) (dst src rec_ flag x) :
    (bodyCopyt dst src rec_ flag x c s).Inv := by
  unfold bodyCopyt
  grind [Inv, MRes.Inv, inv_record, inv_issueCopy, inv_cacheRecord]

theorem inv_bodyRcfence (h : Inv s) : (bodyRcfence c s).Inv := h

theorem inv_recordFold {o : Option (State × W64)} (h : ∀ x, o = some x → Inv x.1) (g c engine core inst)
    (segs : List (Nat × Nat)) :
    OInv ((segs.foldl (fun (o : Option (State × W64)) e => o.bind fun a =>
      (undoWrite a.1 g c engine inst a.2 e.1 e.2).map fun s =>
        (if s.undoOn c then s.count g core 0x17 (cutPieces a.2.toNat (e.2 + 1) e.2).length else s,
          a.2 + BitVec.ofNat 64 e.2)) o).map (·.1)) := by
  induction segs generalizing o with
  | nil => exact oinv_map h
  | cons e segs ih =>
    refine ih fun x hx => ?_
    obtain ⟨y, hy, hx⟩ := Option.bind_eq_some_iff.mp hx
    obtain ⟨u, hu, rfl⟩ := Option.map_eq_some_iff.mp hx
    have hu := (inv_undoWrite (h y hy) ..).inv u hu
    grind [Inv, State.count_mem]

theorem inv_copyRecords (h : Inv s) (g c engine core inst va tier segs bytes) :
    OInv (copyRecords s g c engine core inst va tier segs bytes) := by
  unfold copyRecords
  split
  · exact inv_irreversible h ..
  · exact inv_recordFold (fun x hx => Option.some.inj hx ▸ h) ..

/-- What a piece of a copy comes to meets the invariant. -/
def CopyRes.Inv : CopyRes → Prop
  | .wrote s | .failed _ _ s | .waits s => Machine.Inv s
  | .stalled | .diverged | .dead _ => True

theorem inv_poisonRanges (h : Inv s) (segs : List (Nat × Nat)) :
    Inv (segs.foldl (fun s e => poisonRange s e.1 e.2) s) :=
  inv_foldl h (fun _ _ h => inv_poisonRange h ..) _

theorem inv_writePiece (h : Inv s) (id c gr g b core p dsegs dt ssegs st) :
    (writePiece s id c gr g b core p dsegs dt ssegs st).Inv := by
  have hr := inv_copyRecords h g gr.ctx c.engine core
  unfold writePiece
  grind [Inv, OInv.inv, CopyRes.Inv, inv_turnAll, inv_countUse, State.count_mem, inv_putSegs, inv_poisonRanges,
    inv_settleLines]

theorem inv_copyNext (h : Inv s) (id c) : (copyNext s id c).Inv := by
  have hn := inv_noteAlias h
  have hf := fun gr base size va => (inv_startFill h gr base size va).inv
  unfold copyNext
  dsimp only
  split
  · split
    · exact h
    · split
      · split
        · split
          · exact inv_writePiece (inv_bindAll h _) ..
          · grind [Inv, CopyRes.Inv]
        · grind [Inv, CopyRes.Inv]
      · split
        · exact inv_writePiece (inv_bindAll h _) ..
        · grind [Inv, CopyRes.Inv]
  · exact h

theorem inv_copyRun (h : Inv s) (id n cp) : (copyRun id n s cp).Inv := by
  induction n generalizing s cp with
  | zero => exact inv_copyNext h id cp
  | succ n ih =>
    have hn := inv_copyNext h id cp
    unfold copyRun
    split
    · next u hy =>
      rw [hy] at hn
      have hr := fun cp => ih (s := u) hn cp
      split
      · exact hn
      · grind [CopyRes.Inv, Inv]
    · exact hn

theorem inv_copyStep (h : Inv s) (id cp) : (copyStep s id cp).Inv := inv_copyRun h id 3 cp

theorem inv_reportBads (h : Inv s) (c) : Inv (reportBads s c) := by
  unfold reportBads
  grind [Inv, inv_health]

theorem inv_dropFlag (h : Inv s) (c f) : Inv (dropFlag s c f) := by
  unfold dropFlag
  grind [Inv, State.modTeam_mem]

theorem inv_finishCopy (h : Inv s) (id c) : Inv (finishCopy s id c) := by
  unfold finishCopy
  grind [Inv, inv_dropFlag, inv_settleLines, inv_reportBads]

theorem inv_failCopy (h : Inv s) (id c cls va) : Inv (failCopy s id c cls va) := by
  unfold failCopy
  grind [Inv, inv_reportBads, State.modBlock_mem, inv_dropFlag, inv_settleLines]

/-- What a fetch answers meets the invariant. -/
def FetchRes.Inv : FetchRes → Prop
  | .words _ s | .fault s _ | .hold s _ => Machine.Inv s
  | .dead _ => True

theorem inv_readPacket (h : Inv s) (e gr g pkt) : (readPacket s e gr g pkt).Inv := by
  unfold readPacket
  grind [Inv, FetchRes.Inv, sinv_inl, sinv_inr, SInv.inv, inv_bindAll, inv_noteAlias, inv_startFill]

theorem inv_keepPacket (h : Inv s) (p pkt ws) : Inv (keepPacket s p pkt ws) := by
  unfold keepPacket
  grind [Inv, State.modSeq_mem]

theorem inv_kept {r : FetchRes} (hr : r.Inv) (p pkt) : (FetchRes.kept r p pkt).Inv := by
  unfold FetchRes.kept
  split
  · exact inv_keepPacket hr ..
  · exact hr

theorem inv_readOrCached (h : Inv s) (p gr) : (fetchPacket.readOrCached s p gr).Inv := by
  unfold fetchPacket.readOrCached
  dsimp only
  split
  · exact h
  · split
    · exact h
    · exact inv_readPacket h ..

theorem inv_fetchPacket (h : Inv s) (p gr) : (fetchPacket s p gr).Inv := by
  unfold fetchPacket
  split
  · exact h
  · exact inv_kept (inv_readOrCached h ..) ..

theorem inv_illegalAt (h : Inv s) (p ms k) : OutInv (illegalAt p ms k s) := by
  unfold illegalAt
  grind [Inv, outInv_next, outInv_fault, outInv_refused, inv_takeFault]

theorem inv_execIllegalInstruction (h : Inv s) : OutInv (execIllegalInstruction s) := by
  unfold execIllegalInstruction
  grind [Inv, outInv_next, outInv_fault, outInv_refused, inv_illegalAt]

theorem inv_endWalk (h : Inv s) (p) : Inv (endWalk p s) := by
  unfold endWalk
  split
  · exact h
  · split
    · exact inv_modLvl ((inv_emitSegment h ..).inv _ ‹_›) ..
    · exact inv_holdParty h ..

/-! ### Float members, messages, bins, tiles and system members -/

theorem inv_bodyFadd (h : Inv s) (d a b) : (bodyFadd d a b c s).Inv := by
  unfold bodyFadd
  grind [Inv, MRes.Inv, inv_float]

theorem inv_bodyFsub (h : Inv s) (d a b) : (bodyFsub d a b c s).Inv := by
  unfold bodyFsub
  grind [Inv, MRes.Inv, inv_float]

theorem inv_bodyFmul (h : Inv s) (d a b) : (bodyFmul d a b c s).Inv := by
  unfold bodyFmul
  grind [Inv, MRes.Inv, inv_float]

theorem inv_bodyFfma (h : Inv s) (d a b x np nc) : (bodyFfma d a b x np nc c s).Inv := by
  unfold bodyFfma
  grind [Inv, MRes.Inv, inv_float]

theorem inv_minmax (h : Inv s) (isMax d a b) : (Cx.minmax c s isMax d a b).Inv := by
  unfold Cx.minmax
  grind [Inv, MRes.Inv, inv_float]

theorem inv_bodyFmin (h : Inv s) (d a b) : (bodyFmin d a b c s).Inv := by
  unfold bodyFmin
  grind [Inv, MRes.Inv, inv_minmax]

theorem inv_bodyFmax (h : Inv s) (d a b) : (bodyFmax d a b c s).Inv := by
  unfold bodyFmax
  grind [Inv, MRes.Inv, inv_minmax]

theorem inv_bodyFscl (h : Inv s) (d a b) : (bodyFscl d a b c s).Inv := by
  unfold bodyFscl
  grind [Inv, MRes.Inv, inv_float]

theorem inv_bodyFcmp (h : Inv s) (pd cc a b) : (bodyFcmp pd cc a b c s).Inv := by
  unfold bodyFcmp
  grind [Inv, MRes.Inv, inv_setFlags, inv_wrP, inv_wrQ]

theorem inv_bodyFrcp (h : Inv s) (d a) : (bodyFrcp d a c s).Inv := by
  unfold bodyFrcp
  grind [Inv, MRes.Inv, inv_float]

theorem inv_bodyFrsq (h : Inv s) (d a) : (bodyFrsq d a c s).Inv := by
  unfold bodyFrsq
  grind [Inv, MRes.Inv, inv_float]

theorem inv_bodyFsqrt (h : Inv s) (d a) : (bodyFsqrt d a c s).Inv := by
  unfold bodyFsqrt
  grind [Inv, MRes.Inv, inv_float]

theorem inv_bodyFex2 (h : Inv s) (d a) : (bodyFex2 d a c s).Inv := by
  unfold bodyFex2
  grind [Inv, MRes.Inv, inv_float]

theorem inv_bodyFlg2 (h : Inv s) (d a) : (bodyFlg2 d a c s).Inv := by
  unfold bodyFlg2
  grind [Inv, MRes.Inv, inv_float]

theorem inv_bodyHadd2 (h : Inv s) (d a b) : (bodyHadd2 d a b c s).Inv := by
  unfold bodyHadd2
  grind [Inv, MRes.Inv, inv_float]

theorem inv_bodyHmul2 (h : Inv s) (d a b) : (bodyHmul2 d a b c s).Inv := by
  unfold bodyHmul2
  grind [Inv, MRes.Inv, inv_float]

theorem inv_bodyHfma2 (h : Inv s) (d a b x np nc) : (bodyHfma2 d a b x np nc c s).Inv := by
  unfold bodyHfma2
  grind [Inv, MRes.Inv, inv_float]

theorem inv_bodyCvt (h : Inv s) (d a src dst) : (bodyCvt d a src dst c s).Inv := by
  unfold bodyCvt
  grind [Inv, MRes.Inv, inv_float]

theorem inv_bodyFrnd (h : Inv s) (d a m) : (bodyFrnd d a m c s).Inv := by
  unfold bodyFrnd
  grind [Inv, MRes.Inv, inv_float]

theorem inv_bodyFcls (h : Inv s) (d a t1) : (bodyFcls d a t1 c s).Inv := by
  unfold bodyFcls
  grind [Inv, MRes.Inv, inv_wrL]

theorem inv_bodyCvtq (h : Inv s) (d a b fmt mode elem) : (bodyCvtq d a b fmt mode elem c s).Inv := by
  unfold bodyCvtq
  grind [Inv, MRes.Inv, inv_float]

theorem OInv.getD {o : Option State} (ho : OInv o) (h : Inv s) : Inv (o.getD s) := by
  cases o with
  | none => exact h
  | some t => exact ho.inv t rfl

theorem pinv_orElse {α : Type} {o : Option (α × State)} {k} (ho : PInv o) (hk : PInv (k ())) : PInv (o.orElse k) := by
  cases o with
  | none => exact hk
  | some x => exact ho

theorem inv_formTeam (h : Inv s) (key due) : OInv (formTeam s key due) := by
  unfold formTeam
  refine oinv_bind fun _ _ => oinv_bind fun _ _ => oinv_bind fun _ _ => oinv_bind fun _ _ => oinv_bind fun _ _ =>
    oinv_bind fun _ _ => oinv_bind fun _ _ => ?_
  split
  · exact oinv_none
  · refine oinv_some (inv_arbTurn ?_ ..)
    exact wf_scrubRange h _ _

theorem inv_formDue (h : Inv s) (key) : OInv (formDue s key) := oinv_bind fun _ _ => inv_formTeam h ..

theorem inv_formAll (h : Inv s) (core) : Inv (formAll s core) := inv_foldl h (fun _ _ h => (inv_formDue h _).getD h) _

theorem inv_formInTurn (h : Inv s) (key due) : OInv (formInTurn s key due) := by
  unfold formInTurn
  grind [Inv, oinv_some, oinv_none, OInv.inv, inv_formTeam]

theorem inv_formFull (h : Inv s) (key) : Inv (formFull s key) := by
  unfold formFull
  split
  · split
    · exact (inv_formInTurn h ..).getD h
    · exact h
  · exact h

theorem inv_openBin (h : Inv s) (key d) : Inv (openBin s key d) := h

theorem inv_openFree (h : Inv s) (core d) : PInv (openFree s core d) := pinv_map fun _ _ => inv_openBin h ..

theorem inv_placeDeposit (h : Inv s) (core d) : PInv (placeDeposit s core d) := by
  unfold placeDeposit
  split
  · exact pinv_some h
  · refine pinv_orElse (inv_openFree h ..) (pinv_orElse (inv_openFree (inv_formAll h core) ..)
      (pinv_bind fun u hu => ?_))
    obtain ⟨o, -, hu⟩ := Option.bind_eq_some_iff.mp hu
    exact inv_openFree ((inv_formTeam (inv_formAll h core) ..).inv u hu) ..

theorem inv_forceOldest (h : Inv s) (core) : Inv (forceOldest s core) := by
  unfold forceOldest
  grind [Inv]

theorem inv_deposit (h : Inv s) (core d) : OInv (deposit s core d) := by
  refine oinv_map fun x hx => inv_formFull ?_ _
  exact (inv_placeDeposit h core d).inv x.1 x.2 hx

theorem inv_depositAll (h : Inv s) (core ds) : Inv (depositAll core ds s).2 := by
  induction ds generalizing s with
  | nil => exact h
  | cons x ds ih =>
    unfold depositAll
    split
    · exact ih ((inv_deposit h ..).inv _ ‹_›)
    · exact inv_forceOldest h core

theorem inv_bodySpawn (hc : Inv c.pre) (h : Inv s) (entry pay n1 size1 timeout) :
    (bodySpawn entry pay n1 size1 timeout c s).Inv := by
  unfold bodySpawn
  grind [Inv, MRes.Inv, inv_gated, inv_depositAll, inv_turnAll, inv_onTeam]

theorem inv_sendMsg (h : Inv s) (lane tgt entry size timeout words) :
    OInv (Cx.sendMsg c lane tgt entry size timeout words s) := by
  have hb : Inv (s.bump c.core) := by grind [Inv, State.bump_mem]
  unfold Cx.sendMsg
  dsimp only
  split
  · refine (inv_irreversible hb ..).map ?_
    intro s h
    exact h
  · exact oinv_some (inv_fresh hb)

theorem inv_bodyAmsg (hc : Inv c.pre) (h : Inv s) (target entry pay x size1 timeout n1) :
    (bodyAmsg target entry pay x size1 timeout n1 c s).Inv := by
  unfold bodyAmsg
  dsimp only
  split
  · exact hc
  split
  · exact hc
  split
  · next hy => exact ((oinv_some h).foldl (fun s l h => inv_sendMsg h ..) _).inv _ hy
  · exact hc

theorem inv_matBody (hc : Inv c.pre) (h : Inv s) (i) : (matBody i c s).Inv := by
  unfold matBody
  grind [Inv, MRes.Inv, inv_onTeam]

theorem inv_bodyMma (hc : Inv c.pre) (h : Inv s) (t1 fmt a b) : (bodyMma t1 fmt a b c s).Inv := by
  unfold bodyMma
  grind [Inv, MRes.Inv, inv_matBody]

theorem inv_bodyMmaq (hc : Inv c.pre) (h : Inv s) (t1 a b fa fb ga gb) : (bodyMmaq t1 a b fa fb ga gb c s).Inv := by
  unfold bodyMmaq
  grind [Inv, MRes.Inv, inv_matBody]

theorem inv_bodyMmasp (hc : Inv c.pre) (h : Inv s) (t1 fmt a b m) : (bodyMmasp t1 fmt a b m c s).Inv := by
  unfold bodyMmasp
  grind [Inv, MRes.Inv, inv_matBody]

theorem inv_bodyAclr (hc : Inv c.pre) (h : Inv s) (t1 n1) : (bodyAclr t1 n1 c s).Inv := by
  unfold bodyAclr
  grind [Inv, MRes.Inv, inv_matBody]

theorem inv_bodyArd (hc : Inv c.pre) (h : Inv s) (t1 cvt cblk n1 v) : (bodyArd t1 cvt cblk n1 v c s).Inv := by
  unfold bodyArd
  grind [Inv, MRes.Inv, inv_matBody]

theorem inv_bodyAwr (hc : Inv c.pre) (h : Inv s) (t1 cvt cblk n1 v) : (bodyAwr t1 cvt cblk n1 v c s).Inv := by
  unfold bodyAwr
  grind [Inv, MRes.Inv, inv_matBody]

theorem inv_bodyAscl (hc : Inv c.pre) (h : Inv s) (t1 o) : (bodyAscl t1 o c s).Inv := by
  unfold bodyAscl
  grind [Inv, MRes.Inv, inv_matBody]

theorem inv_healthAll (h : Inv s) (bad : List Nat) (ctx src unit v addr) :
    Inv (bad.foldl (fun s k => s.health ctx src unit k v addr) s) :=
  inv_foldl h (fun _ k h => inv_health h ctx src unit k v addr) _

theorem inv_tileOp (h : Inv s) (core x) : OInv (tileOp s core x) := by
  unfold tileOp
  split
  · exact oinv_none
  split
  · exact oinv_none
  dsimp only
  split
  · split
    · next gr b _ _ =>
      generalize hu : List.foldl (fun s k => s.health (some gr.ctx) 1 core k (BitVec.ofNat 64 x) 0) s _ = u
      have hb : Inv u := hu ▸ inv_healthAll h ..
      grind [Inv, oinv_some, State.modBlock_mem, State.modTeam_mem, State.count_mem]
    · exact oinv_some h
  · exact oinv_some h

theorem inv_bodyWaitf (hc : Inv c.pre) (h : Inv s) (mask) : (bodyWaitf mask c s).Inv := by
  unfold bodyWaitf
  grind [Inv, MRes.Inv, pinv_some, pinv_none, PInv.inv, inv_deliverFlag]

theorem inv_barBody (hc : Inv c.pre) (h : Inv s) (sync k cnt) : (barBody sync k cnt c s).Inv := by
  unfold barBody
  grind [Inv, MRes.Inv, inv_barSettle, State.modBlock_mem]

theorem inv_bodyBar (hc : Inv c.pre) (h : Inv s) (k cnt) : (bodyBar k cnt c s).Inv := by
  unfold bodyBar
  grind [Inv, MRes.Inv, inv_barBody]

theorem inv_bodyBarArr (hc : Inv c.pre) (h : Inv s) (k cnt) : (bodyBarArr k cnt c s).Inv := by
  unfold bodyBarArr
  grind [Inv, MRes.Inv, inv_barBody]

theorem inv_bodyWaitm (hc : Inv c.pre) (h : Inv s) (a base x sz x1 x2 cond) :
    (bodyWaitm a base x sz x1 x2 cond c s).Inv := by
  unfold bodyWaitm
  grind [Inv, MRes.Inv, inv_one, inv_bindAll, inv_gated, inv_hearSignal, inv_turnAll, inv_countUses]

theorem inv_bodySwi (hc : Inv c.pre) (h : Inv s) (a vec) : (bodySwi a vec c s).Inv := by
  unfold bodySwi
  grind [Inv, oinv_some, oinv_none, OInv.inv, MRes.Inv, inv_irreversible, inv_raise]

theorem inv_bodyTrap (h : Inv s) (code) : (bodyTrap code c s).Inv := h

theorem inv_bodyBrk (h : Inv s) (code) : (bodyBrk code c s).Inv := h

theorem inv_bodyWmark (hc : Inv c.pre) (h : Inv s) (sc tag) : (bodyWmark sc tag c s).Inv := by
  unfold bodyWmark
  grind [Inv, MRes.Inv]

theorem inv_bodyPushm (hc : Inv c.pre) (h : Inv s) (first cnt1) : (bodyPushm first cnt1 c s).Inv := by
  unfold bodyPushm
  dsimp only
  split
  · exact hc
  · exact inv_foldl (inv_onTeam h _) (fun _ e h => inv_foldHash h ..) _

theorem inv_bodyPopm (hc : Inv c.pre) (h : Inv s) (first cnt1) : (bodyPopm first cnt1 c s).Inv := by
  unfold bodyPopm
  grind [Inv, MRes.Inv, inv_onTeam]

theorem inv_bodyLaunch (hc : Inv c.pre) (h : Inv s) (d r p sg) : (bodyLaunch d r p sg c s).Inv := by
  unfold bodyLaunch
  grind [Inv, MRes.Inv, inv_onTeam, inv_one, inv_bindAll, inv_fresh]

theorem inv_bodyCsrr (hc : Inv c.pre) (h : Inv s) (d csr) : (bodyCsrr d csr c s).Inv := by
  unfold bodyCsrr
  grind [Inv, MRes.Inv, inv_scalarWrite]

theorem inv_bodyCsrw (hc : Inv c.pre) (h : Inv s) (a csr) : (bodyCsrw a csr c s).Inv := by
  unfold bodyCsrw
  grind [Inv, MRes.Inv, inv_onTeam]

theorem inv_outside (hc : Inv c.pre) (h : Inv s) (d live) : (Cx.outside c s d live).Inv := by
  unfold Cx.outside
  grind [Inv, MRes.Inv, inv_outsideValue, inv_scalarWrite]

theorem inv_bodyClkr (hc : Inv c.pre) (h : Inv s) (d sel) : (bodyClkr d sel c s).Inv := by
  unfold bodyClkr
  grind [Inv, MRes.Inv, inv_outside]

theorem inv_bodyMark (h : Inv s) (a tag) : (bodyMark a tag c s).Inv := by
  unfold bodyMark
  grind [Inv, MRes.Inv, State.bump_mem, inv_trace]

theorem inv_bodyPcnt (hc : Inv c.pre) (h : Inv s) (d n) : (bodyPcnt d n c s).Inv := by
  unfold bodyPcnt
  grind [Inv, MRes.Inv, inv_outside]

/-! ### Events, queue accesses, signals, and the retirement of teams and grids -/

theorem inv_happens (h : Inv s) {o} (ho : OInv o) : OutInv (happens s o) := by
  cases o with
  | none => exact outInv_next h
  | some t => exact outInv_next (ho.inv t rfl)

theorem inv_endWait (h : Inv s) (p) : Inv (endWait s p) := by
  unfold endWait
  grind [Inv, State.modSeq_mem]

theorem inv_execPacketFetch (h : Inv s) (p) : OutInv (execPacketFetch p s) := by
  unfold execPacketFetch
  grind [Inv, outInv_next, outInv_fault, outInv_refused, FetchRes.Inv, inv_readPacket]

theorem PInv.map {α : Type} {o : Option (α × State)} {f : α × State → State} (ho : PInv o) (hf : ∀ x,
    Inv x.2 → Inv (f x)) :
    OInv (o.map f) := oinv_map fun x hx => hf x (ho.inv x.1 x.2 hx)

theorem oinv_orElse {o : Option State} {k} (ho : OInv o) (hk : OInv (k ())) : OInv (o.orElse k) := by
  cases o with
  | none => exact hk
  | some x => exact ho

theorem inv_nextToken (h : Inv s) (p) : PInv (nextToken s p) := by
  unfold nextToken
  refine pinv_bind fun q _ => ?_
  have hq : PInv (match q.queue with
      | t :: rest => some (t, s.modSeq p fun q => { q with queue := rest })
      | [] => none) := by
    split
    · exact pinv_some (inv_modSeq h ..)
    · exact pinv_none
  have hr : PInv ((s.grid p.gridNo).bind fun gr =>
      (if gr.ringBase ≤ q.rd then gr.ring[q.rd - gr.ringBase]? else none).map fun t =>
        (t, trimRing (s.modSeq p fun q => { q with rd := q.rd + 1 }) p.gridNo)) :=
    pinv_bind fun gr _ => pinv_map fun t _ => inv_trimRing (inv_modSeq h ..) _
  dsimp only
  split
  · exact hq
  · split
    · exact hq
    · exact hr
  · exact hr
  · exact pinv_none

theorem inv_levelTake (h : Inv s) (p tk) : Inv (levelTake s p tk) := by
  unfold levelTake
  dsimp only
  split
  · exact inv_modSeq h ..
  · exact inv_modLvl (inv_modSeq h ..) ..

theorem inv_restoreHome (h : Inv s) (home : Option Nat) (imgs : List (Nat × Image)) :
    Inv (imgs.foldl (fun s e => match e.2.grid with
      | some x => if some x.ctx = home then { s with grids := mset s.grids e.2.gid x } else s
      | none => s) s) := by
  refine inv_foldl h ?_ _
  intro s e h
  split
  · split <;> exact h
  · exact h

theorem inv_execTokenReceive (h : Inv s) (p) : OutInv (execTokenReceive p s) := by
  refine inv_happens h ?_
  split
  · exact oinv_none
  · split
    · refine oinv_bind fun x _ => oinv_bind fun pc _ => ?_
      split
      · exact oinv_none
      · exact (inv_nextToken h _).map fun e he => inv_stepStop (inv_modTeam he ..) _
    · refine oinv_bind fun v _ => ?_
      split
      · exact oinv_none
      · exact (inv_nextToken h _).map fun e he => inv_stepStop (inv_levelTake he ..) _

theorem inv_execSettleWaitEnd (h : Inv s) (p) : OutInv (execSettleWaitEnd p s) := by
  unfold execSettleWaitEnd
  grind [Inv, outInv_next, outInv_fault, outInv_refused, inv_happens, oinv_some, oinv_none, OInv.inv, inv_endWait]

theorem inv_execSpawnRetry (h : Inv s) (p) : OutInv (execSpawnRetry p s) := by
  unfold execSpawnRetry
  grind [Inv, outInv_next, outInv_fault, outInv_refused, inv_happens, oinv_some, oinv_none, OInv.inv, inv_endWait]

theorem inv_execWaitmWake (h : Inv s) (p) : OutInv (execWaitmWake p s) := by
  unfold execWaitmWake
  grind [Inv, outInv_next, outInv_fault, outInv_refused, inv_happens, oinv_some, oinv_none, OInv.inv, inv_endWait]

theorem inv_execWaitmPeriodicRead (h : Inv s) (p) : OutInv (execWaitmPeriodicRead p s) := by
  unfold execWaitmPeriodicRead
  grind [Inv, outInv_next, outInv_fault, outInv_refused, inv_happens, oinv_some, oinv_none, OInv.inv, inv_endWait]

theorem inv_execParkedAccessResume (h : Inv s) (p) : OutInv (execParkedAccessResume p s) := by
  unfold execParkedAccessResume
  grind [Inv, outInv_next, outInv_fault, outInv_refused, inv_happens, oinv_some, oinv_none, OInv.inv, inv_endWait]

theorem inv_execBinTimerExpiry (h : Inv s) (core bin) : OutInv (execBinTimerExpiry core bin s) := by
  refine inv_happens h (oinv_bind fun x _ => ?_)
  split
  · exact inv_formInTurn h ..
  · exact oinv_none

theorem inv_execBinFormOnSlotFree (h : Inv s) (core bin) : OutInv (execBinFormOnSlotFree core bin s) := by
  unfold execBinFormOnSlotFree
  grind [Inv, oinv_some, oinv_none, OInv.inv, outInv_next, outInv_fault, outInv_refused, inv_happens, oinv_some,
    oinv_none, OInv.inv, inv_formDue]

theorem inv_messageToken (h : Inv s) : Inv (messageToken s).2 := h

theorem inv_depositMsg (h : Inv s) (ctx core m) : OInv (depositMsg s ctx core m) := by
  have hr : Inv (s.receive core m.stamp) := by grind [Inv, State.receive_mem]
  unfold depositMsg
  refine (inv_deposit (inv_messageToken hr) ..).map fun s h => ?_
  split
  · exact h
  · exact inv_arbTurn h ..

theorem inv_dropMsg (h : Inv s) (part) : Inv (dropMsg s part) := h

theorem inv_execMessageDeposit (h : Inv s) (id) : OutInv (execMessageDeposit id s) := by
  have hs : Inv { s with msgs := mdel s.msgs id } := h
  refine inv_happens h (oinv_bind fun m _ => ?_)
  split
  · exact oinv_none
  dsimp only
  split
  · split
    · exact oinv_none
    split
    · exact oinv_orElse (inv_depositMsg hs ..) (oinv_some (inv_forceOldest h _))
    · exact oinv_none
    · split
      · exact oinv_some (inv_takeFault h ..)
      · exact oinv_none
  · split
    · exact oinv_none
    · exact oinv_some (inv_modGrid hs ..)
  · split
    · exact oinv_none
    · exact oinv_some (inv_dropMsg hs _)

theorem inv_execTileOperation (h : Inv s) (core ctx) : OutInv (execTileOperation core ctx s) := by
  unfold execTileOperation
  grind [Inv, oinv_some, oinv_none, OInv.inv, outInv_next, outInv_fault, outInv_refused, inv_happens, oinv_some,
    oinv_none, OInv.inv, inv_tileOp]

theorem inv_execCopyStart (h : Inv s) (id) : OutInv (execCopyStart id s) := by
  unfold execCopyStart
  grind [Inv, CopyRes.Inv, outInv_next, outInv_fault, outInv_refused, inv_draw, inv_copyStep, inv_stopCopy,
    inv_takeFault]

theorem inv_execCopyComplete (h : Inv s) (id) : OutInv (execCopyComplete id s) := by
  refine inv_happens h (oinv_bind fun x _ => ?_)
  split
  · exact oinv_some (inv_finishCopy h ..)
  · exact oinv_none

theorem inv_execCopyFail (h : Inv s) (id) : OutInv (execCopyFail id s) := by
  refine inv_happens h (oinv_bind fun x _ => ?_)
  have hc := inv_copyStep h id x
  split
  · split
    · next hy =>
      rw [hy] at hc
      exact oinv_some (inv_failCopy hc ..)
    · exact oinv_none
  · exact oinv_none

theorem inv_landFirst (h : Inv s) (gr g b t1 e rest) : Inv (landFirst s gr g b t1 e rest) := by
  unfold landFirst
  grind [Inv, State.modTeam_mem, inv_turnAll, inv_feedMonitors]

theorem inv_execLoadDataReturn (h : Inv s) (p) : OutInv (execLoadDataReturn p s) := by
  refine inv_happens h ?_
  split
  · split
    · exact oinv_none
    refine oinv_bind fun x _ => ?_
    split
    · split
      · exact oinv_some (inv_landFirst h ..)
      · exact oinv_none
      · split
        · exact oinv_none
        · exact oinv_some (inv_takeFault h ..)
    · exact oinv_none
  · exact oinv_none

theorem inv_popStore (h : Inv s) (p) : Inv (popStore s p) := by
  unfold popStore
  grind [Inv, State.modTeam_mem]

theorem inv_storeRecords (h : Inv s) (gr g b core e bytes) : OInv (storeRecords s gr g b core e bytes) := by
  unfold storeRecords
  grind [Inv, oinv_some, oinv_none, OInv.inv, inv_irreversible, inv_undoWrite]

theorem inv_dropPeerStore (h : Inv s) (gr core va) : Inv (dropPeerStore s gr core va) := by
  unfold dropPeerStore
  grind [Inv, inv_draw, inv_health]

theorem inv_writeStore (h : Inv s) (gr g b core e) : OInv (writeStore s gr g b core e) := by
  unfold writeStore
  split
  · exact oinv_some (inv_dropPeerStore h ..)
  · refine (inv_storeRecords h ..).map fun s h => ?_
    have hc := inv_countUse (inv_putMem h e.key e.bytes) gr.ctx gr.part core e.va e.tier e.key
    dsimp only
    split <;> exact hc

theorem inv_writeBop (h : Inv s) (gr g core e op x) : OInv (writeBop s gr g core e op x) := by
  unfold writeBop
  dsimp only
  split
  · exact oinv_some (inv_health h ..)
  · exact (inv_undoWrite h ..).map fun s h => inv_countBank (inv_putMem h ..) ..

theorem inv_writeSlot (h : Inv s) (gr g b core e cell slot) : OInv (writeSlot s gr g b core e cell slot) := by
  unfold writeSlot
  grind [Inv, oinv_some, oinv_none, OInv.inv, inv_storeSlot]

theorem inv_writeEntry (h : Inv s) (gr g b core e) : OInv (writeEntry s gr g b core e) := by
  have hw : OInv (match e.kind with
      | .store => writeStore s gr g b core e
      | .bop op x => writeBop s gr g core e op x
      | .frame cell slot => writeSlot s gr g b core e cell slot) := by
    cases e.kind with
    | store => exact inv_writeStore h ..
    | bop op x => exact inv_writeBop h ..
    | frame cell slot => exact inv_writeSlot h ..
  refine hw.map ?_
  intro s h
  split <;> exact h

theorem inv_stopStore (h : Inv s) (p e cls) : Inv (stopStore s p e cls) := by
  unfold stopStore
  grind [Inv, inv_takeFault]

theorem inv_performEntry (h : Inv s) (p sel) : OInv (performEntry p sel s) := by
  unfold performEntry
  split
  · refine oinv_bind fun x _ => ?_
    split
    · split
      · exact oinv_none
      · split
        · split
          · next hy => exact oinv_some (inv_turnAll ((inv_writeEntry (inv_popStore h _) ..).inv _ hy) ..)
          · split
            · exact oinv_none
            · exact oinv_some (inv_stopStore h ..)
        · exact oinv_none
        · split
          · exact oinv_none
          · exact oinv_some (inv_stopStore h ..)
    · exact oinv_none
  · exact oinv_none

theorem inv_execStorePerform (h : Inv s) (p) : OutInv (execStorePerform p s) := by
  unfold execStorePerform
  grind [Inv, oinv_some, oinv_none, OInv.inv, outInv_next, outInv_fault, outInv_refused, inv_happens, oinv_some,
    oinv_none, OInv.inv, inv_performEntry]

theorem inv_execBankAluOperation (h : Inv s) (p) : OutInv (execBankAluOperation p s) := by
  unfold execBankAluOperation
  grind [Inv, oinv_some, oinv_none, OInv.inv, outInv_next, outInv_fault, outInv_refused, inv_happens, oinv_some,
    oinv_none, OInv.inv, inv_performEntry]

theorem inv_execTlbMissComplete (h : Inv s) (engine g va) : OutInv (execTlbMissComplete engine g va s) := by
  refine inv_happens h (oinv_bind fun x _ => ?_)
  split
  · exact oinv_none
  · exact oinv_some (inv_endMiss h _)

theorem inv_execPcSample (h : Inv s) (core) : OutInv (execPcSample core s) := by
  refine inv_happens h ?_
  dsimp only
  split
  · exact oinv_none
  · exact oinv_bind fun e _ => oinv_map fun gr _ => inv_traceBy (inv_draw (inv_draw h)) ..

theorem inv_execCoalescingTimerExpiry (h : Inv s) (fn vec) : OutInv (execCoalescingTimerExpiry fn vec s) := by
  refine inv_happens h (oinv_bind fun x _ => oinv_bind fun due _ => ?_)
  split
  · exact oinv_none
  split
  · refine oinv_some (inv_sendVec ?_ ..)
    exact h
  · exact oinv_some h

theorem inv_queueFault (h : Inv s) (q code) : Inv (queueFault s q code) := by
  unfold queueFault
  grind [Inv, inv_raiseQueue, State.modQueue_mem]

theorem inv_kjournal (h : Inv s) (q j) : Inv (kjournal s q j) := by
  unfold kjournal
  grind [Inv, State.modQueue_mem, inv_raiseQueue]

theorem inv_coreFault (h : Inv s) (q code) : Inv (coreFault s q code) := by
  unfold coreFault
  grind [Inv, inv_kjournal]

theorem inv_completeCommand (h : Inv s) (q j) : Inv (completeCommand s q j) := h

theorem inv_enterWindow (h : Inv s) (q csn v) : Inv (enterWindow s q csn v) := h

/-- What a queue's access comes to meets the invariant. -/
def QAcc.Inv : QAcc → Prop
  | .ok _ _ s | .fault _ s | .waits s => Machine.Inv s
  | .dead _ => True

/-- Both states that a signal's write may answer meet the invariant. -/
structure BInv (r : Sum State State) : Prop where
  inl : ∀ t, r = .inl t → Inv t
  inr : ∀ t, r = .inr t → Inv t

theorem binv_inl (h : Inv s) : BInv (.inl s) where
  inl _ ht := Sum.inl.inj ht ▸ h
  inr _ ht := absurd ht Sum.inl_ne_inr

theorem binv_inr (h : Inv s) : BInv (.inr s) where
  inl _ ht := absurd ht.symm Sum.inl_ne_inr
  inr _ ht := Sum.inr.inj ht ▸ h

theorem inv_startFillQ (h : Inv s) (part space base size va) : BInv (startFillQ s part space base size va) := by
  unfold startFillQ
  grind [Inv, binv_inl, binv_inr, inv_fresh]

theorem inv_qRange (h : Inv s) (part space acc va n) : (qRange s part space acc va n).Inv := by
  have hq := inv_startFillQ h part space
  unfold qRange
  grind [Inv, QAcc.Inv, BInv.inl, BInv.inr, inv_bindAll, inv_noteAlias]

theorem inv_sendPeer (h : Inv s) (segs) : Inv (sendPeer s segs) := h

theorem inv_addWord (h : Inv s) (key v) : Inv (addWord s key v) := by
  unfold addWord
  grind [Inv, inv_putMem]

theorem inv_signalRecord (h : Inv s) (x tier key) : OInv (signalRecord s x tier key) := by
  unfold signalRecord
  grind [Inv, oinv_some, oinv_none, OInv.inv, inv_irreversible, inv_undoWrite]

theorem inv_writeSignal (h : Inv s) (x) : BInv (writeSignal s x) := by
  have hq := inv_qRange h x.part x.space .rmw x.sig (if x.status.isSome then 16 else 8)
  unfold writeSignal
  grind [Inv, QAcc.Inv, binv_inl, binv_inr, OInv.inv, inv_health, inv_signalRecord, inv_sendPeer, inv_putMem,
    inv_sendClock,
    inv_addWord]

theorem inv_sendSignal (h : Inv s) (x) : Inv (sendSignal s x) := by
  unfold sendSignal
  split
  · exact (inv_writeSignal h x).inr _ ‹_›
  · next hy =>
    have hl := (inv_writeSignal h x).inl _ hy
    exact hl

theorem inv_settleSignals (h : Inv s) : Inv (settleSignals s) :=
  inv_foldl (s := { s with sigs := [] }) h (fun _ x h => inv_sendSignal h x) _

theorem inv_launchNode (h : Inv s) (t1 n) : Inv (launchNode s t1 n) := by
  unfold launchNode
  grind [Inv, inv_fresh]

theorem inv_settleTable (h : Inv s) (t1 unit ctx) : Inv (settleTable s t1 unit ctx) := by
  unfold settleTable
  grind [Inv, inv_sendSignal, inv_raiseQueue]

theorem inv_endNode (h : Inv s) (t1 n status unit ctx) : Inv (endNode s t1 n status unit ctx) := by
  unfold endNode
  split
  · exact h
  split
  · exact h
  refine inv_settleTable ?_ ..
  split
  · exact h
  · refine inv_foldl ?_ (fun s k h => ?_) _
    · exact h
    · dsimp only
      split
      · exact h
      split
      · exact h
      split
      · refine inv_launchNode ?_ ..
        exact h
      · exact h

theorem inv_performFifo (h : Inv s) (a) : Inv (performFifo s a) := by
  unfold performFifo
  grind [Inv, inv_sendSignal, inv_raiseQueue, inv_endNode]

theorem inv_enterFifo (h : Inv s) (e) : Inv (enterFifo s e) := by
  unfold enterFifo
  grind [Inv, inv_performFifo]

theorem inv_modQueue (h : Inv s) (q f) : Inv (s.modQueue q f) := by grind [Inv, State.modQueue_mem]

theorem inv_releaseFifo (h : Inv s) (q) : Inv (releaseFifo s q).2 := by
  unfold releaseFifo
  refine inv_foldl (inv_modQueue ?_ ..) (fun _ e h => inv_performFifo h e) _
  exact h

theorem inv_dropFrames (h : Inv s) (g store inst) : Inv (dropFrames s g store inst) := h

theorem inv_dropUnit (h : Inv s) (base) : Inv (dropUnit s base) := wf_scrubRange h _ _

theorem inv_scrubLog (h : Inv s) (u) : Inv (scrubLog s u) := wf_scrubRange (wf_scrubRange h _ _) _ _

theorem inv_dropCtx (h : Inv s) (c) : Inv (dropCtx s c) := by
  unfold dropCtx
  grind [Inv, inv_scrubLog]

theorem inv_noteGone (h : Inv s) (p) : Inv (noteGone s p) := by
  unfold noteGone
  grind [Inv, State.modCtx_mem]

theorem inv_dropGrid (h : Inv s) (g) : Inv (dropGrid s g) := by
  unfold dropGrid
  grind [Inv, inv_dropUnit, inv_dropParts, inv_dropCtx]

theorem inv_foldr {α : Type} {f : α → State → State} (h : Inv s) (hf : ∀ e s, Inv s → Inv (f e s)) (l : List α) :
    Inv (l.foldr f s) := by
  induction l with
  | nil => exact h
  | cons e l ih => exact hf e _ ih

theorem inv_releaseTree (h : Inv s) (g) : Inv (releaseTree s g) := inv_foldr h (fun n _ h => inv_dropGrid h n) _

theorem inv_signalParent (h : Inv s) (g gr) : Inv (signalParent s g gr) := by
  unfold signalParent
  grind [Inv, inv_sendSignal]

theorem inv_announce (h : Inv s) (g gr status) : OInv (announce s g gr status) := by
  unfold announce
  grind [Inv, oinv_some, oinv_none, OInv.inv, inv_enterFifo, inv_signalParent]

theorem inv_doneNow (h : Inv s) (g gr) : Inv (doneNow s g gr) := h

theorem inv_endGrid (h : Inv s) (g status) : OInv (endGrid s g status) := by
  unfold endGrid
  refine oinv_bind fun gr _ => (inv_announce (inv_traceBy h ..) ..).map fun s h => ?_
  have hd : Inv (if status = 0 then doneNow (noteGone s (.grid g)) g gr else noteGone s (.grid g)) := by
    split
    · exact inv_doneNow (inv_noteGone h _) ..
    · exact inv_noteGone h _
  dsimp only
  generalize (if status = 0 then doneNow _ g gr else _) = u at hd ⊢
  split
  · exact inv_modGrid hd ..
  · exact inv_dropGrid hd g

theorem inv_settleGrid (h : Inv s) (n g) : Inv (settleGrid n s g) := by
  induction n generalizing s g with
  | zero => exact h
  | succ n ih =>
    unfold settleGrid
    split
    · exact h
    split
    · exact h
    split
    · have he := (inv_endGrid h ..).inv _ ‹_›
      split
      · exact ih he _
      · exact he
    · exact inv_modGrid h ..

theorem inv_settleWaiting (h : Inv s) : Inv (settleWaiting s) := inv_foldl h (fun _ g h => inv_settleGrid h 10 g) _

theorem inv_endCluster (h : Inv s) (g k) : Inv (endCluster s g k) := by
  unfold endCluster
  grind [Inv, inv_noteGone, inv_trimRing, inv_dropFrames]

theorem inv_endBlock (h : Inv s) (g b) : Inv (endBlock s g b) := by
  unfold endBlock
  grind [Inv, inv_noteGone, inv_traceBy, inv_dropFrames, inv_dropParts, State.modGrid_mem, inv_endCluster,
    inv_trimRing]

theorem inv_settleBlock (h : Inv s) (g b) : Inv (settleBlock s g b) := by
  unfold settleBlock
  grind [Inv, inv_settleGrid, inv_endBlock]

theorem inv_settleAfter (h : Inv s) (g) : Inv (settleAfter s g) :=
  inv_settleGrid (inv_foldl (inv_foldl h (fun _ e h => inv_settleBlock h g e.1) _)
      (fun _ e h => inv_endCluster h g e.1) _) 10 g

theorem inv_dropTeam (h : Inv s) (g b t1) : Inv (dropTeam s g b t1) := by
  unfold dropTeam
  grind [Inv, inv_noteGone, State.modBlock_mem, inv_dropUnit]

theorem inv_notifyBlock (h : Inv s) (g b) : Inv (notifyBlock s g b) := by
  unfold notifyBlock
  grind [Inv, inv_fillLifts, inv_strandCheck, inv_barSettleAll, inv_settleBlock]

/-- What the return of a party's frames comes to meets the invariant. -/
def Returned.Inv : Returned → Prop
  | .all s | .waits s => Machine.Inv s
  | .stalled => True

theorem inv_returnFrames (h : Inv s) (p n) : (returnFrames p n s).Inv := by
  induction n generalizing s with
  | zero => exact h
  | succ n ih =>
    have hr := fun c h1 => inv_returnFrame (c := c) h h1
    unfold returnFrames
    split
    · split
      · exact ih (inv_modSeq h ..)
      · next c _ _ _ _ _ h1 _ =>
        have hr := hr c h1
        split
        · next hy => exact ih (inv_modSeq (by rw [hy] at hr; exact hr) ..)
        · next hy => rw [hy] at hr; exact hr
        · trivial
    · exact h

theorem inv_leaveTeam (h : Inv s) (p gr g b t1) {stop} (hstop : ∀ s f, Inv s → Inv (stop s f)) :
    OInv (leaveTeam s p gr g b t1 stop) := by
  have hp := inv_publishAll h p gr.ctx (s.engineOf p) g b (instOf b)
  have hr := inv_returnFrames hp p 17
  unfold leaveTeam
  dsimp only
  split
  · exact oinv_some (hstop _ _ hp)
  split
  · exact oinv_some (hstop _ _ hp)
  · next hy =>
    rw [hy] at hr
    split
    · exact oinv_none
    · exact oinv_some (inv_holdParty hr ..)
  · next hy =>
    rw [hy] at hr
    split
    · exact oinv_some (hstop _ _ hr)
    · next hy => exact oinv_some (inv_notifyBlock (inv_dropTeam ((inv_hashCheck hr ..).inv _ hy) ..) ..)

theorem inv_execTeamRetire (h : Inv s) (p) : OutInv (execTeamRetire p s) := by
  refine inv_happens h ?_
  split
  · next g b t gr _ =>
    refine oinv_bind fun x _ => ?_
    split
    · exact oinv_none
    have hstop : ∀ s (f : FInfo), Inv s → Inv (takeFault (s.modTeam g b t fun y => { y with exiting := false })
        (.team g b t)
        { f with slot := x.seq.alone.getD 0, scope := some .lane, kind := .alone (x.seq.alone.getD 0) }) :=
      fun s f h => inv_takeFault (inv_modTeam h ..) ..
    dsimp only
    split
    · exact (inv_deliverFlag h ..).map fun e he => hstop _ _ he
    split
    · exact oinv_none
    split
    · split
      · exact oinv_none
      · exact oinv_some (inv_holdParty h ..)
    · exact oinv_some (inv_takeFault (inv_modTeam h ..) ..)
    · exact oinv_some (inv_takeFault (inv_modTeam h ..) ..)
    · exact inv_leaveTeam h _ _ _ _ _ hstop
  · exact oinv_none

theorem inv_drainTeam (h : Inv s) (p n) : Inv (drainTeam p n s) := by
  induction n generalizing s with
  | zero => exact h
  | succ n ih =>
    unfold drainTeam
    split
    · split
      · split
        · split
          · next hy => exact ih (inv_popStore ((inv_writeEntry h ..).inv _ hy) _)
          · exact h
        · exact h
      · exact h
    · exact h

theorem inv_drainGrid (h : Inv s) (g) : Inv (drainGrid s g) := inv_foldl h (fun _ _ h => inv_drainTeam h ..) _

theorem inv_disposeAll (h : Inv s) (x serials n) : Inv (disposeAll x serials n s) := by
  induction n generalizing s with
  | zero => exact h
  | succ n ih =>
    have hm := inv_modCtx h x fun x => { x with undisposed := x.undisposed.filter fun n => decide (n ∉ serials) }
    unfold disposeAll
    dsimp only
    split
    · split
      · exact hm
      · exact ih (inv_writeHeld hm ..)
    · exact hm

theorem inv_stripGrid (h : Inv s) (g) : Inv (stripGrid s g) := by
  unfold stripGrid
  grind [Inv, inv_dropUnit, inv_dropParts]

theorem inv_dropGrids (h : Inv s) (ns : List Nat) : Inv (ns.foldr (fun n s => dropGrid s n) s) :=
  inv_foldr h (fun n _ h => inv_dropGrid h n) ns

theorem inv_abortTree (h : Inv s) (g) : Inv (abortTree s g) := by
  unfold abortTree
  dsimp only
  generalize Option.map _ (Option.orElse _ _) = home
  have hr := inv_restoreHome h home s.images
  generalize List.foldl _ s s.images = u at hr ⊢
  generalize treeOf u 10 g ++ fillersOf u g = ns
  have hd := inv_foldl hr (fun _ n h => inv_drainGrid h n) ns
  generalize List.foldl drainGrid u ns = v at hd ⊢
  generalize stopsIn v ns = stops
  cases home with
  | none =>
    dsimp only
    split
    · exact hd
    · split
      · refine inv_dropGrid (inv_dropGrids ?_ _) g
        exact hd
      · refine inv_settleGrid (inv_stripGrid (inv_dropGrids ?_ _) g) ..
        exact hd
  | some x =>
    dsimp only
    split
    · refine inv_disposeAll ?_ ..
      exact hd
    · split
      · refine inv_dropGrid (inv_dropGrids (inv_disposeAll ?_ ..) _) g
        exact hd
      · refine inv_settleGrid (inv_stripGrid (inv_dropGrids (inv_disposeAll ?_ ..) _) g) ..
        exact hd

/-! ### Launches, placement, saving and migration -/

/-- The judgement of a launch meets the invariant. -/
def Verdict.Inv : Verdict → Prop
  | .refused _ s | .waits s | .go _ _ _ _ s => Machine.Inv s
  | .dead _ => True

theorem inv_launchRead (h : Inv s) (pl va n) {k} (hk : ∀ bs d s, Inv s → (k bs d s).Inv) :
    (launchRead s pl va n k).Inv := by
  have hq := inv_qRange h pl.part pl.space .load va n
  unfold launchRead
  dsimp only
  split
  · next hy =>
    rw [hy] at hq
    split
    · exact hq
    · exact hk _ _ _ hq
  · next hy => rw [hy] at hq; exact hq
  · next hy => rw [hy] at hq; exact hq
  · trivial

/-- What the check of a launch's signal comes to meets the invariant. -/
def SigCheck.Inv : SigCheck → Prop
  | .good s | .waits s => Machine.Inv s
  | .bad _ => True

theorem inv_signalBad (h : Inv s) (pl) : (signalBad s pl).Inv := by
  have hq := inv_qRange h pl.part pl.space .rmw pl.sig 16
  unfold signalBad
  grind [QAcc.Inv, SigCheck.Inv]

theorem Verdict.Inv.ite {p : Prop} [Decidable p] {x y : Verdict} (hx : x.Inv) (hy : y.Inv) :
    (if p then x else y).Inv := by
  split
  · exact hx
  · exact hy

theorem inv_lastChecks (h : Inv s) (id pl p l new brks allstop) : (lastChecks s id pl p l new brks allstop).Inv := by
  have hs := inv_signalBad h pl
  unfold lastChecks
  generalize signalBad s pl = x at hs ⊢
  cases x with
  | bad k => exact h
  | waits u => exact hs
  | good u => exact .ite h (.ite h (.ite h (.ite h (.ite hs hs))))

theorem inv_judge (h : Inv s) (id pl) : (judge s id pl).Inv := by
  have hl {s : State} (h : Inv s) p l := inv_lastChecks h id pl p l
  unfold judge
  split
  · exact h
  · dsimp only
    split
    · split
      · exact h
      split
      · exact h
      split
      · exact hl h ..
      · refine inv_launchRead h _ _ _ fun cs d s h => ?_
        split
        · exact h
        · exact hl h ..
    · refine inv_launchRead h _ _ _ fun bs d s h => ?_
      split
      · exact h
      split
      · exact h
      split
      · exact hl h ..
      · refine inv_launchRead h _ _ _ fun cs d s h => ?_
        split
        · exact h
        · exact hl h ..

theorem inv_coldDies (h : Inv s) (part) : Inv (coldDies s part) := h

theorem inv_giveStatus (h : Inv s) (pl id status) : Inv (giveStatus s pl id status) := by
  unfold giveStatus
  grind [Inv, State.modTeam_mem, inv_completeCommand, inv_enterWindow, inv_endNode, inv_dropCtx]

theorem inv_acceptGrid (h : Inv s) (id pl l new brks allstop) : Inv (acceptGrid s id pl l new brks allstop) := by
  unfold acceptGrid
  grind [Inv, State.modCtx_mem, inv_dropUnit, inv_coldDies, inv_traceBy, inv_openWindow]

theorem inv_tellParent (h : Inv s) (id pl) : Inv (tellParent s id pl) := by
  unfold tellParent
  grind [Inv, State.bump_mem, State.receive_mem]

theorem inv_tryLaunch (h : Inv s) (id) : OInv (tryLaunch s id) := by
  unfold tryLaunch
  split
  · exact oinv_none
  · refine oinv_bind fun pl _ => ?_
    have hj := inv_judge h id pl
    split
    · next hy =>
      rw [hy] at hj
      split
      · exact oinv_some hj
      · exact oinv_none
    · exact oinv_none
    · next hy => rw [hy] at hj; exact oinv_some (inv_giveStatus hj ..)
    · next hy => rw [hy] at hj; exact oinv_some (inv_giveStatus (inv_tellParent (inv_acceptGrid hj ..) ..) ..)

theorem inv_execGridLaunchAccept (h : Inv s) (id) : OutInv (execGridLaunchAccept id s) := by
  unfold execGridLaunchAccept
  split
  · exact outInv_fault
  · exact inv_happens h (inv_tryLaunch h id)

theorem inv_coldCore (h : Inv s) (core) : Inv (coldCore s core) := h

theorem inv_placeOn (h : Inv s) (g gr core b) : Inv (placeOn s g gr core b) := by
  refine inv_foldl ?_ ?_ _
  · exact inv_dropUnit h _
  · intro s e h
    exact inv_dropUnit h _

theorem inv_placeNext (h : Inv s) (g core) : OInv (placeNext s g core) := by
  refine oinv_bind fun gr _ => ?_
  dsimp only
  split
  · exact oinv_none
  split
  · split
    · refine oinv_some (inv_modGrid (inv_foldl ?_ (fun _ n h => inv_placeOn h ..) _) ..)
      exact h
    · exact oinv_none
  split
  · exact oinv_some (inv_modGrid (inv_placeOn h ..) ..)
  · exact oinv_none

theorem inv_saveParts (h : Inv s) (g pick whole auto csm addr) : Inv (saveParts s g pick whole auto csm addr).2 := by
  unfold saveParts
  grind [Inv, inv_closeOpens, inv_fresh, inv_dropParts]

theorem inv_saveTree (h : Inv s) (g auto csm addr) : Inv (saveTree s g auto csm addr) := by
  unfold saveTree
  refine inv_foldl h ?_ _
  intro s e h
  grind [Inv, inv_saveParts]

theorem inv_execPreemption (h : Inv s) (g) : OutInv (execPreemption g s) := by
  refine inv_happens h (oinv_bind fun gr _ => ?_)
  split
  · exact oinv_some (inv_saveTree h ..)
  · exact oinv_none

theorem inv_copyCsm (h : Inv s) (img) : Inv (copyCsm s img) := by
  unfold copyCsm
  split
  · exact h
  split
  · exact h
  · refine inv_dropUnit ?_ _
    exact h

theorem inv_execCsmPartCopyComplete (h : Inv s) (img) : OutInv (execCsmPartCopyComplete img s) := by
  unfold execCsmPartCopyComplete
  refine inv_happens h (oinv_bind fun _ _ => ?_)
  grind [Inv, oinv_some, oinv_none, OInv.inv, inv_copyCsm]

theorem inv_rewriteEngine (h : Inv s) (ctx p) : Inv (rewriteEngine s ctx p) := by
  unfold rewriteEngine
  grind [Inv, State.modCtx_mem]

theorem inv_rewriteCopy (h : Inv s) (ctx c) : Inv (rewriteCopy s ctx c) := by
  unfold rewriteCopy
  grind [Inv, State.modCtx_mem]

theorem inv_registerResidues (h : Inv s) (img) : Inv (registerResidues s img) := by
  unfold registerResidues
  split
  · exact h
  · refine inv_foldl ?_ ?_ _
    · exact h
    · intro s e h
      exact inv_fresh h

theorem wf_putCells {m : Memory} (h : m.wf = true) (l : Memory) : (putCells m l).wf = true := wf_foldPut h l id

theorem inv_receive (h : Inv s) (unit stamp) : Inv (s.receive unit stamp) := by grind [Inv, State.receive_mem]

theorem inv_restoreGrid (h : Inv s) (img) : OInv (restoreGrid s img) := by
  refine oinv_bind fun i _ => oinv_bind fun gr _ => oinv_bind fun n _ => oinv_bind fun p _ => ?_
  split
  · exact oinv_none
  · refine oinv_some (inv_registerResidues (inv_rewriteEngine (inv_coldDies (inv_receive (inv_modGrid ?_ ..) ..) _)
      ..) _)
    exact wf_putCells h _

theorem inv_addCounts (h : Inv s) (g core l) : Inv (addCounts s g core l) := by
  unfold addCounts
  refine inv_foldl h ?_ _
  intro s e h
  grind [Inv, State.count_mem]

theorem inv_restoreBlock (h : Inv s) (img g b core) : Inv (restoreBlock s img g b core) := by
  have hr := inv_registerResidues h img
  unfold restoreBlock
  dsimp only
  split
  · split
    · exact hr
    · refine inv_receive (inv_foldl (inv_foldl (inv_addCounts ?_ ..) (fun _ p h => inv_rewriteEngine h _ p) _)
        (fun _ e h => inv_rewriteCopy h _ e.2) _) ..
      exact wf_putCells hr _
  · exact hr

theorem inv_restoreNext (h : Inv s) (img core) : OInv (restoreNext s img core) := by
  refine oinv_bind fun i _ => ?_
  split
  · exact oinv_none
  split
  · exact inv_restoreGrid h img
  · refine oinv_bind fun gr _ => ?_
    split
    · exact oinv_none
    split
    · split
      · dsimp only
        split
        · refine oinv_some (inv_foldl (inv_receive (inv_rewriteEngine (inv_coldDies ?_ _) ..) ..)
            (fun _ b h => inv_restoreBlock h ..) _)
          exact h
        · exact oinv_none
      · exact oinv_some h
    · split
      · dsimp only
        split
        · exact oinv_some (inv_restoreBlock h ..)
        · exact oinv_none
      · exact oinv_some h

theorem inv_afterRestore (h : Inv s) (img g) : Inv (afterRestore s img g) := by
  unfold afterRestore
  grind [Inv, inv_writeHeld, inv_settleGrid]

theorem inv_execSavedBlockRestore (h : Inv s) (img core) : OutInv (execSavedBlockRestore img core s) :=
  inv_happens h (oinv_bind fun i _ => (inv_restoreNext h img core).map fun _ h => inv_afterRestore h img i.gid)

theorem inv_execBlockPlacement (h : Inv s) (g core) : OutInv (execBlockPlacement g core s) := by
  refine inv_happens h ?_
  split
  · exact oinv_none
  · exact (inv_placeNext h g core).map fun s h => inv_modGrid h ..

theorem inv_execForwardProgressSave (h : Inv s) (g blk) : OutInv (execForwardProgressSave g blk s) := by
  refine inv_happens h (oinv_bind fun gr _ => ?_)
  dsimp only
  split
  · exact oinv_none
  split
  · split <;> split
    · exact oinv_some (inv_modGrid (inv_saveParts h ..) ..)
    · exact oinv_none
    · exact oinv_some (inv_modGrid (inv_saveParts h ..) ..)
    · exact oinv_none
  split
  · exact oinv_some (inv_saveTree h ..)
  · exact oinv_none

theorem inv_wakePage (h : Inv s) (part space base size failed) : Inv (wakePage s part space base size failed) := by
  unfold wakePage
  refine inv_foldl h ?_ _
  intro s e h
  grind [Inv, State.modSeq_mem]

theorem inv_ite {p : Prop} [Decidable p] (h : Inv s) (ht : Inv t) : Inv (if p then s else t) := by
  split
  · exact h
  · exact ht

theorem inv_setPresent (h : Inv s) (leaf : Option Nat) (good : Bool) : Inv (match leaf with
    | some k => if good then { s with mem := putByte s.mem k (byteAt s.mem k ||| 1) } else s
    | none => s) := by
  split
  · split
    · exact wf_putByte h _ _
    · exact h
  · exact h

theorem inv_execRegenFillComplete (h : Inv s) (id) : OutInv (execRegenFillComplete id s) := by
  refine inv_happens h (oinv_bind fun f _ => oinv_map fun good _ =>
    inv_wakePage (inv_ite (inv_abortTree (inv_ite ?_ ?_) _) (inv_ite ?_ ?_)) ..)
  all_goals exact inv_setPresent (s := { s with fills := mdel s.fills id }) h _ good

theorem inv_moveFrames (h : Inv s) (src dst n) : Inv (moveFrames s src dst n) :=
  wf_foldPut (wf_scrubRange (wf_scrubRange h _ _) _ _) _ fun a => a - src + dst

theorem inv_reaimAll (h : Inv s) (src dst n tier) : Inv (reaimAll s src dst n tier) := h

theorem inv_allocFrames (h : Inv s) (p tier size) : PInv (allocFrames s p tier size) := by
  unfold allocFrames
  grind [Inv, pinv_some, pinv_none, PInv.inv, inv_draw]

theorem inv_endMigr (h : Inv s) (id m status) : Inv (endMigr s id m status) := by
  unfold endMigr
  grind [Inv, inv_raise, inv_enterWindow, inv_completeCommand]

theorem inv_endAfter {p : Prop} [Decidable p] (h : Inv s) (id m status) :
    Inv (if p then endMigr s id m status else s) :=
  inv_ite (inv_endMigr h ..) h

theorem inv_execMigrationPage (h : Inv s) (id) : OutInv (execMigrationPage id s) := by
  refine inv_happens h (oinv_bind fun m _ => oinv_bind fun p _ => ?_)
  dsimp only
  split
  · split
    · split
      · refine oinv_map fun e he => ?_
        exact (inv_allocFrames h ..).inv e.1 e.2 he
      · exact oinv_some (inv_endMigr (inv_noteAlias h _) ..)
      · exact oinv_some (inv_endMigr h ..)
    · exact oinv_some (inv_endMigr h ..)
    · exact oinv_some (inv_endMigr h ..)
  · split
    · refine oinv_some (inv_endAfter (inv_wakePage ?_ ..) ..)
      refine wf_writeNat (inv_reaimAll (inv_moveFrames ?_ ..) ..) _ _ _
      split
      · exact inv_draw h
      · exact inv_healthPart (inv_draw h) ..
    · exact oinv_some (inv_endMigr h ..)

/-! ### Queue commands: what they share -/

theorem inv_withQueue (h : Inv s) {f} (hf : ∀ q x j, OutInv (f q x j)) : OutInv (withQueue s f) := by
  unfold withQueue
  grind [outInv_next, outInv_refused]

theorem inv_qWord (h : Inv s) (x acc va) {k} (hk : ∀ key t s, Inv s → (k key t s).Inv) :
    (qWord s x acc va k).Inv := by
  have hq := inv_qRange h x.part x.space acc va 8
  unfold qWord
  split
  · exact h
  · split
    · next hy =>
      rw [hy] at hq
      split
      · exact hq
      · split
        · exact hk _ _ _ hq
        · exact hq
    · next hy => rw [hy] at hq; exact hq
    · next hy => rw [hy] at hq; exact hq
    · trivial

theorem inv_finish {r : DispRes} (hr : r.Inv) (q post) : OutInv (finish q r post) := by
  cases r with
  | done v s => exact outInv_next (inv_completeCommand hr ..)
  | fault code s => exact outInv_next (inv_coreFault hr ..)
  | waits s => exact outInv_next hr
  | dead pa => exact outInv_fault

theorem inv_qSpan (h : Inv s) (part space acc f va n) : (qSpan part space acc f va n s).Inv := by
  induction f generalizing s va n with
  | zero => exact h
  | succ f ih =>
    unfold qSpan
    split
    · exact h
    · have hq := inv_qRange h part space acc va (min n (65536 - va.toNat % 65536))
      dsimp only
      generalize qRange _ _ _ _ _ _ = r at hq ⊢
      cases r with
      | ok segs t u =>
        have hr := ih (s := u) hq (va + BitVec.ofNat 64 (min n (65536 - va.toNat % 65536)))
            (n - min n (65536 - va.toNat % 65536))
        dsimp only
        generalize qSpan _ _ _ _ _ _ _ = r at hr ⊢
        cases r <;> exact hr
      | _ => exact hq

/-- What the reading of a timetable's nodes comes to meets the invariant. -/
def NodeRead.Inv : NodeRead → Prop
  | .nodes _ s | .refused _ s | .waits s => Machine.Inv s
  | .dead _ => True

theorem inv_readNodes (h : Inv s) (x n va l) : (readNodes x n va l s).Inv := by
  induction n generalizing s va l with
  | zero => exact h
  | succ n ih =>
    have hq := inv_qRange h x.part x.space .load va 64
    unfold readNodes
    generalize qRange _ _ _ _ _ _ = r at hq ⊢
    cases r with
    | ok segs t u =>
      dsimp only
      split
      · exact hq
      · exact ih hq _ _
    | _ => exact hq

/-! ### Queue commands and rewinding -/

theorem inv_simply (h : Inv s) (f) : OutInv (simply s f) := by
  unfold simply
  grind [Inv, outInv_next, outInv_fault, outInv_refused, inv_withQueue, inv_completeCommand]

theorem inv_dispatched (h : Inv s) {perf} (hp : ∀ q x j, (perf q x j).Inv) (post) :
    OutInv (dispatched s perf post) := by
  refine inv_withQueue h fun q x j => ?_
  have hp := hp q x j
  split
  · exact outInv_next (inv_completeCommand h ..)
  · generalize perf q x j = r at hp ⊢
    cases r with
    | done v u => exact outInv_next (inv_completeCommand (inv_enterWindow hp ..) ..)
    | fault code u => exact outInv_next (inv_queueFault (inv_enterWindow hp ..) ..)
    | waits u => exact outInv_next hp
    | dead pa => exact outInv_fault

theorem inv_execCmdNop (h : Inv s) : OutInv (execCmdNop s) := by
  unfold execCmdNop
  grind [Inv, outInv_next, outInv_fault, outInv_refused, inv_simply]

theorem inv_execLdi (h : Inv s) (a imm) : OutInv (execLdi a imm s) := by
  unfold execLdi
  grind [Inv, outInv_next, outInv_fault, outInv_refused, inv_simply]

theorem inv_execLdhi (h : Inv s) (a imm) : OutInv (execLdhi a imm s) := by
  unfold execLdhi
  grind [Inv, outInv_next, outInv_fault, outInv_refused, inv_simply]

theorem inv_execAdd (h : Inv s) (a b c) : OutInv (execAdd a b c s) := by
  unfold execAdd
  grind [Inv, outInv_next, outInv_fault, outInv_refused, inv_simply]

theorem inv_execAddi (h : Inv s) (a b imm) : OutInv (execAddi a b imm s) := by
  unfold execAddi
  grind [Inv, outInv_next, outInv_fault, outInv_refused, inv_simply]

theorem inv_execCmdLd (h : Inv s) (a b imm) : OutInv (execCmdLd a b imm s) := by
  unfold execCmdLd
  grind [Inv, outInv_next, outInv_fault, outInv_refused, DispRes.Inv, inv_withQueue, inv_finish, inv_qWord]

theorem inv_qStore (h : Inv s) (key v) : Inv (qStore s key v) := by
  unfold qStore
  grind [Inv, inv_sendPeer, inv_putMem]

theorem inv_doSt (h : Inv s) (x va v) : (doSt s x va v).Inv := by
  unfold doSt
  grind [Inv, DispRes.Inv, inv_qWord, inv_qStore]

theorem inv_execCmdSt (h : Inv s) (a b imm) : OutInv (execCmdSt a b imm s) := by
  unfold execCmdSt
  grind [Inv, outInv_next, outInv_fault, outInv_refused, DispRes.Inv, inv_dispatched, inv_doSt]

theorem inv_doSignal (h : Inv s) (x add va v) : (doSignal s x add va v).Inv := by
  unfold doSignal
  grind [Inv, DispRes.Inv, inv_qWord, inv_sendClock, inv_addWord, inv_qStore]

theorem inv_execSignalWrite (h : Inv s) (a b) : OutInv (execSignalWrite a b s) := by
  unfold execSignalWrite
  grind [Inv, outInv_next, outInv_fault, outInv_refused, DispRes.Inv, inv_dispatched, inv_doSignal]

theorem inv_execSignalAdd (h : Inv s) (a b) : OutInv (execSignalAdd a b s) := by
  unfold execSignalAdd
  grind [Inv, outInv_next, outInv_fault, outInv_refused, DispRes.Inv, inv_dispatched, inv_doSignal]

theorem inv_takeBranch (h : Inv s) (q j imm) : OutInv (takeBranch s q j imm) := by
  unfold takeBranch
  grind [Inv, outInv_next, outInv_fault, outInv_refused, inv_completeCommand, inv_coreFault]

theorem inv_execBr (h : Inv s) (a b c imm) : OutInv (execBr a b c imm s) := by
  unfold execBr
  grind [Inv, outInv_next, outInv_fault, outInv_refused, inv_withQueue, inv_takeBranch, inv_completeCommand]

theorem inv_execDloop (h : Inv s) (a imm) : OutInv (execDloop a imm s) := by
  unfold execDloop
  grind [Inv, outInv_next, outInv_fault, outInv_refused, inv_withQueue, inv_completeCommand, inv_takeBranch]

theorem inv_execCalli (h : Inv s) (a b) : OutInv (execCalli a b s) := by
  unfold execCalli
  grind [Inv, outInv_next, outInv_fault, outInv_refused, inv_withQueue, inv_completeCommand, inv_coreFault]

theorem inv_execReti (h : Inv s) : OutInv (execReti s) := by
  unfold execReti
  grind [Inv, outInv_next, outInv_fault, outInv_refused, inv_withQueue, inv_coreFault, inv_completeCommand]

theorem inv_readWaited (h : Inv s) (x va v cond) : (readWaited s x va v cond).Inv := by
  unfold readWaited
  grind [Inv, DispRes.Inv, inv_qWord, inv_hearSignal]

theorem inv_armWait (h : Inv s) (q j w) : Inv (armWait s q j w) := h

theorem inv_execWait (h : Inv s) (a b c) : OutInv (execWait a b c s) := by
  unfold execWait
  grind [Inv, outInv_next, outInv_fault, outInv_refused, DispRes.Inv, inv_withQueue, inv_readWaited,
    inv_completeCommand, inv_armWait, inv_coreFault]

theorem inv_execQueueWaitWake (h : Inv s) (q) : OutInv (execQueueWaitWake q s) := by
  unfold execQueueWaitWake
  refine inv_happens h (oinv_bind fun _ _ => oinv_bind fun _ _ => ?_)
  grind [Inv, oinv_some, oinv_none, OInv.inv, State.roll_mem, State.modQueue_mem]

theorem inv_execQueueWaitPeriodic (h : Inv s) (q) : OutInv (execQueueWaitPeriodic q s) := by
  unfold execQueueWaitPeriodic
  refine inv_happens h (oinv_bind fun _ _ => oinv_bind fun _ _ => ?_)
  grind [Inv, oinv_some, oinv_none, OInv.inv, State.roll_mem, State.modQueue_mem]

theorem inv_doCopy (h : Inv s) (x dst src n) : (doCopy s x dst src n).Inv := by
  unfold doCopy
  grind [Inv, QAcc.Inv, DispRes.Inv, inv_qSpan, inv_sendPeer, inv_putSegs]

theorem inv_execCmdCopy (h : Inv s) (a b c) : OutInv (execCmdCopy a b c s) := by
  unfold execCmdCopy
  grind [Inv, outInv_next, outInv_fault, outInv_refused, DispRes.Inv, inv_dispatched, inv_doCopy]

theorem inv_doMigrate (h : Inv s) (q x csn va n tier reg) : (doMigrate s q x csn va n tier reg).Inv := by
  unfold doMigrate
  grind [Inv, DispRes.Inv, inv_fresh]

theorem inv_execCmdMigrate (h : Inv s) (a b c tier) : OutInv (execCmdMigrate a b c tier s) := by
  unfold execCmdMigrate
  grind [Inv, outInv_next, outInv_fault, outInv_refused, DispRes.Inv, inv_dispatched, inv_doMigrate]

theorem inv_execCmdLaunch (h : Inv s) (i₁ i₂ i₃ i₄ prio) : OutInv (execCmdLaunch i₁ i₂ i₃ i₄ prio s) := by
  refine inv_withQueue h fun q x j => ?_
  split
  · exact outInv_next (inv_completeCommand h ..)
  · split
    · exact outInv_next h
    · refine outInv_next (OInv.getD (inv_tryLaunch ?_ _) ?_)
      · exact inv_fresh h
      · exact inv_fresh h

theorem inv_launchFirst (h : Inv s) (id) (first : List Nat) : Inv (first.foldl (fun s i => launchNode s id i) s) :=
  inv_foldl h (fun _ i h => inv_launchNode h id i) first

theorem inv_doLaunchg (h : Inv s) (q x csn va sig) : (doLaunchg s q x csn va sig).Inv := by
  have hq := inv_qRange h x.part x.space .load va 64
  unfold doLaunchg
  split
  · exact h
  · generalize qRange _ _ _ _ _ _ = r at hq ⊢
    cases r with
    | dead pa => trivial
    | fault k u => exact hq
    | waits u => exact hq
    | ok segs t u =>
      have hn := inv_readNodes (s := u) hq x (bytesNat (readSegs u.mem segs) % 2 ^ 11) (va + 64) []
      dsimp only
      split
      · exact hq
      split
      · exact hq
      generalize readNodes _ _ _ _ _ = r at hn ⊢
      cases r with
      | dead pa => trivial
      | refused k v => exact hn
      | waits v => exact hn
      | nodes raw v =>
        dsimp only
        split
        · exact hn
        · generalize hpl : PLaunch.mk _ _ _ _ _ _ _ _ _ _ _ _ _ _ _ = pl
          have hs := inv_signalBad (s := v) hn pl
          generalize signalBad v pl = r at hs ⊢
          cases r with
          | bad k => exact hn
          | waits w => exact hs
          | good w =>
            refine inv_launchFirst ?_ ..
            exact inv_fresh hs

theorem inv_execLaunchg (h : Inv s) (a b d) : OutInv (execLaunchg a b d s) := by
  unfold execLaunchg
  grind [Inv, outInv_next, outInv_fault, outInv_refused, DispRes.Inv, inv_dispatched, inv_doLaunchg]

theorem inv_putCommands (h : Inv s) (cmds : List (W64 × Nat)) (f : W64 × Nat → Nat) :
    Memory.wf (cmds.foldl (fun m e => writeNat m (f e) 8 e.1.toNat) s.mem) = true := by
  unfold Inv at h
  generalize s.mem = m at h ⊢
  induction cmds generalizing m with
  | nil => exact h
  | cons e l ih => exact ih _ (wf_writeNat h ..)

theorem inv_roll (h : Inv s) (q) : Inv (s.roll q) := by grind [Inv, State.roll_mem]

theorem inv_execPortalKick (h : Inv s) (q cmds) : OutInv (execPortalKick q cmds s) := by
  refine inv_happens h (oinv_bind fun x _ => ?_)
  split
  · exact oinv_none
  · dsimp only
    split
    · exact oinv_some (inv_modQueue h ..)
    · refine oinv_some (inv_roll (inv_modQueue ?_ ..) _)
      exact inv_putCommands h cmds.zipIdx _

theorem inv_execQueueStateResume (h : Inv s) (q) : OutInv (execQueueStateResume q s) := by
  unfold execQueueStateResume
  apply inv_happens h
  refine oinv_map fun _ _ => ?_
  grind [Inv, oinv_some, oinv_none, OInv.inv, outInv_next, outInv_fault, outInv_refused, inv_happens,
    State.modQueue_mem, State.roll_mem]

theorem inv_execQueueStateStop (h : Inv s) (q) : OutInv (execQueueStateStop q s) := by
  unfold execQueueStateStop
  apply inv_happens h
  refine oinv_map fun _ _ => ?_
  grind [Inv, oinv_some, oinv_none, OInv.inv, outInv_next, outInv_fault, outInv_refused, inv_happens,
    State.modQueue_mem, State.roll_mem]

theorem inv_execQueueStateReset (h : Inv s) (q) : OutInv (execQueueStateReset q s) := by
  refine inv_happens h (oinv_map fun x _ => ?_)
  dsimp only
  split
  · exact inv_roll (inv_foldl (inv_modQueue (inv_modQueue h ..) ..) (fun _ g h => inv_releaseTree h g) _) _
  · exact inv_roll h _

theorem inv_execPortalWriteDiscarded (h : Inv s) (q) : OutInv (execPortalWriteDiscarded q s) := by
  unfold execPortalWriteDiscarded
  apply inv_happens h
  refine oinv_map fun _ _ => ?_
  grind [Inv, oinv_some, oinv_none, OInv.inv, outInv_next, outInv_fault, outInv_refused, inv_happens,
    State.modQueue_mem]

theorem inv_takeRoll (h : Inv s) (n word) : Inv (takeRoll s n word).2 := h

/-- What the fetch of a command comes to meets the invariant. -/
def CmdFetch.Inv : CmdFetch → Prop
  | .waits s => Machine.Inv s
  | _ => True

theorem inv_fetchCommand (h : Inv s) (x j) : (fetchCommand s x j).Inv := by
  have hq := fun va => inv_qRange h x.part x.space .load va 8
  unfold fetchCommand
  split
  · dsimp only
    split <;> trivial
  · next b _ p _ =>
    have hq := hq (b + BitVec.ofNat 64 (8 * p.toNat))
    generalize qRange _ _ _ _ _ _ = r at hq ⊢
    cases r with
    | ok segs t u =>
      dsimp only
      split <;> trivial
    | waits u => exact hq
    | _ => trivial

theorem inv_modCtxGrids (h : Inv s) (c f) : Inv (modCtxGrids s c f) := h

theorem inv_disposeSaved (h : Inv s) (c n step) : OInv (disposeSaved s c n step) := by
  unfold disposeSaved
  refine oinv_bind fun _ _ => ?_
  grind [Inv, oinv_some, oinv_none, OInv.inv, inv_freeEntry]

theorem inv_undoOne (h : Inv s) (gr owner r) : OInv (undoOne s gr owner r) := by
  unfold undoOne
  dsimp only
  split
  · exact oinv_some h
  split
  · exact oinv_some (inv_putMem h ..)
  · refine oinv_bind fun p _ => ?_
    split
    · split
      · exact oinv_some (inv_sendPeer (inv_putMem h ..) _)
      · exact oinv_none
    · exact oinv_none
  · exact oinv_some h

theorem inv_undoAll (h : Inv s) (g gr u offs) : Inv (undoAll s g gr u offs).1 := by
  induction offs generalizing s with
  | nil => exact h
  | cons off offs ih =>
    unfold undoAll
    dsimp only
    split
    · exact ih ((inv_undoOne h ..).inv _ ‹_›)
    · exact ih h

theorem inv_reportErasers (h : Inv s) (c dies window bad) : Inv (reportErasers s c dies window bad) := by
  unfold reportErasers
  refine inv_foldl h ?_ _
  intro s e h
  grind [Inv, inv_health]

theorem inv_clearCtx (h : Inv s) (x keep) : Inv (clearCtx s x keep) := by
  unfold clearCtx
  refine inv_foldl (inv_foldl ?_ (fun _ g h => inv_dropParts h ..) _) (fun _ g h => inv_dropUnit h _) _
  exact h

theorem inv_reviveImage (h : Inv s) (signalled i) : Inv (reviveImage s signalled i) := by
  unfold reviveImage
  refine OInv.getD (inv_restoreGrid ?_ _) ?_
  · exact inv_fresh h
  · exact inv_fresh h

theorem inv_rewindStops (h : Inv s) (c gone kept) : Inv (rewindStops s c gone kept) := by
  unfold rewindStops
  grind [Inv, State.modCtx_mem, inv_disposeAll]

theorem inv_rewindTo (h : Inv s) (x g gr u ck) : Inv (rewindTo s x g gr u ck) := by
  unfold rewindTo
  dsimp only
  generalize hr : undoAll (closeOpens s x) g gr u _ = r
  have hu : Inv r.1 := hr ▸ inv_undoAll (inv_closeOpens h x) ..
  generalize hv : rewindStops _ _ _ _ = v
  have hv : Inv v := hv ▸ inv_rewindStops (inv_clearCtx hu ..) ..
  generalize hw : State.modCtx v _ _ = w
  have hw : Inv w := hw ▸ inv_modCtx hv ..
  refine inv_reportErasers (inv_foldl ?_ (fun _ i h => inv_reviveImage h _ i) _) ..
  exact hw

theorem inv_startReplay (h : Inv s) (c script spent till) : Inv (startReplay s c script spent till) := h

theorem inv_settleReverse (h : Inv s) : Inv (settleReverse s) := by
  unfold settleReverse
  refine inv_foldl h ?_ _
  intro s e h
  grind [Inv, inv_endReverse]

/-! ### Operations of ctrl and of the cores: what they share -/

/-- What an operation of ctrl comes to on any grid meets the invariant. -/
def CtlInv (f : CtlOp) : Prop := ∀ s q x j b g gr, Inv s → (f s q x j b g gr).Inv

theorem DispRes.Inv.ite {p : Prop} [Decidable p] {x y : DispRes} (hx : x.Inv) (hy : y.Inv) :
    (if p then x else y).Inv := by
  split
  · exact hx
  · exact hy

theorem inv_performCtl (h : Inv s) (arg) {f : CtlOp} (hf : CtlInv f) (r q x j) {absent}
    (ha : ∀ s b, Inv s → (absent s b : DispRes).Inv) : (performCtl arg f r s q x j absent).Inv := by
  have hq := inv_qRange h x.part x.space .load (j.reg r.toNat) 64
  unfold performCtl
  dsimp only
  split
  · exact h
  generalize qRange _ _ _ _ _ _ = y at hq ⊢
  cases y with
  | fault k u => exact hq
  | waits u => exact hq
  | dead pa => trivial
  | ok segs t u =>
    refine .ite hq (.ite hq (.ite h ?_))
    split
    · exact hq
    · refine .ite hq ?_
      split
      · exact ha _ _ hq
      · exact .ite hq (hf _ _ _ _ _ _ _ hq)

theorem inv_control (h : Inv s) (arg) {f : CtlOp} (hf : CtlInv f) (r d) : OutInv (control arg f r d s) := by
  refine inv_dispatched h (fun q x j => inv_performCtl h arg hf r q x j ?_) _
  intro s b h
  exact h

/-- What the reading of an image comes to meets the invariant. -/
def ImageRead.Inv : ImageRead → Prop
  | .image _ _ s | .none s | .waits s => Machine.Inv s
  | .dead _ => True

theorem inv_readImage (h : Inv s) (x va) : (readImage s x va).Inv := by
  have hq := inv_qRange h x.part x.space .load va 64
  unfold readImage
  generalize qRange _ _ _ _ _ _ = y at hq ⊢
  cases y with
  | fault k u => exact hq
  | waits u => exact hq
  | dead pa => trivial
  | ok segs t u =>
    dsimp only
    split
    · exact hq
    · generalize hf : nfield _ _ _ / 65536 + _ + 2 = n
      have hs := inv_qSpan (s := u) hq x.part x.space .load n va (nfield (bytesNat (readSegs u.mem segs)) 448 64)
      generalize qSpan _ _ _ _ _ _ _ = y at hs ⊢
      cases y with
      | ok segs t v =>
        dsimp only
        split <;> exact hs
      | fault k v => exact hs
      | waits v => exact hs
      | dead pa => trivial

/-- What an Xnov instruction comes to meets the invariant. -/
def XRes.Inv : XRes → Prop
  | .ok _ s | .trapIn _ _ s | .stall s => Machine.Inv s
  | .trap _ _ | .dead _ => True

theorem inv_withCpc (h : Inv s) {f} (hf : ∀ n x, OutInv (f n x)) : OutInv (withCpc s f) := by
  unfold withCpc
  grind [outInv_next, outInv_refused]

theorem inv_modCpc (h : Inv s) (n f) : Inv (s.modCpc n f) := by grind [Inv, State.modCpc_mem]

theorem inv_xnov (h : Inv s) (rs2 rs1 rd) {f} (hf : ∀ n x u v, (f n x u v).Inv) : OutInv (xnov rs2 rs1 rd s f) := by
  refine inv_withCpc h fun n x => ?_
  have hf := hf n x (x.get rs1.toNat) (x.get rs2.toNat)
  generalize f n x _ _ = r at hf ⊢
  cases r with
  | ok v u => exact outInv_next (inv_modCpc hf ..)
  | trap k v => exact outInv_next (inv_modCpc h ..)
  | trapIn k v u => exact outInv_next (inv_modCpc hf ..)
  | stall u => exact outInv_next hf
  | dead pa => exact outInv_fault

theorem inv_owned (n q) {f} (hf : ∀ q x, (f q x).Inv) : (owned s n q f).Inv := by
  unfold owned
  grind [XRes.Inv]

/-- On a queue that its core owns. -/
theorem inv_xnovOwned (h : Inv s) (rs2 rs1 rd) {f : Nat → Cpc → W64 → W64 → Nat → Queue → XRes}
    (hf : ∀ n x u v q y, (f n x u v q y).Inv) :
    OutInv (xnov rs2 rs1 rd s fun n x u v => owned s n u fun q y => f n x u v q y) :=
  inv_xnov h _ _ _ fun n x u v => inv_owned n u fun q y => hf n x u v q y

/-! ### Operations of ctrl and of the cores -/

theorem inv_inPhase (h : Inv s) (q j n) : (inPhase s q j n).Inv := h

theorem inv_showBytes (h : Inv s) (fn conf bs) : Inv (showBytes s fn conf bs).2 := by
  unfold showBytes
  grind [Inv, inv_draw]

theorem inv_qPlace (h : Inv s) (x va n) : (qPlace s x va n).Inv := by
  unfold qPlace
  grind [Inv, QAcc.Inv, inv_qSpan]

theorem inv_giveBytes (h : Inv s) (x conf segs bs) : Inv (giveBytes s x conf segs bs) := by
  unfold giveBytes
  grind [Inv, inv_showBytes, inv_sendPeer, inv_putSegs]

theorem inv_savedBy (h : Inv s) (x j b g gr) : Inv (savedBy s x j b g gr) := by
  unfold savedBy
  grind [Inv, inv_saveTree]

theorem inv_ctlPreempt (h : Inv s) (q x j b g gr) : (ctlPreempt s q x j b g gr).Inv := by
  unfold ctlPreempt
  grind [Inv, DispRes.Inv, QAcc.Inv, inv_qPlace, inv_giveBytes, inv_savedBy, inv_inPhase]

theorem inv_ctlPreemptDone (h : Inv s) (x b) : (ctlPreemptDone s x b).Inv := by
  unfold ctlPreemptDone
  grind [Inv, DispRes.Inv, QAcc.Inv, inv_qPlace, inv_giveBytes]

theorem inv_restoreFrom (h : Inv s) (q j id) : (restoreFrom s q j id).Inv := by
  unfold restoreFrom
  grind [Inv, DispRes.Inv, oinv_some, oinv_none, OInv.inv, inv_restoreGrid, inv_inPhase]

theorem inv_ctlRestoreImage (h : Inv s) (q x j b g gr) : (ctlRestoreImage s q x j b g gr).Inv := by
  unfold ctlRestoreImage
  grind [Inv, DispRes.Inv, ImageRead.Inv, inv_restoreFrom, inv_readImage]

theorem inv_ctlRestoreForeign (h : Inv s) (q x j b) : (ctlRestoreForeign s q x j b).Inv := by
  unfold ctlRestoreForeign
  grind [Inv, DispRes.Inv, ImageRead.Inv, inv_readImage, inv_fresh, inv_restoreFrom]

theorem inv_ctlDispose (h : Inv s) (step) (q x j b g gr) : (ctlDispose step s q x j b g gr).Inv := by
  unfold ctlDispose
  dsimp only
  split
  · next u hu =>
    obtain ⟨g, -, hu⟩ := List.exists_of_findSome?_eq_some hu
    obtain ⟨v, hv, rfl⟩ := Option.map_eq_some_iff.mp hu
    have hv := (inv_disposeStop h ..).inv _ hv
    exact inv_ite hv (inv_settleAfter hv g)
  · split
    · exact (inv_disposeSaved h ..).inv _ ‹_›
    · exact h

theorem inv_ctlAbort (h : Inv s) (q x j b g gr) : (ctlAbort s q x j b g gr).Inv := by
  unfold ctlAbort
  grind [Inv, DispRes.Inv, inv_abortTree]

theorem inv_ctlFreeze (h : Inv s) (b) (q x j k g gr) : (ctlFreeze b s q x j k g gr).Inv := h

theorem inv_ctlSetBreakpoint (h : Inv s) (q x j b g gr) : (ctlSetBreakpoint s q x j b g gr).Inv := by
  unfold ctlSetBreakpoint
  grind [Inv, DispRes.Inv, inv_modCtxGrids]

theorem inv_ctlInvalidateTlb (h : Inv s) (q x j b g gr) : (ctlInvalidateTlb s q x j b g gr).Inv := h

theorem inv_ctlTrimLog (h : Inv s) (q x j b g gr) : (ctlTrimLog s q x j b g gr).Inv := by
  unfold ctlTrimLog
  grind [Inv, DispRes.Inv, State.modCtx_mem]

theorem inv_ctlRewind (h : Inv s) (q x j b g gr) : (ctlRewind s q x j b g gr).Inv := by
  unfold ctlRewind
  grind [Inv, DispRes.Inv, inv_rewindTo, inv_inPhase, inv_startReplay]

theorem inv_ctlReplay (h : Inv s) (till change) (q x j b g gr) : (ctlReplay till change s q x j b g gr).Inv := by
  unfold ctlReplay
  grind [Inv, DispRes.Inv, inv_inPhase, inv_startReplay]

theorem inv_ctlReverseStep (h : Inv s) (q x j b g gr) : (ctlReverseStep s q x j b g gr).Inv := by
  unfold ctlReverseStep
  grind [Inv, DispRes.Inv, inv_inPhase, inv_rewindTo, inv_startReplay]

theorem inv_ctlHostMarker (h : Inv s) (q x j b g gr) : (ctlHostMarker s q x j b g gr).Inv := by
  unfold ctlHostMarker
  grind [Inv, DispRes.Inv, State.modGrid_mem, inv_openWindow]

theorem inv_ctlReleaseRetained (h : Inv s) (q x j b g gr) : (ctlReleaseRetained s q x j b g gr).Inv := by
  unfold ctlReleaseRetained
  grind [Inv, DispRes.Inv, inv_releaseTree]

theorem inv_debugBytes (h : Inv s) (g gr b at_ n) : Inv (debugBytes s g gr b at_ n).2 := h

theorem inv_ctlDebugRead (h : Inv s) (q x j b g gr) : (ctlDebugRead s q x j b g gr).Inv := by
  unfold ctlDebugRead
  grind [Inv, DispRes.Inv, QAcc.Inv, inv_qPlace, inv_debugBytes, inv_giveBytes]

theorem inv_execCtrlPreempt (h : Inv s) (r d) : OutInv (execCtrlPreempt r d s) := by
  refine inv_dispatched h (fun q x j => inv_performCtl h none ?_ r q x j ?_) _
  · intro s q x j b g gr h
    exact inv_ctlPreempt h ..
  · intro s b h
    exact inv_ctlPreemptDone h ..

theorem inv_execCtrlDisposeResume (h : Inv s) (r d) : OutInv (execCtrlDisposeResume r d s) :=
  inv_control h _ (fun _ q x j b g gr h => inv_ctlDispose h false q x j b g gr) _ _

theorem inv_execCtrlDisposeStep (h : Inv s) (r d) : OutInv (execCtrlDisposeStep r d s) :=
  inv_control h _ (fun _ q x j b g gr h => inv_ctlDispose h true q x j b g gr) _ _

theorem inv_execCtrlDisposeAbort (h : Inv s) (a d) : OutInv (execCtrlDisposeAbort a d s) := by
  unfold execCtrlDisposeAbort
  refine inv_control h _ ?_ _ _
  intro s q x j b g gr h
  grind [Inv, outInv_next, outInv_fault, outInv_refused, inv_control, inv_ctlAbort]

theorem inv_execCtrlFreeze (h : Inv s) (a d) : OutInv (execCtrlFreeze a d s) := by
  unfold execCtrlFreeze
  refine inv_control h _ ?_ _ _
  intro s q x j b g gr h
  grind [Inv, outInv_next, outInv_fault, outInv_refused, inv_control, inv_ctlFreeze]

theorem inv_execCtrlThaw (h : Inv s) (a d) : OutInv (execCtrlThaw a d s) := by
  unfold execCtrlThaw
  refine inv_control h _ ?_ _ _
  intro s q x j b g gr h
  grind [Inv, outInv_next, outInv_fault, outInv_refused, inv_control, inv_ctlFreeze]

theorem inv_execCtrlSetBreakpoint (h : Inv s) (a d) : OutInv (execCtrlSetBreakpoint a d s) := by
  unfold execCtrlSetBreakpoint
  refine inv_control h _ ?_ _ _
  intro s q x j b g gr h
  grind [Inv, outInv_next, outInv_fault, outInv_refused, inv_control, inv_ctlSetBreakpoint]

theorem inv_execCtrlRestoreImage (h : Inv s) (r d) : OutInv (execCtrlRestoreImage r d s) := by
  refine inv_dispatched h (fun q x j => inv_performCtl h none ?_ r q x j ?_) _
  · intro s q x j b g gr h
    exact inv_ctlRestoreImage h ..
  · intro s b h
    exact inv_ctlRestoreForeign h ..

theorem inv_execCtrlInvalidateTlb (h : Inv s) (a d) : OutInv (execCtrlInvalidateTlb a d s) := by
  unfold execCtrlInvalidateTlb
  refine inv_control h _ ?_ _ _
  intro s q x j b g gr h
  grind [Inv, outInv_next, outInv_fault, outInv_refused, inv_control, inv_ctlInvalidateTlb]

theorem inv_execCtrlTrimLog (h : Inv s) (a d) : OutInv (execCtrlTrimLog a d s) := by
  unfold execCtrlTrimLog
  refine inv_control h _ ?_ _ _
  intro s q x j b g gr h
  grind [Inv, outInv_next, outInv_fault, outInv_refused, inv_control, inv_ctlTrimLog]

theorem inv_execCtrlRewind (h : Inv s) (a d) : OutInv (execCtrlRewind a d s) := by
  unfold execCtrlRewind
  refine inv_control h _ ?_ _ _
  intro s q x j b g gr h
  grind [Inv, outInv_next, outInv_fault, outInv_refused, inv_control, inv_ctlRewind]

theorem inv_execCtrlReplay (h : Inv s) (a d) : OutInv (execCtrlReplay a d s) := by
  unfold execCtrlReplay
  refine inv_control h _ ?_ _ _
  intro s q x j b g gr h
  grind [Inv, outInv_next, outInv_fault, outInv_refused, inv_control, inv_ctlReplay]

theorem inv_execCtrlReplayToWindow (h : Inv s) (a d) : OutInv (execCtrlReplayToWindow a d s) := by
  unfold execCtrlReplayToWindow
  refine inv_control h _ ?_ _ _
  intro s q x j b g gr h
  grind [Inv, outInv_next, outInv_fault, outInv_refused, inv_control, inv_ctlReplay]

theorem inv_execCtrlReplayPerturb (h : Inv s) (a d) : OutInv (execCtrlReplayPerturb a d s) := by
  unfold execCtrlReplayPerturb
  refine inv_control h _ ?_ _ _
  intro s q x j b g gr h
  grind [Inv, outInv_next, outInv_fault, outInv_refused, inv_control, inv_ctlReplay]

theorem inv_execCtrlDebugRead (h : Inv s) (a d) : OutInv (execCtrlDebugRead a d s) := by
  unfold execCtrlDebugRead
  refine inv_control h _ ?_ _ _
  intro s q x j b g gr h
  grind [Inv, outInv_next, outInv_fault, outInv_refused, inv_control, inv_ctlDebugRead]

theorem inv_execCtrlReleaseRetained (h : Inv s) (a d) : OutInv (execCtrlReleaseRetained a d s) := by
  unfold execCtrlReleaseRetained
  refine inv_control h _ ?_ _ _
  intro s q x j b g gr h
  grind [Inv, outInv_next, outInv_fault, outInv_refused, inv_control, inv_ctlReleaseRetained]

theorem inv_execCtrlHostMarker (h : Inv s) (a d) : OutInv (execCtrlHostMarker a d s) := by
  unfold execCtrlHostMarker
  refine inv_control h _ ?_ _ _
  intro s q x j b g gr h
  grind [Inv, outInv_next, outInv_fault, outInv_refused, inv_control, inv_ctlHostMarker]

theorem inv_execCtrlReverseStep (h : Inv s) (a d) : OutInv (execCtrlReverseStep a d s) := by
  unfold execCtrlReverseStep
  refine inv_control h _ ?_ _ _
  intro s q x j b g gr h
  grind [Inv, outInv_next, outInv_fault, outInv_refused, inv_control, inv_ctlReverseStep]

theorem inv_cpcDone (h : Inv s) (n x r) : OutInv (cpcDone s n x r) := by
  unfold cpcDone
  grind [Inv, outInv_next, outInv_fault, outInv_refused]

theorem inv_execCpcCoreInstruction (h : Inv s) (w) : OutInv (execCpcCoreInstruction w s) := by
  unfold execCpcCoreInstruction
  grind [Inv, outInv_next, outInv_fault, outInv_refused, inv_withCpc, inv_cpcDone]

theorem inv_deviceError (h : Inv s) (code) : Inv (deviceError s code) := by
  unfold deviceError
  grind [Inv, State.modReg_mem, inv_raiseAll, inv_health]

theorem inv_execKfetch (h : Inv s) (rs2 rs1 rd) : OutInv (execKfetch rs2 rs1 rd s) := by
  unfold execKfetch
  grind [Inv, XRes.Inv, CmdFetch.Inv, outInv_next, outInv_fault, outInv_refused, inv_xnov, inv_owned,
    inv_fetchCommand, inv_feedMonitors, inv_queueFault]

theorem inv_execKbfx (h : Inv s) (rs2 rs1 rd) : OutInv (execKbfx rs2 rs1 rd s) := by
  unfold execKbfx
  grind [Inv, XRes.Inv, outInv_next, outInv_fault, outInv_refused, inv_xnov]

theorem inv_execKwait (h : Inv s) (rs2 rs1 rd) : OutInv (execKwait rs2 rs1 rd s) := by
  unfold execKwait
  grind [Inv, XRes.Inv, outInv_next, outInv_fault, outInv_refused, DispRes.Inv, inv_xnov, inv_owned, inv_readWaited,
    State.modQueue_mem, inv_draw]

theorem inv_doLaunch (h : Inv s) (q x csn ka kb kc prio) : (doLaunch s q x csn ka kb kc prio).Inv := by
  unfold doLaunch
  grind [Inv, DispRes.Inv, Verdict.Inv, inv_fresh, inv_judge, inv_acceptGrid]

/-- What the fetch of a core comes to meets the invariant. -/
def CpcFetch.Inv : CpcFetch → Prop
  | .fault s => Machine.Inv s
  | _ => True

theorem inv_cpcFetch (h : Inv s) {n r} (hr : cpcFetch s n = some r) : r.Inv := by
  obtain ⟨x, -, rfl⟩ := Option.map_eq_some_iff.mp hr
  dsimp only
  generalize (if readNat x.imem x.pc.toNat 2 % 4 = 3 then 4 else 2) = len
  split
  · exact h
  · split
    · split <;> trivial
    · trivial

theorem inv_dispatchFn {i ka kb kc f} (hf : dispatchFn i ka kb kc = some f) (h : Inv s) (q x j) :
    (f s q x j).Inv := by
  have hp {f : CtlOp} (hf : CtlInv f) (arg) (h : Inv s) (r q x j) : (performCtl arg f r s q x j).Inv :=
    inv_performCtl h arg hf r q x j (by intro s b h; exact h)
  unfold dispatchFn at hf
  split at hf
  case h_26 => exact absurd hf.symm (Option.some_ne_none _)
  all_goals obtain rfl := Option.some.inj hf
  · exact inv_doSt h ..
  · exact inv_doSignal h ..
  · exact inv_doSignal h ..
  · exact inv_doCopy h ..
  · exact inv_doMigrate h ..
  · exact inv_doLaunch h ..
  · exact inv_doLaunchg h ..
  · exact inv_performCtl h _ (fun _ _ _ _ _ _ _ h => inv_ctlPreempt h ..) _ _ _ _ fun _ _ h => inv_ctlPreemptDone h ..
  · exact hp (fun _ _ _ _ _ _ _ h => inv_ctlDispose h ..) _ h ..
  · exact hp (fun _ _ _ _ _ _ _ h => inv_ctlDispose h ..) _ h ..
  · exact hp (fun _ _ _ _ _ _ _ h => inv_ctlAbort h ..) _ h ..
  · exact hp (fun _ _ _ _ _ _ _ h => inv_ctlFreeze h ..) _ h ..
  · exact hp (fun _ _ _ _ _ _ _ h => inv_ctlFreeze h ..) _ h ..
  · exact hp (fun _ _ _ _ _ _ _ h => inv_ctlSetBreakpoint h ..) _ h ..
  · exact inv_performCtl h _ (fun _ _ _ _ _ _ _ h => inv_ctlRestoreImage h ..) _ _ _ _ fun _ _ h
      => inv_ctlRestoreForeign h ..
  · exact hp (fun _ _ _ _ _ _ _ h => inv_ctlInvalidateTlb h ..) _ h ..
  · exact hp (fun _ _ _ _ _ _ _ h => inv_ctlTrimLog h ..) _ h ..
  · exact hp (fun _ _ _ _ _ _ _ h => inv_ctlRewind h ..) _ h ..
  · exact hp (fun _ _ _ _ _ _ _ h => inv_ctlReplay h ..) _ h ..
  · exact hp (fun _ _ _ _ _ _ _ h => inv_ctlReplay h ..) _ h ..
  · exact hp (fun _ _ _ _ _ _ _ h => inv_ctlReplay h ..) _ h ..
  · exact hp (fun _ _ _ _ _ _ _ h => inv_ctlDebugRead h ..) _ h ..
  · exact hp (fun _ _ _ _ _ _ _ h => inv_ctlReleaseRetained h ..) _ h ..
  · exact hp (fun _ _ _ _ _ _ _ h => inv_ctlHostMarker h ..) _ h ..
  · exact hp (fun _ _ _ _ _ _ _ h => inv_ctlReverseStep h ..) _ h ..

theorem XRes.Inv.ite {p : Prop} [Decidable p] {x y : XRes} (hx : x.Inv) (hy : y.Inv) : (if p then x else y).Inv := by
  split
  · exact hx
  · exact hy

theorem inv_execKdisp (h : Inv s) (rs2 rs1 rd) : OutInv (execKdisp rs2 rs1 rd s) := by
  refine inv_xnovOwned h _ _ _ fun n x u v q y => ?_
  split
  · next csn w ka kb kc _ =>
    have hrefuse {s : State} (h : Inv s) (code : Nat) (p) :
        (XRes.ok (BitVec.ofNat 64 (2 ^ 63 + code)) (queueFault (enterWindow s q csn p) q code)).Inv :=
      inv_queueFault (inv_enterWindow h ..) ..
    refine .ite trivial ?_
    dsimp only
    split
    · exact h
    · refine .ite trivial ?_
      split
      · exact .ite (hrefuse h ..) trivial
      · next f hf =>
        obtain ⟨i, -, hf⟩ := Option.bind_eq_some_iff.mp hf
        have hr := inv_dispatchFn hf h q y { y.img with csn := csn }
        generalize f s q y _ = r at hr ⊢
        cases r with
        | done v u => exact inv_enterWindow hr ..
        | fault code u => exact hrefuse hr ..
        | waits u => exact hr
        | dead pa => trivial
  · trivial

theorem inv_execKjrnl (h : Inv s) (rs2 rs1) : OutInv (execKjrnl rs2 rs1 s) := by
  unfold execKjrnl
  grind [Inv, XRes.Inv, outInv_next, outInv_fault, outInv_refused, inv_xnov, inv_owned, inv_kjournal]

theorem inv_lostEntry (h : Inv s) (n q) : (lostEntry s n q).Inv := by
  unfold lostEntry
  grind [Inv, XRes.Inv, inv_deviceError]

theorem inv_execKjrnlR (h : Inv s) (rs2 rs1 rd) : OutInv (execKjrnlR rs2 rs1 rd s) := by
  unfold execKjrnlR
  grind [Inv, XRes.Inv, outInv_next, outInv_fault, outInv_refused, inv_xnov, inv_owned, inv_lostEntry,
    State.modCpc_mem]

theorem inv_execKhold (h : Inv s) (rs2 rs1 rd) : OutInv (execKhold rs2 rs1 rd s) := by
  unfold execKhold
  grind [Inv, XRes.Inv, outInv_next, outInv_fault, outInv_refused, inv_xnov, inv_owned, State.modQueue_mem]

theorem inv_execKrel (h : Inv s) (rs2 rs1 rd) : OutInv (execKrel rs2 rs1 rd s) := by
  unfold execKrel
  grind [Inv, XRes.Inv, outInv_next, outInv_fault, outInv_refused, inv_xnov, inv_owned, inv_releaseFifo,
    inv_settleWaiting]

theorem inv_execKroll (h : Inv s) (rs2 rs1 rd) : OutInv (execKroll rs2 rs1 rd s) := by
  unfold execKroll
  grind [Inv, XRes.Inv, outInv_next, outInv_fault, outInv_refused, inv_xnov, inv_takeRoll]

/-! ### Management, bring-up and attestation -/

theorem inv_answer (h : Inv s) (k data) : Inv (State.answer s k data) := h

theorem inv_modReg (h : Inv s) (f) : Inv (s.modReg f) := by grind [Inv, State.modReg_mem]

theorem inv_request (h : Inv s) {f} (hf : ∀ s, Inv s → Inv (f s)) : OutInv (request s f) :=
  outInv_next (inv_ite (hf s h) (inv_answer h ..))

theorem inv_modQueues (h : Inv s) (qs : List Nat) (f) : Inv (qs.foldl (fun s q => s.modQueue q f) s) :=
  inv_foldl h (fun _ q h => inv_modQueue h q f) qs

theorem inv_execCpcImemUncorrectable (h : Inv s) (core) : OutInv (execCpcImemUncorrectable core s) := by
  refine inv_happens h (oinv_bind fun x _ => ?_)
  dsimp only
  split
  · exact oinv_none
  split
  · exact oinv_some (inv_deviceError (inv_modCpc h ..) _)
  split
  · exact oinv_some (inv_deviceError (inv_modQueues (inv_modCpc h ..) ..) _)
  · exact oinv_some (inv_modCpc (inv_draw (inv_modQueues (inv_modQueues (inv_modCpc h ..) ..) ..)) ..)

theorem inv_execEccInjection (h : Inv s) (core addr) : OutInv (execEccInjection core addr s) := by
  unfold execEccInjection
  grind [Inv, oinv_some, oinv_none, OInv.inv, outInv_next, outInv_fault, outInv_refused, inv_happens,
    State.modCpc_mem]

theorem inv_execPartitionCreate (h : Inv s) (p rec) : OutInv (execPartitionCreate p rec s) := by
  unfold execPartitionCreate
  grind [Inv, outInv_next, outInv_fault, outInv_refused, inv_request, inv_answer]

theorem inv_execPartitionChange (h : Inv s) (p rec) : OutInv (execPartitionChange p rec s) := by
  unfold execPartitionChange
  grind [Inv, outInv_next, outInv_fault, outInv_refused, inv_request, inv_answer]

theorem inv_abortPart (h : Inv s) (p) : Inv (abortPart s p) := by
  unfold abortPart
  refine inv_foldl h ?_ _
  intro s e h
  grind [Inv, inv_abortTree]

theorem inv_removePart (h : Inv s) (p) : Inv (removePart s p) := h

theorem inv_execQueueCreate (h : Inv s) (q fn part space m core vec ring) :
    OutInv (execQueueCreate q fn part space m core vec ring s) := by
  unfold execQueueCreate
  grind [Inv, outInv_next, outInv_fault, outInv_refused, inv_request, inv_answer]

theorem inv_execQueueExport (h : Inv s) (q) : OutInv (execQueueExport q s) := by
  unfold execQueueExport
  grind [Inv, outInv_next, outInv_fault, outInv_refused, inv_request, inv_answer, State.modQueue_mem,
    State.modReg_mem]

theorem inv_execQueueImport (h : Inv s) (q part img) : OutInv (execQueueImport q part img s) := by
  unfold execQueueImport
  grind [Inv, outInv_next, outInv_fault, outInv_refused, inv_request, inv_answer, State.modQueue_mem]

theorem inv_execRegenerationTableWrite (h : Inv s) (p e ent) : OutInv (execRegenerationTableWrite p e ent s) := by
  unfold execRegenerationTableWrite
  grind [Inv, outInv_next, outInv_fault, outInv_refused, inv_request, inv_answer]

theorem inv_execMessageEndpointBind (h : Inv s) (p e inbound dev part q csn) :
    OutInv (execMessageEndpointBind p e inbound dev part q csn s) := by
  unfold execMessageEndpointBind
  grind [Inv, outInv_next, outInv_fault, outInv_refused, inv_request, inv_answer]

theorem inv_execImportTableWrite (h : Inv s) (p e dev part first last key) :
    OutInv (execImportTableWrite p e dev part first last key s) := by
  unfold execImportTableWrite
  grind [Inv, outInv_next, outInv_fault, outInv_refused, inv_request, inv_answer]

theorem inv_execDeviceNumberAssign (h : Inv s) (n) : OutInv (execDeviceNumberAssign n s) := by
  unfold execDeviceNumberAssign
  grind [Inv, outInv_next, outInv_fault, outInv_refused, inv_request, inv_answer, State.modReg_mem]

theorem inv_execDeadlockTimeoutSet (h : Inv s) (us) : OutInv (execDeadlockTimeoutSet us s) := by
  unfold execDeadlockTimeoutSet
  grind [Inv, outInv_next, outInv_fault, outInv_refused, inv_request, inv_answer, State.modReg_mem]

theorem inv_execTenantKeyLoad (h : Inv s) (p key wrapped) : OutInv (execTenantKeyLoad p key wrapped s) := by
  unfold execTenantKeyLoad
  grind [Inv, outInv_next, outInv_fault, outInv_refused, inv_request, inv_answer]

theorem inv_execClusterLend (h : Inv s) (cl) : OutInv (execClusterLend cl s) := by
  refine inv_happens h (oinv_bind fun x _ => ?_)
  dsimp only
  split
  · exact oinv_none
  · refine oinv_map fun e _ => inv_raise (inv_raise ?_ ..) ..
    exact h

theorem inv_revoke (h : Inv s) (cl l) : Inv (revoke s cl l) := by
  refine inv_foldl ?_ (fun _ g h => inv_saveParts h ..) _
  exact h

theorem inv_recallLent (h : Inv s) (p) : Inv (recallLent s p) := inv_foldl h (fun _ k h => inv_revoke h k p) _

theorem inv_execPartitionDestroy (h : Inv s) (p) : OutInv (execPartitionDestroy p s) := by
  unfold execPartitionDestroy
  grind [Inv, outInv_next, outInv_fault, outInv_refused, inv_request, inv_answer, inv_removePart, inv_abortPart,
    inv_recallLent]

theorem inv_execClusterRevoke (h : Inv s) (cl) : OutInv (execClusterRevoke cl s) := by
  refine inv_happens h (oinv_bind fun x _ => ?_)
  dsimp only
  split
  · exact oinv_some (inv_revoke h ..)
  · exact oinv_none

theorem inv_execHostRevoke (h : Inv s) (cl) : OutInv (execHostRevoke cl s) := by
  unfold execHostRevoke
  grind [Inv, outInv_next, outInv_fault, outInv_refused, inv_request, inv_answer, inv_revoke]

theorem inv_coldCores (h : Inv s) (cl) : Inv ((List.range 4).foldl (fun s i => coldCore s (4 * cl + i)) s) :=
  inv_foldl h (fun _ i h => inv_coldCore h (4 * cl + i)) _

theorem inv_execRevocationReturn (h : Inv s) (cl) : OutInv (execRevocationReturn cl s) := by
  refine inv_happens h (oinv_bind fun x _ => oinv_bind fun b _ => ?_)
  dsimp only
  split
  · refine oinv_some (inv_raise (inv_raise ?_ ..) ..)
    exact inv_coldCores h cl
  · exact oinv_none

theorem inv_execConfigurationLoad (h : Inv s) (bytes) : OutInv (execConfigurationLoad bytes s) := by
  unfold execConfigurationLoad
  grind [Inv, outInv_next, outInv_fault, outInv_refused, State.modReg_mem]

theorem inv_startFirmware (h : Inv s) (f) : Inv (startFirmware s f) := h

theorem inv_restartCores (h : Inv s) : Inv (restartCores s) := by
  unfold restartCores
  grind [Inv]

theorem inv_giveImage (h : Inv s) (bytes) : Inv (giveImage s bytes) := by
  unfold giveImage
  grind [Inv, State.modReg_mem]

theorem inv_execFirmwareLoad (h : Inv s) (bytes) : OutInv (execFirmwareLoad bytes s) := by
  unfold execFirmwareLoad
  grind [Inv, outInv_next, outInv_fault, outInv_refused, State.modReg_mem, inv_giveImage]

theorem inv_runExam (h : Inv s) (full clusters) : Inv (runExam s full clusters).2 := h

theorem inv_execExamRequest (h : Inv s) (p full) : OutInv (execExamRequest p full s) := by
  unfold execExamRequest
  grind [Inv, outInv_next, outInv_fault, outInv_refused, inv_answer, inv_runExam, State.modReg_mem, inv_removePart]

theorem inv_bootFails (h : Inv s) (error) : Inv (bootFails s error) := h

theorem inv_scrubAll (h : Inv s) : Inv (scrubAll s) := wf_filter h _

theorem inv_bootStep (h : Inv s) : OInv (bootStep s) := by
  unfold bootStep
  dsimp only
  split
  · refine oinv_map fun k _ => inv_ite (inv_modReg (inv_modReg h _) _) (inv_bootFails h _)
  · exact oinv_some (inv_ite (inv_modReg (inv_draw h) _) (inv_bootFails (inv_draw h) _))
  · exact oinv_some (inv_ite (inv_modReg (inv_scrubAll (inv_draw h)) _) (inv_bootFails (inv_draw h) _))
  · exact oinv_map fun b _ => inv_ite (inv_bootFails h _) (inv_modReg (inv_startFirmware h _) _)
  · exact oinv_some (inv_modReg h _)
  · exact oinv_some (inv_modReg (inv_runExam h ..) _)
  · exact oinv_none

theorem inv_execPowerOnReset (h : Inv s) : OutInv (execPowerOnReset s) := by
  unfold execPowerOnReset
  grind [Inv, oinv_some, oinv_none, OInv.inv, outInv_next, outInv_fault, outInv_refused, inv_happens, inv_bootStep,
    inv_reset]

theorem inv_zeroTiers (h : Inv s) (r) : Inv (zeroTiers s r) := by
  refine inv_foldl h ?_ _
  intro s e h
  exact wf_scrubRange h _ _

theorem inv_sendImage (h : Inv s) (i) : Inv (sendImage s i) := by
  unfold sendImage
  grind [Inv, inv_showBytes]

theorem inv_imagesOut (h : Inv s) (p) : Inv (imagesOut s p) := by
  unfold imagesOut
  have hs := fun l => inv_foldl h (fun s g h => inv_saveTree h g false true none) l
  have hc := fun l m => inv_foldl (hs l) (fun s i h => inv_copyCsm h i) m
  have hi := fun l m n => inv_foldl (hc l m) (fun s i h => inv_sendImage h i) n
  exact hi _ _ _

theorem inv_emptyPart (h : Inv s) (p images) : Inv (emptyPart s p images) := by
  unfold emptyPart
  grind [Inv, inv_recallLent, inv_abortPart, inv_imagesOut]

theorem inv_coldClusters (h : Inv s) (cls : List Nat) :
    Inv (cls.foldl (fun s k => (List.range 4).foldl (fun s i => coldCore s (4 * k + i)) s) s) :=
  inv_foldl h (fun _ k h => inv_coldCores h k) cls

theorem inv_scrubPart (h : Inv s) (p x) : Inv (scrubPart s p x) := by
  refine inv_zeroTiers ?_ _
  exact inv_coldClusters h _

theorem inv_keepPart (h : Inv s) (p) : Inv (keepPart s p) := h

theorem inv_finishTurnover (h : Inv s) (p x whole full fw) : Inv (finishTurnover s p x whole full fw) := by
  unfold finishTurnover
  grind [Inv, inv_giveImage, inv_keepPart, inv_startFirmware, inv_restartCores, inv_runExam, inv_removePart]

theorem inv_execTurnover (h : Inv s) (p images full fw) : OutInv (execTurnover p images full fw s) := by
  unfold execTurnover
  grind [Inv, outInv_next, outInv_fault, outInv_refused, inv_answer, inv_scrubPart, inv_emptyPart,
    inv_finishTurnover, inv_removePart, State.modReg_mem]

theorem inv_execRailSample (h : Inv s) (current power temp volt) :
    OutInv (execRailSample current power temp volt s) := by
  unfold execRailSample
  grind [Inv, outInv_next, outInv_fault, outInv_refused, inv_draw, State.modReg_mem, inv_feedMonitors, inv_health,
    inv_deviceError]

theorem inv_execHealthMonitorReadClear (h : Inv s) (m clear) : OutInv (execHealthMonitorReadClear m clear s) := by
  unfold execHealthMonitorReadClear
  grind [Inv, outInv_next, outInv_fault, outInv_refused, inv_request, inv_answer, State.modReg_mem]

theorem inv_execHealthLogRead (h : Inv s) : OutInv (execHealthLogRead s) := by
  unfold execHealthLogRead
  grind [Inv, outInv_next, outInv_fault, outInv_refused, inv_request, State.modReg_mem]

theorem inv_execLinkFrameError (h : Inv s) (link) : OutInv (execLinkFrameError link s) := by
  unfold execLinkFrameError
  refine inv_happens h (oinv_bind fun _ _ => ?_)
  grind [Inv, oinv_some, oinv_none, OInv.inv, inv_draw, State.modLink_mem, inv_countLink, inv_feedMonitors,
    inv_health]

theorem inv_execLinkRetrainComplete (h : Inv s) (link ok) : OutInv (execLinkRetrainComplete link ok s) := by
  unfold execLinkRetrainComplete
  refine inv_happens h (oinv_bind fun _ _ => ?_)
  grind [Inv, oinv_some, oinv_none, OInv.inv, State.modLink_mem, inv_health, inv_feedMonitors, inv_draw,
    inv_deviceError]

theorem inv_execDeadlockTimeout (h : Inv s) (flow) : OutInv (execDeadlockTimeout flow s) := by
  unfold execDeadlockTimeout
  grind [Inv, oinv_some, oinv_none, OInv.inv, outInv_next, outInv_fault, outInv_refused, inv_happens]

theorem inv_flowReturns (h : Inv s) (flow) : Inv (flowReturns s flow) := by
  unfold flowReturns
  grind [Inv, inv_draw, inv_countLink]

theorem inv_execEscapeReturn (h : Inv s) (flow) : OutInv (execEscapeReturn flow s) := by
  unfold execEscapeReturn
  refine inv_happens h (oinv_bind fun _ _ => ?_)
  grind [Inv, oinv_some, oinv_none, OInv.inv, inv_flowReturns]

theorem inv_lateFlows (h : Inv s) : Inv (lateFlows s) := by
  unfold lateFlows
  refine inv_foldl h ?_ _
  intro s e h
  grind [Inv, inv_flowReturns]

theorem inv_spdm (h : Inv s) (k req inOrder next covers) : Inv (spdm s k req inOrder next covers) := by
  unfold spdm
  grind [Inv, State.modReg_mem]

theorem inv_execGetVersion (h : Inv s) : OutInv (execGetVersion s) := by
  unfold execGetVersion
  grind [Inv, outInv_next, outInv_fault, outInv_refused, inv_spdm]

theorem inv_execGetCapabilities (h : Inv s) : OutInv (execGetCapabilities s) := by
  unfold execGetCapabilities
  grind [Inv, outInv_next, outInv_fault, outInv_refused, inv_spdm]

theorem inv_execNegotiateAlgorithms (h : Inv s) (req) : OutInv (execNegotiateAlgorithms req s) := by
  unfold execNegotiateAlgorithms
  grind [Inv, outInv_next, outInv_fault, outInv_refused, inv_spdm]

theorem inv_execGetDigests (h : Inv s) : OutInv (execGetDigests s) := by
  unfold execGetDigests
  grind [Inv, outInv_next, outInv_fault, outInv_refused, inv_spdm]

theorem inv_execGetCertificate (h : Inv s) (off len) : OutInv (execGetCertificate off len s) := by
  unfold execGetCertificate
  grind [Inv, outInv_next, outInv_fault, outInv_refused, inv_spdm]

theorem inv_execChallenge (h : Inv s) (nonce) : OutInv (execChallenge nonce s) := by
  unfold execChallenge
  grind [Inv, outInv_next, outInv_fault, outInv_refused, inv_spdm]

theorem inv_execGetMeasurements (h : Inv s) (p idx nonce) : OutInv (execGetMeasurements p idx nonce s) := by
  unfold execGetMeasurements
  grind [Inv, outInv_next, outInv_fault, outInv_refused, inv_spdm]

theorem inv_execKeyExchange (h : Inv s) (p share) : OutInv (execKeyExchange p share s) := by
  unfold execKeyExchange
  grind [Inv, outInv_next, outInv_fault, outInv_refused, inv_spdm]

theorem inv_execFinish (h : Inv s) (mac) : OutInv (execFinish mac s) := by
  unfold execFinish
  grind [Inv, outInv_next, outInv_fault, outInv_refused, inv_spdm, inv_draw]

/-! ### Integer and scalar members, and accesses from outside -/

theorem inv_alu2 (h : Inv s) (d a b f) : (Cx.alu2 c s d a b f).Inv := by
  unfold Cx.alu2
  grind [Inv, MRes.Inv, inv_wrL]

theorem inv_alu1 (h : Inv s) (d a f) : (Cx.alu1 c s d a f).Inv := by
  unfold Cx.alu1
  grind [Inv, MRes.Inv, inv_wrL]

theorem inv_bodyIadd (h : Inv s) (d a b) : (bodyIadd d a b c s).Inv := by
  unfold bodyIadd
  grind [Inv, MRes.Inv, inv_alu2]

theorem inv_bodyIsub (h : Inv s) (d a b) : (bodyIsub d a b c s).Inv := by
  unfold bodyIsub
  grind [Inv, MRes.Inv, inv_alu2]

theorem inv_bodyImul (h : Inv s) (d a b) : (bodyImul d a b c s).Inv := by
  unfold bodyImul
  grind [Inv, MRes.Inv, inv_alu2]

theorem inv_bodyImulhs (h : Inv s) (d a b) : (bodyImulhs d a b c s).Inv := by
  unfold bodyImulhs
  grind [Inv, MRes.Inv, inv_alu2]

theorem inv_bodyImulhu (h : Inv s) (d a b) : (bodyImulhu d a b c s).Inv := by
  unfold bodyImulhu
  grind [Inv, MRes.Inv, inv_alu2]

theorem inv_bodyImin (h : Inv s) (d a b) : (bodyImin d a b c s).Inv := by
  unfold bodyImin
  grind [Inv, MRes.Inv, inv_alu2]

theorem inv_bodyImax (h : Inv s) (d a b) : (bodyImax d a b c s).Inv := by
  unfold bodyImax
  grind [Inv, MRes.Inv, inv_alu2]

theorem inv_bodyUmin (h : Inv s) (d a b) : (bodyUmin d a b c s).Inv := by
  unfold bodyUmin
  grind [Inv, MRes.Inv, inv_alu2]

theorem inv_bodyUmax (h : Inv s) (d a b) : (bodyUmax d a b c s).Inv := by
  unfold bodyUmax
  grind [Inv, MRes.Inv, inv_alu2]

theorem inv_bodyIabs (h : Inv s) (d a) : (bodyIabs d a c s).Inv := by
  unfold bodyIabs
  grind [Inv, MRes.Inv, inv_alu1]

theorem inv_bodyIadds (h : Inv s) (d a b) : (bodyIadds d a b c s).Inv := by
  unfold bodyIadds
  grind [Inv, MRes.Inv, inv_alu2]

theorem inv_bodyAnd (h : Inv s) (d a b) : (bodyAnd d a b c s).Inv := by
  unfold bodyAnd
  grind [Inv, MRes.Inv, inv_alu2]

theorem inv_bodyOr (h : Inv s) (d a b) : (bodyOr d a b c s).Inv := by
  unfold bodyOr
  grind [Inv, MRes.Inv, inv_alu2]

theorem inv_bodyXor (h : Inv s) (d a b) : (bodyXor d a b c s).Inv := by
  unfold bodyXor
  grind [Inv, MRes.Inv, inv_alu2]

theorem inv_bodyShl (h : Inv s) (d a b) : (bodyShl d a b c s).Inv := by
  unfold bodyShl
  grind [Inv, MRes.Inv, inv_alu2]

theorem inv_bodyShr (h : Inv s) (d a b) : (bodyShr d a b c s).Inv := by
  unfold bodyShr
  grind [Inv, MRes.Inv, inv_alu2]

theorem inv_bodySar (h : Inv s) (d a b) : (bodySar d a b c s).Inv := by
  unfold bodySar
  grind [Inv, MRes.Inv, inv_alu2]

theorem inv_bodyPopc (h : Inv s) (d a) : (bodyPopc d a c s).Inv := by
  unfold bodyPopc
  grind [Inv, MRes.Inv, inv_alu1]

theorem inv_bodyClz (h : Inv s) (d a) : (bodyClz d a c s).Inv := by
  unfold bodyClz
  grind [Inv, MRes.Inv, inv_alu1]

theorem inv_bodyMov (h : Inv s) (d a) : (bodyMov d a c s).Inv := by
  unfold bodyMov
  grind [Inv, MRes.Inv, inv_alu1]

theorem inv_bodyImad (h : Inv s) (d a b x mode) : (bodyImad d a b x mode c s).Inv := by
  unfold bodyImad
  grind [Inv, MRes.Inv, inv_wrL, inv_wrD]

theorem inv_bodyBfx (h : Inv s) (d a b imm pos sgn w1) : (bodyBfx d a b imm pos sgn w1 c s).Inv := by
  unfold bodyBfx
  grind [Inv, MRes.Inv, inv_wrL]

theorem inv_bodyBfi (h : Inv s) (d a b imm pos w1) : (bodyBfi d a b imm pos w1 c s).Inv := by
  unfold bodyBfi
  grind [Inv, MRes.Inv, inv_wrL]

theorem inv_bodySel (h : Inv s) (d a b p) : (bodySel d a b p c s).Inv := by
  unfold bodySel
  grind [Inv, MRes.Inv, inv_wrL]

theorem inv_bodyMovil (h : Inv s) (d imm) : (bodyMovil d imm c s).Inv := by
  unfold bodyMovil
  grind [Inv, MRes.Inv, inv_wrL]

theorem inv_bodyMovih (h : Inv s) (d imm) : (bodyMovih d imm c s).Inv := by
  unfold bodyMovih
  grind [Inv, MRes.Inv, inv_wrL]

theorem inv_bodyIcmp (h : Inv s) (pd cc a b) : (bodyIcmp pd cc a b c s).Inv := by
  unfold bodyIcmp
  grind [Inv, MRes.Inv, inv_compare]

theorem inv_bodyUcmp (h : Inv s) (pd cc a b) : (bodyUcmp pd cc a b c s).Inv := by
  unfold bodyUcmp
  grind [Inv, MRes.Inv, inv_compare]

theorem inv_bodySadd (hc : Inv c.pre) (h : Inv s) (d a b) : (bodySadd d a b c s).Inv := by
  unfold bodySadd
  grind [Inv, MRes.Inv, inv_scalarWrite]

theorem inv_bodySsub (hc : Inv c.pre) (h : Inv s) (d a b) : (bodySsub d a b c s).Inv := by
  unfold bodySsub
  grind [Inv, MRes.Inv, inv_scalarWrite]

theorem inv_bodySmul (hc : Inv c.pre) (h : Inv s) (d a b) : (bodySmul d a b c s).Inv := by
  unfold bodySmul
  grind [Inv, MRes.Inv, inv_scalarWrite]

theorem inv_bodySand (hc : Inv c.pre) (h : Inv s) (d a b) : (bodySand d a b c s).Inv := by
  unfold bodySand
  grind [Inv, MRes.Inv, inv_scalarWrite]

theorem inv_bodySor (hc : Inv c.pre) (h : Inv s) (d a b) : (bodySor d a b c s).Inv := by
  unfold bodySor
  grind [Inv, MRes.Inv, inv_scalarWrite]

theorem inv_bodySxor (hc : Inv c.pre) (h : Inv s) (d a b) : (bodySxor d a b c s).Inv := by
  unfold bodySxor
  grind [Inv, MRes.Inv, inv_scalarWrite]

theorem inv_bodySshl (hc : Inv c.pre) (h : Inv s) (d a b) : (bodySshl d a b c s).Inv := by
  unfold bodySshl
  grind [Inv, MRes.Inv, inv_scalarWrite]

theorem inv_bodySshr (hc : Inv c.pre) (h : Inv s) (d a b) : (bodySshr d a b c s).Inv := by
  unfold bodySshr
  grind [Inv, MRes.Inv, inv_scalarWrite]

theorem inv_bodySmov (hc : Inv c.pre) (h : Inv s) (d a) : (bodySmov d a c s).Inv := by
  unfold bodySmov
  grind [Inv, MRes.Inv, inv_scalarWrite]

theorem inv_bodySmovi (hc : Inv c.pre) (h : Inv s) (d imm) : (bodySmovi d imm c s).Inv := by
  unfold bodySmovi
  grind [Inv, MRes.Inv, inv_scalarWrite]

theorem inv_bodySmovx (hc : Inv c.pre) (h : Inv s) (d a k imm) : (bodySmovx d a k imm c s).Inv := by
  unfold bodySmovx
  grind [Inv, MRes.Inv, inv_scalarWrite]

theorem inv_bodyScmp (hc : Inv c.pre) (h : Inv s) (pd cc a b) : (bodyScmp pd cc a b c s).Inv := by
  unfold bodyScmp
  grind [Inv, MRes.Inv, inv_wrQ]

theorem inv_execHostWrite (h : Inv s) (tier pa bytes) : OutInv (execHostWrite tier pa bytes s) := by
  unfold execHostWrite
  grind [Inv, outInv_next, outInv_fault, outInv_refused, inv_setMem]

theorem inv_execMailboxRead (h : Inv s) (fn vec) : OutInv (execMailboxRead fn vec s) := by
  unfold execMailboxRead
  grind [Inv, oinv_some, oinv_none, OInv.inv, outInv_next, outInv_fault, outInv_refused, inv_happens,
    State.modReg_mem]

theorem inv_execMsiXUnmask (h : Inv s) (fn vec) : OutInv (execMsiXUnmask fn vec s) := by
  unfold execMsiXUnmask
  grind [Inv, oinv_some, oinv_none, OInv.inv, outInv_next, outInv_fault, outInv_refused, inv_happens, inv_sendVec]

theorem inv_answerPeer (h : Inv s) (dev a) : Inv (answerPeer s dev a) := h

theorem inv_peerPerform (h : Inv s) (dev t1 pa n key) {f} (hf : ∀ s, Inv s → Inv (f s)) :
    Inv (peerPerform s dev t1 pa n key f) := by
  unfold peerPerform
  dsimp only
  refine inv_ite (inv_answerPeer h ..) (inv_ite (inv_answerPeer (inv_setAliased h _) ..) (hf _ (inv_bindTag h _)))

theorem inv_peerMessage (h : Inv s) (dev part target m) : Inv (peerMessage s dev part target m) := by
  unfold peerMessage
  grind [Inv, inv_dropMsg, State.modGrid_mem, inv_fresh]

theorem inv_execPeerAccess (h : Inv s) (dev part addr op) : OutInv (execPeerAccess dev part addr op s) := by
  unfold execPeerAccess
  grind [Inv, outInv_next, outInv_fault, outInv_refused, inv_peerPerform, inv_answerPeer, inv_setMem, inv_peerMessage]

theorem inv_underPoison (h : Inv s) (gran) {f} (hf : ∀ s, Inv s → OInv (f s)) : OInv (underPoison gran f s) := by
  unfold underPoison
  split
  · exact hf s h
  · refine (hf _ ?_).map ?_
    · exact h
    · intro t ht
      exact ht

/-! ### Every member of a chain -/

theorem inv_bodyOf (i : Instr) : BodyInv (bodyOf i) := by
  intro c s hc h
  cases i with
  | bt => exact inv_bodyBt hc h ..
  | bf => exact inv_bodyBf hc h ..
  | jmp sc disp => exact inv_bodyJmp hc h sc disp
  | loop sc n disp => exact inv_bodyLoop hc h sc n disp
  | endl sc disp => exact inv_bodyEndl hc h sc disp
  | call => exact inv_bodyCall hc h ..
  | callFrame => exact inv_bodyCallFrame hc h ..
  | ret sc => exact inv_bodyRet hc h sc
  | frdef sc lvl half mask modes => exact inv_bodyFrdef hc h sc lvl half mask modes
  | frfence sc lvl => exact inv_bodyFrfence hc h sc lvl
  | spawn => exact inv_bodySpawn hc h ..
  | launch => exact inv_bodyLaunch hc h ..
  | waitf => exact inv_bodyWaitf hc h ..
  | bar => exact inv_bodyBar hc h ..
  | barArr => exact inv_bodyBarArr hc h ..
  | waitm a base idx sz scale x cond => exact inv_bodyWaitm hc h a base idx sz scale x cond
  | swi => exact inv_bodySwi hc h ..
  | trap => exact inv_bodyTrap (c := c) h _
  | brk => exact inv_bodyBrk (c := c) h _
  | wmark => exact inv_bodyWmark hc h ..
  | pushm => exact inv_bodyPushm hc h ..
  | popm => exact inv_bodyPopm hc h ..
  | iadd => exact inv_bodyIadd h ..
  | isub => exact inv_bodyIsub h ..
  | imul => exact inv_bodyImul h ..
  | imulhs => exact inv_bodyImulhs h ..
  | imulhu => exact inv_bodyImulhu h ..
  | imad => exact inv_bodyImad h ..
  | imin => exact inv_bodyImin h ..
  | imax => exact inv_bodyImax h ..
  | umin => exact inv_bodyUmin h ..
  | umax => exact inv_bodyUmax h ..
  | iabs => exact inv_bodyIabs h ..
  | iadds => exact inv_bodyIadds h ..
  | and => exact inv_bodyAnd h ..
  | or => exact inv_bodyOr h ..
  | xor => exact inv_bodyXor h ..
  | shl => exact inv_bodyShl h ..
  | shr => exact inv_bodyShr h ..
  | sar => exact inv_bodySar h ..
  | popc => exact inv_bodyPopc h ..
  | clz => exact inv_bodyClz h ..
  | bfx => exact inv_bodyBfx h ..
  | bfi => exact inv_bodyBfi h ..
  | sel => exact inv_bodySel h ..
  | mov => exact inv_bodyMov h ..
  | movil => exact inv_bodyMovil h ..
  | movih => exact inv_bodyMovih h ..
  | icmp => exact inv_bodyIcmp h ..
  | ucmp => exact inv_bodyUcmp h ..
  | fadd => exact inv_bodyFadd h ..
  | fsub => exact inv_bodyFsub h ..
  | fmul => exact inv_bodyFmul h ..
  | ffma => exact inv_bodyFfma h ..
  | fmin => exact inv_bodyFmin h ..
  | fmax => exact inv_bodyFmax h ..
  | fcmp => exact inv_bodyFcmp h ..
  | frcp => exact inv_bodyFrcp h ..
  | frsq => exact inv_bodyFrsq h ..
  | fsqrt => exact inv_bodyFsqrt h ..
  | fex2 => exact inv_bodyFex2 h ..
  | flg2 => exact inv_bodyFlg2 h ..
  | hadd2 => exact inv_bodyHadd2 h ..
  | hmul2 => exact inv_bodyHmul2 h ..
  | hfma2 => exact inv_bodyHfma2 h ..
  | cvt => exact inv_bodyCvt h ..
  | cvtq => exact inv_bodyCvtq h ..
  | frnd => exact inv_bodyFrnd h ..
  | fscl => exact inv_bodyFscl h ..
  | fcls => exact inv_bodyFcls h ..
  | vote => exact inv_bodyVote hc h ..
  | pfxc => exact inv_bodyPfxc h ..
  | shfl => exact inv_bodyShfl hc h ..
  | rdfirst => exact inv_bodyRdfirst hc h ..
  | rdlane => exact inv_bodyRdlane hc h ..
  | reduce => exact inv_bodyReduce hc h ..
  | plog => exact inv_bodyPlog h ..
  | actm => exact inv_bodyActm hc h ..
  | sadd => exact inv_bodySadd hc h ..
  | ssub => exact inv_bodySsub hc h ..
  | smul => exact inv_bodySmul hc h ..
  | sand => exact inv_bodySand hc h ..
  | sor => exact inv_bodySor hc h ..
  | sxor => exact inv_bodySxor hc h ..
  | sshl => exact inv_bodySshl hc h ..
  | sshr => exact inv_bodySshr hc h ..
  | smov => exact inv_bodySmov hc h ..
  | smovi => exact inv_bodySmovi hc h ..
  | smovx => exact inv_bodySmovx hc h ..
  | scmp => exact inv_bodyScmp hc h ..
  | ld => exact inv_bodyLd hc h ..
  | ldExt => exact inv_bodyLdExt hc h ..
  | st => exact inv_bodySt hc h ..
  | stExt => exact inv_bodyStExt hc h ..
  | lds d base idx sz scale => exact inv_bodyLds hc h d base idx sz scale
  | ldsExt d base idx sz scale x sx => exact inv_bodyLdsExt hc h d base idx sz scale x sx
  | sts d base idx sz scale => exact inv_bodySts hc h d base idx sz scale
  | stsExt d base idx sz scale x => exact inv_bodyStsExt hc h d base idx sz scale x
  | ldstr => exact inv_bodyLdstr hc h ..
  | ststr => exact inv_bodyStstr hc h ..
  | cpst d base idx sz scale x p => exact inv_bodyCpst hc h d base idx sz scale x p
  | pmov => exact inv_bodyPmov hc h ..
  | pmovExt => exact inv_bodyPmovExt hc h ..
  | pref base idx sz scale => exact inv_bodyPref (c := c) h base idx sz scale
  | prefExt base idx sz scale x => exact inv_bodyPrefExt (c := c) h base idx sz scale x
  | atom d base idx sz scale x tag a op => exact inv_bodyAtom hc h d base idx sz scale x tag a op
  | cas i0 i1 i2 i3 i4 i5 i6 i7 i8 => exact inv_bodyCas hc h i0 i1 i2 i3 i4 i5 i6 i7 i8
  | atoms d base idx sz scale x tag a op => exact inv_bodyAtoms hc h d base idx sz scale x tag a op
  | fence kind ms => exact inv_bodyFence hc h kind ms
  | bop => exact inv_bodyBop hc h ..
  | copy => exact inv_bodyCopy hc h ..
  | copyt => exact inv_bodyCopyt hc h ..
  | amsg => exact inv_bodyAmsg hc h ..
  | mma => exact inv_bodyMma hc h ..
  | mmaq => exact inv_bodyMmaq hc h ..
  | mmasp => exact inv_bodyMmasp hc h ..
  | aclr => exact inv_bodyAclr hc h ..
  | ard => exact inv_bodyArd hc h ..
  | awr => exact inv_bodyAwr hc h ..
  | ascl => exact inv_bodyAscl hc h ..
  | csrr => exact inv_bodyCsrr hc h ..
  | csrw => exact inv_bodyCsrw hc h ..
  | clkr => exact inv_bodyClkr hc h ..
  | mark => exact inv_bodyMark h ..
  | pcnt => exact inv_bodyPcnt hc h ..
  | nop => exact inv_bodyNop (c := c) h
  | exit => exact inv_bodyExit (c := c) h
  | rcfence => exact inv_bodyRcfence h ..
  | _ => exact hc

theorem inv_issueHere (h : Inv s) (p) : OInv (issueHere p s) := by
  unfold issueHere
  refine oinv_bind fun gr _ => ?_
  have hf := inv_fetchPacket h p gr
  split
  · exact oinv_none
  · generalize fetchPacket s p gr = r at hf ⊢
    cases r with
    | words ws u =>
      dsimp only
      split
      · next ms _ =>
        have hi := inv_issueChain (s := u) hf p (ms := ms.map fun m => (m, bodyOf m.ins)) (by simp [inv_bodyOf])
        split
        · next hy => exact oinv_some (hi.inv _ hy)
        · exact oinv_none
      · exact oinv_none
    | _ => exact oinv_none

theorem inv_copyHere (h : Inv s) (id) : OInv ((liveCopy s id).bind fun k =>
    if !k.started || decide (k.total ≤ k.next) then none else match copyStep s id k with
      | .wrote s => some s
      | _ => none) := by
  refine oinv_bind fun k _ => ?_
  have hk := inv_copyStep h id k
  split
  · exact oinv_none
  · generalize copyStep s id k = r at hk ⊢
    cases r with
    | wrote u => exact oinv_some hk
    | _ => exact oinv_none

theorem inv_differs (h : Inv s) (gran) {f} (hf : ∀ s, Inv s → OInv (f s)) :
    OInv ((underPoison gran f s).bind fun u => if f s = some u then none else some u) := by
  refine (inv_underPoison h gran hf).bind fun u hu => ?_
  split
  · exact oinv_none
  · exact oinv_some hu

theorem oinv_ite {p : Prop} [Decidable p] {o u : Option State} (ho : OInv o) (hu : OInv u) :
    OInv (if p then o else u) := by
  split
  · exact ho
  · exact hu

theorem inv_execPeerErrorResponse (h : Inv s) (p addr) : OutInv (execPeerErrorResponse p addr s) := by
  refine inv_happens h ?_
  split
  · refine oinv_bind fun x _ => ?_
    split
    · exact inv_underPoison h _ fun s h => oinv_some (inv_turnAll (inv_modTeam h ..) ..)
    · refine oinv_ite (oinv_some (inv_dropPeerStore (inv_popStore h _) ..)) ?_
      split
      · refine oinv_orElse ⟨fun t ht => ?_⟩ ?_
        · obtain ⟨e, -, ht⟩ := List.exists_of_findSome?_eq_some ht
          exact (inv_differs h _ fun s h => inv_copyHere h e.1).inv t ht
        · exact inv_differs h _ fun s h => inv_issueHere h _
      · exact oinv_none
  · exact oinv_none

/-! ### Every instruction -/

theorem inv_execMember (h : Inv s) {i : Instr} (hi : pipeOf i ≠ none) : OutInv (exec i s) :=
  exec_member hi s ▸ inv_issue1 h i (inv_bodyOf i)

theorem inv_exec (h : Inv s) (i : Instr) : OutInv (exec i s) := by
  cases i with
  | packetFetch => exact inv_execPacketFetch h ..
  | tokenReceive => exact inv_execTokenReceive h ..
  | settleWaitEnd => exact inv_execSettleWaitEnd h ..
  | binTimerExpiry => exact inv_execBinTimerExpiry h ..
  | binFormOnSlotFree => exact inv_execBinFormOnSlotFree h ..
  | spawnRetry => exact inv_execSpawnRetry h ..
  | teamRetire => exact inv_execTeamRetire h ..
  | blockPlacement => exact inv_execBlockPlacement h ..
  | gridLaunchAccept => exact inv_execGridLaunchAccept h ..
  | forwardProgressSave => exact inv_execForwardProgressSave h ..
  | savedBlockRestore => exact inv_execSavedBlockRestore h ..
  | waitmWake => exact inv_execWaitmWake h ..
  | waitmPeriodicRead => exact inv_execWaitmPeriodicRead h ..
  | messageDeposit => exact inv_execMessageDeposit h ..
  | tileOperation => exact inv_execTileOperation h ..
  | copyStart => exact inv_execCopyStart h ..
  | copyComplete => exact inv_execCopyComplete h ..
  | copyFail => exact inv_execCopyFail h ..
  | parkedAccessResume => exact inv_execParkedAccessResume h ..
  | loadDataReturn => exact inv_execLoadDataReturn h ..
  | storePerform => exact inv_execStorePerform h ..
  | bankAluOperation => exact inv_execBankAluOperation h ..
  | tlbMissComplete => exact inv_execTlbMissComplete h ..
  | regenFillComplete => exact inv_execRegenFillComplete h ..
  | migrationPage => exact inv_execMigrationPage h ..
  | preemption => exact inv_execPreemption h ..
  | csmPartCopyComplete => exact inv_execCsmPartCopyComplete h ..
  | pcSample => exact inv_execPcSample h ..
  | coalescingTimerExpiry => exact inv_execCoalescingTimerExpiry h ..
  | queueWaitWake => exact inv_execQueueWaitWake h ..
  | queueWaitPeriodic => exact inv_execQueueWaitPeriodic h ..
  | portalKick => exact inv_execPortalKick h ..
  | queueStateResume => exact inv_execQueueStateResume h ..
  | queueStateStop => exact inv_execQueueStateStop h ..
  | queueStateReset => exact inv_execQueueStateReset h ..
  | portalWriteDiscarded => exact inv_execPortalWriteDiscarded h ..
  | ldi => exact inv_execLdi h ..
  | ldhi => exact inv_execLdhi h ..
  | add => exact inv_execAdd h ..
  | addi => exact inv_execAddi h ..
  | cmdLd => exact inv_execCmdLd h ..
  | cmdSt => exact inv_execCmdSt h ..
  | br => exact inv_execBr h ..
  | dloop => exact inv_execDloop h ..
  | calli => exact inv_execCalli h ..
  | wait => exact inv_execWait h ..
  | signalWrite => exact inv_execSignalWrite h ..
  | signalAdd => exact inv_execSignalAdd h ..
  | cmdCopy => exact inv_execCmdCopy h ..
  | cmdMigrate => exact inv_execCmdMigrate h ..
  | cmdLaunch => exact inv_execCmdLaunch h ..
  | launchg => exact inv_execLaunchg h ..
  | ctrlPreempt => exact inv_execCtrlPreempt h ..
  | ctrlDisposeResume => exact inv_execCtrlDisposeResume h ..
  | ctrlDisposeStep => exact inv_execCtrlDisposeStep h ..
  | ctrlDisposeAbort => exact inv_execCtrlDisposeAbort h ..
  | ctrlFreeze => exact inv_execCtrlFreeze h ..
  | ctrlThaw => exact inv_execCtrlThaw h ..
  | ctrlSetBreakpoint => exact inv_execCtrlSetBreakpoint h ..
  | ctrlRestoreImage => exact inv_execCtrlRestoreImage h ..
  | ctrlInvalidateTlb => exact inv_execCtrlInvalidateTlb h ..
  | ctrlTrimLog => exact inv_execCtrlTrimLog h ..
  | ctrlRewind => exact inv_execCtrlRewind h ..
  | ctrlReplay => exact inv_execCtrlReplay h ..
  | ctrlReplayToWindow => exact inv_execCtrlReplayToWindow h ..
  | ctrlReplayPerturb => exact inv_execCtrlReplayPerturb h ..
  | ctrlDebugRead => exact inv_execCtrlDebugRead h ..
  | ctrlReleaseRetained => exact inv_execCtrlReleaseRetained h ..
  | ctrlHostMarker => exact inv_execCtrlHostMarker h ..
  | ctrlReverseStep => exact inv_execCtrlReverseStep h ..
  | kfetch => exact inv_execKfetch h ..
  | kbfx => exact inv_execKbfx h ..
  | kwait => exact inv_execKwait h ..
  | kdisp => exact inv_execKdisp h ..
  | kjrnl => exact inv_execKjrnl h ..
  | kjrnlR => exact inv_execKjrnlR h ..
  | khold => exact inv_execKhold h ..
  | krel => exact inv_execKrel h ..
  | kroll => exact inv_execKroll h ..
  | cpcImemUncorrectable => exact inv_execCpcImemUncorrectable h ..
  | railSample => exact inv_execRailSample h ..
  | linkFrameError => exact inv_execLinkFrameError h ..
  | deadlockTimeout => exact inv_execDeadlockTimeout h ..
  | escapeReturn => exact inv_execEscapeReturn h ..
  | peerAccess => exact inv_execPeerAccess h ..
  | peerErrorResponse => exact inv_execPeerErrorResponse h ..
  | clusterLend => exact inv_execClusterLend h ..
  | clusterRevoke => exact inv_execClusterRevoke h ..
  | revocationReturn => exact inv_execRevocationReturn h ..
  | configurationLoad => exact inv_execConfigurationLoad h ..
  | firmwareLoad => exact inv_execFirmwareLoad h ..
  | partitionCreate => exact inv_execPartitionCreate h ..
  | partitionChange => exact inv_execPartitionChange h ..
  | partitionDestroy => exact inv_execPartitionDestroy h ..
  | queueCreate => exact inv_execQueueCreate h ..
  | regenerationTableWrite => exact inv_execRegenerationTableWrite h ..
  | messageEndpointBind => exact inv_execMessageEndpointBind h ..
  | importTableWrite => exact inv_execImportTableWrite h ..
  | deviceNumberAssign => exact inv_execDeviceNumberAssign h ..
  | deadlockTimeoutSet => exact inv_execDeadlockTimeoutSet h ..
  | tenantKeyLoad => exact inv_execTenantKeyLoad h ..
  | turnover => exact inv_execTurnover h ..
  | hostRevoke => exact inv_execHostRevoke h ..
  | queueExport => exact inv_execQueueExport h ..
  | queueImport => exact inv_execQueueImport h ..
  | examRequest => exact inv_execExamRequest h ..
  | healthMonitorReadClear => exact inv_execHealthMonitorReadClear h ..
  | eccInjection => exact inv_execEccInjection h ..
  | negotiateAlgorithms => exact inv_execNegotiateAlgorithms h ..
  | getCertificate => exact inv_execGetCertificate h ..
  | challenge => exact inv_execChallenge h ..
  | getMeasurements => exact inv_execGetMeasurements h ..
  | keyExchange => exact inv_execKeyExchange h ..
  | finish => exact inv_execFinish h ..
  | cpcCoreInstruction => exact inv_execCpcCoreInstruction h ..
  | hostWrite => exact inv_execHostWrite h ..
  | mailboxRead => exact inv_execMailboxRead h ..
  | msiXUnmask => exact inv_execMsiXUnmask h ..
  | linkRetrainComplete => exact inv_execLinkRetrainComplete h ..
  | illegalInstruction => exact inv_execIllegalInstruction h ..
  | cmdNop => exact inv_execCmdNop h ..
  | reti => exact inv_execReti h ..
  | powerOnReset => exact inv_execPowerOnReset h ..
  | healthLogRead => exact inv_execHealthLogRead h ..
  | getVersion => exact inv_execGetVersion h ..
  | getCapabilities => exact inv_execGetCapabilities h ..
  | getDigests => exact inv_execGetDigests h ..
  | _ => exact inv_execMember h (Option.some_ne_none _)

/-! ### Actors and the step -/

theorem inv_runChain (h : Inv s) (p lead d) : OutInv (runChain p lead d s) := by
  unfold runChain
  grind [Inv, MRes.Inv, outInv_next, outInv_fault, outInv_refused, inv_exec, inv_illegalAt, inv_issueChain,
    inv_bodyOf]

theorem inv_partyStep (h : Inv s) (p) : OutInv (partyStep p s) := by
  unfold partyStep
  grind [Inv, outInv_next, outInv_fault, outInv_refused, FetchRes.Inv, inv_endWalk, inv_fetchPacket, inv_runChain,
    inv_takeFault, inv_holdParty]

theorem inv_queueStep (h : Inv s) (q) : OutInv (queueStep q s) := by
  unfold queueStep
  split
  all_goals
    grind [Inv, CmdFetch.Inv, outInv_next, outInv_fault, outInv_refused, inv_fetchCommand, inv_queueFault,
      inv_feedMonitors, inv_takeRoll, inv_exec, inv_coreFault]

theorem inv_cpcStep (h : Inv s) (n) : OutInv (cpcStep n s) := by
  unfold cpcStep
  split
  · next f _ hf =>
    have hf := inv_cpcFetch h hf
    split
    · exact outInv_next h
    · cases f with
      | word w => exact inv_exec h _
      | fault u => exact outInv_next hf
      | bad => exact inv_exec h _
  · exact outInv_refused

theorem inv_noteTeam (h : Inv s) (e) : Inv (noteTeam s e) := by
  unfold noteTeam
  grind [Inv, State.modTeam_mem]

theorem inv_noteReady (h : Inv s) : Inv (noteReady s) := by
  unfold noteReady
  refine inv_foldl h ?_ _
  intro s e h
  grind [Inv, inv_noteTeam]

theorem inv_ageGroup (h : Inv s) (p) : Inv (ageGroup s p) := by
  unfold ageGroup
  split
  · split
    · exact inv_modTeam (inv_foldl h (fun _ y h => inv_modTeam h _ _ _ _) _) ..
    · exact h
  · exact h

theorem inv_upsetGranule (h : Inv s) (gran) : Inv (upsetGranule s gran) := by
  unfold upsetGranule
  grind [Inv, inv_health, inv_healthPart]

theorem inv_spontaneous (h : Inv s) : Inv (spontaneous s) := by
  unfold spontaneous
  grind [Inv, inv_upsetGranule]

theorem inv_advance (h : Inv s) : Inv (advance s) := by
  unfold advance
  grind [Inv, inv_spontaneous, inv_draw, inv_lateFlows]

theorem inv_choose (h : Inv s) : Inv (choose s) := by
  unfold choose
  grind [Inv, inv_advance, inv_noteReady, inv_draw, inv_ageGroup]

theorem inv_hallFault (h : Inv s) (p a) : Inv (hallFault s p a) := by
  unfold hallFault
  grind [Inv, inv_takeFault, inv_stopStore]

theorem inv_settleHall (h : Inv s) (g) : Inv (settleHall s g) := by
  unfold settleHall
  grind [Inv, inv_hallFault]

theorem inv_settleHalls (h : Inv s) : Inv (settleHalls s) := by
  unfold settleHalls
  split
  · exact inv_foldl h (fun _ g h => inv_settleHall h g) _
  · exact h

theorem inv_afterStep (h : Inv s) : Inv (afterStep s) := by
  unfold afterStep
  grind [Inv, inv_settleHalls, inv_settleReverse, inv_settleSignals]

theorem inv_act (h : Inv s) : OutInv (act s) := by
  unfold act
  grind [Inv, outInv_next, outInv_fault, outInv_refused, inv_choose, inv_partyStep, inv_queueStep, inv_cpcStep,
    inv_exec]

theorem inv_step (h : Inv s) : OutInv (step s) := by
  have ha := inv_act h
  unfold step
  split
  · exact outInv_next (inv_choose h)
  · split
    · next hy => exact outInv_next (inv_afterStep (ha.inv _ hy))
    · exact ha

/-- Settles O56: whatever a step performs, each function that it goes through keeps memory in its canonical form. -/
theorem invariantKept : Obligations.InvariantKept := fun _ _ h ht => (inv_step h).inv _ ht

end Sys2Proof.Machine
end
